-- ==== Sys2Proof/Word.lean ====
section
/-! DEFINITION. The word types of the SW1280 and the plainest arithmetic on them. -/

namespace Sys2Proof

/-- A 64-bit register or instruction word (R10, R47). -/
abbrev Word := BitVec 64

/-- A byte of memory (R10). -/
abbrev Byte := BitVec 8

/-- A set of lanes of a team, bit l for lane l (R134). -/
abbrev LaneSet := BitVec 1024

/-- A set of teams of a block, bit t for %team t (R277). -/
abbrev TeamSet := BitVec 48

/-- A sparse array: (key, value) pairs, keys strictly rising, no entry that holds the default. -/
abbrev Tab (α : Type) := List (Nat × α)

/-- Whether bit i of x is set, for a natural x. -/
def natBit (x i : Nat) : Bool := x / 2 ^ i % 2 == 1

/-- x[hi:lo] of a natural (R14). -/
def natBits (x hi lo : Nat) : Nat := x / 2 ^ lo % 2 ^ (hi + 1 - lo)

/-- One bit from a condition. -/
def bit1 (b : Bool) : Nat := if b then 1 else 0

/-- The two's complement reading of the low w bits of x (R52). -/
def signedOf (w x : Nat) : Int :=
  let m := x % 2 ^ w
  if m < 2 ^ (w - 1) then (m : Int) else (m : Int) - (2 ^ w : Nat)

/-- x reduced modulo 2^w, as a natural (R52). -/
def wrapNat (w : Nat) (x : Int) : Nat := (x % ((2 ^ w : Nat) : Int)).toNat

end Sys2Proof
end

