-- ==== Sys2Proof/Syntax.lean ====
section
/-! DEFINITION. The instructions and events of the SW1280: one constructor of Instr for each row of
spec/opcode_table.json. The operand types follow R17 to R31 and the encoding tables of each chapter. -/

namespace Sys2Proof

/-- Guard sense GS (R17). -/
inductive Sense where
  | isTrue | isFalse | isUndecided | notTrue
deriving DecidableEq, Repr

/-- What the F, I and B forms share: the switch marker S and the guard (R17). -/
structure Hdr where
  sw : Bool
  gp : BitVec 4
  gs : Sense
deriving DecidableEq, Repr

/-- The special sources 0xC1 to 0xCC (R19). -/
inductive Special where
  | lane | wlane | warp | team | block | nlanes | nteams | nblocks | core | cluster | die | launch
deriving DecidableEq, Repr

/-- A source register field (R19). -/
inductive Src where
  | v (r : BitVec 7)
  | k (r : BitVec 6)
  | zero
  | special (x : Special)
  | const (n : BitVec 4)
deriving DecidableEq, Repr

/-- A destination register field: 0x00 to 0xBF (R21). -/
inductive Dst where
  | v (r : BitVec 7)
  | k (r : BitVec 6)
deriving DecidableEq, Repr

/-- The type codes 0x0 to 0xE (R22). -/
inductive Ty where
  | s32 | n32 | b32 | s64 | n64 | b64 | s16 | n16 | s8 | n8 | f16 | bf16 | f32 | f64 | iv
deriving DecidableEq, Repr

/-- The rounding field (R57). -/
inductive Rnd where
  | rne | rtz | rdn | rup
deriving DecidableEq, Repr

/-- Operand modifiers (R24). -/
inductive Mod where
  | n | g | a | m
deriving DecidableEq, Repr

/-- A source with its operand modifier (R23, R24). -/
structure MSrc where
  mod : Mod
  src : Src
deriving DecidableEq, Repr

/-- Relations of icmp, icmpi and fcmp (R84). -/
inductive Rel where
  | eq | ne | lt | le | gt | ge
deriving DecidableEq, Repr

/-- Relations of ivcmp (R128). -/
inductive IvRel where
  | eq | ne | lt | le | gt | ge | sub | inn
deriving DecidableEq, Repr

/-- The undecided policy of sel (R84). -/
inductive SelPol where
  | uf | ut | uk
deriving DecidableEq, Repr

/-- vote modes (R180). -/
inductive VoteMode where
  | tmask | umask | every | any | count
deriving DecidableEq, Repr

/-- shfl modes (R181). -/
inductive ShflMode where
  | abs | rel | rot | mix | bcast
deriving DecidableEq, Repr

/-- scan and redl combinations (R182). -/
inductive ScanOp where
  | add | min | max | and | or
deriving DecidableEq, Repr

/-- rand modes (R188). -/
inductive RandMode where
  | b32 | b64 | u01
deriving DecidableEq, Repr

/-- Memory spaces (R25). -/
inductive Space where
  | gl | sp | vt | cn
deriving DecidableEq, Repr

/-- Memory widths (R25). -/
inductive Width where
  | n8 | n16 | w32 | w64 | iv | s8 | s16
deriving DecidableEq, Repr

/-- Memory hints (R25, R205). -/
inductive Hint where
  | none | keep | stream | bypass
deriving DecidableEq, Repr

/-- Space codes of mdrain (R260). -/
inductive DrainSpace where
  | sp | gl | vt
deriving DecidableEq, Repr

/-- ocmp modes (R266). -/
inductive OcmpMode where
  | lt | le | eq | gtix | gt
deriving DecidableEq, Repr

/-- Atomic operations (R338). -/
inductive AtomOp where
  | add | min | max | and | or | xor | exch | cas | inc
deriving DecidableEq, Repr

/-- Atomic space codes (R338). -/
inductive AtomSpace where
  | gl | sp | vt
deriving DecidableEq, Repr

/-- Order qualifiers of atom (R338). -/
inductive AtomOrder where
  | rlx | acq | rel | ar
deriving DecidableEq, Repr

/-- Fence orders (R343). -/
inductive FenceOrder where
  | acq | rel | sc
deriving DecidableEq, Repr

/-- Scope codes (R8, R337). -/
inductive Scope where
  | team | block | sheet | grid | span | sys
deriving DecidableEq, Repr

/-- The pair table, op7 0x00 to 0x1F (R36). -/
inductive PairOp where
  | iadd | isub | imul | imin | imax | land | lor | lxor
  | andn | shl | shr | sar | mov | popc | clz | brev
  | fadd | fsub | fmul | fmin | fmax | frcp | frsq | fsqrt
  | fex2 | flg2 | cvtf | ivadd | ivsub | ivmul | ivhull | ivmeet
deriving DecidableEq, Repr

/-- Guard codes of a pair slot (R29). -/
inductive SlotGuard where
  | always | p1true | p2true | p1notTrue
deriving DecidableEq, Repr

/-- The fields of a pair slot other than op7 (R29). -/
structure SlotArgs where
  d : BitVec 7
  b : Src
  g : SlotGuard
  ty : BitVec 3
  rnd : Rnd
  cls : BitVec 2
deriving DecidableEq, Repr

/-- A pair slot (R29). -/
structure Slot where
  op : PairOp
  args : SlotArgs
deriving DecidableEq, Repr

/-- Kinds of remote request that reach this package from the fabric (R438). -/
inductive RemoteKind where
  | load | store | atomic (op : AtomOp) (ty : Ty) | prefetch
deriving DecidableEq, Repr

/-- A remote request that reaches this package: its kind, the span it was sent under, the package that sent it, the
address, the width in bytes, its data (R438), and for a store in the scheduled class its deadline in fabric time (R453). -/
structure RemoteReq where
  kind : RemoteKind
  vt : Bool
  span : Nat
  package : Nat
  addr : Nat
  size : Nat
  data : Word
  cmp : Word
  due : Option Nat := none
deriving DecidableEq, Repr

/-- The registers of a team that a debug access names (R47, R51, R147, R426): those of a number and a lane, the special and
control registers, and an entry of the divergence stack by its place from the top. -/
inductive TeamPart where
  | v | k | p | t | pc | flags | mask | parked | exited | key | position | nb | hdlr | trapc | pend | stackMask | stackAddr
deriving DecidableEq, Repr

/-- What a debug access through Bexile asks for (R426). -/
inductive DebugKind where
  | halt | inspect | write | trace
deriving DecidableEq, Repr

/-- What a debug access acts on (R426). -/
inductive DebugTarget where
  | partition (n : Nat)
  | register (number : Nat)
  | memory (pa : Nat)
  | partitionMemory (n va : Nat)
  | teamReg (team : Nat) (part : TeamPart) (reg lane : Nat)
  | scratchpad (cluster addr : Nat)
  | accumulator (cluster entry : Nat)
deriving DecidableEq, Repr

/-- The sensors Bexile serves (R425). -/
inductive Sensor where
  | packagePower | railCurrent | dieTemperature (die : Nat)
deriving DecidableEq, Repr

/-- What wakes the package from retention (R422). -/
inductive WakeSource where
  | doorbell | managementBus | tarbin | debug
deriving DecidableEq, Repr

/-- A flit of the scheduled or ordinary class in transit through this package (R453). -/
structure Flit where
  target : Nat
  scheduled : Bool
  hops : Nat
  hmax : Nat
  payload : Nat
deriving DecidableEq, Repr

/-- The span of a collective and the fields of its record that every participant must share (R443). -/
structure CollKey where
  span : Nat
  tag : Nat
  op : Nat
  red : Nat
  ty : Nat
  size : Nat
  count : Nat
  timeout : Nat
  members : Nat
deriving DecidableEq, Repr


/-- The instructions of the SW1280 and the events of the machine, one constructor for each row of
spec/opcode_table.json. `h` is what the word's form shares; the other arguments are the fields the
instruction uses, in the order destination, sources, modifiers last where that reads better. Events carry
what the event names. -/
inductive Instr where
  -- integer class (R83)
  | iadd (h : Hdr) (ty : Ty) (sat : Bool) (d : Dst) (a b : Src)
  | isub (h : Hdr) (ty : Ty) (sat : Bool) (d : Dst) (a b : Src)
  | imul (h : Hdr) (ty : Ty) (sat : Bool) (d : Dst) (a b : Src)
  | imulh (h : Hdr) (ty : Ty) (d : Dst) (a b : Src)
  | imad (h : Hdr) (ty : Ty) (sat : Bool) (d : Dst) (a b c : Src)
  | imadw (h : Hdr) (ty : Ty) (d : Dst) (a b c : Src)
  | iaddx (h : Hdr) (ty : Ty) (sub : Bool) (ci : Option (BitVec 4)) (d : Dst) (a b : Src) (co : BitVec 4)
  | idiv (h : Hdr) (ty : Ty) (rem : Bool) (d : Dst) (a b : Src)
  | iabs (h : Hdr) (ty : Ty) (sat : Bool) (d : Dst) (a : Src)
  | ineg (h : Hdr) (ty : Ty) (sat : Bool) (d : Dst) (a : Src)
  | imin (h : Hdr) (ty : Ty) (d : Dst) (a b : Src)
  | imax (h : Hdr) (ty : Ty) (d : Dst) (a b : Src)
  | iclamp (h : Hdr) (ty : Ty) (d : Dst) (a b c : Src)
  | idp4 (h : Hdr) (sat ua ub : Bool) (d : Dst) (a b c : Src)
  | land (h : Hdr) (ty : Ty) (d : Dst) (a b : Src)
  | lor (h : Hdr) (ty : Ty) (d : Dst) (a b : Src)
  | lxor (h : Hdr) (ty : Ty) (d : Dst) (a b : Src)
  | andn (h : Hdr) (ty : Ty) (d : Dst) (a b : Src)
  | lut3 (h : Hdr) (ty : Ty) (tt : BitVec 8) (d : Dst) (a b c : Src)
  | shl (h : Hdr) (ty : Ty) (d : Dst) (a b : Src)
  | shr (h : Hdr) (ty : Ty) (d : Dst) (a b : Src)
  | sar (h : Hdr) (ty : Ty) (d : Dst) (a b : Src)
  | fshl (h : Hdr) (ty : Ty) (d : Dst) (a b c : Src)
  | popc (h : Hdr) (ty : Ty) (d : Dst) (a : Src)
  | clz (h : Hdr) (ty : Ty) (d : Dst) (a : Src)
  | ctz (h : Hdr) (ty : Ty) (d : Dst) (a : Src)
  | brev (h : Hdr) (ty : Ty) (d : Dst) (a : Src)
  | bfx (h : Hdr) (ty : Ty) (d : Dst) (a b c : Src)
  | bfi (h : Hdr) (ty : Ty) (d : Dst) (a b c : Src)
  | icmp (h : Hdr) (ty : Ty) (rel : Rel) (pd : BitVec 4) (a b : Src)
  | sel (h : Hdr) (ty : Ty) (pol : SelPol) (d : Dst) (a b : Src) (pc : BitVec 4)
  | cvti (h : Hdr) (td ts : Ty) (sat : Bool) (d : Dst) (a : Src)
  | mov (h : Hdr) (ty : Ty) (d : Dst) (a : Src)
  | lea (h : Hdr) (ty : Ty) (scale : BitVec 3) (d : Dst) (a b : Src)
  | bperm (h : Hdr) (ty : Ty) (d : Dst) (a b c : Src)
  -- floating-point class (R106)
  | fadd (h : Hdr) (ty : Ty) (rnd : Rnd) (d : Dst) (a b : MSrc)
  | fsub (h : Hdr) (ty : Ty) (rnd : Rnd) (d : Dst) (a b : MSrc)
  | fmul (h : Hdr) (ty : Ty) (rnd : Rnd) (d : Dst) (a b : MSrc)
  | ffma (h : Hdr) (ty : Ty) (rnd : Rnd) (d : Dst) (a b c : MSrc)
  | fmin (h : Hdr) (ty : Ty) (d : Dst) (a b : MSrc)
  | fmax (h : Hdr) (ty : Ty) (d : Dst) (a b : MSrc)
  | fcmp (h : Hdr) (ty : Ty) (rel : Rel) (pd : BitVec 4) (a b : MSrc)
  | frcp (h : Hdr) (rnd : Rnd) (d : Dst) (a : MSrc)
  | frsq (h : Hdr) (rnd : Rnd) (d : Dst) (a : MSrc)
  | fsqrt (h : Hdr) (ty : Ty) (rnd : Rnd) (d : Dst) (a : MSrc)
  | fdiv (h : Hdr) (ty : Ty) (rnd : Rnd) (d : Dst) (a b : MSrc)
  | fex2 (h : Hdr) (d : Dst) (a : MSrc)
  | flg2 (h : Hdr) (d : Dst) (a : MSrc)
  | fsinpi (h : Hdr) (d : Dst) (a : MSrc)
  | fcospi (h : Hdr) (d : Dst) (a : MSrc)
  | ftanh (h : Hdr) (d : Dst) (a : MSrc)
  | fclass (h : Hdr) (ty : Ty) (d : Dst) (a : MSrc)
  | fscale (h : Hdr) (ty : Ty) (rnd : Rnd) (d : Dst) (a : MSrc) (b : Src)
  | cvtf (h : Hdr) (td ts : Ty) (rnd : Rnd) (d : Dst) (a : MSrc)
  | cvtfi (h : Hdr) (td ts : Ty) (rnd : Rnd) (d : Dst) (a : MSrc)
  | cvtif (h : Hdr) (td ts : Ty) (rnd : Rnd) (d : Dst) (a : Src)
  | fdot2 (h : Hdr) (ty : Ty) (rnd : Rnd) (d : Dst) (a b : Src) (c : MSrc)
  -- interval class (R118)
  | ivpt (h : Hdr) (dbl : Bool) (d : Dst) (a : MSrc)
  | ivmake (h : Hdr) (d : Dst) (a b : MSrc)
  | ivlo (h : Hdr) (d : Dst) (a : MSrc)
  | ivhi (h : Hdr) (d : Dst) (a : MSrc)
  | ivmid (h : Hdr) (d : Dst) (a : MSrc)
  | ivwid (h : Hdr) (d : Dst) (a : MSrc)
  | ivadd (h : Hdr) (d : Dst) (a b : MSrc)
  | ivsub (h : Hdr) (d : Dst) (a b : MSrc)
  | ivmul (h : Hdr) (d : Dst) (a b : MSrc)
  | ivfma (h : Hdr) (d : Dst) (a b c : MSrc)
  | ivdiv (h : Hdr) (d : Dst) (a b : MSrc)
  | ivsqr (h : Hdr) (d : Dst) (a : MSrc)
  | ivsqrt (h : Hdr) (d : Dst) (a : MSrc)
  | ivrsqrt (h : Hdr) (d : Dst) (a : MSrc)
  | ivhull (h : Hdr) (d : Dst) (a b : MSrc)
  | ivmeet (h : Hdr) (ne : Bool) (d : Dst) (a b : MSrc)
  | ivcmp (h : Hdr) (rel : IvRel) (pd : BitVec 4) (a b : MSrc)
  | ivsplit (h : Hdr) (d e : BitVec 7) (a : MSrc)
  | ivbis (h : Hdr) (d : BitVec 7) (a : MSrc) (q : BitVec 6) (tag : Src) (pc : BitVec 4)
  -- core class (R167)
  | nop (h : Hdr)
  | exit (h : Hdr)
  | yield (h : Hdr)
  | trap (h : Hdr) (code : BitVec 8)
  | ret (h : Hdr) (k : BitVec 6)
  | cvg (h : Hdr)
  | pand (h : Hdr) (na nb : Bool) (pd pa pb : BitVec 4)
  | por (h : Hdr) (na nb : Bool) (pd pa pb : BitVec 4)
  | pnot (h : Hdr) (pd pa : BitVec 4)
  | pdec (h : Hdr) (ut : Bool) (pd pa : BitVec 4)
  | pmov (h : Hdr) (pd : BitVec 4) (a : Src)
  | pget (h : Hdr) (d : Dst) (pa : BitVec 4)
  | vote (h : Hdr) (team : Bool) (mode : VoteMode) (d : Dst) (pa : BitVec 4)
  | shfl (h : Hdr) (team : Bool) (mode : ShflMode) (d : BitVec 7) (a b : Src) (pc : BitVec 4)
  | scan (h : Hdr) (ty : Ty) (warp excl : Bool) (op : ScanOp) (d : BitVec 7) (a : Src)
  | redl (h : Hdr) (ty : Ty) (team : Bool) (op : ScanOp) (d : Dst) (a : Src)
  | push (h : Hdr) (d : BitVec 7) (a b : Src)
  | matchLanes (h : Hdr) (ty : Ty) (d : BitVec 7) (a : Src)
  | vget (h : Hdr) (d : BitVec 7) (k : BitVec 6)
  | vput (h : Hdr) (a : Src) (k : BitVec 6)
  | rand (h : Hdr) (mode : RandMode) (d : BitVec 7)
  | rkey (h : Hdr) (a b : BitVec 6) (c : Option (BitVec 6))
  | rfork (h : Hdr) (d : BitVec 5) (a : BitVec 6)
  | vstag (h : Hdr) (d : Dst) (a : BitVec 7)
  | getc (h : Hdr) (d : Dst) (ctl : BitVec 4)
  | setc (h : Hdr) (ctl : BitVec 4) (a : Src)
  | setcFlags (h : Hdr) (a : Src)
  | setcBindctl (h : Hdr) (a : Src)
  | setcStream (h : Hdr) (ctl : BitVec 4) (a : Src)
  | setcPassc (h : Hdr) (a : Src)
  | setcRatio (h : Hdr) (a : Src)
  -- memory and copy class (R224)
  | ld (h : Hdr) (space : Space) (w : Width) (hint : Hint) (d : Dst) (a : Src) (off : BitVec 16)
  | st (h : Hdr) (space : Space) (w : Width) (hint : Hint) (a data : Src) (off : BitVec 16)
  | pref (h : Hdr) (space : Space) (hint : Hint) (a : Src) (off : BitVec 16)
  | cpy (h : Hdr) (store x2 : Bool) (space : Space) (w : Width) (hint : Hint) (tok : BitVec 6) (vm vs : BitVec 7)
      (off : BitVec 16)
  | cpyt (h : Hdr) (store : Bool) (space : Space) (hint : Hint) (tok : BitVec 6) (grp tile : BitVec 4)
      (off : BitVec 16)
  | cpym (h : Hdr) (space : Space) (hint : Hint) (tok : BitVec 6) (grp : BitVec 4) (cmd : BitVec 6)
      (off : BitVec 16)
  | cpys (h : Hdr) (space : Space) (hint : Hint) (tok : BitVec 6) (grp src idx : BitVec 4)
      (off : BitVec 16)
  | tkchk (h : Hdr) (d : Dst) (tok : BitVec 6)
  | lyset (h : Hdr) (space : Space) (hint : Hint) (grp : BitVec 4) (base : Option (BitVec 6)) (off : BitVec 16)
  -- matrix and relation class (R245)
  | tdesc (h : Hdr) (t : BitVec 4) (a : BitVec 6) (b : Option (BitVec 6))
  | mzero (h : Hdr) (i96 : Bool) (acc : BitVec 2)
  | mma (h : Hdr) (tb : Bool) (acc : BitVec 2) (ta tb' : BitVec 4)
  | mmab (h : Hdr) (scaled ctr : Bool) (planes : BitVec 4) (acc : BitVec 2) (ta tb' : BitVec 4)
  | mdrain (h : Hdr) (space : DrainSpace) (hint : Hint) (clr add : Bool) (tok : BitVec 6) (acc : BitVec 2)
      (tile : BitVec 4) (grp : Option (BitVec 4))
  | ocmp (h : Hdr) (mode : OcmpMode) (d x y : BitVec 4)
  | rcount (h : Hdr) (d a : BitVec 4)
  | rclose (h : Hdr) (refl : Bool) (d a : BitVec 4)
  | rcomp (h : Hdr) (d a b : BitVec 4)
  | rtrans (h : Hdr) (d a : BitVec 4)
  | qcvt (h : Hdr) (k : BitVec 6) (a mask dst : BitVec 4) (q : BitVec 6)
  | qexp (h : Hdr) (ctr : Bool) (planes : BitVec 4) (d a m : BitVec 4) (q : BitVec 6)
  -- cluster synchronisation (R276)
  | barMeet (h : Hdr) (id : BitVec 4) (part : Option (BitVec 6))
  | barPost (h : Hdr) (id : BitVec 4) (part : Option (BitVec 6))
  | barAwait (h : Hdr) (id : BitVec 4)
  | rwatchOff (h : Hdr)
  | rwatchOn (h : Hdr)
  | rwatchClr (h : Hdr)
  -- die (R335)
  | atom (h : Hdr) (ty : Ty) (op : AtomOp) (space : AtomSpace) (order : AtomOrder) (scope : Scope) (d : Dst)
      (a b : Src) (c : Option Src)
  | fence (h : Hdr) (order : FenceOrder) (scope : Scope)
  | gbarMeet (h : Hdr)
  | gbarPost (h : Hdr)
  | gbarAwait (h : Hdr)
  | launch (h : Hdr) (tok q r : BitVec 6)
  | lcount (h : Hdr) (tok c : BitVec 6)
  | qwork (h : Hdr) (grp : BitVec 4) (t i : BitVec 6)
  -- package and fabric system (R408, R452, R443, R441)
  | pctlRd (h : Hdr) (d : Dst) (a : BitVec 6)
  | pctlWr (h : Hdr) (d : Dst) (a b : BitVec 6)
  | pctlWrQcfg (h : Hdr) (d : Dst) (a b : BitVec 6)
  | pctlWrQuota (h : Hdr) (d : Dst) (a b : BitVec 6)
  | pctlWrIfneg (h : Hdr) (d : Dst) (a b : BitVec 6)
  | pctlWrPwstate (h : Hdr) (d : Dst) (a b : BitVec 6)
  | pctlWrPwcap (h : Hdr) (d : Dst) (a b : BitVec 6)
  | pctlWrFwin (h : Hdr) (d : Dst) (a b : BitVec 6)
  | pctlPreempt (h : Hdr) (d : Dst) (a : BitVec 6) (b : Option (BitVec 6))
  | pctlResume (h : Hdr) (d : Dst) (a : BitVec 6)
  | pctlDrain (h : Hdr) (d : Dst) (a : BitVec 6)
  | pctlReset (h : Hdr) (d : Dst) (a : BitVec 6)
  | pctlTlbi (h : Hdr) (d : Dst) (a : BitVec 6) (b : Option (BitVec 6))
  | tmwait (h : Hdr) (d : Dst) (a : BitVec 6)
  | tget (h : Hdr) (d : Dst) (pc : BitVec 4)
  | coll (h : Hdr) (tok a : BitVec 6)
  | seal (h : Hdr) (tok a b : BitVec 6)
  | sealOpen (h : Hdr) (tok a b : BitVec 6)
  -- immediate class (R103)
  | movi (h : Hdr) (d : Dst) (imm : BitVec 32)
  | movhi (h : Hdr) (d : Dst) (a : Src) (imm : BitVec 32)
  | iaddi (h : Hdr) (d : Dst) (a : Src) (imm : BitVec 32)
  | iandi (h : Hdr) (d : Dst) (a : Src) (imm : BitVec 32)
  | iori (h : Hdr) (d : Dst) (a : Src) (imm : BitVec 32)
  | ixori (h : Hdr) (d : Dst) (a : Src) (imm : BitVec 32)
  | icmpi (h : Hdr) (rel : Rel) (pd : BitVec 4) (a : Src) (imm : BitVec 32)
  | imuli (h : Hdr) (d : Dst) (a : Src) (imm : BitVec 32)
  -- branches (R27)
  | bra (h : Hdr) (off : BitVec 32)
  | call (h : Hdr) (k : BitVec 6) (off : BitVec 32)
  | rcv (h : Hdr) (off : BitVec 32)
  | brt (h : Hdr) (k : BitVec 6) (tbl : BitVec 8)
  | loop (h : Hdr) (k : BitVec 6) (off : BitVec 32)
  -- pair words, by the operation of slot X (R29, R36)
  | iaddPairSlot (sw : Bool) (x : SlotArgs) (y : Slot)
  | isubPairSlot (sw : Bool) (x : SlotArgs) (y : Slot)
  | imulPairSlot (sw : Bool) (x : SlotArgs) (y : Slot)
  | iminPairSlot (sw : Bool) (x : SlotArgs) (y : Slot)
  | imaxPairSlot (sw : Bool) (x : SlotArgs) (y : Slot)
  | landPairSlot (sw : Bool) (x : SlotArgs) (y : Slot)
  | lorPairSlot (sw : Bool) (x : SlotArgs) (y : Slot)
  | lxorPairSlot (sw : Bool) (x : SlotArgs) (y : Slot)
  | andnPairSlot (sw : Bool) (x : SlotArgs) (y : Slot)
  | shlPairSlot (sw : Bool) (x : SlotArgs) (y : Slot)
  | shrPairSlot (sw : Bool) (x : SlotArgs) (y : Slot)
  | sarPairSlot (sw : Bool) (x : SlotArgs) (y : Slot)
  | movPairSlot (sw : Bool) (x : SlotArgs) (y : Slot)
  | popcPairSlot (sw : Bool) (x : SlotArgs) (y : Slot)
  | clzPairSlot (sw : Bool) (x : SlotArgs) (y : Slot)
  | brevPairSlot (sw : Bool) (x : SlotArgs) (y : Slot)
  | faddPairSlot (sw : Bool) (x : SlotArgs) (y : Slot)
  | fsubPairSlot (sw : Bool) (x : SlotArgs) (y : Slot)
  | fmulPairSlot (sw : Bool) (x : SlotArgs) (y : Slot)
  | fminPairSlot (sw : Bool) (x : SlotArgs) (y : Slot)
  | fmaxPairSlot (sw : Bool) (x : SlotArgs) (y : Slot)
  | frcpPairSlot (sw : Bool) (x : SlotArgs) (y : Slot)
  | frsqPairSlot (sw : Bool) (x : SlotArgs) (y : Slot)
  | fsqrtPairSlot (sw : Bool) (x : SlotArgs) (y : Slot)
  | fex2PairSlot (sw : Bool) (x : SlotArgs) (y : Slot)
  | flg2PairSlot (sw : Bool) (x : SlotArgs) (y : Slot)
  | cvtfPairSlot (sw : Bool) (x : SlotArgs) (y : Slot)
  | ivaddPairSlot (sw : Bool) (x : SlotArgs) (y : Slot)
  | ivsubPairSlot (sw : Bool) (x : SlotArgs) (y : Slot)
  | ivmulPairSlot (sw : Bool) (x : SlotArgs) (y : Slot)
  | ivhullPairSlot (sw : Bool) (x : SlotArgs) (y : Slot)
  | ivmeetPairSlot (sw : Bool) (x : SlotArgs) (y : Slot)
  -- events of a core (R137 to R174)
  | datapathGrant (core : Nat)
  | variableLatencyWriteback (team issue lane : Nat)
  | segmentResume (team : Nat)
  | teamEnd (team : Nat)
  -- events of a cluster (R198 to R291)
  | scoreboardStallRelease (team : Nat)
  | asyncOperationStart (cluster op : Nat)
  | plainSpAccessPerformed (acc : Nat)
  | copyCompletion (cluster op : Nat)
  | followOnMmaIssue (cluster op : Nat)
  | matrixOperationComplete (cluster op : Nat)
  | layoutSlotLoaded (team slot : Nat)
  | engineFault (cluster op : Nat)
  -- events of a die (R315 to R385, R364 to R368)
  | pageRetirementComplete (frame : Nat)
  | pageWalkComplete (walk : Nat)
  | homeStorePerformed (acc : Nat)
  | l1LineAgeOut (cluster line : Nat)
  | placementDecision (partition : Nat)
  | priorityWaitTimeout (queue : Nat)
  | gridCompletion (launch : Nat)
  | qcfgDeferredApply (queue : Nat)
  -- events of a package (R400 to R430)
  | watchdogExpiry (queue : Nat)
  | preemptSave (partition : Nat)
  | preemptBudgetExpiry (partition : Nat)
  | quotaChangeApply (partition : Nat)
  | slewNotchStep (cluster : Nat)
  | hoistWaveRelease (launch unit : Nat)
  | capStep
  -- events of the fabric (R435 to R458)
  | sealCompletion (op : Nat)
  | collCommit (tag : Nat)
  | collTimeout (tag : Nat)
  | podBarrierRelease (tag : Nat)
  | ptpSyncReceived (master : Nat) (sent delay : Nat)
  | ptpSyncLoss
  | tmwaitWake (team : Nat)
  | memoryScrub (block : Nat)
  -- events that come from outside the package: the host, the management bus, ports and other packages (R385 to R454)
  | doorbellWrite (queue record : Nat) (viaPf : Bool)
  | hostRequestCompletion (acc : Nat) (ok : Bool)
  | functionLevelReset (vf : Nat)
  | packageReset
  | hostLinkTraining (fails : Nat)
  | retentionWake (source : WakeSource)
  | nodeCapSet (watts : Nat)
  | pldmSensorRead (sensor : Sensor)
  | firmwareUpdate (image signature svn : Nat)
  | attestationReport (nonce : Nat)
  | measurementExtend (reg : Nat) (data : List Byte)
  | unlockToken (token : Nat)
  | debugAccess (kind : DebugKind) (target : DebugTarget) (value : Nat)
  | tarbinPortTraining (port lowVersion highVersion peer peerPort lanes : Nat)
  | flitReplay (port : Nat)
  | portLaneFailure (port : Nat) (recovers : Bool)
  | remoteRequestArrival (r : RemoteReq)
  | remoteAnswerArrival (acc data code ver : Nat) (line : Option Nat)
  | remoteStoreAck (acc code : Nat)
  | collContributionArrival (key : CollKey) (member : Nat) (data : List Byte)
  | ptpAnnounceReceived (master : Nat) (stratum : Nat)
  | hostDeviceMemoryAccess (function addr : Nat) (write : Option Word)
  | flitForward (flit : Flit)
  | fabricRangeDrop (package base len version : Nat)
  | collMemberFailure (tag status : Nat)
  | pldmBaseRequest (request : Nat)
deriving DecidableEq, Repr

end Sys2Proof
end

