-- ==== Sys2Proof/Machine/Flags.lean ====
section
/-! DEFINITION. The sticky flags (R78) and the flag computations shared by the arithmetic instructions
(R56, R58, R59, R79). -/

namespace Sys2Proof.Machine

/-- The six sticky flags, SA NX UF OF DZ NV from bit 5 down (R78). -/
abbrev Flags := BitVec 6

/-- No flag raised. -/
def Flags.none : Flags := 0

/-- NV: invalid (R56). -/
def Flags.nv : Flags := 1

/-- DZ: division by zero (R78). -/
def Flags.dz : Flags := 2

/-- NX: inexact (R59). -/
def Flags.nx : Flags := 16

/-- OF with NX: overflow (R58). -/
def Flags.overflow : Flags := 20

/-- UF with NX: underflow (R59). -/
def Flags.underflow : Flags := 24

/-- SA: an integer instruction saturated a result (R52). -/
def Flags.sa : Flags := 32

/-- The flag f where the condition holds. -/
def Flags.when (c : Bool) (f : Flags) : Flags := if c then f else 0

/-- The flags of a result that was rounded: tiny and inexact, or inexact (R59). -/
def Flags.ofRounding (tiny inexact : Bool) : Flags :=
  if inexact then (if tiny then Flags.underflow else Flags.nx) else 0

/-- The union of what the lanes of an instruction raise (R79). -/
def Flags.union (l : List Flags) : Flags := l.foldl (· ||| ·) 0

end Sys2Proof.Machine
end

