-- ==== Sys2Proof/Machine/Float.lean ====
section
/-! DEFINITION. The floating-point formats (R53, R54, R75) and exact arithmetic on their values, rounded once
(R57 to R60). A value is a NaN, an infinity or a sign, a natural significand and a power of two. -/

namespace Sys2Proof

/-- Whether a relation holds for an order (R84). -/
def Rel.holds (r : Rel) (o : Ordering) : Bool :=
  match r, o with
  | .eq, .eq | .ne, .lt | .ne, .gt | .lt, .lt | .le, .lt | .le, .eq | .gt, .gt | .ge, .gt | .ge, .eq => true
  | _, _ => false

end Sys2Proof

namespace Sys2Proof.Machine

/-- A format: exponent and fraction widths (R53, R75). -/
structure Fmt where
  ew : Nat
  fw : Nat
deriving DecidableEq, Repr

/-- .f16 (R53). -/
def Fmt.f16 : Fmt := ⟨5, 10⟩

/-- .bf16 (R53). -/
def Fmt.bf16 : Fmt := ⟨8, 7⟩

/-- .f32 (R53). -/
def Fmt.f32 : Fmt := ⟨8, 23⟩

/-- .f64 (R53). -/
def Fmt.f64 : Fmt := ⟨11, 52⟩

/-- E96 (R75). -/
def Fmt.e96 : Fmt := ⟨15, 80⟩

/-- The format of a floating-point type; .f32 for the bounds of .iv. -/
def Fmt.ofTy : Ty → Fmt
  | .f16 => .f16
  | .bf16 => .bf16
  | .f64 => .f64
  | _ => .f32

/-- The exponent bias (R53). -/
def Fmt.bias (f : Fmt) : Nat := 2 ^ (f.ew - 1) - 1

/-- The width of a pattern. -/
def Fmt.width (f : Fmt) : Nat := f.ew + f.fw + 1

/-- The pattern of an infinity (R53). -/
def Fmt.inf (f : Fmt) (neg : Bool) : Nat := bit1 neg * 2 ^ (f.ew + f.fw) + (2 ^ f.ew - 1) * 2 ^ f.fw

/-- The canonical NaN (R53, R56). -/
def Fmt.nan (f : Fmt) : Nat := f.inf false + 2 ^ (f.fw - 1)

/-- The pattern of a zero. -/
def Fmt.zero (f : Fmt) (neg : Bool) : Nat := bit1 neg * 2 ^ (f.ew + f.fw)

/-- The largest finite value of a sign (R53). -/
def Fmt.maxFinite (f : Fmt) (neg : Bool) : Nat := f.inf neg - 1

/-- A floating-point value (R54): fin neg m e is (−1)^neg × m × 2^e. -/
inductive FV where
  | nan
  | inf (neg : Bool)
  | fin (neg : Bool) (m : Nat) (e : Int)
deriving DecidableEq, Repr

/-- The value of a pattern (R54). -/
def Fmt.value (f : Fmt) (x : Nat) : FV :=
  let neg := natBit x (f.ew + f.fw)
  let ex := natBits x (f.ew + f.fw - 1) f.fw
  let fr := x % 2 ^ f.fw
  if ex = 2 ^ f.ew - 1 then (if fr = 0 then .inf neg else .nan)
  else if ex = 0 then .fin neg fr (1 - (f.bias : Int) - f.fw)
  else .fin neg (2 ^ f.fw + fr) ((ex : Int) - f.bias - f.fw)

/-- The number of bits of n. -/
def bitLen (n : Nat) : Nat := if n = 0 then 0 else Nat.log2 n + 1

/-- Whether rounding moves a magnitude up: n is the kept part, rem of 2^sh and sticky what lies below (R57). -/
def roundsUp (r : Rnd) (neg : Bool) (n rem sh : Nat) (sticky : Bool) : Bool :=
  match r with
  | .rne => if sh = 0 then false else
      let half := 2 ^ (sh - 1)
      rem > half || (rem == half && (sticky || n % 2 == 1))
  | .rtz => false
  | .rdn => neg && (rem != 0 || sticky)
  | .rup => !neg && (rem != 0 || sticky)

/-- m × 2^e rounded to a multiple of 2^q: the multiple and whether that was inexact. -/
def roundAt (r : Rnd) (neg : Bool) (m : Nat) (e q : Int) (sticky : Bool) : Nat × Bool :=
  if q ≤ e then (m * 2 ^ (e - q).toNat + bit1 (roundsUp r neg 0 0 0 sticky), sticky)
  else
    let sh := (q - e).toNat
    let n := m / 2 ^ sh
    let rem := m % 2 ^ sh
    (n + bit1 (roundsUp r neg n rem sh sticky), rem != 0 || sticky)

/-- The value (−1)^neg × m × 2^e, or the next larger magnitude where sticky says that something lies below m,
rounded once to the format, with its flags (R57, R58, R59). -/
def Fmt.round (f : Fmt) (r : Rnd) (neg : Bool) (m : Nat) (e : Int) (sticky : Bool) : Nat × Flags :=
  if m = 0 && !sticky then (f.zero neg, 0)
  else
    let sgn := bit1 neg * 2 ^ (f.ew + f.fw)
    let emin : Int := 1 - (f.bias : Int)
    let q : Int := e + bitLen m - 1 - f.fw
    let (n, inex) := roundAt r neg m e q sticky
    let top : Int := bitLen n + q - 1
    if top < emin then
      let (n', inex') := roundAt r neg m e (emin - f.fw) sticky
      (sgn + n', Flags.ofRounding true inex')
    else if top > f.bias then
      (match r, neg with
       | .rne, _ => f.inf neg
       | .rtz, _ => f.maxFinite neg
       | .rdn, false => f.maxFinite false
       | .rdn, true => f.inf true
       | .rup, false => f.inf false
       | .rup, true => f.maxFinite true, Flags.overflow)
    else
      let fr := if bitLen n > f.fw + 1 then n / 2 else n
      (sgn + (top + f.bias).toNat * 2 ^ f.fw + (fr % 2 ^ f.fw), Flags.ofRounding false inex)

/-- An operand modifier (R24). -/
def FV.modify (m : Mod) (x : FV) : FV :=
  match x with
  | .nan => .nan
  | .inf s => .inf (match m with
    | .n => s
    | .g => !s
    | .a => false
    | .m => true)
  | .fin s k e => .fin (match m with
    | .n => s
    | .g => !s
    | .a => false
    | .m => true) k e

/-- The sign inverted. -/
def FV.neg (x : FV) : FV := x.modify .g

/-- Whether the value is a NaN. -/
def FV.isNan : FV → Bool
  | .nan => true
  | _ => false

/-- The pattern of a value that the format holds exactly, or its rounding to nearest. -/
def Fmt.pattern (f : Fmt) (x : FV) : Nat :=
  match x with
  | .nan => f.nan
  | .inf s => f.inf s
  | .fin s m e => (f.round .rne s m e false).1

/-- The result NaN of an invalid operation (R56). -/
def Fmt.invalid (f : Fmt) : Nat × Flags := (f.nan, Flags.nv)

/-- The exact sum of two finite values with the sign a zero takes (R60), as sign, significand and exponent. -/
def exactSum (r : Rnd) (sx : Bool) (mx : Nat) (ex : Int) (sy : Bool) (my : Nat) (ey : Int) : Bool × Nat × Int :=
  let e := min ex ey
  let a : Int := mx * 2 ^ (ex - e).toNat
  let b : Int := my * 2 ^ (ey - e).toNat
  let s : Int := (if sx then -a else a) + (if sy then -b else b)
  if s = 0 then (if sx = sy then sx else r == .rdn, 0, e)
  else (decide (s < 0), s.natAbs, e)

/-- x + y rounded once (R109). -/
def Fmt.add (f : Fmt) (r : Rnd) (x y : FV) : Nat × Flags :=
  match x, y with
  | .nan, _ | _, .nan => (f.nan, 0)
  | .inf a, .inf b => if a = b then (f.inf a, 0) else f.invalid
  | .inf a, .fin _ _ _ => (f.inf a, 0)
  | .fin _ _ _, .inf b => (f.inf b, 0)
  | .fin sx mx ex, .fin sy my ey =>
    let (s, m, e) := exactSum r sx mx ex sy my ey
    f.round r s m e false

/-- x × y rounded once (R109). -/
def Fmt.mul (f : Fmt) (r : Rnd) (x y : FV) : Nat × Flags :=
  match x, y with
  | .nan, _ | _, .nan => (f.nan, 0)
  | .inf a, .inf b => (f.inf (a != b), 0)
  | .inf a, .fin b m _ => if m = 0 then f.invalid else (f.inf (a != b), 0)
  | .fin a m _, .inf b => if m = 0 then f.invalid else (f.inf (a != b), 0)
  | .fin sx mx ex, .fin sy my ey => f.round r (sx != sy) (mx * my) (ex + ey) false

/-- The exact product of two values; none where it is 0 × ∞. -/
def FV.mul (x y : FV) : Option FV :=
  match x, y with
  | .nan, _ | _, .nan => some .nan
  | .inf a, .inf b => some (.inf (a != b))
  | .inf a, .fin b m _ => if m = 0 then none else some (.inf (a != b))
  | .fin a m _, .inf b => if m = 0 then none else some (.inf (a != b))
  | .fin sx mx ex, .fin sy my ey => some (.fin (sx != sy) (mx * my) (ex + ey))

/-- x × y + z, one rounding of the exact value (R109). A NaN z comes before the invalid product (R108). -/
def Fmt.fma (f : Fmt) (r : Rnd) (x y z : FV) : Nat × Flags :=
  if x.isNan || y.isNan || z.isNan then (f.nan, 0)
  else
    match FV.mul x y with
    | none => f.invalid
    | some p => f.add r p z

/-- x / y rounded once (R109). -/
def Fmt.div (f : Fmt) (r : Rnd) (x y : FV) : Nat × Flags :=
  match x, y with
  | .nan, _ | _, .nan => (f.nan, 0)
  | .inf _, .inf _ => f.invalid
  | .inf a, .fin b _ _ => (f.inf (a != b), 0)
  | .fin a _ _, .inf b => (f.zero (a != b), 0)
  | .fin sx mx ex, .fin sy my ey =>
    if my = 0 then (if mx = 0 then f.invalid else (f.inf (sx != sy), Flags.dz))
    else if mx = 0 then (f.zero (sx != sy), 0)
    else
      let k := f.fw + 4 + bitLen my - bitLen mx
      let n := mx * 2 ^ k
      f.round r (sx != sy) (n / my) (ex - ey - k) (n % my != 0)

/-- The bits of the integer square root, from bit k down. -/
def isqrtGo (n : Nat) : Nat → Nat → Nat
  | 0, acc => acc
  | k + 1, acc =>
    let t := acc + 2 ^ k
    isqrtGo n k (if t * t ≤ n then t else acc)

/-- The largest s with s × s ≤ n. -/
def isqrt (n : Nat) : Nat := isqrtGo n (bitLen n / 2 + 1) 0

/-- √x rounded once (R109). -/
def Fmt.sqrt (f : Fmt) (r : Rnd) (x : FV) : Nat × Flags :=
  match x with
  | .nan => (f.nan, 0)
  | .inf false => (f.inf false, 0)
  | .inf true => f.invalid
  | .fin s m e =>
    if m = 0 then (f.zero s, 0)
    else if s then f.invalid
    else
      let k0 := 2 * (f.fw + 4) - bitLen m
      let k := if (e - k0) % 2 = 0 then k0 else k0 + 1
      let n := m * 2 ^ k
      let q := isqrt n
      f.round r false q ((e - k) / 2) (q * q != n)

/-- 1 / √x rounded once (R109). -/
def Fmt.rsqrt (f : Fmt) (r : Rnd) (x : FV) : Nat × Flags :=
  match x with
  | .nan => (f.nan, 0)
  | .inf false => (f.zero false, 0)
  | .inf true => f.invalid
  | .fin s m e =>
    if m = 0 then (f.inf s, Flags.dz)
    else if s then f.invalid
    else
      let (m', e') := if e % 2 = 0 then (m, e) else (2 * m, e - 1)
      let k := f.fw + 4 + bitLen m'
      let n := 2 ^ (2 * k)
      let q := isqrt (n / m')
      f.round r false q (-(e' / 2) - k) (q * q * m' != n)

/-- x × 2^n rounded once (R109). The exponent is cut at ±5000, beyond which the result no longer changes. -/
def Fmt.scale (f : Fmt) (r : Rnd) (x : FV) (n : Int) : Nat × Flags :=
  match x with
  | .nan => (f.nan, 0)
  | .inf s => (f.inf s, 0)
  | .fin s m e => f.round r s m (e + max (-5000) (min 5000 n)) false

/-- The order of two values that are not NaN, −0 equal to +0 (R60). -/
def FV.cmp (x y : FV) : Ordering :=
  let key : FV → Int × Nat × Int := fun v =>
    match v with
    | .nan => (0, 0, 0)
    | .inf s => (if s then -2 else 2, 0, 0)
    | .fin s m e => (if m = 0 then 0 else if s then -1 else 1, m, e)
  let a := key x
  let b := key y
  if a.1 ≠ b.1 then (if a.1 < b.1 then .lt else .gt)
  else if a.1 = 1 ∨ a.1 = -1 then
    let e := min a.2.2 b.2.2
    let ma := a.2.1 * 2 ^ (a.2.2 - e).toNat
    let mb := b.2.1 * 2 ^ (b.2.2 - e).toNat
    if ma = mb then .eq
    else if (ma < mb) = (a.1 = 1) then .lt else .gt
  else .eq

/-- Whether the sign of the value is set. -/
def FV.signBit : FV → Bool
  | .nan => false
  | .inf s => s
  | .fin s _ _ => s

/-- The order of fmin and fmax: −0 below +0 (R110). -/
def FV.below (x y : FV) : Bool :=
  match FV.cmp x y with
  | .lt => true
  | .gt => false
  | .eq => x.signBit && !y.signBit

/-- The lesser operand, unchanged (R110). -/
def FV.min (x y : FV) : FV := if x.isNan || y.isNan then .nan else if FV.below y x then y else x

/-- The greater operand, unchanged (R110). -/
def FV.max (x y : FV) : FV := if x.isNan || y.isNan then .nan else if FV.below x y then y else x

/-- The class mask of R113. -/
def Fmt.classify (f : Fmt) (x : FV) : Nat :=
  match x with
  | .nan => 256
  | .inf s => if s then 1 else 128
  | .fin s m e =>
    if m = 0 then (if s then 8 else 16)
    else
      let normal : Bool := decide ((bitLen m : Int) + e - 1 ≥ 1 - f.bias)
      (match s, normal with
       | true, true => 2
       | true, false => 4
       | false, false => 32
       | false, true => 64)

/-- A value rounded to an integer in a mode, and whether that was inexact (R114). -/
def roundToInt (r : Rnd) (s : Bool) (m : Nat) (e : Int) : Int × Bool :=
  let (n, inex) := roundAt r s m e 0 false
  (if s then -(n : Int) else n, inex)

/-- The sum a0 × b0 + a1 × b1 + z as one rounding of the exact value, in .f32 (R115). -/
def dot2 (r : Rnd) (a0 b0 a1 b1 z : FV) : Nat × Flags :=
  let f := Fmt.f32
  if a0.isNan || b0.isNan || a1.isNan || b1.isNan || z.isNan then (f.nan, 0)
  else
    match FV.mul a0 b0, FV.mul a1 b1 with
    | some (.fin s0 m0 e0), some (.fin s1 m1 e1) =>
      (match z with
       | .fin s2 m2 e2 =>
         let (s, m, e) := exactSum r s0 m0 e0 s1 m1 e1
         let zeros := m0 = 0 ∧ m1 = 0
         -- three zeros of one sign keep it (R60); otherwise an exact zero takes the sign of the mode
         if zeros ∧ m2 = 0 then
           f.round r (if s0 = s1 ∧ s1 = s2 then s0 else r == .rdn) 0 0 false
         else
           let (s', m', e') := exactSum r s m e s2 m2 e2
           if m' = 0 then f.round r (r == .rdn) 0 0 false else f.round r s' m' e' false
       | .inf b => (f.inf b, 0)
       | .nan => (f.nan, 0))
    | some p, some q =>
      let infs := [p, q, z].filterMap fun v =>
        match v with
        | .inf b => some b
        | _ => none
      if infs.all (· == true) then (f.inf true, 0)
      else if infs.all (· == false) then (f.inf false, 0)
      else f.invalid
    | _, _ => f.invalid

end Sys2Proof.Machine
end

