-- ==== Sys2Proof/Machine/IntAlu.lean ====
section
/-! DEFINITION. The integer computations of a lane (R82 to R103): each takes the operand values of one lane and
gives the value written and the flags raised. -/

namespace Sys2Proof

/-- The width of an integer or bit type (R52). -/
def Ty.bits : Ty → Nat
  | .s64 | .n64 | .b64 | .f64 | .iv => 64
  | .s16 | .n16 | .f16 | .bf16 => 16
  | .s8 | .n8 => 8
  | _ => 32

/-- Whether the type is signed (R52). -/
def Ty.signed : Ty → Bool
  | .s32 | .s64 | .s16 | .s8 => true
  | _ => false

/-- The least value of a type (R52). -/
def Ty.least (t : Ty) : Int := if t.signed then -(2 ^ (t.bits - 1) : Nat) else 0

/-- The largest value of a type (R52). -/
def Ty.largest (t : Ty) : Int := if t.signed then (2 ^ (t.bits - 1) : Nat) - 1 else (2 ^ t.bits : Nat) - 1

end Sys2Proof

namespace Sys2Proof.Machine

/-- rd(x, T): the exact integer that x holds in type T; a .b type reads as natural (R48, R85). -/
def rdInt (t : Ty) (x : Word) : Int :=
  if t.signed then signedOf t.bits x.toNat else (x.toNat % 2 ^ t.bits : Nat)

/-- The 64 bits in which a register holds the integer x written in type T: x wraps into the range of T, and the
types .s8 and .s16 copy their sign through bit 31 (R48, R85). -/
def putInt (t : Ty) (x : Int) : Word :=
  match t with
  | .s8 | .s16 => BitVec.ofNat 64 (wrapNat 32 (signedOf t.bits (wrapNat t.bits x)))
  | _ => BitVec.ofNat 64 (wrapNat t.bits x)

/-- fit(x, T), written to a register: clamped with SA when the clamp changes x under .sat, wrapped otherwise (R85). -/
def fitInt (t : Ty) (sat : Bool) (x : Int) : Word × Flags :=
  if sat then
    let y := max t.least (min t.largest x)
    (putInt t y, Flags.when (y != x) Flags.sa)
  else (putInt t x, 0)

/-- iadd (R88). -/
def aluIadd (t : Ty) (sat : Bool) (a b : Word) : Word × Flags := fitInt t sat (rdInt t a + rdInt t b)

/-- isub (R88). -/
def aluIsub (t : Ty) (sat : Bool) (a b : Word) : Word × Flags := fitInt t sat (rdInt t a - rdInt t b)

/-- imul (R88). -/
def aluImul (t : Ty) (sat : Bool) (a b : Word) : Word × Flags := fitInt t sat (rdInt t a * rdInt t b)

/-- imulh: the upper w bits of the exact 2w-bit product (R88). -/
def aluImulh (t : Ty) (a b : Word) : Word × Flags :=
  (putInt t (rdInt t a * rdInt t b / (2 ^ t.bits : Nat)), 0)

/-- imad: one saturation applied to the exact sum (R88). -/
def aluImad (t : Ty) (sat : Bool) (a b c : Word) : Word × Flags :=
  fitInt t sat (rdInt t a * rdInt t b + rdInt t c)

/-- imadw: 32-bit factors, 64-bit sum (R88). -/
def aluImadw (t : Ty) (a b c : Word) : Word × Flags :=
  let t2 := if t == .s32 then Ty.s64 else Ty.n64
  (putInt t2 (rdInt t a * rdInt t b + rdInt t2 c), 0)

/-- iaddx: the value and the carry or borrow out, for a carry in of 0 or 1 (R89). -/
def aluIaddx (t : Ty) (sub : Bool) (c : Nat) (a b : Word) : Word × Bool :=
  let x : Int := if sub then rdInt t a - rdInt t b - c else rdInt t a + rdInt t b + c
  (putInt t x, if sub then decide (x < 0) else decide ((2 ^ t.bits : Nat) ≤ x))

/-- The quotient and remainder of idiv (R90). -/
def divParts (t : Ty) (a b : Int) : Int × Int :=
  if b = 0 then ((2 ^ t.bits : Nat) - 1, a)
  else if t.signed && a == t.least && b == -1 then (t.least, 0)
  else (Int.tdiv a b, Int.tmod a b)

/-- idiv (R90). -/
def aluIdiv (t : Ty) (rem : Bool) (a b : Word) : Word × Flags :=
  let qr := divParts t (rdInt t a) (rdInt t b)
  (putInt t (if rem then qr.2 else qr.1), 0)

/-- iabs (R91). -/
def aluIabs (t : Ty) (sat : Bool) (a : Word) : Word × Flags := fitInt t sat ((rdInt t a).natAbs : Int)

/-- ineg (R91). -/
def aluIneg (t : Ty) (sat : Bool) (a : Word) : Word × Flags := fitInt t sat (-(rdInt t a))

/-- imin (R91). -/
def aluImin (t : Ty) (a b : Word) : Word × Flags := (putInt t (min (rdInt t a) (rdInt t b)), 0)

/-- imax (R91). -/
def aluImax (t : Ty) (a b : Word) : Word × Flags := (putInt t (max (rdInt t a) (rdInt t b)), 0)

/-- iclamp (R91). -/
def aluIclamp (t : Ty) (a b c : Word) : Word × Flags :=
  (putInt t (min (max (rdInt t a) (rdInt t b)) (rdInt t c)), 0)

/-- Byte i of x, signed or unsigned (R91). -/
def byteInt (x : Word) (i : Nat) (unsigned : Bool) : Int :=
  let b := natBits x.toNat (8 * i + 7) (8 * i)
  if unsigned then b else signedOf 8 b

/-- idp4 (R91). -/
def aluIdp4 (sat ua ub : Bool) (a b c : Word) : Word × Flags :=
  let p := fun i => byteInt a i ua * byteInt b i ub
  fitInt .s32 sat (rdInt .s32 c + (p 0 + p 1 + p 2 + p 3))

/-- A bit vector of w bits as a register holds it (R48). -/
def putBits (w : Nat) (x : Word) : Word := BitVec.ofNat 64 (x.toNat % 2 ^ w)

/-- and (R92). -/
def aluAnd (t : Ty) (a b : Word) : Word × Flags := (putBits t.bits (a &&& b), 0)

/-- or (R92). -/
def aluOr (t : Ty) (a b : Word) : Word × Flags := (putBits t.bits (a ||| b), 0)

/-- xor (R92). -/
def aluXor (t : Ty) (a b : Word) : Word × Flags := (putBits t.bits (a ^^^ b), 0)

/-- andn (R92). -/
def aluAndn (t : Ty) (a b : Word) : Word × Flags := (putBits t.bits (a &&& ~~~b), 0)

/-- All ones where bit i of the truth table is set. -/
def lutTerm (tt : BitVec 8) (i : Nat) (x : Word) : Word := if tt.getLsbD i then x else 0

/-- lut3: bit by bit, entry (A, B, C) of the truth table (R93). -/
def aluLut3 (t : Ty) (tt : BitVec 8) (a b c : Word) : Word × Flags :=
  (putBits t.bits
    (lutTerm tt 0 (~~~a &&& ~~~b &&& ~~~c) ||| lutTerm tt 1 (~~~a &&& ~~~b &&& c) |||
     lutTerm tt 2 (~~~a &&& b &&& ~~~c) ||| lutTerm tt 3 (~~~a &&& b &&& c) |||
     lutTerm tt 4 (a &&& ~~~b &&& ~~~c) ||| lutTerm tt 5 (a &&& ~~~b &&& c) |||
     lutTerm tt 6 (a &&& b &&& ~~~c) ||| lutTerm tt 7 (a &&& b &&& c)), 0)

/-- A shift count: B read as .n32, cut at 64 since a count of w or more shifts every bit out (R94). -/
def shiftCount (b : Word) : Nat := min (b.toNat % 2 ^ 32) 64

/-- shl (R94). -/
def aluShl (t : Ty) (a b : Word) : Word × Flags := (putBits t.bits (a <<< shiftCount b), 0)

/-- shr (R94). -/
def aluShr (t : Ty) (a b : Word) : Word × Flags := (putBits t.bits a >>> shiftCount b, 0)

/-- sar: copies of the sign come in (R94). -/
def aluSar (t : Ty) (a b : Word) : Word × Flags :=
  (putInt t (rdInt t a / (2 ^ shiftCount b : Nat)), 0)

/-- fshl: bits [2w−1:w] of (A ‖ B) << m, m at most w (R94). -/
def aluFshl (t : Ty) (a b c : Word) : Word × Flags :=
  let w := t.bits
  let m := min (c.toNat % 2 ^ 32) w
  (BitVec.ofNat 64 ((a.toNat % 2 ^ w * 2 ^ w + b.toNat % 2 ^ w) * 2 ^ m / 2 ^ w % 2 ^ w), 0)

/-- The number of set bits among the low w bits. -/
def popCount (w x : Nat) : Nat := ((List.range w).filter fun i => natBit x i).length

/-- popc (R95). -/
def aluPopc (t : Ty) (a : Word) : Word × Flags := (BitVec.ofNat 64 (popCount t.bits a.toNat), 0)

/-- clz (R95). -/
def aluClz (t : Ty) (a : Word) : Word × Flags :=
  (BitVec.ofNat 64 (t.bits - bitLen (a.toNat % 2 ^ t.bits)), 0)

/-- The least i below w with bit i of x set; w where there is none. -/
def lowestBit (w x : Nat) : Nat := ((List.range w).find? fun i => natBit x i).getD w

/-- ctz (R95). -/
def aluCtz (t : Ty) (a : Word) : Word × Flags := (BitVec.ofNat 64 (lowestBit t.bits a.toNat), 0)

/-- brev (R95). -/
def aluBrev (t : Ty) (a : Word) : Word × Flags :=
  (BitVec.ofNat 64 ((List.range t.bits).foldl
    (fun acc i => acc + bit1 (natBit a.toNat i) * 2 ^ (t.bits - 1 - i)) 0), 0)

/-- The length of a field clipped at the top of the word (R96). -/
def clipLen (w pos len : Nat) : Nat := min len (w - min pos w)

/-- bfx (R96). -/
def aluBfx (t : Ty) (a b c : Word) : Word × Flags :=
  let pos := b.toNat % 256
  let len := clipLen t.bits pos (c.toNat % 256)
  let x := a.toNat % 2 ^ t.bits / 2 ^ pos % 2 ^ len
  (putInt t (if t.signed && len != 0 then signedOf len x else (x : Int)), 0)

/-- bfi (R96). -/
def aluBfi (t : Ty) (a b c : Word) : Word × Flags :=
  let pos := c.toNat % 256
  let len := clipLen t.bits pos (natBits c.toNat 15 8)
  let m := (2 ^ len - 1) * 2 ^ pos
  (putBits t.bits ((a &&& ~~~(BitVec.ofNat 64 m)) ||| (BitVec.ofNat 64 (b.toNat * 2 ^ pos) &&& BitVec.ofNat 64 m)), 0)

/-- bperm (R97). -/
def aluBperm (t : Ty) (a b c : Word) : Word × Flags :=
  let pick : Nat → Nat := fun i =>
    let s := natBits c.toNat (4 * i + 3) (4 * i)
    if t == .b32 then
      (if s ≥ 8 then 0 else if s < 4 then natBits a.toNat (8 * s + 7) (8 * s) else natBits b.toNat (8 * s - 25) (8 * s - 32))
    else (if s < 8 then natBits a.toNat (8 * s + 7) (8 * s) else natBits b.toNat (8 * s - 57) (8 * s - 64))
  (BitVec.ofNat 64 ((List.range (t.bits / 8)).foldl (fun acc i => acc + pick i * 2 ^ (8 * i)) 0), 0)

/-- The order of two integers. -/
def intOrd (x y : Int) : Ordering := if x < y then .lt else if x = y then .eq else .gt

/-- icmp (R98). -/
def aluIcmp (t : Ty) (r : Rel) (a b : Word) : Bool := r.holds (intOrd (rdInt t a) (rdInt t b))

/-- cvti: a destination .b type stores the low bits, with or without .sat (R100). -/
def aluCvti (td ts : Ty) (sat : Bool) (a : Word) : Word × Flags :=
  fitInt td (sat && !(td == .b32 || td == .b64)) (rdInt ts a)

/-- mov (R101). -/
def aluMov (t : Ty) (a : Word) : Word × Flags := (putBits t.bits a, 0)

/-- lea (R102). -/
def aluLea (t : Ty) (scale : BitVec 3) (a b : Word) : Word × Flags :=
  (putInt .n64 (rdInt .n64 a + rdInt t b * (2 ^ scale.toNat : Nat)), 0)

/-- sext(imm) (R103). -/
def sextImm (imm : BitVec 32) : Int := signedOf 32 imm.toNat

/-- movhi: imm above A[31:0] (R103). -/
def aluMovhi (imm : BitVec 32) (a : Word) : Word × Flags :=
  (BitVec.ofNat 64 (imm.toNat * 2 ^ 32 + a.toNat % 2 ^ 32), 0)

/-- iaddi (R103). -/
def aluIaddi (imm : BitVec 32) (a : Word) : Word × Flags := (putInt .s32 (rdInt .s32 a + sextImm imm), 0)

/-- imuli (R103). -/
def aluImuli (imm : BitVec 32) (a : Word) : Word × Flags := (putInt .s32 (rdInt .s32 a * sextImm imm), 0)

/-- iandi (R103). -/
def aluIandi (imm : BitVec 32) (a : Word) : Word × Flags := (putBits 32 (a &&& imm.setWidth 64), 0)

/-- iori (R103). -/
def aluIori (imm : BitVec 32) (a : Word) : Word × Flags := (putBits 32 (a ||| imm.setWidth 64), 0)

/-- ixori (R103). -/
def aluIxori (imm : BitVec 32) (a : Word) : Word × Flags := (putBits 32 (a ^^^ imm.setWidth 64), 0)

end Sys2Proof.Machine
end

