-- ==== Sys2Proof/Machine/Interval.lean ====
section
/-! DEFINITION. Intervals of two .f32 bounds (R61 to R65) and their computations (R119 to R129). Bounds are exact
values until the one outward rounding of R62. -/

namespace Sys2Proof.Machine

/-- The classes of R61; a proper interval carries its bounds. -/
inductive Iv where
  | nai
  | empty
  | illFormed
  | proper (lo hi : FV)
deriving DecidableEq, Repr

/-- The low half as an .f32 pattern. -/
def loBits (w : Word) : Nat := w.toNat % 2 ^ 32

/-- The high half as an .f32 pattern. -/
def hiBits (w : Word) : Nat := w.toNat / 2 ^ 32

/-- The class of a register value, tested in the order of R61. -/
def Iv.ofWord (w : Word) : Iv :=
  let lo := Fmt.f32.value (loBits w)
  let hi := Fmt.f32.value (hiBits w)
  if lo.isNan || hi.isNan then .nai
  else if lo == .inf false && hi == .inf true then .empty
  else if FV.cmp lo hi == .gt then .illFormed
  else .proper lo hi

/-- The canonical NaI (R63). -/
def naiWord : Word := 0x7FC000007FC00000

/-- The canonical empty interval (R63). -/
def emptyWord : Word := 0xFF8000007F800000

/-- A bound as .f32, a zero bound as +0 (R63). -/
def boundBits (x : FV) : Nat :=
  match x with
  | .fin _ 0 _ => 0
  | _ => Fmt.f32.pattern x

/-- A proper interval in canonical form (R63). -/
def ivWord (lo hi : FV) : Word := BitVec.ofNat 64 (boundBits lo + boundBits hi * 2 ^ 32)

/-- The value +0. -/
def FV.zero : FV := .fin false 0 0

/-- The lesser of two bounds. -/
def bmin (x y : FV) : FV := if FV.cmp y x == .lt then y else x

/-- The greater of two bounds. -/
def bmax (x y : FV) : FV := if FV.cmp x y == .lt then y else x

/-- An operand modifier on an interval (R119); empty, NaI and ill-formed stay as they are. -/
def Iv.modify (m : Mod) (x : Iv) : Iv :=
  match x with
  | .proper lo hi =>
    let mag : FV × FV :=
      if FV.cmp lo FV.zero != .lt then (lo, hi)
      else if FV.cmp hi FV.zero != .gt then (hi.neg, lo.neg)
      else (FV.zero, bmax lo.neg hi)
    (match m with
     | .n => .proper lo hi
     | .g => .proper hi.neg lo.neg
     | .a => .proper mag.1 mag.2
     | .m => .proper mag.2.neg mag.1.neg)
  | _ => x

/-- What R64 gives before any rule of the instruction: NaI operands, ill-formed operands, then empty operands. -/
def ivGate (l : List Iv) : Option (Word × Flags) :=
  if l.any (· == .nai) then some (naiWord, 0)
  else if l.any (· == .illFormed) then some (naiWord, Flags.nv)
  else if l.any (· == .empty) then some (emptyWord, 0)
  else none

/-- A bound rounded outward: down for lo, up for hi; infinities stay (R62, R120). -/
def outward (up : Bool) (x : FV) : FV :=
  match x with
  | .fin s m e => Fmt.f32.value (Fmt.f32.round (if up then .rup else .rdn) s m e false).1
  | _ => x

/-- A product of bounds, 0 times an infinity being 0 (R120). -/
def boundMul (x y : FV) : FV := (FV.mul x y).getD FV.zero

/-- A sum of bounds; opposite infinities give −∞ in a lo computation and +∞ in a hi computation (R120). -/
def boundAdd (up : Bool) (x y : FV) : FV :=
  match x, y with
  | .inf a, .inf b => if a = b then .inf a else .inf (!up)
  | .inf a, _ => .inf a
  | _, .inf b => .inf b
  | .fin sx mx ex, .fin sy my ey =>
    let (s, m, e) := exactSum .rne sx mx ex sy my ey
    .fin s m e
  | _, _ => .nan

/-- A quotient of bounds rounded outward; two infinities as R124 states. -/
def boundDiv (up : Bool) (x y : FV) : FV :=
  match x, y with
  | .inf a, .inf b => if a = b then (if up then .inf false else FV.zero) else (if up then FV.zero else .inf true)
  | .inf a, y => .inf (a != y.signBit)
  | _, .inf _ => FV.zero
  | x, y => Fmt.f32.value (Fmt.f32.div (if up then .rup else .rdn) x y).1

/-- The least or greatest of four candidates. -/
def pick4 (up : Bool) (a b c d : FV) : FV :=
  if up then bmax (bmax a b) (bmax c d) else bmin (bmin a b) (bmin c d)

/-- One bound of ivmul and ivfma: the four products plus c, each rounded once outward (R123). -/
def mulBound (up : Bool) (alo ahi blo bhi c : FV) : FV :=
  let f := fun x y => outward up (boundAdd up (boundMul x y) c)
  pick4 up (f alo blo) (f alo bhi) (f ahi blo) (f ahi bhi)

/-- ivadd (R123). -/
def ivAddVal (a b : Iv) : Word × Flags :=
  match ivGate [a, b], a, b with
  | some r, _, _ => r
  | none, .proper al ah, .proper bl bh =>
    (ivWord (outward false (boundAdd false al bl)) (outward true (boundAdd true ah bh)), 0)
  | _, _, _ => (naiWord, Flags.nv)

/-- ivsub (R123). -/
def ivSubVal (a b : Iv) : Word × Flags :=
  match ivGate [a, b], a, b with
  | some r, _, _ => r
  | none, .proper al ah, .proper bl bh =>
    (ivWord (outward false (boundAdd false al bh.neg)) (outward true (boundAdd true ah bl.neg)), 0)
  | _, _, _ => (naiWord, Flags.nv)

/-- ivmul (R123). -/
def ivMulVal (a b : Iv) : Word × Flags :=
  match ivGate [a, b], a, b with
  | some r, _, _ => r
  | none, .proper al ah, .proper bl bh =>
    (ivWord (mulBound false al ah bl bh FV.zero) (mulBound true al ah bl bh FV.zero), 0)
  | _, _, _ => (naiWord, Flags.nv)

/-- ivfma (R123). -/
def ivFmaVal (a b c : Iv) : Word × Flags :=
  match ivGate [a, b, c], a, b, c with
  | some r, _, _, _ => r
  | none, .proper al ah, .proper bl bh, .proper cl ch =>
    (ivWord (mulBound false al ah bl bh cl) (mulBound true al ah bl bh ch), 0)
  | _, _, _, _ => (naiWord, Flags.nv)

/-- ivdiv (R124). -/
def ivDivVal (a b : Iv) : Word × Flags :=
  match ivGate [a, b], a, b with
  | some r, _, _ => r
  | none, .proper al ah, .proper bl bh =>
    if FV.cmp bl FV.zero != .gt && FV.cmp bh FV.zero != .lt then (ivWord (.inf true) (.inf false), 0)
    else
      let q := fun up => pick4 up (boundDiv up al bl) (boundDiv up al bh) (boundDiv up ah bl) (boundDiv up ah bh)
      (ivWord (q false) (q true), 0)
  | _, _, _ => (naiWord, Flags.nv)

/-- ivsqr (R123). -/
def ivSqrVal (a : Iv) : Word × Flags :=
  match ivGate [a], a with
  | some r, _ => r
  | none, .proper lo hi =>
    let l2 := boundMul lo lo
    let h2 := boundMul hi hi
    let l := if FV.cmp lo FV.zero != .lt then outward false l2
             else if FV.cmp hi FV.zero != .gt then outward false h2 else FV.zero
    (ivWord l (outward true (bmax l2 h2)), 0)
  | _, _ => (naiWord, Flags.nv)

/-- √x or 1 / √x of a bound, rounded outward (R125). -/
def boundRoot (recip up : Bool) (x : FV) : FV :=
  let r := if up then Rnd.rup else Rnd.rdn
  Fmt.f32.value (if recip then Fmt.f32.rsqrt r x else Fmt.f32.sqrt r x).1

/-- ivsqrt (R125). -/
def ivSqrtVal (a : Iv) : Word × Flags :=
  match ivGate [a], a with
  | some r, _ => r
  | none, .proper lo hi =>
    if FV.cmp hi FV.zero == .lt then (naiWord, Flags.nv)
    else if FV.cmp lo FV.zero != .gt then
      (ivWord FV.zero (if FV.cmp hi FV.zero == .eq then FV.zero else boundRoot false true hi), 0)
    else (ivWord (boundRoot false false lo) (boundRoot false true hi), 0)
  | _, _ => (naiWord, Flags.nv)

/-- ivrsqrt (R125). -/
def ivRsqrtVal (a : Iv) : Word × Flags :=
  match ivGate [a], a with
  | some r, _ => r
  | none, .proper lo hi =>
    if FV.cmp hi FV.zero != .gt then (naiWord, Flags.nv)
    else if FV.cmp lo FV.zero != .gt then (ivWord (boundRoot true false hi) (.inf false), 0)
    else (ivWord (boundRoot true false hi) (boundRoot true true lo), 0)
  | _, _ => (naiWord, Flags.nv)

/-- ivhull: the hull of empty and x is x (R126). -/
def ivHullVal (a b : Iv) : Word × Flags :=
  if a == .nai || b == .nai then (naiWord, 0)
  else
    match a, b with
    | .empty, .empty => (emptyWord, 0)
    | .empty, .proper l h | .proper l h, .empty => (ivWord l h, 0)
    | .proper al ah, .proper bl bh => (ivWord (bmin al bl) (bmax ah bh), 0)
    | _, _ => (naiWord, Flags.nv)

/-- ivmeet: none where the meet is empty (R127). -/
def ivMeetVal (a b : Iv) : Option (Word × Flags) :=
  if a == .nai || b == .nai then some (naiWord, 0)
  else if a == .illFormed || b == .illFormed then some (naiWord, Flags.nv)
  else
    match a, b with
    | .proper al ah, .proper bl bh =>
      let l := bmax al bl
      let h := bmin ah bh
      if FV.cmp l h == .gt then none else some (ivWord l h, 0)
    | _, _ => none

/-- The midpoint of a proper interval (R122). -/
def ivMid (lo hi : FV) : FV :=
  match lo, hi with
  | .inf true, .inf false => FV.zero
  | .inf true, .fin _ _ _ => Fmt.f32.value (Fmt.f32.maxFinite true)
  | .fin _ _ _, .inf false => Fmt.f32.value (Fmt.f32.maxFinite false)
  | .fin sl ml el, .fin sh mh eh =>
    let (s, m, e) := exactSum .rne sl ml el sh mh eh
    Fmt.f32.value (boundBits (Fmt.f32.value (Fmt.f32.round .rne s m (e - 1) false).1))
  | x, _ => x

/-- An .f32 value alone in a register. -/
def f32Word (n : Nat) : Word := BitVec.ofNat 64 n

/-- The result of ivlo, ivhi, ivmid and ivwid for an operand that is not proper (R121). -/
def readerSpecial (a : Iv) (onEmpty : Nat) : Word × Flags :=
  match a with
  | .empty => (f32Word onEmpty, 0)
  | .illFormed => (f32Word Fmt.f32.nan, Flags.nv)
  | _ => (f32Word Fmt.f32.nan, 0)

/-- ivlo (R121). -/
def ivLoVal (a : Iv) : Word × Flags :=
  match a with
  | .proper lo _ => (f32Word (boundBits lo), 0)
  | _ => readerSpecial a (Fmt.f32.inf false)

/-- ivhi (R121). -/
def ivHiVal (a : Iv) : Word × Flags :=
  match a with
  | .proper _ hi => (f32Word (boundBits hi), 0)
  | _ => readerSpecial a (Fmt.f32.inf true)

/-- ivmid (R121, R122). -/
def ivMidVal (a : Iv) : Word × Flags :=
  match a with
  | .proper lo hi => (f32Word (boundBits (ivMid lo hi)), 0)
  | _ => readerSpecial a Fmt.f32.nan

/-- ivwid (R121). DEDUCED: a bound at an infinity gives +∞ also for the point [∞, ∞], as R120 gives ∞ − ∞ in a hi
computation (log 35). -/
def ivWidVal (a : Iv) : Word × Flags :=
  match a with
  | .proper lo hi => (f32Word (boundBits (outward true (boundAdd true hi lo.neg))), 0)
  | _ => readerSpecial a Fmt.f32.nan

/-- ivpt of a float value (R121). -/
def ivPtVal (x : FV) : Word × Flags :=
  match x with
  | .nan => (naiWord, 0)
  | _ => (ivWord (outward false x) (outward true x), 0)

/-- ivmake (R121). -/
def ivMakeVal (x y : FV) : Word × Flags :=
  if x.isNan || y.isNan then (naiWord, 0)
  else if x == .inf false && y == .inf true then (emptyWord, 0)
  else if FV.cmp x y == .gt then (naiWord, Flags.nv)
  else (ivWord x y, 0)

/-- The three-valued answers of R128 as two bits: 0 F, 1 T, 2 U (R68). -/
def threeValued (t f : Bool) : BitVec 2 := if t then 1 else if f then 0 else 2

/-- ivcmp (R128). -/
def ivCmpVal (r : IvRel) (a b : Iv) : BitVec 2 × Flags :=
  if a == .nai || b == .nai then (2, 0)
  else if a == .illFormed || b == .illFormed then (2, Flags.nv)
  else
    match a, b with
    | .proper al ah, .proper bl bh =>
      let lt := fun x y => FV.cmp x y == .lt
      let le := fun x y => FV.cmp x y != .gt
      let same := FV.cmp al ah == .eq && FV.cmp bl bh == .eq && FV.cmp al bl == .eq
      let apart := lt ah bl || lt bh al
      (match r with
       | .eq => threeValued same apart
       | .ne => threeValued apart same
       | .lt => threeValued (lt ah bl) (le bh al)
       | .le => threeValued (le ah bl) (lt bh al)
       | .gt => threeValued (lt bh al) (le ah bl)
       | .ge => threeValued (le bh al) (lt ah bl)
       | .sub => threeValued (le bl al && le ah bh) true
       | .inn => threeValued (lt bl al && lt ah bh) true, 0)
    | _, _ =>
      (match r with
       | .sub | .inn => if a == .empty then 1 else 0
       | _ => 2, 0)

/-- ivsplit: both halves (R129). -/
def ivSplitVal (a : Iv) : Word × Word × Flags :=
  match a with
  | .proper lo hi => (ivWord lo (ivMid lo hi), ivWord (ivMid lo hi) hi, 0)
  | .empty => (emptyWord, emptyWord, 0)
  | .nai => (naiWord, naiWord, 0)
  | .illFormed => (naiWord, naiWord, Flags.nv)

end Sys2Proof.Machine
end

