-- ==== Sys2Proof/Config.lean ====
section
/-! DEFINITION. What an implementation or the outside world fixes and the spec leaves open: free values with no
body, and the constants of R4. Nothing in Lean can evaluate a free value. -/

namespace Sys2Proof.Config

/-- The set of an LLC slice that a line number indexes (R3, log 22). -/
opaque llcSet : Nat → Nat

/-- Whether the host has enabled address translation services for a function (R394, log 31). -/
opaque atsEnabled : Nat → Bool

/-- Which of the enabled moves comes next, at a counter (log 1). -/
opaque choice : Nat → Nat

/-- A byte the spec calls undefined, at a counter (log 5). -/
opaque freeByte : Nat → BitVec 8

/-- A word whose value the spec does not state, at a counter (log 5). -/
opaque freeWord : Nat → BitVec 64

/-- A condition the spec leaves open, at a counter (log 5). -/
opaque freeBit : Nat → Bool

/-- The set of the tag table that a key indexes (R159, log 6). -/
opaque tagSet : List Nat → Nat

/-- The silicon error that strikes in a cluster cycle: its kind and where (R296, R382, R387, log 7). -/
opaque upset : Nat → Nat × Nat

/-- The installed LPDDR6 in 64 KiB frames (R312, log 8). -/
opaque lpddrFrames : Nat

/-- The fused security state and the fused minimum firmware version (R415, R426, log 9). -/
opaque fuses : Nat × Nat

/-- The public key, 64 bytes, under which Bexile verifies firmware images (R423, log 9). -/
opaque firmwareKey : List (BitVec 8)

/-- The bytes that a firmware image's signature covers, its security version among them: image and version (R423, log 9). -/
opaque signedImage : Nat → Nat → List (BitVec 8)

/-- The bytes of a firmware image that Bexile measures into register 0, its own, or 1, Zalmer's (R423, R427, log 9). -/
opaque measured : Nat → Nat → List (BitVec 8)

/-- The bytes by which a link configuration is measured: the register, 2 for Tarbin and 3 for the host link, and what the link
has trained to (R423, log 9). -/
opaque linkBytes : Nat → List Nat → List (BitVec 8)

/-- The fused device secret (R424, log 9). -/
opaque deviceSecret : List (BitVec 8)

/-- The bytes that an attestation report signs: the nonce and what else is signed (R424, log 9). -/
opaque reportBytes : Nat → List Nat → List (BitVec 8)

/-- The 32 random bytes of a signature, at a counter (R424, log 9). -/
opaque signRandom : Nat → List (BitVec 8)

/-- The bytes of memory, with their physical addresses, that Bexile loads for a firmware image's Zalmer (R427, log 101). -/
opaque zalmerBytes : Nat → List (Nat × BitVec 8)

/-- The kernel descriptor that an image's Zalmer starts under (R427, R360, log 101). -/
opaque zalmerDesc : Nat → BitVec 512

/-- The value that k register r holds as an image's Zalmer starts: image and r (R427, log 101). -/
opaque zalmerK : Nat → Nat → BitVec 64

/-- The security state that an unlock token grants; none where it is refused (R426, log 9). -/
opaque tokenGrants : Nat → Option Nat

/-- A sensor's reading at a counter (R425, log 9). -/
opaque sensor : Sensor → Nat → Nat

/-- Bexile's answer to a base request of the management bus (R425, log 9). -/
opaque pldmAnswer : Nat → Nat

/-- The controller's estimate of the package's power at a counter, in watts (R421, log 9). -/
opaque powerEstimate : Nat → Nat

/-- Dies, clusters of a die, cores of a cluster, team slots of a core (R4). -/
def dies : Nat := 12

/-- Clusters of a die (R4). -/
def clustersPerDie : Nat := 64

/-- Cores of a cluster (R4). -/
def coresPerCluster : Nat := 6

/-- Team slots of a core (R4). -/
def slotsPerCore : Nat := 8

end Sys2Proof.Config
end

