-- ==== Sys2Proof/WellFormed.lean ====
section
/-! DEFINITION. Which terms of Instr a word can stand for: the types, modifiers, guards and pair rules that
R21 to R32 and the encoding tables of the classes fix from the word alone. -/

namespace Sys2Proof

/-- The guard p0 true (R38). -/
def Hdr.plain (h : Hdr) : Bool := h.gp == 0 && h.gs == .isTrue

/-- .s32 .n32 .s64 .n64 (R83). -/
def Ty.isInt4 : Ty → Bool
  | .s32 | .n32 | .s64 | .n64 => true
  | _ => false

/-- .b32 .b64 (R83). -/
def Ty.isBit2 : Ty → Bool
  | .b32 | .b64 => true
  | _ => false

/-- .s32 .s64 (R83). -/
def Ty.isSigned2 : Ty → Bool
  | .s32 | .s64 => true
  | _ => false

/-- Codes 0x0 to 0x9 (R100). -/
def Ty.isInteger : Ty → Bool
  | .f16 | .bf16 | .f32 | .f64 | .iv => false
  | _ => true

/-- .f16 .bf16 .f32 .f64 (R106). -/
def Ty.isFloat : Ty → Bool
  | .f16 | .bf16 | .f32 | .f64 => true
  | _ => false

/-- Whether scan and redl take the type under the combination (R182). -/
def ScanOp.takes : ScanOp → Ty → Bool
  | .and, t | .or, t => t.isBit2
  | _, t => t.isInt4 || t == .f32

/-- Whether atom takes the type under the operation and space (R339). -/
def AtomOp.takes : AtomOp → Ty → Bool
  | .add, t => t == .s32 || t == .n32 || t == .s64 || t == .n64 || t == .f32
  | .min, t | .max, t => t == .s32 || t == .n32 || t == .s64 || t == .n64
  | .inc, t => t == .n32 || t == .n64
  | _, t => t.isBit2

/-- The kind of a pair operation, which fixes how its type bits read (R29). -/
inductive SlotKind where
  | int | flt | ivl
deriving DecidableEq, Repr

/-- Integer, floating-point or interval (R36). -/
def PairOp.kind : PairOp → SlotKind
  | .fadd | .fsub | .fmul | .fmin | .fmax | .frcp | .frsq | .fsqrt | .fex2 | .flg2 | .cvtf => .flt
  | .ivadd | .ivsub | .ivmul | .ivhull | .ivmeet => .ivl
  | _ => .int

/-- The type a slot's type bits name (R29). -/
def Slot.ty? (s : Slot) : Option Ty :=
  match s.op.kind, s.args.ty.toNat with
  | .int, 0 => some .s32
  | .int, 1 => some .n32
  | .int, 2 => some .b32
  | .int, 3 => some .s64
  | .int, 4 => some .n64
  | .int, 5 => some .b64
  | .flt, 0 => some .f32
  | .flt, 1 => some .f16
  | .flt, 2 => some .bf16
  | .flt, 3 => some .f64
  | .ivl, 0 => some .iv
  | _, _ => none

/-- Unary slots do not read their d (R30). -/
def PairOp.unary : PairOp → Bool
  | .mov | .popc | .clz | .brev | .frcp | .frsq | .fsqrt | .fex2 | .flg2 | .cvtf => true
  | _ => false

/-- The operations of which a pair word holds at most one (R31). -/
def PairOp.special : PairOp → Bool
  | .frcp | .frsq | .fsqrt | .fex2 | .flg2 => true
  | _ => false

/-- The types a slot's operation takes (R104, R116, R133). -/
def PairOp.takes : PairOp → Ty → Bool
  | .iadd, t | .isub, t | .imul, t | .imin, t | .imax, t => t.isInt4
  | .land, t | .lor, t | .lxor, t | .andn, t | .shl, t | .shr, t => t.isBit2
  | .mov, t | .popc, t | .clz, t | .brev, t => t.isBit2
  | .sar, t => t.isSigned2
  | .fadd, t | .fsub, t | .fmul, t | .fmin, t | .fmax, t | .fsqrt, t | .cvtf, t => t.isFloat
  | .frcp, t | .frsq, t | .fex2, t | .flg2, t => t == .f32
  | .ivadd, t | .ivsub, t | .ivmul, t | .ivhull, t | .ivmeet, t => t == .iv

/-- Slots whose rnd field selects rounding (R116). -/
def PairOp.rounds : PairOp → Bool
  | .fadd | .fsub | .fmul | .frcp | .frsq | .fsqrt | .cvtf => true
  | _ => false

/-- Which cls values a slot takes (R104, R116, R133). -/
def PairOp.takesCls (o : PairOp) (cls : BitVec 2) : Bool :=
  match o with
  | .cvtf => true
  | .iadd | .isub | .imul | .ivmeet => !cls.getLsbD 1
  | _ => cls == 0

/-- A slot whose every field its operation accepts (R31). -/
def Slot.wellFormed (s : Slot) : Bool :=
  (match s.ty? with
   | some t => s.op.takes t
   | none => false)
  && (s.op.rounds || s.args.rnd == .rne) && s.op.takesCls s.args.cls

/-- The v registers a slot reads (R31). -/
def Slot.reads (s : Slot) : List (BitVec 7) :=
  (if s.op.unary then [] else [s.args.d]) ++
  (match s.args.b with
   | .v r => [r]
   | _ => [])

/-- The pair rules of R31. -/
def pairWellFormed (x y : Slot) : Bool :=
  x.wellFormed && y.wellFormed && x.args.d != y.args.d && !(x.op.special && y.op.special) &&
  (List.range 4).all fun b => ((x.reads ++ y.reads).filter fun r => r.toNat % 4 == b).length ≤ 2

/-- Hints of ld and st: any, but .none in .sp (R222). -/
def hintOk (space : Space) (hint : Hint) : Bool := space != .sp || hint == .none

/-- The instruction a word can stand for, as far as the word alone decides (R32). Events have no word. -/
def Instr.wellFormed : Instr → Bool
  | .iadd _ ty _ _ _ _ | .isub _ ty _ _ _ _ | .imul _ ty _ _ _ _ | .imulh _ ty _ _ _ => ty.isInt4
  | .imad _ ty _ _ _ _ _ | .idiv _ ty _ _ _ _ | .imin _ ty _ _ _ | .imax _ ty _ _ _ => ty.isInt4
  | .iclamp _ ty _ _ _ _ | .bfx _ ty _ _ _ _ | .lea _ ty _ _ _ _ => ty.isInt4
  | .imadw _ ty _ _ _ _ => ty == .s32 || ty == .n32
  | .iaddx _ ty _ _ _ _ _ _ => ty == .n32 || ty == .n64
  | .iabs _ ty _ _ _ | .ineg _ ty _ _ _ | .sar _ ty _ _ _ => ty.isSigned2
  | .land _ ty _ _ _ | .lor _ ty _ _ _ | .lxor _ ty _ _ _ | .andn _ ty _ _ _ => ty.isBit2
  | .lut3 _ ty _ _ _ _ _ | .shl _ ty _ _ _ | .shr _ ty _ _ _ | .fshl _ ty _ _ _ _ => ty.isBit2
  | .popc _ ty _ _ | .clz _ ty _ _ | .ctz _ ty _ _ | .brev _ ty _ _ | .mov _ ty _ _ => ty.isBit2
  | .bfi _ ty _ _ _ _ | .sel _ ty _ _ _ _ _ | .bperm _ ty _ _ _ _ => ty.isBit2
  | .icmp _ ty rel _ _ _ => ty.isInt4 || (ty.isBit2 && (rel == .eq || rel == .ne))
  | .cvti _ td ts _ _ _ => td.isInteger && ts.isInteger
  | .fadd _ ty _ _ _ _ | .fsub _ ty _ _ _ _ | .fmul _ ty _ _ _ _ | .ffma _ ty _ _ _ _ _ => ty.isFloat
  | .fmin _ ty _ _ _ | .fmax _ ty _ _ _ | .fcmp _ ty _ _ _ _ | .fsqrt _ ty _ _ _ => ty.isFloat
  | .fdiv _ ty _ _ _ _ | .fclass _ ty _ _ | .fscale _ ty _ _ _ _ => ty.isFloat
  | .cvtf _ td ts _ _ _ => td.isFloat && ts.isFloat
  | .cvtfi _ td ts _ _ _ => td.isInt4 && ts.isFloat
  | .cvtif _ td ts _ _ _ => td.isFloat && ts.isInt4
  | .fdot2 _ ty _ _ _ _ _ => ty == .f16 || ty == .bf16
  | .ivsplit _ d e _ => d != e
  | .vote _ team mode _ _ => !(team && (mode == .tmask || mode == .umask))
  | .shfl _ team mode _ _ b _ =>
    (!team || mode == .bcast) &&
    (mode != .bcast || (match b with
      | .k _ => true
      | _ => false))
  | .scan _ ty _ _ op _ _ => op.takes ty
  | .redl _ ty _ op _ _ => op.takes ty
  | .matchLanes _ ty _ _ => ty.isBit2
  | .getc _ _ ctl => ctl.toNat < 0xE
  | .setc _ ctl _ => ctl == 2 || ctl == 3 || (7 ≤ ctl.toNat && ctl.toNat ≤ 0xB)
  | .setcStream _ ctl _ => ctl == 4 || ctl == 5 || ctl == 6
  | .cvg h | .rcv h _ | .brt h _ _ | .loop h _ _ | .rkey h _ _ _ | .rfork h _ _ => h.plain
  | .ld _ space _ hint _ _ _ => hintOk space hint
  | .st _ space width hint _ _ _ => space != .cn && width != .s8 && width != .s16 && hintOk space hint
  | .pref _ space _ _ _ => space != .sp
  | .cpy _ store x2 space w _ _ _ _ _ =>
    space != .sp && (w == .w32 || w == .w64) && !(store && space == .cn) && !(x2 && w == .w32)
  | .cpyt h store space _ _ _ _ _ => h.plain && space != .sp && !(store && space == .cn)
  | .cpym h space _ _ _ _ _ => h.plain && space != .sp
  | .cpys h space _ _ _ _ _ _ => h.plain && (space == .gl || space == .vt)
  | .lyset h space _ _ _ _ => h.plain && (space == .gl || space == .cn)
  | .tdesc h _ _ _ | .mzero h _ _ | .mma h _ _ _ _ | .rcount h _ _ | .rclose h _ _ _ => h.plain
  | .rcomp h _ _ _ | .rtrans h _ _ | .qcvt h _ _ _ _ _ | .ocmp h _ _ _ _ => h.plain
  | .mmab h _ _ planes _ _ _ | .qexp h _ planes _ _ _ _ => h.plain && 2 ≤ planes.toNat && planes.toNat ≤ 8
  | .mdrain h space hint _ _ _ _ _ grp =>
    h.plain && (if space == .sp then grp == none && hint == .none else grp.isSome)
  | .barMeet h _ _ | .barPost h _ _ | .barAwait h _ => h.plain
  | .rwatchOff h | .rwatchOn h | .rwatchClr h => h.plain
  | .atom _ ty op space _ scope _ _ _ c =>
    op.takes ty && (c.isSome == (op == .cas)) && !(space == .sp && !(scope == .team || scope == .block))
  | .fence h _ _ | .gbarMeet h | .gbarPost h | .gbarAwait h | .qwork h _ _ _ => h.plain
  | .pctlRd h _ _ | .pctlWr h _ _ _ | .pctlPreempt h _ _ _ | .pctlResume h _ _ => h.plain
  | .pctlWrQcfg h _ _ _ | .pctlWrQuota h _ _ _ | .pctlWrIfneg h _ _ _ | .pctlWrPwstate h _ _ _ => h.plain
  | .pctlWrPwcap h _ _ _ | .pctlWrFwin h _ _ _ => h.plain
  | .pctlDrain h _ _ | .pctlReset h _ _ | .pctlTlbi h _ _ _ => h.plain
  | .tmwait h _ _ | .coll h _ _ | .seal h _ _ _ | .sealOpen h _ _ _ => h.plain
  | .iaddPairSlot _ x y => pairWellFormed ⟨.iadd, x⟩ y
  | .isubPairSlot _ x y => pairWellFormed ⟨.isub, x⟩ y
  | .imulPairSlot _ x y => pairWellFormed ⟨.imul, x⟩ y
  | .iminPairSlot _ x y => pairWellFormed ⟨.imin, x⟩ y
  | .imaxPairSlot _ x y => pairWellFormed ⟨.imax, x⟩ y
  | .landPairSlot _ x y => pairWellFormed ⟨.land, x⟩ y
  | .lorPairSlot _ x y => pairWellFormed ⟨.lor, x⟩ y
  | .lxorPairSlot _ x y => pairWellFormed ⟨.lxor, x⟩ y
  | .andnPairSlot _ x y => pairWellFormed ⟨.andn, x⟩ y
  | .shlPairSlot _ x y => pairWellFormed ⟨.shl, x⟩ y
  | .shrPairSlot _ x y => pairWellFormed ⟨.shr, x⟩ y
  | .sarPairSlot _ x y => pairWellFormed ⟨.sar, x⟩ y
  | .movPairSlot _ x y => pairWellFormed ⟨.mov, x⟩ y
  | .popcPairSlot _ x y => pairWellFormed ⟨.popc, x⟩ y
  | .clzPairSlot _ x y => pairWellFormed ⟨.clz, x⟩ y
  | .brevPairSlot _ x y => pairWellFormed ⟨.brev, x⟩ y
  | .faddPairSlot _ x y => pairWellFormed ⟨.fadd, x⟩ y
  | .fsubPairSlot _ x y => pairWellFormed ⟨.fsub, x⟩ y
  | .fmulPairSlot _ x y => pairWellFormed ⟨.fmul, x⟩ y
  | .fminPairSlot _ x y => pairWellFormed ⟨.fmin, x⟩ y
  | .fmaxPairSlot _ x y => pairWellFormed ⟨.fmax, x⟩ y
  | .frcpPairSlot _ x y => pairWellFormed ⟨.frcp, x⟩ y
  | .frsqPairSlot _ x y => pairWellFormed ⟨.frsq, x⟩ y
  | .fsqrtPairSlot _ x y => pairWellFormed ⟨.fsqrt, x⟩ y
  | .fex2PairSlot _ x y => pairWellFormed ⟨.fex2, x⟩ y
  | .flg2PairSlot _ x y => pairWellFormed ⟨.flg2, x⟩ y
  | .cvtfPairSlot _ x y => pairWellFormed ⟨.cvtf, x⟩ y
  | .ivaddPairSlot _ x y => pairWellFormed ⟨.ivadd, x⟩ y
  | .ivsubPairSlot _ x y => pairWellFormed ⟨.ivsub, x⟩ y
  | .ivmulPairSlot _ x y => pairWellFormed ⟨.ivmul, x⟩ y
  | .ivhullPairSlot _ x y => pairWellFormed ⟨.ivhull, x⟩ y
  | .ivmeetPairSlot _ x y => pairWellFormed ⟨.ivmeet, x⟩ y
  | _ => true

end Sys2Proof
end

