-- ==== Sys2Proof/Decode.lean ====
section
/-! DEFINITION. Decoding and encoding of instruction words (R16 to R36 and the encoding tables of the classes).
A word decodes to the instruction that its fields name when that instruction is well formed and encodes back to
the word: so every reserved bit, unused field and unassigned code is refused. -/

namespace Sys2Proof

/-- Why a word stands for no instruction (R32). -/
inductive DecodeError where
  | illegalEncoding | illegalPair
deriving DecidableEq, Repr

/-- A one-bit field. -/
def b1 (b : Bool) : BitVec 1 := BitVec.ofBool b

/-- The code of Sense. -/
def Sense.code : Sense → BitVec 2
  | .isTrue => 0
  | .isFalse => 1
  | .isUndecided => 2
  | .notTrue => 3

/-- The Sense of a code. -/
def Sense.ofCode (c : BitVec 2) : Sense :=
  match c.toNat with
  | 0 => .isTrue
  | 1 => .isFalse
  | 2 => .isUndecided
  | _ => .notTrue

/-- The code of Ty. -/
def Ty.code : Ty → BitVec 4
  | .s32 => 0
  | .n32 => 1
  | .b32 => 2
  | .s64 => 3
  | .n64 => 4
  | .b64 => 5
  | .s16 => 6
  | .n16 => 7
  | .s8 => 8
  | .n8 => 9
  | .f16 => 10
  | .bf16 => 11
  | .f32 => 12
  | .f64 => 13
  | .iv => 14

/-- The Ty of a code, none where the code is unassigned. -/
def Ty.ofCode (c : BitVec 4) : Option Ty :=
  match c.toNat with
  | 0 => some .s32
  | 1 => some .n32
  | 2 => some .b32
  | 3 => some .s64
  | 4 => some .n64
  | 5 => some .b64
  | 6 => some .s16
  | 7 => some .n16
  | 8 => some .s8
  | 9 => some .n8
  | 10 => some .f16
  | 11 => some .bf16
  | 12 => some .f32
  | 13 => some .f64
  | 14 => some .iv
  | _ => none

/-- The code of Rnd. -/
def Rnd.code : Rnd → BitVec 2
  | .rne => 0
  | .rtz => 1
  | .rdn => 2
  | .rup => 3

/-- The Rnd of a code. -/
def Rnd.ofCode (c : BitVec 2) : Rnd :=
  match c.toNat with
  | 0 => .rne
  | 1 => .rtz
  | 2 => .rdn
  | _ => .rup

/-- The code of Mod. -/
def Mod.code : Mod → BitVec 2
  | .n => 0
  | .g => 1
  | .a => 2
  | .m => 3

/-- The Mod of a code. -/
def Mod.ofCode (c : BitVec 2) : Mod :=
  match c.toNat with
  | 0 => .n
  | 1 => .g
  | 2 => .a
  | _ => .m

/-- The code of Rel. -/
def Rel.code : Rel → BitVec 3
  | .eq => 0
  | .ne => 1
  | .lt => 2
  | .le => 3
  | .gt => 4
  | .ge => 5

/-- The Rel of a code, none where the code is unassigned. -/
def Rel.ofCode (c : BitVec 3) : Option Rel :=
  match c.toNat with
  | 0 => some .eq
  | 1 => some .ne
  | 2 => some .lt
  | 3 => some .le
  | 4 => some .gt
  | 5 => some .ge
  | _ => none

/-- The code of IvRel. -/
def IvRel.code : IvRel → BitVec 3
  | .eq => 0
  | .ne => 1
  | .lt => 2
  | .le => 3
  | .gt => 4
  | .ge => 5
  | .sub => 6
  | .inn => 7

/-- The IvRel of a code. -/
def IvRel.ofCode (c : BitVec 3) : IvRel :=
  match c.toNat with
  | 0 => .eq
  | 1 => .ne
  | 2 => .lt
  | 3 => .le
  | 4 => .gt
  | 5 => .ge
  | 6 => .sub
  | _ => .inn

/-- The code of SelPol. -/
def SelPol.code : SelPol → BitVec 2
  | .uf => 0
  | .ut => 1
  | .uk => 2

/-- The SelPol of a code, none where the code is unassigned. -/
def SelPol.ofCode (c : BitVec 2) : Option SelPol :=
  match c.toNat with
  | 0 => some .uf
  | 1 => some .ut
  | 2 => some .uk
  | _ => none

/-- The code of VoteMode. -/
def VoteMode.code : VoteMode → BitVec 3
  | .tmask => 0
  | .umask => 1
  | .every => 2
  | .any => 3
  | .count => 4

/-- The VoteMode of a code, none where the code is unassigned. -/
def VoteMode.ofCode (c : BitVec 3) : Option VoteMode :=
  match c.toNat with
  | 0 => some .tmask
  | 1 => some .umask
  | 2 => some .every
  | 3 => some .any
  | 4 => some .count
  | _ => none

/-- The code of ShflMode. -/
def ShflMode.code : ShflMode → BitVec 3
  | .abs => 0
  | .rel => 1
  | .rot => 2
  | .mix => 3
  | .bcast => 4

/-- The ShflMode of a code, none where the code is unassigned. -/
def ShflMode.ofCode (c : BitVec 3) : Option ShflMode :=
  match c.toNat with
  | 0 => some .abs
  | 1 => some .rel
  | 2 => some .rot
  | 3 => some .mix
  | 4 => some .bcast
  | _ => none

/-- The code of ScanOp. -/
def ScanOp.code : ScanOp → BitVec 3
  | .add => 0
  | .min => 1
  | .max => 2
  | .and => 3
  | .or => 4

/-- The ScanOp of a code, none where the code is unassigned. -/
def ScanOp.ofCode (c : BitVec 3) : Option ScanOp :=
  match c.toNat with
  | 0 => some .add
  | 1 => some .min
  | 2 => some .max
  | 3 => some .and
  | 4 => some .or
  | _ => none

/-- The code of RandMode. -/
def RandMode.code : RandMode → BitVec 2
  | .b32 => 0
  | .b64 => 1
  | .u01 => 2

/-- The RandMode of a code, none where the code is unassigned. -/
def RandMode.ofCode (c : BitVec 2) : Option RandMode :=
  match c.toNat with
  | 0 => some .b32
  | 1 => some .b64
  | 2 => some .u01
  | _ => none

/-- The code of Space. -/
def Space.code : Space → BitVec 3
  | .gl => 0
  | .sp => 1
  | .vt => 2
  | .cn => 3

/-- The Space of a code, none where the code is unassigned. -/
def Space.ofCode (c : BitVec 3) : Option Space :=
  match c.toNat with
  | 0 => some .gl
  | 1 => some .sp
  | 2 => some .vt
  | 3 => some .cn
  | _ => none

/-- The code of Width. -/
def Width.code : Width → BitVec 3
  | .n8 => 0
  | .n16 => 1
  | .w32 => 2
  | .w64 => 3
  | .iv => 4
  | .s8 => 5
  | .s16 => 6

/-- The Width of a code, none where the code is unassigned. -/
def Width.ofCode (c : BitVec 3) : Option Width :=
  match c.toNat with
  | 0 => some .n8
  | 1 => some .n16
  | 2 => some .w32
  | 3 => some .w64
  | 4 => some .iv
  | 5 => some .s8
  | 6 => some .s16
  | _ => none

/-- The code of Hint. -/
def Hint.code : Hint → BitVec 2
  | .none => 0
  | .keep => 1
  | .stream => 2
  | .bypass => 3

/-- The Hint of a code. -/
def Hint.ofCode (c : BitVec 2) : Hint :=
  match c.toNat with
  | 0 => .none
  | 1 => .keep
  | 2 => .stream
  | _ => .bypass

/-- The code of DrainSpace. -/
def DrainSpace.code : DrainSpace → BitVec 2
  | .sp => 0
  | .gl => 1
  | .vt => 2

/-- The DrainSpace of a code, none where the code is unassigned. -/
def DrainSpace.ofCode (c : BitVec 2) : Option DrainSpace :=
  match c.toNat with
  | 0 => some .sp
  | 1 => some .gl
  | 2 => some .vt
  | _ => none

/-- The code of OcmpMode. -/
def OcmpMode.code : OcmpMode → BitVec 3
  | .lt => 0
  | .le => 1
  | .eq => 2
  | .gtix => 3
  | .gt => 4

/-- The OcmpMode of a code, none where the code is unassigned. -/
def OcmpMode.ofCode (c : BitVec 3) : Option OcmpMode :=
  match c.toNat with
  | 0 => some .lt
  | 1 => some .le
  | 2 => some .eq
  | 3 => some .gtix
  | 4 => some .gt
  | _ => none

/-- The code of AtomOp. -/
def AtomOp.code : AtomOp → BitVec 4
  | .add => 0
  | .min => 1
  | .max => 2
  | .and => 3
  | .or => 4
  | .xor => 5
  | .exch => 6
  | .cas => 7
  | .inc => 8

/-- The AtomOp of a code, none where the code is unassigned. -/
def AtomOp.ofCode (c : BitVec 4) : Option AtomOp :=
  match c.toNat with
  | 0 => some .add
  | 1 => some .min
  | 2 => some .max
  | 3 => some .and
  | 4 => some .or
  | 5 => some .xor
  | 6 => some .exch
  | 7 => some .cas
  | 8 => some .inc
  | _ => none

/-- The code of AtomSpace. -/
def AtomSpace.code : AtomSpace → BitVec 2
  | .gl => 0
  | .sp => 1
  | .vt => 2

/-- The AtomSpace of a code, none where the code is unassigned. -/
def AtomSpace.ofCode (c : BitVec 2) : Option AtomSpace :=
  match c.toNat with
  | 0 => some .gl
  | 1 => some .sp
  | 2 => some .vt
  | _ => none

/-- The code of AtomOrder. -/
def AtomOrder.code : AtomOrder → BitVec 2
  | .rlx => 0
  | .acq => 1
  | .rel => 2
  | .ar => 3

/-- The AtomOrder of a code. -/
def AtomOrder.ofCode (c : BitVec 2) : AtomOrder :=
  match c.toNat with
  | 0 => .rlx
  | 1 => .acq
  | 2 => .rel
  | _ => .ar

/-- The code of FenceOrder. -/
def FenceOrder.code : FenceOrder → BitVec 2
  | .acq => 1
  | .rel => 2
  | .sc => 3

/-- The FenceOrder of a code, none where the code is unassigned. -/
def FenceOrder.ofCode (c : BitVec 2) : Option FenceOrder :=
  match c.toNat with
  | 1 => some .acq
  | 2 => some .rel
  | 3 => some .sc
  | _ => none

/-- The code of Scope. -/
def Scope.code : Scope → BitVec 3
  | .team => 0
  | .block => 1
  | .sheet => 2
  | .grid => 3
  | .span => 4
  | .sys => 5

/-- The Scope of a code, none where the code is unassigned. -/
def Scope.ofCode (c : BitVec 3) : Option Scope :=
  match c.toNat with
  | 0 => some .team
  | 1 => some .block
  | 2 => some .sheet
  | 3 => some .grid
  | 4 => some .span
  | 5 => some .sys
  | _ => none

/-- The code of SlotGuard. -/
def SlotGuard.code : SlotGuard → BitVec 2
  | .always => 0
  | .p1true => 1
  | .p2true => 2
  | .p1notTrue => 3

/-- The SlotGuard of a code. -/
def SlotGuard.ofCode (c : BitVec 2) : SlotGuard :=
  match c.toNat with
  | 0 => .always
  | 1 => .p1true
  | 2 => .p2true
  | _ => .p1notTrue

/-- The code of PairOp. -/
def PairOp.code : PairOp → BitVec 7
  | .iadd => 0
  | .isub => 1
  | .imul => 2
  | .imin => 3
  | .imax => 4
  | .land => 5
  | .lor => 6
  | .lxor => 7
  | .andn => 8
  | .shl => 9
  | .shr => 10
  | .sar => 11
  | .mov => 12
  | .popc => 13
  | .clz => 14
  | .brev => 15
  | .fadd => 16
  | .fsub => 17
  | .fmul => 18
  | .fmin => 19
  | .fmax => 20
  | .frcp => 21
  | .frsq => 22
  | .fsqrt => 23
  | .fex2 => 24
  | .flg2 => 25
  | .cvtf => 26
  | .ivadd => 27
  | .ivsub => 28
  | .ivmul => 29
  | .ivhull => 30
  | .ivmeet => 31

/-- The PairOp of a code, none where the code is unassigned. -/
def PairOp.ofCode (c : BitVec 7) : Option PairOp :=
  match c.toNat with
  | 0 => some .iadd
  | 1 => some .isub
  | 2 => some .imul
  | 3 => some .imin
  | 4 => some .imax
  | 5 => some .land
  | 6 => some .lor
  | 7 => some .lxor
  | 8 => some .andn
  | 9 => some .shl
  | 10 => some .shr
  | 11 => some .sar
  | 12 => some .mov
  | 13 => some .popc
  | 14 => some .clz
  | 15 => some .brev
  | 16 => some .fadd
  | 17 => some .fsub
  | 18 => some .fmul
  | 19 => some .fmin
  | 20 => some .fmax
  | 21 => some .frcp
  | 22 => some .frsq
  | 23 => some .fsqrt
  | 24 => some .fex2
  | 25 => some .flg2
  | 26 => some .cvtf
  | 27 => some .ivadd
  | 28 => some .ivsub
  | 29 => some .ivmul
  | 30 => some .ivhull
  | 31 => some .ivmeet
  | _ => none

/-- The code of Special. -/
def Special.code : Special → BitVec 4
  | .lane => 1
  | .wlane => 2
  | .warp => 3
  | .team => 4
  | .block => 5
  | .nlanes => 6
  | .nteams => 7
  | .nblocks => 8
  | .core => 9
  | .cluster => 10
  | .die => 11
  | .launch => 12

/-- The Special of a code, none where the code is unassigned. -/
def Special.ofCode (c : BitVec 4) : Option Special :=
  match c.toNat with
  | 1 => some .lane
  | 2 => some .wlane
  | 3 => some .warp
  | 4 => some .team
  | 5 => some .block
  | 6 => some .nlanes
  | 7 => some .nteams
  | 8 => some .nblocks
  | 9 => some .core
  | 10 => some .cluster
  | 11 => some .die
  | 12 => some .launch
  | _ => none

/-- The code of a k register (R19). -/
def kCode (k : BitVec 6) : BitVec 8 := 0b10#2 ++ k

/-- The k register of a uniform field (R21). -/
def kOf (c : BitVec 8) : Option (BitVec 6) :=
  if c.extractLsb' 6 2 = 0b10#2 then some (c.extractLsb' 0 6) else none

/-- The code of a v register (R19). -/
def vCode (r : BitVec 7) : BitVec 8 := 0#1 ++ r

/-- The v register of a field that takes no other code. -/
def vOf (c : BitVec 8) : Option (BitVec 7) :=
  if c.extractLsb' 7 1 = 0#1 then some (c.extractLsb' 0 7) else none

/-- A group code: a k code that is a multiple of 4 (R222). -/
def groupCode (g : BitVec 4) : BitVec 8 := 0b10#2 ++ g ++ 0#2

/-- The group of a field (R222). -/
def groupOf (c : BitVec 8) : Option (BitVec 4) :=
  if c.extractLsb' 6 2 = 0b10#2 ∧ c.extractLsb' 0 2 = 0#2 then some (c.extractLsb' 2 4) else none

/-- A uniform field that may be left out, encoded 0xC0 (R189, R255, R278, R408). -/
def optKCode : Option (BitVec 6) → BitVec 8
  | none => 0xC0
  | some k => kCode k

/-- The reading of a uniform field that may be 0xC0. -/
def optKOf (c : BitVec 8) : Option (Option (BitVec 6)) :=
  if c = 0xC0 then some none else (kOf c).map some

/-- The group field of mdrain, 0x00 in .sp (R247). -/
def optGroupCode : Option (BitVec 4) → BitVec 8
  | none => 0
  | some g => groupCode g

/-- The reading of the group field of mdrain. -/
def optGroupOf (c : BitVec 8) : Option (Option (BitVec 4)) :=
  if c = 0 then some none else (groupOf c).map some

/-- A predicate, tile or other four-bit index with its high bits reserved (R21). -/
def predCode (p : BitVec 4) : BitVec 8 := 0#4 ++ p

/-- An accumulator index (R247). -/
def accCode (a : BitVec 2) : BitVec 8 := 0#6 ++ a

/-- The code of a source (R19). -/
def Src.code : Src → BitVec 8
  | .v r => vCode r
  | .k r => kCode r
  | .zero => 0xC0
  | .special x => 0xC#4 ++ x.code
  | .const n => 0xF#4 ++ n

/-- The source a code names; none for a reserved code (R19, R21). -/
def Src.ofCode (c : BitVec 8) : Option Src :=
  if c.extractLsb' 7 1 = 0#1 then some (.v (c.extractLsb' 0 7))
  else if c.extractLsb' 6 2 = 0b10#2 then some (.k (c.extractLsb' 0 6))
  else if c.extractLsb' 4 4 = 0xF#4 then some (.const (c.extractLsb' 0 4))
  else if c = 0xC0 then some .zero
  else if c.extractLsb' 4 4 = 0xC#4 then (Special.ofCode (c.extractLsb' 0 4)).map .special
  else none

/-- The code of a destination (R21). -/
def Dst.code : Dst → BitVec 8
  | .v r => vCode r
  | .k r => kCode r

/-- The destination a code names (R21). -/
def Dst.ofCode (c : BitVec 8) : Option Dst :=
  if c.extractLsb' 7 1 = 0#1 then some (.v (c.extractLsb' 0 7)) else (kOf c).map .k

/-- The third source of atom: zero but for .cas (R338). -/
def optSrcCode : Option Src → BitVec 8
  | none => 0
  | some x => x.code

/-- The fields of an F-form word (R18). The I and B forms hold imm32 or the offset in b, c and fn (R26, R27). -/
structure Fields where
  h : Hdr
  op : BitVec 8
  d : BitVec 8
  a : BitVec 8
  b : BitVec 8
  c : BitVec 8
  fn : BitVec 16
deriving DecidableEq, Repr

/-- FN of the integer class: type and ten modifier bits (R82). -/
def fnInt (ty : Ty) (mods : BitVec 10) : BitVec 16 := ty.code ++ 0#2 ++ mods

/-- FN without a type: ten low bits. -/
def fnBits (mods : BitVec 10) : BitVec 16 := 0#6 ++ mods

/-- FN of the floating-point and interval classes (R23). -/
def fnFlt (ty : Ty) (rnd : Rnd) (a b c : Mod) (cls : BitVec 4) : BitVec 16 :=
  ty.code ++ rnd.code ++ a.code ++ b.code ++ c.code ++ cls

/-- A class modifier in bit 0 of cls. -/
def clsBit (b : Bool) : BitVec 4 := 0#3 ++ b1 b

/-- The modifier bits of iaddx (R89). -/
def carryBits (sub : Bool) : Option (BitVec 4) → BitVec 10
  | none => 0#4 ++ b1 sub ++ 0#5
  | some p => 0#4 ++ b1 sub ++ 1#1 ++ p

/-- The fields of an I-form or B-form word (R26, R27). -/
def immFields (h : Hdr) (op d a : BitVec 8) (imm : BitVec 32) : Fields :=
  ⟨h, op, d, a, imm.extractLsb' 24 8, imm.extractLsb' 16 8, imm.extractLsb' 0 16⟩

/-- imm32 or the offset. -/
def Fields.imm (f : Fields) : BitVec 32 := f.b ++ f.c ++ f.fn

/-- The type of FN [15:12] (R22). -/
def Fields.ty (f : Fields) : Option Ty := Ty.ofCode (f.fn.extractLsb' 12 4)

/-- The source type of cls [3:0] (R100, R114). -/
def Fields.clsTy (f : Fields) : Option Ty := Ty.ofCode (f.fn.extractLsb' 0 4)

/-- The rounding of FN [11:10] (R23). -/
def Fields.rnd (f : Fields) : Rnd := Rnd.ofCode (f.fn.extractLsb' 10 2)

/-- A bit of FN. -/
def Fields.fnBit (f : Fields) (i : Nat) : Bool := f.fn.getLsbD i

/-- The destination. -/
def Fields.dst (f : Fields) : Option Dst := Dst.ofCode f.d

/-- The source A. -/
def Fields.srcA (f : Fields) : Option Src := Src.ofCode f.a

/-- The source B. -/
def Fields.srcB (f : Fields) : Option Src := Src.ofCode f.b

/-- The source C. -/
def Fields.srcC (f : Fields) : Option Src := Src.ofCode f.c

/-- The source A with its modifier (R24). -/
def Fields.msrcA (f : Fields) : Option MSrc := (Src.ofCode f.a).map fun s => ⟨Mod.ofCode (f.fn.extractLsb' 8 2), s⟩

/-- The source B with its modifier (R24). -/
def Fields.msrcB (f : Fields) : Option MSrc := (Src.ofCode f.b).map fun s => ⟨Mod.ofCode (f.fn.extractLsb' 6 2), s⟩

/-- The source C with its modifier (R24). -/
def Fields.msrcC (f : Fields) : Option MSrc := (Src.ofCode f.c).map fun s => ⟨Mod.ofCode (f.fn.extractLsb' 4 2), s⟩

/-- The four-bit index of D. -/
def Fields.predD (f : Fields) : BitVec 4 := f.d.extractLsb' 0 4

/-- The four-bit index of A. -/
def Fields.predA (f : Fields) : BitVec 4 := f.a.extractLsb' 0 4

/-- The four-bit index of B. -/
def Fields.predB (f : Fields) : BitVec 4 := f.b.extractLsb' 0 4

/-- The four-bit index of C. -/
def Fields.predC (f : Fields) : BitVec 4 := f.c.extractLsb' 0 4

/-- The carry-in predicate of iaddx, if enabled (R89). -/
def Fields.carryIn (f : Fields) : Option (BitVec 4) :=
  if f.fnBit 4 then some (f.fn.extractLsb' 0 4) else none

/-- The space of C [23:21] (R25). -/
def Fields.space (f : Fields) : Option Space := Space.ofCode (f.c.extractLsb' 5 3)

/-- The width of C [20:18] (R25). -/
def Fields.width (f : Fields) : Option Width := Width.ofCode (f.c.extractLsb' 2 3)

/-- The hint of C [17:16] (R25). -/
def Fields.hint (f : Fields) : Hint := Hint.ofCode (f.c.extractLsb' 0 2)

/-- The compared operand of atom.cas, none for the other operations (R338). -/
def casOperand (f : Fields) : Option (Option Src) :=
  if f.fn.extractLsb' 8 4 = 7#4 then (Src.ofCode f.c).map some else some none

/-- The word of the fields (R17, R18). -/
def Fields.pack (f : Fields) : BitVec 64 :=
  b1 f.h.sw ++ 0#1 ++ f.op ++ f.h.gp ++ f.h.gs.code ++ f.d ++ f.a ++ f.b ++ f.c ++ f.fn

/-- The fields of a word of the F, I or B form (R17, R18). -/
def Fields.unpack (w : BitVec 64) : Fields :=
  ⟨⟨w.getLsbD 63, w.extractLsb' 50 4, Sense.ofCode (w.extractLsb' 48 2)⟩, w.extractLsb' 54 8, w.extractLsb' 40 8,
    w.extractLsb' 32 8, w.extractLsb' 24 8, w.extractLsb' 16 8, w.extractLsb' 0 16⟩

/-- The 31 bits of a slot (R29). -/
def Slot.pack (s : Slot) : BitVec 31 :=
  s.op.code ++ s.args.d ++ s.args.b.code ++ s.args.g.code ++ s.args.ty ++ s.args.rnd.code ++ s.args.cls

/-- The slot of 31 bits; none where op7 is unassigned or b is a reserved code (R29, R36). -/
def Slot.unpack (w : BitVec 31) : Option Slot := do
  let op ← PairOp.ofCode (w.extractLsb' 24 7)
  let b ← Src.ofCode (w.extractLsb' 9 8)
  return ⟨op, ⟨w.extractLsb' 17 7, b, SlotGuard.ofCode (w.extractLsb' 7 2), w.extractLsb' 4 3,
    Rnd.ofCode (w.extractLsb' 2 2), w.extractLsb' 0 2⟩⟩

/-- The word of a pair (R29). -/
def packPair (sw : Bool) (x y : Slot) : BitVec 64 := b1 sw ++ 1#1 ++ x.pack ++ y.pack

/-- The instruction that the fields name, integer class (R83). -/
def decodeInt (f : Fields) : Option Instr :=
  match f.op.toNat with
  | 0x00 => do return .iadd f.h (← f.ty) (f.fnBit 0) (← f.dst) (← f.srcA) (← f.srcB)
  | 0x01 => do return .isub f.h (← f.ty) (f.fnBit 0) (← f.dst) (← f.srcA) (← f.srcB)
  | 0x02 => do return .imul f.h (← f.ty) (f.fnBit 0) (← f.dst) (← f.srcA) (← f.srcB)
  | 0x03 => do return .imulh f.h (← f.ty) (← f.dst) (← f.srcA) (← f.srcB)
  | 0x04 => do return .imad f.h (← f.ty) (f.fnBit 0) (← f.dst) (← f.srcA) (← f.srcB) (← f.srcC)
  | 0x05 => do return .imadw f.h (← f.ty) (← f.dst) (← f.srcA) (← f.srcB) (← f.srcC)
  | 0x06 => do return .iaddx f.h (← f.ty) (f.fnBit 5) f.carryIn (← f.dst) (← f.srcA) (← f.srcB) f.predC
  | 0x07 => do return .idiv f.h (← f.ty) (f.fnBit 0) (← f.dst) (← f.srcA) (← f.srcB)
  | 0x08 => do return .iabs f.h (← f.ty) (f.fnBit 0) (← f.dst) (← f.srcA)
  | 0x09 => do return .ineg f.h (← f.ty) (f.fnBit 0) (← f.dst) (← f.srcA)
  | 0x0A => do return .imin f.h (← f.ty) (← f.dst) (← f.srcA) (← f.srcB)
  | 0x0B => do return .imax f.h (← f.ty) (← f.dst) (← f.srcA) (← f.srcB)
  | 0x0C => do return .iclamp f.h (← f.ty) (← f.dst) (← f.srcA) (← f.srcB) (← f.srcC)
  | 0x0D => do return .idp4 f.h (f.fnBit 2) (f.fnBit 1) (f.fnBit 0) (← f.dst) (← f.srcA) (← f.srcB) (← f.srcC)
  | 0x0E => do return .land f.h (← f.ty) (← f.dst) (← f.srcA) (← f.srcB)
  | 0x0F => do return .lor f.h (← f.ty) (← f.dst) (← f.srcA) (← f.srcB)
  | 0x10 => do return .lxor f.h (← f.ty) (← f.dst) (← f.srcA) (← f.srcB)
  | 0x11 => do return .andn f.h (← f.ty) (← f.dst) (← f.srcA) (← f.srcB)
  | 0x12 => do return .lut3 f.h (← f.ty) (f.fn.extractLsb' 0 8) (← f.dst) (← f.srcA) (← f.srcB) (← f.srcC)
  | 0x13 => do return .shl f.h (← f.ty) (← f.dst) (← f.srcA) (← f.srcB)
  | 0x14 => do return .shr f.h (← f.ty) (← f.dst) (← f.srcA) (← f.srcB)
  | 0x15 => do return .sar f.h (← f.ty) (← f.dst) (← f.srcA) (← f.srcB)
  | 0x16 => do return .fshl f.h (← f.ty) (← f.dst) (← f.srcA) (← f.srcB) (← f.srcC)
  | 0x17 => do return .popc f.h (← f.ty) (← f.dst) (← f.srcA)
  | 0x18 => do return .clz f.h (← f.ty) (← f.dst) (← f.srcA)
  | 0x19 => do return .ctz f.h (← f.ty) (← f.dst) (← f.srcA)
  | 0x1A => do return .brev f.h (← f.ty) (← f.dst) (← f.srcA)
  | 0x1B => do return .bfx f.h (← f.ty) (← f.dst) (← f.srcA) (← f.srcB) (← f.srcC)
  | 0x1C => do return .bfi f.h (← f.ty) (← f.dst) (← f.srcA) (← f.srcB) (← f.srcC)
  | 0x1D => do return .icmp f.h (← f.ty) (← Rel.ofCode (f.fn.extractLsb' 0 3)) f.predD (← f.srcA) (← f.srcB)
  | 0x1E => do return .sel f.h (← f.ty) (← SelPol.ofCode (f.fn.extractLsb' 0 2)) (← f.dst) (← f.srcA) (← f.srcB) f.predC
  | 0x1F => do return .cvti f.h (← f.ty) (← f.clsTy) (f.fnBit 4) (← f.dst) (← f.srcA)
  | 0x20 => do return .mov f.h (← f.ty) (← f.dst) (← f.srcA)
  | 0x21 => do return .lea f.h (← f.ty) (f.fn.extractLsb' 0 3) (← f.dst) (← f.srcA) (← f.srcB)
  | 0x22 => do return .bperm f.h (← f.ty) (← f.dst) (← f.srcA) (← f.srcB) (← f.srcC)
  | _ => none

/-- The instruction that the fields name, floating-point class (R106). -/
def decodeFlt (f : Fields) : Option Instr :=
  match f.op.toNat with
  | 0x30 => do return .fadd f.h (← f.ty) f.rnd (← f.dst) (← f.msrcA) (← f.msrcB)
  | 0x31 => do return .fsub f.h (← f.ty) f.rnd (← f.dst) (← f.msrcA) (← f.msrcB)
  | 0x32 => do return .fmul f.h (← f.ty) f.rnd (← f.dst) (← f.msrcA) (← f.msrcB)
  | 0x33 => do return .ffma f.h (← f.ty) f.rnd (← f.dst) (← f.msrcA) (← f.msrcB) (← f.msrcC)
  | 0x34 => do return .fmin f.h (← f.ty) (← f.dst) (← f.msrcA) (← f.msrcB)
  | 0x35 => do return .fmax f.h (← f.ty) (← f.dst) (← f.msrcA) (← f.msrcB)
  | 0x36 => do return .fcmp f.h (← f.ty) (← Rel.ofCode (f.fn.extractLsb' 0 3)) f.predD (← f.msrcA) (← f.msrcB)
  | 0x37 => do return .frcp f.h f.rnd (← f.dst) (← f.msrcA)
  | 0x38 => do return .frsq f.h f.rnd (← f.dst) (← f.msrcA)
  | 0x39 => do return .fsqrt f.h (← f.ty) f.rnd (← f.dst) (← f.msrcA)
  | 0x3A => do return .fdiv f.h (← f.ty) f.rnd (← f.dst) (← f.msrcA) (← f.msrcB)
  | 0x3B => do return .fex2 f.h (← f.dst) (← f.msrcA)
  | 0x3C => do return .flg2 f.h (← f.dst) (← f.msrcA)
  | 0x3D => do return .fsinpi f.h (← f.dst) (← f.msrcA)
  | 0x3E => do return .fcospi f.h (← f.dst) (← f.msrcA)
  | 0x3F => do return .ftanh f.h (← f.dst) (← f.msrcA)
  | 0x40 => do return .fclass f.h (← f.ty) (← f.dst) (← f.msrcA)
  | 0x41 => do return .fscale f.h (← f.ty) f.rnd (← f.dst) (← f.msrcA) (← f.srcB)
  | 0x42 => do return .cvtf f.h (← f.ty) (← f.clsTy) f.rnd (← f.dst) (← f.msrcA)
  | 0x43 => do return .cvtfi f.h (← f.ty) (← f.clsTy) f.rnd (← f.dst) (← f.msrcA)
  | 0x44 => do return .cvtif f.h (← f.ty) (← f.clsTy) f.rnd (← f.dst) (← f.srcA)
  | 0x45 => do return .fdot2 f.h (← f.ty) f.rnd (← f.dst) (← f.srcA) (← f.srcB) (← f.msrcC)
  | _ => none

/-- The instruction that the fields name, interval class (R118). -/
def decodeIvl (f : Fields) : Option Instr :=
  match f.op.toNat with
  | 0x48 => do return .ivpt f.h (f.fnBit 0) (← f.dst) (← f.msrcA)
  | 0x49 => do return .ivmake f.h (← f.dst) (← f.msrcA) (← f.msrcB)
  | 0x4A => do return .ivlo f.h (← f.dst) (← f.msrcA)
  | 0x4B => do return .ivhi f.h (← f.dst) (← f.msrcA)
  | 0x4C => do return .ivmid f.h (← f.dst) (← f.msrcA)
  | 0x4D => do return .ivwid f.h (← f.dst) (← f.msrcA)
  | 0x4E => do return .ivadd f.h (← f.dst) (← f.msrcA) (← f.msrcB)
  | 0x4F => do return .ivsub f.h (← f.dst) (← f.msrcA) (← f.msrcB)
  | 0x50 => do return .ivmul f.h (← f.dst) (← f.msrcA) (← f.msrcB)
  | 0x51 => do return .ivfma f.h (← f.dst) (← f.msrcA) (← f.msrcB) (← f.msrcC)
  | 0x52 => do return .ivdiv f.h (← f.dst) (← f.msrcA) (← f.msrcB)
  | 0x53 => do return .ivsqr f.h (← f.dst) (← f.msrcA)
  | 0x54 => do return .ivsqrt f.h (← f.dst) (← f.msrcA)
  | 0x55 => do return .ivrsqrt f.h (← f.dst) (← f.msrcA)
  | 0x56 => do return .ivhull f.h (← f.dst) (← f.msrcA) (← f.msrcB)
  | 0x57 => do return .ivmeet f.h (f.fnBit 0) (← f.dst) (← f.msrcA) (← f.msrcB)
  | 0x58 => do return .ivcmp f.h (IvRel.ofCode (f.fn.extractLsb' 0 3)) f.predD (← f.msrcA) (← f.msrcB)
  | 0x59 => do return .ivsplit f.h (← vOf f.d) (← vOf f.b) (← f.msrcA)
  | 0x5A => do return .ivbis f.h (← vOf f.d) (← f.msrcA) (← kOf f.b) (← f.srcC) (f.fn.extractLsb' 0 4)
  | _ => none

/-- The instruction that the fields name, core class (R167). -/
def decodeCore (f : Fields) : Option Instr :=
  match f.op.toNat with
  | 0x60 => do return .nop f.h
  | 0x61 => do return .exit f.h
  | 0x62 => do return .yield f.h
  | 0x63 => do return .trap f.h (f.fn.extractLsb' 0 8)
  | 0x64 => do return .ret f.h (← kOf f.a)
  | 0x65 => do return .cvg f.h
  | 0x66 => do return .pand f.h (f.fnBit 0) (f.fnBit 1) f.predD f.predA f.predB
  | 0x67 => do return .por f.h (f.fnBit 0) (f.fnBit 1) f.predD f.predA f.predB
  | 0x68 => do return .pnot f.h f.predD f.predA
  | 0x69 => do return .pdec f.h (f.fnBit 0) f.predD f.predA
  | 0x6A => do return .pmov f.h f.predD (← f.srcA)
  | 0x6B => do return .pget f.h (← f.dst) f.predA
  | 0x6C => do return .vote f.h (f.fnBit 3) (← VoteMode.ofCode (f.fn.extractLsb' 0 3)) (← f.dst) f.predA
  | 0x6D => do return .shfl f.h (f.fnBit 3) (← ShflMode.ofCode (f.fn.extractLsb' 0 3)) (← vOf f.d) (← f.srcA) (← f.srcB) f.predC
  | 0x6E => do return .scan f.h (← f.ty) (f.fnBit 4) (f.fnBit 3) (← ScanOp.ofCode (f.fn.extractLsb' 0 3)) (← vOf f.d) (← f.srcA)
  | 0x6F => do return .redl f.h (← f.ty) (f.fnBit 3) (← ScanOp.ofCode (f.fn.extractLsb' 0 3)) (← f.dst) (← f.srcA)
  | 0x70 => do return .push f.h (← vOf f.d) (← f.srcA) (← f.srcB)
  | 0x71 => do return .matchLanes f.h (← f.ty) (← vOf f.d) (← f.srcA)
  | 0x72 => do return .vget f.h (← vOf f.d) (← kOf f.a)
  | 0x73 => do return .vput f.h (← f.srcA) (← kOf f.b)
  | 0x74 => do return .rand f.h (← RandMode.ofCode (f.fn.extractLsb' 0 2)) (← vOf f.d)
  | 0x75 => do return .rkey f.h (← kOf f.a) (← kOf f.b) (← optKOf f.c)
  | 0x76 => do return .rfork f.h (f.d.extractLsb' 1 5) (← kOf f.a)
  | 0x77 => do return .vstag f.h (← f.dst) (← vOf f.a)
  | 0x78 => do return .getc f.h (← f.dst) (f.fn.extractLsb' 0 4)
  | 0x79 => do
    if f.fn = 0x0 then return .setcFlags f.h (← f.srcA)
    else if f.fn = 0x1 then return .setcBindctl f.h (← f.srcA)
    else if f.fn = 0x4 || f.fn = 0x5 || f.fn = 0x6 then return .setcStream f.h (f.fn.extractLsb' 0 4) (← f.srcA)
    else if f.fn = 0xC then return .setcPassc f.h (← f.srcA)
    else if f.fn = 0xD then return .setcRatio f.h (← f.srcA)
    else return .setc f.h (f.fn.extractLsb' 0 4) (← f.srcA)
  | _ => none

/-- The instruction that the fields name, memory and copy class (R222). -/
def decodeMem (f : Fields) : Option Instr :=
  match f.op.toNat with
  | 0x80 => do return .ld f.h (← f.space) (← f.width) f.hint (← f.dst) (← f.srcA) f.fn
  | 0x81 => do return .st f.h (← f.space) (← f.width) f.hint (← f.srcA) (← f.srcB) f.fn
  | 0x82 => do return .pref f.h (← f.space) f.hint (← f.srcA) f.fn
  | 0x83 => do return .cpy f.h (f.b.getLsbD 7) (f.a.getLsbD 7) (← f.space) (← f.width) f.hint (← kOf f.d) (f.a.extractLsb' 0 7) (f.b.extractLsb' 0 7) f.fn
  | 0x84 => do return .cpyt f.h (f.b.getLsbD 4) (← f.space) f.hint (← kOf f.d) (← groupOf f.a) (f.b.extractLsb' 0 4) f.fn
  | 0x85 => do return .cpym f.h (← f.space) f.hint (← kOf f.d) (← groupOf f.a) (← kOf f.b) f.fn
  | 0x86 => do return .cpys f.h (← f.space) f.hint (← kOf f.d) (← groupOf f.a) (f.b.extractLsb' 0 4) (f.b.extractLsb' 4 4) f.fn
  | 0x87 => do return .tkchk f.h (← f.dst) (← kOf f.a)
  | 0x88 => do return .lyset f.h (← f.space) f.hint (← groupOf f.d) (← optKOf f.a) f.fn
  | _ => none

/-- The instruction that the fields name, matrix and relation class (R247). -/
def decodeMat (f : Fields) : Option Instr :=
  match f.op.toNat with
  | 0x90 => do return .tdesc f.h f.predD (← kOf f.a) (← optKOf f.b)
  | 0x91 => do return .mzero f.h (f.fnBit 0) (f.d.extractLsb' 0 2)
  | 0x92 => do return .mma f.h (f.fnBit 0) (f.d.extractLsb' 0 2) f.predA f.predB
  | 0x93 => do return .mmab f.h (f.fnBit 5) (f.fnBit 4) (f.fn.extractLsb' 0 4) (f.d.extractLsb' 0 2) f.predA f.predB
  | 0x94 => do return .mdrain f.h (← DrainSpace.ofCode (f.fn.extractLsb' 0 2)) (Hint.ofCode (f.fn.extractLsb' 5 2)) (f.fnBit 3) (f.fnBit 2) (← kOf f.d) (f.a.extractLsb' 0 2) f.predB (← optGroupOf f.c)
  | 0x95 => do return .ocmp f.h (← OcmpMode.ofCode (f.fn.extractLsb' 0 3)) f.predD f.predA f.predB
  | 0x96 => do return .rcount f.h f.predD f.predA
  | 0x97 => do return .rclose f.h (f.fnBit 0) f.predD f.predA
  | 0x98 => do return .rcomp f.h f.predD f.predA f.predB
  | 0x99 => do return .rtrans f.h f.predD f.predA
  | 0x9A => do return .qcvt f.h (← kOf f.d) f.predA (f.b.extractLsb' 4 4) (f.b.extractLsb' 0 4) (← kOf f.c)
  | 0x9B => do return .qexp f.h (f.fnBit 4) (f.fn.extractLsb' 0 4) f.predD f.predA f.predB (← kOf f.c)
  | _ => none

/-- The instruction that the fields name, synchronisation, die, package and fabric classes (R278, R288, R337, R408, R441 to R452). -/
def decodeSys (f : Fields) : Option Instr :=
  match f.op.toNat with
  | 0xA0 => do
    if f.fn.extractLsb' 4 2 = 0 then return .barMeet f.h (f.fn.extractLsb' 0 4) (← optKOf f.a)
    else if f.fn.extractLsb' 4 2 = 1 then return .barPost f.h (f.fn.extractLsb' 0 4) (← optKOf f.a)
    else if f.fn.extractLsb' 4 2 = 2 then return .barAwait f.h (f.fn.extractLsb' 0 4)
    else none
  | 0xA1 => do
    if f.fn = 0 then return .rwatchOff f.h
    else if f.fn = 1 then return .rwatchOn f.h
    else if f.fn = 2 then return .rwatchClr f.h
    else none
  | 0xA8 => do return .atom f.h (← f.ty) (← AtomOp.ofCode (f.fn.extractLsb' 8 4)) (← AtomSpace.ofCode (f.fn.extractLsb' 6 2)) (AtomOrder.ofCode (f.fn.extractLsb' 4 2)) (← Scope.ofCode (f.fn.extractLsb' 1 3)) (← f.dst) (← f.srcA) (← f.srcB) (← casOperand f)
  | 0xA9 => do return .fence f.h (← FenceOrder.ofCode (f.fn.extractLsb' 4 2)) (← Scope.ofCode (f.fn.extractLsb' 1 3))
  | 0xAA => do
    if f.fn = 0 then return .gbarMeet f.h
    else if f.fn = 16 then return .gbarPost f.h
    else if f.fn = 32 then return .gbarAwait f.h
    else none
  | 0xAB => do return .launch f.h (← kOf f.d) (← kOf f.a) (← kOf f.b)
  | 0xAC => do return .lcount f.h (← kOf f.d) (← kOf f.a)
  | 0xAD => do return .qwork f.h (← groupOf f.d) (← kOf f.a) (← kOf f.b)
  | 0xB0 => do
    if f.fn = 0 then return .pctlRd f.h (← f.dst) (← kOf f.a)
    else if f.fn = 1 then return .pctlWr f.h (← f.dst) (← kOf f.a) (← kOf f.b)
    else if f.fn = 2 then return .pctlPreempt f.h (← f.dst) (← kOf f.a) (← optKOf f.b)
    else if f.fn = 3 then return .pctlResume f.h (← f.dst) (← kOf f.a)
    else if f.fn = 4 then return .pctlDrain f.h (← f.dst) (← kOf f.a)
    else if f.fn = 5 then return .pctlReset f.h (← f.dst) (← kOf f.a)
    else if f.fn = 6 then return .pctlTlbi f.h (← f.dst) (← kOf f.a) (← optKOf f.b)
    else none
  | 0xB1 => do return .tmwait f.h (← f.dst) (← kOf f.a)
  | 0xB2 => do return .tget f.h (← f.dst) f.predC
  | 0xB3 => do return .coll f.h (← kOf f.d) (← kOf f.a)
  | 0xB4 => do
    if f.fn = 0 then return .seal f.h (← kOf f.d) (← kOf f.a) (← kOf f.b)
    else if f.fn = 1 then return .sealOpen f.h (← kOf f.d) (← kOf f.a) (← kOf f.b)
    else none
  | _ => none

/-- The instruction that the fields name, I and B forms (R26, R27, R103, R170). -/
def decodeImm (f : Fields) : Option Instr :=
  match f.op.toNat with
  | 0xC0 => do return .movi f.h (← f.dst) f.imm
  | 0xC1 => do return .movhi f.h (← f.dst) (← f.srcA) f.imm
  | 0xC2 => do return .iaddi f.h (← f.dst) (← f.srcA) f.imm
  | 0xC3 => do return .iandi f.h (← f.dst) (← f.srcA) f.imm
  | 0xC4 => do return .iori f.h (← f.dst) (← f.srcA) f.imm
  | 0xC5 => do return .ixori f.h (← f.dst) (← f.srcA) f.imm
  | 0xC6 => do return .icmpi f.h (← Rel.ofCode (f.d.extractLsb' 4 3)) f.predD (← f.srcA) f.imm
  | 0xC7 => do return .imuli f.h (← f.dst) (← f.srcA) f.imm
  | 0xF0 => do return .bra f.h f.imm
  | 0xF1 => do return .call f.h (← kOf f.d) f.imm
  | 0xF2 => do return .rcv f.h f.imm
  | 0xF3 => do return .brt f.h (← kOf f.d) f.a
  | 0xF4 => do return .loop f.h (← kOf f.d) f.imm
  | _ => none

/-- The instruction of the pair word whose X slot holds x (R36). -/
def pairInstr (sw : Bool) (x y : Slot) : Instr :=
  match x.op with
  | .iadd => .iaddPairSlot sw x.args y
  | .isub => .isubPairSlot sw x.args y
  | .imul => .imulPairSlot sw x.args y
  | .imin => .iminPairSlot sw x.args y
  | .imax => .imaxPairSlot sw x.args y
  | .land => .landPairSlot sw x.args y
  | .lor => .lorPairSlot sw x.args y
  | .lxor => .lxorPairSlot sw x.args y
  | .andn => .andnPairSlot sw x.args y
  | .shl => .shlPairSlot sw x.args y
  | .shr => .shrPairSlot sw x.args y
  | .sar => .sarPairSlot sw x.args y
  | .mov => .movPairSlot sw x.args y
  | .popc => .popcPairSlot sw x.args y
  | .clz => .clzPairSlot sw x.args y
  | .brev => .brevPairSlot sw x.args y
  | .fadd => .faddPairSlot sw x.args y
  | .fsub => .fsubPairSlot sw x.args y
  | .fmul => .fmulPairSlot sw x.args y
  | .fmin => .fminPairSlot sw x.args y
  | .fmax => .fmaxPairSlot sw x.args y
  | .frcp => .frcpPairSlot sw x.args y
  | .frsq => .frsqPairSlot sw x.args y
  | .fsqrt => .fsqrtPairSlot sw x.args y
  | .fex2 => .fex2PairSlot sw x.args y
  | .flg2 => .flg2PairSlot sw x.args y
  | .cvtf => .cvtfPairSlot sw x.args y
  | .ivadd => .ivaddPairSlot sw x.args y
  | .ivsub => .ivsubPairSlot sw x.args y
  | .ivmul => .ivmulPairSlot sw x.args y
  | .ivhull => .ivhullPairSlot sw x.args y
  | .ivmeet => .ivmeetPairSlot sw x.args y

/-- The instruction that the fields name, if the opcode is assigned and each register code is (R35). -/
def decodeFields (f : Fields) : Option Instr :=
  let op := f.op.toNat
  if op < 0x30 then decodeInt f
  else if op < 0x48 then decodeFlt f
  else if op < 0x60 then decodeIvl f
  else if op < 0x80 then decodeCore f
  else if op < 0x90 then decodeMem f
  else if op < 0xA0 then decodeMat f
  else if op < 0xC0 then decodeSys f
  else decodeImm f

/-- The fields of a word of the F, I or B form; none for pairs and events. -/
def Instr.fields : Instr → Option Fields
  | .iadd h ty sat d a b => some ⟨h, 0x00, d.code, a.code, b.code, 0, fnInt ty (0#9 ++ b1 sat)⟩
  | .isub h ty sat d a b => some ⟨h, 0x01, d.code, a.code, b.code, 0, fnInt ty (0#9 ++ b1 sat)⟩
  | .imul h ty sat d a b => some ⟨h, 0x02, d.code, a.code, b.code, 0, fnInt ty (0#9 ++ b1 sat)⟩
  | .imulh h ty d a b => some ⟨h, 0x03, d.code, a.code, b.code, 0, fnInt ty 0⟩
  | .imad h ty sat d a b c => some ⟨h, 0x04, d.code, a.code, b.code, c.code, fnInt ty (0#9 ++ b1 sat)⟩
  | .imadw h ty d a b c => some ⟨h, 0x05, d.code, a.code, b.code, c.code, fnInt ty 0⟩
  | .iaddx h ty sub ci d a b co => some ⟨h, 0x06, d.code, a.code, b.code, predCode co, fnInt ty (carryBits sub ci)⟩
  | .idiv h ty rem d a b => some ⟨h, 0x07, d.code, a.code, b.code, 0, fnInt ty (0#9 ++ b1 rem)⟩
  | .iabs h ty sat d a => some ⟨h, 0x08, d.code, a.code, 0, 0, fnInt ty (0#9 ++ b1 sat)⟩
  | .ineg h ty sat d a => some ⟨h, 0x09, d.code, a.code, 0, 0, fnInt ty (0#9 ++ b1 sat)⟩
  | .imin h ty d a b => some ⟨h, 0x0A, d.code, a.code, b.code, 0, fnInt ty 0⟩
  | .imax h ty d a b => some ⟨h, 0x0B, d.code, a.code, b.code, 0, fnInt ty 0⟩
  | .iclamp h ty d a b c => some ⟨h, 0x0C, d.code, a.code, b.code, c.code, fnInt ty 0⟩
  | .idp4 h sat ua ub d a b c => some ⟨h, 0x0D, d.code, a.code, b.code, c.code, fnInt .s32 (0#7 ++ b1 sat ++ b1 ua ++ b1 ub)⟩
  | .land h ty d a b => some ⟨h, 0x0E, d.code, a.code, b.code, 0, fnInt ty 0⟩
  | .lor h ty d a b => some ⟨h, 0x0F, d.code, a.code, b.code, 0, fnInt ty 0⟩
  | .lxor h ty d a b => some ⟨h, 0x10, d.code, a.code, b.code, 0, fnInt ty 0⟩
  | .andn h ty d a b => some ⟨h, 0x11, d.code, a.code, b.code, 0, fnInt ty 0⟩
  | .lut3 h ty tt d a b c => some ⟨h, 0x12, d.code, a.code, b.code, c.code, fnInt ty (0#2 ++ tt)⟩
  | .shl h ty d a b => some ⟨h, 0x13, d.code, a.code, b.code, 0, fnInt ty 0⟩
  | .shr h ty d a b => some ⟨h, 0x14, d.code, a.code, b.code, 0, fnInt ty 0⟩
  | .sar h ty d a b => some ⟨h, 0x15, d.code, a.code, b.code, 0, fnInt ty 0⟩
  | .fshl h ty d a b c => some ⟨h, 0x16, d.code, a.code, b.code, c.code, fnInt ty 0⟩
  | .popc h ty d a => some ⟨h, 0x17, d.code, a.code, 0, 0, fnInt ty 0⟩
  | .clz h ty d a => some ⟨h, 0x18, d.code, a.code, 0, 0, fnInt ty 0⟩
  | .ctz h ty d a => some ⟨h, 0x19, d.code, a.code, 0, 0, fnInt ty 0⟩
  | .brev h ty d a => some ⟨h, 0x1A, d.code, a.code, 0, 0, fnInt ty 0⟩
  | .bfx h ty d a b c => some ⟨h, 0x1B, d.code, a.code, b.code, c.code, fnInt ty 0⟩
  | .bfi h ty d a b c => some ⟨h, 0x1C, d.code, a.code, b.code, c.code, fnInt ty 0⟩
  | .icmp h ty rel pd a b => some ⟨h, 0x1D, predCode pd, a.code, b.code, 0, fnInt ty (0#7 ++ rel.code)⟩
  | .sel h ty pol d a b pc => some ⟨h, 0x1E, d.code, a.code, b.code, predCode pc, fnInt ty (0#8 ++ pol.code)⟩
  | .cvti h td ts sat d a => some ⟨h, 0x1F, d.code, a.code, 0, 0, fnInt td (0#5 ++ b1 sat ++ ts.code)⟩
  | .mov h ty d a => some ⟨h, 0x20, d.code, a.code, 0, 0, fnInt ty 0⟩
  | .lea h ty scale d a b => some ⟨h, 0x21, d.code, a.code, b.code, 0, fnInt ty (0#7 ++ scale)⟩
  | .bperm h ty d a b c => some ⟨h, 0x22, d.code, a.code, b.code, c.code, fnInt ty 0⟩
  | .fadd h ty rnd d a b => some ⟨h, 0x30, d.code, a.src.code, b.src.code, 0, fnFlt ty rnd a.mod b.mod .n 0⟩
  | .fsub h ty rnd d a b => some ⟨h, 0x31, d.code, a.src.code, b.src.code, 0, fnFlt ty rnd a.mod b.mod .n 0⟩
  | .fmul h ty rnd d a b => some ⟨h, 0x32, d.code, a.src.code, b.src.code, 0, fnFlt ty rnd a.mod b.mod .n 0⟩
  | .ffma h ty rnd d a b c => some ⟨h, 0x33, d.code, a.src.code, b.src.code, c.src.code, fnFlt ty rnd a.mod b.mod c.mod 0⟩
  | .fmin h ty d a b => some ⟨h, 0x34, d.code, a.src.code, b.src.code, 0, fnFlt ty .rne a.mod b.mod .n 0⟩
  | .fmax h ty d a b => some ⟨h, 0x35, d.code, a.src.code, b.src.code, 0, fnFlt ty .rne a.mod b.mod .n 0⟩
  | .fcmp h ty rel pd a b => some ⟨h, 0x36, predCode pd, a.src.code, b.src.code, 0, fnFlt ty .rne a.mod b.mod .n (0#1 ++ rel.code)⟩
  | .frcp h rnd d a => some ⟨h, 0x37, d.code, a.src.code, 0, 0, fnFlt .f32 rnd a.mod .n .n 0⟩
  | .frsq h rnd d a => some ⟨h, 0x38, d.code, a.src.code, 0, 0, fnFlt .f32 rnd a.mod .n .n 0⟩
  | .fsqrt h ty rnd d a => some ⟨h, 0x39, d.code, a.src.code, 0, 0, fnFlt ty rnd a.mod .n .n 0⟩
  | .fdiv h ty rnd d a b => some ⟨h, 0x3A, d.code, a.src.code, b.src.code, 0, fnFlt ty rnd a.mod b.mod .n 0⟩
  | .fex2 h d a => some ⟨h, 0x3B, d.code, a.src.code, 0, 0, fnFlt .f32 .rne a.mod .n .n 0⟩
  | .flg2 h d a => some ⟨h, 0x3C, d.code, a.src.code, 0, 0, fnFlt .f32 .rne a.mod .n .n 0⟩
  | .fsinpi h d a => some ⟨h, 0x3D, d.code, a.src.code, 0, 0, fnFlt .f32 .rne a.mod .n .n 0⟩
  | .fcospi h d a => some ⟨h, 0x3E, d.code, a.src.code, 0, 0, fnFlt .f32 .rne a.mod .n .n 0⟩
  | .ftanh h d a => some ⟨h, 0x3F, d.code, a.src.code, 0, 0, fnFlt .f32 .rne a.mod .n .n 0⟩
  | .fclass h ty d a => some ⟨h, 0x40, d.code, a.src.code, 0, 0, fnFlt ty .rne a.mod .n .n 0⟩
  | .fscale h ty rnd d a b => some ⟨h, 0x41, d.code, a.src.code, b.code, 0, fnFlt ty rnd a.mod .n .n 0⟩
  | .cvtf h td ts rnd d a => some ⟨h, 0x42, d.code, a.src.code, 0, 0, fnFlt td rnd a.mod .n .n ts.code⟩
  | .cvtfi h td ts rnd d a => some ⟨h, 0x43, d.code, a.src.code, 0, 0, fnFlt td rnd a.mod .n .n ts.code⟩
  | .cvtif h td ts rnd d a => some ⟨h, 0x44, d.code, a.code, 0, 0, fnFlt td rnd .n .n .n ts.code⟩
  | .fdot2 h ty rnd d a b c => some ⟨h, 0x45, d.code, a.code, b.code, c.src.code, fnFlt ty rnd .n .n c.mod 0⟩
  | .ivpt h dbl d a => some ⟨h, 0x48, d.code, a.src.code, 0, 0, fnFlt .iv .rne a.mod .n .n (clsBit dbl)⟩
  | .ivmake h d a b => some ⟨h, 0x49, d.code, a.src.code, b.src.code, 0, fnFlt .iv .rne a.mod b.mod .n 0⟩
  | .ivlo h d a => some ⟨h, 0x4A, d.code, a.src.code, 0, 0, fnFlt .iv .rne a.mod .n .n 0⟩
  | .ivhi h d a => some ⟨h, 0x4B, d.code, a.src.code, 0, 0, fnFlt .iv .rne a.mod .n .n 0⟩
  | .ivmid h d a => some ⟨h, 0x4C, d.code, a.src.code, 0, 0, fnFlt .iv .rne a.mod .n .n 0⟩
  | .ivwid h d a => some ⟨h, 0x4D, d.code, a.src.code, 0, 0, fnFlt .iv .rne a.mod .n .n 0⟩
  | .ivadd h d a b => some ⟨h, 0x4E, d.code, a.src.code, b.src.code, 0, fnFlt .iv .rne a.mod b.mod .n 0⟩
  | .ivsub h d a b => some ⟨h, 0x4F, d.code, a.src.code, b.src.code, 0, fnFlt .iv .rne a.mod b.mod .n 0⟩
  | .ivmul h d a b => some ⟨h, 0x50, d.code, a.src.code, b.src.code, 0, fnFlt .iv .rne a.mod b.mod .n 0⟩
  | .ivfma h d a b c => some ⟨h, 0x51, d.code, a.src.code, b.src.code, c.src.code, fnFlt .iv .rne a.mod b.mod c.mod 0⟩
  | .ivdiv h d a b => some ⟨h, 0x52, d.code, a.src.code, b.src.code, 0, fnFlt .iv .rne a.mod b.mod .n 0⟩
  | .ivsqr h d a => some ⟨h, 0x53, d.code, a.src.code, 0, 0, fnFlt .iv .rne a.mod .n .n 0⟩
  | .ivsqrt h d a => some ⟨h, 0x54, d.code, a.src.code, 0, 0, fnFlt .iv .rne a.mod .n .n 0⟩
  | .ivrsqrt h d a => some ⟨h, 0x55, d.code, a.src.code, 0, 0, fnFlt .iv .rne a.mod .n .n 0⟩
  | .ivhull h d a b => some ⟨h, 0x56, d.code, a.src.code, b.src.code, 0, fnFlt .iv .rne a.mod b.mod .n 0⟩
  | .ivmeet h ne d a b => some ⟨h, 0x57, d.code, a.src.code, b.src.code, 0, fnFlt .iv .rne a.mod b.mod .n (clsBit ne)⟩
  | .ivcmp h rel pd a b => some ⟨h, 0x58, predCode pd, a.src.code, b.src.code, 0, fnFlt .iv .rne a.mod b.mod .n (0#1 ++ rel.code)⟩
  | .ivsplit h d e a => some ⟨h, 0x59, vCode d, a.src.code, vCode e, 0, fnFlt .iv .rne a.mod .n .n 0⟩
  | .ivbis h d a q tag pc => some ⟨h, 0x5A, vCode d, a.src.code, kCode q, tag.code, fnFlt .iv .rne a.mod .n .n pc⟩
  | .nop h => some ⟨h, 0x60, 0, 0, 0, 0, 0⟩
  | .exit h => some ⟨h, 0x61, 0, 0, 0, 0, 0⟩
  | .yield h => some ⟨h, 0x62, 0, 0, 0, 0, 0⟩
  | .trap h code => some ⟨h, 0x63, 0, 0, 0, 0, 0#8 ++ code⟩
  | .ret h k => some ⟨h, 0x64, 0, kCode k, 0, 0, 0⟩
  | .cvg h => some ⟨h, 0x65, 0, 0, 0, 0, 0⟩
  | .pand h na nb pd pa pb => some ⟨h, 0x66, predCode pd, predCode pa, predCode pb, 0, fnBits (0#8 ++ b1 nb ++ b1 na)⟩
  | .por h na nb pd pa pb => some ⟨h, 0x67, predCode pd, predCode pa, predCode pb, 0, fnBits (0#8 ++ b1 nb ++ b1 na)⟩
  | .pnot h pd pa => some ⟨h, 0x68, predCode pd, predCode pa, 0, 0, 0⟩
  | .pdec h ut pd pa => some ⟨h, 0x69, predCode pd, predCode pa, 0, 0, fnBits (0#9 ++ b1 ut)⟩
  | .pmov h pd a => some ⟨h, 0x6A, predCode pd, a.code, 0, 0, 0⟩
  | .pget h d pa => some ⟨h, 0x6B, d.code, predCode pa, 0, 0, 0⟩
  | .vote h team mode d pa => some ⟨h, 0x6C, d.code, predCode pa, 0, 0, fnBits (0#6 ++ b1 team ++ mode.code)⟩
  | .shfl h team mode d a b pc => some ⟨h, 0x6D, vCode d, a.code, b.code, predCode pc, fnBits (0#6 ++ b1 team ++ mode.code)⟩
  | .scan h ty warp excl op d a => some ⟨h, 0x6E, vCode d, a.code, 0, 0, fnInt ty (0#5 ++ b1 warp ++ b1 excl ++ op.code)⟩
  | .redl h ty team op d a => some ⟨h, 0x6F, d.code, a.code, 0, 0, fnInt ty (0#6 ++ b1 team ++ op.code)⟩
  | .push h d a b => some ⟨h, 0x70, vCode d, a.code, b.code, 0, 0⟩
  | .matchLanes h ty d a => some ⟨h, 0x71, vCode d, a.code, 0, 0, fnInt ty 0⟩
  | .vget h d k => some ⟨h, 0x72, vCode d, kCode k, 0, 0, 0⟩
  | .vput h a k => some ⟨h, 0x73, 0, a.code, kCode k, 0, 0⟩
  | .rand h mode d => some ⟨h, 0x74, vCode d, 0, 0, 0, fnBits (0#8 ++ mode.code)⟩
  | .rkey h a b c => some ⟨h, 0x75, 0, kCode a, kCode b, optKCode c, 0⟩
  | .rfork h d a => some ⟨h, 0x76, 0b10#2 ++ d ++ 0#1, kCode a, 0, 0, 0⟩
  | .vstag h d a => some ⟨h, 0x77, d.code, vCode a, 0, 0, 0⟩
  | .getc h d ctl => some ⟨h, 0x78, d.code, 0, 0, 0, 0#12 ++ ctl⟩
  | .setcFlags h a => some ⟨h, 0x79, 0, a.code, 0, 0, 0#12 ++ 0x0#4⟩
  | .setcBindctl h a => some ⟨h, 0x79, 0, a.code, 0, 0, 0#12 ++ 0x1#4⟩
  | .setcStream h ctl a => some ⟨h, 0x79, 0, a.code, 0, 0, 0#12 ++ ctl⟩
  | .setcPassc h a => some ⟨h, 0x79, 0, a.code, 0, 0, 0#12 ++ 0xC#4⟩
  | .setcRatio h a => some ⟨h, 0x79, 0, a.code, 0, 0, 0#12 ++ 0xD#4⟩
  | .setc h ctl a => some ⟨h, 0x79, 0, a.code, 0, 0, 0#12 ++ ctl⟩
  | .ld h space w hint d a off => some ⟨h, 0x80, d.code, a.code, 0, space.code ++ w.code ++ hint.code, off⟩
  | .st h space w hint a data off => some ⟨h, 0x81, 0, a.code, data.code, space.code ++ w.code ++ hint.code, off⟩
  | .pref h space hint a off => some ⟨h, 0x82, 0, a.code, 0, space.code ++ 0#3 ++ hint.code, off⟩
  | .cpy h store x2 space w hint tok vm vs off => some ⟨h, 0x83, kCode tok, b1 x2 ++ vm, b1 store ++ vs, space.code ++ w.code ++ hint.code, off⟩
  | .cpyt h store space hint tok grp tile off => some ⟨h, 0x84, kCode tok, groupCode grp, 0#3 ++ b1 store ++ tile, space.code ++ 0#3 ++ hint.code, off⟩
  | .cpym h space hint tok grp cmd off => some ⟨h, 0x85, kCode tok, groupCode grp, kCode cmd, space.code ++ 0#3 ++ hint.code, off⟩
  | .cpys h space hint tok grp src idx off => some ⟨h, 0x86, kCode tok, groupCode grp, idx ++ src, space.code ++ 0#3 ++ hint.code, off⟩
  | .tkchk h d tok => some ⟨h, 0x87, d.code, kCode tok, 0, 0, 0⟩
  | .lyset h space hint grp base off => some ⟨h, 0x88, groupCode grp, optKCode base, 0, space.code ++ 0#3 ++ hint.code, off⟩
  | .tdesc h t a b => some ⟨h, 0x90, predCode t, kCode a, optKCode b, 0, 0⟩
  | .mzero h i96 acc => some ⟨h, 0x91, accCode acc, 0, 0, 0, fnBits (0#9 ++ b1 i96)⟩
  | .mma h tb acc ta tb' => some ⟨h, 0x92, accCode acc, predCode ta, predCode tb', 0, fnBits (0#9 ++ b1 tb)⟩
  | .mmab h scaled ctr planes acc ta tb' => some ⟨h, 0x93, accCode acc, predCode ta, predCode tb', 0, fnBits (0#4 ++ b1 scaled ++ b1 ctr ++ planes)⟩
  | .mdrain h space hint clr add tok acc tile grp => some ⟨h, 0x94, kCode tok, accCode acc, predCode tile, optGroupCode grp, 0#9 ++ hint.code ++ 0#1 ++ b1 clr ++ b1 add ++ space.code⟩
  | .ocmp h mode d x y => some ⟨h, 0x95, predCode d, predCode x, predCode y, 0, fnBits (0#7 ++ mode.code)⟩
  | .rcount h d a => some ⟨h, 0x96, predCode d, predCode a, 0, 0, 0⟩
  | .rclose h refl d a => some ⟨h, 0x97, predCode d, predCode a, 0, 0, fnBits (0#9 ++ b1 refl)⟩
  | .rcomp h d a b => some ⟨h, 0x98, predCode d, predCode a, predCode b, 0, 0⟩
  | .rtrans h d a => some ⟨h, 0x99, predCode d, predCode a, 0, 0, 0⟩
  | .qcvt h k a mask dst q => some ⟨h, 0x9A, kCode k, predCode a, mask ++ dst, kCode q, 0⟩
  | .qexp h ctr planes d a m q => some ⟨h, 0x9B, predCode d, predCode a, predCode m, kCode q, fnBits (0#5 ++ b1 ctr ++ planes)⟩
  | .barMeet h id part => some ⟨h, 0xA0, 0, optKCode part, 0, 0, 0#12 ++ id⟩
  | .barPost h id part => some ⟨h, 0xA0, 0, optKCode part, 0, 0, 0#10 ++ 1#2 ++ id⟩
  | .barAwait h id => some ⟨h, 0xA0, 0, 0, 0, 0, 0#10 ++ 2#2 ++ id⟩
  | .rwatchOff h => some ⟨h, 0xA1, 0, 0, 0, 0, 0⟩
  | .rwatchOn h => some ⟨h, 0xA1, 0, 0, 0, 0, 1⟩
  | .rwatchClr h => some ⟨h, 0xA1, 0, 0, 0, 0, 2⟩
  | .atom h ty op space order scope d a b c => some ⟨h, 0xA8, d.code, a.code, b.code, optSrcCode c, ty.code ++ op.code ++ space.code ++ order.code ++ scope.code ++ 0#1⟩
  | .fence h order scope => some ⟨h, 0xA9, 0, 0, 0, 0, 0#10 ++ order.code ++ scope.code ++ 0#1⟩
  | .gbarMeet h => some ⟨h, 0xAA, 0, 0, 0, 0, 0⟩
  | .gbarPost h => some ⟨h, 0xAA, 0, 0, 0, 0, 16⟩
  | .gbarAwait h => some ⟨h, 0xAA, 0, 0, 0, 0, 32⟩
  | .launch h tok q r => some ⟨h, 0xAB, kCode tok, kCode q, kCode r, 0, 0⟩
  | .lcount h tok c => some ⟨h, 0xAC, kCode tok, kCode c, 0, 0, 0⟩
  | .qwork h grp t i => some ⟨h, 0xAD, groupCode grp, kCode t, kCode i, 0, 0⟩
  | .pctlRd h d a => some ⟨h, 0xB0, d.code, kCode a, 0, 0, 0⟩
  | .pctlWr h d a b => some ⟨h, 0xB0, d.code, kCode a, kCode b, 0, 1⟩
  | .pctlPreempt h d a b => some ⟨h, 0xB0, d.code, kCode a, optKCode b, 0, 2⟩
  | .pctlResume h d a => some ⟨h, 0xB0, d.code, kCode a, 0, 0, 3⟩
  | .pctlDrain h d a => some ⟨h, 0xB0, d.code, kCode a, 0, 0, 4⟩
  | .pctlReset h d a => some ⟨h, 0xB0, d.code, kCode a, 0, 0, 5⟩
  | .pctlTlbi h d a b => some ⟨h, 0xB0, d.code, kCode a, optKCode b, 0, 6⟩
  | .pctlWrQcfg h d a b => some ⟨h, 0xB0, d.code, kCode a, kCode b, 0, 1⟩
  | .pctlWrQuota h d a b => some ⟨h, 0xB0, d.code, kCode a, kCode b, 0, 1⟩
  | .pctlWrIfneg h d a b => some ⟨h, 0xB0, d.code, kCode a, kCode b, 0, 1⟩
  | .pctlWrPwstate h d a b => some ⟨h, 0xB0, d.code, kCode a, kCode b, 0, 1⟩
  | .pctlWrPwcap h d a b => some ⟨h, 0xB0, d.code, kCode a, kCode b, 0, 1⟩
  | .pctlWrFwin h d a b => some ⟨h, 0xB0, d.code, kCode a, kCode b, 0, 1⟩
  | .tmwait h d a => some ⟨h, 0xB1, d.code, kCode a, 0, 0, 0⟩
  | .tget h d pc => some ⟨h, 0xB2, d.code, 0, 0, predCode pc, 0⟩
  | .coll h tok a => some ⟨h, 0xB3, kCode tok, kCode a, 0, 0, 0⟩
  | .seal h tok a b => some ⟨h, 0xB4, kCode tok, kCode a, kCode b, 0, 0⟩
  | .sealOpen h tok a b => some ⟨h, 0xB4, kCode tok, kCode a, kCode b, 0, 1⟩
  | .movi h d imm => some (immFields h 0xC0 (d.code) 0 imm)
  | .movhi h d a imm => some (immFields h 0xC1 (d.code) (a.code) imm)
  | .iaddi h d a imm => some (immFields h 0xC2 (d.code) (a.code) imm)
  | .iandi h d a imm => some (immFields h 0xC3 (d.code) (a.code) imm)
  | .iori h d a imm => some (immFields h 0xC4 (d.code) (a.code) imm)
  | .ixori h d a imm => some (immFields h 0xC5 (d.code) (a.code) imm)
  | .icmpi h rel pd a imm => some (immFields h 0xC6 (0#1 ++ rel.code ++ pd) (a.code) imm)
  | .imuli h d a imm => some (immFields h 0xC7 (d.code) (a.code) imm)
  | .bra h off => some (immFields h 0xF0 0 0 off)
  | .call h k off => some (immFields h 0xF1 (kCode k) 0 off)
  | .rcv h off => some (immFields h 0xF2 0 0 off)
  | .brt h k tbl => some (immFields h 0xF3 (kCode k) tbl 0)
  | .loop h k off => some (immFields h 0xF4 (kCode k) 0 off)
  | _ => none

/-- The slots of a pair word; none for every other instruction. -/
def Instr.slots : Instr → Option (Bool × Slot × Slot)
  | .iaddPairSlot sw x y => some (sw, ⟨.iadd, x⟩, y)
  | .isubPairSlot sw x y => some (sw, ⟨.isub, x⟩, y)
  | .imulPairSlot sw x y => some (sw, ⟨.imul, x⟩, y)
  | .iminPairSlot sw x y => some (sw, ⟨.imin, x⟩, y)
  | .imaxPairSlot sw x y => some (sw, ⟨.imax, x⟩, y)
  | .landPairSlot sw x y => some (sw, ⟨.land, x⟩, y)
  | .lorPairSlot sw x y => some (sw, ⟨.lor, x⟩, y)
  | .lxorPairSlot sw x y => some (sw, ⟨.lxor, x⟩, y)
  | .andnPairSlot sw x y => some (sw, ⟨.andn, x⟩, y)
  | .shlPairSlot sw x y => some (sw, ⟨.shl, x⟩, y)
  | .shrPairSlot sw x y => some (sw, ⟨.shr, x⟩, y)
  | .sarPairSlot sw x y => some (sw, ⟨.sar, x⟩, y)
  | .movPairSlot sw x y => some (sw, ⟨.mov, x⟩, y)
  | .popcPairSlot sw x y => some (sw, ⟨.popc, x⟩, y)
  | .clzPairSlot sw x y => some (sw, ⟨.clz, x⟩, y)
  | .brevPairSlot sw x y => some (sw, ⟨.brev, x⟩, y)
  | .faddPairSlot sw x y => some (sw, ⟨.fadd, x⟩, y)
  | .fsubPairSlot sw x y => some (sw, ⟨.fsub, x⟩, y)
  | .fmulPairSlot sw x y => some (sw, ⟨.fmul, x⟩, y)
  | .fminPairSlot sw x y => some (sw, ⟨.fmin, x⟩, y)
  | .fmaxPairSlot sw x y => some (sw, ⟨.fmax, x⟩, y)
  | .frcpPairSlot sw x y => some (sw, ⟨.frcp, x⟩, y)
  | .frsqPairSlot sw x y => some (sw, ⟨.frsq, x⟩, y)
  | .fsqrtPairSlot sw x y => some (sw, ⟨.fsqrt, x⟩, y)
  | .fex2PairSlot sw x y => some (sw, ⟨.fex2, x⟩, y)
  | .flg2PairSlot sw x y => some (sw, ⟨.flg2, x⟩, y)
  | .cvtfPairSlot sw x y => some (sw, ⟨.cvtf, x⟩, y)
  | .ivaddPairSlot sw x y => some (sw, ⟨.ivadd, x⟩, y)
  | .ivsubPairSlot sw x y => some (sw, ⟨.ivsub, x⟩, y)
  | .ivmulPairSlot sw x y => some (sw, ⟨.ivmul, x⟩, y)
  | .ivhullPairSlot sw x y => some (sw, ⟨.ivhull, x⟩, y)
  | .ivmeetPairSlot sw x y => some (sw, ⟨.ivmeet, x⟩, y)
  | _ => none

/-- The word of an instruction; none for an event, which no word issues. -/
def encode (i : Instr) : Option (BitVec 64) :=
  match i.fields with
  | some f => some f.pack
  | none =>
    match i.slots with
    | some (sw, x, y) => some (packPair sw x y)
    | none => none

/-- What the fields of a word name before the check against the encoder. -/
def decodeRaw (w : BitVec 64) : Option Instr :=
  if w.getLsbD 62 then do
    let x ← Slot.unpack (w.extractLsb' 31 31)
    let y ← Slot.unpack (w.extractLsb' 0 31)
    return pairInstr (w.getLsbD 63) x y
  else decodeFields (Fields.unpack w)

/-- The instruction of a word, or the trap that the word raises (R32). -/
def decode (w : BitVec 64) : Except DecodeError Instr :=
  match decodeRaw w with
  | some i =>
    if i.wellFormed && encode i == some w then .ok i
    else .error (if w.getLsbD 62 then .illegalPair else .illegalEncoding)
  | none => .error (if w.getLsbD 62 then .illegalPair else .illegalEncoding)

/-- What the decoder reads from an instruction whose bits are w: one 64-bit little-endian word (R10, R16), so any
bits above the table's nbits are 0. -/
def decodeTableWord (nbits w : Nat) : Option Instr :=
  if nbits ≤ 64 then
    match decode (BitVec.ofNat 64 (w % 2 ^ nbits)) with
    | .ok i => some i
    | .error _ => none
  else none

end Sys2Proof
end

