-- ==== Sys2Proof/Machine/State.lean ====
section
/-! DEFINITION. The state of the machine, as plain data: every register, memory and structure the spec names, and
the machine after package reset. A `Tab` is a sparse array (Word.lean). Times are in cluster cycles unless a field
says otherwise. Field comments name the rule that gives the field. -/

namespace Sys2Proof.Machine

-- ===== a team and its lanes =====

/-- A register that a result can name: v, k, p and t (R47). -/
inductive Reg where
  | v (r : Nat)
  | k (r : Nat)
  | p (r : Nat)
  | t (r : Nat)
deriving DecidableEq, Repr

/-- What one result writes to one register: (lane, value) pairs, lane 0 for k and t. -/
structure RegWrite where
  reg : Reg
  vals : List (Nat × Word)
deriving DecidableEq, Repr

/-- The origins of R156 and the tags a register value carries. An entry tag keeps the summary of sealed versions, with the
packages that sealed them, that its entry took (R159), since a value outlives its entry. -/
inductive Tag where
  | const (x : Word)
  | laneRoot (launch block team warp code : Nat)
  | teamRoot (launch block team code : Nat)
  | kRoot (launch block team k : Nat)
  | entry (core index generation : Nat) (seals : List (Nat × Nat))
  | fresh (count : Nat)
  | null
deriving DecidableEq, Repr

/-- The key of a lineage result (R158); ver is the sealed version of a sealed load, pkg the package it reads where that is
another one (R157, R227). -/
structure VKey where
  partition : Nat
  launch : Nat
  op : Nat
  fn : Nat
  a : Tag
  b : Tag
  c : Tag
  ver : Nat
  pkg : Option Nat
deriving DecidableEq, Repr

/-- What a landing result does to the tag of one (register, warp): the tag it takes, the row it maps, and the entry it
completes, with the flags that entry records. `live` is false once a later producer's write has landed; `bound` says that
the row was not written; `late` is a key whose sealed version the answers of another package bring (R227); `lead` says that the
warp computed for its key, so that followers of its word may be bound to its row (R160). -/
structure TagWrite where
  reg : Nat
  warp : Nat
  tag : Tag
  row : Nat
  key : Option VKey
  flags : Flags := 0
  live : Bool := true
  bound : Bool := false
  late : Option VKey := none
  lead : Bool := false
deriving DecidableEq, Repr

/-- Fixed latency in team issues, scoreboarded, or a token (R143, R146). -/
inductive Lat where
  | fixed (n : Nat)
  | variable
  | token
deriving DecidableEq, Repr

/-- A result in flight (R144, R145). `accs` counts the memory accesses it waits for; `isLoop` marks the count
written by loop (R172); `lanes` are the lanes the instruction acts in; `acq` is the scope of an atomic's acquire part,
made when every lane's value has returned (R342); `vers` are the sealed versions that answers brought (R227). -/
structure Pend where
  issue : Nat
  lat : Lat
  writes : List RegWrite := []
  flags : Flags := 0
  tags : List TagWrite := []
  accs : Nat := 0
  isLoop : Bool := false
  lanes : List Nat := []
  acq : Option Scope := none
  vers : List Nat := []
deriving DecidableEq, Repr

/-- A divergence-stack entry (R147); uid names its mask (R152). -/
structure StackEntry where
  isJoin : Bool
  addr : Nat
  mask : LaneSet
  uid : Nat
deriving DecidableEq, Repr

/-- What a team brings to its handler (R379): trap cause and user code, the word, and the race item (R287). -/
structure TrapInfo where
  cause : Nat
  ucode : Nat := 0
  word : Nat
  race : Word := 0
deriving DecidableEq, Repr

/-- What keeps a team from issuing (R153). `ended` keeps the mask, its identity, the stack and the word of the exit that
ended the team, which has no effect where a lane fault arrives later (R438). -/
inductive Wait where
  | ready
  | marker
  | trap (i : TrapInfo)
  | bar (id : Nat)
  | gbar
  | walk
  | entries (n : Nat)
  | time (deadline : Nat) (dst : Dst) (lanes : List Nat)
  | pctl
  | ended (mask : LaneSet) (uid : Nat) (stack : List StackEntry) (word : Nat)
deriving DecidableEq, Repr

/-- A parked lane (R151, R376): its fault, the word's address, and the masks it was cleared from (R152). -/
structure ParkRec where
  code : Nat
  loc : Nat
  masks : List Nat
  word : Nat
deriving DecidableEq, Repr

/-- What a team holds aside in handler mode (R379). -/
structure HandlerSave where
  mask : LaneSet
  uid : Nat
  stack : List StackEntry
  frame : Nat
  parked : Tab ParkRec
deriving DecidableEq, Repr

/-- The states of a layout slot (R236). -/
inductive SlotState where
  | empty
  | pending
  | loaded
  | faulted
deriving DecidableEq, Repr

/-- An outcome of a page walk delivered to one who waits on it (R320): the leaf, or the lane fault code, and the address that
every lane which waited parks with (R388). -/
structure XlatResult where
  page : Nat
  leaf : Option Nat
  size : Nat
  fault : Nat
  va : Nat
deriving DecidableEq, Repr

/-- A layout slot: its state, the 64-byte record, the lyset's address, space, hint and issue (R236, R237), and the walks that its
read has been brought (R320). -/
structure LySlot where
  state : SlotState := .empty
  record : Nat := 0
  addr : Nat := 0
  cn : Bool := false
  hint : Hint := .none
  issue : Nat := 0
  xlat : List XlatResult := []
deriving DecidableEq, Repr

/-- A team (R134, R47, R51, R192). Its key in State.teams is its frame index, which fixes its die, cluster, core
and slot (R377). `watched` is the word, by its issue and its mask's identity, that race watch has passed and that waits to issue
(R284). -/
structure Team where
  partition : Nat := 0
  launch : Nat := 0
  block : Nat := 0
  index : Nat := 0
  nlanes : Nat := 32
  pc : Nat := 0
  v : Tab Word := []
  k : Tab Word := []
  kFresh : List Nat := []
  p : Tab (BitVec 2) := []
  t : Tab Word := []
  flags : Flags := 0
  nb : Bool := false
  key : BitVec 128 := 0
  position : Nat := 0
  issues : Nat := 0
  hdlr : Nat := 0
  trapCause : Nat := 0
  trapUcode : Nat := 0
  mask : LaneSet := 0
  pathUid : Nat := 0
  nextUid : Nat := 1
  stack : List StackEntry := []
  exited : LaneSet := 0
  parked : Tab ParkRec := []
  handler : Option HandlerSave := none
  pend : List Pend := []
  wait : Wait := .ready
  slots : Tab LySlot := []
  barPend : Tab Nat := []
  gbarPend : Option Nat := none
  vmap : Tab Nat := []
  vtag : Tab Tag := []
  xlat : List XlatResult := []
  lostStore : Bool := false
  yielded : List Nat := []
  halted : Bool := false
  restartAt : Nat := 0
  watched : Option (Nat × Nat) := none
deriving DecidableEq, Repr

-- ===== a block =====

/-- One barrier of a block (R277); the generation counts from 0. -/
structure Barrier where
  gen : Nat := 0
  arrived : TeamSet := 0
  mask : TeamSet := 0
deriving DecidableEq, Repr

/-- The race-watch record of a granule (R283). -/
structure RaceRec where
  writer : Option Nat
  readers : TeamSet
deriving DecidableEq, Repr

/-- A resident block: its window (R200), barriers (R277), race watch (R283) and task record (R362). `accSave` is the address
in partition 0's space at which a save wrote its accumulators (R402). -/
structure Block where
  partition : Nat := 0
  launch : Nat := 0
  index : Nat := 0
  cluster : Nat := 0
  base : Nat := 0
  rows : Nat := 0
  holdsAcc : Bool := false
  nteams : Nat := 1
  teams : List Nat := []
  ended : TeamSet := 0
  bars : Tab Barrier := []
  raceOn : Bool := true
  races : Tab RaceRec := []
  attempt : Nat := 0
  limit : Nat := 0
  saved : Bool := false
  accSave : Option Nat := none
deriving DecidableEq, Repr

-- ===== memory accesses in flight =====

/-- What an access in flight does when it is performed (R226, R228, R229, R339). -/
inductive AccKind where
  | load (width : Width)
  | prefetch
  | store
  | atomic (op : AtomOp) (ty : Ty) (b c : Word)
deriving DecidableEq, Repr

/-- Where an access in flight goes: a scratchpad byte of a cluster, a physical byte, or a byte of another package
(R438). -/
inductive AccPlace where
  | sp (cluster addr : Nat)
  | home (pa : Nat)
  | remote (package addr : Nat)
deriving DecidableEq, Repr

/-- One lane's access in flight, from its issue until it is performed (R145, R218, R322, R327). Its key in
State.accs rises in issue order and, within a word, in lane order. `word` is the address of its word, `shared` says that
its page is a shared sealed one (R317), `whole` that the lanes of its st together write every byte of its error block
(R382), `stale` that its range was dropped while its answer was on its way, so that no line of it is held (R442). -/
structure Acc where
  team : Nat
  block : Nat
  partition : Nat
  cluster : Nat
  issue : Nat
  lane : Nat
  kind : AccKind
  place : AccPlace
  va : Nat
  size : Nat
  data : Nat := 0
  hint : Hint := .none
  cn : Bool := false
  ver : Nat := 0
  word : Nat := 0
  shared : Bool := false
  whole : Bool := false
  stale : Bool := false
deriving DecidableEq, Repr

/-- What waits on a page walk beside a team's word (R320): the read of a layout slot, or the memory side of an operation. -/
inductive Waiter where
  | slot (team slot : Nat)
  | op (cluster key : Nat)
deriving DecidableEq, Repr

/-- A page walk asked for and not yet delivered (R320): the 64 KiB region, the teams and others that wait on it, the walks that
have failed (R382), and the address of the miss that asked for it. -/
structure Walk where
  die : Nat
  partition : Nat
  page : Nat
  teams : List Nat
  attempts : Nat := 0
  va : Nat := 0
  others : List Waiter := []
deriving DecidableEq, Repr

-- ===== a core and a cluster =====

/-- An undetected error of an error block: how it reads (R382). -/
inductive ErrKind where
  | single | transient | lasting
deriving DecidableEq, Repr

/-- One entry of the tag table (R159). Its row's bits are those of any register that maps the row, so they are not
held a second time. -/
structure TagEntry where
  key : VKey
  row : Nat
  completed : Bool
  flags : Flags
  versions : List (Nat × Nat)
  recency : Nat
deriving DecidableEq, Repr

/-- One TLB entry (R319): the page number at its size, and the leaf. -/
structure TlbEntry where
  partition : Nat
  page : Nat
  bits : Nat
  leaf : Nat
  recency : Nat
deriving DecidableEq, Repr

/-- A core (R4): its tag table, counters, TLB, clock ratio, row errors and arbiter. Key: (64 d + k) × 6 + c. A row error is
row × 32 + lane: `rowPoison` holds those not yet read, `rowGone` the lanes whose bits are lost until written (R387). -/
structure Core where
  tagTable : Tab TagEntry := []
  generation : Tab Nat := []
  binds : Tab Nat := []
  misses : Tab Nat := []
  freshes : Tab Nat := []
  tlb : List TlbEntry := []
  ratio : Nat := 3
  lastTeam : Nat := 7
  rowsLost : List Nat := []
  rowsSpare : Nat := 16
  rowPoison : List Nat := []
  rowGone : List Nat := []
  withdrawn : Bool := false
deriving DecidableEq, Repr

/-- One L1 line (R202, R205, R323, R441): its way, its line number, the partition that filled it, its bytes, the fill cycle, and
for a line of another package that package, the window it came through and the sealed version. -/
structure L1Line where
  line : Nat
  partition : Nat
  remote : Option Nat
  ver : Nat
  cn : Bool
  filled : Nat
  keep : Bool
  recency : Nat
  data : Tab Byte
  win : Nat := 0
  way : Nat := 0
deriving DecidableEq, Repr

/-- A scratchpad interval of granules (R214). -/
structure Interval where
  lo : Nat
  hi : Nat
deriving DecidableEq, Repr

/-- A lane that a cpy moves: its memory side as checked at issue, and its absolute scratchpad address (R234). -/
structure CpyLane where
  lane : Nat
  place : AccPlace
  va : Nat
  ver : Nat
  sp : Nat
  shared : Bool := false
deriving DecidableEq, Repr

/-- What an asynchronous operation does (R213, R254, R262): the operands it read at issue. -/
inductive OpKind where
  | cpy (store : Bool) (size : Nat) (lanes : List CpyLane)
  | tensor (store : Bool) (tile : Word) (slot : LySlot) (k0 k1 k2 k3 : Word) (off : Int) (cn : Bool)
  | scatter (tile idx : Word) (slot : LySlot) (k0 k1 k2 k3 : Word) (off : Int)
  | mma (tb : Bool) (acc : Nat) (ta tb' : Word)
  | mmab (scaled ctr : Bool) (planes acc : Nat) (ta tb' : Word)
  | mzero (i96 : Bool) (acc : Nat)
  | drainSp (acc : Nat) (tile : Word) (clr add : Bool)
  | drainMem (acc : Nat) (tile : Word) (clr add : Bool) (slot : LySlot) (k0 k1 k2 k3 : Word)
  | ocmp (mode : OcmpMode) (d x y : Word)
  | rcount (d a : Word)
  | rclose (refl : Bool) (d a : Word)
  | rcomp (d a b : Word)
  | rtrans (d a : Word)
  | qcvt (d m a : Word) (q : Word)
  | qexp (ctr : Bool) (planes : Nat) (d a m : Word) (q : Word)
deriving DecidableEq, Repr

/-- Where an asynchronous operation stands (R216, R244, R253). -/
inductive OpPhase where
  | waiting
  | running
  | moved
  | held
deriving DecidableEq, Repr

/-- What the elements that an operation has moved so far leave for its token (R231). -/
structure Tally where
  bytes : Nat := 0
  rounded : Bool := false
  nai : Bool := false
  poisoned : Bool := false
  remote : Bool := false
deriving DecidableEq, Repr

/-- An asynchronous operation of a cluster (R213): its issuer, token register, snapshot and phase. Its key in
Cluster.ops rises in cluster issue order. `able` orders the operations of the matrix array by the moment at which each
became able to start (R264). `xlat` holds the walks that its memory side has been brought (R320), `moved` the elements, as
(row, column), or lanes that have moved while it runs, and `tally` what they leave (R231, R336). -/
structure AsyncOp where
  team : Nat
  block : Nat
  partition : Nat
  index : Nat
  word : Nat
  opByte : Nat
  issue : Nat
  token : Option Nat
  kind : OpKind
  space : Space
  hint : Hint
  after : Option Nat := none
  phase : OpPhase := .waiting
  presetStatus : Option Nat := none
  kdest : Option Nat := none
  able : Option Nat := none
  xlat : List XlatResult := []
  moved : List (Nat × Nat) := []
  tally : Tally := {}
deriving DecidableEq, Repr

/-- A range-scoreboard entry (R214); its key is the operation's, `index` its place among the 64 (R219, R400). -/
structure SbEntry where
  partition : Nat
  reads : List Interval
  write : Option Interval
  index : Nat := 0
deriving DecidableEq, Repr

/-- A cluster (R4): scratchpad (R196, R296), accumulators (R252, R74), L1 (R202), scoreboard (R213), operations,
pass count (R192), the limiter's notch and whether every team of the cluster stalls (R416). Key: 64 d + k. -/
structure Cluster where
  sp : Tab Byte := []
  spPoison : List Nat := []
  spLatent : Tab ErrKind := []
  rowsWithdrawn : List Nat := []
  acc : Tab (BitVec 96) := []
  accI96 : List Nat := []
  accPoison : List Nat := []
  accLatent : Tab ErrKind := []
  l1 : List L1Line := []
  entries : Tab SbEntry := []
  ops : Tab AsyncOp := []
  passc : Nat := 0
  ctlNotch : Nat := 0
  stalled : Bool := false
  lastCore : Tab Nat := []
deriving DecidableEq, Repr

-- ===== launches, queues and partitions =====

/-- A kernel descriptor as read at enqueue (R360). -/
structure Kernel where
  team : Nat := 32
  teams : Nat := 1
  blocks : Nat := 1
  regs : Nat := 1
  scratch : Nat := 0
  limit : Nat := 0
  gridbar : Bool := false
  acc : Bool := false
  text : Nat := 0
  textSize : Nat := 0
  cnAddr : Nat := 0
  cnSize : Nat := 0
  tdir : Nat := 0
  ntab : Nat := 0
  livemap : Nat := 0
deriving DecidableEq, Repr

/-- A hoist release in progress (R418): the cycle of the completion, what it began with, and the clusters whose teams
still wait. -/
structure Release where
  start : Nat
  rot : Nat
  td : Nat
  tw : Nat
  size : Nat
  waiting : List Nat
deriving DecidableEq, Repr

/-- A launch that holds a queue slot (R348, R358, R359, R368). `running` counts the cycles since its first placement,
pauses left out (R405, R430). Blocks are indices within the grid. -/
structure Launch where
  id : Nat := 0
  partition : Nat := 0
  queue : Nat := 0
  kernel : Kernel := {}
  blocks : Nat := 1
  kvals : List Word := []
  done : Nat := 0
  dep : Bool := false
  notify : Bool := false
  ahead : Option Nat := none
  nextBlock : Nat := 0
  awaiting : List Nat := []
  attempts : Tab Nat := []
  endedBlocks : Nat := 0
  faulted : Bool := false
  barred : Bool := false
  skipped : Bool := false
  gen : Nat := 0
  arrived : List (Nat × Nat) := []
  endedTeams : List (Nat × Nat) := []
  release : Option Release := none
  running : Nat := 0
deriving DecidableEq, Repr

/-- A hardware queue (R357, R359, R365, R405, R395). -/
structure Queue where
  depth : Nat := 0
  pn : Nat := 0
  pri : Nat := 0
  en : Bool := false
  pendingWrite : Option Word := none
  lastId : Option Nat := none
  lastStatus : Option Nat := none
  waitSince : Option Nat := none
  heldBack : Bool := false
  wdtLimit : Nat := 0
  doorbell : Nat := 0
deriving DecidableEq, Repr

/-- A fabric window of a partition (R437). -/
structure FWin where
  en : Bool := false
  pkg : Nat := 0
  rbase : Nat := 0
  lbase : Nat := 0
  size : Nat := 0
deriving DecidableEq, Repr

/-- The quota registers of a partition (R397). -/
structure Quota where
  rowcnt : Nat := 0
  rowbase : Nat := 0
  slotcnt : Nat := 0
  slotbase : Nat := 0
  acc : Bool := false
  l1cnt : Nat := 0
  l1base : Nat := 0
  sbcnt : Nat := 0
  sbbase : Nat := 0
  spcnt : Nat := 0
  spbase : Nat := 0
  dies : BitVec 12 := 0
  wcnt : Nat := 0
  wbase : Nat := 0
deriving DecidableEq, Repr

/-- A partition (R377, R389, R397 to R411, R437). `halting` says that step 2 of R401 has begun (R420). -/
structure Partition where
  quota : Quota := {}
  pendingQuota : Option Quota := none
  fltb : Nat := 0
  elogb : Word := 0
  elogLost : Nat := 0
  elogHead : Nat := 0
  elogTail : Nat := 0
  proot : Nat := 0
  psave : Word := 0
  launchCtr : Nat := 0
  rr : Tab Nat := []
  resetting : Bool := false
  preempting : Bool := false
  halting : Bool := false
  preempted : Bool := false
  drained : Bool := false
  preemptDeadline : Nat := 0
  descCopies : List (Nat × Kernel) := []
  fspan : Word := 0
  fvmark : Nat := 0
  fwins : Tab FWin := []
deriving DecidableEq, Repr

/-- A pctl operation that has not answered (R408). -/
structure PctlOp where
  team : Nat
  issue : Nat
  op : Nat
  partition : Nat
deriving DecidableEq, Repr

/-- What leaves the package: reports to the host and the management bus (R368, R393, R424 to R426), requests over the host
link with the function whose requester ID they carry (R394), messages to other packages (R438, R442, R445, R446) and those of
its boundary clock (R448). -/
inductive Notice where
  | launchDone (partition launch status : Nat)
  | hostWord (addr : Nat) (value : Word)
  | attestation (nonce : Nat) (meas : List Nat) (signature : Nat)
  | mailbox (reply : Nat)
  | hostRequest (bus : Nat) (function : Option Nat) (translated : Bool)
  | trace (partition team pc : Nat)
  | traceAccess (partition team addr size : Nat) (write : Bool)
  | traceBlock (partition block : Nat) (enters : Bool)
  | traceQueue (partition queue launch : Nat) (enters : Bool)
  | contribution (key : CollKey) (rank : Nat) (data : List Byte)
  | collAgreed (key : CollKey) (rank : Nat)
  | collFailed (tag status : Nat)
  | rangeDrop (base len version : Nat)
  | answer (package code data ver : Nat)
  | ptpSync (domain : Nat) (time : Option Nat)
  | ptpFollowUp (domain time : Nat)
  | ptpAnnounce (domain grandmaster : Nat)
deriving DecidableEq, Repr

-- ===== memory of the package =====

/-- One LLC line (R314, R399, R441): its die, way, line, the partition whose ways hold it (8 for the shared group), the state.
A sealed line of another package is numbered by its address there, tagged with the partition and the window it came through and
its version, and holds its bytes, by offset. -/
structure LlcLine where
  die : Nat
  line : Nat
  owner : Nat
  dirty : Bool
  recency : Nat
  remote : Option Nat := none
  ver : Nat := 0
  keep : Bool := false
  filler : Nat := 0
  data : Tab Byte := []
  win : Nat := 0
  way : Nat := 0
deriving DecidableEq, Repr

/-- A frame under live retirement (R385). -/
structure Retire where
  frame : Nat
  owner : Nat
  va : Nat
  block : Nat
deriving DecidableEq, Repr

/-- The error registers of a die (R383). -/
structure ErrCount where
  corr : Nat := 0
  trans : Nat := 0
  last : Nat := 0
deriving DecidableEq, Repr

-- ===== host link, power, security and bring-up =====

/-- The host interface (R393 to R396, R407, R411, R428): `atc` holds (function, page) pairs, `trained` the entry of R428 in use;
`up` is false while the link has not trained since the package reset (R427), `idle` says that it is in L1 (R422), `ready` is the
PF's Configuration Ready (R427). -/
structure HostLink where
  ifneg : Word := 0
  vfmap : Tab Word := []
  atc : List (Nat × Nat) := []
  trained : Nat := 0
  up : Bool := false
  idle : Bool := false
  ready : Bool := false
deriving DecidableEq, Repr

/-- The power registers and controller (R415 to R422). `lastStep` is the cycle at which the last rise was taken, which may lie
ahead where rises that nothing withholds are still charged (R416). -/
structure Power where
  slew : Nat := 40
  td : Nat := 0
  tw : Nat := 0
  wsz : Nat := 2
  mcap : Nat := 0
  scap : Nat := 0
  capd : Bool := false
  cur : Nat := 0
  prev : Nat := 0
  req : Nat := 0
  rot : Tab Nat := []
  notch : Nat := 0
  lastStep : Nat := 0
  lastCap : Nat := 0
deriving DecidableEq, Repr

/-- Bexile (R423 to R427): measurement registers, the step at which bring-up halted (0 where it did not), the security
state (none where it is the fused one) and the one that a token sets at the next reset, the firmware and the image staged
for the next reset with its signature and security version, the partitions that a debug access has halted, and those that
it traces, and whether Zalmer has still to be loaded into partition 0 (R427). -/
structure Bexile where
  meas : Tab Nat := []
  failed : Nat := 0
  sec : Option Nat := none
  pendingSec : Option Nat := none
  image : Nat := 0
  staged : Option (Nat × Nat × Nat) := none
  halted : List Nat := []
  traced : List Nat := []
  loading : Bool := true
deriving DecidableEq, Repr

/-- A Tarbin port (R435 to R437, R454); while it retrains it holds its traffic until a cycle. -/
structure Port where
  retries : Nat := 0
  peer : Nat := 0
  pport : Nat := 0
  width : Nat := 0
  ver : Nat := 0
  down : Bool := true
  en : Bool := true
  heldUntil : Nat := 0
deriving DecidableEq, Repr

/-- A collective in flight on this package (R443 to R447); its key in State.colls is its tag. `agreed` holds the ranks that have
agreed the commit. `podTime` is the release time that the last arrival set, with the time of that arrival, `leaveAt` the cycle
at which a pod barrier's team leaves. -/
structure Coll where
  team : Nat
  issue : Nat
  partition : Nat
  key : CollKey
  rank : Nat
  dst : Nat
  members : List Nat
  deadline : Nat
  contributions : List (Nat × List Byte)
  podTime : Option (Nat × Nat) := none
  agreed : List Nat := []
  committed : Bool := false
  releaseAt : Nat := 0
  leaveAt : Option Nat := none
deriving DecidableEq, Repr

/-- A sealing or opening in progress (R442): `done` are the places of the leaves that have changed, `opened` the versions that
they carried, `told` says that the translations are dropped and the other packages told. -/
structure SealOp where
  team : Nat
  issue : Nat
  partition : Nat
  base : Nat
  len : Nat
  ver : Nat
  isOpen : Bool
  done : List Nat := []
  opened : List Nat := []
  told : Bool := false
deriving DecidableEq, Repr

/-- The sealed version under which a page of another package was read last through a window: what a partition's translation of
that page carries (R441). -/
structure SeenPage where
  partition : Nat
  win : Nat
  package : Nat
  page : Nat
  ver : Nat
deriving DecidableEq, Repr

/-- The fabric of this package (R435 to R454). `time` counts quarters of a millionth of a ns, 5 000 000 to a cycle at
rate 0; `rate` is the correction in ppm; ftime, fsched and fpod hold the writable fields of their registers; `masters` are the
grandmasters announced, with their stratum (R448); `idle` says that the links idle in retention (R422). -/
structure Fabric where
  ports : Tab Port := []
  fid : Nat := 0
  ftime : Word := 0x50C
  fsched : Word := 0x1F40100
  fpod : Word := 0xC80000
  froute : Tab Word := []
  time : Nat := 0
  rate : Int := 0
  offset : Nat := 0
  lock : Bool := false
  goodSyncs : Nat := 0
  lastSync : Nat := 0
  stepped : Bool := false
  masters : List (Nat × Nat) := []
  seen : List SeenPage := []
  early : List (CollKey × Nat × List Byte) := []
  transit : List Flit := []
  outgoing : List (Nat × Flit) := []
  idle : Bool := false
deriving DecidableEq, Repr

-- ===== the machine =====

/-- Which agent moves in the next step (the model's own field): a team that was granted the datapath, or a choice
among every move that is enabled. -/
inductive Turn where
  | issue (team : Nat)
  | free
deriving DecidableEq, Repr

/-- The state of a package and of what it sees of the world around it. `grantFloor` is the first core that may still be
granted in the current cycle, since cores issue in ascending order within one (R213, R358): the model's own field. -/
structure State where
  turn : Turn := .free
  inputs : List Instr := []
  choiceCtr : Nat := 0
  freeCtr : Nat := 0
  cur : Nat := 0
  cycle : Nat := 0
  grantFloor : Nat := 0
  seq : Nat := 0
  uid : Nat := 0
  mem : Tab Byte := []
  latent : Tab ErrKind := []
  lost : List Nat := []
  retiring : List Retire := []
  remap : Tab Nat := []
  pools : Tab Nat := []
  errs : Tab ErrCount := []
  llc : List LlcLine := []
  walks : Tab Walk := []
  accs : Tab Acc := []
  teams : Tab Team := []
  blocks : Tab Block := []
  cores : Tab Core := []
  clusters : Tab Cluster := []
  launches : List Launch := []
  queues : Tab Queue := []
  partitions : Tab Partition := []
  shrWcnt : Nat := 2
  shrWbase : Nat := 0
  wdrec : Word := 0
  pctls : List PctlOp := []
  notices : List Notice := []
  hostLink : HostLink := {}
  power : Power := {}
  bexile : Bexile := {}
  fabric : Fabric := {}
  colls : Tab Coll := []
  seals : Tab SealOp := []
deriving DecidableEq, Repr

/-- Partition 0 after package reset: every quota (R397). -/
def Partition.supervisor : Partition :=
  { quota := { rowcnt := 32, slotcnt := 8, acc := true, l1cnt := 8, sbcnt := 64, spcnt := 12288, dies := 0xFFF,
               wcnt := 14, wbase := 2 } }

/-- The machine right after package reset. Registers whose reset value the spec does not give hold 0 (log 4). -/
def State.reset : State := { partitions := [(0, Partition.supervisor)] }

/-- Why a step stops. -/
inductive Fault where
  /-- Raised by the meaning of an instruction word when no team is issuing: State.cur names no resident team. No run
  of the machine reaches it, since a word is issued only by a team. Safe: the machine stops. -/
  | noTeam
deriving DecidableEq, Repr

/-- Why an instruction has no meaning. -/
inductive Refusal where
  /-- The instruction named has no meaning in this model. Raised by Dispatch.lean alone. Safe: the machine stops. -/
  | notModelled (mnemonic : String)
deriving DecidableEq, Repr

end Sys2Proof.Machine
end

