-- ==== Sys2Proof/Machine/Tab.lean ====
section
/-! DEFINITION. Sparse arrays: lists of (key, value) pairs with keys strictly rising and no entry equal to the
default. Every sparse array of the machine, memory first, is read and written through these operations. -/

namespace Sys2Proof.Machine

/-- The value at a key; d where the key is not listed. -/
def tget {α : Type} (t : Tab α) (k : Nat) (d : α) : α :=
  match t with
  | [] => d
  | (i, x) :: r => if i = k then x else tget r k d

/-- The value at a key, if listed. -/
def tfind {α : Type} (t : Tab α) (k : Nat) : Option α :=
  match t with
  | [] => none
  | (i, x) :: r => if i = k then some x else tfind r k

/-- The array with an entry at a key, keys kept rising. -/
def tput {α : Type} (t : Tab α) (k : Nat) (x : α) : Tab α :=
  match t with
  | [] => [(k, x)]
  | (i, y) :: r => if i < k then (i, y) :: tput r k x else if i = k then (k, x) :: r else (k, x) :: (i, y) :: r

/-- The array without a key. -/
def tdel {α : Type} (t : Tab α) (k : Nat) : Tab α :=
  match t with
  | [] => []
  | (i, y) :: r => if i = k then tdel r k else (i, y) :: tdel r k

/-- The array with value x at a key; no entry is kept for the default d. -/
def tset {α : Type} [DecidableEq α] (t : Tab α) (k : Nat) (x d : α) : Tab α :=
  if x = d then tdel t k else tput t k x

/-- The array with the value at a key changed by f, where it is listed. -/
def tmod {α : Type} (t : Tab α) (k : Nat) (f : α → α) : Tab α :=
  match tfind t k with
  | none => t
  | some x => tput t k (f x)

/-- The array with every listed value changed by f; no entry is kept for the default d. -/
def teach {α : Type} [DecidableEq α] (t : Tab α) (f : α → α) (d : α) : Tab α :=
  match t with
  | [] => []
  | (i, x) :: r => if f x = d then tdel (teach r f d) i else (i, f x) :: teach r f d

/-- Whether the keys rise strictly. -/
def tsorted {α : Type} : Tab α → Bool
  | [] => true
  | [_] => true
  | (i, _) :: (j, y) :: r => decide (i < j) && tsorted ((j, y) :: r)

/-- The canonical form of a sparse array with default d. -/
def Tab.wf {α : Type} [DecidableEq α] (t : Tab α) (d : α) : Bool :=
  tsorted t && t.all fun e => decide (e.2 ≠ d)

/-- n bytes from a key up as a little-endian number (R10). -/
def bytesGet (t : Tab Byte) (a : Nat) : Nat → Nat
  | 0 => 0
  | n + 1 => (tget t a 0).toNat + 256 * bytesGet t (a + 1) n

/-- n bytes of a number stored little-endian from a key up (R10). -/
def bytesSet (t : Tab Byte) (a x : Nat) : Nat → Tab Byte
  | 0 => t
  | n + 1 => tset (bytesSet t (a + 1) (x / 256) n) a (BitVec.ofNat 8 x) 0

/-- The largest key, plus one. -/
def tnext {α : Type} (t : Tab α) : Nat := t.foldl (fun m e => max m (e.1 + 1)) 0

end Sys2Proof.Machine
end

