-- ==== Sys2Proof/Machine/Mem.lean ====
section
/-! DEFINITION. Home memory: the physical map (R312 to R314), error blocks and their retry (R382 to R386), and
translation (R315 to R321). -/

namespace Sys2Proof.Machine

-- ===== access to the parts of the state =====

/-- A cluster; one that nothing has touched holds its reset state. -/
def State.cluster (s : State) (k : Nat) : Cluster := tget s.clusters k {}

/-- The state with a cluster replaced. -/
def State.setCluster (s : State) (k : Nat) (c : Cluster) : State := { s with clusters := tset s.clusters k c {} }

/-- A core. -/
def State.core (s : State) (c : Nat) : Core := tget s.cores c {}

/-- The state with a core replaced. -/
def State.setCore (s : State) (k : Nat) (c : Core) : State := { s with cores := tset s.cores k c {} }

/-- A partition. -/
def State.partition (s : State) (n : Nat) : Partition := tget s.partitions n {}

/-- The state with a partition replaced. -/
def State.setPartition (s : State) (n : Nat) (p : Partition) : State :=
  { s with partitions := tset s.partitions n p {} }

/-- A hardware queue. -/
def State.queue (s : State) (q : Nat) : Queue := tget s.queues q {}

/-- The state with a queue replaced. -/
def State.setQueue (s : State) (q : Nat) (x : Queue) : State := { s with queues := tset s.queues q x {} }

/-- The state with a team replaced. -/
def State.setTeam (s : State) (f : Nat) (t : Team) : State := { s with teams := tput s.teams f t }

/-- The state with a block replaced. -/
def State.setBlock (s : State) (b : Nat) (x : Block) : State := { s with blocks := tput s.blocks b x }

/-- The cluster of a team by its frame index f = ((64 d + k) × 6 + c) × 8 + s (R377). -/
def clusterOf (f : Nat) : Nat := f / 48

/-- The core of a team (R377). -/
def coreOf (f : Nat) : Nat := f / 8

/-- The die of a team (R377). -/
def dieOf (f : Nat) : Nat := f / 3072

/-- The launch of a partition with an identifier (R349). -/
def State.launch? (s : State) (partition id : Nat) : Option Launch :=
  s.launches.find? fun l => l.partition == partition && l.id == id

/-- The state with a launch changed by f. -/
def State.modLaunch (s : State) (partition id : Nat) (f : Launch → Launch) : State :=
  { s with launches := s.launches.map fun l => if l.partition == partition && l.id == id then f l else l }

/-- The kernel of a team's launch. -/
def State.kernelOf (s : State) (t : Team) : Kernel :=
  match s.launch? t.partition t.launch with
  | some l => l.kernel
  | none => {}

/-- The launch of a team; an empty one where it is gone. -/
def State.launchOf (s : State) (t : Team) : Launch := (s.launch? t.partition t.launch).getD {}

-- ===== quotas =====

/-- The common part of two ranges, as a first element and a count. -/
def meetRange (a n b m : Nat) : Nat × Nat :=
  let lo := max a b
  (lo, min (a + n) (b + m) - lo)

/-- What two quotas both hold (R400). -/
def Quota.meet (a b : Quota) : Quota :=
  let row := meetRange a.rowbase a.rowcnt b.rowbase b.rowcnt
  let slot := meetRange a.slotbase a.slotcnt b.slotbase b.slotcnt
  let sp := meetRange a.spbase a.spcnt b.spbase b.spcnt
  let sb := meetRange a.sbbase a.sbcnt b.sbbase b.sbcnt
  { a with sbbase := sb.1, sbcnt := sb.2, rowbase := row.1, rowcnt := row.2, slotbase := slot.1, slotcnt := slot.2, spbase := sp.1, spcnt := sp.2,
           acc := a.acc && b.acc, dies := a.dies &&& b.dies }

/-- The quotas that placement may use: both the old and the new while a change is pending (R400). -/
def Partition.placing (p : Partition) : Quota :=
  match p.pendingQuota with
  | some q => p.quota.meet q
  | none => p.quota

-- ===== the physical map =====

/-- The memories of R312. -/
inductive MemKind where
  | vault | stacked | lpddr | host
deriving DecidableEq, Repr

/-- The end of the installed LPDDR6 (R312). -/
def lpddrEnd : Nat := 0x20000000000 + min (Config.lpddrFrames * 65536) 0x18000000000

/-- The memory of a physical address, and the end of its range; none in a reserved range (R312). -/
def memRange (pa : Nat) : Option (MemKind × Nat) :=
  if pa < 0x180000000 then some (.vault, 0x180000000)
  else if 0x10000000000 ≤ pa ∧ pa < 0x19000000000 then some (.stacked, 0x19000000000)
  else if 0x20000000000 ≤ pa ∧ pa < 0x38000000000 then (if pa < lpddrEnd then some (.lpddr, lpddrEnd) else none)
  else if 0x80000000000 ≤ pa ∧ pa < 0x100000000000 then some (.host, 0x100000000000)
  else none

/-- The die whose home holds a physical address (R312, R314); 0 for host memory. -/
def homeDie (pa : Nat) : Nat :=
  match memRange pa with
  | some (.vault, _) => pa / 0x20000000
  | some (.stacked, _) => (pa - 0x10000000000) / 0xC00000000
  | some (.lpddr, _) => (pa - 0x20000000000) / 4096 % 12
  | _ => 0

/-- The channel of a physical address on its home die (R314), or its vault (R312). -/
def homeUnit (pa : Nat) : Nat :=
  match memRange pa with
  | some (.vault, _) => pa / 0x2000000 % 16
  | some (.stacked, _) => (pa - 0x10000000000) % 0xC00000000 / 1024 % 32
  | some (.lpddr, _) => (pa - 0x20000000000) / 4096 / 12 % 8
  | _ => 0

/-- The vault above a cluster of a die (R313). -/
def vaultOver (c : Nat) : Nat := 4 * (c / 16) + c % 8 / 2

/-- The spare-frame pool of a frame (R385): one per vault, one per die's stacked DRAM, one for LPDDR6. -/
def poolOf (pa : Nat) : Nat :=
  match memRange pa with
  | some (.vault, _) => pa / 0x2000000
  | some (.stacked, _) => 192 + homeDie pa
  | _ => 204

/-- The frames a pool holds at reset (R385). -/
def poolSize (pool : Nat) : Nat := if pool < 192 then 8 else if pool < 204 then 128 else 3072

/-- The frames a pool still holds: s.pools counts those taken. -/
def poolLeft (s : State) (pool : Nat) : Nat := poolSize pool - tget s.pools pool 0

-- ===== error blocks =====

/-- The memory's canonical form: addresses rise and no listed byte is 0, which is what an unlisted address reads. -/
def Memory.wf (m : Tab Byte) : Bool := Tab.wf m 0

/-- The error counters of a die with a correction (R383). -/
def countCorr (s : State) (die : Nat) : State :=
  let e := tget s.errs die {}
  { s with errs := tset s.errs die { e with corr := min (e.corr + 1) (2 ^ 24 - 1) } {} }

/-- A transient error counted (R383). -/
def countTrans (s : State) (die : Nat) : State :=
  let e := tget s.errs die {}
  { s with errs := tset s.errs die { e with trans := min (e.trans + 1) (2 ^ 20 - 1) } {} }

/-- A lasting error counted (R383). -/
def countLast (s : State) (die : Nat) : State :=
  let e := tget s.errs die {}
  { s with errs := tset s.errs die { e with last := min (e.last + 1) (2 ^ 20 - 1) } {} }

/-- A lasting error marks its block lost and starts the retirement of its frame, for an owner and the virtual
address that found it (R384, R385). A frame already under retirement takes the block into it (R391). -/
def loseBlock (s : State) (block owner va : Nat) : State :=
  let frame := block / 2048
  let s := { countLast s (homeDie (block * 32)) with lost := if s.lost.contains block then s.lost else s.lost ++ [block] }
  if s.retiring.any (·.frame == frame) then s
  else { s with retiring := s.retiring ++ [⟨frame, owner, va, block⟩] }

/-- A read of an error block, with its retry: the state after it and whether the block is lost (R382, R384). -/
def readBlock (s : State) (block owner va : Nat) : State × Bool :=
  if s.lost.contains block then (s, true)
  else
    match tfind s.latent block with
    | none => (s, false)
    | some k =>
      let s' := { s with latent := tdel s.latent block }
      let die := homeDie (block * 32)
      (match k with
       | .single => (countCorr s' die, false)
       | .transient => (countTrans s' die, false)
       | .lasting => (loseBlock s' block owner va, true))

/-- The reads of every error block that n bytes from pa touch, each met at its own virtual address (R385). -/
def readBlocks (s : State) (pa n owner va : Nat) : State × Bool :=
  (List.range ((pa % 32 + n + 31) / 32)).foldl
    (fun r i =>
      let q := readBlock r.1 (pa / 32 + i) owner (if i = 0 then va else va / 32 * 32 + 32 * i)
      (q.1, r.2 || q.2)) (s, false)

/-- A write of a whole block leaves no error in it (R382, R384). -/
def clearBlock (s : State) (block : Nat) : State :=
  { s with lost := s.lost.filter (· != block), latent := tdel s.latent block }

/-- n bytes of home memory, little-endian. -/
def memGet (s : State) (pa n : Nat) : Nat := bytesGet s.mem pa n

/-- n bytes written to home memory, little-endian. -/
def memSet (s : State) (pa x n : Nat) : State := { s with mem := bytesSet s.mem pa x n }

-- ===== translation =====

/-- A leaf's fields (R317). -/
structure Leaf where
  ver : Nat
  frame : Nat
  x : Bool
  pn : Nat
  sealed : Bool
  w : Bool
  r : Bool
deriving DecidableEq, Repr

/-- The fields of a leaf entry (R317). -/
def Leaf.ofNat (e : Nat) : Leaf :=
  { ver := natBits e 59 44, frame := natBits e 43 16, x := natBit e 11, pn := natBits e 10 8, sealed := natBit e 4,
    w := natBit e 3, r := natBit e 2 }

/-- Whether a table may lie at a physical address (R315). -/
def tableOk (pa : Nat) : Bool :=
  match memRange pa with
  | some (.host, _) => false
  | some _ => true
  | none => false

/-- Whether a leaf that maps 2^bits bytes is well formed (R317, R318). -/
def leafOk (e bits : Nat) : Bool :=
  let l := Leaf.ofNat e
  let pa := l.frame * 65536
  natBits e 63 60 == 0 && natBits e 15 12 == 0 && natBits e 7 5 == 0 &&
  (l.sealed || l.ver == 0) && (!l.x || (l.sealed && !l.w)) && pa % 2 ^ bits == 0 &&
  (match memRange pa with
   | some (_, hi) => decide (pa + 2 ^ bits ≤ hi)
   | none => false)

/-- A walk from a table at a level: the leaf and the size of its page as a power of two, or none where an entry is
invalid or malformed. A table entry in a lost block gives none too (R384). -/
def walkFrom (s : State) (va : Nat) : Nat → Nat → Option (Nat × Nat)
  | 0, table =>
    let pa := table + 8 * natBits va 20 16
    let e := memGet s pa 8
    if !tableOk table || s.lost.contains (pa / 32) then none
    else if natBit e 0 && natBit e 1 && leafOk e 16 then some (e, 16) else none
  | l + 1, table =>
    let lo := 21 + 9 * l
    let pa := table + 8 * natBits va (lo + 8) lo
    let e := memGet s pa 8
    if !tableOk table || s.lost.contains (pa / 32) || !natBit e 0 then none
    else if natBit e 1 then (if l < 2 && leafOk e lo then some (e, lo) else none)
    else if natBits e 63 44 == 0 && natBits e 11 2 == 0 then walkFrom s va l (natBits e 43 12 * 4096)
    else none

/-- The physical addresses of the entries that a walk reads, for the error blocks it meets. -/
def walkReads (s : State) (va : Nat) : Nat → Nat → List Nat
  | 0, table => [table + 8 * natBits va 20 16]
  | l + 1, table =>
    let lo := 21 + 9 * l
    let pa := table + 8 * natBits va (lo + 8) lo
    let e := memGet s pa 8
    pa :: (if natBit e 0 && !natBit e 1 && tableOk (natBits e 43 12 * 4096) then
      walkReads s va l (natBits e 43 12 * 4096) else [])

/-- A walk for a partition: it reads each level, twice where the first walk fails (R320, R382). -/
def walkNow (s : State) (partition va : Nat) : State × Option (Nat × Nat) :=
  let root := (s.partition partition).proot * 4096
  if va ≥ 2 ^ 48 then (s, none)
  else
    let s' := (walkReads s va 3 root).foldl (fun st pa => (readBlock st (pa / 32) partition va).1) s
    (s', walkFrom s' va 3 root)

/-- What an access needs of a page. -/
inductive Need where
  | read | write
deriving DecidableEq, Repr

/-- The lane-fault codes of R376. -/
inductive FaultCode where
  | misaligned | scratchRange | cnRange | pageFault | accessDenied | spaceMismatch | sealedStore | badInterval
  | emptyInterval | spPoisoned | memPoisoned | regPoisoned
deriving DecidableEq, Repr

/-- The number of a code (R376). -/
def FaultCode.code : FaultCode → Nat
  | .misaligned => 1
  | .scratchRange => 2
  | .cnRange => 3
  | .pageFault => 4
  | .accessDenied => 5
  | .spaceMismatch => 6
  | .sealedStore => 7
  | .badInterval => 8
  | .emptyInterval => 9
  | .spPoisoned => 10
  | .memPoisoned => 11
  | .regPoisoned => 12

/-- The table of R318 for a leaf that was found. DEDUCED: its rows go before the order of R225's table, which names the same
faults and puts `sealed-store` last (log 67). -/
def leafCheck (partition : Nat) (need : Need) (vt : Bool) (leaf bits va : Nat) : Except FaultCode Nat :=
  let l := Leaf.ofNat leaf
  let pa := l.frame * 65536 + va % 2 ^ bits
  if !l.x && l.pn != partition then .error .accessDenied
  else if need == .read && !l.r then .error .accessDenied
  else if need == .write && l.sealed then .error .sealedStore
  else if need == .write && !l.w then .error .accessDenied
  else if vt && pa ≥ 0x180000000 then .error .spaceMismatch
  else .ok pa

/-- The fabric window that holds a virtual address (R437, R438): the other package and the address there. -/
def windowOf (s : State) (partition va : Nat) : Option (Nat × Nat) :=
  let p := s.partition partition
  (p.fwins.find? fun e => e.2.en && e.2.lbase ≤ va && va < e.2.lbase + e.2.size).map
    fun e => (e.2.pkg, va - e.2.lbase + e.2.rbase)

/-- The number, among a partition's windows, of the one that holds a virtual address (R437, R441). -/
def windowIndex (s : State) (partition va : Nat) : Nat :=
  ((s.partition partition).fwins.find? fun e => e.2.en && e.2.lbase ≤ va && va < e.2.lbase + e.2.size).elim 0 (·.1)

/-- Whether a frame is under retirement: the home holds every access to it (R385). -/
def frameHeld (s : State) (pa : Nat) : Bool := s.retiring.any fun r => r.frame == pa / 65536

/-- The TLB entry of a core for a partition's page (R319). -/
def tlbFind (c : Core) (partition va : Nat) : Option TlbEntry :=
  c.tlb.find? fun e => e.partition == partition && e.page == va / 2 ^ e.bits

/-- The leaf under which an agent of a core reaches an address, with the size of its page: by the walks that have brought it
something, else by the core's TLB (R319, R320). The outer none is a miss, the inner one a walk that failed. -/
def knownLeaf (s : State) (core partition : Nat) (xs : List XlatResult) (va : Nat) : Option (Option (Nat × Nat)) :=
  match xs.find? fun x => x.page == va / 2 ^ 16 with
  | some x => some (x.leaf.map fun l => (l, x.size))
  | none => (tlbFind (s.core core) partition va).map fun e => some (e.leaf, e.bits)

/-- The lookups that some addresses take of a core's TLB, one for each distinct page that a translation is known for: the address,
the leaf and the size of its page (R319). -/
def pageLooks (s : State) (core partition : Nat) (xs : List XlatResult) (as : List Nat) : List (Nat × Nat × Nat) :=
  as.foldl (fun l a =>
    match knownLeaf s core partition xs a with
    | some (some (leaf, bits)) => if l.any fun y => y.2.2 == bits && y.1 / 2 ^ bits == a / 2 ^ bits then l else l ++ [(a, leaf, bits)]
    | _ => l) []

/-- A TLB entry used or filled; the least recently used of 128 is replaced (R319). -/
def tlbTouch (s : State) (core partition va leaf bits : Nat) : State :=
  let c := s.core core
  let e : TlbEntry := { partition, page := va / 2 ^ bits, bits, leaf, recency := s.seq }
  let rest := c.tlb.filter fun x => !(x.partition == partition && x.bits == bits && x.page == va / 2 ^ bits)
  let rest := if rest.length < 128 then rest
    else
      let oldest := rest.foldl (fun m x => min m x.recency) s.seq
      (rest.filter fun x => x.recency != oldest) ++ ((rest.filter fun x => x.recency == oldest).drop 1)
  { s.setCore core { c with tlb := rest ++ [e] } with seq := s.seq + 1 }

/-- The TLB entry that an access of a page uses, or enters from a walk that brought it, where the access does not fault (R318,
R319). -/
def tlbUse (s : State) (core partition : Nat) (xs : List XlatResult) (need : Need) (vt : Bool) (va : Nat) : State :=
  match knownLeaf s core partition xs va with
  | some (some (leaf, bits)) =>
    (match leafCheck partition need vt leaf bits va with
     | .ok _ => tlbTouch s core partition va leaf bits
     | .error _ => s)
  | _ => s

/-- Every TLB entry and ATC entry that matches is dropped (R321, R408). -/
def dropTranslations (s : State) (drop : TlbEntry → Bool) : State :=
  { s with cores := teach s.cores (fun c => { c with tlb := c.tlb.filter fun x => !drop x }) {} }

end Sys2Proof.Machine
end

