-- ==== Sys2Proof/Machine/Operands.lean ====
section
/-! DEFINITION. The operand forms: sources in each type they are read in (R19, R20, R24, R48), predicates and guards
(R68, R70), active lanes (R135), and the registers that an instruction names (R145). -/

namespace Sys2Proof.Machine

/-- How a source is read, which fixes what a small constant supplies (R20). -/
inductive ReadAs where
  | int
  | flt (f : Fmt)
  | ivl
  | packed (f : Fmt)
deriving DecidableEq, Repr

/-- The pattern of n.0 in a format. -/
def fltConst (f : Fmt) (n : Nat) : Nat := (f.round .rne false n 0 false).1

/-- A small constant in the type that reads it (R20). -/
def constWord (as : ReadAs) (n : Nat) : Word :=
  match as with
  | .int => BitVec.ofNat 64 n
  | .flt f => BitVec.ofNat 64 (fltConst f n)
  | .ivl => BitVec.ofNat 64 (fltConst .f32 n * (2 ^ 32 + 1))
  | .packed f => BitVec.ofNat 64 (fltConst f n * (2 ^ 16 + 1))

/-- The block of a team. -/
def State.blockOf (s : State) (t : Team) : Block := (tfind s.blocks t.block).getD {}

/-- A special source (R19). -/
def specialVal (s : State) (f : Nat) (t : Team) (x : Special) (lane : Nat) : Nat :=
  match x with
  | .lane => lane
  | .wlane => lane % 32
  | .warp => lane / 32
  | .team => t.index
  | .block => (s.blockOf t).index
  | .nlanes => t.nlanes
  | .nteams => (s.blockOf t).nteams
  | .nblocks => (s.launchOf t).blocks
  | .core => f / 8 % 6
  | .cluster => f / 48 % 64
  | .die => dieOf f
  | .launch => t.launch

/-- The place of lane l of a v or p register in its sparse array. -/
def laneKey (r lane : Nat) : Nat := r * 1024 + lane

/-- A v register in a lane. -/
def readV (t : Team) (r lane : Nat) : Word := tget t.v (laneKey r lane) 0

/-- A k register. -/
def readK (t : Team) (r : Nat) : Word := tget t.k r 0

/-- A source in a lane, as 64 bits (R19, R20). -/
def readSrc (s : State) (f : Nat) (t : Team) (as : ReadAs) (x : Src) (lane : Nat) : Word :=
  match x with
  | .v r => readV t r.toNat lane
  | .k r => readK t r.toNat
  | .zero => 0
  | .special y => BitVec.ofNat 64 (specialVal s f t y lane)
  | .const n => constWord as n.toNat

/-- A float source in a lane, after its modifier (R24, R108). -/
def readFlt (s : State) (f : Nat) (t : Team) (fm : Fmt) (x : MSrc) (lane : Nat) : FV :=
  (fm.value ((readSrc s f t (.flt fm) x.src lane).toNat % 2 ^ fm.width)).modify x.mod

/-- An interval source in a lane, after its modifier (R119). -/
def readIv (s : State) (f : Nat) (t : Team) (x : MSrc) (lane : Nat) : Iv :=
  (Iv.ofWord (readSrc s f t .ivl x.src lane)).modify x.mod

/-- A lane's predicate: 0 false, 1 true, 2 undecided; p0 is true and 0b11 reads as undecided (R50, R68). -/
def readP (t : Team) (p lane : Nat) : BitVec 2 :=
  if p = 0 then 1
  else
    let x := tget t.p (laneKey p lane) 0
    if x = 3 then 2 else x

/-- Whether a sense passes a predicate value (R70). -/
def senseHolds (g : Sense) (x : BitVec 2) : Bool :=
  match g with
  | .isTrue => x == 1
  | .isFalse => x == 0
  | .isUndecided => x == 2
  | .notTrue => x != 1

/-- Whether a lane is active: its mask bit is set and its guard passes (R135). -/
def laneActive (t : Team) (h : Hdr) (lane : Nat) : Bool :=
  t.mask.getLsbD lane && senseHolds h.gs (readP t h.gp.toNat lane)

/-- The active lanes, ascending. -/
def activeLanes (t : Team) (h : Hdr) : List Nat := (List.range t.nlanes).filter fun l => laneActive t h l

/-- The lanes of the current mask, ascending. -/
def maskLanes (t : Team) : List Nat := (List.range t.nlanes).filter fun l => t.mask.getLsbD l

/-- A set of lanes from a list. -/
def laneSet (l : List Nat) : LaneSet := l.foldl (fun m i => m ||| BitVec.ofNat 1024 (2 ^ i)) 0

/-- The set of the lanes below n. -/
def allLanes (n : Nat) : LaneSet := BitVec.ofNat 1024 (2 ^ n - 1)

/-- The lanes of a warp. -/
def warpLanes (w : Nat) : List Nat := (List.range 32).map fun i => 32 * w + i

/-- The guard of a pair slot as a header (R29). -/
def slotHdr (sw : Bool) (g : SlotGuard) : Hdr :=
  match g with
  | .always => ⟨sw, 0, .isTrue⟩
  | .p1true => ⟨sw, 1, .isTrue⟩
  | .p2true => ⟨sw, 2, .isTrue⟩
  | .p1notTrue => ⟨sw, 1, .notTrue⟩

/-- The register of a source, if it names one. -/
def srcReg : Src → List Reg
  | .v r => [.v r.toNat]
  | .k r => [.k r.toNat]
  | _ => []

/-- The register of a destination. -/
def dstReg : Dst → Reg
  | .v r => .v r.toNat
  | .k r => .k r.toNat

/-- The registers of a list of sources. -/
def srcRegs (l : List Src) : List Reg := (l.map srcReg).flatten

/-- A predicate register. -/
def pReg (p : BitVec 4) : Reg := .p p.toNat

/-- A k register. -/
def kReg (k : BitVec 6) : Reg := .k k.toNat

/-- The registers of an optional uniform field. -/
def optKReg : Option (BitVec 6) → List Reg
  | none => []
  | some k => [kReg k]

/-- The four registers of a group (R211). -/
def groupRegs (g : BitVec 4) : List Reg := (List.range 4).map fun i => .k (4 * g.toNat + i)

/-- A tile descriptor register. -/
def tReg (t : BitVec 4) : Reg := .t t.toNat

/-- The F-form twin of a slot (R30, R158): the instruction whose effect, flags and lineage the slot has. -/
def slotTwin (sw : Bool) (x : Slot) : Instr :=
  let h := slotHdr sw x.args.g
  let d : Dst := .v x.args.d
  let dv : Src := .v x.args.d
  let b := x.args.b
  let ty := x.ty?.getD .s32
  let sat := x.args.cls.getLsbD 0
  let md : MSrc := ⟨.n, dv⟩
  let mb : MSrc := ⟨.n, b⟩
  let r := x.args.rnd
  match x.op with
  | .iadd => .iadd h ty sat d dv b
  | .isub => .isub h ty sat d dv b
  | .imul => .imul h ty sat d dv b
  | .imin => .imin h ty d dv b
  | .imax => .imax h ty d dv b
  | .land => .land h ty d dv b
  | .lor => .lor h ty d dv b
  | .lxor => .lxor h ty d dv b
  | .andn => .andn h ty d dv b
  | .shl => .shl h ty d dv b
  | .shr => .shr h ty d dv b
  | .sar => .sar h ty d dv b
  | .mov => .mov h ty d b
  | .popc => .popc h ty d b
  | .clz => .clz h ty d b
  | .brev => .brev h ty d b
  | .fadd => .fadd h ty r d md mb
  | .fsub => .fsub h ty r d md mb
  | .fmul => .fmul h ty r d md mb
  | .fmin => .fmin h ty d md mb
  | .fmax => .fmax h ty d md mb
  | .frcp => .frcp h r d mb
  | .frsq => .frsq h r d mb
  | .fsqrt => .fsqrt h ty r d mb
  | .fex2 => .fex2 h d mb
  | .flg2 => .flg2 h d mb
  | .cvtf => .cvtf h ty (match x.args.cls.toNat with
    | 0 => .f32
    | 1 => .f16
    | 2 => .bf16
    | _ => .f64) r d mb
  | .ivadd => .ivadd h d md mb
  | .ivsub => .ivsub h d md mb
  | .ivmul => .ivmul h d md mb
  | .ivhull => .ivhull h d md mb
  | .ivmeet => .ivmeet h sat d md mb

/-- The registers that a word of the F, I or B form names, without its guard: sources, then destinations (R145). The
token that tkchk reads is not among them (R233). -/
def plainNames : Instr → List Reg
  | .iadd _ _ _ d a b | .isub _ _ _ d a b | .imul _ _ _ d a b | .idiv _ _ _ d a b => srcRegs [a, b] ++ [dstReg d]
  | .imulh _ _ d a b | .imin _ _ d a b | .imax _ _ d a b | .land _ _ d a b | .lor _ _ d a b | .lxor _ _ d a b
  | .andn _ _ d a b | .shl _ _ d a b | .shr _ _ d a b | .sar _ _ d a b | .lea _ _ _ d a b => srcRegs [a, b] ++ [dstReg d]
  | .imad _ _ _ d a b c | .idp4 _ _ _ _ d a b c | .lut3 _ _ _ d a b c => srcRegs [a, b, c] ++ [dstReg d]
  | .imadw _ _ d a b c | .iclamp _ _ d a b c | .fshl _ _ d a b c | .bfx _ _ d a b c | .bfi _ _ d a b c
  | .bperm _ _ d a b c => srcRegs [a, b, c] ++ [dstReg d]
  | .iaddx _ _ _ ci d a b co =>
    srcRegs [a, b] ++ (match ci with
      | some p => [pReg p]
      | none => []) ++ [dstReg d, pReg co]
  | .iabs _ _ _ d a | .ineg _ _ _ d a | .cvti _ _ _ _ d a | .cvtif _ _ _ _ d a => srcReg a ++ [dstReg d]
  | .popc _ _ d a | .clz _ _ d a | .ctz _ _ d a | .brev _ _ d a | .mov _ _ d a => srcReg a ++ [dstReg d]
  | .icmp _ _ _ pd a b => srcRegs [a, b] ++ [pReg pd]
  | .sel _ _ _ d a b pc => srcRegs [a, b] ++ [pReg pc, dstReg d]
  | .fadd _ _ _ d a b | .fsub _ _ _ d a b | .fmul _ _ _ d a b | .fdiv _ _ _ d a b =>
    srcRegs [a.src, b.src] ++ [dstReg d]
  | .fmin _ _ d a b | .fmax _ _ d a b => srcRegs [a.src, b.src] ++ [dstReg d]
  | .ffma _ _ _ d a b c => srcRegs [a.src, b.src, c.src] ++ [dstReg d]
  | .fcmp _ _ _ pd a b | .ivcmp _ _ pd a b => srcRegs [a.src, b.src] ++ [pReg pd]
  | .frcp _ _ d a | .frsq _ _ d a | .fclass _ _ d a | .ivpt _ _ d a => srcReg a.src ++ [dstReg d]
  | .fsqrt _ _ _ d a | .cvtf _ _ _ _ d a | .cvtfi _ _ _ _ d a => srcReg a.src ++ [dstReg d]
  | .fex2 _ d a | .flg2 _ d a | .fsinpi _ d a | .fcospi _ d a | .ftanh _ d a => srcReg a.src ++ [dstReg d]
  | .fscale _ _ _ d a b => srcRegs [a.src, b] ++ [dstReg d]
  | .fdot2 _ _ _ d a b c => srcRegs [a, b, c.src] ++ [dstReg d]
  | .ivmake _ d a b | .ivadd _ d a b | .ivsub _ d a b | .ivmul _ d a b | .ivdiv _ d a b | .ivhull _ d a b
  | .ivmeet _ _ d a b => srcRegs [a.src, b.src] ++ [dstReg d]
  | .ivlo _ d a | .ivhi _ d a | .ivmid _ d a | .ivwid _ d a | .ivsqr _ d a | .ivsqrt _ d a | .ivrsqrt _ d a =>
    srcReg a.src ++ [dstReg d]
  | .ivfma _ d a b c => srcRegs [a.src, b.src, c.src] ++ [dstReg d]
  | .ivsplit _ d e a => srcReg a.src ++ [.v d.toNat, .v e.toNat]
  | .ivbis _ d a q tag pc => srcRegs [a.src, tag] ++ [kReg q, .v d.toNat, pReg pc]
  | .ret _ k => [kReg k]
  | .pand _ _ _ pd pa pb | .por _ _ _ pd pa pb => [pReg pa, pReg pb, pReg pd]
  | .pnot _ pd pa | .pdec _ _ pd pa => [pReg pa, pReg pd]
  | .pmov _ pd a => srcReg a ++ [pReg pd]
  | .pget _ d pa | .vote _ _ _ d pa => [pReg pa, dstReg d]
  | .shfl _ _ _ d a b pc => srcRegs [a, b] ++ [.v d.toNat, pReg pc]
  | .scan _ _ _ _ _ d a | .matchLanes _ _ d a => srcReg a ++ [.v d.toNat]
  | .redl _ _ _ _ d a => srcReg a ++ [dstReg d]
  | .push _ d a b => srcRegs [a, b] ++ [.v d.toNat]
  | .vget _ d k => [kReg k, .v d.toNat]
  | .vput _ a k => srcReg a ++ [kReg k]
  | .rand _ _ d => [.v d.toNat]
  | .rkey _ a b c => [kReg a, kReg b] ++ optKReg c
  | .rfork _ d a => [kReg a, .k (2 * d.toNat), .k (2 * d.toNat + 1)]
  | .vstag _ d a => [.v a.toNat, dstReg d]
  | .getc _ d _ => [dstReg d]
  | .setc _ _ a | .setcStream _ _ a | .setcFlags _ a | .setcBindctl _ a | .setcPassc _ a | .setcRatio _ a => srcReg a
  | .ld _ _ _ _ d a _ => srcReg a ++ [dstReg d]
  | .st _ _ _ _ a x _ => srcRegs [a, x]
  | .pref _ _ _ a _ => srcReg a
  | .cpy _ _ _ _ _ _ tok vm vs _ => [.v vm.toNat, .v vs.toNat, kReg tok]
  | .cpyt _ _ _ _ tok g tile _ => groupRegs g ++ [tReg tile, kReg tok]
  | .cpym _ _ _ tok g cmd _ => groupRegs g ++ [kReg cmd, kReg tok]
  | .cpys _ _ _ tok g a b _ => groupRegs g ++ [tReg a, tReg b, kReg tok]
  | .tkchk _ d _ => [dstReg d]
  | .lyset _ _ _ grp base _ => groupRegs grp ++ optKReg base
  | .tdesc _ t a b => kReg a :: optKReg b ++ [tReg t]
  | .mma _ _ _ a b | .mmab _ _ _ _ _ a b => [tReg a, tReg b]
  | .mdrain _ _ _ _ _ tok _ tile g =>
    (match g with
     | some x => groupRegs x
     | none => []) ++ [tReg tile, kReg tok]
  | .ocmp _ _ d x y | .rcomp _ d x y => [tReg x, tReg y, tReg d]
  | .rcount _ d a | .rclose _ _ d a | .rtrans _ d a => [tReg a, tReg d]
  | .qcvt _ k a m d q => [tReg a, tReg m, tReg d, kReg q, kReg k]
  | .qexp _ _ _ d a m q => [tReg a, tReg m, tReg d, kReg q]
  | .barMeet _ _ p | .barPost _ _ p => optKReg p
  | .atom _ _ _ _ _ _ d a b c => srcRegs ([a, b] ++ c.toList) ++ [dstReg d]
  | .launch _ tok q r => [kReg q, kReg r, kReg tok]
  | .lcount _ tok c => [kReg c, kReg tok]
  | .qwork _ g t i => [kReg t, kReg i] ++ groupRegs g
  | .pctlRd _ d a | .pctlResume _ d a | .pctlDrain _ d a | .pctlReset _ d a | .tmwait _ d a => [kReg a, dstReg d]
  | .pctlWr _ d a b | .pctlWrQcfg _ d a b | .pctlWrQuota _ d a b | .pctlWrIfneg _ d a b | .pctlWrPwstate _ d a b
  | .pctlWrPwcap _ d a b | .pctlWrFwin _ d a b => [kReg a, kReg b, dstReg d]
  | .pctlPreempt _ d a b | .pctlTlbi _ d a b => kReg a :: optKReg b ++ [dstReg d]
  | .tget _ d pc => [dstReg d, pReg pc]
  | .coll _ tok a => [kReg a, kReg tok]
  | .seal _ tok a b | .sealOpen _ tok a b => [kReg a, kReg b, kReg tok]
  | .movi _ d _ => [dstReg d]
  | .movhi _ d a _ | .iaddi _ d a _ | .iandi _ d a _ | .iori _ d a _ | .ixori _ d a _ | .imuli _ d a _ =>
    srcReg a ++ [dstReg d]
  | .icmpi _ _ pd a _ => srcReg a ++ [pReg pd]
  | .call _ k _ | .brt _ k _ | .loop _ k _ => [kReg k]
  | _ => []

/-- What the form of a word shares; none for pairs and events (R17). -/
def hdrOf (i : Instr) : Option Hdr := i.fields.map (·.h)

/-- The registers that a word names, its guard among them (R145). -/
def namesOf (i : Instr) : List Reg :=
  match i.slots with
  | some (sw, x, y) =>
    let one := fun z => plainNames (slotTwin sw z) ++ [Reg.p (slotHdr sw z.args.g).gp.toNat]
    one x ++ one y
  | none =>
    match hdrOf i with
    | some h => plainNames i ++ [Reg.p h.gp.toNat]
    | none => []

/-- Whether a word names a v register whose index is not below .regs (R21). -/
def namesBadV (regs : Nat) (i : Instr) : Bool :=
  (namesOf i).any fun r =>
    match r with
    | .v n => decide (regs ≤ n)
    | _ => false

end Sys2Proof.Machine
end

