-- ==== Sys2Proof/Machine/Cache.lean ====
section
/-! DEFINITION. The stores between a cluster and its memory: the L1 (R202 to R206, R322, R323), the LLC's bookkeeping
(R399), home reads and writes with the error rules of R382 to R384, and scratchpad reads and writes with those of R296
and R297. -/

namespace Sys2Proof.Machine

-- ===== the L1 =====

/-- The slice and set of a line number (R202). -/
def l1Set (line : Nat) : Nat := line % 6 * 64 + line / 6 % 64

/-- Whether a line is a sealed line of another package, which neither ages nor falls to acquires (R441). -/
def L1Line.kept (l : L1Line) : Bool := l.remote.isSome && l.ver != 0

/-- Whether a line is still valid: lines of .cn and sealed lines of another package do not age (R323, R441). -/
def l1Valid (s : State) (l : L1Line) : Bool := l.cn || l.kept || decide (s.cycle < l.filled + 4096)

/-- The line of a partition's lookup: local or of another package, under its sealed version (R203, R441). DESIGN CHOICE: a
line that ld.cn filled and one of the same address that a .gl or .vt access filled are two lines, since only the second
ages (log 70). -/
def l1Find (s : State) (cl partition : Nat) (remote : Option Nat) (line ver : Nat) (cn : Bool) : Option L1Line :=
  (s.cluster cl).l1.find? fun l =>
    l.partition == partition && l.remote == remote && l.line == line && l.ver == ver && l.cn == cn && l1Valid s l

/-- Two lines are one in the slice: same address, filler and tag. -/
def L1Line.same (a b : L1Line) : Bool :=
  a.line == b.line && a.partition == b.partition && a.remote == b.remote && a.win == b.win && a.ver == b.ver && a.cn == b.cn

/-- The lines of a cluster with one changed. -/
def l1Put (s : State) (cl : Nat) (l : L1Line) : State :=
  let c := s.cluster cl
  s.setCluster cl { c with l1 := c.l1.filter (fun x => !x.same l) ++ [l] }

/-- The least recent line of a list; the last of those that `.stream` filled, each of which was filled as least recent
(R205). -/
def l1Oldest (l : List L1Line) : Option L1Line :=
  l.foldl (fun (m : Option L1Line) x =>
    match m with
    | none => some x
    | some y => if x.recency ≤ y.recency then some x else some y) none

/-- A hit under a hint (R205). -/
def l1Touch (s : State) (cl : Nat) (l : L1Line) (h : Hint) : State :=
  match h with
  | .none => { l1Put s cl { l with recency := s.seq + 1 } with seq := s.seq + 1 }
  | .keep => { l1Put s cl { l with recency := s.seq + 1, keep := true } with seq := s.seq + 1 }
  | .stream | .bypass => s

/-- Whether a partition is the only one with a resident block on a cluster, which gives it every L1 way and every
scoreboard entry (R203, R219). A saved block is not resident (R368). DEDUCED: a partition whose quota gives it a range there but
which has no unsaved block on the cluster does not count (log 85). -/
def aloneOn (s : State) (cl partition : Nat) : Bool :=
  let here := s.blocks.filter fun e => e.2.cluster == cl && !e.2.saved
  here.any (fun e => e.2.partition == partition) && here.all fun e => e.2.partition == partition

/-- The L1 ways of a quota's range (R397). -/
def Quota.ways (q : Quota) : List Nat := (List.range q.l1cnt).map fun i => q.l1base + i

/-- The L1 ways of each set that a partition may use on a cluster (R203). -/
def l1Ways (s : State) (cl partition : Nat) : List Nat :=
  if aloneOn s cl partition then List.range 8 else (s.partition partition).quota.ways

/-- The next victim among some lines: the least recent, a protected one only where all are protected (R205). -/
def l1Victim (l : List L1Line) : Option L1Line :=
  let open' := l.filter fun x => !x.keep
  if open'.isEmpty then l1Oldest l else l1Oldest open'

/-- The way that a fill takes among those that its partition may use in a set: the lowest that holds no line, else that of the
least recently used line in them, whichever partition filled it while the ways were its own (R202, R203, R205). -/
def l1Way (ways : List Nat) (set : List L1Line) : Option Nat :=
  match ways.find? fun w => !set.any fun x => x.way == w with
  | some w => some w
  | none => (l1Victim (set.filter fun x => ways.contains x.way)).map (·.way)

/-- A fill under a hint (R203, R205). -/
def l1Fill (s : State) (cl : Nat) (l : L1Line) (h : Hint) : State :=
  let c := s.cluster cl
  let others := c.l1.filter fun x => !x.same l
  let inSet := fun (x : L1Line) => l1Set x.line == l1Set l.line
  match if h == .bypass then none else l1Way (l1Ways s cl l.partition) (others.filter inSet) with
  | none => s
  | some w =>
    let rest := others.filter fun x => !(inSet x && x.way == w)
    { s.setCluster cl { c with l1 := rest ++ [{ l with recency := if h == .stream then 0 else s.seq + 1, way := w,
                                                       keep := h == .keep, filled := s.cycle }] } with seq := s.seq + 1 }

/-- Lines of a cluster dropped. -/
def l1Drop (s : State) (cl : Nat) (drop : L1Line → Bool) : State :=
  let c := s.cluster cl
  s.setCluster cl { c with l1 := c.l1.filter fun x => !drop x }

/-- Lines of every cluster dropped. -/
def l1DropAll (s : State) (drop : L1Line → Bool) : State :=
  { s with clusters := teach s.clusters (fun c => { c with l1 := c.l1.filter fun x => !drop x }) {} }

/-- An acquire at .sheet or wider invalidates the partition's .gl and .vt lines in the cluster; sealed lines of another
package and .cn lines stay (R329, R441). -/
def acquireInvalidate (s : State) (cl partition : Nat) : State :=
  l1Drop s cl fun l => l.partition == partition && !l.cn && !l.kept

/-- The bytes of a line at home, by offset. -/
def lineBytes (s : State) (line : Nat) : Tab Byte :=
  (s.mem.filter fun e => e.1 / 256 == line).map fun e => (e.1 % 256, e.2)

/-- Whether a line holds a lost block. -/
def lineLost (s : State) (line : Nat) : Bool := s.lost.any fun b => b / 8 == line

-- ===== the LLC =====

/-- The sets of an LLC slice: 1536 MiB in 16 ways of 256-byte lines (R3, R397). -/
def llcSets : Nat := 393216

/-- Two LLC lines lie in one set of one slice. The set that a line indexes is free (log 22). -/
def LlcLine.sameSet (a b : LlcLine) : Bool :=
  a.die == b.die && Config.llcSet a.line % llcSets == Config.llcSet b.line % llcSets

/-- Two LLC lines are one: same address and owner. -/
def LlcLine.same (a b : LlcLine) : Bool := a.line == b.line && a.owner == b.owner && a.remote == b.remote && a.ver == b.ver &&
  a.win == b.win && a.filler == b.filler

/-- The owner of the ways that a fill takes: the partition, or the shared group 8 for a shared sealed page (R399). -/
def llcOwner (partition : Nat) (shared : Bool) : Nat := if shared then 8 else partition

/-- The LLC ways of each set that an owner holds (R397). -/
def llcWays (s : State) (owner : Nat) : List Nat :=
  let q := (s.partition owner).quota
  if owner = 8 then (List.range s.shrWcnt).map fun i => s.shrWbase + i else (List.range q.wcnt).map fun i => q.wbase + i

/-- The next victim among some LLC lines (R205, R228). -/
def llcVictim (l : List LlcLine) : Option LlcLine :=
  let open' := l.filter fun x => !x.keep
  (if open'.isEmpty then l else open').foldl (fun (m : Option LlcLine) x =>
    match m with
    | none => some x
    | some y => if x.recency ≤ y.recency then some x else some y) none

/-- The way that a fill takes among its owner's in a set of the LLC: the lowest that holds no line, else the next victim's
(R399). -/
def llcWay (ways : List Nat) (set : List LlcLine) : Option Nat :=
  match ways.find? fun w => !set.any fun x => x.way == w with
  | some w => some w
  | none => (llcVictim (set.filter fun x => ways.contains x.way)).map (·.way)

/-- A line that an access reaches in the LLC, under a hint: a hit takes the age that the hint gives, a miss fills, within the
ways of the line's owner, and evicts there (R205, R228, R399). -/
def llcPut (s : State) (l : LlcLine) (h : Hint) : State :=
  let ways := llcWays s l.owner
  if ways.isEmpty then s
  else
    match s.llc.find? l.same with
    | some x =>
      let y := { x with dirty := x.dirty || l.dirty, data := l.data
                        recency := if h == .stream || h == .bypass then x.recency else s.seq + 1
                        keep := x.keep || h == .keep }
      { s with llc := s.llc.filter (fun z => !z.same l) ++ [y], seq := s.seq + 1 }
    | none =>
      match if h == .bypass then none else llcWay ways (s.llc.filter fun x => x.sameSet l) with
      | none => s
      | some w =>
        { s with llc := s.llc.filter (fun z => !(z.sameSet l && z.way == w)) ++
                   [{ l with recency := if h == .stream then 0 else s.seq + 1, way := w, keep := h == .keep }]
                 seq := s.seq + 1 }

/-- An access to an LPDDR6 line reaches its home slice, in the ways of the partition, or of the shared group for a
shared sealed page; a partition without ways is not cached (R399). The hint is that of a store or drain (R228). -/
def llcTouch (s : State) (partition pa : Nat) (dirty shared : Bool) (h : Hint := .none) : State :=
  match memRange pa with
  | some (.lpddr, _) =>
    llcPut s { die := homeDie pa, line := pa / 256, owner := llcOwner partition shared, dirty, recency := 0 } h
  | _ => s

-- ===== home reads and writes =====

/-- What a read of memory gives: the state after it, the value, and whether a block of it is lost. -/
structure ReadRes where
  s : State
  value : Nat
  lost : Bool

/-- A read of n bytes of home memory by a partition in a cluster, through its L1 (R202 to R205, R322, R384). A fill reads
the whole line, and meets the errors of its other blocks too (R382); a line that holds a lost block is not filled. -/
def cachedRead (s : State) (cl partition pa n : Nat) (h : Hint) (cn : Bool) (ver va : Nat) (shared : Bool := false) : ReadRes :=
  match l1Find s cl partition none (pa / 256) ver cn with
  | some l => ⟨l1Touch s cl l h, bytesGet l.data (pa % 256) n, false⟩
  | none =>
    let (s1, bad) := readBlocks s pa n partition va
    if bad then ⟨s1, 0, true⟩
    else
      let v := memGet s1 pa n
      let s1 := if h == .bypass then s1 else (readBlocks s1 (pa / 256 * 256) 256 partition (va / 256 * 256)).1
      let s2 := llcTouch s1 partition pa false shared
      if lineLost s2 (pa / 256) then ⟨s2, v, false⟩
      else
        let l : L1Line := { line := pa / 256, partition, remote := none, ver, cn, filled := 0, keep := false, recency := 0,
                            data := lineBytes s2 (pa / 256) }
        ⟨l1Fill s2 cl l h, v, false⟩

/-- The distinct blocks of a size that a list of addressed bytes touches. -/
def blocksOf (size : Nat) (ws : List (Nat × Byte)) : List Nat := (ws.map (·.1 / size)).eraseDups

/-- How many distinct bytes of a block a list writes. -/
def coverage (size b : Nat) (ws : List (Nat × Byte)) : Nat :=
  ((ws.filter fun w => w.1 / size == b).map (·.1)).eraseDups.length

/-- The bytes of a number, at addresses from a up. -/
def toBytes (a x n : Nat) : List (Nat × Byte) := (List.range n).map fun i => (a + i, BitVec.ofNat 8 (x / 256 ^ i))

/-- A table of bytes with a list applied in order. -/
def putBytes (m : Tab Byte) (ws : List (Nat × Byte)) : Tab Byte := ws.foldl (fun m w => tset m w.1 w.2 0) m

/-- The stores of a cluster, to this package or to another, reach the lines of their partition that hold their bytes, when
the home acknowledges them (R204, R322, R440). -/
def l1StoreAt (s : State) (cl partition : Nat) (remote : Option Nat) (ws : List (Nat × Byte)) : State :=
  let c := s.cluster cl
  let upd := fun (l : L1Line) =>
    if l.partition == partition && l.remote == remote then
      { l with data := putBytes l.data ((ws.filter fun w => w.1 / 256 == l.line).map fun w => (w.1 % 256, w.2)) }
    else l
  s.setCluster cl { c with l1 := c.l1.map upd }

/-- The stores of a cluster to this package reach its lines. -/
def l1Store (s : State) (cl partition : Nat) (ws : List (Nat × Byte)) : State := l1StoreAt s cl partition none ws

/-- A write of addressed bytes to home memory by a partition in a cluster. A block that is written whole ceases to be
lost; one written in part is read first, and where it is lost none of it is written (R382, R384). `va` gives the virtual
address that a block is met at, `h` the hint that sets the age of its LLC lines (R228). Gives the blocks that were not written. -/
def homeWriteHint (s : State) (cl partition : Nat) (ws : List (Nat × Byte)) (va : Nat → Nat) (h : Hint) : State × List Nat :=
  let go := fun (r : State × List Nat) (b : Nat) =>
    if coverage 32 b ws = 32 then (clearBlock r.1 b, r.2)
    else
      let (s', bad) := readBlock r.1 b partition (va b)
      (s', if bad then r.2 ++ [b] else r.2)
  let (s1, bad) := (blocksOf 32 ws).foldl go (s, [])
  let ok := ws.filter fun w => !bad.contains (w.1 / 32)
  let s2 := { s1 with mem := putBytes s1.mem ok }
  let s3 := l1Store s2 cl partition ok
  ((blocksOf 256 ok).foldl (fun s line => llcTouch s partition (line * 256) true false h) s3, bad)

/-- Such a write under no hint. -/
def homeWriteAt (s : State) (cl partition : Nat) (ws : List (Nat × Byte)) (va : Nat → Nat) : State × List Nat :=
  homeWriteHint s cl partition ws va .none

/-- The virtual address at which a run of bytes that begins at va, in one 64 KiB page, meets an error block (R385). -/
def blockVa (va b : Nat) : Nat :=
  let x := va / 65536 * 65536 + 32 * b % 65536
  if x ≤ va ∧ va < x + 32 then va else x

/-- Such a write of a run that begins at a virtual address, in one 64 KiB page. -/
def homeWrite (s : State) (cl partition : Nat) (ws : List (Nat × Byte)) (va : Nat) : State × List Nat :=
  homeWriteAt s cl partition ws (blockVa va)

/-- A store of one access: all of it, or nothing where a block of it is lost. -/
def homeStore (s : State) (cl partition pa x n va : Nat) : State × Bool :=
  let (s', bad) := homeWrite s cl partition (toBytes pa x n) va
  (s', bad.isEmpty)

/-- Whether two spans of bytes overlap. -/
def spansMeet (a n b m : Nat) : Bool := decide (a < b + m) && decide (b < a + n)

-- ===== the scratchpad =====

/-- A scratchpad bank word read by any access: its single-bit error is corrected, an error that fails twice poisons the
word (R296). -/
def spCheck (s : State) (cl word : Nat) : State × Bool :=
  let c := s.cluster cl
  if c.spPoison.contains word then (s, true)
  else
    match tfind c.spLatent word with
    | none => (s, false)
    | some k =>
      let s' := s.setCluster cl { c with spLatent := tdel c.spLatent word }
      (match k with
       | .single => (countCorr s' (cl / 64), false)
       | .transient => (countTrans s' (cl / 64), false)
       | .lasting =>
         let c' := s'.cluster cl
         (countLast (s'.setCluster cl { c' with spPoison := c'.spPoison ++ [word] }) (cl / 64), true))

/-- The bank words that n bytes from a scratchpad address touch. -/
def spWords (a n : Nat) : List Nat := (List.range ((a % 8 + n + 7) / 8)).map fun i => a / 8 + i

/-- A read of n scratchpad bytes: the value, and the poisoned words it met. -/
def spRead (s : State) (cl a n : Nat) : State × Nat × List Nat :=
  let (s', bad) := (spWords a n).foldl
    (fun (r : State × List Nat) w =>
      let (s', b) := spCheck r.1 cl w
      (s', if b then r.2 ++ [w] else r.2)) (s, [])
  (s', bytesGet (s'.cluster cl).sp a n, bad)

/-- A write of addressed scratchpad bytes: a word written whole loses its poison; of a poisoned word written in part
nothing is written (R296, R297). Gives the words that were not written. -/
def spWrite (s : State) (cl : Nat) (ws : List (Nat × Byte)) : State × List Nat :=
  let go := fun (r : State × List Nat) (w : Nat) =>
    if coverage 8 w ws = 8 then
      let c := r.1.cluster cl
      (r.1.setCluster cl { c with spPoison := c.spPoison.filter (· != w), spLatent := tdel c.spLatent w }, r.2)
    else
      let (s', b) := spCheck r.1 cl w
      (s', if b then r.2 ++ [w] else r.2)
  let (s1, bad) := (blocksOf 8 ws).foldl go (s, [])
  let c := s1.cluster cl
  (s1.setCluster cl { c with sp := putBytes c.sp (ws.filter fun w => !bad.contains (w.1 / 8)) }, bad)

/-- Rows of a scratchpad scrubbed to zero, clearing their poison (R201, R298). -/
def spScrub (s : State) (cl base rows : Nat) : State :=
  let c := s.cluster cl
  let inside := fun (a : Nat) => base * 256 ≤ a && a < (base + rows) * 256
  s.setCluster cl { c with sp := c.sp.filter fun e => !inside e.1
                           spPoison := c.spPoison.filter fun w => !inside (w * 8)
                           spLatent := c.spLatent.filter fun e => !inside (e.1 * 8) }

/-- Rows of a window that fail the read-back of its scrub (R298): whether a bank word that was poisoned, or holds an error
that no read has met and that a retry does not clear, still fails after the write of zero is free (log 5). -/
def badRows (s : State) (cl base rows : Nat) : State × List Nat :=
  let c := s.cluster cl
  let words := (c.spPoison ++ (c.spLatent.filter fun e => decide (e.2 = .lasting)).map (·.1)).filter fun w =>
    decide (base ≤ w / 32 ∧ w / 32 < base + rows)
  let q := words.foldl (fun (r : State × List Nat) w =>
    ({ r.1 with freeCtr := r.1.freeCtr + 1 }, if Config.freeBit r.1.freeCtr then r.2 ++ [w / 32] else r.2)) (s, [])
  (q.1, q.2.eraseDups)

end Sys2Proof.Machine
end

