-- ==== Sys2Proof/Machine/Tiles.lean ====
section
/-! DEFINITION. What describes data to the engines: tile descriptors and their canonical layout (R207 to R209, R250,
R251), bit-plane groups (R71, R72), layout records and boxes (R210 to R212, R240 to R242), and the range scoreboard
(R213 to R218). -/

namespace Sys2Proof.Machine

-- ===== tiles =====

/-- The element formats of a tile (R208). -/
inductive TFmt where
  | f16 | bf16 | f32 | s32 | iv | bp | rel
deriving DecidableEq, Repr

/-- The format of a code (R208). -/
def TFmt.ofCode : Nat → Option TFmt
  | 0 => some .f16
  | 1 => some .bf16
  | 2 => some .f32
  | 3 => some .s32
  | 4 => some .iv
  | 5 => some .bp
  | 6 => some .rel
  | _ => none

/-- Bits of an element (R208). -/
def TFmt.bits : TFmt → Nat
  | .f16 | .bf16 => 16
  | .f32 | .s32 => 32
  | .iv => 64
  | .bp => 8
  | .rel => 1

/-- The fields of a tile descriptor (R207). -/
structure Tile where
  base : Nat
  code : Nat
  rows : Nat
  cols : Nat
  pitch : Nat
  resv : Nat
deriving DecidableEq, Repr

/-- A descriptor's fields (R207). -/
def Tile.ofWord (w : Word) : Tile :=
  let x := w.toNat
  { base := natBits x 13 0, code := natBits x 17 14, rows := natBits x 25 18, cols := natBits x 33 26,
    pitch := natBits x 47 34, resv := natBits x 63 48 }

/-- The format of a tile; that of an unassigned code never matters, since the tile is invalid. -/
def Tile.fmt (t : Tile) : TFmt := (TFmt.ofCode t.code).getD .f32

/-- Whether the tile holds bit planes. -/
def Tile.isBp (t : Tile) : Bool := t.fmt == .bp

/-- Scratchpad rows of one tile row (R208). -/
def Tile.span (t : Tile) : Nat := (t.cols * t.fmt.bits + 2047) / 2048

/-- Rows of the scale tile of a .bp tile (R251). -/
def Tile.scaleRows (t : Tile) : Nat := if t.isBp then (t.rows * t.cols + 8191) / 8192 else 0

/-- The conditions of R209 on fmt, rows, cols and the reserved bits. -/
def Tile.shapeOk (t : Tile) : Bool :=
  (TFmt.ofCode t.code).isSome && decide (1 ≤ t.rows ∧ t.rows ≤ 128 ∧ 1 ≤ t.cols ∧ t.cols ≤ 128) && t.resv == 0 &&
  (match t.fmt with
   | .bp => t.cols % 64 == 0
   | .rel => t.cols % 8 == 0
   | _ => true)

/-- A valid descriptor in a window of w rows (R209, R251). -/
def Tile.ok (t : Tile) (w : Nat) : Bool :=
  t.shapeOk && (decide (t.pitch ≥ t.span) || t.rows == 1) &&
  decide (t.base + (t.rows - 1) * t.pitch + t.span + t.scaleRows ≤ w)

/-- The window offset of a tile row (R250). -/
def Tile.rowAt (t : Tile) (i : Nat) : Nat := (t.base + i * t.pitch) * 256

/-- The window offset of the scale of group g of row i (R251). -/
def Tile.scaleAt (t : Tile) (i g : Nat) : Nat :=
  (t.base + (t.rows - 1) * t.pitch + t.span) * 256 + 2 * (i * (t.cols / 64) + g)

/-- Bytes of one tile row. -/
def Tile.rowBytes (t : Tile) : Nat := t.cols * t.fmt.bits / 8

/-- The hull of a tile in window bytes, from its first byte to its last (R214, R251). -/
def Tile.hull (t : Tile) : Nat × Nat :=
  (t.rowAt 0, if t.isBp then t.scaleAt (t.rows - 1) (t.cols / 64 - 1) + 2 else t.rowAt (t.rows - 1) + t.rowBytes)

/-- Window bytes [a, b) as granules of scratchpad (R214), for a window whose first row is w0. -/
def granules (w0 : Nat) (ab : Nat × Nat) : Interval := ⟨(256 * w0 + ab.1) / 32, (256 * w0 + ab.2 + 31) / 32⟩

/-- The scratchpad interval of a tile. -/
def Tile.interval (w0 : Nat) (t : Tile) : Interval := granules w0 t.hull

/-- The scratchpad bank words that a tile's elements and scales occupy. -/
def Tile.words (w0 : Nat) (t : Tile) : List Nat :=
  let row := fun i => spWords (256 * w0 + t.rowAt i) t.rowBytes
  let sc := if t.isBp then spWords (256 * w0 + t.scaleAt 0 0) (2 * (t.rows * (t.cols / 64))) else []
  (List.range t.rows).flatMap row ++ sc

/-- The raw bits of element j of tile row i, for every format but .bp (R250). -/
def Tile.elem (sp : Tab Byte) (w0 : Nat) (t : Tile) (i j : Nat) : Nat :=
  let a := 256 * w0 + t.rowAt i
  match t.fmt with
  | .rel => (tget sp (a + j / 8) 0).toNat / 2 ^ (j % 8) % 2
  | f => bytesGet sp (a + j * (f.bits / 8)) (f.bits / 8)

/-- Bit k of the value of element e of a group whose 64 bytes begin at an address, plane 7 − k (R71). -/
def planeBit (b : Nat → Nat) (e k : Nat) : Nat := b (8 * (7 - k) + e / 8) / 2 ^ (e % 8) % 2

/-- The 8-bit value q of element e of a group, from its bytes (R71). -/
def groupValue (b : Nat → Nat) (e : Nat) : Int :=
  signedOf 8 ((List.range 8).foldl (fun x k => x + planeBit b e k * 2 ^ k) 0)

/-- Byte n of a group from its values (R71). -/
def groupByte (q : Nat → Int) (n : Nat) : Nat :=
  (List.range 8).foldl (fun x m => x + wrapNat 8 (q (8 * (n % 8) + m)) / 2 ^ (7 - n / 8) % 2 * 2 ^ m) 0

/-- The value q of element j of row i of a .bp tile. -/
def Tile.q (sp : Tab Byte) (w0 : Nat) (t : Tile) (i j : Nat) : Int :=
  groupValue (fun n => (tget sp (256 * w0 + t.rowAt i + 64 * (j / 64) + n) 0).toNat) (j % 64)

/-- The scale pattern of element j's group in row i of a .bp tile. -/
def Tile.scale (sp : Tab Byte) (w0 : Nat) (t : Tile) (i j : Nat) : Nat :=
  bytesGet sp (256 * w0 + t.scaleAt i (j / 64)) 2

/-- The integer part of a read of p planes (R72). -/
def planesRead (q : Int) (p : Nat) (ctr : Bool) : Int :=
  q / (2 ^ (8 - p) : Nat) * (2 ^ (8 - p) : Nat) + (if ctr && p < 8 then (2 ^ (7 - p) : Nat) else 0)

/-- An integer as an exact float value. -/
def intFV (x : Int) : FV := .fin (decide (x < 0)) x.natAbs 0

/-- The bytes of tile row i, addressed in scratchpad, from its elements' raw bits, or q values for .bp (R250). -/
def Tile.rowOut (w0 : Nat) (t : Tile) (i : Nat) (val : Nat → Nat) : List (Nat × Byte) :=
  let a := 256 * w0 + t.rowAt i
  match t.fmt with
  | .rel => (List.range (t.cols / 8)).map fun n =>
      (a + n, BitVec.ofNat 8 ((List.range 8).foldl (fun x m => x + val (8 * n + m) % 2 * 2 ^ m) 0))
  | .bp => (List.range t.cols).map fun n =>
      (a + n, BitVec.ofNat 8 (groupByte (fun e => (val (64 * (n / 64) + e) : Int)) (n % 64)))
  | f => (List.range t.cols).flatMap fun j => toBytes (a + j * (f.bits / 8)) (val j) (f.bits / 8)

/-- The bytes of a whole tile. -/
def Tile.out (w0 : Nat) (t : Tile) (val : Nat → Nat → Nat) : List (Nat × Byte) :=
  (List.range t.rows).flatMap fun i => t.rowOut w0 i (val i)

/-- The scale bytes of a .bp tile. -/
def Tile.scaleOut (w0 : Nat) (t : Tile) (sc : Nat → Nat → Nat) : List (Nat × Byte) :=
  (List.range t.rows).flatMap fun i => (List.range (t.cols / 64)).flatMap fun g => toBytes (256 * w0 + t.scaleAt i g) (sc i g) 2

-- ===== layout records =====

/-- The storage formats (R210). -/
inductive EFmt where
  | f16 | bf16 | f32 | f64 | s8 | n8 | s32 | iv | bp
deriving DecidableEq, Repr

/-- The storage format of a code (R210). -/
def EFmt.ofCode : Nat → Option EFmt
  | 0 => some .f16
  | 1 => some .bf16
  | 2 => some .f32
  | 3 => some .f64
  | 4 => some .s8
  | 5 => some .n8
  | 6 => some .s32
  | 7 => some .iv
  | 8 => some .bp
  | _ => none

/-- Bytes of a stored element; of a group for .bp. -/
def EFmt.bytes : EFmt → Nat
  | .s8 | .n8 => 1
  | .f16 | .bf16 => 2
  | .f32 | .s32 => 4
  | .f64 | .iv => 8
  | .bp => 64

/-- A layout record and the mutable part of its operand (R210, R211): the box that a copy moves. Extents of dimensions
at and above the rank read as 1 and their offsets as 0. -/
structure Layout where
  version : Nat
  efmt : Nat
  rank : Nat
  pad : Nat
  resv : Bool
  fill : Nat
  stride : Nat → Int
  base : Nat
  extent : Nat → Nat
  off : Nat → Int

/-- A record and its four uniform registers, with an offset added to the base (R210, R211, R224). -/
def Layout.of (rec : Nat) (k0 k1 k2 k3 : Word) (add : Int) : Layout :=
  let rank := natBits rec 23 16
  let low := fun (d : Nat) => decide (d < rank)
  { version := natBits rec 7 0, efmt := natBits rec 15 8, rank, pad := natBits rec 31 24
    resv := natBits rec 63 32 != 0 || natBits rec 511 320 != 0
    fill := natBits rec 127 64
    stride := fun d => if d = 0 then 0 else signedOf 64 (natBits rec (127 + 64 * d) (64 + 64 * d))
    base := wrapNat 64 ((k0.toNat : Int) + add)
    extent := fun d =>
      if !low d then 1
      else match d with
        | 0 => natBits k1.toNat 31 0
        | 1 => natBits k1.toNat 63 32
        | 2 => natBits k2.toNat 15 0
        | _ => natBits k2.toNat 31 16
    off := fun d =>
      if !low d then 0
      else match d with
        | 0 => signedOf 32 (natBits k3.toNat 31 0)
        | 1 => signedOf 32 (natBits k3.toNat 63 32)
        | 2 => signedOf 16 (natBits k2.toNat 47 32)
        | _ => signedOf 16 (natBits k2.toNat 63 48) }

/-- The storage format of a layout. -/
def Layout.fmt (l : Layout) : EFmt := (EFmt.ofCode l.efmt).getD .f32

/-- The index of box element (j1, j0) in a dimension (R212). -/
def Layout.index (l : Layout) (j1 j0 : Int) (d : Nat) : Int :=
  l.off d + (if d = 0 then j0 else if d = 1 then j1 else 0)

/-- Whether a box element is in bounds in every dimension (R212). -/
def Layout.inside (l : Layout) (j1 j0 : Int) : Bool :=
  (List.range 4).all fun d => decide (0 ≤ l.index j1 j0 d ∧ l.index j1 j0 d < (l.extent d : Int))

/-- The address of the element at an index (R212, R242): for .bp that of its group, for one-bit elements that of its
byte. -/
def Layout.addrAt (l : Layout) (oneBit : Bool) (i : Nat → Int) : Nat :=
  let x0 := match l.fmt with
    | .bp => i 0 / 64 * 64
    | f => if oneBit then i 0 / 8 else i 0 * (f.bytes : Int)
  let x3 := if l.fmt == .bp then 0 else i 3 * l.stride 3
  wrapNat 64 ((l.base : Int) + x0 + i 1 * l.stride 1 + i 2 * l.stride 2 + x3)

/-- The address of an in-bounds box element. -/
def Layout.addr (l : Layout) (oneBit : Bool) (j1 j0 : Int) : Nat := l.addrAt oneBit (l.index j1 j0)

/-- The address of the scale of a .bp box element's group (R242). -/
def Layout.scaleAddr (l : Layout) (j1 j0 : Int) : Nat :=
  wrapNat 64 ((l.base : Int) + l.stride 3 + 2 * (l.index j1 j0 0 / 64) + l.index j1 j0 1 * l.stride 1 / 32 +
    l.index j1 j0 2 * l.stride 2 / 32)

/-- The rules of R212 and R242 that need no tile: whether the layout is well formed for one-bit elements or others. -/
def Layout.wellFormed (l : Layout) (oneBit : Bool) : Bool :=
  let f := l.fmt
  let size : Int := f.bytes
  l.version == 1 && (EFmt.ofCode l.efmt).isSome && decide (1 ≤ l.rank ∧ l.rank ≤ 4) && decide (l.pad ≤ 2) && !l.resv &&
  l.base % f.bytes == 0 &&
  (if f == .bp then
     decide (l.rank ≤ 3) && l.off 0 % 64 == 0 && l.extent 0 % 64 == 0 && l.pad != 1 &&
     (List.range 2).all fun d => decide (l.rank ≤ d + 1) || l.stride (d + 1) % 64 == 0
   else
     (List.range 3).all fun d => decide (l.rank ≤ d + 1) || l.stride (d + 1) % size == 0) &&
  (!oneBit || l.off 0 % 8 == 0)

/-- Whether a storage format and a tile format form a pair of R240. -/
def pairOk (e : EFmt) (t : TFmt) : Bool :=
  match e, t with
  | .f16, .f16 | .f16, .f32 | .bf16, .bf16 | .bf16, .f32 | .f32, .f32 | .f32, .f16 | .f32, .bf16 | .f64, .f32
  | .s8, .s32 | .n8, .s32 | .s32, .s32 | .iv, .iv | .bp, .bp | .n8, .rel => true
  | _, _ => false

/-- A value written in another format, and whether it was rounded (R240). A NaN is not counted. -/
def refloat (src dst : Fmt) (x : Nat) : Nat × Bool :=
  match src.value x with
  | .fin s m e => let r := dst.round .rne s m e false; (r.1, r.2 != 0)
  | v => (dst.pattern v, false)

/-- Storage to tile (R240): the element's bits, whether it was rounded, and whether it became NaI. -/
def loadConv (e : EFmt) (t : TFmt) (x : Nat) : Nat × Bool × Bool :=
  match e, t with
  | .f16, .f32 => let r := refloat .f16 .f32 x; (r.1, r.2, false)
  | .bf16, .f32 => let r := refloat .bf16 .f32 x; (r.1, r.2, false)
  | .f32, .f16 => let r := refloat .f32 .f16 x; (r.1, r.2, false)
  | .f32, .bf16 => let r := refloat .f32 .bf16 x; (r.1, r.2, false)
  | .f64, .f32 => let r := refloat .f64 .f32 x; (r.1, r.2, false)
  | .f16, _ => ((refloat .f16 .f16 x).1, false, false)
  | .bf16, _ => ((refloat .bf16 .bf16 x).1, false, false)
  | .f32, _ => ((refloat .f32 .f32 x).1, false, false)
  | .s8, .s32 => (wrapNat 32 (signedOf 8 x), false, false)
  | .iv, _ =>
    match Iv.ofWord (BitVec.ofNat 64 x) with
    | .illFormed => (naiWord.toNat, false, true)
    | .nai => (naiWord.toNat, false, false)
    | _ => (x, false, false)
  | _, _ => (x, false, false)

/-- Tile to storage (R240): the element's bits, whether it was rounded or saturated, and whether it became NaI. -/
def storeConv (e : EFmt) (t : TFmt) (x : Nat) : Nat × Bool × Bool :=
  match e, t with
  | .f16, .f32 => let r := refloat .f32 .f16 x; (r.1, r.2, false)
  | .bf16, .f32 => let r := refloat .f32 .bf16 x; (r.1, r.2, false)
  | .f32, .f16 => let r := refloat .f16 .f32 x; (r.1, r.2, false)
  | .f32, .bf16 => let r := refloat .bf16 .f32 x; (r.1, r.2, false)
  | .f64, .f32 => let r := refloat .f32 .f64 x; (r.1, r.2, false)
  | .f16, _ => ((refloat .f16 .f16 x).1, false, false)
  | .bf16, _ => ((refloat .bf16 .bf16 x).1, false, false)
  | .f32, _ => ((refloat .f32 .f32 x).1, false, false)
  | .s8, .s32 => let v := signedOf 32 x; let c := max (-128) (min 127 v); (wrapNat 8 c, c != v, false)
  | .n8, .s32 => let v := signedOf 32 x; let c := max 0 (min 255 v); (wrapNat 8 c, c != v, false)
  | .iv, _ => loadConv .iv .iv x
  | _, _ => (x, false, false)

/-- The layout as row i of a scatter sees it: box row 0 lies at the index that the row's element of tI gives (R243). -/
def Layout.atRow (l : Layout) (idx : Int) : Layout := { l with off := fun d => if d = 1 then l.off 1 + idx else l.off d }

/-- The rows of a scatter that are stored, with their indices, and whether an index could not be read (R243, R297). -/
def scatterRows (s : State) (cl w0 : Nat) (l : Layout) (t ti : Tile) : List (Nat × Int) × Bool :=
  let c := s.cluster cl
  let at' := fun i => 256 * w0 + ti.rowAt 0 + 4 * i
  let dead := fun i => (spWords (at' i) 4).any fun w => c.spPoison.contains w || (tfind c.spLatent w == some .lasting)
  let idx := fun i => signedOf 32 (ti.elem c.sp w0 0 i)
  let fits := fun (i : Nat) => (List.range 3).all fun d =>
    let x := (l.atRow (idx i)).index 0 0 (d + 1)
    decide (0 ≤ x ∧ x < (l.extent (d + 1) : Int))
  let all := List.range t.rows
  ((all.filter fun i => !dead i && fits i).map fun i => (i, idx i), all.any dead)

-- ===== the range scoreboard =====

/-- Whether two intervals overlap (R215). -/
def Interval.overlaps (a b : Interval) : Bool := decide (a.lo < b.hi) && decide (b.lo < a.hi)

/-- Whether a write interval meets any of some intervals. -/
def meetsAny (w : Option Interval) (l : List Interval) : Bool :=
  match w with
  | none => false
  | some x => l.any x.overlaps

/-- Whether two entries conflict (R215). -/
def SbEntry.conflicts (a b : SbEntry) : Bool :=
  meetsAny a.write (b.reads ++ b.write.toList) || meetsAny b.write (a.reads ++ a.write.toList)

/-- Whether an access to an interval conflicts with an entry (R215, R218). -/
def SbEntry.blocks (e : SbEntry) (iv : Interval) (writes : Bool) : Bool :=
  (match e.write with
   | some w => w.overlaps iv
   | none => false) || (writes && e.reads.any fun r => r.overlaps iv)

/-- The granules of a scratchpad access in absolute bytes. -/
def spGranules (a n : Nat) : Interval := ⟨a / 32, (a + n + 31) / 32⟩

/-- Whether the scoreboard lets a plain access be performed (R218). An operation that its own team issued later does
not hold it, since that operation waits for it (R216). -/
def plainMayPerform (c : Cluster) (key team : Nat) (iv : Interval) (writes : Bool) : Bool :=
  !c.entries.any fun e =>
    e.2.blocks iv writes && !(decide (key < e.1) && (tfind c.ops e.1).elim false (·.team == team))

/-- The scoreboard entries of a quota's range. -/
def Quota.entries (q : Quota) : List Nat := (List.range q.sbcnt).map fun i => q.sbbase + i

/-- The free scoreboard entries that a partition may take in a cluster, ascending: of its range, or of all 64 where it is
alone there (R219); none of a part that a pending change removes (R400). -/
def freeEntries (s : State) (cl partition : Nat) : List Nat :=
  let p := s.partition partition
  let range := if aloneOn s cl partition then (List.range 64).filter fun i =>
      !p.quota.entries.contains i || p.placing.entries.contains i
    else p.placing.entries
  range.filter fun i => !(s.cluster cl).entries.any fun e => e.2.index == i

/-- Whether a partition has n scoreboard entries free in a cluster (R219). -/
def entriesFree (s : State) (cl partition n : Nat) : Bool := decide (n ≤ (freeEntries s cl partition).length)

/-- Whether every older entry that conflicts with an operation's has retired (R216). -/
def entryClear (c : Cluster) (op : Nat) : Bool :=
  match tfind c.entries op with
  | none => true
  | some e => !c.entries.any fun x => decide (x.1 < op) && x.2.conflicts e

/-- An entry retires (R217). -/
def retireEntry (s : State) (cl op : Nat) : State :=
  let c := s.cluster cl
  s.setCluster cl { c with entries := tdel c.entries op }

/-- An operation leaves the cluster, its entry with it. -/
def dropOp (s : State) (cl op : Nat) : State :=
  let c := s.cluster cl
  s.setCluster cl { c with entries := tdel c.entries op, ops := tdel c.ops op }

/-- An operation changed. -/
def modOp (s : State) (cl op : Nat) (f : AsyncOp → AsyncOp) : State :=
  let c := s.cluster cl
  s.setCluster cl { c with ops := tmod c.ops op f }

end Sys2Proof.Machine
end

