-- ==== Sys2Proof/Machine/ValueStore.lean ====
section
/-! DEFINITION. The value store (R156 to R166): tags of sources, keys, the tag table, rows, and what one word does to
them. It never changes a value; only vstag, the counters and time show it (R161). -/

namespace Sys2Proof.Machine

/-- The place of a (register, warp) in a team's map and tags. -/
def warpKey (r w : Nat) : Nat := r * 32 + w

/-- The tag of a v register in a warp; at team start the root constant 0 (R51, R156). -/
def vTag (t : Team) (r w : Nat) : Tag := tget t.vtag (warpKey r w) (.const 0)

/-- The tag of a source in a warp (R156). DEDUCED: a root names the block too, since a team index alone would give
teams of different blocks one tag for different bits (log 37). DESIGN CHOICE: the fresh tag of a k register that an instruction
wrote has no count of R165, so a register that vput copies it to shows count 0 (log 68). -/
def srcTag (s : State) (t : Team) (as : ReadAs) (x : Src) (w : Nat) : Tag :=
  let b := (s.blockOf t).index
  match x with
  | .v r => vTag t r.toNat w
  | .k r => if t.kFresh.contains r.toNat then .fresh 0 else .kRoot t.launch b t.index r.toNat
  | .zero => .const 0
  | .special .lane | .special .wlane | .special .warp =>
    .laneRoot t.launch b t.index w (x.code.toNat)
  | .special y => .teamRoot t.launch b t.index y.code.toNat
  | .const n => .const (constWord as n.toNat)

/-- Whether a tag is a root or an entry (R157). -/
def Tag.rooted : Tag → Bool
  | .fresh _ => false
  | _ => true

/-- A number for a tag, for the free index of its set. -/
def Tag.number : Tag → List Nat
  | .const x => [0, x.toNat]
  | .laneRoot a b c d e => [1, a, b, c, d, e]
  | .teamRoot a b c d => [2, a, b, c, d]
  | .kRoot a b c d => [3, a, b, c, d]
  | .entry a b c _ => [5, a, b, c]
  | .fresh a => [6, a]
  | .null => [7]

/-- The set of a key within its partition's range of sets (R159, R397). -/
def keySet (p : Partition) (k : VKey) : Nat :=
  let n := 16 * p.quota.rowcnt
  16 * p.quota.rowbase +
    (if n = 0 then 0 else Config.tagSet ([k.partition, k.launch, k.op, k.fn, k.ver, k.pkg.elim 0 (· + 1)] ++ k.a.number ++ k.b.number ++ k.c.number) % n)

/-- The live tag writes of a team's results in flight, in issue order. -/
def Team.tagWrites (t : Team) : List TagWrite := (t.pend.flatMap (·.tags)).filter (·.live)

/-- The rows that the registers of a team hold, with repeats: those mapped and those of results in flight. -/
def Team.rows (t : Team) : List Nat := t.vmap.map (·.2) ++ (t.pend.flatMap fun p => p.tags.map (·.row))

/-- The row of a (register, warp): that of its newest result in flight, else the one it maps (R160, R162). -/
def Team.rowOf (t : Team) (key : Nat) : Option Nat :=
  match (t.tagWrites.filter fun w => warpKey w.reg w.warp == key).getLast? with
  | some w => some w.row
  | none => tfind t.vmap key

/-- The (register, warp) pairs of a team that hold a row. -/
def Team.rowKeys (t : Team) : List Nat := (t.vmap.map (·.1) ++ t.tagWrites.map fun w => warpKey w.reg w.warp).eraseDups

/-- The row of each (register, warp) of a core's teams: how often one occurs is its count (R160, R162). -/
def mappedRows (s : State) (core : Nat) : List Nat :=
  (s.teams.filter fun e => coreOf e.1 == core).flatMap fun e => e.2.rowKeys.filterMap e.2.rowOf

/-- How often a row occurs. -/
def rowCount (rows : List Nat) (r : Nat) : Nat := rows.countP (· == r)

/-- Entries of a tag table removed (R163). -/
def killEntries (c : Core) (dies : Nat → TagEntry → Bool) : Core :=
  { c with tagTable := c.tagTable.filter fun e => !dies e.1 e.2 }

/-- The least recently matched of some entries. -/
def oldestEntry (l : Tab TagEntry) : Option Nat :=
  (l.foldl (fun (m : Option (Nat × Nat)) e =>
    match m with
    | none => some (e.1, e.2.recency)
    | some (i, r) => if e.2.recency < r then some (e.1, e.2.recency) else some (i, r)) none).map (·.1)

/-- The register rows of a quota's range. -/
def Quota.rows (q : Quota) : List Nat := (List.range (32 * q.rowcnt)).map fun i => 32 * q.rowbase + i

/-- A row of some that a partition's pool holds on a core, where `used` are the rows mapped: the lowest that no entry holds; with
none, the least recently matched entry whose row nothing maps dies and gives its row (R162, R163). A row whose register has a
newer result in flight is no longer mapped. DESIGN CHOICE: which free row is taken (log 39). -/
def poolRow (c : Core) (partition : Nat) (among used : List Nat) : Option (Core × Nat) :=
  let held := c.tagTable.map fun e => e.2.row
  match among.find? fun r => !used.contains r && !held.contains r && !c.rowsLost.contains r with
  | some r => some (c, r)
  | none =>
    (oldestEntry (c.tagTable.filter fun e => e.2.key.partition == partition && !used.contains e.2.row &&
      among.contains e.2.row)).map fun i => (killEntries c fun j _ => j == i, (tfind c.tagTable i).elim 0 (·.row))

/-- The row that a write takes from its partition's pool on a core. While a change of quota is pending the pool hands out no row
of the removed part (R400); `own` is the writer's row where nothing else maps it any longer, which serves where the pool is
empty. DESIGN CHOICE: where neither gives one, a row of the removed part serves, since a write finds a row (R162) before the part
drains (log 39). -/
def takeRow (s : State) (core partition : Nat) (used : List Nat) (own : Option Nat) : Core × Nat :=
  let c := s.core core
  let p := s.partition partition
  match poolRow c partition p.placing.rows used, own with
  | some x, _ => x
  | none, some r => (killEntries c fun _ e => e.row == r, r)
  | none, none => (poolRow c partition p.quota.rows used).getD (c, 32 * p.quota.rowbase)

/-- A fresh tag of a core for a partition (R165). DEDUCED: the handle shows the count after this tag is counted
(log 38). -/
def freshTag (c : Core) (partition : Nat) : Core × Tag :=
  let n := tget c.freshes partition 0 + 1
  ({ c with freshes := tset c.freshes partition n 0 }, .fresh n)

/-- The entry of a core that holds a key, in the key's set (R159, R397). -/
def keyEntry (s : State) (core : Nat) (k : VKey) : Option (Nat × TagEntry) :=
  (s.core core).tagTable.find? fun e => e.2.key == k && e.1 / 4 == keySet (s.partition k.partition) k

/-- A counter of a core for a partition, plus one. -/
def bump (t : Tab Nat) (partition : Nat) : Tab Nat := tset t partition (tget t partition 0 + 1) 0

/-- A way for a new entry in a set: a free one, or that of the least recently matched completed entry whose row
nothing maps (R163). -/
def freeWay (c : Core) (set : Nat) (used : List Nat) : Option Nat :=
  let ways := (List.range 4).map fun i => 4 * set + i
  match ways.find? fun i => (tfind c.tagTable i).isNone with
  | some i => some i
  | none => oldestEntry (c.tagTable.filter fun e =>
      ways.contains e.1 && e.2.completed && !used.contains e.2.row)

/-- The sealed versions, with the packages that sealed them, that a tag carries (R159). -/
def Tag.seals : Tag → List (Nat × Nat)
  | .entry _ _ _ l => l
  | _ => []

/-- The versions in the ancestry of a key (R159). -/
def VKey.ancestry (k : VKey) : List (Nat × Nat) := k.a.seals ++ k.b.seals ++ k.c.seals

/-- What the sweep of one word has done so far to the value store: the state, the keys of its leaders, the rows mapped now
and what the destination of each warp takes. -/
structure Sweep where
  s : State
  leaders : List (VKey × Tag × Nat)
  rows : List Nat
  writes : List TagWrite

/-- What the destination of a warp takes: a fresh tag, the result of a key, that of a key whose version the answers bring
(R227), or a tag copied from a register (R157, R169). -/
inductive SweepBy where
  | fresh
  | key (k : VKey)
  | late (k : VKey)
  | tag (x : Tag)
deriving DecidableEq, Repr

/-- What one warp's result does to its register's tag. -/
def tagWrite (r w : Nat) (tag : Tag) (row : Nat) (key : Option VKey) : TagWrite := { reg := r, warp := w, tag, row, key }

/-- The mapped rows of a core after some writes of a team's word: each register leaves its row for the new one (R162). -/
def rowsAfter (t : Team) (rows : List Nat) (ws : List TagWrite) : List Nat :=
  ws.foldl (fun l w => (match t.rowOf (warpKey w.reg w.warp) with
    | some o => l.erase o
    | none => l) ++ [w.row]) rows

/-- The row of a computed write (R162): the register's own, where nothing else mapped it when the word issued, and entries that
held it die; else one from the pool. `rows0` are the rows mapped when the word issued, `now` those mapped now. -/
def computedRow (s : State) (core : Nat) (t : Team) (r w : Nat) (rows0 now : List Nat) : Core × Nat :=
  match t.rowOf (warpKey r w) with
  | some row =>
    if rowCount rows0 row = 1 then (killEntries (s.core core) fun _ e => e.row == row, row)
    else takeRow s core t.partition now (if rowCount now row = 1 then some row else none)
  | none => takeRow s core t.partition now none

/-- A sweep after a write of one warp. -/
def Sweep.put (a : Sweep) (t : Team) (s : State) (x : TagWrite) : Sweep :=
  { a with s, writes := a.writes ++ [x], rows := rowsAfter t a.rows [x] }

/-- One warp of a sweep writes register r: with a key it looks up, binds, follows or computes; without one it computes
into a fresh or copied tag (R160, R162). `rows0` are the rows mapped when the word issued, `seals` the sealed versions that the
word itself reads. DESIGN CHOICE: an entry that no lookup has matched yet ages from its
allocation, and a follower or a lookup that finds the entry pending is no match (log 69). -/
def sweepWarp (core : Nat) (t : Team) (r : Nat) (rows0 : List Nat) (seals : List (Nat × Nat)) (a : Sweep) (w : Nat)
    (how : SweepBy) : Sweep :=
  let c := a.s.core core
  let bind := fun (tag : Tag) (row : Nat) => { tagWrite r w tag row none with bound := true }
  let computed := computedRow a.s core t r w rows0 a.rows
  let lead := fun (tag : Tag) (key : Option VKey) => { tagWrite r w tag computed.2 key with lead := true }
  match how with
  | .fresh =>
    let (c', tag) := freshTag computed.1 t.partition
    a.put t (a.s.setCore core c') (tagWrite r w tag computed.2 none)
  | .tag x => a.put t (a.s.setCore core computed.1) (tagWrite r w x computed.2 none)
  | .late k => a.put t (a.s.setCore core computed.1) { tagWrite r w .null computed.2 none with late := some k }
  | .key k =>
    match keyEntry a.s core k with
    | some (i, e) =>
      let tag := Tag.entry core i (tget c.generation i 0) e.versions
      if e.completed then
        let c' := { c with binds := bump c.binds t.partition
                           tagTable := tput c.tagTable i { e with recency := a.s.seq } }
        a.put t { a.s.setCore core c' with seq := a.s.seq + 1 } (bind tag e.row)
      else
        match a.leaders.find? fun l => l.1 == k with
        | some (_, tg, row) =>
          let c' := { c with binds := bump c.binds t.partition, misses := bump c.misses t.partition }
          a.put t (a.s.setCore core c') (bind tg row)
        | none =>
          let c' := { computed.1 with misses := bump c.misses t.partition }
          { a.put t (a.s.setCore core c') (lead tag none) with leaders := a.leaders ++ [(k, tag, computed.2)] }
    | none =>
      match a.leaders.find? fun l => l.1 == k with
      | some (_, tg, row) =>
        let c' := { c with binds := bump c.binds t.partition, misses := bump c.misses t.partition }
        a.put t (a.s.setCore core c') (bind tg row)
      | none =>
        let c1 := { computed.1 with misses := bump c.misses t.partition }
        match freeWay c1 (keySet (a.s.partition t.partition) k) (a.rows ++ [computed.2]) with
        | some i =>
          let g := (tget c1.generation i 0 + 1) % 65536
          let e : TagEntry := { key := k, row := computed.2, completed := false, flags := 0,
                                versions := (seals ++ k.ancestry).eraseDups, recency := a.s.seq }
          let c' := { c1 with tagTable := tput c1.tagTable i e, generation := tset c1.generation i g 0 }
          let tag := Tag.entry core i g e.versions
          { a.put t { a.s.setCore core c' with seq := a.s.seq + 1 } (lead tag (some k)) with
            leaders := a.leaders ++ [(k, tag, computed.2)] }
        | none =>
          let (c', tag) := freshTag c1 t.partition
          { a.put t (a.s.setCore core c') (lead tag none) with leaders := a.leaders ++ [(k, tag, computed.2)] }

/-- The warps of a set of lanes, ascending. -/
def warpsOf (lanes : List Nat) : List Nat := (List.range 32).filter fun w => lanes.any fun l => l / 32 == w

/-- A sweep that writes v register r in the lanes given. `by'` gives what a warp takes where the word has lineage there
(R157); a warp with a lane that is not written has none (R136). `extra` is what the word has written already. -/
def sweepWrite (s : State) (f : Nat) (t : Team) (r : Nat) (lanes : List Nat) (extra : List TagWrite) (seals : List (Nat × Nat))
    (by' : Nat → SweepBy) : State × List TagWrite :=
  let core := coreOf f
  let rows0 := mappedRows s core
  let go := fun (a : Sweep) (w : Nat) =>
    let full := (lanes.filter fun l => l / 32 == w).length == 32
    sweepWarp core t r rows0 seals a w (if full && !t.nb then by' w else .fresh)
  let a := (warpsOf lanes).foldl go { s, leaders := [], rows := rowsAfter t rows0 extra, writes := [] }
  (a.s, a.writes)

/-- The opcode and function field of a key (R158): of the word's fields; in the memory class C joins FN. -/
def keyFields (i : Instr) : Nat × Nat :=
  match i.fields with
  | some x =>
    let op := x.op.toNat
    if 0x80 ≤ op ∧ op < 0x90 then (op, x.c.toNat * 65536 + x.fn.toNat)
    else if 0xC0 ≤ op then (op, 0)
    else (op, x.fn.toNat)
  | none => (0, 0)

/-- The key of a warp from the tags of its sources; none where a source is fresh (R157, R158). -/
def mkKey (t : Team) (of : Nat × Nat) (a b c : Tag) (ver : Nat) (pkg : Option Nat) : Option VKey :=
  if a.rooted && b.rooted && c.rooted then some ⟨t.partition, t.launch, of.1, of.2, a, b, c, ver, pkg⟩ else none

/-- Entries of every core removed (R163). -/
def killEverywhere (s : State) (dies : TagEntry → Bool) : State :=
  { s with cores := teach s.cores (fun c => killEntries c fun _ x => dies x) {} }

/-- The handle that vstag reads (R165). DESIGN CHOICE: a register to which vput copied another root than the team-start zero
(a k register as launched, a special, a constant) shows that zero's handle, since R165 gives it none (log 68). -/
def tagHandle (x : Tag) : Word :=
  match x with
  | .entry _ i g _ => BitVec.ofNat 64 (i * 65536 + g)
  | .fresh n => BitVec.ofNat 64 (0xFFFF * 65536 + n % 65536)
  | _ => BitVec.ofNat 64 (0xFFFE * 65536)

end Sys2Proof.Machine
end

