-- ==== Sys2Proof/Machine/Access.lean ====
section
/-! DEFINITION. Memory accesses in flight: when one may be performed (R216, R218, R322, R327, R342) and what performing
it does (R204, R226, R228, R339, R340). -/

namespace Sys2Proof.Machine

/-- What a register takes from the bytes that a load reads (R226). -/
def loadVal (w : Width) (x : Nat) : Word :=
  match w with
  | .s8 => BitVec.ofNat 64 (wrapNat 32 (signedOf 8 x))
  | .s16 => BitVec.ofNat 64 (wrapNat 32 (signedOf 16 x))
  | _ => BitVec.ofNat 64 x

/-- Bytes of an access width (R25). -/
def widthBytes : Width → Nat
  | .n8 | .s8 => 1
  | .n16 | .s16 => 2
  | .w32 => 4
  | .w64 | .iv => 8

/-- Whether an access writes. -/
def AccKind.writes : AccKind → Bool
  | .load _ | .prefetch => false
  | _ => true

/-- Whether an access returns a value. -/
def AccKind.returns : AccKind → Bool
  | .store | .prefetch => false
  | _ => true

/-- Whether two accesses touch a common byte. -/
def Acc.overlaps (x y : Acc) : Bool :=
  match x.place, y.place with
  | .sp c a, .sp d b => c == d && spansMeet a x.size b y.size
  | .home a, .home b => spansMeet a x.size b y.size
  | .remote p a, .remote q b => p == q && spansMeet a x.size b y.size
  | _, _ => false

/-- Whether an access is a plain store. -/
def AccKind.isStore : AccKind → Bool
  | .store => true
  | _ => false

/-- Whether two accesses go to one other package. -/
def Acc.sameRoute (x y : Acc) : Bool :=
  match x.place, y.place with
  | .remote p _, .remote q _ => p == q
  | _, _ => false

/-- Whether an older access holds a younger one back: one of its own team to a common byte (R327), or to the same other
package, where they are performed in the order sent (R435); a store that the slice of its cluster still holds pending, for
a load of any team (R322). -/
def Acc.holdsBack (e a : Acc) : Bool :=
  (e.team == a.team && (e.overlaps a || e.sameRoute a)) ||
  (e.overlaps a &&
   (e.cluster == a.cluster && e.kind.isStore && !a.kind.writes && (match a.place with
     | .sp _ _ => false
     | _ => true)))

/-- The virtual address of the record that a lyset reads: a .cn offset counts from its section (R224, R237). -/
def slotAddr (s : State) (t : Team) (x : LySlot) : Nat := if x.cn then (s.kernelOf t).cnAddr + x.addr else x.addr

/-- The leaf under which an agent will reach an address: the one it knows (R319, R320), or what the tables hold now where it has
still to ask for a walk. -/
def nextLeaf (s : State) (core partition : Nat) (xs : List XlatResult) (a : Nat) : Option (Nat × Nat) :=
  (knownLeaf s core partition xs a).getD (walkFrom s a 3 ((s.partition partition).proot * 4096))

/-- Where the record that a lyset reads lies in this package, where it has a place here. -/
def slotPlace (s : State) (f : Nat) (t : Team) (x : LySlot) : Option Nat :=
  let a := slotAddr s t x
  let leaf := nextLeaf s (coreOf f) t.partition x.xlat a
  if a ≥ 2 ^ 48 || (windowOf s t.partition a).isSome then none
  else leaf.bind fun l => match leafCheck t.partition .read false l.1 l.2 a with
    | .ok pa => some pa
    | .error _ => none

/-- Whether a team has a lyset that has still to read its record (R330). -/
def slotWaits (t : Team) : Bool := t.slots.any fun e => e.2.state == .pending

/-- Whether some bytes of memory meet the record that a pending lyset of a team, issued before n, has still to read (R232,
R327). -/
def slotMeets (s : State) (f n pa size : Nat) : Bool :=
  match tfind s.teams f with
  | none => false
  | some t => t.slots.any fun e => e.2.state == .pending && decide (e.2.issue < n) &&
      (slotPlace s f t e.2).elim false fun p => spansMeet p 64 pa size

/-- Whether an access may be performed now: after the older accesses that hold it back (R322, R327, R435) and the earlier lysets
that read its bytes, after the acquire part of an earlier atomic (R342), not to a frame under retirement
(R385), and in scratchpad as the scoreboard allows (R218). -/
def accMayPerform (s : State) (key : Nat) (a : Acc) : Bool :=
  let older := s.accs.any fun e => decide (e.1 < key) && e.2.holdsBack a
  let acq := (tfind s.teams a.team).elim false fun t => t.pend.any fun p => p.acq.isSome && decide (p.issue < a.issue)
  let sp := match a.place with
    | .sp cl x => plainMayPerform (s.cluster cl) key a.team (spGranules x a.size) a.kind.writes
    | .home pa => !frameHeld s pa && !slotMeets s a.team a.issue pa a.size
    | .remote _ _ => true
  !older && !acq && sp

/-- The value an atomic leaves, none where it writes nothing (R339). -/
def atomicNew (op : AtomOp) (ty : Ty) (old b c : Word) : Option Word :=
  let x := rdInt ty old
  let y := rdInt ty b
  match op with
  | .add =>
    if ty == .f32 then
      some (BitVec.ofNat 64 (Fmt.f32.add .rne (Fmt.f32.value (old.toNat % 2 ^ 32)) (Fmt.f32.value (b.toNat % 2 ^ 32))).1)
    else some (putInt ty (x + y))
  | .min => some (putInt ty (min x y))
  | .max => some (putInt ty (max x y))
  | .and => some (putBits ty.bits (old &&& b))
  | .or => some (putBits ty.bits (old ||| b))
  | .xor => some (putBits ty.bits (old ^^^ b))
  | .exch => some (putBits ty.bits b)
  | .cas => if putBits ty.bits old = putBits ty.bits c then some (putBits ty.bits b) else none
  | .inc => if y ≤ x then some 0 else some (putInt ty (x + 1))

/-- What performing an access gives: the state, and a fault or the value returned. -/
structure AccRes where
  s : State
  out : Except FaultCode (Option Word)

/-- A load answered with bytes: its value, or the fault of an ill-formed interval (R226, R66). -/
def loadOut (w : Width) (x : Nat) : Except FaultCode (Option Word) :=
  if w == .iv && Iv.ofWord (BitVec.ofNat 64 x) == .illFormed then .error .badInterval else .ok (some (loadVal w x))

/-- An access performed in scratchpad (R218, R297, R340). -/
def performSp (s : State) (cl addr : Nat) (a : Acc) : AccRes :=
  match a.kind with
  | .load w =>
    let r := spRead s cl addr a.size
    if !r.2.2.isEmpty then ⟨r.1, .error .spPoisoned⟩
    else ⟨r.1, loadOut w r.2.1⟩
  | .prefetch => ⟨s, .ok none⟩
  | .store =>
    let r := spWrite s cl (toBytes addr a.data a.size)
    if !r.2.isEmpty then ⟨r.1, .error .spPoisoned⟩ else ⟨r.1, .ok none⟩
  | .atomic op ty b c =>
    let r := spRead s cl addr a.size
    if !r.2.2.isEmpty then ⟨r.1, .error .spPoisoned⟩
    else
      let old := BitVec.ofNat 64 r.2.1
      match atomicNew op ty old b c with
      | none => ⟨r.1, .ok (some old)⟩
      | some x => ⟨(spWrite r.1 cl (toBytes addr x.toNat a.size)).1, .ok (some old)⟩

/-- An access performed at its home (R204, R322, R384, R340). -/
def performHome (s : State) (pa : Nat) (a : Acc) : AccRes :=
  match a.kind with
  | .load w =>
    let r := cachedRead s a.cluster a.partition pa a.size a.hint a.cn a.ver a.va a.shared
    if r.lost then ⟨r.s, .error .memPoisoned⟩ else ⟨r.s, loadOut w r.value⟩
  | .prefetch => ⟨(cachedRead s a.cluster a.partition pa a.size a.hint a.cn a.ver a.va a.shared).s, .ok none⟩
  | .store =>
    let r := homeWriteHint s a.cluster a.partition (toBytes pa a.data a.size) (fun _ => a.va) a.hint
    if r.2.isEmpty then ⟨r.1, .ok none⟩ else ⟨r.1, .error .memPoisoned⟩
  | .atomic op ty b c =>
    let r := readBlocks s pa a.size a.partition a.va
    if r.2 then ⟨r.1, .error .memPoisoned⟩
    else
      let s1 := l1Drop r.1 a.cluster fun l => l.remote == none && l.line == pa / 256
      let old := BitVec.ofNat 64 (memGet s1 pa a.size)
      match atomicNew op ty old b c with
      | none => ⟨llcTouch s1 a.partition pa false false, .ok (some old)⟩
      | some x => ⟨llcTouch (memSet s1 pa x.toNat a.size) a.partition pa true false, .ok (some old)⟩

/-- Whether an entry names a page of another package as a partition reaches it. -/
def SeenPage.at (x : SeenPage) (partition win pkg page : Nat) : Bool :=
  x.partition == partition && x.win == win && x.package == pkg && x.page == page

/-- The sealed version that a partition's translation of a page of another package carries: that of the last answer from it,
0 where none told one (R441). DESIGN CHOICE: log 86. -/
def seenVer (s : State) (partition win pkg addr : Nat) : Nat :=
  (s.fabric.seen.find? fun x => x.at partition win pkg (addr / 65536)).elim 0 (·.ver)

/-- The version that an answer brought is what the page's translation carries from then on (R441). -/
def noteSeen (s : State) (partition win pkg addr ver : Nat) : State :=
  let rest := s.fabric.seen.filter fun x => !x.at partition win pkg (addr / 65536)
  { s with fabric := { s.fabric with seen := if ver = 0 then rest
                                             else rest ++ [{ partition, win, package := pkg, page := addr / 65536, ver }] } }

/-- The line of another package that a cluster's L1 holds for a partition at a virtual address, under the window, the page and
the version of its translation (R440, R441). -/
def remoteLine (s : State) (cl partition pkg addr va : Nat) : Option L1Line :=
  let win := windowIndex s partition va
  (s.cluster cl).l1.find? fun l => l.partition == partition && l.remote == some pkg && l.win == win && l.line == addr / 256 &&
    l.ver == seenVer s partition win pkg addr && l1Valid s l

/-- The sealed line of another package that the LLC holds for a partition, in its ways or in the shared group, under the same
tag (R441). -/
def llcRemote (s : State) (partition pkg addr va : Nat) : Option LlcLine :=
  let win := windowIndex s partition va
  s.llc.find? fun l => l.remote == some pkg && l.filler == partition && l.win == win && l.line == addr / 256 &&
    l.ver == seenVer s partition win pkg addr && (l.owner == partition || l.owner == 8)

/-- The line of another package with which the package itself answers a read at a virtual address: the L1's, or one made from
the LLC's copy (R440, R441). -/
def heldRemote (s : State) (cl partition pkg addr va : Nat) : Option L1Line :=
  match remoteLine s cl partition pkg addr va with
  | some l => some l
  | none => (llcRemote s partition pkg addr va).map fun x =>
      { line := x.line, partition, remote := some pkg, ver := x.ver, cn := false, filled := 0, keep := false, recency := 0,
        win := x.win, data := x.data }

/-- A read answered by a held line: the L1's takes its age, the LLC's takes its own and fills the L1 (R205, R441). -/
def readHeld (s : State) (cl : Nat) (l : L1Line) (h : Hint) : State :=
  if (s.cluster cl).l1.any l.same then l1Touch s cl l h
  else
    match s.llc.find? fun x => x.remote == l.remote && x.filler == l.partition && x.win == l.win && x.ver == l.ver &&
        x.line == l.line with
    | some x => l1Fill (llcPut s x .none) cl l h
    | none => l1Fill s cl l h

/-- A line of another package taken into a cluster's L1, and where it is sealed into the LLC slice of the die that the
requester's virtual address names, in the partition's ways or in the shared group for a shared page (R440, R441). The answer
does not tell whether the page is shared, so that is free (log 5). DESIGN CHOICE: the line's number, which gives its slice and
set, is that of its address in the target package (log 80). -/
def takeRemote (s : State) (cl partition pkg addr va ver : Nat) (h : Hint) (data : Tab Byte) : State :=
  let win := windowIndex s partition va
  let l : L1Line := { line := addr / 256, partition, remote := some pkg, ver, cn := false, filled := 0, keep := false,
                      recency := 0, win, data }
  let s1 := noteSeen (l1Fill s cl l h) partition win pkg addr ver
  if ver = 0 then s1
  else
    llcPut { s1 with freeCtr := s1.freeCtr + 1 }
      { die := va / 4096 % 12, line := addr / 256, owner := llcOwner partition (Config.freeBit s1.freeCtr), dirty := false,
        recency := 0, remote := some pkg, ver, filler := partition, win, data } .none

/-- An access performed on this package. One to another package is performed there (R438), unless it is a load that a held
line answers (R440, R441). -/
def performAcc (s : State) (a : Acc) : AccRes :=
  match a.place with
  | .sp cl x => performSp s cl x a
  | .home pa => performHome s pa a
  | .remote pkg x =>
    match a.kind, heldRemote s a.cluster a.partition pkg x a.va with
    | .load w, some l => ⟨readHeld s a.cluster l a.hint, loadOut w (bytesGet l.data (x % 256) a.size)⟩
    | _, _ => ⟨s, .ok none⟩

/-- Whether an access goes to host memory (R312, R394). -/
def Acc.toHost (a : Acc) : Bool :=
  match a.place with
  | .home pa => decide (pa ≥ 0x80000000000)
  | _ => false

/-- The function whose requests a partition's accesses carry: 0 for the PF, v + 1 for VF v, none where no VF is bound to the
partition (R394, R407). -/
def functionOf (s : State) (n : Nat) : Option Nat :=
  if n = 0 then some 0
  else ((List.range 16).find? fun v =>
    let w := (tget s.hostLink.vfmap v 0).toNat
    natBit w 63 && natBits w 18 16 == n).map (· + 1)

/-- A request for a byte of host memory goes out over the host link, translated where the function's ATC holds the page and
ATS is enabled; the ATC, of 512 entries, then holds it (R393, R394). -/
def hostRequest (s : State) (n pa va : Nat) : State :=
  let fn := functionOf s n
  let ats := fn.elim false Config.atsEnabled
  let f := fn.getD 0
  let page := (f, va / 65536)
  let told := { s with notices := s.notices ++ [.hostRequest (pa - 0x80000000000) fn (ats && s.hostLink.atc.contains page)] }
  if !ats then told
  else
    let mine := s.hostLink.atc.filter fun e => e.1 == f && e != page
    let kept := if mine.length < 512 then mine else mine.drop 1
    { told with hostLink := { s.hostLink with atc := (s.hostLink.atc.filter fun e => e.1 != f) ++ kept ++ [page] } }

/-- Whether a load of host memory or of another package is served by a line that this package holds. -/
def Acc.l1Hit (s : State) (a : Acc) : Bool :=
  match a.place, a.kind with
  | .home pa, .load _ => (l1Find s a.cluster a.partition none (pa / 256) a.ver a.cn).isSome
  | .remote pkg x, .load _ => (heldRemote s a.cluster a.partition pkg x a.va).isSome
  | _, _ => false

end Sys2Proof.Machine
end

