-- ==== Sys2Proof/Machine/Ops.lean ====
section
/-! DEFINITION. The operations that every meaning is made of: results landing (R141 to R146, R160), lanes parked and
masks settled (R147 to R152), traps and the handler (R33, R376 to R381), the event log (R389, R390), block kill
(R291 to R295), and the end of a word. -/

namespace Sys2Proof.Machine

-- ===== small access =====

/-- The state with a team changed by g, where it is resident. -/
def State.modTeam (s : State) (f : Nat) (g : Team → Team) : State := { s with teams := tmod s.teams f g }

/-- The state with a block changed by g. -/
def State.modBlock (s : State) (b : Nat) (g : Block → Block) : State := { s with blocks := tmod s.blocks b g }

/-- The numbers of scopes, narrow to wide (R8). -/
def scopeRank : Scope → Nat
  | .team => 0
  | .block => 1
  | .sheet => 2
  | .grid => 3
  | .span => 4
  | .sys => 5

/-- A free value drawn: the state with the counter advanced, and the counter. -/
def drawFree (s : State) : State × Nat := ({ s with freeCtr := s.freeCtr + 1 }, s.freeCtr)

/-- The causes of team-level traps (R177, R209, R249, R279, R287, R439). -/
inductive Cause where
  | illegalEncoding | illegalPair | privilege | stackOverflow | cvgMismatch | badTarget | badRegister
  | streamExhausted | userTrap | parked | badTile | badAccumulator | badBarrier | scratchRace | fabricDown
deriving DecidableEq, Repr

/-- The code of a cause. -/
def Cause.code : Cause → Nat
  | .illegalEncoding => 1
  | .illegalPair => 2
  | .privilege => 3
  | .stackOverflow => 4
  | .cvgMismatch => 5
  | .badTarget => 6
  | .badRegister => 7
  | .streamExhausted => 8
  | .userTrap => 9
  | .parked => 10
  | .badTile => 11
  | .badAccumulator => 12
  | .badBarrier => 13
  | .scratchRace => 14
  | .fabricDown => 15

-- ===== results landing =====

/-- Whether a value of a lane list comes from the lowest lane, for registers with one value (R49). -/
def lowestVal (l : List (Nat × Word)) : Option Word :=
  (l.foldl (fun (m : Option (Nat × Word)) x =>
    match m with
    | none => some x
    | some y => if x.1 < y.1 then some x else some y) none).map (·.2)

/-- A register takes what a result writes to it (R47 to R50). -/
def Team.putReg (t : Team) (w : RegWrite) : Team :=
  match w.reg with
  | .v r => { t with v := w.vals.foldl (fun m x => tset m (laneKey r x.1) x.2 0) t.v }
  | .k r =>
    match lowestVal w.vals with
    | none => t
    | some x => { t with k := tset t.k r x 0, kFresh := if t.kFresh.contains r then t.kFresh else t.kFresh ++ [r] }
  | .p r =>
    if r = 0 then t
    else { t with p := w.vals.foldl (fun m x => tset m (laneKey r x.1) (x.2.setWidth 2) 0) t.p }
  | .t r =>
    match lowestVal w.vals with
    | none => t
    | some x => { t with t := tset t.t r x 0 }

/-- The map and tag of a (register, warp) after a result lands (R156, R161). -/
def Team.putTag (t : Team) (w : TagWrite) : Team :=
  if w.live then
    { t with vmap := tput t.vmap (warpKey w.reg w.warp) w.row, vtag := tset t.vtag (warpKey w.reg w.warp) w.tag (.const 0) }
  else t

/-- An older result loses the registers and tags that a newer one has written (R144). -/
def Pend.yield (newer older : Pend) : Pend :=
  let strip := fun (w : RegWrite) =>
    { w with vals := w.vals.filter fun x => !newer.writes.any fun n =>
        n.reg == w.reg && n.vals.any fun y => y.1 == x.1 ||
          (match w.reg with
           | .k _ | .t _ => true
           | _ => false) }
  let tag := fun (w : TagWrite) =>
    if newer.tags.any fun n => n.live && n.reg == w.reg && n.warp == w.warp then { w with live := false } else w
  { older with writes := older.writes.map strip, tags := older.tags.map tag }

/-- The errors of a row after a result wrote some lanes of it (R387): those lanes are clean; where the row is new to its
register, the other lanes bring what errors they had in the old row. -/
def rowWritten (c : Core) (old : Option Nat) (row : Nat) (lanes : List Nat) : Core :=
  let written := fun (x : Nat) => x / 32 == row && lanes.contains (x % 32)
  let move := fun (l : List Nat) =>
    match old with
    | some o =>
      if o = row then l.filter fun x => !written x
      else (l.filter fun x => x / 32 != row) ++ ((l.filter fun x => x / 32 == o && !lanes.contains (x % 32)).map fun x => row * 32 + x % 32)
    | none => l.filter fun x => x / 32 != row
  { c with rowPoison := move c.rowPoison, rowGone := move c.rowGone }

/-- The row errors of a core after the computed results of a landing pend (R387). -/
def rowsWritten (s : State) (f : Nat) (t : Team) (p : Pend) : State :=
  (p.tags.filter fun w => w.live && !w.bound).foldl (fun s w =>
    let lanes := (p.writes.filter fun x => x.reg == .v w.reg).flatMap fun x =>
      (x.vals.filter fun y => y.1 / 32 == w.warp).map fun y => y.1 % 32
    s.setCore (coreOf f) (rowWritten (s.core (coreOf f)) (tfind t.vmap (warpKey w.reg w.warp)) w.row lanes)) s

/-- The entry that a computed result completes, with the flags of its computation (R159, R160). -/
def completeEntry (s : State) (core : Nat) (w : TagWrite) : State :=
  match w.key with
  | none => s
  | some k =>
    let c := s.core core
    s.setCore core { c with tagTable := c.tagTable.map fun e =>
      if e.2.key == k && !e.2.completed then (e.1, { e.2 with completed := true, flags := w.flags }) else e }

/-- The tag of a load from another package once its answers are there (R227, R441): where they all brought one sealed version,
the key with it is looked up and allocated as at an issue; otherwise the tag is fresh (log 18). -/
def landLate (s : State) (f : Nat) (p : Pend) : State :=
  let one := fun (a : Sweep) (w : TagWrite) =>
    match w.late, tfind a.s.teams f with
    | some k, some t =>
      let n := match p.vers with
        | [n] => n
        | _ => 0
      let how := if n = 0 then SweepBy.fresh else .key { k with ver := n }
      let rows := mappedRows a.s (coreOf f)
      sweepWarp (coreOf f) t w.reg rows [(k.pkg.getD 0, n)] { a with rows } w.warp how
    | _, _ => a
  let late := p.tags.filter fun w => w.live && w.late.isSome
  if late.isEmpty then s
  else
    let a := late.foldl one { s, leaders := [], rows := [], writes := [] }
    a.writes.foldl (fun s w => (completeEntry s (coreOf f) w).modTeam f fun t => t.putTag w) a.s

/-- One result lands: its registers, tags and flags are written, older results give way, and an acquire that waited for
it is made (R81, R144, R145, R342). The result itself is removed by the caller. -/
def landOne (s : State) (f : Nat) (p : Pend) : State :=
  let s0 := (tfind s.teams f).elim s fun t => rowsWritten s f t p
  let s1 := p.tags.foldl (fun s w => completeEntry s (coreOf f) w) s0
  let s2 := s1.modTeam f fun t =>
    let t1 := p.tags.foldl Team.putTag (p.writes.foldl Team.putReg t)
    { t1 with flags := t1.flags ||| p.flags
              pend := t1.pend.map fun q => if q.issue < p.issue then p.yield q else q }
  let s2 := landLate s2 f p
  match p.acq with
  | some sc => if scopeRank sc ≥ 2 then acquireInvalidate s2 (clusterOf f) ((tfind s2.teams f).elim 0 (·.partition)) else s2
  | none => s2

/-- The results of a team that meet a condition land, in issue order. -/
def landDue (s : State) (f : Nat) (due : Pend → Bool) : State :=
  match tfind s.teams f with
  | none => s
  | some t =>
    let go := t.pend.filter due
    if go.isEmpty then s
    else go.foldl (fun s p => landOne s f p) (s.modTeam f fun t => { t with pend := t.pend.filter fun p => !due p })

/-- Whether a fixed-latency result has landed before issue n (R144). -/
def Pend.dueAt (n : Nat) (p : Pend) : Bool :=
  match p.lat with
  | .fixed l => decide (p.issue + l ≤ n)
  | _ => false

/-- Whether a result has a fixed latency. -/
def Pend.isFixed (p : Pend) : Bool :=
  match p.lat with
  | .fixed _ => true
  | _ => false

/-- What is due at issue n lands. -/
def landAt (s : State) (f n : Nat) : State := landDue s f (Pend.dueAt n)

/-- Every fixed-latency result lands: a segment's end (R144). -/
def commitFixed (s : State) (f : Nat) : State := landDue s f Pend.isFixed

/-- Whether a team waits for a scoreboarded result other than a token (R141, R142). -/
def Team.outstanding (t : Team) : Bool := t.pend.any fun p => p.lat == .variable

/-- The registers with an outstanding scoreboarded write (R145). -/
def Team.scoreboard (t : Team) : List Reg :=
  (t.pend.filter fun p => !p.isFixed).flatMap fun p => p.writes.map (·.reg)

-- ===== memory reads and writes by the machine itself =====

/-- An index that no cluster has: for agents whose stores meet no L1. -/
def noCluster : Nat := 768

/-- A translation by a walk, with no TLB, for the distributor, the log and the host's agents. An address in a fabric
window is not served (log 20). -/
def walkAt (s : State) (partition va : Nat) (need : Need) : State × Except FaultCode Nat :=
  if (windowOf s partition va).isSome then (s, .error .pageFault)
  else
    let r := walkNow s partition va
    match r.2 with
    | none => (r.1, .error .pageFault)
    | some (leaf, bits) => (r.1, leafCheck partition need false leaf bits va)

/-- A number laid out as (byte offset, value) fields. -/
def fields (l : List (Nat × Nat)) : Nat := l.foldl (fun x e => x + e.2 * 256 ^ e.1) 0

/-- A 64-byte entry written to a partition's ring by a store, or dropped and counted (R389). The count of those dropped stays at
its largest value (log 87). -/
def logBy (store : State → Nat → Nat → List (Nat × Byte) → State × Bool) (s : State) (partition entry : Nat) : State :=
  let p := s.partition partition
  let base := p.elogb.toNat / 4096 * 4096
  let count := 2 ^ (p.elogb.toNat % 16 + 6)
  let full := (p.elogHead + 2 ^ 32 - p.elogTail) % 2 ^ 32 = count
  let drop := fun (s : State) =>
    let p := s.partition partition
    s.setPartition partition { p with elogLost := min (p.elogLost + 1) (2 ^ 32 - 1) }
  if base = 0 ∨ full then drop s
  else
    let r := store s partition (base + 64 * (p.elogHead % count)) (toBytes 0 entry 64)
    if r.2 then
      let p := r.1.partition partition
      r.1.setPartition partition { p with elogHead := (p.elogHead + 1) % 2 ^ 32 }
    else drop r.1

/-- Bytes, given by their offsets, stored at a virtual address of a partition, whatever is under retirement. -/
def storeAt (s : State) (partition va : Nat) (ws : List (Nat × Byte)) : State × Bool :=
  match walkAt s partition va .write with
  | (s1, .error _) => (s1, false)
  | (s1, .ok pa) =>
    let r := homeWrite s1 noCluster partition (ws.map fun w => (pa + w.1, w.2)) va
    (r.1, r.2.isEmpty)

/-- The owner that a page-retired entry names: 0xFF for a page that its finder maps as shared and sealed (R390). -/
def retireOwner (s : State) (r : Retire) : Nat :=
  if r.owner > 7 then 0xFF
  else
    match walkFrom s r.va 3 ((s.partition r.owner).proot * 4096) with
    | some (leaf, _) => if (Leaf.ofNat leaf).x then 0xFF else r.owner
    | none => r.owner

/-- The page-retired entry (R390). -/
def retiredEntry (s : State) (r : Retire) (owner : Nat) : Nat :=
  let lost := (s.lost.filter fun b => b / 2048 == r.frame).map (· % 2048)
  let sorted := (List.range 2048).filter fun i => lost.contains i
  fields [(0, 3), (1, homeDie (r.block * 32)), (2, 0xFF), (3, 0xFF), (8, s.cycle % 2 ^ 64), (24, r.frame), (32, sorted.length), (34, owner),
    (36, sorted.getD 0 0xFFFF), (38, sorted.getD 1 0xFFFF), (40, sorted.getD 2 0xFFFF), (42, sorted.getD 3 0xFFFF),
    (44, if owner = 0xFF then 0 else r.va)]

/-- The spare-exhausted entry (R390). -/
def exhaustedEntry (s : State) (r : Retire) : Nat :=
  let pa := r.block * 32
  let kind := match memRange pa with
    | some (.vault, _) => 0
    | some (.stacked, _) => 1
    | _ => 2
  fields [(0, 4), (1, homeDie pa), (2, 0xFF), (3, 0xFF), (8, s.cycle % 2 ^ 64), (24, r.frame), (32, kind), (33, homeUnit pa)]

/-- A retirement ends (R385, R386): the frame is remapped to a spare and reported, or the pool is empty. No byte changes, and lost
blocks stay lost (R334). -/
def retireFrame (s : State) (r : Retire) : State :=
  let s1 := { s with retiring := s.retiring.filter fun x => x.frame != r.frame }
  let pool := poolOf (r.frame * 65536)
  if poolLeft s pool = 0 then logBy storeAt s1 0 (exhaustedEntry s1 r)
  else
    let taken := tget s1.pools pool 0
    let s3 := { s1 with pools := tput s1.pools pool (taken + 1), remap := tput s1.remap r.frame taken }
    let owner := retireOwner s1 r
    let entry := retiredEntry s1 r owner
    logBy storeAt (if owner = 0 ∨ owner > 7 then s3 else logBy storeAt s3 owner entry) 0 entry

/-- What the machine itself reads or writes, other than a lane's access in flight or an operation's memory side, meets the hold of a
frame under retirement by the end of that retirement, which comes first in the same step (R385, R391, log 26). -/
def settleFor (s : State) (pas : List Nat) : State := if pas.any (frameHeld s) then s.retiring.foldl retireFrame s else s

/-- An access of the machine itself reaches a physical place: one in host memory goes out as a request, which the host may complete
with an error (R394); whether it does is free. -/
def reach (s : State) (partition pa va : Nat) : State × Except FaultCode Nat :=
  let s1 := settleFor s [pa]
  if pa < 0x80000000000 then (s1, .ok pa)
  else
    let q := drawFree (hostRequest s1 partition pa va)
    (q.1, if Config.freeBit q.2 then .error .pageFault else .ok pa)

/-- A walk that the machine itself makes at once, which meets the hold of the frames that hold its tables (R385, R391). -/
def walkHeld (s : State) (partition va : Nat) (need : Need) : State × Except FaultCode Nat :=
  walkAt (settleFor s (walkReads s va 3 ((s.partition partition).proot * 4096))) partition va need

/-- The place of an access of the machine itself, by a walk with no TLB, and its access of it. -/
def walkTranslate (s : State) (partition va : Nat) (need : Need) : State × Except FaultCode Nat :=
  match walkHeld s partition va need with
  | (s1, .error c) => (s1, .error c)
  | (s1, .ok pa) => reach s1 partition pa va

/-- n bytes read at a virtual address of a partition by the machine itself, page by page of 64 KiB not crossed by its
records; none where it faults or a block is lost. -/
def vaRead (s : State) (partition va n : Nat) : State × Option Nat :=
  match walkTranslate s partition va .read with
  | (s1, .error _) => (s1, none)
  | (s1, .ok pa) =>
    let r := readBlocks s1 pa n partition va
    if r.2 then (r.1, none) else (r.1, some (memGet r.1 pa n))

/-- Bytes, given by their offsets, written at a virtual address of a partition by the machine itself; false where the
write faults. -/
def vaWrite (s : State) (partition va : Nat) (ws : List (Nat × Byte)) : State × Bool :=
  match walkTranslate s partition va .write with
  | (s1, .error _) => (s1, false)
  | (s1, .ok pa) =>
    let r := homeWrite s1 noCluster partition (ws.map fun w => (pa + w.1, w.2)) va
    (r.1, r.2.isEmpty)

-- ===== the event log =====

/-- A 64-byte entry written to a partition's ring, or dropped and counted (R389). -/
def logEntry (s : State) (partition entry : Nat) : State := logBy vaWrite s partition entry

/-- A task record (R362). -/
def taskRecord (launch state attempt limit block : Nat) : Nat :=
  launch * 2 ^ 32 + state * 2 ^ 28 + attempt % 16 * 2 ^ 24 + limit % 16 * 2 ^ 20 + block % 2 ^ 18

/-- The task record of a resident block, running or pre-empted (R362). -/
def Block.task (b : Block) : Nat := taskRecord b.launch (if b.saved then 2 else 1) b.attempt b.limit b.index

/-- The common bytes of an entry about a team of a block (R389). -/
def teamEntry (s : State) (type f : Nat) (b : Block) : List (Nat × Nat) :=
  [(0, type), (1, dieOf f), (2, clusterOf f % 64), (3, f % 48), (8, s.cycle % 2 ^ 64), (16, b.task)]

/-- A withdrawn entry (R389, R390): a scratchpad row, a register row or a core, with the task record of the block that met
it. -/
def withdrawnEntry (s : State) (cluster byte3 unit row task : Nat) : Nat :=
  fields [(0, 5), (1, cluster / 64), (2, cluster % 64), (3, byte3), (8, s.cycle % 2 ^ 64), (16, task), (24, unit), (26, row)]

/-- A team reads a register row with a lasting error, which is counted: the row is replaced from the spare rows; with none
left the core is withdrawn from placement and a row-withdrawn entry is written (R383, R387). Every lane of the row with an
error loses its bits, until it is written. DEDUCED: each such lane counts one lasting error (log 71). -/
def loseRow (s0 : State) (f partition row : Nat) : State :=
  let core := coreOf f
  let mine := (s0.core core).rowPoison.filter fun x => x / 32 == row
  let s := mine.foldl (fun s _ => countLast s (core / 384)) s0
  let c := s.core core
  let c := { c with rowPoison := c.rowPoison.filter fun x => x / 32 != row, rowGone := c.rowGone ++ mine }
  if mine.isEmpty then s
  else if c.rowsSpare > 0 then s.setCore core { c with rowsSpare := c.rowsSpare - 1 }
  else
    let s := s.setCore core { c with withdrawn := true, rowsLost := if c.rowsLost.contains row then c.rowsLost else c.rowsLost ++ [row] }
    let task := ((tfind s.teams f).bind fun t => tfind s.blocks t.block).elim 0 Block.task
    logEntry s partition (withdrawnEntry s (core / 6) (core % 6 * 8) 1 row task)

-- ===== freeing and killing a block =====

/-- Undefined bytes written over a list of physical addresses (R15). -/
def scramble (s : State) (pas : List Nat) : State :=
  pas.foldl (fun s pa =>
    let (s, n) := drawFree s
    { s with mem := tset s.mem pa (Config.freeByte n) 0 }) s

/-- The layout of an operation's memory side. -/
def slotLayout (slot : LySlot) (k0 k1 k2 k3 : Word) (off : Int) : Layout := Layout.of slot.record k0 k1 k2 k3 off

/-- The virtual addresses of the bytes of the box that a tile's rows and columns name in memory, the scales of a .bp box among
them (R242). -/
def boxBytes (l : Layout) (t : Tile) : List Nat :=
  let oneBit := t.fmt == .rel
  let size := if oneBit then 1 else l.fmt.bytes
  let one := fun (i j : Nat) =>
    (List.range size).map (fun n => l.addr oneBit i j + n) ++
      (if l.fmt == .bp then (List.range 2).map fun n => l.scaleAddr i j + n else [])
  (List.range t.rows).flatMap fun i => (List.range t.cols).flatMap fun j =>
    if l.inside (i : Nat) (j : Nat) then one i j else []

/-- The first row of an operation's window. -/
def opBase (s : State) (x : AsyncOp) : Nat := (tfind s.blocks x.block).elim 0 (·.base)

/-- The virtual addresses of the memory bytes that an operation of a cluster writes: of a scatter, in the rows that its index tile
names (R243). -/
def opDest (s : State) (cl : Nat) (x : AsyncOp) : List Nat :=
  match x.kind with
  | .cpy true size lanes => lanes.flatMap fun l => (List.range size).map fun n => l.va + n
  | .tensor true tile slot k0 k1 k2 k3 off _ => boxBytes (slotLayout slot k0 k1 k2 k3 off) (Tile.ofWord tile)
  | .scatter tile idx slot k0 k1 k2 k3 off =>
    let l := slotLayout slot k0 k1 k2 k3 off
    let t := Tile.ofWord tile
    (scatterRows s cl (opBase s x) l t (Tile.ofWord idx)).1.flatMap fun r => boxBytes (l.atRow r.2) { t with rows := 1 }
  | .drainMem _ tile _ false slot k0 k1 k2 k3 => boxBytes (slotLayout slot k0 k1 k2 k3 0) (Tile.ofWord tile)
  | _ => []

/-- An operation cancelled by a kill: the destination box of one that was moving data holds undefined bytes (R292); one that has
its status already moves none (R238). -/
def cancelOp (s : State) (cl key : Nat) (x : AsyncOp) : State :=
  let hit := fun (r : State × List Nat) (va : Nat) =>
    match walkAt r.1 x.partition va .write with
    | (s, .ok pa) => (s, r.2 ++ [pa])
    | (s, .error _) => (s, r.2)
  let s1 := if x.phase == .running && x.presetStatus.isNone then
      let r := (opDest s cl x).eraseDups.foldl hit (s, [])
      scramble r.1 r.2
    else s
  dropOp s1 cl key

/-- A store of a killed block that was still on its way may have been performed or not (R292). -/
def settleAcc (s : State) (key : Nat) (a : Acc) : State :=
  let s1 := { s with accs := tdel s.accs key }
  match a.place with
  | .home _ =>
    if a.kind.writes then
      let (s2, n) := drawFree s1
      if Config.freeBit n then (performAcc s2 a).s else s2
    else s1
  | _ => s1

/-- A window given back: its rows are scrubbed, and a row that fails is withdrawn and reported (R201, R298). DEDUCED: to the ring of
the partition whose block left the window (log 88). -/
def scrubWindow (s : State) (cl base rows partition task : Nat) : State :=
  let q := badRows s cl base rows
  let s1 := spScrub q.1 cl base rows
  let c := s1.cluster cl
  let s2 := s1.setCluster cl { c with rowsWithdrawn := c.rowsWithdrawn ++ q.2 }
  q.2.foldl (fun s r => logEntry s partition (withdrawnEntry s cl 0xFF 0 r task)) s2

/-- The accumulators scrubbed to +0 in E96 mode (R252). -/
def scrubAcc (s : State) (cl : Nat) : State :=
  let c := s.cluster cl
  s.setCluster cl { c with acc := [], accI96 := [], accPoison := [], accLatent := [] }

/-- A block leaves its cluster: window and accumulators are scrubbed, slots and rows freed (R201, R252, R292), as a trace of its
partition tells (R426). -/
def releaseBlock (s : State) (b : Nat) (x : Block) : State :=
  let s1 := scrubWindow s x.cluster x.base x.rows x.partition x.task
  let s2 := if x.holdsAcc then scrubAcc s1 x.cluster else s1
  let told := if s2.bexile.traced.contains x.partition then s2.notices ++ [.traceBlock x.partition b false] else s2.notices
  { s2 with blocks := tdel s2.blocks b, teams := s2.teams.filter (fun e => !x.teams.contains e.1), notices := told }

/-- Steps 1 to 4 of a block kill (R292): no word issues any more, operations are cancelled, the window and the
accumulators are scrubbed, and slots, rows and value-store entries are freed. -/
def freeBlock (s : State) (b : Nat) : State :=
  match tfind s.blocks b with
  | none => s
  | some x =>
    let mine := fun (f : Nat) => x.teams.contains f
    let ops := (s.cluster x.cluster).ops.filter fun e => e.2.block == b
    let s1 := ops.foldl (fun s e => cancelOp s x.cluster e.1 e.2) s
    let s2 := (s1.accs.filter fun e => e.2.block == b).foldl (fun s e => settleAcc s e.1 e.2) s1
    let dies := fun (s : State) (f : Nat) =>
      match tfind s.teams f with
      | none => s
      | some t =>
        s.setCore (coreOf f) (killEntries (s.core (coreOf f)) fun _ e => t.rows.contains e.row)
    let s3 := x.teams.foldl dies s2
    let s4 := { s3 with
      walks := s3.walks.map fun e => (e.1, { e.2 with
        teams := e.2.teams.filter fun f => !mine f
        others := e.2.others.filter fun w => match w with
          | .slot f _ => !mine f
          | .op cl key => !(cl == x.cluster && ops.any fun o => o.1 == key) })
      pctls := s3.pctls.filter fun p => !mine p.team
      colls := s3.colls.filter fun e => !mine e.2.team
      seals := s3.seals.filter fun e => !mine e.2.team }
    releaseBlock s4 b x

/-- The items of a kill report (R295). -/
structure Report where
  kind : Nat
  op : Nat
  word : Nat
  team : Nat
  loc : Nat

/-- A team ends at a word, in all its lanes, as an exit in every lane ends it (R174, R347). -/
def Team.endAll (t : Team) (word : Nat) : Team :=
  { t with mask := 0, stack := [], exited := allLanes t.nlanes, wait := .ended t.mask t.pathUid t.stack word }

/-- A team that waits at a gbar word, already issued, ends there as though by exit in all its lanes (R347); with lanes parked
it is on its way into its handler at that word, as an exit would be (R151). -/
def Team.endWaiting (t : Team) : Team :=
  if t.parked.isEmpty then t.endAll (t.pc - 8) else { t with wait := .trap { cause := 10, word := t.pc - 8 } }

/-- A grid is marked faulted (R293); the teams of a .gridbar grid that wait at gbar end there (R347). -/
def faultGrid (s : State) (partition launch : Nat) : State :=
  let s1 := s.modLaunch partition launch fun l => { l with faulted := true }
  { s1 with teams := s1.teams.map fun e =>
      if e.2.partition == partition && e.2.launch == launch && e.2.wait == .gbar then (e.1, e.2.endWaiting) else e }

/-- An engine fault kills a block: steps 1 to 5 of R292, then R293. -/
def killBlock (s : State) (f b : Nat) (r : Report) : State :=
  match tfind s.blocks b with
  | none => s
  | some x =>
    let entry := fields (teamEntry s 1 f x ++ [(24, r.kind), (25, r.op), (26, r.team), (28, x.attempt % 16), (32, r.word),
      (40, r.loc)])
    let s1 := logEntry (freeBlock s b) x.partition entry
    match s1.launch? x.partition x.launch with
    | none => s1
    | some l =>
      if x.attempt < x.limit ∧ !l.kernel.gridbar ∧ !l.faulted then
        s1.modLaunch x.partition x.launch fun l =>
          { l with awaiting := l.awaiting ++ [x.index], attempts := tput l.attempts x.index (x.attempt + 1) }
      else faultGrid s1 x.partition x.launch

-- ===== lanes and masks =====

/-- Lanes cleared from the current mask and from every mask on the stack (R150). -/
def Team.clearLanes (t : Team) (l : LaneSet) : Team :=
  { t with mask := t.mask &&& ~~~l, stack := t.stack.map fun e => { e with mask := e.mask &&& ~~~l } }

/-- A lane parks, once, with its first fault (R151, R376); the record names the word and keeps the masks it was cleared from
(R152). -/
def Team.park (t : Team) (lane code loc word : Nat) : Team :=
  if (tfind t.parked lane).isSome then t
  else
    let from' := (if t.mask.getLsbD lane then [t.pathUid] else []) ++
      ((t.stack.filter fun e => e.mask.getLsbD lane).map (·.uid))
    { t.clearLanes (laneSet [lane]) with parked := tput t.parked lane ⟨code, loc % 2 ^ 48, from', word⟩ }

/-- What an empty mask leads to (R150). -/
inductive Settled where
  | run | empty
deriving DecidableEq, Repr

/-- The team as though its running lanes had reached the cvg of the topmost join entry, while its mask is empty
(R149, R150). DEDUCED: where the stack holds side entries and no join, so that there is no cvg to act as reached, the topmost side
whose mask is not empty is taken and runs (log 89). -/
def settleGo (t : Team) : List StackEntry → Team × Settled
  | [] => if t.mask = 0 then ({ t with stack := [] }, .empty) else ({ t with stack := [] }, .run)
  | e :: r =>
    if t.mask ≠ 0 then ({ t with stack := e :: r }, .run)
    else if !e.isJoin && e.mask = 0 then settleGo t r
    else settleGo { t with mask := e.mask, pathUid := e.uid, pc := if e.isJoin then e.addr + 8 else e.addr } r

/-- An empty mask settled (R150). -/
def Team.settle (t : Team) : Team × Settled := settleGo t t.stack

-- ===== traps and the handler =====

/-- The unhandled trap of a team (R381): the entry of type 0x02, the block killed by steps 1 to 4 of R292, the grid
marked faulted without relaunch. -/
def unhandled (s : State) (f : Nat) (t : Team) (i : TrapInfo) (reason frame : Nat) : State :=
  match tfind s.blocks t.block with
  | none => s
  | some x =>
    let entry := fields (teamEntry s 2 f x ++ [(24, i.cause), (25, i.ucode), (26, t.index), (28, reason), (32, i.word),
      (40, frame)])
    faultGrid (logEntry (freeBlock s t.block) t.partition entry) t.partition t.launch

/-- The bytes of a handler frame, by offset (R378). -/
def frameBytes (t : Team) (i : TrapInfo) : List (Nat × Byte) :=
  let parked := (laneSet (t.parked.map (·.1))).toNat
  let head := fields [(0x08, (readK t 62).toNat), (0x10, (readK t 63).toNat), (0x18, i.word), (0x20, i.cause + 256 * i.ucode),
    (0x24, t.parked.length), (0x28, if i.cause = 14 then i.race.toNat else 0), (0x100, parked)]
  toBytes 0 head 0x200 ++ t.parked.flatMap fun e => toBytes (0x200 + 8 * e.1) (e.2.code * 2 ^ 56 + e.2.loc) 8

/-- The address of a team's frame (R377). -/
def frameAddr (s : State) (f : Nat) (t : Team) : Nat := (s.partition t.partition).fltb + 0x4000 * f

/-- A page walk asked for by a team: it joins one pending on its die for the region, or waits in order of arrival
(R320). -/
def askWalk (s : State) (f : Nat) (partition page va : Nat) : State :=
  match s.walks.find? fun e => e.2.die == dieOf f && e.2.partition == partition && e.2.page == page with
  | some (k, w) =>
    { s with walks := tput s.walks k { w with teams := if w.teams.contains f then w.teams else w.teams ++ [f] } }
  | none => { s with walks := tput s.walks (tnext s.walks) { die := dieOf f, partition, page, teams := [f], va } }

/-- A page walk asked for by the read of a layout slot or the memory side of an operation (R320). -/
def askWalkFor (s : State) (die partition page va : Nat) (x : Waiter) : State :=
  match s.walks.find? fun e => e.2.die == die && e.2.partition == partition && e.2.page == page with
  | some (k, w) =>
    { s with walks := tput s.walks k { w with others := if w.others.contains x then w.others else w.others ++ [x] } }
  | none => { s with walks := tput s.walks (tnext s.walks) { die, partition, page, teams := [], va, others := [x] } }

/-- A team's access to its frame reaches it, by what its walks have brought or its core's TLB holds (R319, R379); none where it
must ask for a walk first (R320). -/
def frameReach (s : State) (f : Nat) (t : Team) (need : Need) (frame : Nat) : Option (State × Except FaultCode Nat) :=
  if frame ≥ 2 ^ 48 then some (s, .error .pageFault)
  else
    (knownLeaf s (coreOf f) t.partition t.xlat frame).map fun x => match x with
      | none => (s, .error .pageFault)
      | some (leaf, bits) =>
        match leafCheck t.partition need false leaf bits frame with
        | .error c => (s, .error c)
        | .ok pa => reach (tlbTouch s (coreOf f) t.partition frame leaf bits) t.partition pa frame

/-- A team enters its handler, every earlier result having landed (R33, R379), or meets an unhandled trap (R381). Where its frame
has no translation yet it stays on its way until a walk brings one (R320). -/
def enterHandler (s0 : State) (f : Nat) (i : TrapInfo) : State :=
  let s := commitFixed s0 f
  match tfind s.teams f with
  | none => s
  | some t =>
    if t.handler.isSome then unhandled s f t i 3 ((t.handler.map (·.frame)).getD 0)
    else if t.hdlr = 0 then unhandled s f t i 0 0
    else if (s.partition t.partition).fltb = 0 then unhandled s f t i 1 0
    else
      let frame := frameAddr s f t
      match frameReach s f t .write frame with
      | none => (askWalk s f t.partition (frame / 2 ^ 16) frame).setTeam f { t with wait := .trap i }
      | some (s1, .error _) => unhandled s1 f t i 2 0
      | some (s1, .ok pa) =>
        let r := homeWrite s1 (clusterOf f) t.partition ((frameBytes t i).map fun w => (pa + w.1, w.2)) frame
        if !r.2.isEmpty then unhandled r.1 f t i 2 0
        else
          let back := if i.cause = Cause.userTrap.code then i.word + 8 else i.word
          r.1.setTeam f { t with
            k := tset (tset t.k 62 (BitVec.ofNat 64 frame) 0) 63 (BitVec.ofNat 64 back) 0
            kFresh := (t.kFresh.filter fun k => k != 62 && k != 63) ++ [62, 63]
            trapCause := i.cause
            trapUcode := if i.cause = Cause.userTrap.code then i.ucode else t.trapUcode
            handler := some { mask := t.mask, uid := t.pathUid, stack := t.stack, frame, parked := t.parked }
            mask := allLanes t.nlanes &&& ~~~t.exited
            pathUid := t.nextUid
            nextUid := t.nextUid + 1
            stack := []
            parked := []
            xlat := []
            pc := t.hdlr
            wait := .ready }

/-- A trap: the team enters its handler once every scoreboarded result but tokens is written (R33, R146). -/
def trapTeam (s : State) (f : Nat) (i : TrapInfo) : State :=
  match tfind s.teams f with
  | none => s
  | some t => if t.outstanding then s.setTeam f { t with wait := .trap i } else enterHandler s f i

/-- A word traps: neither it nor its result takes effect, and it counts as no issue (R33, R79). -/
def trapWord (s : State) (f : Nat) (t : Team) (c : Cause) : State := trapTeam s f { cause := c.code, word := t.pc }

/-- Lanes park at an issued word; where the mask empties with no join left the team enters its handler at the word that
follows (R150, R151). In handler mode a lane fault is an unhandled trap (R380). -/
def parkLanes (s : State) (f : Nat) (word : Nat) (faults : List (Nat × Nat × Nat)) : State :=
  match tfind s.teams f with
  | none => s
  | some t =>
    if faults.isEmpty then s
    else if t.handler.isSome then trapTeam s f { cause := Cause.parked.code, word }
    else
      let t1 := faults.foldl (fun t x => t.park x.1 x.2.1 x.2.2 word) t
      match t1.settle with
      | (t2, .run) => s.setTeam f t2
      | (t2, .empty) => trapTeam (s.setTeam f t2) f { cause := Cause.parked.code, word := word + 8 }

-- ===== the end of a word =====

/-- What an issued word leaves: its results, the lanes that fault, the word that comes next, and whether a segment ends
here. -/
structure Fin where
  pends : List Pend := []
  faults : List (Nat × FaultCode × Nat) := []
  next : Option Nat := none
  sw : Bool := false

/-- Whether a result has anything to deliver. -/
def Pend.live (p : Pend) : Bool := !p.lanes.isEmpty || p.lat == .token

/-- A word has issued (R137, R141): its results are in flight, its faulting lanes park, and the team goes on at the next
word, or waits at the switch marker. -/
def finishWord (s : State) (f : Nat) (x : Fin) : State :=
  match tfind s.teams f with
  | none => s
  | some t =>
    let word := t.pc
    let t1 := { t with issues := t.issues + 1, pc := x.next.getD (word + 8), pend := t.pend ++ x.pends.filter Pend.live
                       wait := if x.sw then .marker else t.wait }
    parkLanes (s.setTeam f t1) f word (x.faults.map fun e => (e.1, e.2.1.code, e.2.2))

-- ===== one slot over its lanes =====

/-- What a word does in one active lane: the registers it writes there, the flags it raises, or its fault and location. -/
structure LaneOut where
  vals : List (Reg × Word) := []
  flags : Flags := 0
  fault : Option (FaultCode × Nat) := none

/-- A part of a value-store key (R158): a source's tag, an immediate, or an unused field. -/
inductive KeyPart where
  | src (as : ReadAs) (x : Src)
  | imm (n : Word)
  | null
deriving DecidableEq, Repr

/-- The tag of a key part in a warp. -/
def keyTag (s : State) (t : Team) (w : Nat) : KeyPart → Tag
  | .src as x => srcTag s t as x w
  | .imm n => .const n
  | .null => .null

/-- How a word's result relates to the value store (R83, R106, R118, R167, R169, R227): no lineage, a key of its
sources' tags, such a key with the version of the sealed pages it reads and their package where that is another one, a key
whose version the answers of a package will bring, or a copy of one source's tag; `keyBut` names warps that have none. -/
inductive Lin where
  | none
  | key (l : List KeyPart)
  | keyBut (l : List KeyPart) (warps : List Nat)
  | sealed (l : List KeyPart) (ver : Nat) (pkg : Option Nat)
  | late (l : List KeyPart) (pkg : Nat)
  | copy (x : KeyPart)
deriving DecidableEq, Repr

/-- What a word's destination takes in a warp, under guard p0 true (R157, R158, R169). -/
def wordTag (s : State) (t : Team) (i : Instr) (h : Hdr) (lin : Lin) (w : Nat) : SweepBy :=
  let keyed := fun (l : List KeyPart) (ver : Nat) (pkg : Option Nat) =>
    let tag := fun n => keyTag s t w (l.getD n .null)
    mkKey t (keyFields i) (tag 0) (tag 1) (tag 2) ver pkg
  if h.gp = 0 ∧ h.gs = .isTrue then
    match lin with
    | .none => .fresh
    | .key l => (keyed l 0 none).elim .fresh .key
    | .keyBut l ws => if ws.contains w then .fresh else (keyed l 0 none).elim .fresh .key
    | .sealed l ver pkg => (keyed l ver pkg).elim .fresh .key
    | .late l pkg => (keyed l 0 (some pkg)).elim .fresh .late
    | .copy x => .tag (keyTag s t w x)
  else .fresh

/-- Whether a warp with this key binds to a completed entry (R160). -/
def keyBinds (s : State) (core : Nat) (x : SweepBy) : Bool :=
  match x with
  | .key k => (keyEntry s core k).elim false (·.2.completed)
  | _ => false

/-- Whether a lane's read of a v register meets a lasting error of its row (R387). -/
def rowBad (c : Core) (t : Team) (r lane : Nat) : Option Nat :=
  match tfind t.vmap (warpKey r (lane / 32)) with
  | some row => if (c.rowPoison ++ c.rowGone).contains (row * 32 + lane % 32) then some row else none
  | none => none

/-- What one slot of a word gives. -/
structure SlotRes where
  s : State
  pend : Pend
  faults : List (Nat × FaultCode × Nat)

/-- The lost row that a lane of a slot meets, with the register; a warp that binds reads none (R160, R387). -/
def lostRow (c : Core) (t : Team) (binds : Nat → Bool) (reads : Nat → List (Nat × Nat)) (l : Nat) : Option (Nat × Nat) :=
  if binds (l / 32) then none
  else (reads l).findSome? fun x => (rowBad c t x.1 x.2).map fun row => (x.1, row)

/-- What a lane of a slot gives (R387). -/
def slotLane (c : Core) (t : Team) (binds : Nat → Bool) (reads : Nat → List (Nat × Nat)) (fn : Nat → LaneOut) (l : Nat) : LaneOut :=
  match lostRow c t binds reads l with
  | some (r, _) => { fault := some (FaultCode.regPoisoned, r) }
  | none => fn l

/-- Whether a register is a vector register: only a result of one has lineage (R157). -/
def Reg.isV : Reg → Bool
  | .v _ => true
  | _ => false

/-- What the good lanes of a slot write to a register; one value for the team comes from the lowest lane (R49). -/
def slotWrite (good : List (Nat × LaneOut)) (r : Reg) : RegWrite :=
  let from' := match r with
    | .k _ | .t _ => good.take 1
    | _ => good
  ⟨r, from'.filterMap fun o => (o.2.vals.find? fun y => y.1 == r).map fun y => (o.1, y.2)⟩

/-- The value store's part of a slot: a sweep for each v register written (R156 to R163). -/
def slotSweep (s : State) (f : Nat) (t : Team) (keys : Nat → SweepBy) (seals : List (Nat × Nat)) (extra : List TagWrite)
    (warpFlags : Nat → Flags) (writes : List RegWrite) : State × List TagWrite :=
  writes.foldl (fun (a : State × List TagWrite) w =>
    match w.reg with
    | .v r =>
      let q := sweepWrite a.1 f t r (w.vals.map (·.1)) (extra ++ a.2) seals keys
      (q.1, a.2 ++ q.2.map fun x => { x with flags := warpFlags x.warp })
    | _ => a) (s, [])

/-- The warps of a slot that bind whole to completed entries (R160). -/
def slotBinds (s : State) (core : Nat) (t : Team) (act : List Nat) (keys : Nat → SweepBy) (w : Nat) : Bool :=
  (act.filter fun l => l / 32 == w).length == 32 && !t.nb && keyBinds s core (keys w)

/-- A slot carried out over its active lanes: `reads` gives the v registers that a lane reads, with the lane they are
read in; `fn` what the lane computes. Lanes that read a lost row park (R387); the value store sees each v register that
is written (R156 to R163). `extra` is what the word's other slot writes. -/
def runSlot (s : State) (f : Nat) (t : Team) (i : Instr) (h : Hdr) (lat : Lat) (dests : List Reg)
    (lin : Lin) (reads : Nat → List (Nat × Nat)) (extra : List TagWrite) (fn : Nat → LaneOut) : SlotRes :=
  let core := coreOf f
  let act := activeLanes t h
  let keys := if dests.any Reg.isV then wordTag s t i h lin else fun _ => .fresh
  let seals := match lin with
    | .sealed _ ver pkg => [(pkg.getD s.fabric.fid, ver)]
    | _ => []
  let binds := slotBinds s core t act keys
  let outs := act.map fun l => (l, slotLane (s.core core) t binds reads fn l)
  let good := outs.filter fun o => o.2.fault.isNone
  let faults := outs.filterMap fun o => o.2.fault.map fun x => (o.1, x.1, x.2)
  let writes := (dests.filter fun r => r != .p 0).map (slotWrite good)
  let warpFlags := fun w => Flags.union ((good.filter fun o => o.1 / 32 == w).map (·.2.flags))
  let rows := (act.filterMap fun l => (lostRow (s.core core) t binds reads l).map (·.2)).eraseDups
  let s1 := rows.foldl (fun s r => loseRow s f t.partition r) s
  let sw := slotSweep s1 f t keys seals extra warpFlags writes
  { s := sw.1
    pend := { issue := t.issues, lat, writes, flags := Flags.union (good.map (·.2.flags)), tags := sw.2, lanes := act }
    faults }

/-- The v registers among some sources, read in the lane itself. -/
def ownReads (l : List Src) (lane : Nat) : List (Nat × Nat) :=
  l.filterMap fun x =>
    match x with
    | .v r => some (r.toNat, lane)
    | _ => none

/-- The meaning of a word for the team that issues it: its next state; a fault where no
team is issuing. -/
def forTeam (s : State) (g : Nat → Team → State) : Host.Outcome State Fault Refusal :=
  match tfind s.teams s.cur with
  | none => .fault .noTeam
  | some t => .next (g s.cur t)

end Sys2Proof.Machine
end

