-- ==== Sys2Proof/Machine/Alu.lean ====
section
/-! DEFINITION. Lane arithmetic as data: what an arithmetic instruction reads, computes and writes, so that its F-form,
its pair slot and its lineage are one thing (R30, R83, R106, R118, R158). -/

namespace Sys2Proof.Machine

/-- An arithmetic instruction over its lanes. -/
structure Alu where
  i : Instr
  h : Hdr
  lat : Lat
  dests : List Reg
  lin : Lin
  srcs : List Src
  fn : State → Nat → Team → Nat → LaneOut

/-- The slot of an arithmetic instruction carried out. -/
def Alu.run (a : Alu) (s : State) (f : Nat) (t : Team) (extra : List TagWrite) : SlotRes :=
  runSlot s f t a.i a.h a.lat a.dests a.lin (ownReads a.srcs) extra (a.fn s f t)

/-- The state after an arithmetic word that a team issues. -/
def Alu.word (a : Alu) (s : State) (f : Nat) (t : Team) : State :=
  let r := a.run s f t []
  finishWord r.s f { pends := [r.pend], faults := r.faults, sw := a.h.sw }

/-- The meaning of an arithmetic word. -/
def Alu.exec (a : Alu) (s : State) : Host.Outcome State Fault Refusal := forTeam s fun f t => a.word s f t

/-- A value for a destination, with its flags. -/
def laneVal (d : Dst) (x : Word × Flags) : LaneOut := { vals := [(dstReg d, x.1)], flags := x.2 }

/-- A predicate for a destination. -/
def lanePred (p : BitVec 4) (x : BitVec 2) (fl : Flags := 0) : LaneOut := { vals := [(pReg p, x.setWidth 64)], flags := fl }

/-- A condition as a predicate value (R68). -/
def boolP (b : Bool) : BitVec 2 := if b then 1 else 0

/-- One word source. -/
def aluUn (i : Instr) (h : Hdr) (lat : Lat) (d : Dst) (a : Src) (g : Word → Word × Flags) : Alu :=
  { i, h, lat, dests := [dstReg d], lin := .key [.src .int a], srcs := [a]
    fn := fun s f t l => laneVal d (g (readSrc s f t .int a l)) }

/-- Two word sources. -/
def aluBin (i : Instr) (h : Hdr) (lat : Lat) (d : Dst) (a b : Src) (g : Word → Word → Word × Flags) : Alu :=
  { i, h, lat, dests := [dstReg d], lin := .key [.src .int a, .src .int b], srcs := [a, b]
    fn := fun s f t l => laneVal d (g (readSrc s f t .int a l) (readSrc s f t .int b l)) }

/-- Three word sources. -/
def aluTri (i : Instr) (h : Hdr) (lat : Lat) (d : Dst) (a b c : Src) (g : Word → Word → Word → Word × Flags) : Alu :=
  { i, h, lat, dests := [dstReg d], lin := .key [.src .int a, .src .int b, .src .int c], srcs := [a, b, c]
    fn := fun s f t l => laneVal d (g (readSrc s f t .int a l) (readSrc s f t .int b l) (readSrc s f t .int c l)) }

/-- A word source and an immediate, whose constant is the tag of B (R103, R158). -/
def aluImm (i : Instr) (h : Hdr) (lat : Lat) (d : Dst) (a : Src) (imm : BitVec 32) (g : BitVec 32 → Word → Word × Flags) : Alu :=
  { i, h, lat, dests := [dstReg d], lin := .key [.src .int a, .imm (imm.setWidth 64)], srcs := [a]
    fn := fun s f t l => laneVal d (g imm (readSrc s f t .int a l)) }

/-- A float result as a register value. -/
def fltOut (x : Nat × Flags) : Word × Flags := (BitVec.ofNat 64 x.1, x.2)

/-- One float source. -/
def fltUn (i : Instr) (h : Hdr) (lat : Lat) (d : Dst) (fm : Fmt) (a : MSrc) (g : FV → Word × Flags) : Alu :=
  { i, h, lat, dests := [dstReg d], lin := .key [.src (.flt fm) a.src], srcs := [a.src]
    fn := fun s f t l => laneVal d (g (readFlt s f t fm a l)) }

/-- Two float sources. -/
def fltBin (i : Instr) (h : Hdr) (lat : Lat) (d : Dst) (fm : Fmt) (a b : MSrc) (g : FV → FV → Word × Flags) : Alu :=
  { i, h, lat, dests := [dstReg d], lin := .key [.src (.flt fm) a.src, .src (.flt fm) b.src], srcs := [a.src, b.src]
    fn := fun s f t l => laneVal d (g (readFlt s f t fm a l) (readFlt s f t fm b l)) }

/-- Three float sources. -/
def fltTri (i : Instr) (h : Hdr) (lat : Lat) (d : Dst) (fm : Fmt) (a b c : MSrc) (g : FV → FV → FV → Word × Flags) : Alu :=
  { i, h, lat, dests := [dstReg d]
    lin := .key [.src (.flt fm) a.src, .src (.flt fm) b.src, .src (.flt fm) c.src], srcs := [a.src, b.src, c.src]
    fn := fun s f t l => laneVal d (g (readFlt s f t fm a l) (readFlt s f t fm b l) (readFlt s f t fm c l)) }

/-- One interval source. -/
def ivUn (i : Instr) (h : Hdr) (lat : Lat) (d : Dst) (a : MSrc) (g : Iv → Word × Flags) : Alu :=
  { i, h, lat, dests := [dstReg d], lin := .key [.src .ivl a.src], srcs := [a.src]
    fn := fun s f t l => laneVal d (g (readIv s f t a l)) }

/-- Two interval sources. -/
def ivBin (i : Instr) (h : Hdr) (lat : Lat) (d : Dst) (a b : MSrc) (g : Iv → Iv → Word × Flags) : Alu :=
  { i, h, lat, dests := [dstReg d], lin := .key [.src .ivl a.src, .src .ivl b.src], srcs := [a.src, b.src]
    fn := fun s f t l => laneVal d (g (readIv s f t a l) (readIv s f t b l)) }

/-- Latency classes (R143). -/
abbrev L4 : Lat := .fixed 4

/-- Latency class L8 (R143). -/
abbrev L8 : Lat := .fixed 8

/-- Latency class L12 (R143). -/
abbrev L12 : Lat := .fixed 12

end Sys2Proof.Machine
end

