-- ==== Sys2Proof/Machine/MemOps.lean ====
section
/-! DEFINITION. The memory instructions of a team (R222 to R237, R130 to R132, R337 to R342): where a lane's access
goes, page walks, race watch (R283 to R287), and the meanings of ld, st, pref, tkchk, lyset, ivbis and atom. -/

namespace Sys2Proof.Machine

-- ===== where a lane's access goes =====

/-- Where a lane's access goes: a lane fault with its location, a page whose translation a walk must bring, with the address
that misses, a place with the virtual address or window offset, the sealed version of the page and whether it is shared, or
bytes of .cn whose address maps to nothing. -/
inductive Spot where
  | fault (c : FaultCode) (loc : Nat)
  | miss (page va : Nat)
  | found (p : AccPlace) (va ver : Nat) (shared : Bool)
  | unmapped
deriving DecidableEq, Repr

/-- Whether a valid route to a package exists and its port carries traffic (R437, R438). -/
def routeUp (s : State) (pkg : Nat) : Bool :=
  let w := (tget s.fabric.froute (pkg / 8) 0).toNat
  let j := pkg % 8
  natBit w (8 * j + 7) && !(tget s.fabric.ports (natBits w (8 * j + 4) (8 * j)) {}).down

/-- The port of the route to a package (R437). -/
def routePort (s : State) (pkg : Nat) : Nat := natBits (tget s.fabric.froute (pkg / 8) 0).toNat (8 * (pkg % 8) + 4) (8 * (pkg % 8))

/-- The Tarbin version of the route to a package (R436). -/
def routeVer (s : State) (pkg : Nat) : Nat := (tget s.fabric.ports (routePort s pkg) {}).ver

/-- Whether a partition has joined its span (R437). -/
def spanOn (s : State) (partition : Nat) : Bool := natBit (s.partition partition).fspan.toNat 16

/-- What an access at an address in a fabric window meets at the requester (R438). -/
def remoteSpot (s : State) (partition pkg addr va : Nat) : Spot :=
  if !spanOn s partition then .fault .accessDenied va
  else if !routeUp s pkg then .fault .pageFault va
  else .found (.remote pkg addr) va 0 false

/-- What a leaf gives an access (R318); `loc` is the address that a lane fault names. -/
def leafSpot (partition : Nat) (need : Need) (vt : Bool) (leaf bits va loc : Nat) : Spot :=
  match leafCheck partition need vt leaf bits va with
  | .error c => .fault c loc
  | .ok pa => .found (.home pa) va (Leaf.ofNat leaf).ver (Leaf.ofNat leaf).x

/-- Where an access to .gl or .vt goes, by what the team's walks have brought and its core's TLB holds (R224, R318,
R319, R438). Every lane that waited on a walk parks with the address of the miss that asked for it (R388, log 76). -/
def glSpot (s : State) (f : Nat) (t : Team) (need : Need) (vt : Bool) (a : Nat) : Spot :=
  if a ≥ 2 ^ 48 then .fault .pageFault a
  else
    match windowOf s t.partition a with
    | some (pkg, addr) => remoteSpot s t.partition pkg addr a
    | none =>
      match t.xlat.find? fun x => x.page == a / 2 ^ 16 with
      | some x =>
        match x.leaf with
        | none => .fault .pageFault x.va
        | some leaf => leafSpot t.partition need vt leaf x.size a x.va
      | none =>
        match tlbFind (s.core (coreOf f)) t.partition a with
        | some e => leafSpot t.partition need vt e.leaf e.bits a a
        | none => .miss (a / 2 ^ 16) a

/-- Where an access of n bytes goes, the first broken rule of R225 winning. A .cn access is not translated and uses no TLB
(R319): its bytes are those of the section that the partition's tables map; where they map none, no rule of R225 is broken
and the value is free (log 77). -/
def laneSpot (s : State) (f : Nat) (t : Team) (space : Space) (need : Need) (n a : Nat) : State × Spot :=
  let k := s.kernelOf t
  if a % n ≠ 0 then (s, .fault .misaligned (if space == .cn then wrapNat 64 ((k.cnAddr + a : Nat) : Int) else a))
  else
    match space with
    | .sp =>
      let b := s.blockOf t
      (s, if a + n ≤ 256 * b.rows then .found (.sp b.cluster (256 * b.base + a)) a 0 false else .fault .scratchRange a)
    | .cn =>
      if a + n ≤ k.cnSize then
        match walkHeld s t.partition (k.cnAddr + a) .read with
        | (s1, .ok pa) => (s1, .found (.home pa) (k.cnAddr + a) 0 false)
        | (s1, .error _) => (s1, .unmapped)
      else (s, .fault .cnRange a)
    | .gl => (s, glSpot s f t need false a)
    | .vt => (s, glSpot s f t need true a)

/-- The address of a lane (R224). -/
def laneAddr (s : State) (f : Nat) (t : Team) (a : Src) (off : BitVec 16) (l : Nat) : Nat :=
  wrapNat 64 (((readSrc s f t .int a l).toNat : Int) + signedOf 16 off.toNat)

/-- The active lanes whose sources meet no lost row (R387). -/
def soundLanes (s : State) (f : Nat) (t : Team) (h : Hdr) (srcs : List Src) : List Nat :=
  (activeLanes t h).filter fun l => (ownReads srcs l).all fun x => (rowBad (s.core (coreOf f)) t x.1 x.2).isNone

/-- The places of some lanes. -/
def laneSpots (s : State) (lanes : List Nat) (go : State → Nat → State × Spot) : State × List (Nat × Spot) :=
  lanes.foldl (fun r l =>
    let x := go r.1 l
    (x.1, r.2 ++ [(l, x.2)])) (s, [])

/-- The pages that some lanes' translations wait for, each with the address of its first miss. -/
def missPages (l : List (Nat × Spot)) : List (Nat × Nat) :=
  l.foldl (fun m x => match x.2 with
    | .miss p va => if m.any fun y => y.1 == p then m else m ++ [(p, va)]
    | _ => m) []

/-- The word does not issue yet: its team waits for walks (R319, R320). -/
def waitWalks (s : State) (f : Nat) (t : Team) (pages : List (Nat × Nat)) : State :=
  (pages.foldl (fun s p => askWalk s f t.partition p.1 p.2) s).setTeam f { t with wait := .walk }

/-- The lookups of one warp's lanes that find their page (R319). -/
def warpPages (s : State) (f : Nat) (t : Team) (spots : List (Nat × Spot)) : List (Nat × Nat × Nat) :=
  pageLooks s (coreOf f) t.partition t.xlat (spots.filterMap fun x => match x.2 with
    | .found (.home _) va _ _ => some va
    | _ => none)

/-- The TLB entries that a word's lookups of .gl and .vt pages use, or enter from the walks that it waited on, where its
access does not fault, warp by warp (R318, R319); and the walks' outcomes that it has used up. -/
def usePages (s : State) (f : Nat) (t : Team) (space : Space) (spots : List (Nat × Spot)) : State :=
  let ws := warpsOf (spots.map (·.1))
  let looks := ws.flatMap fun w => warpPages s f t (spots.filter fun x => x.1 / 32 == w)
  let s1 := if space == .cn then s else looks.foldl (fun s x => tlbTouch s (coreOf f) t.partition x.1 x.2.1 x.2.2) s
  s1.modTeam f fun t => { t with xlat := [] }

-- ===== accesses put in flight =====

/-- What a trace of a partition tells of an access to memory (R426). -/
def traceAcc (s : State) (a : Acc) : State :=
  let addr := match a.place with
    | .sp _ x => x
    | _ => a.va
  if s.bexile.traced.contains a.partition then
    { s with notices := s.notices ++ [.traceAccess a.partition a.team addr a.size a.kind.writes] }
  else s

/-- A flit goes out on its route: in the scheduled class only while its outgoing port is at version 3 and its hop count is within
the stamped hmax (R453). With no route up, or while its port retrains (R454), it is held. -/
def forwardFlit (s : State) (flit : Flit) : State :=
  let port := routePort s flit.target
  let next := { flit with hops := flit.hops + 1
                          scheduled := flit.scheduled && decide (routeVer s flit.target ≥ 3) && decide (flit.hops + 1 ≤ flit.hmax) }
  if routeUp s flit.target && decide ((tget s.fabric.ports port {}).heldUntil ≤ s.cycle) then
    { s with fabric := { s.fabric with outgoing := s.fabric.outgoing ++ [(port, next)] } }
  else { s with fabric := { s.fabric with transit := s.fabric.transit ++ [flit] } }

/-- The flits that are held go out where they now may (R454). -/
def flushTransit (s : State) : State :=
  s.fabric.transit.foldl forwardFlit { s with fabric := { s.fabric with transit := [] } }

/-- A remote store leaves, while the scheduled class is enabled stamped with this package's hmax and a hop count (R453). -/
def sendStore (s : State) (a : Acc) : State :=
  match a.place with
  | .remote pkg _ =>
    if a.kind.isStore && natBit s.fabric.fsched.toNat 0 then
      forwardFlit s { target := pkg, scheduled := true, hops := 0, hmax := natBits s.fabric.fsched.toNat 15 8, payload := a.data }
    else s
  | _ => s

/-- An access put in flight. -/
def pushAcc (s : State) (a : Acc) : State :=
  let s1 := sendStore (traceAcc s a) a
  { s1 with accs := tput s1.accs s1.seq a, seq := s1.seq + 1 }

/-- Whether an access that could be performed at once meets an error block or a poisoned word (R297, R382, R384): its
state, and the fault with its location. An access that must wait meets its error when it is performed (R438's form). -/
def precheck (s : State) (a : Acc) : State × Option (FaultCode × Nat) :=
  if !accMayPerform s s.seq a then (s, none)
  else
    match a.place with
    | .sp cl x =>
      if a.kind.writes && !a.kind.returns && a.size == 8 then (s, none)
      else
        let r := (spWords x a.size).foldl (fun (r : State × Bool) w =>
          let q := spCheck r.1 cl w
          (q.1, r.2 || q.2)) (s, false)
        (r.1, if r.2 then some (.spPoisoned, a.va) else none)
    | .home pa =>
      if a.toHost || a.whole || a.l1Hit s then (s, none)
      else
        let r := readBlocks s pa a.size a.partition a.va
        (r.1, if r.2 then some (.memPoisoned, a.va) else none)
    | .remote _ _ => (s, none)

/-- The prechecks of some lanes' accesses, in lane order. -/
def precheckAll (s : State) (l : List (Nat × Acc)) : State × List (Nat × FaultCode × Nat) :=
  l.foldl (fun r x =>
    let q := precheck r.1 x.2
    (q.1, match q.2 with
      | some e => r.2 ++ [(x.1, e.1, e.2)]
      | none => r.2)) (s, [])

/-- The faults that lanes' places give. -/
def spotFaults (l : List (Nat × Spot)) : List (Nat × FaultCode × Nat) :=
  l.filterMap fun x => match x.2 with
    | .fault c loc => some (x.1, c, loc)
    | _ => none

/-- The accesses of lanes whose places are found. -/
def spotAccs (l : List (Nat × Spot)) (mk : Nat → AccPlace → Nat → Nat → Acc) : List (Nat × Acc) :=
  l.filterMap fun x => match x.2 with
    | .found p va ver shared => some (x.1, { mk x.1 p va ver with shared })
    | _ => none

/-- The lanes whose .cn bytes nothing maps, each with a free value (log 77). -/
def freeLanes (s : State) (l : List (Nat × Spot)) : State × List (Nat × Word) :=
  l.foldl (fun r x => match x.2 with
    | .unmapped => ({ r.1 with freeCtr := r.1.freeCtr + 1 }, r.2 ++ [(x.1, Config.freeWord r.1.freeCtr)])
    | _ => r) (s, [])

/-- The bytes of home memory that an access of a word writes. -/
def homeBytes (a : Acc) : List (Nat × Byte) :=
  match a.place with
  | .home pa => toBytes pa a.data a.size
  | _ => []

/-- The stores of a word, each told whether the lanes together write the whole of its error block (R382, R384). -/
def markWhole (l : List (Nat × Acc)) : List (Nat × Acc) :=
  let ws := l.flatMap fun x => homeBytes x.2
  l.map fun x => match x.2.place with
    | .home pa => (x.1, { x.2 with whole := !x.2.toHost && coverage 32 (pa / 32) ws == 32 })
    | _ => x

/-- An access of a lane of a team's word. -/
def laneAcc (f : Nat) (t : Team) (kind : AccKind) (size : Nat) (data : Nat) (hint : Hint) (cn : Bool)
    (lane : Nat) (place : AccPlace) (va ver : Nat) : Acc :=
  { team := f, block := t.block, partition := t.partition, cluster := clusterOf f, issue := t.issues, lane, kind, place, va,
    size, data, hint, cn, ver, word := t.pc }

/-- Whether a warp's register has been bound to a completed entry (R160). -/
def boundWarp (c : Core) (tags : List TagWrite) (w : Nat) : Bool :=
  tags.any fun x => x.warp == w && x.bound &&
    (match x.tag with
     | .entry _ i g _ => tget c.generation i 0 == g && (tfind c.tagTable i).elim false (·.completed)
     | _ => false)

/-- A word whose lanes access memory (R222, R226, R228, R340): lanes with faults park, the others' accesses go in
flight, and its result waits for them. `now` gives the values of lanes that have their value already; a bound warp takes
its value without an access (R160). -/
def accessWord (i : Instr) (h : Hdr) (dests : List Reg) (lin : Lin) (srcs : List Src) (faults : List (Nat × FaultCode × Nat))
    (accs : List (Nat × Acc)) (now : List (Nat × Word)) (acq : Option Scope) (s : State) (f : Nat) (t : Team) : State :=
  let out := fun l =>
    match faults.find? fun x => x.1 == l with
    | some x => { fault := some (x.2.1, x.2.2) : LaneOut }
    | none => { vals := dests.map fun r => (r, 0) }
  let r := runSlot s f t i h .variable dests lin (ownReads srcs) [] out
  let good := fun l => r.pend.lanes.contains l && !r.faults.any fun x => x.1 == l
  let bound := fun l => boundWarp (r.s.core (coreOf f)) r.pend.tags (l / 32)
  let peek := fun (x : Nat × Acc) =>
    match x.2.place, x.2.kind with
    | .home pa, .load w => if bound x.1 then some (x.1, loadVal w (memGet r.s pa x.2.size)) else none
    | .remote pkg y, .load w =>
      if bound x.1 then (heldRemote r.s x.2.cluster x.2.partition pkg y x.2.va).map fun l => (x.1, loadVal w (bytesGet l.data (y % 256) x.2.size))
      else none
    | _, _ => none
  let vals := now ++ accs.filterMap peek
  let go := accs.filter fun x => good x.1 && !vals.any fun y => y.1 == x.1
  let s1 := go.foldl (fun s x => pushAcc s x.2) r.s
  let p : Pend := { r.pend with writes := r.pend.writes.map fun w => { w with vals := vals.filter fun y => good y.1 }
                                accs := go.length, acq }
  finishWord s1 f { pends := if dests.isEmpty then [] else [p], faults := r.faults, sw := h.sw }

-- ===== race watch =====

/-- The granules of a window that an access touches, relative to the window (R283). -/
def windowGranules (off n : Nat) : List Nat := (List.range ((off % 32 + n + 31) / 32)).map fun i => off / 32 + i

/-- Whether an access of a team to a granule races: the other team and the kind (R284). -/
def raceAt (b : Block) (x : Nat) (writes : Bool) (g : Nat) : Option (Nat × Nat) :=
  match tfind b.races g with
  | none => none
  | some r =>
    match r.writer with
    | some w => if w ≠ x then some (w, if writes then 0 else 1) else readers r
    | none => readers r
where
  /-- The lowest other reader, for a write. -/
  readers (r : RaceRec) : Option (Nat × Nat) :=
    if writes then ((List.range 48).find? fun i => r.readers.getLsbD i && i != x).map fun i => (i, 2) else none

/-- A granule's record after an access of a team (R284). -/
def raceNote (x : Nat) (writes : Bool) (m : Tab RaceRec) (g : Nat) : Tab RaceRec :=
  let r := (tfind m g).getD ⟨none, 0⟩
  if writes then tput m g ⟨some x, 0⟩ else tput m g { r with readers := r.readers ||| BitVec.ofNat 48 (2 ^ x) }

/-- The check of a plain access's word (R284, R287): the race item of the lowest racing granule, or the block's records
after it. `touch` gives (lane, granule) pairs. -/
def raceCheck (b : Block) (x : Nat) (writes : Bool) (touch : List (Nat × Nat)) : Except Word (Tab RaceRec) :=
  if !b.raceOn then .ok b.races
  else
    let gs := (touch.map (·.2)).eraseDups
    let hits := gs.filterMap fun g => (raceAt b x writes g).map fun o => (g, o)
    match hits.foldl (fun (m : Option (Nat × Nat × Nat)) y =>
      match m with
      | none => some y
      | some z => if y.1 < z.1 then some y else some z) none with
    | some (g, other, kind) =>
      let lane := ((touch.filter fun y => y.2 == g).map (·.1)).foldl min 1023
      .error (BitVec.ofNat 64 (lane * 2 ^ 54 + kind * 2 ^ 48 + other * 2 ^ 32 + g))
    | none => .ok (gs.foldl (raceNote x writes) b.races)

/-- The state after the race check of a word, or the race (R284, R287). -/
def watchWord (s : State) (t : Team) (writes : Bool) (touch : List (Nat × Nat)) : Except Word State :=
  match raceCheck (s.blockOf t) t.index writes touch with
  | .error w => .error w
  | .ok m => .ok (s.modBlock t.block fun b => { b with races := m })

/-- The trap of a race (R287). -/
def raceTrap (s : State) (f : Nat) (t : Team) (item : Word) : State :=
  trapTeam s f { cause := Cause.scratchRace.code, word := t.pc, race := item }

/-- The granules that scratchpad accesses touch. -/
def touched (l : List (Nat × Acc)) : List (Nat × Nat) :=
  l.flatMap fun x => match x.2.place with
    | .sp _ _ => (windowGranules x.2.va x.2.size).map fun g => (x.1, g)
    | _ => []

-- ===== ld, st, pref =====

/-- The sealed version under which a lane's access reads, with the package where that is another one: a leaf's, or that of a
held line; version 0 where none is known (R227, R441). -/
def accVersion (s : State) (a : Acc) : Nat × Option Nat :=
  match a.place with
  | .remote pkg x => ((heldRemote s a.cluster a.partition pkg x a.va).elim 0 (·.ver), some pkg)
  | _ => (a.ver, none)

/-- The lineage of a load (R157, R227): an ld.cn's, but in the warps with a lane whose bytes nothing maps (log 77), or that of a load whose every lane reads pages of one package sealed at
one version. Where the lanes read another package over Tarbin version 2 or higher, and no held lines tell the version, the
answers will bring it (log 18). -/
def loadLin (s : State) (space : Space) (a : Src) (lanes : Nat) (accs : List (Nat × Acc)) (free : List Nat) : Lin :=
  let key := [KeyPart.src .int a]
  match space, accs with
  | .cn, _ => .keyBut key (warpsOf free)
  | .sp, _ => .none
  | _, x :: _ =>
    let v := accVersion s x.2
    if accs.length ≠ lanes then .none
    else if v.1 ≠ 0 ∧ accs.all fun y => accVersion s y.2 == v then .sealed key v.1 v.2
    else
      match v.2 with
      | some pkg => if (accs.all fun y => (accVersion s y.2).2 == some pkg) && decide (routeVer s pkg ≥ 2) then .late key pkg else .none
      | none => .none
  | _, [] => .none

/-- The lanes of an ld.iv read at once, in lane order (R66): the state, the values, and the faults. -/
def readNow (s : State) (accs : List (Nat × Acc)) : State × List (Nat × Word) × List (Nat × FaultCode × Nat) :=
  accs.foldl (fun r x =>
    let q := performAcc r.1 x.2
    match q.out with
    | .ok v => (q.s, r.2.1 ++ [(x.1, v.getD 0)], r.2.2)
    | .error c => (q.s, r.2.1, r.2.2 ++ [(x.1, c, x.2.va)])) (s, [], [])

/-- The meaning of ld (R226, R227). An ld.iv of this package's memory waits, unissued and after its race check, which is made
once (R284), until its lanes may be performed, since its check of the value read parks precisely. -/
def execLd (h : Hdr) (space : Space) (w : Width) (hint : Hint) (d : Dst) (a : Src) (off : BitVec 16) (s : State) :
    Host.Outcome State Fault Refusal :=
  forTeam s fun f t =>
    let n := widthBytes w
    let lanes := soundLanes s f t h [a]
    let r := laneSpots s lanes fun s l => laneSpot s f t space .read n (laneAddr s f t a off l)
    let pages := missPages r.2
    if !pages.isEmpty then waitWalks r.1 f t pages
    else
      let accs := spotAccs r.2 fun l => laneAcc f t (.load w) n 0 hint (space == .cn) l
      let early := fun (x : Nat × Acc) => w == .iv && !x.2.toHost && (match x.2.place with
        | .remote _ _ => false
        | _ => true)
      match if t.watched == some (t.issues, t.pathUid) then .ok r.1 else watchWord r.1 t false (touched accs) with
      | .error item => raceTrap r.1 f t item
      | .ok s1 =>
        if (accs.filter early).any fun x => !accMayPerform r.1 r.1.seq x.2 then
          (s.modBlock t.block fun b => { b with races := (s1.blockOf t).races }).modTeam f
            fun t => { t with watched := some (t.issues, t.pathUid) }
        else
          let s2 := usePages s1 f t space r.2
          let q := precheckAll s2 accs
          let sound := accs.filter fun x => !q.2.any fun y => y.1 == x.1
          let v := readNow q.1 (sound.filter early)
          let u := freeLanes v.1 r.2
          let lin := loadLin s2 space a (activeLanes t h).length accs (u.2.map (·.1))
          accessWord (.ld h space w hint d a off) h [dstReg d] lin [a] (spotFaults r.2 ++ q.2 ++ v.2.2) sound (v.2.1 ++ u.2) none
            u.1 f t

/-- The meaning of st (R228). -/
def execSt (h : Hdr) (space : Space) (w : Width) (hint : Hint) (a data : Src) (off : BitVec 16) (s : State) :
    Host.Outcome State Fault Refusal :=
  forTeam s fun f t =>
    let n := widthBytes w
    let lanes := soundLanes s f t h [a, data]
    let r := laneSpots s lanes fun s l => laneSpot s f t space .write n (laneAddr s f t a off l)
    let pages := missPages r.2
    if !pages.isEmpty then waitWalks r.1 f t pages
    else
      let value := fun l => readSrc s f t (if w == .iv then .ivl else .int) data l
      let ill := fun (x : Nat × Acc) => w == .iv && Iv.ofWord (value x.1) == .illFormed
      let all := spotAccs r.2 fun l => laneAcc f t .store n ((value l).toNat % 2 ^ (8 * n)) hint false l
      let bad := (all.filter ill).map fun x => (x.1, FaultCode.badInterval, x.2.va)
      let accs := markWhole (all.filter fun x => !ill x)
      match watchWord r.1 t true (touched accs) with
      | .error item => raceTrap r.1 f t item
      | .ok s1 =>
        let s2 := usePages s1 f t space r.2
        let q := precheckAll s2 accs
        let sound := accs.filter fun x => !q.2.any fun y => y.1 == x.1
        accessWord (.st h space w hint a data off) h [] .none [a, data] (spotFaults r.2 ++ bad ++ q.2) sound [] none q.1 f t

/-- One line of a pref whose page translates (R229): a read miss under the hint. A line of host memory, or of another package that
this one does not hold, is asked for, and its answer fills the L1 (R438). -/
def prefLine (s : State) (f : Nat) (t : Team) (space : Space) (hint : Hint) (x : Nat × Spot) : State :=
  match x.2 with
  | .found p va ver shared =>
    let acc := fun (p : AccPlace) =>
      { laneAcc f t .prefetch 256 0 hint (space == .cn) x.1 p (va / 256 * 256) ver with shared }
    match p with
    | .home pa =>
      if pa ≥ 0x80000000000 then (if hint == .bypass then s else pushAcc s (acc (.home (pa / 256 * 256))))
      else if hint == .bypass then llcTouch s t.partition pa false shared
      else (cachedRead s (clusterOf f) t.partition (pa / 256 * 256) 256 hint (space == .cn) ver (va / 256 * 256) shared).s
    | .remote pkg addr =>
      if hint == .bypass then s
      else
        match heldRemote s (clusterOf f) t.partition pkg addr va with
        | some l => readHeld s (clusterOf f) l hint
        | none => pushAcc s (acc (.remote pkg (addr / 256 * 256)))
    | .sp _ _ => s
  | _ => s

/-- The meaning of pref (R229). It never faults: a line whose translation fails is dropped. -/
def execPref (h : Hdr) (space : Space) (hint : Hint) (a : Src) (off : BitVec 16) (s : State) : Host.Outcome State Fault Refusal :=
  forTeam s fun f t =>
    let addr := laneAddr s f t a off
    let byLine := fun (m : List Nat) (l : Nat) => if m.any fun y => addr y / 256 == addr l / 256 then m else m ++ [l]
    let spots := laneSpots s ((soundLanes s f t h [a]).foldl byLine []) fun s l => laneSpot s f t space .read 1 (addr l)
    let pages := missPages spots.2
    if !pages.isEmpty then waitWalks spots.1 f t pages
    else
      let r := runSlot (usePages spots.1 f t space spots.2) f t (.pref h space hint a off) h L4 [] .none (ownReads [a]) [] fun _ => {}
      finishWord (spots.2.foldl (fun s x => prefLine s f t space hint x) r.s) f { faults := r.faults, sw := h.sw }

-- ===== tokens and layout slots =====

/-- Whether a token register is outstanding (R230). -/
def tokenOut (t : Team) (k : Nat) : Bool :=
  t.pend.any fun p => p.lat == .token && p.writes.any fun w => w.reg == .k k

/-- The meaning of tkchk (R233). -/
def execTkchk (h : Hdr) (d : Dst) (tok : BitVec 6) (s : State) : Host.Outcome State Fault Refusal :=
  ({ i := .tkchk h d tok, h, lat := L4, dests := [dstReg d], lin := .none, srcs := []
     fn := fun _ _ t _ => laneVal d (if tokenOut t tok.toNat then 0xFF else readK t tok.toNat, 0) } : Alu).exec s

/-- The state of a layout slot. -/
def slotOf (t : Team) (g : BitVec 4) : LySlot := tget t.slots g.toNat {}

/-- The meaning of lyset (R236, R237). It waits, unissued, while its slot is pending. -/
def execLyset (h : Hdr) (space : Space) (hint : Hint) (grp : BitVec 4) (base : Option (BitVec 6)) (off : BitVec 16) (s : State) :
    Host.Outcome State Fault Refusal :=
  forTeam s fun f t =>
    if (slotOf t grp).state == .pending then s
    else
      let b := match base with
        | some k => (readK t k.toNat).toNat
        | none => 0
      let addr := wrapNat 64 ((b : Int) + signedOf 16 off.toNat)
      let slot : LySlot := { state := .pending, record := 0, addr, cn := space == .cn, hint, issue := t.issues }
      finishWord (s.setTeam f { t with slots := tput t.slots grp.toNat slot }) f { sw := h.sw }

/-- The record that a lyset reads, at a physical place under a leaf: through the L1, and from its home with the hold and the host
link's answer that it meets (R237, R385, R394); none where it cannot be read. -/
def slotFetch (s : State) (f : Nat) (t : Team) (x : LySlot) (pa leaf : Nat) : State × Option Nat :=
  let l := Leaf.ofNat leaf
  let held := (l1Find s (clusterOf f) t.partition none (pa / 256) l.ver x.cn).isSome
  match if held then (s, .ok pa) else reach s t.partition pa (slotAddr s t x) with
  | (s1, .error _) => (s1, none)
  | (s1, .ok pa) =>
    let r := cachedRead s1 (clusterOf f) t.partition pa 64 x.hint x.cn l.ver (slotAddr s t x) l.x
    (r.s, if r.lost then none else some r.value)

/-- The read of a layout slot: the state, and the 64 bytes, none where it cannot be read (R237); none of both where it must ask for
a walk first (R320). DESIGN CHOICE: a record in another package, through a fabric window, cannot be read, since R438 does not
list lyset among what may be remote (log 84). -/
def slotRead (s : State) (f : Nat) (t : Team) (x : LySlot) : Option (State × Option Nat) :=
  let a := slotAddr s t x
  if x.addr % 64 ≠ 0 || (x.cn && decide (x.addr + 64 > (s.kernelOf t).cnSize)) || decide (a ≥ 2 ^ 48) ||
      (windowOf s t.partition a).isSome then some (s, none)
  else if x.cn then
    match walkHeld s t.partition a .read with
    | (s1, .error _) => some (s1, none)
    | (s1, .ok pa) => some (slotFetch s1 f t x pa 0)
  else
    (knownLeaf s (coreOf f) t.partition x.xlat a).map fun y => match y with
      | none => (s, none)
      | some (leaf, bits) =>
        match leafCheck t.partition .read false leaf bits a with
        | .error _ => (s, none)
        | .ok pa => slotFetch (tlbTouch s (coreOf f) t.partition a leaf bits) f t x pa leaf

/-- Whether the read of a pending slot waits on a walk (R320). -/
def slotWalks (s : State) (team slot : Nat) : Bool := s.walks.any fun w => w.2.others.contains (.slot team slot)

/-- The meaning of LAYOUT_SLOT_LOADED: the read of a pending slot ends (R236, R237), after the team's earlier accesses to the
record's bytes (R327) and after the acquire part of an earlier atomic (R342), or asks for the walk that it lacks (R320). -/
def execLayoutSlotLoaded (team slot : Nat) (s : State) : Host.Outcome State Fault Refusal :=
  .next (match tfind s.teams team with
  | none => s
  | some t =>
    let x := tget t.slots slot {}
    let mine := fun (e : Acc) => match e.place, slotPlace s team t x with
      | .home pa, some p => spansMeet pa e.size p 64
      | _, _ => false
    let held := (s.accs.any fun e => e.2.team == team && decide (e.2.issue < x.issue) && mine e.2) ||
      t.pend.any fun p => p.acq.isSome && decide (p.issue < x.issue)
    if x.state != .pending || held || slotWalks s team slot then s
    else
      match slotRead s team t x with
      | none => askWalkFor s (dieOf team) t.partition (slotAddr s t x / 2 ^ 16) (slotAddr s t x) (.slot team slot)
      | some r =>
        let y := match r.2 with
          | some rec => { x with state := .loaded, record := rec, xlat := [] }
          | none => { x with state := .faulted, xlat := [] }
        r.1.modTeam team fun t => { t with slots := tput t.slots slot y })

-- ===== ivbis =====

/-- What ivbis does to its list in one lane: the results, the fault, the count and the entry to store. -/
structure BisLane where
  lane : Nat
  out : LaneOut
  entry : Option (Nat × Nat)

/-- The lanes of an ivbis from a count on (R131): what each gives, and the count left. -/
def bisLanes (s : State) (f : Nat) (t : Team) (d : BitVec 7) (a : MSrc) (tag : Src) (pc : BitVec 4) (base cap rows : Nat)
    (cntFault : Option (FaultCode × Nat)) (lanes : List Nat) (count : Nat) : List BisLane × Nat :=
  lanes.foldl (fun (r : List BisLane × Nat) l =>
    let give := fun (x : Word) (ok : Bool) (fl : Flags) =>
      ({ vals := [(Reg.v d.toNat, x), (pReg pc, (boolP ok).setWidth 64)], flags := fl } : LaneOut)
    let keep := fun (o : LaneOut) => (r.1 ++ [(⟨l, o, none⟩ : BisLane)], r.2)
    match readIv s f t a l with
    | .illFormed => keep (give naiWord false Flags.nv)
    | .nai => keep (give naiWord false 0)
    | .empty => keep (give emptyWord false 0)
    | .proper lo hi =>
      if FV.cmp lo hi == .eq then keep (give (ivWord lo hi) false 0)
      else
        match cntFault with
        | some e => keep { fault := some e }
        | none =>
          if r.2 ≥ cap then keep (give (ivWord lo hi) false 0)
          else
            let m := ivMid lo hi
            let off := 16 * (base + r.2)
            if off + 16 > 256 * rows then (r.1 ++ [⟨l, { fault := some (.scratchRange, off) }, none⟩], r.2 + 1)
            else
              let upper := (ivWord m hi).toNat + (readSrc s f t .int tag l).toNat % 2 ^ 32 * 2 ^ 64
              (r.1 ++ [⟨l, give (ivWord lo m) true 0, some (off, upper)⟩], r.2 + 1)) ([], count)

/-- The meaning of ivbis (R130 to R132). It waits, unissued, until the scoreboard and the team's earlier accesses let its
count be read (R218, R327). Its entries are checked by race watch before they wait (R284): where they may be stored, they are
at once; otherwise they go in flight. DESIGN CHOICE: every lane counts first, then the count is stored and last the entries,
which tells where an entry covers the count word (log 78). -/
def execIvbis (h : Hdr) (d : BitVec 7) (a : MSrc) (q : BitVec 6) (tag : Src) (pc : BitVec 4) (s : State) :
    Host.Outcome State Fault Refusal :=
  forTeam s fun f t =>
    let b := s.blockOf t
    let w := (readK t q.toNat).toNat
    let cnt := 4 * natBits w 57 38
    let at' := 256 * b.base
    let lanes := soundLanes s f t h [a.src, tag]
    let inWin := decide (cnt + 4 ≤ 256 * b.rows)
    let wants := lanes.any fun l => match readIv s f t a l with
      | .proper lo hi => FV.cmp lo hi != .eq
      | _ => false
    let one := fun (off n : Nat) => laneAcc f t .store n 0 .none false 0 (.sp b.cluster (at' + off)) off 0
    let c := if inWin && wants then spRead s b.cluster (at' + cnt) 4 else (s, 0, [])
    let cntFault : Option (FaultCode × Nat) :=
      if !inWin then some (.scratchRange, cnt) else if c.2.2.isEmpty then none else some (.spPoisoned, cnt)
    let r := bisLanes s f t d a tag pc (natBits w 17 0) (natBits w 37 18) b.rows cntFault lanes c.2.1
    let entries := r.1.filterMap fun x => x.entry.map fun e => (x.lane, e)
    let held := entries.any fun e => !accMayPerform s s.seq (one e.2.1 16)
    if wants && inWin && !accMayPerform s s.seq (one cnt 4) then s
    else
      match watchWord s t true (entries.flatMap fun e => (windowGranules e.2.1 16).map fun g => (e.1, g)) with
      | .error item => raceTrap s f t item
      | .ok s0 =>
        let s1 := if inWin && wants then (spRead s0 b.cluster (at' + cnt) 4).1 else s0
        let s2 := if r.2 = c.2.1 then s1 else (spWrite s1 b.cluster (toBytes (at' + cnt) r.2 4)).1
        let store := fun (s : State) (e : Nat × Nat × Nat) =>
          if held then pushAcc s { one e.2.1 16 with lane := e.1, data := e.2.2 }
          else (spWrite s b.cluster (toBytes (at' + e.2.1) e.2.2 16)).1
        let s3 := entries.foldl store s2
        let z := runSlot s3 f t (.ivbis h d a q tag pc) h .variable [.v d.toNat, pReg pc] .none (ownReads [a.src, tag]) [] fun l =>
          ((r.1.find? fun x => x.lane == l).map (·.out)).getD {}
        finishWord z.s f { pends := [z.pend], faults := z.faults, sw := h.sw }

-- ===== releases and atomics =====

/-- Whether every earlier load and atomic of a team has returned, every store of it has been performed at its home, and
every copy whose token it has read is complete (R328). A token is read only when it is complete, so no copy is waited for. The
reads of its layout slots are among its earlier accesses (R330).
DEDUCED: the home of host memory is the host and that of a remote byte its package (R312, R439), so their stores are waited
for at every scope (log 79). -/
def releaseReady (s : State) (f : Nat) (t : Team) (scope : Scope) : Bool :=
  let waits := fun (a : Acc) => match a.place with
    | .sp _ _ => scopeRank scope ≤ 1 || a.kind.returns
    | _ => a.kind.writes || a.kind.returns
  !(s.accs.any fun e => e.2.team == f && waits e.2) && !(t.pend.any fun p => p.accs != 0) && !slotWaits t

/-- Whether a release at a scope meets the trap that a lost store owes (R439). -/
def releaseDown (t : Team) (scope : Scope) : Bool := t.lostStore && decide (scopeRank scope ≥ 4)

/-- The trap of a release after a lost store, once (R439). -/
def downTrap (s : State) (f : Nat) (t : Team) : State :=
  trapWord (s.setTeam f { t with lostStore := false }) f { t with lostStore := false } .fabricDown

/-- Whether an order has a release part. -/
def atomHasRelease : AtomOrder → Bool
  | .rel | .ar => true
  | _ => false

/-- The scope of an order's acquire part. -/
def atomAcquire (o : AtomOrder) (scope : Scope) : Option Scope :=
  match o with
  | .acq | .ar => some scope
  | _ => none

/-- The space of an atomic. -/
def atomSpace : AtomSpace → Space
  | .gl => .gl
  | .sp => .sp
  | .vt => .vt

/-- The acquire part of an atomic that no lane executes (R342). -/
def emptyAcquire (s : State) (f : Nat) (t : Team) (h : Hdr) (acq : Option Scope) : State :=
  match acq with
  | some sc =>
    if (activeLanes t h).isEmpty && decide (scopeRank sc ≥ 2) then acquireInvalidate s (clusterOf f) t.partition else s
  | none => s

/-- The meaning of atom (R338 to R342). Its release part waits, unissued. -/
def execAtom (h : Hdr) (ty : Ty) (op : AtomOp) (space : AtomSpace) (order : AtomOrder) (scope : Scope) (d : Dst) (a b : Src)
    (c : Option Src) (s : State) : Host.Outcome State Fault Refusal :=
  forTeam s fun f t =>
    let rel := atomHasRelease order
    if rel && releaseDown t scope then downTrap s f t
    else if rel && !releaseReady s f t scope then s
    else
      let n := ty.bits / 8
      let srcs := [a, b] ++ c.toList
      let lanes := soundLanes s f t h srcs
      let r := laneSpots s lanes fun s l => laneSpot s f t (atomSpace space) .write n ((readSrc s f t .int a l).toNat)
      let pages := missPages r.2
      if !pages.isEmpty then waitWalks r.1 f t pages
      else
        let val := fun (x : Src) (l : Nat) => readSrc s f t (if ty == .f32 then .flt .f32 else .int) x l
        let kind := fun l => AccKind.atomic op ty (val b l) ((c.map fun x => val x l).getD 0)
        let accs := spotAccs r.2 fun l => laneAcc f t (kind l) n 0 .none false l
        let s1 := usePages r.1 f t (atomSpace space) r.2
        let q := precheckAll s1 accs
        let sound := accs.filter fun x => !q.2.any fun y => y.1 == x.1
        let acq := atomAcquire order scope
        let s2 := emptyAcquire q.1 f t h acq
        accessWord (.atom h ty op space order scope d a b c) h [dstReg d] .none srcs (spotFaults r.2 ++ q.2) sound [] acq s2 f t

-- ===== accesses performed =====

/-- A result takes a lane's value. -/
def Pend.take (p : Pend) (lane : Nat) (x : Option Word) : Pend :=
  { p with accs := p.accs - 1
           writes := match x with
             | some v => p.writes.map fun w => { w with vals := w.vals ++ [(lane, v)] }
             | none => p.writes }

/-- The result of an issue takes a lane's value, and lands with the last. -/
def takeValue (s : State) (f issue lane : Nat) (x : Option Word) : State :=
  let here := fun (p : Pend) => p.issue == issue && p.lat == .variable && p.accs != 0
  let s1 := s.modTeam f fun t => { t with pend := t.pend.map fun p => if here p then p.take lane x else p }
  match tfind s1.teams f with
  | none => s1
  | some t => if t.pend.any here then s1 else landDue s1 f fun p => p.issue == issue && p.lat == .variable

/-- A tag write of a result in flight replaced. -/
def setTagWrite (s : State) (f issue : Nat) (w x : TagWrite) : State :=
  s.modTeam f fun t => { t with pend := t.pend.map fun p =>
    if p.issue == issue then { p with tags := p.tags.map fun y => if y == w then x else y } else p }

/-- The result of a warp in flight takes a fresh tag, and a row of its own where it shared one. -/
def freshWarp (s : State) (f issue : Nat) (w : TagWrite) : State :=
  match tfind s.teams f with
  | none => s
  | some t =>
    let r := if w.bound then
        let rows := mappedRows s (coreOf f)
        let q := computedRow s (coreOf f) t w.reg w.warp rows rows
        (s.setCore (coreOf f) q.1, q.2)
      else (s, w.row)
    let q := freshTag (r.1.core (coreOf f)) t.partition
    setTagWrite (r.1.setCore (coreOf f) q.1) f issue w { w with tag := q.2, row := r.2, key := none, late := none, bound := false,
                                                                 lead := false }

/-- A warp in flight in which a lane faults: the entry that it would have completed dies, its value takes a fresh tag, and where it
leads its followers of the same sweep compute in their own right (R160). -/
def spoilTag (s : State) (f issue lane : Nat) : State :=
  match tfind s.teams f with
  | none => s
  | some t =>
    let tags := (t.pend.filter fun p => p.issue == issue).flatMap (·.tags)
    let mine := tags.filter fun w => w.warp == lane / 32 && (w.lead || w.late.isSome || w.bound)
    let lead := mine.filter (·.lead)
    let follow := tags.filter fun w => w.bound && w.warp != lane / 32 && lead.any fun l => l.tag == w.tag && l.row == w.row
    let keys := lead.filterMap (·.key)
    let s1 := if keys.isEmpty then s
      else s.setCore (coreOf f) (killEntries (s.core (coreOf f)) fun _ e => !e.completed && keys.contains e.key)
    (mine ++ follow).foldl (fun s w => freshWarp s f issue w) s1

/-- A lane whose fault is known only after its word, at the address given last, has issued parks now (R438). Where the team
has issued the exit that would end it, that exit does not take effect and the team enters its handler there. DESIGN CHOICE:
where the mask empties with nothing left on the stack otherwise, the team enters its handler at its current word, the one that
it would have issued next, not at the word after the faulting one (log 92). -/
def lateFault (s : State) (f lane : Nat) (code : FaultCode) (loc from' : Nat) : State :=
  match tfind s.teams f with
  | none => s
  | some t =>
    match t.wait with
    | .ended mask uid stack word =>
      let back := stack.foldl (fun m e => m ||| e.mask) mask
      let t1 := { t with mask, pathUid := uid, stack, pc := word, exited := t.exited &&& ~~~back, wait := .ready }
      trapTeam (s.setTeam f (t1.park lane code.code loc from')) f { cause := Cause.parked.code, word }
    | _ =>
      if t.handler.isSome then trapTeam s f { cause := Cause.parked.code, word := t.pc }
      else
        match (t.park lane code.code loc from').settle with
        | (t2, .run) => s.setTeam f t2
        | (t2, .empty) =>
          if t2.wait == .ready then trapTeam (s.setTeam f t2) f { cause := Cause.parked.code, word := t2.pc }
          else s.setTeam f t2

/-- An access leaves flight with its outcome: a value for its lane, or a fault that parks it. -/
def settleAccess (s : State) (key : Nat) (a : Acc) (out : Except FaultCode (Option Word)) : State :=
  let s1 := { s with accs := tdel s.accs key }
  match out with
  | .ok v => if a.kind.returns then takeValue s1 a.team a.issue a.lane v else s1
  | .error c =>
    let s2 := if a.kind.returns then takeValue (spoilTag s1 a.team a.issue a.lane) a.team a.issue a.lane none else s1
    if a.kind == .prefetch then s2 else lateFault s2 a.team a.lane c a.va a.word

/-- The result of an issue notes the sealed version under which a lane was read from another package (R227). -/
def noteVersion (s : State) (a : Acc) (ver : Nat) : State :=
  s.modTeam a.team fun t => { t with pend := t.pend.map fun p =>
    if p.issue == a.issue && p.lat == .variable then { p with vers := (p.vers ++ [ver]).eraseDups } else p }

/-- An access is performed at its place and leaves flight. -/
def performOne (s : State) (key : Nat) (a : Acc) : State :=
  let r := performAcc s a
  let v := accVersion s a
  settleAccess (if v.2.isSome then noteVersion r.s a v.1 else r.s) key a r.out

/-- An access is performed where it may be performed now. -/
def performNow (s : State) (key : Nat) (a : Acc) : State := if accMayPerform s key a then performOne s key a else s

/-- Whether an access is a load of scratchpad. -/
def Acc.readsSp (a : Acc) : Bool :=
  match a.place, a.kind with
  | .sp _ _, .load _ => true
  | _, _ => false

/-- The scratchpad loads of a word are performed together, where each may be: none of them sees a part of an mdrain.add
(R262). DEDUCED: log 82. -/
def performSpWord (s : State) (a : Acc) : State :=
  let l := s.accs.filter fun e => e.2.team == a.team && e.2.issue == a.issue && e.2.readsSp
  let rest := { s with accs := s.accs.filter fun e => !l.any fun x => x.1 == e.1 }
  if l.all fun e => accMayPerform rest e.1 e.2 then l.foldl (fun s e => performOne s e.1 e.2) s else s

/-- Whether an access is performed by this package's own home or scratchpad, not over the host link or the fabric. -/
def Acc.isLocal (s : State) (a : Acc) : Bool :=
  match a.place with
  | .remote _ _ => a.l1Hit s
  | _ => !a.toHost || a.l1Hit s

/-- The access of a lane of a result in flight. -/
def laneAccess (s : State) (f issue lane : Nat) : Option (Nat × Acc) :=
  s.accs.find? fun e => e.2.team == f && e.2.issue == issue && e.2.lane == lane && e.2.kind.returns

/-- Whether a token's value is known, so that only its landing is left (R230). -/
def Pend.tokenDone (p : Pend) : Bool := p.lat == .token && p.writes.all fun w => !w.vals.isEmpty

/-- The meaning of VARIABLE_LATENCY_WRITEBACK: a scoreboarded result lands, a known token included (R145); a load's or
atomic's lane is performed and returns (R226, R340). -/
def execVariableLatencyWriteback (team issue lane : Nat) (s : State) : Host.Outcome State Fault Refusal :=
  .next (match tfind s.teams team with
  | none => s
  | some t =>
    match t.pend.find? fun p => p.issue == issue && p.lat == .variable with
    | none => landDue s team fun p => p.issue == issue && p.tokenDone
    | some p =>
      if p.accs = 0 then landDue s team fun p => p.issue == issue && p.lat == .variable && p.accs == 0
      else
        match laneAccess s team issue lane with
        | some (key, a) => if a.readsSp then performSpWord s a else if a.isLocal s then performNow s key a else s
        | none => s)

/-- The meaning of PLAIN_SP_ACCESS_PERFORMED (R218). -/
def execPlainSpAccessPerformed (acc : Nat) (s : State) : Host.Outcome State Fault Refusal :=
  .next (match tfind s.accs acc with
  | none => s
  | some a => match a.place with
    | .sp _ _ => performNow s acc a
    | _ => s)

/-- The lanes of a word whose stores together write the whole error block of one of them (R382). -/
def wholeGroup (s : State) (a : Acc) : Tab Acc :=
  s.accs.filter fun e => e.2.team == a.team && e.2.issue == a.issue && e.2.whole && (match e.2.place, a.place with
    | .home x, .home y => x / 32 == y / 32
    | _, _ => false)

/-- The stores of a word to a block that they write whole are performed as one, where each may be (R322, R382, R384). -/
def performWhole (s : State) (a : Acc) : State :=
  let l := wholeGroup s a
  let rest := { s with accs := s.accs.filter fun e => !l.any fun x => x.1 == e.1 }
  if l.any fun e => !accMayPerform rest e.1 e.2 then s
  else (homeWriteHint rest a.cluster a.partition (l.flatMap fun e => homeBytes e.2) (fun _ => a.va) a.hint).1

/-- The meaning of HOME_STORE_PERFORMED (R322). -/
def execHomeStorePerformed (acc : Nat) (s : State) : Host.Outcome State Fault Refusal :=
  .next (match tfind s.accs acc with
  | none => s
  | some a => match a.place with
    | .home _ =>
      if a.kind.writes && !a.kind.returns && !a.toHost then (if a.whole then performWhole s a else performNow s acc a) else s
    | _ => s)

/-- The walkers of a die (R320). -/
def walkers : Nat := 16

/-- Whether a walk has a walker: it is among the first that its die serves (R320). -/
def walkRuns (s : State) (key : Nat) : Bool :=
  match tfind s.walks key with
  | none => false
  | some w => decide ((s.walks.filter fun e => e.2.die == w.die && decide (e.1 < key)).length < walkers)

/-- A walk's outcome brought to the read of a layout slot or to the memory side of an operation (R320). -/
def deliverWalk (s : State) (o : Waiter) (x : XlatResult) : State :=
  match o with
  | .slot f n => s.modTeam f fun t =>
      { t with slots := tmod t.slots n fun y => if y.state == .pending then { y with xlat := y.xlat ++ [x] } else y }
  | .op cl key =>
    let c := s.cluster cl
    s.setCluster cl { c with ops := tmod c.ops key fun y => { y with xlat := y.xlat ++ [x] } }

/-- The meaning of PAGE_WALK_COMPLETE: one outcome for everyone that waits on the walk (R320). A walk that fails walks again
once, and one that succeeds then counts as transient (R382). A table in a frame under retirement holds it (R385, R391). The
leaf enters a TLB when the access uses it (R318). -/
def execPageWalkComplete (walk : Nat) (s : State) : Host.Outcome State Fault Refusal :=
  .next (match tfind s.walks walk with
  | none => s
  | some w =>
    let held := (walkReads s (w.page * 2 ^ 16) 3 ((s.partition w.partition).proot * 4096)).any (frameHeld s)
    if !walkRuns s walk || held then s
    else
      let r := walkNow s w.partition (w.page * 2 ^ 16)
      if r.2.isNone && w.attempts == 0 then { r.1 with walks := tput r.1.walks walk { w with attempts := 1 } }
      else
        let s1 := { r.1 with walks := tdel r.1.walks walk }
        let s1 := if r.2.isSome && w.attempts != 0 then countTrans s1 w.die else s1
        let x : XlatResult := match r.2 with
          | some (leaf, bits) => ⟨w.page, some leaf, bits, 0, w.va⟩
          | none => ⟨w.page, none, 16, FaultCode.pageFault.code, w.va⟩
        let s2 := w.others.foldl (fun s o => deliverWalk s o x) s1
        w.teams.foldl (fun s f =>
          let more := s.walks.any fun e => e.2.teams.contains f
          s.modTeam f fun t => { t with xlat := t.xlat ++ [x], wait := if t.wait == .walk && !more then .ready else t.wait }) s2)

/-- The meaning of L1_LINE_AGE_OUT: a line that has reached its age is dropped (R323). -/
def execL1LineAgeOut (cluster line : Nat) (s : State) : Host.Outcome State Fault Refusal :=
  .next (l1Drop s cluster fun l => l.line == line && !l1Valid s l)

end Sys2Proof.Machine
end

