-- ==== Sys2Proof/Machine/CopyEngine.lean ====
section
/-! DEFINITION. The copy engine (R213 to R221, R230 to R244): tokens, what an operation's memory side names and meets,
how boxes move between memory and tiles (R212, R239 to R243), and the meanings of cpy, cpyt and cpys. -/

namespace Sys2Proof.Machine

-- ===== the memory side of an operation =====

/-- The kernel of an operation's block. -/
def opKernel (s : State) (x : AsyncOp) : Kernel :=
  match tfind s.blocks x.block with
  | none => {}
  | some b => ((s.launch? x.partition b.launch).map (·.kernel)).getD {}

/-- The virtual address of an address on an operation's memory side: a .cn offset counts from its section (R224). -/
def opAddr (s : State) (x : AsyncOp) (va : Nat) : Nat := if x.space == .cn then (opKernel s x).cnAddr + va else va

/-- Where an address of an operation's memory side lies, as the walks it was brought, its core's TLB or the tables give it
(R319): the place, the sealed
version and whether the page is shared, or the failure (R224, R318, R438). A route that is down is not a failure here
(R238). -/
def opSpot (s : State) (x : AsyncOp) (write : Bool) (va : Nat) : Except FaultCode (AccPlace × Nat × Bool) :=
  let a := opAddr s x va
  let need := if write then Need.write else .read
  if a ≥ 2 ^ 48 then .error .pageFault
  else
    match windowOf s x.partition a with
    | some (pkg, addr) => if spanOn s x.partition then .ok (.remote pkg addr, 0, false) else .error .accessDenied
    | none =>
      match nextLeaf s (coreOf x.team) x.partition x.xlat a with
      | none => .error .pageFault
      | some (leaf, bits) =>
        (leafCheck x.partition need (x.space == .vt) leaf bits a).map fun pa =>
          (.home pa, (Leaf.ofNat leaf).ver, (Leaf.ofNat leaf).x)

/-- An element of a box: its tile row and column, its address in memory where it has one, the place of its bit for one-bit
elements, and the address of a group's scale (R242). -/
structure Cell where
  i : Nat
  j : Nat
  va : Option Nat
  bit : Nat := 0
  sva : Nat := 0
deriving DecidableEq, Repr

/-- The columns at which a tile's elements begin: groups of 64 for .bp. -/
def Tile.starts (t : Tile) : List Nat :=
  if t.isBp then (List.range (t.cols / 64)).map (64 * ·) else List.range t.cols

/-- The columns at which the elements of a box begin: those of the tile, but one for each column where the storage has no groups. -/
def Layout.starts (l : Layout) (t : Tile) : List Nat := if l.fmt == .bp then t.starts else List.range t.cols

/-- The cell of tile element (i, j) at box row r: its address where it is in bounds; under .edge, in a load, that of the
nearest element in bounds (R212, R241). -/
def Layout.cell (l : Layout) (oneBit load : Bool) (i r j : Nat) : Cell :=
  if l.inside (r : Nat) (j : Nat) then
    { i, j, va := some (l.addr oneBit (r : Nat) (j : Nat)), bit := wrapNat 3 (l.index (r : Nat) (j : Nat) 0)
      sva := if l.fmt == .bp then l.scaleAddr (r : Nat) (j : Nat) else 0 }
  else if load && l.pad == 1 then
    let near := fun d => max 0 (min (l.index (r : Nat) (j : Nat) d) ((l.extent d : Int) - 1))
    { i, j, va := some (l.addrAt oneBit near), bit := wrapNat 3 (near 0) }
  else { i, j, va := none }

/-- The cells of a tile against a box, row by row (R239). -/
def boxCells (l : Layout) (t : Tile) (load : Bool) : List Cell :=
  (List.range t.rows).flatMap fun i => (l.starts t).map fun j => l.cell (t.fmt == .rel) load i i j

/-- The bytes that a cell has in memory. -/
def cellSize (l : Layout) (t : Tile) : Nat := if t.fmt == .rel then 1 else l.fmt.bytes

/-- The layout of an operation, with its base. -/
def opLayout (x : AsyncOp) : Layout :=
  match x.kind with
  | .tensor _ _ slot k0 k1 k2 k3 off _ | .scatter _ _ slot k0 k1 k2 k3 off => slotLayout slot k0 k1 k2 k3 off
  | .drainMem _ _ _ _ slot k0 k1 k2 k3 => slotLayout slot k0 k1 k2 k3 0
  | _ => Layout.of 0 0 0 0 0 0

/-- The cells of an operation's box, with an address where they are in bounds, and the tile that has them. -/
def opCells (s : State) (cl : Nat) (x : AsyncOp) : Tile × List Cell :=
  let l := opLayout x
  match x.kind with
  | .tensor store tile _ _ _ _ _ _ _ => let t := Tile.ofWord tile; (t, boxCells l t (!store))
  | .scatter tile idx _ _ _ _ _ _ =>
    let t := Tile.ofWord tile
    let rows := (scatterRows s cl (opBase s x) l t (Tile.ofWord idx)).1
    (t, rows.flatMap fun r => (l.starts t).map fun j => (l.atRow r.2).cell (t.fmt == .rel) false r.1 0 j)
  | .drainMem _ tile _ _ _ _ _ _ _ => let t := Tile.ofWord tile; (t, boxCells l t false)
  | _ => ({ base := 0, code := 2, rows := 0, cols := 0, pitch := 0, resv := 0 }, [])

/-- Whether an operation drains an accumulator tile to memory. -/
def OpKind.drains : OpKind → Bool
  | .drainMem _ _ _ _ _ _ _ _ _ => true
  | _ => false

/-- Whether an operation writes memory. -/
def opStores (x : AsyncOp) : Bool :=
  match x.kind with
  | .cpy st _ _ | .tensor st _ _ _ _ _ _ _ _ => st
  | .scatter _ _ _ _ _ _ _ _ | .drainMem _ _ _ _ _ _ _ _ _ => true
  | _ => false

/-- The (address, length) runs of some cells in memory, in element order, each group's scale after its planes. -/
def cellRuns (l : Layout) (t : Tile) (cs : List Cell) : List (Nat × Nat) :=
  cs.flatMap fun c => match c.va with
    | none => []
    | some va => (va, cellSize l t) :: (if t.isBp then [(c.sva, 2)] else [])

/-- The runs of an operation's memory side. -/
def opRuns (s : State) (cl : Nat) (x : AsyncOp) : List (Nat × Nat) :=
  let q := opCells s cl x
  cellRuns (opLayout x) q.1 q.2

/-- The pages of an operation's memory side whose translation no walk has brought and no TLB holds, each as its first address
(R319, R320). -/
def opMiss (s : State) (cl : Nat) (x : AsyncOp) : List Nat :=
  match x.kind with
  | .cpy _ _ _ => []
  | _ =>
    if x.presetStatus.isSome then []
    else
      let as := ((opRuns s cl x).map fun r => opAddr s x r.1).filter fun a => decide (a < 2 ^ 48) &&
        (windowOf s x.partition a).isNone && (knownLeaf s (coreOf x.team) x.partition x.xlat a).isNone
      as.foldl (fun l a => if l.any fun b => b / 2 ^ 16 == a / 2 ^ 16 then l else l ++ [a]) []

/-- An operation asks for the walks that its memory side lacks (R320). -/
def opAsk (s : State) (cl key : Nat) (x : AsyncOp) : State :=
  (opMiss s cl x).foldl (fun s a => askWalkFor s (dieOf x.team) x.partition (a / 2 ^ 16) a (.op cl key)) s

/-- The places that an operation's memory side touches; for a cpy, those of its lanes. -/
def opPlaces (s : State) (cl : Nat) (x : AsyncOp) : List (AccPlace × Nat) :=
  match x.kind with
  | .cpy _ size lanes => lanes.map fun l => (l.place, size)
  | _ => if x.presetStatus.isSome then [] else
    (opRuns s cl x).filterMap fun r => match opSpot s x (opStores x) r.1 with
      | .ok p => some (p.1, r.2)
      | .error _ => none

/-- Whether a place lies in host memory. -/
def AccPlace.isHost : AccPlace → Bool
  | .home pa => decide (pa ≥ 0x80000000000)
  | _ => false

/-- Whether a place lies in another package. -/
def AccPlace.isRemote : AccPlace → Bool
  | .remote _ _ => true
  | _ => false

/-- Whether two placed runs share a byte. -/
def placesMeet (a b : AccPlace × Nat) : Bool :=
  match a.1, b.1 with
  | .sp c x, .sp d y => c == d && spansMeet x a.2 y b.2
  | .home x, .home y => spansMeet x a.2 y b.2
  | .remote p x, .remote q y => p == q && spansMeet x a.2 y b.2
  | _, _ => false

/-- Whether an operation meets an outside party that may refuse it: the host, or another package. -/
def opOutside (s : State) (cl : Nat) (x : AsyncOp) : Bool :=
  (opPlaces s cl x).any fun p => p.1.isHost || p.1.isRemote

/-- Whether the host completes an operation's requests with an error, and whether the target package refuses it: free
(R394, R438). -/
def outsideRefuses (s : State) : Bool × Bool := (Config.freeBit s.freeCtr, Config.freeBit (s.freeCtr + 1))

/-- The fault of R318 for which the target package refuses an operation: free (R438). -/
def refusalCode (s : State) (x : AsyncOp) : FaultCode :=
  let codes := [FaultCode.accessDenied, .pageFault] ++ (if opStores x then [.sealedStore] else []) ++
    (if x.space == .vt then [.spaceMismatch] else [])
  codes.getD ((Config.freeWord (s.freeCtr + 2)).toNat % codes.length) .accessDenied

/-- The engine fault that a tensor copy or an mdrain to memory meets on its memory side, in element order: the code and
the address (R238, R261, R291, R394, R438), once it has every translation. A cpy raises none. -/
def memoryFault (s : State) (cl : Nat) (x : AsyncOp) : Option (FaultCode × Nat) :=
  match x.kind with
  | .cpy _ _ _ => none
  | _ =>
    if x.presetStatus.isSome || !(opMiss s cl x).isEmpty then none
    else
      let no := outsideRefuses s
      (opRuns s cl x).findSome? fun r =>
        match opSpot s x (opStores x) r.1 with
        | .error c => some (c, opAddr s x r.1)
        | .ok (.home pa, _) => if (AccPlace.home pa).isHost && no.1 then some (.pageFault, opAddr s x r.1) else none
        | .ok (.remote pkg _, _) => if routeUp s pkg && no.2 then some (refusalCode s x, opAddr s x r.1) else none
        | .ok _ => none

/-- The TLB lookups of an operation's memory side, one for each page (R319). -/
def opTranslate (s : State) (cl : Nat) (x : AsyncOp) : State :=
  match x.kind with
  | .cpy _ _ _ => s
  | _ =>
    if x.presetStatus.isSome then s
    else
      let core := coreOf x.team
      let as := ((opRuns s cl x).map fun r => opAddr s x r.1).filter fun a => (windowOf s x.partition a).isNone
      let need := if opStores x then Need.write else .read
      let one := fun (s : State) (p : Nat × Nat × Nat) =>
        match leafCheck x.partition need (x.space == .vt) p.2.1 p.2.2 p.1 with
        | .ok _ => tlbTouch s core x.partition p.1 p.2.1 p.2.2
        | .error _ => s
      (pageLooks s core x.partition x.xlat as).foldl one s

/-- A run of an operation's memory side goes out: a trace of its partition tells of it (R426), and one in host memory is a
request (R394). -/
def opReach (s : State) (x : AsyncOp) (p : AccPlace) (va n : Nat) : State :=
  let s1 := if s.bexile.traced.contains x.partition then
      { s with notices := s.notices ++ [.traceAccess x.partition x.team va n (opStores x)] }
    else s
  match p with
  | .home pa => if p.isHost then hostRequest s1 x.partition pa va else s1
  | _ => s1

/-- The runs of some cells of an operation's memory side go out. -/
def cellsReach (s : State) (x : AsyncOp) (l : Layout) (t : Tile) (cs : List Cell) : State :=
  (cellRuns l t cs).foldl (fun s r => match opSpot s x (opStores x) r.1 with
    | .ok p => opReach s x p.1 (opAddr s x r.1) r.2
    | .error _ => s) s

-- ===== moving =====

/-- What a move has done: the state, the bytes counted, and what its status reports (R231). -/
structure Moved where
  s : State
  bytes : Nat := 0
  rounded : Bool := false
  nai : Bool := false
  poisoned : Bool := false
  remote : Bool := false

/-- The status of a move (R231): 0x20 before 0x21 before the rest. -/
def Moved.status (m : Moved) : Nat :=
  if m.poisoned then 0x20 else if m.remote then 0x21 else bit1 m.rounded + 2 * bit1 m.nai

/-- What a move leaves for its token. -/
def Moved.tally (m : Moved) : Tally := ⟨m.bytes, m.rounded, m.nai, m.poisoned, m.remote⟩

/-- A move after what its operation had moved before. -/
def Moved.after (m : Moved) (t : Tally) : Moved :=
  { m with bytes := t.bytes + m.bytes, rounded := t.rounded || m.rounded, nai := t.nai || m.nai
           poisoned := t.poisoned || m.poisoned, remote := t.remote || m.remote }

/-- A free value of n bits. -/
def drawBits (s : State) (n : Nat) : State × Nat :=
  let (s1, c) := drawFree s
  (s1, (List.range ((n + 63) / 64)).foldl (fun x i => x + (Config.freeWord (c + i)).toNat * 2 ^ (64 * i)) 0 % 2 ^ n)

/-- A run of bytes read on an operation's memory side: the value, whether it was lost or did not arrive, and its line. -/
structure RunRead where
  s : State
  value : Nat
  lost : Bool := false
  down : Bool := false
  line : Option Nat := none

/-- A run of bytes read through the L1 under the operation's hint (R205, R234, R239). A line of another package that this one
does not hold has free bytes, and a free version, since the world outside holds them; it is held from then on, but for a sealed
one over a route that tells no version (R436, R440, R441). -/
def readRun (s : State) (cl : Nat) (x : AsyncOp) (p : AccPlace) (ver n va : Nat) (shared : Bool) : RunRead :=
  match p with
  | .home pa =>
    let r := cachedRead s cl x.partition pa n x.hint (x.space == .cn) ver va shared
    { s := r.s, value := r.value, lost := r.lost, line := some (pa / 256) }
  | .remote pkg addr =>
    match heldRemote s cl x.partition pkg addr va with
    | some l => { s := readHeld s cl l x.hint, value := bytesGet l.data (addr % 256) n }
    | none =>
      let q := drawBits s 2048
      let s1 := { q.1 with freeCtr := q.1.freeCtr + 32 }
      let v := drawBits s1 16
      let line := putBytes [] (toBytes 0 q.2 256)
      if !routeUp s pkg then { s := s1, value := 0, down := true }
      else
        let held := if routeVer s pkg ≥ 2 || v.2 = 0 then takeRemote v.1 cl x.partition pkg addr va v.2 x.hint line else v.1
        { s := held, value := bytesGet line (addr % 256) n }
  | .sp _ _ => { s, value := 0 }

/-- A cell as it was read: its bits in the tile's format, the home lines that its planes and its scale lie in, and those of
them in which it met a lost block. -/
structure CellRead where
  cell : Cell
  bits : Nat
  scale : Nat := 0
  rounded : Bool := false
  nai : Bool := false
  down : Bool := false
  line : Option Nat := none
  sline : Option Nat := none
  lostLines : List Nat := []

/-- Whether a cell met a lost block. -/
def CellRead.lost (c : CellRead) : Bool := !c.lostLines.isEmpty

/-- The line of a run that was lost. -/
def RunRead.lostLine (r : RunRead) : List Nat := if r.lost then r.line.toList else []

/-- A cell of a load read and converted (R240, R241, R242). -/
def readCell (s : State) (cl : Nat) (x : AsyncOp) (l : Layout) (t : Tile) (c : Cell) : State × CellRead :=
  match c.va with
  | none =>
    let fill := l.fill % 2 ^ (8 * l.fmt.bytes)
    if t.isBp then (s, { cell := c, bits := 0 })
    else if t.fmt == .rel then (s, { cell := c, bits := l.fill % 2 })
    else
      let v := loadConv l.fmt t.fmt fill
      (s, { cell := c, bits := v.1, rounded := v.2.1, nai := v.2.2 })
  | some va =>
    match opSpot s x false va with
    | .error _ => (s, { cell := c, bits := 0 })
    | .ok (p, ver, shared) =>
      let r := readRun s cl x p ver (cellSize l t) (opAddr s x va) shared
      let base : CellRead := { cell := c, bits := r.value, down := r.down, line := r.line, lostLines := r.lostLine }
      if t.isBp then
        match opSpot r.s x false c.sva with
        | .error _ => (r.s, base)
        | .ok (q, ver', shared') =>
          let z := readRun r.s cl x q ver' 2 (opAddr s x c.sva) shared'
          (z.s, { base with scale := z.value, sline := z.line, lostLines := r.lostLine ++ z.lostLine, down := r.down || z.down })
      else if t.fmt == .rel then (r.s, { base with bits := r.value / 2 ^ c.bit % 2 })
      else
        let v := loadConv l.fmt t.fmt r.value
        (r.s, { base with bits := v.1, rounded := v.2.1, nai := v.2.2 })

/-- Every cell of a load. -/
def readCells (s : State) (cl : Nat) (x : AsyncOp) (l : Layout) (t : Tile) (cs : List Cell) : State × List CellRead :=
  cs.foldl (fun r c =>
    let q := readCell r.1 cl x l t c
    (q.1, r.2 ++ [q.2])) (s, [])

/-- The bits of a cell in its tile. -/
def cellBits (t : Tile) : Nat := if t.isBp then 512 else t.fmt.bits

/-- Whether two cells of a tile share bytes in a load's scratchpad, or in a store's memory: one-bit elements do (R242, R250). -/
def Cell.mate (t : Tile) (load : Bool) (c d : Cell) : Bool :=
  if t.fmt == .rel then c.i == d.i && (if load then c.j / 8 == d.j / 8 else c.va == d.va) else c.i == d.i && c.j == d.j

/-- Whether the bytes that a cell's planes give lie in some lines, and those of its scale. -/
def CellRead.hit (t : Tile) (cs : List CellRead) (lines : List Nat) (c : CellRead) : Bool × Bool :=
  if lines.isEmpty then (false, false)
  else ((cs.filter fun d => c.cell.mate t true d.cell).any fun d => d.line.elim false lines.contains, c.sline.elim false lines.contains)

/-- Cells whose source lies in a line that holds a lost block, or did not arrive, take undefined bytes: their planes and their
scale each (R231). -/
def blurCells (s : State) (t : Tile) (lines : List Nat) (cs : List CellRead) : State × List CellRead :=
  cs.foldl (fun r c =>
    let h := c.hit t cs lines
    if h.1 || h.2 || c.down then
      let q := drawBits r.1 (cellBits t)
      let z := drawBits { q.1 with freeCtr := q.1.freeCtr + 8 } 16
      ({ z.1 with freeCtr := z.1.freeCtr + 1 },
        r.2 ++ [{ c with bits := if h.1 || c.down then q.2 else c.bits, scale := if h.2 || c.down then z.2 else c.scale }])
    else (r.1, r.2 ++ [c])) (s, [])

/-- A cell of a load that has moved already, with the lines that it came from. -/
def movedRead (s : State) (x : AsyncOp) (t : Tile) (c : Cell) : CellRead :=
  let line := fun (va : Nat) => match opSpot s x false va with
    | .ok (.home pa, _) => some (pa / 256)
    | _ => none
  { cell := c, bits := 0, line := c.va.bind line, sline := if t.isBp && c.va.isSome then line c.sva else none }

/-- The scratchpad bytes of some loaded cells (R250, R251). -/
def tileBytes (w0 : Nat) (t : Tile) (cs : List CellRead) : List (Nat × Byte) :=
  if t.isBp then
    cs.flatMap fun c => toBytes (256 * w0 + t.rowAt c.cell.i + c.cell.j) c.bits 64 ++
      toBytes (256 * w0 + t.scaleAt c.cell.i (c.cell.j / 64)) c.scale 2
  else if t.fmt == .rel then
    ((cs.map fun c => (c.cell.i, c.cell.j / 8)).eraseDups).map fun b =>
      (256 * w0 + t.rowAt b.1 + b.2, BitVec.ofNat 8 ((cs.filter fun c => c.cell.i == b.1 && c.cell.j / 8 == b.2).foldl
        (fun x c => x + c.bits % 2 * 2 ^ (c.cell.j % 8)) 0))
  else cs.flatMap fun c => toBytes (256 * w0 + t.rowAt c.cell.i + c.cell.j * (t.fmt.bits / 8)) c.bits (t.fmt.bits / 8)

/-- Bytes written by the copy engine into scratchpad: the bytes that poisoned words kept from being written (R297). -/
def engineWrite (s : State) (cl : Nat) (ws : List (Nat × Byte)) : State × Nat :=
  let r := spWrite s cl ws
  (r.1, (ws.filter fun w => r.2.contains (w.1 / 8)).length)

/-- Cells of a tensor load move (R239); `done` are those that have moved before, which a line found lost now leaves undefined
too (R231). DESIGN CHOICE: a cell whose source is lost is not counted among the bytes moved (log 93). -/
def loadBox (s : State) (cl : Nat) (x : AsyncOp) (l : Layout) (t : Tile) (cs done : List Cell) : Moved :=
  let r := readCells s cl x l t cs
  let lines := r.2.flatMap (·.lostLines)
  let old := done.map (movedRead r.1 x t)
  let o := blurCells r.1 t lines (old.filter fun c => let h := c.hit t old lines; h.1 || h.2)
  let b := blurCells (engineWrite o.1 cl (tileBytes (opBase s x) t o.2)).1 t lines r.2
  let w := engineWrite b.1 cl (tileBytes (opBase s x) t b.2)
  let live := r.2.filter fun c => !c.lost && !c.down
  let size := if t.isBp then 8 * 66 else t.fmt.bits
  { s := w.1, bytes := live.length * size / 8 - w.2, rounded := live.any (·.rounded), nai := live.any (·.nai),
    poisoned := r.2.any (·.lost) || w.2 != 0, remote := r.2.any (·.down) }

/-- A cell of a store: its bits in the storage format, the scale of a group, the 256-byte scratchpad lines that these come
from, and those of them in which a poisoned word was met. -/
structure CellOut where
  cell : Cell
  place : AccPlace
  bits : Nat
  scale : Option (AccPlace × Nat) := none
  rounded : Bool := false
  nai : Bool := false
  row : Nat := 0
  scaleRow : Nat := 0
  lostRows : List Nat := []

/-- Whether the source of a cell met a poisoned word. -/
def CellOut.lost (c : CellOut) : Bool := !c.lostRows.isEmpty

/-- The bits of a byte of memory replaced by a one-bit element (R242). -/
def putBit (old : Byte) (bit x : Nat) : Byte :=
  BitVec.ofNat 8 (old.toNat - old.toNat / 2 ^ bit % 2 * 2 ^ bit + x % 2 * 2 ^ bit)

/-- The bytes that a store writes at home, in element order, each with its virtual address. -/
def storeBytes (s : State) (l : Layout) (t : Tile) (cs : List CellOut) : List (Nat × Byte) :=
  cs.foldl (fun ws c =>
    match c.place with
    | .home pa =>
      if t.fmt == .rel then
        let old := ((ws.filter fun w => w.1 == pa).getLast?.map (·.2)).getD (tget s.mem pa 0)
        ws ++ [(pa, putBit old c.cell.bit c.bits)]
      else
        ws ++ toBytes pa c.bits (cellSize l t) ++ (match c.scale with
          | some (.home q, v) => toBytes q v 2
          | _ => [])
    | _ => ws) []

/-- How many of n bytes at a place are written: those of lost blocks are not (R384), nor those whose route is down. -/
def writtenAt (s : State) (bad : List Nat) (p : AccPlace) (n : Nat) : Nat :=
  match p with
  | .home pa => ((List.range n).filter fun i => !bad.contains ((pa + i) / 32)).length
  | .remote pkg _ => if routeUp s pkg then n else 0
  | .sp _ _ => 0

/-- How many bytes of memory a cell of a store writes. -/
def writtenBytes (s : State) (bad : List Nat) (l : Layout) (t : Tile) (c : CellOut) : Nat :=
  writtenAt s bad c.place (cellSize l t) + (match c.scale with
    | some (p, _) => writtenAt s bad p 2
    | none => 0)

/-- How many bytes of memory the cells of a store write; one-bit elements share theirs. -/
def storedCount (s : State) (bad : List Nat) (l : Layout) (t : Tile) (cs : List CellOut) : Nat :=
  if t.fmt == .rel then ((cs.filter fun c => writtenBytes s bad l t c != 0).map fun c => (c.cell.i, c.cell.va)).eraseDups.length
  else cs.foldl (fun n c => n + writtenBytes s bad l t c) 0

/-- The bytes of a store that go to another package reach the lines of it that the cluster holds (R204, R440); a line of
one-bit elements, whose other bits the store leaves, is dropped. -/
def storeRemote (s : State) (cl : Nat) (x : AsyncOp) (l : Layout) (t : Tile) (cs : List CellOut) : State :=
  let put := fun (s : State) (p : AccPlace) (v n : Nat) => match p with
    | .remote pkg a =>
      if !routeUp s pkg then s
      else if t.fmt == .rel then l1Drop s cl fun y => y.partition == x.partition && y.remote == some pkg && y.line == a / 256
      else l1StoreAt s cl x.partition (some pkg) (toBytes a v n)
    | _ => s
  cs.foldl (fun s c =>
    let s1 := put s c.place c.bits (cellSize l t)
    match c.scale with
    | some (p, v) => put s1 p v 2
    | none => s1) s

/-- Cells whose source lies in one of some 256-byte scratchpad lines with a poisoned word take undefined bytes (R231). -/
def blurOut (s : State) (l : Layout) (t : Tile) (rows : List Nat) (cs : List CellOut) : State × List CellOut :=
  cs.foldl (fun (r : State × List CellOut) c =>
    let q := if rows.contains c.row then drawBits r.1 (8 * cellSize l t) else (r.1, c.bits)
    let z := match c.scale with
      | some (p, v) =>
        if rows.contains c.scaleRow then
          let y := drawBits { q.1 with freeCtr := q.1.freeCtr + 8 } 16
          (y.1, some (p, y.2))
        else (q.1, some (p, v))
      | none => (q.1, none)
    (if rows.contains c.row || rows.contains c.scaleRow then { z.1 with freeCtr := z.1.freeCtr + 8 } else z.1,
      r.2 ++ [{ c with bits := q.2, scale := z.2 }])) (s, [])

/-- A store of cells to memory, whose sources met poisoned words in some scratchpad lines (R239, R384): whole blocks are written,
parts of lost ones are not and are not counted. DESIGN CHOICE: a cell whose source is poisoned is not counted either (log
93). -/
def storeCells (s : State) (cl : Nat) (x : AsyncOp) (l : Layout) (t : Tile) (rows : List Nat) (cs : List CellOut) : Moved :=
  let b := blurOut s l t rows cs
  let ws := storeBytes b.1 l t b.2
  let lies := fun (blk : Nat) (p : AccPlace) => match p with
    | .home pa => decide (pa / 32 ≤ blk ∧ blk ≤ (pa + cellSize l t - 1) / 32)
    | _ => false
  let vaOf := fun (blk : Nat) =>
    match cs.find? fun c => lies blk c.place with
    | some c => c.cell.va.getD 0 + (match c.place with
      | .home pa => blk * 32 - pa
      | _ => 0)
    | none => ((cs.find? fun c => c.scale.elim false fun z => lies blk z.1).map fun c => c.cell.sva).getD 0
  let w := homeWriteHint b.1 cl x.partition ws vaOf x.hint
  let down := fun (p : AccPlace) => match p with
    | .remote pkg _ => !routeUp s pkg
    | _ => false
  let live := cs.filter fun c => !c.lost && writtenBytes s w.2 l t c != 0
  { s := storeRemote w.1 cl x l t b.2, bytes := storedCount s w.2 l t live, rounded := live.any (·.rounded), nai := live.any (·.nai),
    poisoned := cs.any (·.lost) || !w.2.isEmpty, remote := cs.any fun c => down c.place || c.scale.any fun z => down z.1 }

/-- The scratchpad places of a tile's cell: the address and length of its bits, and the address of a group's scale. -/
def cellSp (w0 : Nat) (t : Tile) (i j : Nat) : Nat × Nat × Nat :=
  if t.isBp then (256 * w0 + t.rowAt i + j, 64, 256 * w0 + t.scaleAt i (j / 64))
  else
    let a := 256 * w0 + t.rowAt i + (if t.fmt == .rel then j / 8 else j * (t.fmt.bits / 8))
    (a, if t.fmt == .rel then 1 else t.fmt.bits / 8, a)

/-- The raw bits of a tile's cell in scratchpad, with its scale, and the 256-byte lines in which a poisoned word was met (R231,
R297). -/
def tileCell (s : State) (cl w0 : Nat) (t : Tile) (i j : Nat) : State × Nat × Nat × List Nat :=
  let p := cellSp w0 t i j
  let lines := fun (l : List Nat) => (l.map (· / 32)).eraseDups
  let r := spRead s cl p.1 p.2.1
  if t.isBp then
    let z := spRead r.1 cl p.2.2 2
    (z.1, r.2.1, z.2.1, lines (r.2.2 ++ z.2.2))
  else (r.1, if t.fmt == .rel then r.2.1 / 2 ^ (j % 8) % 2 else r.2.1, 0, lines r.2.2)

/-- A cell of a store at its place, with the places that its scale goes to and that its source lies in. -/
def cellPlace (s : State) (x : AsyncOp) (w0 : Nat) (t : Tile) (c : Cell) (p : AccPlace) (scale : Nat) : CellOut :=
  let z := cellSp w0 t c.i c.j
  let sc := if t.isBp then
      match opSpot s x true c.sva with
      | .ok (q, _) => some (q, scale)
      | .error _ => none
    else none
  { cell := c, place := p, bits := 0, scale := sc, row := z.1 / 256, scaleRow := z.2.2 / 256 }

/-- The cells of a store from a tile, converted (R239, R240, R243). -/
def tileOut (s : State) (cl : Nat) (x : AsyncOp) (l : Layout) (t : Tile) (cs : List Cell) : State × List CellOut :=
  let w0 := opBase s x
  cs.foldl (fun (r : State × List CellOut) c =>
    match c.va with
    | none => r
    | some va =>
      match opSpot r.1 x true va with
      | .error _ => r
      | .ok (p, _) =>
        let q := tileCell r.1 cl w0 t c.i c.j
        let raw := t.isBp || t.fmt == .rel
        let v := if raw then (q.2.1, false, false) else storeConv l.fmt t.fmt q.2.1
        (q.1, r.2 ++ [{ cellPlace q.1 x w0 t c p q.2.2.1 with bits := v.1, rounded := v.2.1, nai := v.2.2, lostRows := q.2.2.2 }])) (s, [])

/-- The cells of a store that have moved already, their bits to be drawn. -/
def movedOut (s : State) (x : AsyncOp) (t : Tile) (cs : List Cell) : List CellOut :=
  cs.filterMap fun c => c.va.bind fun va => match opSpot s x true va with
    | .ok (p, _) => some (cellPlace s x (opBase s x) t c p 0)
    | .error _ => none

/-- The 256-byte scratchpad lines in which the lanes of a cpy.st meet poisoned words, each word being read (R231, R297). -/
def cpyLines (s : State) (cl size : Nat) (lanes : List CpyLane) : State × List Nat :=
  lanes.foldl (fun (r : State × List Nat) l =>
    let q := spRead r.1 cl l.sp size
    (q.1, r.2 ++ q.2.2.map (· / 32))) (s, [])

/-- What moves in one lane of a cpy (R234). `bad` are the scratchpad lines that hold a poisoned source word. DESIGN CHOICE: a lane
whose source is lost or poisoned is counted among the bytes moved, since it moves undefined bytes (log 93). -/
def cpyLane (store : Bool) (size cl : Nat) (x : AsyncOp) (bad : List Nat) (m : Moved) (l : CpyLane) : Moved :=
  let no := outsideRefuses m.s
  let gone := { m with s := { m.s with freeCtr := m.s.freeCtr + 2 } }
  let remoteDown := match l.place with
    | .remote pkg _ => !routeUp m.s pkg || no.2
    | _ => false
  if remoteDown then { gone with remote := true }
  else if l.place.isHost && no.1 then { gone with s := lateFault gone.s x.team l.lane .pageFault l.va x.word }
  else if store then
    let r := spRead m.s cl l.sp size
    let lost := !r.2.2.isEmpty
    let q := if lost || bad.contains (l.sp / 256) then drawBits r.1 (8 * size) else (r.1, r.2.1)
    let s1 := { q.1 with freeCtr := q.1.freeCtr + 2 }
    match l.place with
    | .home pa =>
      let w := homeWriteHint s1 cl x.partition (toBytes pa q.2 size) (fun _ => l.va) x.hint
      { m with s := w.1, bytes := m.bytes + (if w.2.isEmpty then size else 0), poisoned := m.poisoned || lost || !w.2.isEmpty }
    | .remote pkg a =>
      { m with s := l1StoreAt s1 cl x.partition (some pkg) (toBytes a q.2 size), bytes := m.bytes + size
               poisoned := m.poisoned || lost }
    | .sp _ _ => { m with s := s1, bytes := m.bytes + size, poisoned := m.poisoned || lost }
  else
    let r := readRun m.s cl x l.place l.ver size l.va l.shared
    let q := if r.lost then drawBits r.s (8 * size) else (r.s, r.value)
    let w := engineWrite { q.1 with freeCtr := q.1.freeCtr + 2 } cl (toBytes l.sp q.2 size)
    { m with s := w.1, bytes := m.bytes + size - w.2, poisoned := m.poisoned || r.lost || w.2 != 0 }

/-- Whether a lane of a cpy has moved already. -/
def laneMoved (x : AsyncOp) (l : CpyLane) : Bool := x.moved.contains (l.lane, 0)

/-- The lanes of a cpy.st that had moved from a scratchpad line in which a poisoned word is met leave undefined bytes (R231). -/
def cpyRedraw (s : State) (cl size : Nat) (x : AsyncOp) (bad : List Nat) (lanes : List CpyLane) : State :=
  (lanes.filter fun l => bad.contains (l.sp / 256)).foldl (fun s l =>
    let q := drawBits s (8 * size)
    let s1 := { q.1 with freeCtr := q.1.freeCtr + 2 }
    match l.place with
    | .home pa => (homeWriteHint s1 cl x.partition (toBytes pa q.2 size) (fun _ => l.va) x.hint).1
    | .remote pkg a => l1StoreAt s1 cl x.partition (some pkg) (toBytes a q.2 size)
    | .sp _ _ => s1) s

/-- Lanes of a cpy.st whose writes together cover lost blocks whole make them whole first (R384). -/
def cpyCover (s : State) (size : Nat) (lanes : List CpyLane) : State :=
  let ws := lanes.flatMap fun l => match l.place with
    | .home pa => toBytes pa 0 size
    | _ => []
  ((blocksOf 32 ws).filter fun b => coverage 32 b ws == 32).foldl clearBlock s

/-- The lines that hold a block lost to some lanes, `now`, of a cpy.ld: the other lanes of those lines carry undefined bytes too
(R231). -/
def cpyBlur (s : State) (cl size : Nat) (now lanes : List CpyLane) : State :=
  let line := fun (l : CpyLane) => match l.place with
    | .home pa => some (pa / 256)
    | _ => none
  let lost := now.filter fun l => match l.place with
    | .home pa => s.lost.contains (pa / 32)
    | _ => false
  let hit := lanes.filter fun l => (line l).isSome && lost.any fun m => line m == line l
  hit.foldl (fun s l =>
    let q := drawBits s (8 * size)
    (spWrite { q.1 with freeCtr := q.1.freeCtr + 2 } cl (toBytes l.sp q.2 size)).1) s

/-- The blocks that a store's cells together write whole are whole again, whichever of its cells have moved before (R384). -/
def coverBox (s : State) (l : Layout) (t : Tile) (cs : List CellOut) : State :=
  let ws := storeBytes s l t cs
  ((blocksOf 32 ws).filter fun b => coverage 32 b ws == 32).foldl clearBlock s

/-- The end of a store of cells: those that have still to move do, and those that had moved from a line that is found poisoned
leave undefined bytes (R231). -/
def storeRest (s : State) (cl : Nat) (x : AsyncOp) (l : Layout) (t : Tile) (now : List CellOut) (done : List Cell) : Moved :=
  let old := movedOut s x t done
  let rows := now.flatMap (·.lostRows)
  let hit := old.filter fun c => rows.contains c.row || rows.contains c.scaleRow
  let s1 := if old.isEmpty then s else coverBox s l t (old ++ now)
  let s2 := if hit.isEmpty then s1 else (storeCells s1 cl x l t rows hit).s
  storeCells s2 cl x l t rows now

/-- The cells of an operation's box that have still to move, and those that have moved. -/
def splitCells (x : AsyncOp) (cs : List Cell) : List Cell × List Cell :=
  (cs.filter fun c => !x.moved.contains (c.i, c.j), cs.filter fun c => x.moved.contains (c.i, c.j))

/-- The rest of a copy carried out: cpy, cpyt, cpys and the copy of a cpym (R234, R239, R243). -/
def runCopy (s0 : State) (cl : Nat) (x : AsyncOp) : Moved :=
  match x.presetStatus with
  | some _ => { s := s0 }
  | none =>
    let s := opTranslate s0 cl x
    let l := opLayout x
    let q := opCells s cl x
    let cs := splitCells x q.2
    (match x.kind with
     | .cpy store size lanes =>
       let now := lanes.filter fun y => !laneMoved x y
       let s1 := now.foldl (fun s (y : CpyLane) => opReach s x y.place y.va size) (if store then cpyCover s size lanes else s)
       let bad := if store then cpyLines s1 cl size now else (s1, [])
       let m := now.foldl (cpyLane store size cl x bad.2) { s := bad.1 }
       if store then { m with s := cpyRedraw m.s cl size x bad.2 (lanes.filter (laneMoved x)) }
       else { m with s := cpyBlur m.s cl size now lanes }
     | .tensor false _ _ _ _ _ _ _ _ => loadBox (cellsReach s x l q.1 cs.1) cl x l q.1 cs.1 cs.2
     | .tensor true _ _ _ _ _ _ _ _ =>
       let o := tileOut (cellsReach s x l q.1 cs.1) cl x l q.1 cs.1
       storeRest o.1 cl x l q.1 o.2 cs.2
     | .scatter tile idx _ _ _ _ _ _ =>
       let t := Tile.ofWord tile
       let w0 := opBase s x
       -- the element of tI of each row is read, and a word that fails poisons (R296)
       let s1 := ((List.range t.rows).foldl (fun s i => (spRead s cl (256 * w0 + (Tile.ofWord idx).rowAt 0 + 4 * i) 4).1) s)
       let rows := scatterRows s1 cl w0 l t (Tile.ofWord idx)
       let o := tileOut (cellsReach s1 x l q.1 cs.1) cl x l q.1 cs.1
       let m := storeRest o.1 cl x l q.1 o.2 cs.2
       { m with poisoned := m.poisoned || rows.2 }
     | _ => { s }).after x.tally

-- ===== a part of an operation moves =====

/-- Whether a place may move by itself before the rest of its operation: no frame under retirement holds it, no error block of it
shows an error, and its route is up; what an error or a loss leaves is settled with the rest (R231, R384). -/
def placeClean (s : State) (p : AccPlace) (n : Nat) : Bool :=
  match p with
  | .home pa => !frameHeld s pa && (List.range ((pa % 32 + n + 31) / 32)).all fun i =>
      !s.lost.contains (pa / 32 + i) && (tfind s.latent (pa / 32 + i)).isNone
  | .remote pkg _ => routeUp s pkg
  | .sp _ _ => true

/-- Whether some scratchpad bytes show no error. -/
def spClean (c : Cluster) (a n : Nat) : Bool := (spWords a n).all fun w => !c.spPoison.contains w && (tfind c.spLatent w).isNone

/-- Whether a cell of an operation's box may move by itself. -/
def cellClean (s : State) (cl : Nat) (x : AsyncOp) (l : Layout) (t : Tile) (c : Cell) : Bool :=
  let run := fun (r : Nat × Nat) =>
    let a := opAddr s x r.1
    ((windowOf s x.partition a).isSome || (knownLeaf s (coreOf x.team) x.partition x.xlat a).isSome) &&
    (match opSpot s x (opStores x) r.1 with
     | .ok (p, _) => placeClean s p r.2
     | .error _ => false)
  let z := cellSp (opBase s x) t c.i c.j
  let sp := spClean (s.cluster cl) z.1 z.2.1 && (!t.isBp || spClean (s.cluster cl) z.2.2 2)
  (cellRuns l t [c]).all run && (x.kind.drains || sp)

/-- Whether two cells of a store have a byte of memory in common. -/
def cellsMeet (l : Layout) (t : Tile) (c d : Cell) : Bool :=
  (cellRuns l t [c]).any fun a => (cellRuns l t [d]).any fun b => spansMeet a.1 a.2 b.1 b.2

/-- The cells that move together with the one at a place among those that have still to move: one element, or the one-bit elements
of a byte; none where one of them may not move by itself, or an earlier element has its bytes, which it must stand over (R239). -/
def nextCells (s : State) (cl : Nat) (x : AsyncOp) (l : Layout) (t : Tile) (cs : List Cell) (pick : Nat) : List Cell :=
  let rest := (splitCells x cs).1.filter fun c => !opStores x || c.va.isSome
  match rest[pick % rest.length]? with
  | none => []
  | some c =>
    let group := rest.filter (c.mate t (!opStores x))
    let first := !opStores x || (rest.takeWhile (· != c)).all fun d => group.contains d || !group.any (cellsMeet l t d)
    if first && group.all (cellClean s cl x l t) then group else []

/-- The lane of a cpy at a place among those that have still to move; none where it may not move by itself, or an earlier lane has
its destination. -/
def nextLane (s : State) (cl size : Nat) (store : Bool) (x : AsyncOp) (lanes : List CpyLane) (pick : Nat) : Option CpyLane :=
  let rest := lanes.filter fun l => !laneMoved x l
  rest[pick % rest.length]?.bind fun c =>
    let meets := fun (d : CpyLane) =>
      if store then placesMeet (c.place, size) (d.place, size) else spansMeet c.sp size d.sp size
    if (rest.takeWhile (· != c)).any meets || !placeClean s c.place size || !spClean (s.cluster cl) c.sp size then none else some c

/-- A part of an operation has moved: its elements, and what they leave for the token (R231). -/
def noteMoved (cl key : Nat) (m : Moved) (elems : List (Nat × Nat)) : State :=
  modOp m.s cl key fun y => { y with moved := y.moved ++ elems, tally := (m.after y.tally).tally }

/-- A part of a running copy moves (R232, R336): one element or one lane, by the choice `pick`. -/
def copyPart (s : State) (cl key : Nat) (x : AsyncOp) (pick : Nat) : State :=
  let l := opLayout x
  let q := opCells s cl x
  let cs := nextCells s cl x l q.1 q.2 pick
  let elems := cs.map fun c => (c.i, c.j)
  match x.kind with
  | .cpy store size lanes =>
    (match nextLane s cl size store x lanes pick with
     | none => s
     | some y => noteMoved cl key (cpyLane store size cl x [] { s := opReach s x y.place y.va size } y) [(y.lane, 0)])
  | .tensor false _ _ _ _ _ _ _ _ =>
    if cs.isEmpty then s else noteMoved cl key (loadBox (cellsReach s x l q.1 cs) cl x l q.1 cs []) elems
  | .tensor true _ _ _ _ _ _ _ _ | .scatter _ _ _ _ _ _ _ _ =>
    if cs.isEmpty then s
    else
      let o := tileOut (cellsReach s x l q.1 cs) cl x l q.1 cs
      noteMoved cl key (storeCells o.1 cl x l q.1 [] o.2) elems
  | _ => s

-- ===== tokens =====

/-- A token's value is known; it lands at once or later (R230). -/
def giveToken (s : State) (f issue value : Nat) : State :=
  let give := fun (p : Pend) =>
    if p.issue == issue && p.lat == .token then
      { p with writes := p.writes.map fun w => { w with vals := [(0, BitVec.ofNat 64 value)] } }
    else p
  s.modTeam f fun t => { t with pend := t.pend.map give }

/-- A token lands (R230). -/
def landToken (s : State) (f issue value : Nat) : State :=
  landDue (giveToken s f issue value) f fun p => p.issue == issue && p.lat == .token

/-- The result that a token register waits for. -/
def tokenPend (t : Team) (tok : BitVec 6) : Pend :=
  { issue := t.issues, lat := .token, writes := [⟨.k tok.toNat, []⟩], lanes := [0] }

-- ===== issue =====

/-- An operation enters the cluster, with its entry where it takes one: the lowest that is free (R213, R219). DESIGN CHOICE:
which free entry is taken (log 81). -/
def pushOp (s : State) (cl : Nat) (x : AsyncOp) (e : Option SbEntry) : State :=
  let c := s.cluster cl
  let c' := { c with ops := tput c.ops s.seq x
                     entries := match e with
                       | some y => tput c.entries s.seq { y with index := (freeEntries s cl x.partition).headD 64 }
                       | none => c.entries }
  { s.setCluster cl c' with seq := s.seq + 1 }

/-- The operation of a word that a team issues. -/
def mkOp (t : Team) (f opByte : Nat) (kind : OpKind) (space : Space) (hint : Hint) (token : Option Nat)
    (preset : Option Nat) : AsyncOp :=
  { team := f, block := t.block, partition := t.partition, index := t.index, word := t.pc, opByte, issue := t.issues, token,
    kind, space, hint, presetStatus := preset }

/-- A word that needs more scoreboard entries than its partition has free does not issue yet (R219). -/
def waitEntries (s : State) (f : Nat) (t : Team) (n : Nat) : State := s.setTeam f { t with wait := .entries n }

/-- The hull of some scratchpad accesses of n bytes (R214). -/
def hullOf (n : Nat) (as : List Nat) : Option Interval :=
  match as with
  | [] => none
  | a :: r =>
    let lo := r.foldl min a
    let hi := r.foldl max a + n
    some ⟨lo / 32, (hi + 31) / 32⟩

/-- Where the lanes of a cpy go, both sides checked in the order of R225 (R234). Its memory side is translated in .cn too
(R319). -/
def cpySpot (s : State) (f : Nat) (t : Team) (store : Bool) (space : Space) (n m x : Nat) : State × Spot :=
  let k := s.kernelOf t
  if m % n ≠ 0 then (s, .fault .misaligned (if space == .cn then wrapNat 64 ((k.cnAddr + m : Nat) : Int) else m))
  else
    match (laneSpot s f t .sp .read n x).2 with
    | .fault c loc => (s, .fault c loc)
    | _ =>
      if space == .cn then
        (s, if m + n ≤ k.cnSize then glSpot s f t .read false (k.cnAddr + m) else .fault .cnRange m)
      else laneSpot s f t space (if store then .write else .read) n m

/-- The meaning of cpy (R234, R235). -/
def execCpy (h : Hdr) (store x2 : Bool) (space : Space) (w : Width) (hint : Hint) (tok : BitVec 6) (vm vs : BitVec 7)
    (off : BitVec 16) (s : State) : Host.Outcome State Fault Refusal :=
  forTeam s fun f t =>
    let n := if x2 then 16 else widthBytes w
    let b := s.blockOf t
    let srcs := [Src.v vm, Src.v vs]
    let lanes := soundLanes s f t h srcs
    let mem := fun l => laneAddr s f t (.v vm) off l
    let sp := fun (l : Nat) => (readV t vs.toNat l).toNat % 2 ^ 32
    let r := laneSpots s lanes fun s l => cpySpot s f t store space n (mem l) (sp l)
    let pages := missPages r.2
    if !entriesFree s (clusterOf f) t.partition 1 then waitEntries s f t 1
    else if !pages.isEmpty then waitWalks r.1 f t pages
    else
      let s1 := usePages r.1 f t .gl r.2
      let go : List CpyLane := r.2.filterMap fun x => match x.2 with
        | .found p va ver shared => some ⟨x.1, p, va, ver, 256 * b.base + sp x.1, shared⟩
        | _ => none
      let z := runSlot s1 f t (.cpy h store x2 space w hint tok vm vs off) h .token [] .none (ownReads srcs) []
        fun l => { fault := ((spotFaults r.2).find? fun y => y.1 == l).map (·.2) }
      let p := tokenPend t tok
      if go.isEmpty then
        -- no lane moves: the token is written at once and the entry retires unused
        landToken (finishWord z.s f { pends := [p], faults := z.faults, sw := h.sw }) f t.issues 0
      else
        let iv := hullOf n (go.map (·.sp))
        let e : SbEntry := { partition := t.partition, reads := if store then iv.toList else [], write := if store then none else iv }
        let s2 := pushOp z.s (clusterOf f) (mkOp t f 0x83 (.cpy store n go) space hint (some tok.toNat) none) (some e)
        finishWord s2 f { pends := [p], faults := z.faults, sw := h.sw }

/-- The tile of a descriptor register. -/
def tileOf (t : Team) (r : BitVec 4) : Tile := Tile.ofWord (tget t.t r.toNat 0)

/-- The four words of a register group. -/
def groupWord (t : Team) (g : BitVec 4) (i : Nat) : Word := readK t (4 * g.toNat + i)

/-- The status with which a tensor copy ends before it moves anything, if any (R238, R241, R242, R396): the slot, the
record and its mutable part, the pair of formats. `cols` are the box's rows and columns that are checked for .fault. -/
def presetOf (s : State) (x : LySlot) (l : Layout) (t : Tile) (load cn : Bool) (cnSize : Nat) (cells : List Cell) : Option Nat :=
  let oneBit := t.fmt == .rel
  let lay := natBits s.hostLink.ifneg.toNat 15 8
  let out := cells.any fun c => c.va.isNone
  let beyond := cn && (boxCells l t load).any fun c => c.va.elim false fun va =>
    decide (va + cellSize l t > cnSize) || (l.fmt == .bp && decide (c.sva + 2 > cnSize))
  let noEdge := load && l.pad == 1 && (List.range 4).any fun d => decide (d < l.rank) && l.extent d == 0
  if x.state == .empty then some 0x11
  else if lay != 1 || !l.wellFormed oneBit || (l.pad == 2 && out) || beyond || noEdge then some 0x10
  else if !pairOk l.fmt t.fmt then some 0x12
  else none

/-- What a tensor copy meets at issue on the remote parts of its box, a scatter where it begins, since it may not read its rows'
indices before (R216): the first address whose window has no span or no route (R438). -/
def remoteMiss (s : State) (partition : Nat) (runs : List (Nat × Nat)) : Option (FaultCode × Nat) :=
  runs.findSome? fun r => match windowOf s partition r.1 with
    | some (pkg, _) =>
      if !spanOn s partition then some (.accessDenied, r.1) else if !routeUp s pkg then some (.pageFault, r.1) else none
    | none => none

/-- Whether an operation is a scatter. -/
def OpKind.scatters : OpKind → Bool
  | .scatter _ _ _ _ _ _ _ _ => true
  | _ => false

/-- A tensor operation issues: an engine fault at issue for a faulted slot or an absent route (R237, R438), otherwise the
operation enters the cluster. -/
def issueTensor (s : State) (f : Nat) (t : Team) (h : Hdr) (x : AsyncOp) (slot : LySlot) (e : Option SbEntry) (tok : BitVec 6)
    (then' : State → State) : State :=
  if slot.state == .faulted then
    killBlock s f t.block ⟨0x10, x.opByte, t.pc, t.index, slot.addr⟩
  else
    match (if x.presetStatus.isSome || x.space == .cn || x.kind.scatters then none
           else remoteMiss s t.partition (opRuns s (clusterOf f) x)) with
    | some (c, va) => killBlock s f t.block ⟨c.code, x.opByte, t.pc, t.index, va⟩
    | none => finishWord (then' (pushOp s (clusterOf f) x e)) f { pends := [tokenPend t tok], sw := h.sw }

/-- The meaning of cpyt (R238, R239). It waits, unissued, for its slot and for an entry (R219, R237). -/
def execCpyt (h : Hdr) (store : Bool) (space : Space) (hint : Hint) (tok : BitVec 6) (grp tile : BitVec 4) (off : BitVec 16)
    (s : State) : Host.Outcome State Fault Refusal :=
  forTeam s fun f t =>
    let b := s.blockOf t
    let td := tileOf t tile
    let slot := slotOf t grp
    if !td.ok b.rows then trapWord s f t .badTile
    else if slot.state == .pending then s
    else if !entriesFree s (clusterOf f) t.partition 1 then waitEntries s f t 1
    else
      let k := groupWord t grp
      let o := signedOf 16 off.toNat
      let l := slotLayout slot (k 0) (k 1) (k 2) (k 3) o
      let cells := boxCells l td false
      let preset := presetOf s slot l td (!store) (space == .cn) (s.kernelOf t).cnSize cells
      let kind := OpKind.tensor store (tget t.t tile.toNat 0) slot (k 0) (k 1) (k 2) (k 3) o (space == .cn)
      let iv := td.interval b.base
      let e : SbEntry := { partition := t.partition, reads := if store then [iv] else [], write := if store then none else some iv }
      issueTensor s f t h (mkOp t f 0x84 kind space hint (some tok.toNat) preset) slot (some e) tok id

/-- Whether a pair of tiles may stand in a scatter (R243). -/
def scatterOk (t ti : Tile) : Bool := ti.fmt == .s32 && ti.rows == 1 && decide (ti.cols ≥ t.rows)

/-- The meaning of cpys (R243). -/
def execCpys (h : Hdr) (space : Space) (hint : Hint) (tok : BitVec 6) (grp src idx : BitVec 4) (off : BitVec 16) (s : State) :
    Host.Outcome State Fault Refusal :=
  forTeam s fun f t =>
    let b := s.blockOf t
    let td := tileOf t src
    let ti := tileOf t idx
    let slot := slotOf t grp
    if !td.ok b.rows || !ti.ok b.rows || src == idx || !scatterOk td ti then trapWord s f t .badTile
    else if slot.state == .pending then s
    else if !entriesFree s (clusterOf f) t.partition 1 then waitEntries s f t 1
    else
      let k := groupWord t grp
      let o := signedOf 16 off.toNat
      let l := slotLayout slot (k 0) (k 1) (k 2) (k 3) o
      -- .fault applies to the columns only
      let row := { l with extent := fun d => if d = 0 then l.extent 0 else 1, off := fun d => if d = 0 then l.off 0 else 0 }
      let cells := boxCells row { td with rows := 1 } false
      let preset := presetOf s slot l td false false 0 cells
      let kind := OpKind.scatter (tget t.t src.toNat 0) (tget t.t idx.toNat 0) slot (k 0) (k 1) (k 2) (k 3) o
      let e : SbEntry := { partition := t.partition, reads := [td.interval b.base, ti.interval b.base], write := none }
      issueTensor s f t h (mkOp t f 0x86 kind space hint (some tok.toNat) preset) slot (some e) tok id

end Sys2Proof.Machine
end

