-- ==== Sys2Proof/Machine/Shake.lean ====
section
/-! DEFINITION. SHAKE256, which rand and rfork draw from (R188, R189) and measurements are extended by (R423). PRESUMED: the spec names
the function; its definition is that of the standard (Keccak-f[1600], rate 136 bytes, suffix 1111; log 40). -/

namespace Sys2Proof.Machine

/-- The 25 lanes of the Keccak state, lane x + 5 y. -/
abbrev Keccak := List (BitVec 64)

/-- Lane i of the state. -/
def kLane (s : Keccak) (i : Nat) : BitVec 64 := s.getD i 0

/-- The rotation offsets of lane x + 5 y. -/
def keccakRot : List Nat :=
  [0, 1, 62, 28, 27, 36, 44, 6, 55, 20, 3, 10, 43, 25, 39, 41, 45, 15, 21, 8, 18, 2, 61, 56, 14]

/-- The round constants. -/
def keccakRc : List (BitVec 64) :=
  [0x0000000000000001, 0x0000000000008082, 0x800000000000808A, 0x8000000080008000, 0x000000000000808B,
   0x0000000080000001, 0x8000000080008081, 0x8000000000008009, 0x000000000000008A, 0x0000000000000088,
   0x0000000080008009, 0x000000008000000A] ++
  [0x000000008000808B, 0x800000000000008B, 0x8000000000008089, 0x8000000000008003, 0x8000000000008002,
   0x8000000000000080, 0x000000000000800A, 0x800000008000000A, 0x8000000080008081, 0x8000000000008080,
   0x0000000080000001, 0x8000000080008008]

/-- Rotate left. -/
def rotl64 (x : BitVec 64) (n : Nat) : BitVec 64 := (x <<< n) ||| (x >>> (64 - n))

/-- Column parities. -/
def keccakC (s : Keccak) : List (BitVec 64) :=
  (List.range 5).map fun x =>
    kLane s x ^^^ kLane s (x + 5) ^^^ kLane s (x + 10) ^^^ kLane s (x + 15) ^^^ kLane s (x + 20)

/-- The theta step. -/
def keccakTheta (s : Keccak) : Keccak :=
  let c := keccakC s
  let d := (List.range 5).map fun x => c.getD ((x + 4) % 5) 0 ^^^ rotl64 (c.getD ((x + 1) % 5) 0) 1
  (List.range 25).map fun i => kLane s i ^^^ d.getD (i % 5) 0

/-- The rho and pi steps: lane (y, 2x + 3y) takes lane (x, y) rotated. -/
def keccakRhoPi (s : Keccak) : Keccak :=
  let r := (List.range 25).map fun i => rotl64 (kLane s i) (keccakRot.getD i 0)
  -- target lane X + 5 Y comes from x = (X + 3 Y) mod 5, y = X
  (List.range 25).map fun j => r.getD ((j % 5 + 3 * (j / 5)) % 5 + 5 * (j % 5)) 0

/-- The chi and iota steps. -/
def keccakChi (s : Keccak) (rc : BitVec 64) : Keccak :=
  let t := (List.range 25).map fun i =>
    let y := 5 * (i / 5)
    kLane s i ^^^ (~~~(kLane s (y + (i + 1) % 5)) &&& kLane s (y + (i + 2) % 5))
  match t with
  | a :: l => (a ^^^ rc) :: l
  | [] => []

/-- Keccak-f[1600]. -/
def keccakF (s : Keccak) : Keccak := keccakRc.foldl (fun s rc => keccakChi (keccakRhoPi (keccakTheta s)) rc) s

/-- The Keccak state after SHAKE256 has absorbed a message of n bytes, read as a little-endian number. -/
def shakeState (n msg : Nat) : Keccak :=
  let blocks := n / 136 + 1
  let padded := msg % 2 ^ (8 * n) + 0x1F * 2 ^ (8 * n) + 0x80 * 2 ^ (8 * (136 * blocks - 1))
  let lane := fun (b i : Nat) => if i < 17 then BitVec.ofNat 64 (padded / 2 ^ (1088 * b + 64 * i)) else 0
  (List.range blocks).foldl (fun s b => keccakF ((List.range 25).map fun i => kLane s i ^^^ lane b i)) []

/-- The first 8 k bytes of SHAKE256 of a message of n bytes, k at most 17, both read as little-endian numbers. -/
def shakeOut (k n msg : Nat) : Nat :=
  let t := shakeState n msg
  ((List.range k).map fun i => (kLane t i).toNat * 2 ^ (64 * i)).sum

/-- The first 16 bytes of SHAKE256 of a message of n bytes, as rand and rfork use them. -/
def shake256 (n msg : Nat) : Nat := shakeOut 2 n msg

end Sys2Proof.Machine
end

