-- ==== Sys2Proof/Machine/CoreOps.lean ====
section
/-! DEFINITION. The meanings of the core class and of the branches (R167 to R192): control flow, predicates, cross-lane
moves, indexed registers, the random stream, tags and control registers. -/

namespace Sys2Proof.Machine

-- ===== control flow =====

/-- Whether an address lies in a kernel's text (R171). -/
def inText (k : Kernel) (va : Nat) : Bool := va % 8 == 0 && decide (k.text ≤ va) && decide (va < k.text + k.textSize)

/-- Whether the word at an address is a cvg of the running kernel's text (R171, R173). DESIGN CHOICE: a reconvergence word that
cannot be read, for a failed translation or a lost block, is none, so rcv and brt raise `bad-target` (log 73). -/
def cvgAt (s : State) (t : Team) (va : Nat) : State × Bool :=
  if !inText (s.kernelOf t) va then (s, false)
  else
    match vaRead s t.partition va 8 with
    | (s1, none) => (s1, false)
    | (s1, some w) =>
      (s1, match decode (BitVec.ofNat 64 w) with
        | .ok (.cvg _) => true
        | _ => false)

/-- The target of a word at an address with a branch offset (R28). -/
def branchTarget (word : Nat) (off : BitVec 32) : Nat := wrapNat 64 ((word : Int) + 8 + 8 * signedOf 32 off.toNat)

/-- An entry pushed, or a stack overflow (R147). -/
def Team.push (t : Team) (isJoin : Bool) (addr : Nat) (mask : LaneSet) : Option Team :=
  if t.stack.length ≥ 16 then none
  else some { t with stack := ⟨isJoin, addr, mask, t.nextUid⟩ :: t.stack, nextUid := t.nextUid + 1 }

/-- A branch of the taken lanes (R148): the team after it and whether it jumps; none where the stack overflows. -/
def Team.split (t : Team) (taken : LaneSet) : Option (Team × Bool) :=
  let rest := t.mask &&& ~~~taken
  if taken = 0 then some (t, false)
  else if rest = 0 then some (t, true)
  else
    match t.stack with
    | e :: r =>
      if !e.isJoin && e.addr = t.pc + 8 then
        some ({ t with stack := { e with mask := e.mask ||| rest } :: r, mask := taken }, true)
      else (t.push false (t.pc + 8) rest).map fun t => ({ t with mask := taken }, true)
    | [] => (t.push false (t.pc + 8) rest).map fun t => ({ t with mask := taken }, true)

/-- The state after a branch of the active lanes to a target (R148, R170). -/
def branchWord (h : Hdr) (target : Nat) (pends : List Pend) (s : State) (f : Nat) (t : Team) : State :=
  match t.split (laneSet (activeLanes t h)) with
  | none => trapWord s f t .stackOverflow
  | some (t1, true) => finishWord (s.setTeam f t1) f { pends, next := some target, sw := h.sw }
  | some (_, false) => finishWord s f { sw := h.sw }

/-- The meaning of bra (R170). -/
def execBra (h : Hdr) (off : BitVec 32) (s : State) : Host.Outcome State Fault Refusal :=
  forTeam s fun f t => branchWord h (branchTarget t.pc off) [] s f t

/-- A result of one k register. -/
def kResult (t : Team) (lat : Lat) (k : Nat) (x : Word) (isLoop : Bool := false) : Pend :=
  { issue := t.issues, lat, writes := [⟨.k k, [(0, x)]⟩], isLoop, lanes := [0] }

/-- The meaning of call (R170): the link register is written at L4 where a lane is taken. -/
def execCall (h : Hdr) (k : BitVec 6) (off : BitVec 32) (s : State) : Host.Outcome State Fault Refusal :=
  forTeam s fun f t =>
    branchWord h (branchTarget t.pc off) [kResult t L4 k.toNat (BitVec.ofNat 64 (t.pc + 8))] s f t

/-- The meaning of rcv (R147, R170, R171). -/
def execRcv (h : Hdr) (off : BitVec 32) (s : State) : Host.Outcome State Fault Refusal :=
  forTeam s fun f t =>
    let target := branchTarget t.pc off
    let r := cvgAt s t target
    if !r.2 then trapWord r.1 f t .badTarget
    else
      match t.push true target t.mask with
      | none => trapWord r.1 f t .stackOverflow
      | some t1 => finishWord (r.1.setTeam f t1) f { sw := h.sw }

/-- The target that a brt reads: the reconvergence point and the target, none where the index or a read fails (R173,
R360). -/
def brtTarget (s : State) (t : Team) (tbl : Nat) (i : Nat) : State × Option (Nat × Nat) :=
  let k := s.kernelOf t
  match vaRead s t.partition (k.tdir + 16 * tbl) 16 with
  | (s1, none) => (s1, none)
  | (s1, some e) =>
    if i ≥ natBits e 63 32 then (s1, none)
    else
      match vaRead s1 t.partition (natBits e 127 64 + 4 * i) 4 with
      | (s2, none) => (s2, none)
      | (s2, some x) =>
        let r := cvgAt s2 t (k.text + natBits e 31 0)
        (r.1, if r.2 then some (k.text + natBits e 31 0, k.text + x) else none)

/-- The meaning of brt (R173). DEDUCED: where the reconvergence word is no cvg while the stack is full, bad-target is raised, since
the words are read before the push (log 90). -/
def execBrt (h : Hdr) (k : BitVec 6) (tbl : BitVec 8) (s : State) : Host.Outcome State Fault Refusal :=
  forTeam s fun f t =>
    match brtTarget s t tbl.toNat (readK t k.toNat).toNat with
    | (s1, none) => trapWord s1 f t .badTarget
    | (s1, some (rcv, target)) =>
      match t.push true rcv t.mask with
      | none => trapWord s1 f t .stackOverflow
      | some t1 => finishWord (s1.setTeam f t1) f { next := some target, sw := h.sw }

/-- The count that a loop reads: an earlier loop's write of the register reaches it at any distance (R172). -/
def loopCount (t : Team) (k : Nat) : Word :=
  match (t.pend.filter fun p => p.isLoop && p.writes.any fun w => w.reg == .k k && !w.vals.isEmpty).getLast? with
  | some p => ((p.writes.find? fun w => w.reg == .k k).bind fun w => lowestVal w.vals).getD 0
  | none => readK t k

/-- The meaning of loop (R172). -/
def execLoop (h : Hdr) (k : BitVec 6) (off : BitVec 32) (s : State) : Host.Outcome State Fault Refusal :=
  forTeam s fun f t =>
    let c := loopCount t k.toNat
    if c = 0 then finishWord s f { sw := h.sw }
    else
      finishWord s f { pends := [kResult t L4 k.toNat (c - 1) true], sw := h.sw
                       next := if c = 1 then none else some (branchTarget t.pc off) }

/-- A team goes on where its settled path says, the word that led there being issued. -/
def moveWord (s : State) (f : Nat) (word : Nat) (t : Team) (x : Fin) : State :=
  finishWord (s.setTeam f { t with pc := word }) f { x with next := some t.pc }

/-- What the frame of a handler gives back, where it is reached (R380): resume and the saved k62 and k63; none where a read
faults. -/
def frameRead (r : State × Except FaultCode Nat) (t : Team) (frame : Nat) : State × Option (Nat × Word × Word) :=
  match r with
  | (s1, .error _) => (s1, none)
  | (s1, .ok pa) =>
    let a := readBlocks s1 (pa + 0x180) 128 t.partition (frame + 0x180)
    let b := readBlocks a.1 (pa + 8) 16 t.partition (frame + 8)
    if a.2 || b.2 then (b.1, none)
    else (b.1, some (memGet b.1 (pa + 0x180) 128, BitVec.ofNat 64 (memGet b.1 (pa + 8) 8), BitVec.ofNat 64 (memGet b.1 (pa + 16) 8)))

/-- The lanes of some parked records whose masks hold an identity (R152). -/
def resumedInto (recs : Tab ParkRec) (uid : Nat) : LaneSet :=
  laneSet ((recs.filter fun e => e.2.masks.contains uid).map (·.1))

/-- The team after its handler returns (R152, R380): lanes resumed join the masks they were cleared from that still
exist; the other parked lanes, and a resumed lane that no surviving mask receives, are abandoned. A token still outstanding
for k62 or k63 stays so (R230). -/
def Team.resume (t : Team) (v : HandlerSave) (bits : Nat) (k62 k63 : Word) : Team :=
  let back := v.parked.filter fun e => natBit bits e.1
  let kept := resumedInto back v.uid ||| (v.stack.map fun e => resumedInto back e.uid).foldl (· ||| ·) 0
  let exited := t.exited ||| (laneSet (v.parked.map (·.1)) &&& ~~~kept)
  { t with
    k := tset (tset t.k 62 k62 0) 63 k63 0
    pend := t.pend.map fun p =>
      if p.lat == .token then p else { p with writes := p.writes.filter fun w => w.reg != .k 62 && w.reg != .k 63 }
    exited
    mask := (v.mask ||| resumedInto back v.uid) &&& ~~~exited
    pathUid := v.uid
    stack := v.stack.map fun e => { e with mask := (e.mask ||| resumedInto back e.uid) &&& ~~~exited }
    handler := none
    parked := [] }

/-- Whether a team has a store on its way. -/
def storesPending (s : State) (f : Nat) : Bool := s.accs.any fun e => e.2.team == f && e.2.kind.writes

/-- The state after a ret that ends a handler (R380, R381). It waits, unissued, for the team's earlier stores, and for a walk
where its frame has no translation (R320). -/
def handlerReturn (h : Hdr) (target : Nat) (v : HandlerSave) (s : State) (f : Nat) (t : Team) : State :=
  if storesPending s f then s
  else
    match frameReach s f t .read v.frame with
    | none => (askWalk s f t.partition (v.frame / 2 ^ 16) v.frame).setTeam f { t with wait := .walk }
    | some r =>
      match frameRead r t v.frame with
      | (s1, none) => unhandled s1 f t { cause := t.trapCause, ucode := t.trapUcode, word := t.pc } 2 v.frame
      | (s1, some (bits, k62, k63)) =>
        let t1 := { t.resume v bits k62 k63 with pc := target, xlat := [] }
        match t1.settle with
        | (t2, .run) => moveWord s1 f t.pc t2 { sw := true }
        | (t2, .empty) =>
          let s2 := moveWord s1 f t.pc t2 { sw := h.sw }
          s2.modTeam f fun t => { t with wait := .ended 0 t.pathUid [] t.pc }

/-- The meaning of ret (R170, R171, R380). -/
def execRet (h : Hdr) (k : BitVec 6) (s : State) : Host.Outcome State Fault Refusal :=
  forTeam s fun f t =>
    let target := (readK t k.toNat).toNat
    if (activeLanes t h).isEmpty then finishWord s f { sw := h.sw }
    else if !inText (s.kernelOf t) target then trapWord s f t .badTarget
    else
      match t.handler with
      | some v => handlerReturn h target v s f t
      | none => branchWord h target [] s f t

/-- The stack without the side entries whose lanes have all been cleared (R150). -/
def dropEmptySides : List StackEntry → List StackEntry
  | [] => []
  | e :: r => if !e.isJoin && e.mask = 0 then dropEmptySides r else e :: r

/-- A cvg at an address pops the top entry (R149): the team on its new path, none for a mismatch. -/
def Team.converge (t : Team) (x : Nat) : Option Team :=
  match dropEmptySides t.stack with
  | [] => none
  | e :: r =>
    if e.isJoin then
      if e.addr = x then some { t with mask := e.mask, pathUid := e.uid, stack := r, pc := x + 8 } else none
    else
      match r.find? (·.isJoin) with
      | some j => if j.addr = x then some { t with mask := e.mask, pathUid := e.uid, stack := r, pc := e.addr } else none
      | none => none

/-- The meaning of cvg (R149, R151, R174). -/
def execCvg (h : Hdr) (s : State) : Host.Outcome State Fault Refusal :=
  forTeam s fun f t =>
    if !t.parked.isEmpty then trapWord s f t .parked
    else
      match t.converge t.pc with
      | none => trapWord s f t .cvgMismatch
      | some t1 =>
        match t1.settle with
        | (t2, .run) => moveWord s f t.pc t2 { sw := h.sw }
        | (t2, .empty) =>
          (moveWord s f t.pc t2 {}).modTeam f fun t' => { t' with wait := .ended 0 t2.pathUid [] t.pc }

/-- The meaning of exit (R150, R151, R174). DESIGN CHOICE: with lanes parked it enters the handler even where it has no active
lane, as R151 says of the next exit issued (log 74). -/
def execExit (h : Hdr) (s : State) : Host.Outcome State Fault Refusal :=
  forTeam s fun f t =>
    if !t.parked.isEmpty then trapWord s f t .parked
    else
      let act := laneSet (activeLanes t h)
      if act = 0 then finishWord s f { sw := h.sw }
      else
        let t1 := { (t.clearLanes act) with exited := t.exited ||| act, pc := t.pc + 8 }
        match t1.settle with
        | (t2, .run) => moveWord s f t.pc t2 { sw := h.sw }
        | (t2, .empty) =>
          (moveWord s f t.pc t2 {}).modTeam f fun t' => { t' with wait := .ended t.mask t.pathUid t.stack t.pc }

/-- The meaning of trap (R175). -/
def execTrap (h : Hdr) (code : BitVec 8) (s : State) : Host.Outcome State Fault Refusal :=
  forTeam s fun f t =>
    if (activeLanes t h).isEmpty then finishWord s f { sw := h.sw }
    else trapTeam s f { cause := Cause.userTrap.code, ucode := code.toNat, word := t.pc }

/-- The meaning of nop (R176). -/
def execNop (h : Hdr) (s : State) : Host.Outcome State Fault Refusal := forTeam s fun f _ => finishWord s f { sw := h.sw }

/-- Whether a team can issue (R153). -/
def Team.isReady (t : Team) : Bool := t.wait == .ready && !t.halted

-- ===== predicates =====

/-- and (R69). -/
def and3 (a b : BitVec 2) : BitVec 2 := if a = 0 ∨ b = 0 then 0 else if a = 1 ∧ b = 1 then 1 else 2

/-- not (R69). -/
def not3 (a : BitVec 2) : BitVec 2 := if a = 0 then 1 else if a = 1 then 0 else 2

/-- or (R69). -/
def or3 (a b : BitVec 2) : BitVec 2 := not3 (and3 (not3 a) (not3 b))

/-- A predicate computed from the lane. -/
def predAlu (i : Instr) (h : Hdr) (pd : BitVec 4) (srcs : List Src) (g : State → Nat → Team → Nat → BitVec 2) : Alu :=
  { i, h, lat := L4, dests := [pReg pd], lin := .none, srcs, fn := fun s f t l => lanePred pd (g s f t l) }

/-- A predicate source, negated where asked (R178). -/
def readPn (t : Team) (neg : Bool) (p : BitVec 4) (l : Nat) : BitVec 2 :=
  if neg then not3 (readP t p.toNat l) else readP t p.toNat l

/-- The meaning of pand (R178). -/
def execPand (h : Hdr) (na nb : Bool) (pd pa pb : BitVec 4) (s : State) : Host.Outcome State Fault Refusal :=
  (predAlu (.pand h na nb pd pa pb) h pd [] fun _ _ t l => and3 (readPn t na pa l) (readPn t nb pb l)).exec s

/-- The meaning of por (R178). -/
def execPor (h : Hdr) (na nb : Bool) (pd pa pb : BitVec 4) (s : State) : Host.Outcome State Fault Refusal :=
  (predAlu (.por h na nb pd pa pb) h pd [] fun _ _ t l => or3 (readPn t na pa l) (readPn t nb pb l)).exec s

/-- The meaning of pnot (R178). -/
def execPnot (h : Hdr) (pd pa : BitVec 4) (s : State) : Host.Outcome State Fault Refusal :=
  (predAlu (.pnot h pd pa) h pd [] fun _ _ t l => not3 (readP t pa.toNat l)).exec s

/-- The meaning of pdec (R178): undecided becomes F, or T under .ut. -/
def execPdec (h : Hdr) (ut : Bool) (pd pa : BitVec 4) (s : State) : Host.Outcome State Fault Refusal :=
  (predAlu (.pdec h ut pd pa) h pd [] fun _ _ t l =>
    let x := readP t pa.toNat l
    if x = 2 then boolP ut else x).exec s

/-- The meaning of pmov (R178). -/
def execPmov (h : Hdr) (pd : BitVec 4) (a : Src) (s : State) : Host.Outcome State Fault Refusal :=
  (predAlu (.pmov h pd a) h pd [a] fun s f t l =>
    let x := (readSrc s f t .int a l).setWidth 2
    if x = 3 then 2 else x).exec s

/-- The meaning of pget (R178). -/
def execPget (h : Hdr) (d : Dst) (pa : BitVec 4) (s : State) : Host.Outcome State Fault Refusal :=
  ({ i := .pget h d pa, h, lat := L4, dests := [dstReg d], lin := .none, srcs := []
     fn := fun _ _ t l => laneVal d ((readP t pa.toNat l).setWidth 64, 0) } : Alu).exec s

-- ===== cross-lane =====

/-- The state after a cross-lane word: L8, no lineage, and any lane's registers may be read (R179). DESIGN CHOICE: a lane parks
where a register row that its own result depends on is lost, whichever lane the row belongs to (R387, log 72). -/
def crossWord (i : Instr) (h : Hdr) (dests : List Reg) (reads : Nat → List (Nat × Nat)) (fn : Nat → LaneOut) (s : State)
    (f : Nat) (t : Team) : State :=
  let r := runSlot s f t i h L8 dests .none reads [] fn
  finishWord r.s f { pends := [r.pend], faults := r.faults, sw := h.sw }

/-- The active lanes of a lane's scope: its warp, or the team (R180). -/
def scopeLanes (t : Team) (h : Hdr) (team : Bool) (l : Nat) : List Nat :=
  (activeLanes t h).filter fun m => team || m / 32 == l / 32

/-- What vote computes in a lane (R180). -/
def voteVal (t : Team) (h : Hdr) (team : Bool) (mode : VoteMode) (pa : BitVec 4) (l : Nat) : Nat :=
  let sc := scopeLanes t h team l
  let p := fun m => readP t pa.toNat m
  let mask := fun (x : BitVec 2) => (sc.filter fun m => p m == x).foldl (fun a m => a + 2 ^ (m % 32)) 0
  match mode with
  | .tmask => mask 1
  | .umask => mask 2
  | .every => bit1 (sc.all fun m => p m == 1)
  | .any => bit1 (sc.any fun m => p m == 1)
  | .count => (sc.filter fun m => p m == 1).length

/-- The meaning of vote (R180). -/
def execVote (h : Hdr) (team : Bool) (mode : VoteMode) (d : Dst) (pa : BitVec 4) (s : State) : Host.Outcome State Fault Refusal :=
  forTeam s fun f t => crossWord (.vote h team mode d pa) h [dstReg d] (fun _ => [])
    (fun l => laneVal d (BitVec.ofNat 64 (voteVal t h team mode pa l), 0)) s f t

/-- The source lane of shfl in a lane, none where it is not valid (R181). -/
def shflLane (t : Team) (team : Bool) (mode : ShflMode) (x : Word) (l : Nat) : Option Nat :=
  let w := l % 32
  let b := l / 32 * 32
  let n := x.toNat % 2 ^ 32
  match mode with
  | .abs => some (b + n % 32)
  | .rel =>
    let r := (w : Int) + signedOf 32 x.toNat
    if 0 ≤ r ∧ r ≤ 31 then some (b + r.toNat) else none
  | .rot => some (b + (w + n % 32) % 32)
  | .mix => some (b + Nat.xor w (n % 32))
  | .bcast => if team then (if n < t.nlanes then some n else none) else some (b + n % 32)

/-- The meaning of shfl (R181). -/
def execShfl (h : Hdr) (team : Bool) (mode : ShflMode) (d : BitVec 7) (a b : Src) (pc : BitVec 4) (s : State) :
    Host.Outcome State Fault Refusal :=
  forTeam s fun f t =>
    let from' := fun l => shflLane t team mode (readSrc s f t .int b l) l
    crossWord (.shfl h team mode d a b pc) h [.v d.toNat, pReg pc]
      (fun l => ownReads [b] l ++ (from' l).elim [] (ownReads [a]))
      (fun l => match from' l with
        | some m => { vals := [(.v d.toNat, readSrc s f t .int a m), (pReg pc, 1)] }
        | none => { vals := [(pReg pc, 0)] }) s f t

/-- How a source of a type is read: a small constant supplies n.0 to .f32 (R20). -/
def typedAs (ty : Ty) : ReadAs := if ty == .f32 then .flt .f32 else .int

/-- A value as a scan or redl reads it (R182). -/
def scanRead (ty : Ty) (x : Word) : Word :=
  if ty == .f32 then BitVec.ofNat 64 (Fmt.f32.pattern (Fmt.f32.value (x.toNat % 2 ^ 32))) else putBits ty.bits x

/-- One combination of scan and redl (R182). -/
def scanStep (ty : Ty) (op : ScanOp) (x y : Word) : Word × Flags :=
  if ty == .f32 then
    let a := Fmt.f32.value (x.toNat % 2 ^ 32)
    let b := Fmt.f32.value (y.toNat % 2 ^ 32)
    match op with
    | .min => (BitVec.ofNat 64 (Fmt.f32.pattern (FV.min a b)), 0)
    | .max => (BitVec.ofNat 64 (Fmt.f32.pattern (FV.max a b)), 0)
    | _ => let r := Fmt.f32.add .rne a b; (BitVec.ofNat 64 r.1, r.2)
  else
    match op with
    | .add => (putInt ty (rdInt ty x + rdInt ty y), 0)
    | .min => (putInt ty (min (rdInt ty x) (rdInt ty y)), 0)
    | .max => (putInt ty (max (rdInt ty x) (rdInt ty y)), 0)
    | .and => (putBits ty.bits (x &&& y), 0)
    | .or => (putBits ty.bits (x ||| y), 0)

/-- The identity of a combination (R182). -/
def scanIdentity (ty : Ty) (op : ScanOp) : Word :=
  match op with
  | .add | .or => 0
  | .and => putBits ty.bits (-1)
  | .min => if ty == .f32 then BitVec.ofNat 64 (Fmt.f32.inf false) else putInt ty ty.largest
  | .max => if ty == .f32 then BitVec.ofNat 64 (Fmt.f32.inf true) else putInt ty ty.least

/-- The chain over some lanes in ascending order: each lane's inclusive value and the flags of its step (R182). -/
def scanChain (ty : Ty) (op : ScanOp) (val : Nat → Word) (lanes : List Nat) : List (Nat × Word × Flags) :=
  (lanes.foldl (fun (a : Option Word × List (Nat × Word × Flags)) l =>
    match a.1 with
    | none => let x := scanRead ty (val l); (some x, [(l, x, 0)])
    | some p => let r := scanStep ty op p (val l); (some r.1, a.2 ++ [(l, r.1, r.2)])) (none, [])).2

/-- The exclusive form of a chain (R182). -/
def scanShift (ident : Word) (c : List (Nat × Word × Flags)) : List (Nat × Word × Flags) :=
  (c.foldl (fun (a : Word × Flags × List (Nat × Word × Flags)) x => (x.2.1, x.2.2, a.2.2 ++ [(x.1, a.1, a.2.1)])) (ident, 0, [])).2.2

/-- The value and flags of a lane in a chain. -/
def chainAt (c : List (Nat × Word × Flags)) (l : Nat) : Word × Flags := ((c.find? fun x => x.1 == l).map (·.2)).getD (0, 0)

/-- The meaning of scan (R182). -/
def execScan (h : Hdr) (ty : Ty) (warp excl : Bool) (op : ScanOp) (d : BitVec 7) (a : Src) (s : State) :
    Host.Outcome State Fault Refusal :=
  forTeam s fun f t =>
    let chain := fun l =>
      let c := scanChain ty op (readSrc s f t (typedAs ty) a) (scopeLanes t h (!warp) l)
      if excl then scanShift (scanIdentity ty op) c else c
    let reads := fun l => ((scopeLanes t h (!warp) l).filter fun m => decide (m ≤ l)).flatMap (ownReads [a])
    crossWord (.scan h ty warp excl op d a) h [.v d.toNat] reads (fun l => laneVal (.v d) (chainAt (chain l) l)) s f t

/-- The meaning of redl (R183). -/
def execRedl (h : Hdr) (ty : Ty) (team : Bool) (op : ScanOp) (d : Dst) (a : Src) (s : State) : Host.Outcome State Fault Refusal :=
  forTeam s fun f t =>
    let chain := fun l => scanChain ty op (readSrc s f t (typedAs ty) a) (scopeLanes t h team l)
    crossWord (.redl h ty team op d a) h [dstReg d] (fun l => (scopeLanes t h team l).flatMap (ownReads [a]))
      (fun l => laneVal d (((chain l).getLast?.map (·.2.1)).getD 0, (chainAt (chain l) l).2)) s f t

/-- The highest-numbered sender whose target is a lane (R184). A sender whose row is lost sends nothing (R387). -/
def pushSender (s : State) (f : Nat) (t : Team) (h : Hdr) (a b : Src) (l : Nat) : Option Nat :=
  ((activeLanes t h).filter fun m => (readSrc s f t .int b m).toNat % 2 ^ 32 == l &&
    (ownReads [a, b] m).all fun x => (rowBad (s.core (coreOf f)) t x.1 x.2).isNone).getLast?

/-- The meaning of push (R184): the receivers are the lanes of the current mask, whatever their guard. A sender whose row is
lost parks. -/
def execPush (h : Hdr) (d : BitVec 7) (a b : Src) (s : State) : Host.Outcome State Fault Refusal :=
  forTeam s fun f t =>
    let own := fun l => if laneActive t h l then ownReads [a, b] l else []
    crossWord (.push h d a b) ⟨h.sw, 0, .isTrue⟩ [.v d.toNat] own
      (fun l => match pushSender s f t h a b l with
        | some m => laneVal (.v d) (readSrc s f t .int a m, 0)
        | none => {}) s f t

/-- The meaning of match (R185). -/
def execMatchLanes (h : Hdr) (ty : Ty) (d : BitVec 7) (a : Src) (s : State) : Host.Outcome State Fault Refusal :=
  forTeam s fun f t =>
    let x := fun l => putBits ty.bits (readSrc s f t .int a l)
    crossWord (.matchLanes h ty d a) h [.v d.toNat] (fun l => (scopeLanes t h false l).flatMap (ownReads [a]))
      (fun l => laneVal (.v d) (BitVec.ofNat 64
        (((scopeLanes t h false l).filter fun m => x m == x l).foldl (fun n m => n + 2 ^ (m % 32)) 0), 0)) s f t

-- ===== indexed registers =====

/-- The register index that vget and vput read, where it is below .regs (R186). DESIGN CHOICE: a bad index raises
`bad-register` with no active lane too, since R186 names no lane (log 75). -/
def indexedReg (s : State) (t : Team) (k : BitVec 6) : Option Nat :=
  let i := (readK t k.toNat).toNat
  if i < (s.kernelOf t).regs then some i else none

/-- The state after a copy between registers whose tag goes with the value (R169, R186). -/
def copyWord (i : Instr) (h : Hdr) (dst : Nat) (src : Src) (s : State) (f : Nat) (t : Team) : State :=
  let r := runSlot s f t i h L4 [.v dst] (.copy (.src .int src)) (ownReads [src]) [] fun l =>
    { vals := [(.v dst, readSrc s f t .int src l)] }
  finishWord r.s f { pends := [r.pend], faults := r.faults, sw := h.sw }

/-- The meaning of vget (R186). -/
def execVget (h : Hdr) (d : BitVec 7) (k : BitVec 6) (s : State) : Host.Outcome State Fault Refusal :=
  forTeam s fun f t =>
    match indexedReg s t k with
    | none => trapWord s f t .badRegister
    | some i => copyWord (.vget h d k) h d.toNat (.v (BitVec.ofNat 7 i)) s f t

/-- The meaning of vput (R186). -/
def execVput (h : Hdr) (a : Src) (k : BitVec 6) (s : State) : Host.Outcome State Fault Refusal :=
  forTeam s fun f t =>
    match indexedReg s t k with
    | none => trapWord s f t .badRegister
    | some i => copyWord (.vput h a k) h i a s f t

-- ===== the random stream =====

/-- The draw of a lane (R188). -/
def randDraw (t : Team) (l : Nat) : Nat :=
  shake256 24 (t.key.toNat + (t.position * 2 ^ 24 + l) * 2 ^ 128) % 2 ^ 64

/-- A draw in a mode (R188). -/
def randVal (mode : RandMode) (x : Nat) : Word :=
  match mode with
  | .b32 => BitVec.ofNat 64 (x % 2 ^ 32)
  | .b64 => BitVec.ofNat 64 x
  | .u01 => BitVec.ofNat 64 (Fmt.f32.round .rne false (natBits x 63 40) (-24) false).1

/-- The meaning of rand (R188). -/
def execRand (h : Hdr) (mode : RandMode) (d : BitVec 7) (s : State) : Host.Outcome State Fault Refusal :=
  forTeam s fun f t =>
    if t.position = 2 ^ 40 - 1 then trapWord s f t .streamExhausted
    else
      let r := runSlot s f t (.rand h mode d) h .variable [.v d.toNat] .none (fun _ => []) [] fun l =>
        laneVal (.v d) (randVal mode (randDraw t l), 0)
      finishWord (r.s.modTeam f fun t => { t with position := t.position + 1 }) f { pends := [r.pend], sw := h.sw }

/-- The meaning of rkey (R189). -/
def execRkey (h : Hdr) (a b : BitVec 6) (c : Option (BitVec 6)) (s : State) : Host.Outcome State Fault Refusal :=
  forTeam s fun f t =>
    let key := BitVec.ofNat 128 ((readK t a.toNat).toNat + (readK t b.toNat).toNat * 2 ^ 64)
    let position := match c with
      | none => 0
      | some k => (readK t k.toNat).toNat % 2 ^ 40
    finishWord (s.setTeam f { t with key, position }) f { sw := h.sw }

/-- The child key of rfork (R189). -/
def childKey (t : Team) (child : Word) : Nat :=
  shake256 29 (t.key.toNat + t.position * 2 ^ 128 + child.toNat * 2 ^ 168) % 2 ^ 128

/-- The meaning of rfork (R189). -/
def execRfork (h : Hdr) (d : BitVec 5) (a : BitVec 6) (s : State) : Host.Outcome State Fault Refusal :=
  forTeam s fun f t =>
    let x := childKey t (readK t a.toNat)
    let p : Pend := { issue := t.issues, lat := .variable, lanes := [0]
                      writes := [⟨.k (2 * d.toNat), [(0, BitVec.ofNat 64 (x % 2 ^ 64))]⟩,
                                 ⟨.k (2 * d.toNat + 1), [(0, BitVec.ofNat 64 (x / 2 ^ 64))]⟩] }
    finishWord s f { pends := [p], sw := h.sw }

-- ===== tags and control registers =====

/-- The meaning of vstag (R165, R190). -/
def execVstag (h : Hdr) (d : Dst) (a : BitVec 7) (s : State) : Host.Outcome State Fault Refusal :=
  ({ i := .vstag h d a, h, lat := L4, dests := [dstReg d], lin := .none, srcs := []
     fn := fun _ _ t l => laneVal d (tagHandle (vTag t a.toNat (l / 32)), 0) } : Alu).exec s

/-- The controller's notch for a cluster: the package's under a cap, or the cluster's own while it is newly active (R416,
R421). -/
def notchOf (s : State) (cl : Nat) : Nat := max s.power.notch (s.cluster cl).ctlNotch

/-- The effective pass count code of a cluster (R413, R421, R422). -/
def effPass (s : State) (cl : Nat) : Nat :=
  max (s.cluster cl).passc (max (if s.power.cur = 1 then 1 else 0) (notchOf s cl - 3))

/-- The effective clock ratio code of a core (R413, R421, R422). -/
def effRatio (s : State) (core : Nat) : Nat :=
  min (s.core core).ratio (min (if s.power.cur = 1 then 1 else 3) (3 - notchOf s (core / 6)))

/-- A core's share of its full current, in sixteenths, at a pass count and a ratio (R413, R416). -/
def shareOf (pass ratio : Nat) : Nat := 4 * (ratio + 1) / 2 ^ pass

/-- The limiter's notch whose share does not pass one: the settings from which the controller steps up (R416). -/
def notchFor (share : Nat) : Nat := ([16, 12, 8, 4, 2, 1].findIdx? fun x => decide (x ≤ share)).getD 5

/-- A core's share at its cluster's settings. -/
def coreShare (s : State) (core : Nat) : Nat := shareOf (effPass s (core / 6)) (effRatio s core)

/-- A write of passc or ratio that raises a core of a cluster takes effect under the slew limit: the controller steps the cluster up
from settings that give no such core more than its old share (R416). DEDUCED: log 83. -/
def limitRaise (old new : State) (cl : Nat) : State :=
  let c := new.cluster cl
  match ((List.range 6).map (6 * cl + ·)).filter fun core => decide (coreShare old core < coreShare new core) with
  | [] => new
  | x :: r => new.setCluster cl { c with ctlNotch := max c.ctlNotch (notchFor ((r.map (coreShare old)).foldl min (coreShare old x))) }

/-- The value of a control register (R192). -/
def ctlVal (s : State) (f : Nat) (t : Team) (ctl : Nat) : Word :=
  let c := s.core (coreOf f)
  match ctl with
  | 0 => t.flags.setWidth 64
  | 1 => BitVec.ofNat 64 (bit1 t.nb)
  | 2 => BitVec.ofNat 64 (tget c.binds t.partition 0)
  | 3 => BitVec.ofNat 64 (tget c.misses t.partition 0)
  | 4 => BitVec.ofNat 64 t.key.toNat
  | 5 => BitVec.ofNat 64 (t.key.toNat / 2 ^ 64)
  | 6 => BitVec.ofNat 64 t.position
  | 7 => BitVec.ofNat 64 s.cycle
  | 8 => BitVec.ofNat 64 t.issues
  | 9 => BitVec.ofNat 64 t.hdlr
  | 10 => BitVec.ofNat 64 (t.trapUcode * 256 + t.trapCause)
  | 11 => BitVec.ofNat 64 t.stack.length
  | 12 => BitVec.ofNat 64 (effPass s (clusterOf f))
  | 13 => BitVec.ofNat 64 (effRatio s (coreOf f))
  | _ => 0

/-- The meaning of getc (R191, R192). -/
def execGetc (h : Hdr) (d : Dst) (ctl : BitVec 4) (s : State) : Host.Outcome State Fault Refusal :=
  ({ i := .getc h d ctl, h, lat := L4, dests := [dstReg d], lin := .none, srcs := []
     fn := fun s f t _ => laneVal d (ctlVal s f t ctl.toNat, 0) } : Alu).exec s

/-- The state after a setc: the value of A in the lowest-numbered active lane goes to the register (R191). DEDUCED: where that lane
parks on a lost row of A, the value is that of the next active lane that does not (log 91). -/
def setcWord (i : Instr) (h : Hdr) (a : Src) (put : State → Nat → Word → State) (s : State) (f : Nat) (t : Team) : State :=
  let r := runSlot s f t i h L4 [] .none (ownReads [a]) [] fun _ => {}
  let good := r.pend.lanes.filter fun l => !r.faults.any fun x => x.1 == l
  let s1 := match good.head? with
    | some l => put r.s f (readSrc s f t .int a l)
    | none => r.s
  finishWord s1 f { faults := r.faults, sw := h.sw }

/-- The meaning of setc of a register other than those below: hdlr is written, read-only ones are discarded (R191,
R192). -/
def execSetc (h : Hdr) (ctl : BitVec 4) (a : Src) (s : State) : Host.Outcome State Fault Refusal :=
  forTeam s (setcWord (.setc h ctl a) h a (fun s f x =>
    if ctl = 9 then s.modTeam f fun t => { t with hdlr := x.toNat % 2 ^ 48 / 8 * 8 } else s) s)

/-- The meaning of setc of flags (R78, R81). -/
def execSetcFlags (h : Hdr) (a : Src) (s : State) : Host.Outcome State Fault Refusal :=
  forTeam s (setcWord (.setcFlags h a) h a (fun s f x => s.modTeam f fun t => { t with flags := x.setWidth 6 }) s)

/-- The meaning of setc of bindctl (R166). -/
def execSetcBindctl (h : Hdr) (a : Src) (s : State) : Host.Outcome State Fault Refusal :=
  forTeam s (setcWord (.setcBindctl h a) h a (fun s f x => s.modTeam f fun t => { t with nb := x.getLsbD 0 }) s)

/-- A stream register written (R187, R192): keylo, keyhi or strpos. -/
def putStream (ctl : Nat) (t : Team) (x : Word) : Team :=
  match ctl with
  | 4 => { t with key := BitVec.ofNat 128 (t.key.toNat / 2 ^ 64 * 2 ^ 64 + x.toNat) }
  | 5 => { t with key := BitVec.ofNat 128 (t.key.toNat % 2 ^ 64 + x.toNat * 2 ^ 64) }
  | _ => { t with position := x.toNat % 2 ^ 40 }

/-- The meaning of setc of a stream register (R187, R192). -/
def execSetcStream (h : Hdr) (ctl : BitVec 4) (a : Src) (s : State) : Host.Outcome State Fault Refusal :=
  forTeam s (setcWord (.setcStream h ctl a) h a (fun s f x => s.modTeam f fun t => putStream ctl.toNat t x) s)

/-- The meaning of setc of passc (R191, R192): supervisor only; 0b11 is written as 0b10; a raise goes under the slew limit
(R416). -/
def execSetcPassc (h : Hdr) (a : Src) (s : State) : Host.Outcome State Fault Refusal :=
  forTeam s fun f t =>
    if t.partition ≠ 0 then trapWord s f t .privilege
    else setcWord (.setcPassc h a) h a (fun s f x =>
      limitRaise s (s.setCluster (clusterOf f) { s.cluster (clusterOf f) with passc := min (x.toNat % 4) 2 }) (clusterOf f)) s f t

/-- The meaning of setc of ratio (R191, R192): supervisor only; a raise goes under the slew limit (R416). -/
def execSetcRatio (h : Hdr) (a : Src) (s : State) : Host.Outcome State Fault Refusal :=
  forTeam s fun f t =>
    if t.partition ≠ 0 then trapWord s f t .privilege
    else setcWord (.setcRatio h a) h a (fun s f x =>
      limitRaise s (s.setCore (coreOf f) { s.core (coreOf f) with ratio := x.toNat % 4 }) (clusterOf f)) s f t

end Sys2Proof.Machine
end

