-- ==== Sys2Proof/Machine/Matrix.lean ====
section
/-! DEFINITION. The matrix array (R245 to R274): what each operation reads, computes and writes, accumulator order
(R253), the issue of matrix and relation instructions and of cpym (R244), and the events of the asynchronous
operations. -/

namespace Sys2Proof.Machine

-- ===== accumulators =====

/-- The number of entry (i, j) of an accumulator tile of a cluster (R390). -/
def accKey (a i j : Nat) : Nat := a * 16384 + 128 * i + j

/-- An accumulator entry (R74). -/
def accGet (c : Cluster) (a i j : Nat) : Nat := (tget c.acc (accKey a i j) 0).toNat

/-- Entries written. -/
def accPut (m : Tab (BitVec 96)) (ws : List (Nat × Nat)) : Tab (BitVec 96) :=
  ws.foldl (fun m w => tset m w.1 (BitVec.ofNat 96 w.2) 0) m

/-- A tile's entries cleared, with their poison (R256, R261, R297). -/
def accClear (c : Cluster) (a : Nat) : Cluster :=
  let mine := fun (k : Nat) => decide (k / 16384 = a)
  { c with acc := c.acc.filter fun e => !mine e.1
           accPoison := c.accPoison.filter fun k => !mine k
           accLatent := c.accLatent.filter fun e => !mine e.1 }

/-- A tile's mode set: I96 or E96. -/
def accSetMode (c : Cluster) (a : Nat) (i96 : Bool) : Cluster :=
  let rest := c.accI96.filter (· != a)
  { c with accI96 := if i96 then rest ++ [a] else rest }

/-- The accumulator that an operation names (R253). -/
def opAcc (x : AsyncOp) : Option Nat :=
  match x.kind with
  | .mma _ a _ _ | .mmab _ _ _ a _ _ | .mzero _ a | .drainSp a _ _ _ | .drainMem a _ _ _ _ _ _ _ _ => some a
  | _ => none

/-- The mode that a tile holds once every word issued so far that names it has set its mode (R249). -/
def accMode (c : Cluster) (a : Nat) : Bool :=
  match (c.ops.filterMap fun e => match e.2.kind with
    | .mzero i96 b => if b = a then some i96 else none
    | _ => none).getLast? with
  | some m => m
  | none => c.accI96.contains a

/-- An entry as a value in E96 mode (R75). -/
def e96Value (x : Nat) : FV := Fmt.e96.value x

/-- An entry as an integer in I96 mode (R77). -/
def i96Value (x : Nat) : Int := signedOf 96 x

-- ===== tile elements as values =====

/-- The float format of a tile. -/
def TFmt.flt : TFmt → Fmt
  | .f16 => .f16
  | .bf16 => .bf16
  | _ => .f32

/-- Element (i, j) of a float tile. -/
def Tile.fv (sp : Tab Byte) (w0 : Nat) (t : Tile) (i j : Nat) : FV := t.fmt.flt.value (t.elem sp w0 i j)

/-- Row i of a relation as a number, bit j for element j. -/
def Tile.relRow (sp : Tab Byte) (w0 : Nat) (t : Tile) (i : Nat) : Nat := bytesGet sp (256 * w0 + t.rowAt i) (t.cols / 8)

/-- A relation's bytes from its rows. -/
def relOut (w0 : Nat) (t : Tile) (rows : List Nat) : List (Nat × Byte) :=
  (List.range t.rows).flatMap fun i => toBytes (256 * w0 + t.rowAt i) (rows.getD i 0) (t.cols / 8)

/-- The scratchpad words that a read of p planes of a .bp tile touches, with its scales or without (R72). -/
def planeWords (w0 : Nat) (t : Tile) (p : Nat) (scales : Bool) : List Nat :=
  (List.range t.rows).flatMap fun i => (List.range (t.cols / 64)).flatMap fun g =>
    spWords (256 * w0 + t.rowAt i + 64 * g) (8 * p) ++ (if scales then spWords (256 * w0 + t.scaleAt i g) 2 else [])

-- ===== what an operation computes =====

/-- What an operation gives: scratchpad bytes and accumulator entries to write, the count and status of its token, and
the value of its k register. -/
structure Calc where
  sp : List (Nat × Byte) := []
  acc : List (Nat × Nat) := []
  bytes : Nat := 0
  rounded : Bool := false
  count : Nat := 0

/-- One entry of an mma (R257). -/
def mmaEntry (sp : Tab Byte) (w0 : Nat) (a b : Tile) (tb : Bool) (old : Nat) (i j : Nat) : Nat :=
  (List.range a.cols).foldl (fun x k =>
    let y := if tb then b.fv sp w0 j k else b.fv sp w0 k j
    (Fmt.e96.fma .rne (a.fv sp w0 i k) y (e96Value x)).1) old

/-- The product of an mmab under .scaled (R258): exact, or NaN. -/
def scaledProduct (sa sb : FV) (ia ib : Int) : FV :=
  ((FV.mul sa (intFV ia)).bind fun x => (FV.mul sb (intFV ib)).bind fun y => FV.mul x y).getD .nan

/-- One entry of an mmab (R258). -/
def mmabEntry (sp : Tab Byte) (w0 : Nat) (a b : Tile) (scaled ctr : Bool) (p : Nat) (old : Nat) (i j : Nat) : Nat :=
  (List.range a.cols).foldl (fun x k =>
    let ia := planesRead (a.q sp w0 i k) p ctr
    let ib := b.q sp w0 k j
    if scaled then
      let sa := Fmt.f16.value (a.scale sp w0 i k)
      let sb := Fmt.f16.value (b.scale sp w0 k j)
      (Fmt.e96.add .rne (e96Value x) (scaledProduct sa sb ia ib)).1
    else wrapNat 96 (i96Value x + ia * ib)) old

/-- The entries of a product over an M × N region. -/
def accRegion (c : Cluster) (a m n : Nat) (g : Nat → Nat → Nat → Nat) : List (Nat × Nat) :=
  (List.range m).flatMap fun i => (List.range n).map fun j => (accKey a i j, g (accGet c a i j) i j)

/-- An entry drained into scratchpad (R261): the 32 bits and whether it was rounded or saturated. -/
def drainVal (i96 add : Bool) (e old : Nat) : Nat × Bool :=
  if i96 then
    let x := i96Value e + (if add then signedOf 32 old else 0)
    let y := max (-(2 ^ 31)) (min (2 ^ 31 - 1) x)
    (wrapNat 32 y, x != y)
  else if add then
    let r := Fmt.f32.add .rne (Fmt.f32.value old) (e96Value e)
    (r.1, r.1 != Fmt.f32.nan && r.2 != 0)
  else refloat .e96 .f32 e

/-- An entry drained into a storage format (R261). -/
def drainStore (i96 : Bool) (f : EFmt) (e : Nat) : Nat × Bool :=
  if i96 then
    let x := i96Value e
    match f with
    | .s8 => let y := max (-128) (min 127 x); (wrapNat 8 y, x != y)
    | .n8 => let y := max 0 (min 255 x); (wrapNat 8 y, x != y)
    | _ => let y := max (-(2 ^ 31)) (min (2 ^ 31 - 1) x); (wrapNat 32 y, x != y)
  else
    match f with
    | .f16 => refloat .e96 .f16 e
    | .bf16 => refloat .e96 .bf16 e
    | .f64 => refloat .e96 .f64 e
    | _ => refloat .e96 .f32 e

/-- The order of ocmp on floats: every NaN below every number, all NaNs equal (R266). -/
def ocmpOrd (x y : FV) : Ordering :=
  match x.isNan, y.isNan with
  | true, true => .eq
  | true, false => .lt
  | false, true => .gt
  | _, _ => FV.cmp x y

/-- Whether y_j MODE x_i holds (R266). -/
def ocmpHolds (m : OcmpMode) (o : Ordering) (j i : Nat) : Bool :=
  match m with
  | .lt => o == .lt
  | .le => o != .gt
  | .eq => o == .eq
  | .gtix => o == .gt || (o == .eq && decide (j < i))
  | .gt => o == .gt

/-- The relation of ocmp as ivcmp names it (R267). -/
def ocmpIvRel : OcmpMode → IvRel
  | .lt => .lt
  | .le => .le
  | .eq => .eq
  | _ => .gt

/-- The rows of the relations that ocmp writes: D, and the possible plane under .iv (R266, R267). -/
def ocmpRows (sp : Tab Byte) (w0 : Nat) (m : OcmpMode) (x y : Tile) : List Nat × List Nat :=
  let bits := fun (g : Nat → Nat → Bool) => (List.range x.cols).map fun i =>
    (List.range y.cols).foldl (fun r j => r + bit1 (g i j) * 2 ^ j) 0
  match x.fmt with
  | .iv =>
    let v := fun (i j : Nat) => (ivCmpVal (ocmpIvRel m) (Iv.ofWord (BitVec.ofNat 64 (y.elem sp w0 0 j)))
      (Iv.ofWord (BitVec.ofNat 64 (x.elem sp w0 0 i)))).1
    (bits fun i j => v i j == 1, bits fun i j => v i j != 0)
  | .s32 =>
    let e := fun (t : Tile) (n : Nat) => signedOf 32 (t.elem sp w0 0 n)
    (bits fun i j => ocmpHolds m (compare (e y j) (e x i)) j i, [])
  | _ => (bits fun i j => ocmpHolds m (ocmpOrd (y.fv sp w0 0 j) (x.fv sp w0 0 i)) j i, [])

/-- How many of the low n bits are set. -/
def bitCount (n x : Nat) : Nat := (List.range n).foldl (fun c i => c + x / 2 ^ i % 2) 0

/-- The transitive closure of a relation's rows (R270). -/
def closeRows (n : Nat) (rows : List Nat) : List Nat :=
  (List.range n).foldl (fun rs k =>
    let via := rs.getD k 0
    rs.map fun r => if r / 2 ^ k % 2 = 1 then Nat.lor r via else r) rows

/-- x / y rounded to the nearest integer, ties to even. -/
def divNearest (x y : Nat) : Nat :=
  let q := x / y
  let r := 2 * (x % y)
  if r > y ∨ (r = y ∧ q % 2 = 1) then q + 1 else q

/-- The quantised value of an element under a scale (R273): an exact quotient, rounded once and clamped. -/
def quantise (x s : FV) : Int :=
  match x, s with
  | .fin neg m e, .fin _ ms es =>
    if ms = 0 then 0
    else
      let k := min e es
      let q := min 127 (divNearest (m * 2 ^ (e - k).toNat) (ms * 2 ^ (es - k).toNat))
      if neg then -(q : Int) else q
  | _, _ => 0

/-- The magnitude of a value. -/
def FV.mag (x : FV) : FV := x.modify .a

/-- Whether an element is an outlier of qcvt (R273). -/
def outlier (thr x : FV) : Bool := x.isNan || (!thr.isNan && FV.cmp thr.mag x.mag == .lt)

/-- The scale of a group of qcvt (R273), as an .f16 pattern. -/
def groupScale (thr : FV) (xs : List FV) : Nat :=
  let mx := (xs.filter fun x => !outlier thr x).foldl (fun m x => if FV.cmp m x.mag == .lt then x.mag else m) FV.zero
  (Fmt.f16.div .rne mx (intFV 127)).1

/-- What qcvt writes (R273). DESIGN CHOICE: where its destinations overlap one another, the later of the planes, the scales, the mask
and the side list stands (log 95). -/
def qcvtCalc (sp : Tab Byte) (w0 : Nat) (d m a : Tile) (q : Word) : Calc :=
  let thr := Fmt.f32.value (q.toNat % 2 ^ 32)
  let list := 256 * w0 + natBits q.toNat 53 32
  let row := fun (i : Nat) => (List.range a.cols).map fun j => a.fv sp w0 i j
  let rows := (List.range a.rows).map row
  let at' := fun (i j : Nat) => (rows.getD i []).getD j .nan
  let group := fun (i g : Nat) => ((rows.getD i []).drop (64 * g)).take 64
  let scale := fun (i g : Nat) => groupScale thr (group i g)
  let qv := fun (i j : Nat) =>
    if outlier thr (at' i j) then 0 else quantise (at' i j) (Fmt.f16.value (scale i (j / 64)))
  let planes := (List.range d.rows).flatMap fun i => (List.range (d.cols / 64)).flatMap fun g =>
    (List.range 64).map fun n => (256 * w0 + d.rowAt i + 64 * g + n, BitVec.ofNat 8 (groupByte (fun e => qv i (64 * g + e)) n))
  let mask := relOut w0 m (rows.map fun r => ((List.range r.length).foldl (fun x j => x + bit1 (outlier thr (r.getD j .nan)) * 2 ^ j) 0))
  let outs := rows.flatMap fun r => r.filter (outlier thr)
  let side := (List.range outs.length).flatMap fun n =>
    toBytes (list + 2 * n) (match outs.getD n .nan with
      | .fin s x e => (Fmt.f16.round .rne s x e false).1
      | v => Fmt.f16.pattern v) 2
  { sp := planes ++ d.scaleOut w0 scale ++ mask ++ side, count := outs.length }

/-- What qexp writes (R274). -/
def qexpCalc (sp : Tab Byte) (w0 : Nat) (ctr : Bool) (p : Nat) (d a m : Tile) (q : Word) : Calc :=
  let list := 256 * w0 + natBits q.toNat 53 32
  let rows := (List.range m.rows).map fun i => m.relRow sp w0 i
  let set := fun (i j : Nat) => rows.getD i 0 / 2 ^ j % 2 == 1
  let before := fun (i : Nat) => ((rows.take i).map (bitCount m.cols)).foldl (· + ·) 0
  let val := fun (i j : Nat) =>
    if set i j then
      (refloat .f16 .f32 (bytesGet sp (list + 2 * (before i + bitCount j (rows.getD i 0))) 2)).1
    else (Fmt.f32.mul .rne (Fmt.f16.value (a.scale sp w0 i j)) (intFV (planesRead (a.q sp w0 i j) p ctr))).1
  { sp := d.out w0 val }

/-- What an operation computes from scratchpad and accumulators, every source read before any destination is written
(R254). -/
def matrixCalc (c : Cluster) (w0 : Nat) (k : OpKind) : Calc :=
  let T := Tile.ofWord
  match k with
  | .mma tb a ta tb' =>
    let x := T ta
    let y := T tb'
    { acc := accRegion c a x.rows (if tb then y.rows else y.cols) fun old i j => mmaEntry c.sp w0 x y tb old i j }
  | .mmab scaled ctr p a ta tb' =>
    let x := T ta
    let y := T tb'
    { acc := accRegion c a x.rows y.cols fun old i j => mmabEntry c.sp w0 x y scaled ctr p old i j }
  | .drainSp a tile _ add =>
    let t := T tile
    let i96 := c.accI96.contains a
    let v := fun i j => drainVal i96 add (accGet c a i j) (t.elem c.sp w0 i j)
    { sp := t.out w0 fun i j => (v i j).1, bytes := t.rows * t.cols * 4
      rounded := (List.range t.rows).any fun i => (List.range t.cols).any fun j => (v i j).2 }
  | .ocmp m d x y =>
    let r := ocmpRows c.sp w0 m (T x) (T y)
    { sp := relOut w0 (T d) r.1 }
  | .rcount d a =>
    let t := T a
    { sp := (T d).out w0 fun _ j => bitCount t.cols (t.relRow c.sp w0 j) }
  | .rclose refl d a =>
    let t := T a
    let rows := closeRows t.rows ((List.range t.rows).map fun i => t.relRow c.sp w0 i)
    { sp := relOut w0 (T d) ((List.range t.rows).map fun i => if refl then Nat.lor (rows.getD i 0) (2 ^ i) else rows.getD i 0) }
  | .rcomp d a b =>
    let x := T a
    let y := T b
    let rb := (List.range y.rows).map fun k => y.relRow c.sp w0 k
    let row := fun i => (List.range x.cols).foldl (fun r k =>
      if x.relRow c.sp w0 i / 2 ^ k % 2 = 1 then Nat.lor r (rb.getD k 0) else r) 0
    { sp := relOut w0 (T d) ((List.range x.rows).map row) }
  | .rtrans d a =>
    let t := T a
    let rows := (List.range t.rows).map fun i => t.relRow c.sp w0 i
    { sp := relOut w0 (T d) ((List.range t.cols).map fun j =>
        (List.range t.rows).foldl (fun r i => r + rows.getD i 0 / 2 ^ j % 2 * 2 ^ i) 0) }
  | .qcvt d m a q => qcvtCalc c.sp w0 (T d) (T m) (T a) q
  | .qexp ctr p d a m q => qexpCalc c.sp w0 ctr p (T d) (T a) (T m) q
  | _ => {}

/-- The possible plane that ocmp writes into t(D + 1) under .iv (R267). -/
def ocmpPossible (c : Cluster) (w0 : Nat) (x : AsyncOp) (d2 : Tile) : List (Nat × Byte) :=
  match x.kind with
  | .ocmp m _ a b =>
    if (Tile.ofWord a).fmt == .iv then relOut w0 d2 (ocmpRows c.sp w0 m (Tile.ofWord a) (Tile.ofWord b)).2 else []
  | _ => []

-- ===== errors =====

/-- The scratchpad words that an operation reads (R297). -/
def matrixWords (c : Cluster) (w0 : Nat) (k : OpKind) : List Nat :=
  let T := Tile.ofWord
  match k with
  | .mma _ _ a b => (T a).words w0 ++ (T b).words w0
  | .mmab scaled _ p _ a b => planeWords w0 (T a) p scaled ++ planeWords w0 (T b) 8 scaled
  | .drainSp _ t _ true => (T t).words w0
  | .ocmp _ _ x y => (T x).words w0 ++ (T y).words w0
  | .rcount _ a | .rclose _ _ a | .rtrans _ a => (T a).words w0
  | .rcomp _ a b => (T a).words w0 ++ (T b).words w0
  | .qcvt _ _ a _ => (T a).words w0
  | .qexp _ p _ a m q =>
    let t := T m
    let n := ((List.range t.rows).map fun i => bitCount t.cols (t.relRow c.sp w0 i)).foldl (· + ·) 0
    planeWords w0 (T a) p true ++ t.words w0 ++ (if n = 0 then [] else spWords (256 * w0 + natBits q.toNat 53 32) (2 * n))
  | _ => []

/-- The accumulator entries that an operation reads (R297). -/
def matrixEntries (k : OpKind) : List Nat :=
  let T := Tile.ofWord
  let region := fun (a m n : Nat) => (List.range m).flatMap fun i => (List.range n).map fun j => accKey a i j
  match k with
  | .mma tb a x y => region a (T x).rows (if tb then (T y).rows else (T y).cols)
  | .mmab _ _ _ a x y => region a (T x).rows (T y).cols
  | .drainSp a t _ _ | .drainMem a t _ _ _ _ _ _ _ => region a (T t).rows (T t).cols
  | _ => []

/-- Whether a scratchpad word has a lasting error. -/
def wordBad (c : Cluster) (w : Nat) : Bool := c.spPoison.contains w || tfind c.spLatent w == some .lasting

/-- Whether an accumulator entry has a lasting error. -/
def entryBad (c : Cluster) (k : Nat) : Bool := c.accPoison.contains k || tfind c.accLatent k == some .lasting

/-- The words of which a list of bytes writes only a part. -/
def partWords (ws : List (Nat × Byte)) : List Nat := (blocksOf 8 ws).filter fun w => coverage 8 w ws != 8

/-- The bytes that an operation writes into scratchpad. DESIGN CHOICE: where the two planes of an ocmp.iv overlap, the possible plane
stands (log 96). -/
def matrixOut (c : Cluster) (w0 : Nat) (x : AsyncOp) (d2 : Tile) : List (Nat × Byte) :=
  (matrixCalc c w0 x.kind).sp ++ ocmpPossible c w0 x d2

/-- The second destination of an ocmp.iv (R265), kept in the operation's k field as the register's descriptor. -/
def secondTile (x : AsyncOp) : Tile := Tile.ofWord (BitVec.ofNat 64 (x.kdest.getD 0))

/-- The engine fault that an operation meets (R291): its kind code and where. -/
def engineFaultOf (s : State) (cl : Nat) (x : AsyncOp) : Option (Nat × Nat) :=
  let c := s.cluster cl
  let w0 := opBase s x
  let off := fun (w : Nat) => 8 * w - 256 * w0
  if x.presetStatus.isSome then none
  else
    match (matrixWords c w0 x.kind).find? (wordBad c) with
    | some w => some (0x0A, off w)
    | none =>
      match (matrixEntries x.kind).find? (entryBad c) with
      | some k => some (0x11, k)
      | none =>
        let lost := match x.kind with
          | .cpy _ _ _ | .tensor _ _ _ _ _ _ _ _ _ | .scatter _ _ _ _ _ _ _ _ | .drainMem _ _ _ _ _ _ _ _ _ | .mma _ _ _ _
          | .mmab _ _ _ _ _ _ | .mzero _ _ => none
          | _ => (partWords (matrixOut c w0 x (secondTile x))).find? (wordBad c)
        match lost with
        | some w => some (0x0A, off w)
        | none => (memoryFault s cl x).map fun e => (e.1.code, e.2)

/-- The error-checked reads of an operation: single-bit errors are corrected, and errors are counted (R296). -/
def matrixRead (s : State) (cl : Nat) (x : AsyncOp) : State :=
  let s1 := (matrixWords (s.cluster cl) (opBase s x) x.kind).eraseDups.foldl (fun s w => (spCheck s cl w).1) s
  let one := fun (s : State) (k : Nat) =>
    let c := s.cluster cl
    match tfind c.accLatent k with
    | none => s
    | some e =>
      let s' := s.setCluster cl { c with accLatent := tdel c.accLatent k }
      match e with
      | .single => countCorr s' (cl / 64)
      | .transient => countTrans s' (cl / 64)
      | .lasting =>
        let c' := s'.cluster cl
        countLast (s'.setCluster cl { c' with accPoison := c'.accPoison ++ [k] }) (cl / 64)
  if (s1.cluster cl).accLatent.isEmpty then s1 else (matrixEntries x.kind).foldl one s1

-- ===== when an operation may start =====

/-- Whether an operation uses the matrix array (R264). -/
def OpKind.onArray : OpKind → Bool
  | .cpy _ _ _ | .tensor _ _ _ _ _ _ _ _ _ | .scatter _ _ _ _ _ _ _ _ => false
  | _ => true

/-- Whether no earlier operation of the team has a memory side that overlaps this one's, and no earlier access or pending
lyset of the team either (R232, R263). -/
def memoryClear (s : State) (cl key : Nat) (x : AsyncOp) : Bool :=
  let mine := opPlaces s cl x
  let meets := fun (p : List (AccPlace × Nat)) => mine.any fun a => p.any (placesMeet a)
  let accs := s.accs.filter fun e => e.2.team == x.team && decide (e.1 < key)
  let ops := (s.cluster cl).ops.filter fun e => e.2.team == x.team && decide (e.1 < key)
  let slots := mine.any fun a => match a.1 with
    | .home pa => slotMeets s x.team x.issue pa a.2
    | _ => false
  !(accs.any fun e => meets [(e.2.place, e.2.size)]) && !(ops.any fun e => meets (opPlaces s cl e.2)) && !slots

/-- Whether an operation touches scratchpad (R213, R216). -/
def OpKind.touchesSp : OpKind → Bool
  | .mzero _ _ | .drainMem _ _ _ _ _ _ _ _ _ => false
  | _ => true

/-- Whether a frame under retirement holds an operation's memory side (R385, R391). -/
def opHeld (s : State) (cl : Nat) (x : AsyncOp) : Bool :=
  !s.retiring.isEmpty && (opPlaces s cl x).any fun p => match p.1 with
    | .home pa => frameHeld s pa || frameHeld s (pa + p.2 - 1)
    | _ => false

/-- Whether an operation is able to begin, whoever holds the array (R216, R232, R253, R342, R385). -/
def opAble (s : State) (cl key : Nat) (x : AsyncOp) : Bool :=
  let c := s.cluster cl
  let plain := x.kind.touchesSp && s.accs.any fun e => e.2.team == x.team && decide (e.1 < key) && (match e.2.place with
    | .sp _ _ => true
    | _ => false)
  let acq := (tfind s.teams x.team).elim false fun t => t.pend.any fun p => p.acq.isSome && decide (p.issue < x.issue)
  let order := match opAcc x with
    | some a => c.ops.any fun e => decide (e.1 < key) && opAcc e.2 == some a
    | none => false
  x.phase == .waiting && entryClear c key && !plain && !acq && !order && !opHeld s cl x && memoryClear s cl key x

/-- Whether an operation of the array stands before another: it became able to begin earlier (R264); those that became able
at one moment stand in issue order (DEDUCED, log 41). -/
def standsBefore (a b : Nat × AsyncOp) : Bool :=
  match a.2.able, b.2.able with
  | some x, some y => decide (x < y) || (decide (x = y) && decide (a.1 < b.1))
  | some _, none => true
  | none, _ => false

/-- Whether an operation may begin: the array holds one operation at a time, in the order in which its operations become able
to begin (R264). -/
def opMayStart (s : State) (cl key : Nat) (x : AsyncOp) : Bool :=
  let c := s.cluster cl
  let busy := c.ops.any fun e => e.1 != key && e.2.kind.onArray && (e.2.phase == .running || e.2.phase == .moved ||
    (e.2.phase == .waiting && standsBefore e (key, x)))
  opAble s cl key x && !(x.kind.onArray && busy)

/-- The operations of the array that have become able to begin are noted (R264). -/
def noteAble (s : State) : State :=
  let new := fun (c : Nat × Cluster) => (c.2.ops.filter fun e =>
    e.2.kind.onArray && e.2.able.isNone && opAble s c.1 e.1 e.2).map fun e => (c.1, e.1)
  let l := s.clusters.flatMap new
  if l.isEmpty then s
  else { l.foldl (fun u e => modOp u e.1 e.2 fun x => { x with able := some s.seq }) s with seq := s.seq + 1 }

/-- The accumulation of an mma or mmab, and the end of its entry (R217, R257, R258). -/
def accumulate (s : State) (cl key : Nat) (x : AsyncOp) : State :=
  let s1 := matrixRead s cl x
  let c := s1.cluster cl
  let c' := { c with acc := accPut c.acc (matrixCalc c (opBase s x) x.kind).acc }
  modOp (retireEntry (s1.setCluster cl c') cl key) cl key fun y => { y with phase := .moved }

/-- Whether an operation is an accumulation. -/
def OpKind.accumulates : OpKind → Bool
  | .mma _ _ _ _ | .mmab _ _ _ _ _ _ => true
  | _ => false

/-- What a scatter meets where it begins and its rows' indices may be read (R438). -/
def scatterMiss (s : State) (cl : Nat) (x : AsyncOp) : Option (FaultCode × Nat) :=
  if x.kind.scatters && x.presetStatus.isNone then remoteMiss s x.partition (opRuns s cl x) else none

/-- The meaning of ASYNC_OPERATION_START (R216): the operation begins, and asks for the walks that its memory side lacks (R320). An
mma or mmab reads its tiles and its entry retires; an engine fault that it meets keeps it from that. -/
def execAsyncOperationStart (cluster op : Nat) (s : State) : Host.Outcome State Fault Refusal :=
  .next (match tfind (s.cluster cluster).ops op with
  | none => s
  | some x =>
    if !opMayStart s cluster op x then s
    else if x.kind.accumulates && (engineFaultOf s cluster x).isNone then accumulate s cluster op x
    else
      match scatterMiss s cluster x with
      | some (c, va) => killBlock s x.team x.block ⟨c.code, x.opByte, x.word, x.index, va⟩
      | none => opAsk (modOp s cluster op fun y => { y with phase := .running }) cluster op x)

-- ===== an operation ends =====

/-- The follow-on operation that waits for a copy (R244). -/
def followOn (s : State) (cl key : Nat) : Option (Nat × AsyncOp) :=
  (s.cluster cl).ops.find? fun e => e.2.after == some key && e.2.phase == .held

/-- What a copy's status does to its follow-on mma: cancelled, or free to issue (R244). -/
def settleFollow (s : State) (cl key status : Nat) : State :=
  match followOn s cl key with
  | none => s
  | some (k, _) =>
    if status = 0x10 ∨ status = 0x11 ∨ status = 0x12 ∨ status = 0x20 then dropOp s cl k
    else modOp s cl k fun y => { y with after := none }

/-- A copy ends: its bytes move, its entry retires and its token is written (R217, R230). -/
def finishCopy (s : State) (cl key : Nat) (x : AsyncOp) : State :=
  let m := runCopy s cl x
  let status := x.presetStatus.getD m.status
  settleFollow (landToken (dropOp m.s cl key) x.team x.issue (m.bytes * 256 + status)) cl key status

/-- The meaning of COPY_COMPLETION (R230): the copy ends, or asks for a walk that it lacks again (R320). -/
def execCopyCompletion (cluster op : Nat) (s : State) : Host.Outcome State Fault Refusal :=
  .next (match tfind (s.cluster cluster).ops op with
  | none => s
  | some x =>
    if x.kind.onArray || x.phase != .running || (engineFaultOf s cluster x).isSome || opHeld s cluster x then s
    else if !(opMiss s cluster x).isEmpty then opAsk s cluster op x
    else finishCopy s cluster op x)

/-- The meaning of FOLLOW_ON_MMA_ISSUE (R244). -/
def execFollowOnMmaIssue (cluster op : Nat) (s : State) : Host.Outcome State Fault Refusal :=
  .next (match tfind (s.cluster cluster).ops op with
  | none => s
  | some x => if x.phase == .held && x.after.isNone then modOp s cluster op fun y => { y with phase := .waiting } else s)

/-- A cell of an mdrain.add with its sum: one whose old value lies in a lost block is left unchanged (R384); the old value of
one in another package is free. -/
def addCell (s : State) (x : AsyncOp) (i96 : Bool) (o : CellOut) (e : Nat) : State × Option CellOut :=
  match o.place with
  | .home pa =>
    let r := readBlocks s pa 4 x.partition (o.cell.va.getD 0)
    if r.2 then (r.1, none)
    else
      let v := drainVal i96 true e (memGet r.1 pa 4)
      (r.1, some { o with bits := v.1, rounded := v.2 })
  | _ =>
    let q := drawFree s
    let v := drainVal i96 true e ((Config.freeWord q.2).toNat % 2 ^ 32)
    (q.1, some { o with bits := v.1, rounded := v.2 })

/-- The cells of an mdrain.add leave every L1, so that no access finds some of them updated and others not (R262). DEDUCED:
log 82. -/
def dropBox (s : State) (cs : List CellOut) : State :=
  let hit := fun (l : L1Line) => cs.any fun c => match c.place with
    | .home pa => l.remote == none && l.line == pa / 256
    | .remote pkg a => l.remote == some pkg && l.line == a / 256
    | .sp _ _ => false
  s.clusters.foldl (fun s e => l1Drop s e.1 hit) s

/-- An mdrain.add to memory (R261, R262): over a route that is down the whole of it is performed, or nothing, which is
free. DESIGN CHOICE: where two elements of its box have the same bytes, each adds to what they held before and the later one in
row and column order stands (log 94). -/
def drainAdd (s : State) (cl : Nat) (x : AsyncOp) (a : Nat) (i96 : Bool) (l : Layout) (t : Tile) (cells : List CellOut) : Moved :=
  let e := fun (o : CellOut) => accGet (s.cluster cl) a o.cell.i o.cell.j
  let down := cells.any fun o => match o.place with
    | .remote pkg _ => !routeUp s pkg
    | _ => false
  let s1 := if down then { s with freeCtr := s.freeCtr + 1 } else s
  if down && Config.freeBit s.freeCtr then { s := s1, remote := true }
  else
    let r := cells.foldl (fun (r : State × List CellOut × Bool) o =>
      let z := addCell r.1 x i96 o (e o)
      match z.2 with
      | some y => (z.1, r.2.1 ++ [y], r.2.2)
      | none => (z.1, r.2.1, true)) (s1, [], false)
    let m := storeCells r.1 cl x l t [] r.2.1
    { m with s := dropBox m.s cells, poisoned := m.poisoned || r.2.2 }

/-- Some elements of an mdrain to memory as a plain store delivers them (R261). -/
def drainOut (s : State) (cl : Nat) (x : AsyncOp) (a : Nat) (l : Layout) (cs : List Cell) : List CellOut :=
  let c := s.cluster cl
  cs.filterMap fun c' => c'.va.bind fun va =>
    match opSpot s x true va with
    | .ok (p, _, _) =>
      let v := drainStore (c.accI96.contains a) l.fmt (accGet c a c'.i c'.j)
      some { cell := c', place := p, bits := v.1, rounded := v.2 }
    | .error _ => none

/-- The rest of an mdrain to memory (R260, R261, R384). DESIGN CHOICE: where two elements of its box have the same bytes, the
later one in row and column order stands (log 94). -/
def drainBox (s0 : State) (cl : Nat) (x : AsyncOp) (a : Nat) (add : Bool) : Moved :=
  let s1 := opTranslate s0 cl x
  let l := opLayout x
  let q := opCells s1 cl x
  let cs := splitCells x q.2
  let s := cellsReach s1 x l q.1 cs.1
  let out := drainOut s cl x a l cs.1
  (if add then drainAdd s cl x a ((s.cluster cl).accI96.contains a) l q.1 out
   else storeRest s cl x l q.1 out cs.2).after x.tally

/-- A part of a running copy, or of a plain mdrain to memory, moves by the choice `pick`: an element, or a lane (R232, R262,
R336). -/
def opPart (s : State) (cl key : Nat) (x : AsyncOp) (pick : Nat) : State :=
  if x.phase != .running || x.presetStatus.isSome || (engineFaultOf s cl x).isSome then s
  else
    match x.kind with
    | .drainMem a _ _ false _ _ _ _ _ =>
      let l := opLayout x
      let q := opCells s cl x
      let cs := nextCells s cl x l q.1 q.2 pick
      if cs.isEmpty then s
      else
        let s1 := cellsReach s x l q.1 cs
        noteMoved cl key (storeCells s1 cl x l q.1 [] (drainOut s1 cl x a l cs)) (cs.map fun c => (c.i, c.j))
    | _ => copyPart s cl key x pick

/-- Whether an operation clears its accumulator tile. -/
def opClears (k : OpKind) : Option Nat :=
  match k with
  | .drainSp a _ true _ | .drainMem a _ true _ _ _ _ _ _ => some a
  | _ => none

/-- An operation of the array ends: what it computes is written, and its token or k register (R217, R261, R264, R273). A drain's
token is known then and may land later (R230, R311). -/
def finishMatrix (s0 : State) (cl key : Nat) (x : AsyncOp) : State :=
  if x.presetStatus.isSome then giveToken (dropOp s0 cl key) x.team x.issue (x.presetStatus.getD 0)
  else
    let s := matrixRead s0 cl x
    let c := s.cluster cl
    let w0 := opBase s x
    let r := matrixCalc c w0 x.kind
    let m : Moved := match x.kind with
      | .drainMem a _ _ add _ _ _ _ _ => drainBox s cl x a add
      | _ => { s := (spWrite s cl (matrixOut c w0 x (secondTile x))).1, bytes := r.bytes, rounded := r.rounded }
    let c1 := m.s.cluster cl
    let c2 := match x.kind with
      | .mzero i96 a => accSetMode (accClear c1 a) a i96
      | _ => match opClears x.kind with
        | some a => accClear c1 a
        | none => c1
    let s2 := dropOp (m.s.setCluster cl c2) cl key
    match x.kind, x.token with
    | .qcvt _ _ _ _, _ => takeValue s2 x.team x.issue 0 (some (BitVec.ofNat 64 r.count))
    | _, some _ => giveToken s2 x.team x.issue (m.bytes * 256 + m.status)
    | _, none => s2

/-- Whether a load word of another team has been performed in some of its lanes, or a copy has moved a part, and others that read
the box of an mdrain.add to memory have still to: the update waits, so that neither sees it in part (R262, R275). -/
def splitRead (s : State) (cl : Nat) (x : AsyncOp) : Bool :=
  let begun := fun (a : Acc) => (tfind s.teams a.team).elim false fun t => t.pend.any fun p =>
    p.issue == a.issue && p.lat == .variable && p.writes.any fun w => !w.vals.isEmpty
  match x.kind with
  | .drainMem _ _ _ true _ _ _ _ _ =>
    let box := opPlaces s cl x
    (s.accs.any fun e => !e.2.kind.writes && begun e.2 && box.any (placesMeet (e.2.place, e.2.size))) ||
      s.clusters.any fun c => c.2.ops.any fun o => !o.2.moved.isEmpty && !opStores o.2 &&
        (opPlaces s c.1 o.2).any fun p => box.any (placesMeet p)
  | _ => false

/-- The meaning of MATRIX_OPERATION_COMPLETE (R264). -/
def execMatrixOperationComplete (cluster op : Nat) (s : State) : Host.Outcome State Fault Refusal :=
  .next (match tfind (s.cluster cluster).ops op with
  | none => s
  | some x =>
    if !x.kind.onArray then s
    else if x.kind.accumulates then (if x.phase == .moved then dropOp s cluster op else s)
    else if x.phase != .running || (engineFaultOf s cluster x).isSome || splitRead s cluster x || opHeld s cluster x then s
    else if !(opMiss s cluster x).isEmpty then opAsk s cluster op x
    else finishMatrix s cluster op x)

/-- The meaning of ENGINE_FAULT (R291 to R295): the failure that a running operation meets kills its block. -/
def execEngineFault (cluster op : Nat) (s : State) : Host.Outcome State Fault Refusal :=
  .next (match tfind (s.cluster cluster).ops op with
  | none => s
  | some x =>
    if x.phase != .running then s
    else
      match engineFaultOf s cluster x with
      | none => s
      | some (kind, loc) =>
        let s0 := matrixRead s cluster x
        -- a word that the operation writes only in part is read, and one that fails poisons (R296)
        let s1 := if kind = 0x0A then (spCheck s0 cluster (loc / 8 + 32 * opBase s x)).1 else s0
        let s1 := opTranslate s1 cluster x
        killBlock { s1 with freeCtr := s1.freeCtr + 3 } x.team x.block ⟨kind, x.opByte, x.word, x.index, loc⟩)

/-- The meaning of SCOREBOARD_STALL_RELEASE (R219): a team whose word waited for entries may issue again. -/
def execScoreboardStallRelease (team : Nat) (s : State) : Host.Outcome State Fault Refusal :=
  .next (match tfind s.teams team with
  | none => s
  | some t =>
    match t.wait with
    | .entries n => if entriesFree s (clusterOf team) t.partition n then s.setTeam team { t with wait := .ready } else s
    | _ => s)

-- ===== the instructions =====

/-- The meaning of tdesc (R255). -/
def execTdesc (h : Hdr) (t : BitVec 4) (a : BitVec 6) (b : Option (BitVec 6)) (s : State) : Host.Outcome State Fault Refusal :=
  forTeam s fun f tm =>
    let x := (readK tm a.toNat).toNat
    let y := match b with
      | some k => (readK tm k.toNat).toNat
      | none => 0
    let v := BitVec.ofNat 64 (x - x % 2 ^ 14 + (x + y) % 2 ^ 14)
    finishWord s f { pends := [{ issue := tm.issues, lat := L4, writes := [⟨.t t.toNat, [(0, v)]⟩], lanes := [0] }], sw := h.sw }

/-- Whether a block may use an accumulator in a mode (R249): false is E96. -/
def accOk (s : State) (f : Nat) (t : Team) (acc : Nat) (i96 : Bool) : Bool :=
  (s.blockOf t).holdsAcc && accMode (s.cluster (clusterOf f)) acc == i96

/-- The operation of a matrix word. -/
def matrixOp (t : Team) (f opByte : Nat) (kind : OpKind) : AsyncOp := mkOp t f opByte kind .sp .none none none

/-- A matrix word without a token issues, with its scoreboard entry (R213, R214, R219). -/
def issueMatrix (s : State) (f : Nat) (t : Team) (h : Hdr) (x : AsyncOp) (reads : List Interval) (write : Option Interval)
    (pends : List Pend) : State :=
  if !entriesFree s (clusterOf f) t.partition 1 then waitEntries s f t 1
  else finishWord (pushOp s (clusterOf f) x (some { partition := t.partition, reads, write })) f { pends, sw := h.sw }

/-- The meaning of mzero (R256). -/
def execMzero (h : Hdr) (i96 : Bool) (acc : BitVec 2) (s : State) : Host.Outcome State Fault Refusal :=
  forTeam s fun f t =>
    if !(s.blockOf t).holdsAcc then trapWord s f t .badAccumulator
    else finishWord (pushOp s (clusterOf f) (matrixOp t f 0x91 (.mzero i96 acc.toNat)) none) f { sw := h.sw }

/-- Whether two tiles may be multiplied by an mma (R257). -/
def mmaTiles (a b : Tile) (tb : Bool) (rows : Nat) : Bool :=
  a.ok rows && b.ok rows && a.fmt == b.fmt && (a.fmt == .f16 || a.fmt == .bf16 || a.fmt == .f32) &&
  a.cols == (if tb then b.cols else b.rows)

/-- The meaning of mma (R257). -/
def execMma (h : Hdr) (tb : Bool) (acc : BitVec 2) (ta tb' : BitVec 4) (s : State) : Host.Outcome State Fault Refusal :=
  forTeam s fun f t =>
    let b := s.blockOf t
    let x := tileOf t ta
    let y := tileOf t tb'
    if !mmaTiles x y tb b.rows then trapWord s f t .badTile
    else if !accOk s f t acc.toNat false then trapWord s f t .badAccumulator
    else
      issueMatrix s f t h (matrixOp t f 0x92 (.mma tb acc.toNat (tget t.t ta.toNat 0) (tget t.t tb'.toNat 0)))
        [x.interval b.base, y.interval b.base] none []

/-- The meaning of mmab (R258). -/
def execMmab (h : Hdr) (scaled ctr : Bool) (planes : BitVec 4) (acc : BitVec 2) (ta tb' : BitVec 4) (s : State) :
    Host.Outcome State Fault Refusal :=
  forTeam s fun f t =>
    let b := s.blockOf t
    let x := tileOf t ta
    let y := tileOf t tb'
    if !(x.ok b.rows && y.ok b.rows && x.isBp && y.isBp && x.cols == y.rows) then trapWord s f t .badTile
    else if !accOk s f t acc.toNat (!scaled) then trapWord s f t .badAccumulator
    else
      issueMatrix s f t h
        (matrixOp t f 0x93 (.mmab scaled ctr planes.toNat acc.toNat (tget t.t ta.toNat 0) (tget t.t tb'.toNat 0)))
        [x.interval b.base, y.interval b.base] none []

/-- The space of an mdrain to memory. -/
def drainSpace : DrainSpace → Space
  | .vt => .vt
  | _ => .gl

/-- The format that an mdrain's tile must have for an accumulator's mode (R260). -/
def drainFmt (t : Tile) : Option Bool :=
  match t.fmt with
  | .f32 => some false
  | .s32 => some true
  | _ => none

/-- The meaning of mdrain (R260 to R263). -/
def execMdrain (h : Hdr) (space : DrainSpace) (hint : Hint) (clr add : Bool) (tok : BitVec 6) (acc : BitVec 2) (tile : BitVec 4)
    (grp : Option (BitVec 4)) (s : State) : Host.Outcome State Fault Refusal :=
  forTeam s fun f t =>
    let b := s.blockOf t
    let td := tileOf t tile
    let w := tget t.t tile.toNat 0
    let i96 := accMode (s.cluster (clusterOf f)) acc.toNat
    let valid := if space == .sp then td.ok b.rows else td.shapeOk
    -- where the block holds no accumulators there is no mode for the format to fit
    if !(valid && (match drainFmt td with
        | some m => m == i96 || !b.holdsAcc
        | none => false)) then trapWord s f t .badTile
    else if !b.holdsAcc then trapWord s f t .badAccumulator
    else
      match space, grp with
      | .sp, _ =>
        if !entriesFree s (clusterOf f) t.partition 1 then waitEntries s f t 1
        else
          let x := mkOp t f 0x94 (.drainSp acc.toNat w clr add) .sp .none (some tok.toNat) none
          finishWord (pushOp s (clusterOf f) x (some { partition := t.partition, reads := [], write := some (td.interval b.base) })) f
            { pends := [tokenPend t tok], sw := h.sw }
      | other, g =>
        let grp := g.getD 0
        let slot := slotOf t grp
        if slot.state == .pending then s
        else
          let k := groupWord t grp
          let l := slotLayout slot (k 0) (k 1) (k 2) (k 3) 0
          let preset := presetOf s slot l td false false 0 (boxCells l td false)
          let same := l.fmt == (if td.fmt == .f32 then EFmt.f32 else .s32)
          let preset' := if preset.isNone && add && !same then some 0x12 else preset
          let kind := OpKind.drainMem acc.toNat w clr add slot (k 0) (k 1) (k 2) (k 3)
          issueTensor s f t h (mkOp t f 0x94 kind (drainSpace other) hint (some tok.toNat) preset') slot none tok id

/-- Whether a descriptor is a relation of a shape. -/
def relTile (t : Tile) (rows cols w : Nat) : Bool := t.ok w && t.fmt == .rel && t.rows == rows && t.cols == cols

/-- The hull of two intervals (R265). -/
def Interval.join (a b : Interval) : Interval := ⟨min a.lo b.lo, max a.hi b.hi⟩

/-- The meaning of ocmp (R265 to R267). -/
def execOcmp (h : Hdr) (mode : OcmpMode) (d x y : BitVec 4) (s : State) : Host.Outcome State Fault Refusal :=
  forTeam s fun f t =>
    let b := s.blockOf t
    let tx := tileOf t x
    let ty := tileOf t y
    let td := tileOf t d
    let iv := tx.fmt == .iv
    let cols := 8 * ((ty.cols + 7) / 8)
    let vec := fun (v : Tile) => v.ok b.rows && v.rows == 1
    let fmtOk := match tx.fmt with
      | .f16 | .bf16 | .f32 | .s32 | .iv => true
      | _ => false
    let dest := fun (v : Tile) => relTile v tx.cols cols b.rows
    let t2 := tileOf t (d + 1)
    if !(vec tx && vec ty && tx.fmt == ty.fmt && fmtOk && dest td &&
        (!iv || (d.toNat % 2 == 0 && dest t2 && mode != .gtix))) then trapWord s f t .badTile
    else
      let op := matrixOp t f 0x95 (.ocmp mode (tget t.t d.toNat 0) (tget t.t x.toNat 0) (tget t.t y.toNat 0))
      let op' := if iv then { op with kdest := some (tget t.t (d + 1).toNat 0).toNat } else op
      let w := td.interval b.base
      issueMatrix s f t h op' [tx.interval b.base, ty.interval b.base] (some (if iv then w.join (t2.interval b.base) else w)) []

/-- The meaning of rcount (R268). -/
def execRcount (h : Hdr) (d a : BitVec 4) (s : State) : Host.Outcome State Fault Refusal :=
  forTeam s fun f t =>
    let b := s.blockOf t
    let ta := tileOf t a
    let td := tileOf t d
    if !(ta.ok b.rows && ta.fmt == .rel && td.ok b.rows && td.fmt == .s32 && td.rows == 1 && td.cols == ta.rows) then
      trapWord s f t .badTile
    else issueMatrix s f t h (matrixOp t f 0x96 (.rcount (tget t.t d.toNat 0) (tget t.t a.toNat 0))) [ta.interval b.base]
      (some (td.interval b.base)) []

/-- The meaning of rclose (R270). -/
def execRclose (h : Hdr) (refl : Bool) (d a : BitVec 4) (s : State) : Host.Outcome State Fault Refusal :=
  forTeam s fun f t =>
    let b := s.blockOf t
    let ta := tileOf t a
    let td := tileOf t d
    if !(relTile ta ta.rows ta.rows b.rows && relTile td ta.rows ta.rows b.rows) then trapWord s f t .badTile
    else issueMatrix s f t h (matrixOp t f 0x97 (.rclose refl (tget t.t d.toNat 0) (tget t.t a.toNat 0))) [ta.interval b.base]
      (some (td.interval b.base)) []

/-- The meaning of rcomp (R269). -/
def execRcomp (h : Hdr) (d a b : BitVec 4) (s : State) : Host.Outcome State Fault Refusal :=
  forTeam s fun f t =>
    let bl := s.blockOf t
    let ta := tileOf t a
    let tb := tileOf t b
    let td := tileOf t d
    if !(relTile ta ta.rows ta.cols bl.rows && relTile tb ta.cols tb.cols bl.rows && relTile td ta.rows tb.cols bl.rows) then
      trapWord s f t .badTile
    else issueMatrix s f t h
      (matrixOp t f 0x98 (.rcomp (tget t.t d.toNat 0) (tget t.t a.toNat 0) (tget t.t b.toNat 0)))
      [ta.interval bl.base, tb.interval bl.base] (some (td.interval bl.base)) []

/-- The meaning of rtrans (R271). -/
def execRtrans (h : Hdr) (d a : BitVec 4) (s : State) : Host.Outcome State Fault Refusal :=
  forTeam s fun f t =>
    let b := s.blockOf t
    let ta := tileOf t a
    let td := tileOf t d
    if !(relTile ta ta.rows ta.cols b.rows && relTile td ta.cols ta.rows b.rows) then trapWord s f t .badTile
    else issueMatrix s f t h (matrixOp t f 0x99 (.rtrans (tget t.t d.toNat 0) (tget t.t a.toNat 0))) [ta.interval b.base]
      (some (td.interval b.base)) []

/-- The granules of a side list's full capacity (R272). -/
def sideInterval (b : Block) (q : Word) (r c : Nat) : Interval :=
  let l := natBits q.toNat 53 32
  granules b.base (l, l + 2 * r * c)

/-- The conditions of R272 on kQ. -/
def sideOk (b : Block) (q : Word) (r c : Nat) : Bool :=
  let l := natBits q.toNat 53 32
  natBits q.toNat 63 54 == 0 && l % 2 == 0 && decide (l + 2 * r * c ≤ 256 * b.rows)

/-- The meaning of qcvt (R272, R273): kN is a variable-latency result. -/
def execQcvt (h : Hdr) (k : BitVec 6) (a mask dst : BitVec 4) (q : BitVec 6) (s : State) : Host.Outcome State Fault Refusal :=
  forTeam s fun f t =>
    let b := s.blockOf t
    let ta := tileOf t a
    let tm := tileOf t mask
    let td := tileOf t dst
    let qw := readK t q.toNat
    if !(ta.ok b.rows && ta.fmt == .f32 && ta.cols % 64 == 0 && td.ok b.rows && td.isBp && td.rows == ta.rows &&
        td.cols == ta.cols && relTile tm ta.rows ta.cols b.rows && sideOk b qw ta.rows ta.cols) then trapWord s f t .badTile
    else
      let w := ((td.interval b.base).join (tm.interval b.base)).join (sideInterval b qw ta.rows ta.cols)
      let p : Pend := { issue := t.issues, lat := .variable, writes := [⟨.k k.toNat, []⟩], lanes := [0], accs := 1 }
      issueMatrix s f t h
        (matrixOp t f 0x9A (.qcvt (tget t.t dst.toNat 0) (tget t.t mask.toNat 0) (tget t.t a.toNat 0) qw))
        [ta.interval b.base] (some w) [p]

/-- The meaning of qexp (R274). -/
def execQexp (h : Hdr) (ctr : Bool) (planes : BitVec 4) (d a m : BitVec 4) (q : BitVec 6) (s : State) :
    Host.Outcome State Fault Refusal :=
  forTeam s fun f t =>
    let b := s.blockOf t
    let ta := tileOf t a
    let tm := tileOf t m
    let td := tileOf t d
    let qw := readK t q.toNat
    if !(ta.ok b.rows && ta.isBp && relTile tm ta.rows ta.cols b.rows && td.ok b.rows && td.fmt == .f32 && td.rows == ta.rows &&
        td.cols == ta.cols && sideOk b qw ta.rows ta.cols) then trapWord s f t .badTile
    else
      issueMatrix s f t h
        (matrixOp t f 0x9B (.qexp ctr planes.toNat (tget t.t d.toNat 0) (tget t.t a.toNat 0) (tget t.t m.toNat 0) qw))
        [ta.interval b.base, (tm.interval b.base).join (sideInterval b qw ta.rows ta.cols)] (some (td.interval b.base)) []

/-- The meaning of cpym (R244): a load of tile dt whose follow-on mma takes the next entry and the next place in
accumulator order. -/
def execCpym (h : Hdr) (space : Space) (hint : Hint) (tok : BitVec 6) (grp : BitVec 4) (cmd : BitVec 6) (off : BitVec 16)
    (s : State) : Host.Outcome State Fault Refusal :=
  forTeam s fun f t =>
    let b := s.blockOf t
    let c := (readK t cmd.toNat).toNat
    let reg := fun hi lo => BitVec.ofNat 4 (natBits c hi lo)
    let dt := reg 19 16
    let ma := reg 23 20
    let mb := reg 27 24
    let acc := natBits c 29 28
    let tb := natBit c 0
    let td := tileOf t dt
    let x := tileOf t ma
    let y := tileOf t mb
    let slot := slotOf t grp
    if natBits c 63 30 != 0 || natBits c 15 1 != 0 then trapWord s f t .illegalEncoding
    else if !td.ok b.rows || !mmaTiles x y tb b.rows then trapWord s f t .badTile
    else if !accOk s f t acc false then trapWord s f t .badAccumulator
    else if slot.state == .pending then s
    else if !entriesFree s (clusterOf f) t.partition 2 then waitEntries s f t 2
    else
      let k := groupWord t grp
      let o := signedOf 16 off.toNat
      let l := slotLayout slot (k 0) (k 1) (k 2) (k 3) o
      let preset := presetOf s slot l td true (space == .cn) (s.kernelOf t).cnSize (boxCells l td false)
      let kind := OpKind.tensor false (tget t.t dt.toNat 0) slot (k 0) (k 1) (k 2) (k 3) o (space == .cn)
      let e : SbEntry := { partition := t.partition, reads := [], write := some (td.interval b.base) }
      let mma := matrixOp t f 0x85 (.mma tb acc (tget t.t ma.toNat 0) (tget t.t mb.toNat 0))
      let follow := fun (s1 : State) => pushOp s1 (clusterOf f) { mma with phase := .held, after := some s.seq }
        (some { partition := t.partition, reads := [x.interval b.base, y.interval b.base], write := none })
      issueTensor s f t h (mkOp t f 0x85 kind space hint (some tok.toNat) preset) slot (some e) tok follow

end Sys2Proof.Machine
end

