-- ==== Sys2Proof/Machine/Sync.lean ====
section
/-! DEFINITION. Barriers of blocks and grids, the hoist order of their releases, race watch modes and fences (R277 to
R288, R328 to R331, R343 to R347, R418). -/

namespace Sys2Proof.Machine

/-- A set of one team. -/
def teamBit (i : Nat) : TeamSet := BitVec.ofNat 48 (2 ^ i)

/-- The set of every team of a block. -/
def allTeams (n : Nat) : TeamSet := BitVec.ofNat 48 (2 ^ n - 1)

-- ===== race-watch records =====

/-- A record without some teams' entries (R285). -/
def RaceRec.without (r : RaceRec) (set : TeamSet) : RaceRec :=
  { writer := match r.writer with
      | some w => if set.getLsbD w then none else some w
      | none => none
    readers := r.readers &&& ~~~set }

/-- A block without some teams' race-watch entries (R285). -/
def Block.forget (b : Block) (set : TeamSet) : Block :=
  let kept : Tab RaceRec := b.races.map fun e => (e.1, e.2.without set)
  { b with races := kept.filter fun e => e.2.writer.isSome || e.2.readers != 0 }

/-- The meaning of rwatch.off (R288). -/
def execRwatchOff (h : Hdr) (s : State) : Host.Outcome State Fault Refusal :=
  forTeam s fun f t => finishWord (s.modBlock t.block fun b => { b with races := [], raceOn := false }) f { sw := h.sw }

/-- The meaning of rwatch.on (R288). -/
def execRwatchOn (h : Hdr) (s : State) : Host.Outcome State Fault Refusal :=
  forTeam s fun f t => finishWord (s.modBlock t.block fun b => { b with raceOn := true }) f { sw := h.sw }

/-- The meaning of rwatch.clr (R288). -/
def execRwatchClr (h : Hdr) (s : State) : Host.Outcome State Fault Refusal :=
  forTeam s fun f t => finishWord (s.modBlock t.block fun b => { b with races := [] }) f { sw := h.sw }

-- ===== halting for a pre-emption =====

/-- A team whose partition is being pre-empted halts at a barrier word (R401). -/
def haltHere (s : State) (f word : Nat) : State :=
  s.modTeam f fun t => if (s.partition t.partition).halting then { t with halted := true, restartAt := word } else t

/-- Whether a team waits at a barrier. -/
def Team.atBarrier (t : Team) : Bool :=
  match t.wait with
  | .bar _ | .gbar => true
  | _ => false

/-- Step 2 of a pre-emption begins, once the last wave of a release, of a grid or of a pod barrier, has left: the teams that
wait at a barrier halt (R401, R420, R447). -/
def beginHalting (s : State) (n : Nat) : State :=
  let p := s.partition n
  let leaving := (s.launches.any fun l => l.partition == n && l.release.isSome) ||
    s.colls.any fun e => e.2.partition == n && e.2.committed
  if !p.preempting || p.halting || leaving then s
  else
    let s1 := s.setPartition n { p with halting := true }
    { s1 with teams := s1.teams.map fun e =>
        if e.2.partition == n && e.2.atBarrier then (e.1, { e.2 with halted := true, restartAt := e.2.pc - 8 }) else e }

-- ===== block barriers =====

/-- A barrier of a block. -/
def Block.bar (b : Block) (id : Nat) : Barrier := tget b.bars id {}

/-- Whether a barrier's open generation is complete (R281). -/
def Block.barDone (b : Block) (id : Nat) : Bool :=
  let x := b.bar id
  x.arrived != 0 && (x.mask &&& ~~~(x.arrived ||| b.ended)) == 0

/-- A team that waits on a generation that is over leaves its wait; its segment ends (R280, R281). -/
def Team.leaveBar (t : Team) (id gen : Nat) : Team :=
  match t.wait with
  | .bar i =>
    if i = id && !t.halted && (tfind t.barPend id).elim false (fun p => decide (p < gen)) then
      { t with wait := .marker, barPend := tdel t.barPend id }
    else t
  | _ => t

/-- A complete generation ends: entries go, the generation rises, and its waiters become ready (R281). -/
def completeBar (s : State) (b id : Nat) : State :=
  match tfind s.blocks b with
  | none => s
  | some x =>
    if !x.barDone id then s
    else
      let old := x.bar id
      let part := old.arrived ||| (old.mask &&& x.ended)
      let gen := old.gen + 1
      let s1 := s.setBlock b { x.forget part with bars := tset x.bars id { gen, arrived := 0, mask := 0 } {} }
      x.teams.foldl (fun s f => s.modTeam f fun t => t.leaveBar id gen) s1

/-- Every barrier of a block whose generation a team's end completes (R281). -/
def completeBars (s : State) (b : Nat) : State := (List.range 16).foldl (fun s id => completeBar s b id) s

/-- The participants that a bar word names (R279). -/
def barMask (b : Block) (t : Team) (part : Option (BitVec 6)) : TeamSet :=
  match part with
  | none => allTeams b.nteams
  | some k => (readK t k.toNat).setWidth 48

/-- Whether a team may not arrive at a barrier with these participants (R279). -/
def barBad (b : Block) (t : Team) (id : Nat) (m : TeamSet) : Bool :=
  let x := b.bar id
  m == 0 || (m &&& ~~~allTeams b.nteams) != 0 || !m.getLsbD t.index || x.arrived.getLsbD t.index ||
  (x.arrived != 0 && x.mask != m)

/-- A team's arrival at a barrier, which completes the generation where it is the last (R279, R281). -/
def arriveBar (s : State) (f : Nat) (t : Team) (id : Nat) (m : TeamSet) : State :=
  let b := s.blockOf t
  let x := b.bar id
  let y : Barrier := { gen := x.gen, arrived := x.arrived ||| teamBit t.index, mask := m }
  s.setBlock t.block { b with bars := tset b.bars id y {} } |>.modTeam f fun t => { t with barPend := tput t.barPend id x.gen }

/-- A bar or gbar in handler mode, or against the rules of its barrier (R279, R380). -/
def barTrap (s : State) (f : Nat) (t : Team) : State := trapWord s f t .badBarrier

/-- A bar word that arrives: it waits, unissued, for the .block release of its arrival (R279, R282). -/
def arriveWord (h : Hdr) (id : BitVec 4) (part : Option (BitVec 6)) (waits : Bool) (s : State) (f : Nat) (t : Team) : State :=
  let b := s.blockOf t
  let m := barMask b t part
  if t.handler.isSome || barBad b t id.toNat m then barTrap s f t
  else if !releaseReady s f t .block then s
  else
    let s1 := arriveBar s f t id.toNat m
    let s2 := finishWord s1 f { sw := h.sw }
    let s3 := if waits then haltHere (s2.modTeam f fun t => { t with wait := .bar id.toNat }) f t.pc else s2
    completeBar s3 t.block id.toNat

/-- The meaning of bar.meet (R279, R280). -/
def execBarMeet (h : Hdr) (id : BitVec 4) (part : Option (BitVec 6)) (s : State) : Host.Outcome State Fault Refusal :=
  forTeam s (arriveWord h id part true s)

/-- The meaning of bar.post (R279, R280). -/
def execBarPost (h : Hdr) (id : BitVec 4) (part : Option (BitVec 6)) (s : State) : Host.Outcome State Fault Refusal :=
  forTeam s (arriveWord h id part false s)

/-- The meaning of bar.await (R279, R280). -/
def execBarAwait (h : Hdr) (id : BitVec 4) (s : State) : Host.Outcome State Fault Refusal :=
  forTeam s fun f t =>
    match t.handler.isSome, tfind t.barPend id.toNat with
    | true, _ | _, none => barTrap s f t
    | false, some p =>
      let s1 := haltHere ((finishWord s f { sw := h.sw }).modTeam f fun t => { t with wait := .bar id.toNat }) f t.pc
      if ((s.blockOf t).bar id.toNat).gen > p then s1.modTeam f fun t => t.leaveBar id.toNat (p + 1) else s1

-- ===== grid barriers and the hoist order =====

/-- Cluster cycles that one notch of a cluster, 10/6 A, takes under the slew limit (R416, R417). -/
def Power.notchCycles (p : Power) : Nat := (8000 + 3 * p.slew - 1) / (3 * p.slew)

/-- A rise that nothing withholds, worth some cycles of the slew limit, leaves that much less of it to the steps that follow (R416).
DEDUCED: log 83. -/
def State.charge (s : State) (cycles : Nat) : State :=
  { s with power := { s.power with lastStep := max s.cycle (s.power.lastStep + s.power.notchCycles) + cycles - s.power.notchCycles } }

/-- A wave leaves, and its interval of the slew limit is used (R416, R418). -/
def State.waveUses (s : State) (interval : Nat) : State :=
  { s with power := { s.power with lastStep := max s.power.lastStep (s.cycle + interval - s.power.notchCycles) } }

/-- Whether waves of a grid barrier or a pod barrier have still to leave: they have the slew limit to themselves (R416, R418). -/
def wavesLeaving (s : State) : Bool := (s.launches.any fun l => l.release.isSome) || s.colls.any fun e => e.2.leaveAt.isSome

/-- The wave interval of a release (R418). -/
def waveInterval (p : Power) (size : Nat) : Nat := max p.tw ((192000 * size + p.slew - 1) / p.slew)

/-- The time at which the teams of a cluster leave a completed generation (R418). -/
def Release.time (r : Release) (unit : Nat) : Nat :=
  r.start + 16 + unit / 64 * r.td + (unit % 64 + r.rot) % 64 / r.size * r.tw

/-- Whether every team of a grid has arrived or ended (R344). -/
def gridArrived (l : Launch) : Bool :=
  let n := l.blocks * l.kernel.teams
  decide ((l.arrived ++ l.endedTeams).eraseDups.length ≥ n) && !l.arrived.isEmpty

/-- The clusters that hold teams of a launch waiting at its grid barrier. -/
def waitingClusters (s : State) (partition launch : Nat) : List Nat :=
  ((s.teams.filter fun e => e.2.partition == partition && e.2.launch == launch && e.2.wait == .gbar).map fun e =>
    clusterOf e.1).eraseDups

/-- A complete generation of a grid barrier ends (R344): it rises, race-watch entries go, and its waiters, if there are any,
will leave in the waves of the hoist order (R345, R418). -/
def completeGrid (s : State) (partition launch : Nat) : State :=
  match s.launch? partition launch with
  | none => s
  | some l =>
    if !gridArrived l then s
    else
      let size := 2 ^ s.power.wsz
      let rot := tget s.power.rot partition 0
      let r : Release := { start := s.cycle, rot, td := s.power.td, tw := waveInterval s.power size, size,
                           waiting := waitingClusters s partition launch }
      let s1 := s.modLaunch partition launch fun l =>
        { l with gen := l.gen + 1, arrived := [], release := if r.waiting.isEmpty then none else some r }
      let forget := fun (e : Nat × Block) =>
        if e.2.partition == partition && e.2.launch == launch then (e.1, e.2.forget (allTeams e.2.nteams)) else e
      { s1 with blocks := s1.blocks.map forget
                power := { s1.power with rot := tset s1.power.rot partition ((rot + 1) % 64) 0 } }

/-- A team of a faulted grid ends at gbar as though by exit in all its lanes (R347, R151). -/
def gbarExit (h : Hdr) (s : State) (f : Nat) (t : Team) : State :=
  if !t.parked.isEmpty then trapWord s f t .parked
  else (finishWord s f { sw := h.sw }).modTeam f fun t' => t'.endAll t.pc

/-- A gbar word that arrives: it waits, unissued, for its .grid release (R344). -/
def gbarArrive (h : Hdr) (waits : Bool) (s : State) (f : Nat) (t : Team) : State :=
  let l := s.launchOf t
  let me := ((s.blockOf t).index, t.index)
  if !l.kernel.gridbar then trapWord s f t .illegalEncoding
  else if t.handler.isSome then barTrap s f t
  else if l.faulted then gbarExit h s f t
  else if l.arrived.contains me then barTrap s f t
  else if !releaseReady s f t .grid || !releaseReady s f t .block then s
  else
    let s1 := s.modLaunch t.partition t.launch fun l => { l with arrived := l.arrived ++ [me] }
    let s2 := (finishWord s1 f { sw := h.sw }).modTeam f fun t =>
      { t with gbarPend := some l.gen, wait := if waits then .gbar else t.wait }
    completeGrid (if waits then haltHere s2 f t.pc else s2) t.partition t.launch

/-- The meaning of gbar.meet (R344). -/
def execGbarMeet (h : Hdr) (s : State) : Host.Outcome State Fault Refusal := forTeam s (gbarArrive h true s)

/-- The meaning of gbar.post (R344). -/
def execGbarPost (h : Hdr) (s : State) : Host.Outcome State Fault Refusal := forTeam s (gbarArrive h false s)

/-- A team leaves a completed generation: its .grid acquire is made and its segment ends (R329, R345). One that is halted
stays until it resumes (R401). -/
def leaveGrid (s : State) (f : Nat) : State :=
  match tfind s.teams f with
  | none => s
  | some t =>
    if t.halted then s
    else (acquireInvalidate s (clusterOf f) t.partition).setTeam f { t with wait := .marker, gbarPend := none }

/-- The meaning of gbar.await (R344, R347). -/
def execGbarAwait (h : Hdr) (s : State) : Host.Outcome State Fault Refusal :=
  forTeam s fun f t =>
    let l := s.launchOf t
    if !l.kernel.gridbar then trapWord s f t .illegalEncoding
    else
      match t.handler.isSome, t.gbarPend with
      | true, _ | _, none => barTrap s f t
      | false, some p =>
        let s1 := haltHere ((finishWord s f { sw := h.sw }).modTeam f fun t => { t with wait := .gbar }) f t.pc
        if l.gen > p then leaveGrid s1 f
        else if l.faulted then gbarExit h s f t
        else s1

/-- The meaning of HOIST_WAVE_RELEASE: the teams that wait on a cluster leave a completed generation at the cluster's
time (R345, R418), and their wave's interval of the slew limit is used (R416). `launch` is the launch's place in State.launches. -/
def execHoistWaveRelease (launch unit : Nat) (s : State) : Host.Outcome State Fault Refusal :=
  .next (match s.launches[launch]? with
  | none => s
  | some l =>
    match l.release with
    | none => s
    | some r =>
      if !r.waiting.contains unit || s.cycle < r.time unit then s
      else
        let left := r.waiting.filter (· != unit)
        let s1 := s.modLaunch l.partition l.id fun l => { l with release := if left.isEmpty then none else some { r with waiting := left } }
        let mine := fun (e : Nat × Team) => clusterOf e.1 == unit && e.2.partition == l.partition && e.2.launch == l.id &&
          e.2.wait == .gbar && e.2.gbarPend.elim false fun p => decide (p < l.gen)
        beginHalting ((s1.teams.filter mine).foldl (fun s e => leaveGrid s e.1) (s1.waveUses r.tw)) l.partition)

-- ===== fences =====

/-- Whether a fence has a release part. -/
def fenceReleases : FenceOrder → Bool
  | .acq => false
  | _ => true

/-- Whether a fence has an acquire part. -/
def fenceAcquires : FenceOrder → Bool
  | .rel => false
  | _ => true

/-- The meaning of fence (R328, R329, R331, R343). It waits, unissued, for every outstanding result of the team and for
its release. -/
def execFence (_ : Hdr) (order : FenceOrder) (scope : Scope) (s : State) : Host.Outcome State Fault Refusal :=
  forTeam s fun f t =>
    let rel := fenceReleases order
    if rel && releaseDown t scope then downTrap s f t
    else if t.outstanding || (rel && !releaseReady s f t scope) then s
    else
      let s1 := if rel && decide (scopeRank scope ≥ 1) then s.modBlock t.block fun b => b.forget (teamBit t.index) else s
      let s2 := if fenceAcquires order && decide (scopeRank scope ≥ 2) then acquireInvalidate s1 (clusterOf f) t.partition else s1
      finishWord s2 f { sw := true }

-- ===== segments =====

/-- The meaning of SEGMENT_RESUME: a team at a switch marker, or on its way into its handler, goes on once every
outstanding result but tokens is written (R33, R141, R146). -/
def execSegmentResume (team : Nat) (s : State) : Host.Outcome State Fault Refusal :=
  .next (match tfind s.teams team with
  | none => s
  | some t =>
    if t.outstanding || t.halted then s
    else
      match t.wait with
      | .marker => (commitFixed s team).modTeam team fun t => { t with wait := .ready }
      | .trap i => enterHandler (s.setTeam team { t with wait := .ready }) team i
      | _ => s)

end Sys2Proof.Machine
end

