-- ==== Sys2Proof/Machine/Die.lean ====
section
/-! DEFINITION. From queue to issue slot: launch records and enqueues (R348 to R362, R395), the placement of blocks
(R363 to R368), the end of teams, blocks and grids (R174, R368, R369), and launch, lcount and qwork (R349 to R354). -/

namespace Sys2Proof.Machine

-- ===== records =====

/-- Bytes hi to lo of a record. -/
def recBytes (x hi lo : Nat) : Nat := natBits x (8 * hi + 7) (8 * lo)

/-- The kernel that a descriptor's bytes give (R360). -/
def Kernel.ofNat (d : Nat) : Kernel :=
  { team := recBytes d 5 4, teams := recBytes d 6 6, blocks := recBytes d 11 8, regs := recBytes d 3 3,
    scratch := recBytes d 15 12, limit := recBytes d 2 2 % 16, gridbar := natBit d 8, acc := natBit d 9,
    text := recBytes d 23 16, textSize := recBytes d 27 24, cnAddr := recBytes d 39 32, cnSize := recBytes d 31 28,
    tdir := recBytes d 47 40, ntab := recBytes d 49 48, livemap := recBytes d 63 56 }

/-- Whether a descriptor keeps every limit of R360. -/
def descOk (d : Nat) : Bool :=
  let k := Kernel.ofNat d
  let among := fun (x lo hi : Nat) => decide (lo ≤ x) && decide (x ≤ hi)
  recBytes d 0 0 == 1 && decide (recBytes d 1 1 < 4) && decide (recBytes d 2 2 < 16) && recBytes d 7 7 == 0 &&
  recBytes d 55 50 == 0 && among k.regs 1 128 && among k.team 32 1024 && k.team % 32 == 0 && among k.teams 1 48 &&
  among k.blocks 1 (2 ^ 24) && k.scratch % 256 == 0 && decide (k.scratch ≤ 3145728) && k.text % 8 == 0 &&
  decide (k.textSize ≠ 0) && k.textSize % 8 == 0 && decide (k.cnSize ≤ 65536) && k.tdir % 16 == 0 && decide (k.ntab ≤ 256) &&
  decide (k.team / 32 * k.regs ≤ 1024)

/-- Whether a launch record keeps the rules of R348 and R350. -/
def recordOk (r : Nat) : Bool :=
  recBytes r 0 0 == 1 && recBytes r 7 1 == 0 && decide (recBytes r 23 20 < 4) && decide (recBytes r 24 24 ≤ 64) &&
  recBytes r 31 25 == 0 && recBytes r 63 48 == 0 && recBytes r 39 32 % 8 == 0 && recBytes r 47 40 % 4 == 0

/-- A record of n bytes, aligned to n, read by the queue hardware (R349). -/
def recordRead (s : State) (n va size : Nat) : State × Option Nat :=
  if va % size ≠ 0 then (s, none) else vaRead s n va size

/-- Some 8-byte words from an address up, each read by itself; none where one cannot be read. -/
def wordsRead (s : State) (n va : Nat) : Nat → State × Option (List Word)
  | 0 => (s, some [])
  | c + 1 =>
    match vaRead s n va 8 with
    | (s1, none) => (s1, none)
    | (s1, some x) =>
      match wordsRead s1 n (va + 8) c with
      | (s2, none) => (s2, none)
      | (s2, some r) => (s2, some (BitVec.ofNat 64 x :: r))

/-- What the queue hardware has read for an enqueue. -/
structure Read where
  kernel : Kernel
  desc : Nat
  blocks : Nat
  kvals : List Word
  done : Nat
  dep : Bool
  notify : Bool

/-- The record, the k values and the descriptor of an enqueue; none where one cannot be read or breaks its rules, or
while no launch record version is accepted (R349, R350, R396). -/
def launchRead (s : State) (n va : Nat) : State × Option Read :=
  match recordRead s n va 64 with
  | (s1, none) => (s1, none)
  | (s1, some r) =>
    if !recordOk r || s1.hostLink.ifneg.toNat % 256 = 0 then (s1, none)
    else
      match wordsRead s1 n (recBytes r 39 32) (recBytes r 24 24) with
      | (s2, none) => (s2, none)
      | (s2, some ks) =>
        match recordRead s2 n (recBytes r 15 8) 64 with
        | (s3, none) => (s3, none)
        | (s3, some d) =>
          if !descOk d then (s3, none)
          else
            let k := Kernel.ofNat d
            (s3, some { kernel := k, desc := recBytes r 15 8, blocks := if recBytes r 19 16 = 0 then k.blocks else recBytes r 19 16
                        kvals := ks, done := recBytes r 47 40, dep := natBit r 160, notify := natBit r 161 })

-- ===== whether a cluster holds a block =====

/-- A place for a block: its window base, and the frame index of each team's slot, in team order (R366, R367). -/
structure Plan where
  cluster : Nat
  base : Nat
  frames : List Nat

/-- The register rows that a team of a kernel reserves (R162). -/
def Kernel.rows (k : Kernel) : Nat := k.team / 32 * k.regs

/-- The rows reserved on a core by a partition's teams. -/
def rowsReserved (s : State) (n core : Nat) : Nat :=
  ((s.teams.filter fun e => coreOf e.1 == core && e.2.partition == n).map fun e => (s.kernelOf e.2).rows).sum

/-- A free slot of a core that can take one more team, the lowest (R366); `planned` are frames that the block's earlier
teams have taken. DESIGN CHOICE: which free slot (log 39). -/
def slotFor (s : State) (n : Nat) (q : Quota) (k : Kernel) (planned : List Nat) (core : Nat) : Option Nat :=
  let rows := rowsReserved s n core + (planned.filter fun f => coreOf f == core).length * k.rows + k.rows
  if (s.core core).withdrawn || decide (rows > 32 * q.rowcnt) then none
  else ((List.range q.slotcnt).map fun i => 8 * core + q.slotbase + i).find? fun f =>
    (tfind s.teams f).isNone && !planned.contains f

/-- The frames of a block's teams on a cluster: each team goes to the first core after the last one (R367). -/
def framesFor (s : State) (n : Nat) (q : Quota) (k : Kernel) (cl : Nat) : Nat → Nat → List Nat → Option (List Nat)
  | 0, _, planned => some planned
  | c + 1, last, planned =>
    let order := (List.range 6).map fun i => 6 * cl + (last + 1 + i) % 6
    match order.findSome? fun core => slotFor s n q k planned core with
    | none => none
    | some f => framesFor s n q k cl c (coreOf f % 6) (planned ++ [f])

/-- Whether w rows from a base are free and not withdrawn in a cluster. -/
def windowFree (s : State) (cl b w : Nat) : Bool :=
  !(s.blocks.any fun e => e.2.cluster == cl && spansMeet b w e.2.base e.2.rows && e.2.rows != 0) &&
  !((s.cluster cl).rowsWithdrawn.any fun r => decide (b ≤ r) && decide (r < b + w))

/-- The lowest base of w consecutive free rows in a range (R200, R367). -/
def windowBase (s : State) (cl lo n w : Nat) : Option Nat :=
  let starts := lo :: ((s.blocks.filter fun e => e.2.cluster == cl).map fun e => e.2.base + e.2.rows) ++
    (s.cluster cl).rowsWithdrawn.map (· + 1)
  let ok := starts.filter fun b => decide (lo ≤ b) && decide (b + w ≤ lo + n) && windowFree s cl b w
  match ok with
  | [] => none
  | b :: r => some (r.foldl min b)

/-- The last-core pointer of a partition on a cluster (R367). -/
def lastCore (s : State) (n cl : Nat) : Nat := tget (s.cluster cl).lastCore n 5

/-- How a cluster would hold a block, if it can (R366). -/
def clusterPlan (s : State) (n : Nat) (q : Quota) (k : Kernel) (cl : Nat) : Option Plan :=
  let accFree := !k.acc || (q.acc && !(s.blocks.any fun e => e.2.cluster == cl && e.2.holdsAcc))
  if !accFree then none
  else
    match windowBase s cl q.spbase q.spcnt (k.scratch / 256) with
    | none => none
    | some base => (framesFor s n q k cl k.teams (lastCore s n cl) []).map fun fs => ⟨cl, base, fs⟩

/-- The clusters of a partition, in the order in which block b of launch id scans them (R367). -/
def scanOrder (q : Quota) (id b : Nat) : List Nat :=
  ((List.range 12).filterMap fun i =>
    let d := (id + b + i) % 12
    if q.dies.getLsbD d then some d else none).flatMap fun d => (List.range 64).map fun j => 64 * d + (b / 12 + j) % 64

/-- Where the distributor would place a block (R366, R367). -/
def planFor (s : State) (n : Nat) (k : Kernel) (id b : Nat) : Option Plan :=
  let q := (s.partition n).placing
  (scanOrder q id b).findSome? fun cl => clusterPlan s n q k cl

-- ===== placing a block =====

/-- The state of a team at its start (R51, R134, R192). -/
def startTeam (l : Launch) (n b i : Nat) : Team :=
  { partition := n, launch := l.id, block := b, index := i, nlanes := l.kernel.team, pc := l.kernel.text
    k := ((List.range l.kvals.length).zip l.kvals).foldl (fun m e => tset m e.1 e.2 0) []
    mask := allLanes l.kernel.team }

/-- The .grid acquire of a launch's placement (R333, R370): the partition's lines go, but for sealed ones of another package,
which no acquire invalidates (R441). -/
def placementAcquire (s : State) (n : Nat) : State := l1DropAll s fun x => x.partition == n && !x.kept

/-- A trace of a partition tells of a block that enters a cluster (R426). -/
def tracePlaced (s : State) (n b : Nat) : State :=
  if s.bexile.traced.contains n then { s with notices := s.notices ++ [.traceBlock n b true] } else s

/-- A trace of a partition tells of a launch that enters a queue or leaves it (R426). -/
def traceQueued (s : State) (n q id : Nat) (enters : Bool) : State :=
  if s.bexile.traced.contains n then { s with notices := s.notices ++ [.traceQueue n q id enters] } else s

/-- A block placed (R368): its window, its teams in their slots, all ready at once. A cluster that was idle is newly
active, and its first sixth is a rise that nothing withholds (R416). -/
def placeBlock (s : State) (l : Launch) (idx : Nat) (p : Plan) : State :=
  let n := l.partition
  let b := s.uid
  let blk : Block :=
    { partition := n, launch := l.id, index := idx, cluster := p.cluster, base := p.base, rows := l.kernel.scratch / 256,
      holdsAcc := l.kernel.acc, nteams := l.kernel.teams, teams := p.frames, attempt := tget l.attempts idx 0,
      limit := l.kernel.limit }
  let c := s.cluster p.cluster
  let last := (p.frames.getLast?).elim 5 fun f => coreOf f % 6
  let idle := !(s.blocks.any fun e => e.2.cluster == p.cluster)
  let c' := { c with lastCore := tset c.lastCore n last 5, ctlNotch := if idle then 5 else c.ctlNotch }
  let s0 := tracePlaced (if idle then s.charge s.power.notchCycles else s) n b
  let s1 := { (s0.setBlock b blk).setCluster p.cluster c' with uid := b + 1 }
  ((List.range p.frames.length).zip p.frames).foldl (fun s e => s.setTeam e.2 (startTeam l n b e.1)) s1

-- ===== the decision =====

/-- Whether a launch may still place blocks. -/
def Launch.open (l : Launch) : Bool := !l.faulted && !l.barred && !l.skipped

/-- The launches that hold slots of a queue, in enqueue order. -/
def queueLaunches (s : State) (q : Nat) : List Launch := s.launches.filter fun l => l.queue == q

/-- The candidate of a queue: its launch, the block, and whether it is a relaunch (R363, R359). -/
def candidate (s : State) (q : Nat) : Option (Launch × Nat × Bool) :=
  let ls := queueLaunches s q
  match ls.findSome? fun l => if l.open then l.awaiting.head?.map fun b => (l, b, true) else none with
  | some x => some x
  | none =>
    match ls.find? fun l => decide (l.nextBlock < l.blocks) with
    | some l => if l.open && !(l.dep && l.ahead.isSome) then some (l, l.nextBlock, false) else none
    | none => none

/-- Whether every unplaced block of a .gridbar launch can be held at once (R363). -/
def allFit (s : State) (l : Launch) : Bool :=
  ((List.range (l.blocks - l.nextBlock)).foldl (fun (o : Option State) i =>
    o.bind fun s => (planFor s l.partition l.kernel l.id (l.nextBlock + i)).map fun p => placeBlock s l (l.nextBlock + i) p)
    (some s)).isSome

/-- The plan of a queue's candidate, none where it fits nowhere now; a .gridbar launch fits only whole (R363). -/
def candidatePlan (s : State) (c : Launch × Nat × Bool) : Option Plan :=
  if c.1.kernel.gridbar && c.1.nextBlock == 0 && !allFit s c.1 then none
  else planFor s c.1.partition c.1.kernel c.1.id c.2.1

/-- Whether a partition's distributor places blocks (R401, R406, R410). -/
def Partition.places (p : Partition) : Bool := !p.drained && !p.resetting && !p.preempting && !p.preempted

/-- The .gridbar launch of a partition that is placed in part, with its queue and next block: no other queue, and no other
block of its own, wins before it is whole (R363). -/
def placedInPart (s : State) (n : Nat) : Option (Nat × Launch × Nat × Bool) :=
  (List.range 64).findSome? fun q =>
    let x := s.queue q
    if x.en && x.pn == n then
      ((queueLaunches s q).find? fun l => l.open && l.kernel.gridbar && l.nextBlock != 0 && decide (l.nextBlock < l.blocks)).map
        fun l => (q, l, l.nextBlock, false)
    else none

/-- The queues of a partition that are enabled and have a candidate. -/
def servedQueues (s : State) (n : Nat) : List (Nat × Launch × Nat × Bool) :=
  (List.range 64).filterMap fun q =>
    let x := s.queue q
    if x.en && x.pn == n then (candidate s q).map fun c => (q, c) else none

/-- The lowest priority that a partition may serve, held up by a queue that has waited too long until that queue places
(R365). -/
def heldFloor (s : State) (n : Nat) : Nat :=
  ((s.queues.filter fun e => e.2.en && e.2.pn == n && e.2.heldBack).map fun e => e.2.pri).foldl max 0

/-- The round-robin winner among some queues of one priority (R364). -/
def roundRobin (ptr : Nat) (qs : List Nat) : Option Nat :=
  match qs.filter fun q => decide (q > ptr) with
  | q :: r => some (r.foldl min q)
  | [] =>
    match qs with
    | q :: r => some (r.foldl min q)
    | [] => none

/-- What a decision of a partition would do: the queue, its candidate and the plan (R363 to R365); none in retention (R422). -/
def decision (s : State) (n : Nat) : Option (Nat × (Launch × Nat × Bool) × Plan) :=
  if !(s.partition n).places || s.power.cur == 3 then none
  else
    let served := servedQueues s n
    let may := match placedInPart s n with
      | some e => [e]
      | none => served.filter fun e => decide ((s.queue e.1).pri ≥ heldFloor s n)
    let ready : List (Nat × (Launch × Nat × Bool) × Plan) :=
      may.filterMap fun e => (candidatePlan s e.2).map fun p => (e.1, e.2, p)
    let top := (ready.map fun e => (s.queue e.1).pri).foldl max 0
    let best := ready.filter fun e => (s.queue e.1).pri == top
    (roundRobin (tget (s.partition n).rr top 63) (best.map (·.1))).bind fun q => best.find? fun e => e.1 == q

/-- The meaning of PLACEMENT_DECISION (R363 to R368, R370). -/
def execPlacementDecision (partition : Nat) (s : State) : Host.Outcome State Fault Refusal :=
  .next (match decision s partition with
  | none => s
  | some (q, (l, idx, again), plan) =>
    let s1 := if again || l.nextBlock != 0 then s else placementAcquire s partition
    let s2 := placeBlock s1 l idx plan
    let s3 := s2.modLaunch partition l.id fun l =>
      if again then { l with awaiting := l.awaiting.drop 1 } else { l with nextBlock := l.nextBlock + 1 }
    let x := s3.queue q
    let s4 := s3.setQueue q { x with waitSince := none, heldBack := false }
    let p := s4.partition partition
    s4.setPartition partition { p with rr := tset p.rr x.pri q 63 })

/-- Queues whose candidate fits on no cluster are noted as waiting from this cycle on (R365). -/
def noteWaiting (s : State) : State :=
  let one := fun (s : State) (q : Nat) =>
    let x := s.queue q
    let waits := match candidate s q with
      | some c => x.en && c.1.partition == x.pn && (planFor s c.1.partition c.1.kernel c.1.id c.2.1).isNone
      | none => false
    s.setQueue q { x with waitSince := if waits then some (x.waitSince.getD s.cycle) else none }
  (s.queues.map (·.1)).foldl one s

/-- The meaning of PRIORITY_WAIT_TIMEOUT (R365). -/
def execPriorityWaitTimeout (queue : Nat) (s : State) : Host.Outcome State Fault Refusal :=
  .next (
    let x := s.queue queue
    match x.waitSince with
    | some c => if s.cycle ≥ c + 8192 then s.setQueue queue { x with heldBack := true } else s
    | none => s)

-- ===== enqueues =====

/-- The number of launches that hold slots of a queue (R357). -/
def occupied (s : State) (q : Nat) : Nat := (queueLaunches s q).length

/-- The windows of w rows that fit a range of a cluster, from its withdrawn rows' gaps. -/
def windowCount (withdrawn : List Nat) (lo n w : Nat) : Nat :=
  if w = 0 then lo + n + 1
  else
    let bad := withdrawn.filter fun r => decide (lo ≤ r) && decide (r < lo + n)
    let cuts := (lo :: bad.map (· + 1)).map fun a =>
      let b := (bad.filter fun r => decide (r ≥ a)).foldl min (lo + n)
      (b - a) / w
    cuts.sum

/-- How many of a kernel's blocks an empty cluster holds (R346). -/
def clusterCapacity (s : State) (q : Quota) (k : Kernel) (cl : Nat) : Nat :=
  let cores := (List.range 6).filter fun c => !(s.core (6 * cl + c)).withdrawn
  let perCore := min q.slotcnt (32 * q.rowcnt / k.rows)
  let byTeams := cores.length * perCore / k.teams
  let byWindow := if k.scratch = 0 then byTeams else windowCount (s.cluster cl).rowsWithdrawn q.spbase q.spcnt (k.scratch / 256)
  let byAcc := if k.acc then (if q.acc then 1 else 0) else byTeams
  min byTeams (min byWindow byAcc)

/-- The capacity of a partition for a .gridbar launch (R346). -/
def capacity (s : State) (n : Nat) (k : Kernel) : Nat :=
  let q := (s.partition n).quota
  ((List.range 768).map fun cl => if q.dies.getLsbD (cl / 64) then clusterCapacity s q k cl else 0).sum

/-- The completion word of a launch (R369). -/
def completionWord (id status : Nat) : Nat := id % 2 ^ 24 * 256 + status

/-- A completion word stored, where the record asks for one; a store that faults writes nothing. -/
def writeDone (s : State) (n done id status : Nat) : State :=
  if done = 0 then s else (vaWrite s n done (toBytes 0 (completionWord id status) 4)).1

/-- The 16 descriptors that a partition's distributor read last (R361). -/
def keepDesc (s : State) (n addr : Nat) (k : Kernel) : State :=
  let p := s.partition n
  s.setPartition n { p with descCopies := ((addr, k) :: p.descCopies.filter fun e => e.1 != addr).take 16 }

/-- The first three k values of a recovery launch (R405). -/
def overKvals (lead ks : List Word) : List Word := lead ++ ks.drop lead.length

/-- An enqueue of the record at va into queue q for partition n (R349, R350, R358, R359): the state and the token. What the record
names is read before any check (R349). -/
def enqueue (s : State) (n q va : Nat) (blocks : Option Nat) (lead : List Word) : State × Nat :=
  let x := s.queue q
  let own := s.partition x.pn
  let z := launchRead s n va
  let s2 := z.2.elim z.1 fun r => keepDesc z.1 n r.desc r.kernel
  if own.drained || own.resetting || !x.en || x.depth = 0 || decide (occupied s q ≥ x.depth) then (s2, 0x01)
  else
    match z.2 with
    | none => (s2, 0x02)
    | some r =>
      let count := blocks.getD r.blocks
      if x.pn ≠ n then (s2, 0x03)
      else if r.kernel.gridbar && decide (count > capacity s2 n r.kernel) then (writeDone s2 n r.done 0 0x04, 0x04)
      else
        let p := s2.partition n
        let id := (p.launchCtr + 1) % 2 ^ 32
        let l : Launch :=
          { id, partition := n, queue := q, kernel := r.kernel, blocks := count, kvals := overKvals lead r.kvals, done := r.done,
            dep := r.dep, notify := r.notify, ahead := if x.lastStatus.isNone then x.lastId else none
            skipped := r.dep && x.lastStatus.elim false fun st => st != 0 }
        let s3 := s2.setPartition n { p with launchCtr := id }
        let s4 := s3.setQueue q { x with lastId := some id, lastStatus := none }
        (traceQueued { s4 with launches := s4.launches ++ [l] } n q id true, id * 256)

-- ===== the end of a launch =====

/-- A launch completes with a status (R368, R359): its value-store entries go, its completion word is written, the host
is told, its slot is free, and a DEP successor may be served or is skipped. -/
def completeLaunch (s : State) (l : Launch) (status : Nat) : State :=
  let n := l.partition
  let s1 := killEverywhere s fun e => e.key.partition == n && e.key.launch == l.id
  let s2 := writeDone s1 n l.done l.id status
  let s3 := if l.notify then { s2 with notices := s2.notices ++ [.launchDone n l.id status] } else s2
  let x := s3.queue l.queue
  let s4 := s3.setQueue l.queue { x with lastStatus := if x.lastId == some l.id then some status else x.lastStatus }
  let rest := s4.launches.filter fun y => !(y.id == l.id && y.partition == n)
  let after := fun (y : Launch) =>
    if y.queue == l.queue && y.partition == n && y.ahead == some l.id then
      { y with ahead := none, skipped := y.skipped || (y.dep && status != 0) }
    else y
  traceQueued { s4 with launches := rest.map after } n l.queue l.id false

/-- Whether a launch has a resident or saved block. -/
def hasBlocks (s : State) (l : Launch) : Bool := s.blocks.any fun e => e.2.partition == l.partition && e.2.launch == l.id

/-- Whether some block of a launch is left unplaced. -/
def Launch.unplaced (l : Launch) : Bool := decide (l.nextBlock < l.blocks) || !l.awaiting.isEmpty

/-- Whether a launch is complete (R368). -/
def launchOver (s : State) (l : Launch) : Bool := !hasBlocks s l && (!l.open || !l.unplaced)

/-- The status of a launch that is over (R369). -/
def overStatus (l : Launch) : Nat :=
  if l.skipped then 0x12 else if l.faulted then 0x10 else if l.barred && l.unplaced then 0x13 else 0x00

/-- The meaning of GRID_COMPLETION (R368); `launch` is the launch's place in State.launches. -/
def execGridCompletion (launch : Nat) (s : State) : Host.Outcome State Fault Refusal :=
  .next (match s.launches[launch]? with
  | none => s
  | some l => if launchOver s l then completeLaunch s l (overStatus l) else s)

-- ===== the end of a team =====

/-- Whether a team has ended with every result, copy and memory effect complete (R174). -/
def teamOver (s : State) (f : Nat) (t : Team) : Bool :=
  (match t.wait with
   | .ended _ _ _ _ => true
   | _ => false) &&
  t.pend.all Pend.isFixed && !(s.accs.any fun e => e.2.team == f) && !((s.cluster (clusterOf f)).ops.any fun e => e.2.team == f)

/-- A block whose every team has ended leaves its cluster and counts as ended (R368). -/
def endBlock (s : State) (b : Nat) : State :=
  match tfind s.blocks b with
  | none => s
  | some x =>
    if x.ended != allTeams x.nteams then s
    else (releaseBlock s b x).modLaunch x.partition x.launch fun l => { l with endedBlocks := l.endedBlocks + 1 }

/-- The resident blocks of a partition (R409). -/
def residentBlocks (s : State) (n : Nat) : Nat := (s.blocks.filter fun e => e.2.partition == n && !e.2.saved).length

/-- pstate.state (R410). Partition 0 reads 1 from the package reset on, while Zalmer has still to be loaded. -/
def partitionState (s : State) (n : Nat) : Nat :=
  let p := s.partition n
  if p.resetting then 5
  else if p.preempting then 3
  else if p.preempted then 4
  else if p.drained then 2
  else if (n = 0 ∧ s.bexile.loading) ∨ residentBlocks s n ≠ 0 ∨ s.launches.any fun l => l.partition == n then 1 else 0

/-- Whether every other partition is idle or pre-empted (R422). -/
def othersAsleep (s : State) : Bool := (List.range 7).all fun i => [0, 4].contains (partitionState s (i + 1))

/-- A requested retention is entered once partition 0 has no team left and every other partition is idle or pre-empted: the host
link enters L1 and the Tarbin links idle (R422). DEDUCED: where another partition has begun to run since the request, it is
entered when none does any longer (log 97). -/
def enterRetention (s : State) : State :=
  if s.power.req == 3 && s.power.cur != 3 && !(s.teams.any fun e => e.2.partition == 0) && othersAsleep s then
    { s with power := { s.power with prev := s.power.cur, cur := 3 }
             hostLink := { s.hostLink with idle := true }
             fabric := { s.fabric with idle := true } }
  else s

/-- The meaning of TEAM_END (R174, R281, R344): the slot is free; barriers that waited for the team are checked. -/
def execTeamEnd (team : Nat) (s : State) : Host.Outcome State Fault Refusal :=
  .next (match tfind s.teams team with
  | none => s
  | some t =>
    if !teamOver s team t then s
    else
      let b := s.blockOf t
      let s1 := { s with teams := tdel s.teams team }
      let s2 := s1.modBlock t.block fun b => { b with ended := b.ended ||| teamBit t.index, teams := b.teams.filter (· != team) }
      let s3 := s2.modLaunch t.partition t.launch fun l => { l with endedTeams := l.endedTeams ++ [(b.index, t.index)] }
      enterRetention (endBlock (completeGrid (completeBars s3 t.block) t.partition t.launch) t.block))

-- ===== queue configuration =====

/-- A queue's PN, DEPTH, EN and PRI from a register value (R357). -/
def Queue.configure (x : Queue) (v : Word) : Queue :=
  let w := v.toNat
  let pn := natBits w 6 4
  { x with depth := natBits w 13 8, pn, pri := natBits w 3 1, en := natBit w 0, pendingWrite := none
           lastId := if pn = x.pn then x.lastId else none, lastStatus := if pn = x.pn then x.lastStatus else none }

/-- The meaning of QCFG_DEFERRED_APPLY (R357). -/
def execQcfgDeferredApply (queue : Nat) (s : State) : Host.Outcome State Fault Refusal :=
  .next (
    let x := s.queue queue
    match x.pendingWrite with
    | some v => if occupied s queue = 0 then s.setQueue queue (x.configure v) else s
    | none => s)

-- ===== the host's doorbell =====

/-- The virtual function that a queue is bound to (R407). -/
def queueVf (s : State) (q : Nat) : Option Nat :=
  (List.range 16).find? fun v =>
    let w := (tget s.hostLink.vfmap v 0).toNat
    natBit w 63 && decide (natBits w 5 0 ≤ q) && decide (q < natBits w 5 0 + natBits w 13 8)

/-- The record of wdrec enqueued on its queue of partition 0, where there is one (R405, R422). -/
def enqueueRecovery (s : State) (lead : List Word) : State :=
  let w := s.wdrec.toNat
  if natBits w 47 6 = 0 then s else (enqueue s 0 (natBits w 5 0) (natBits w 47 6 * 64) none lead).1

/-- The package leaves retention for its previous state, and the record of wdrec is enqueued (R422). -/
def wake (s : State) : State :=
  if s.power.cur = 3 then
    enqueueRecovery
      { s with power := { s.power with cur := s.power.prev, req := s.power.prev }
               hostLink := { s.hostLink with idle := false }
               fabric := { s.fabric with idle := false } } []
  else s

/-- The meaning of DOORBELL_WRITE (R395): a write through the PF's copy of the page, or through that of the VF that the
queue is bound to, which is dropped while that VF is disabled. -/
def execDoorbellWrite (queue record : Nat) (viaPf : Bool) (s : State) : Host.Outcome State Fault Refusal :=
  .next (
    if !viaPf && (queueVf s queue).isNone then s
    else
      let s0 := wake s
      let r := enqueue s0 (s0.queue queue).pn queue record none []
      r.1.setQueue queue { r.1.queue queue with doorbell := r.2 })

-- ===== launch, lcount, qwork =====

/-- A token register that takes a value at an event of its own (R230). -/
def tokenValue (t : Team) (tok : BitVec 6) (value : Nat) : Pend :=
  { tokenPend t tok with writes := [⟨.k tok.toNat, [(0, BitVec.ofNat 64 value)]⟩] }

/-- The meaning of launch (R349). The word waits, unissued, for its .grid release. -/
def execLaunch (h : Hdr) (tok q r : BitVec 6) (s : State) : Host.Outcome State Fault Refusal :=
  forTeam s fun f t =>
    if (activeLanes t h).isEmpty then finishWord s f { sw := h.sw }
    else if !releaseReady s f t .grid then s
    else
      let qn := (readK t q.toNat).toNat
      let x := if qn ≥ 64 then (s, 0x07) else enqueue s t.partition qn (readK t r.toNat).toNat none []
      finishWord x.1 f { pends := [tokenValue t tok x.2], sw := h.sw }

/-- The arrival at a counter record held at a physical address (R351, R352): the state and the token. -/
def countArrival (s : State) (f : Nat) (t : Team) (pa : Nat) : State × Nat :=
  let r := memGet s pa 32
  let n := recBytes r 3 0 + 1
  let put := fun (s : State) (x : Nat) =>
    llcTouch (memSet (l1Drop s (clusterOf f) fun l => l.remote == none && l.line == pa / 256) pa x 4) t.partition pa true false
  if n < recBytes r 7 4 then (put s n, 0xFE)
  else if n > recBytes r 7 4 then (s, 0x06)
  else
    let s1 := acquireInvalidate (put s 0) (clusterOf f) t.partition
    let cntp := recBytes r 23 16
    if recBytes r 31 25 ≠ 0 ∨ natBits r 199 198 ≠ 0 ∨ cntp % 4 ≠ 0 then (s1, 0x02)
    else
      match vaRead s1 t.partition cntp 4 with
      | (s2, none) => (s2, 0x02)
      | (s2, some 0) => (s2, 0x05)
      | (s2, some w) => enqueue s2 t.partition (recBytes r 24 24) (recBytes r 15 8) (some w) []

/-- The meaning of lcount (R352). The word waits, unissued, for its .grid release. A counter in host memory is a request, which the
host may complete with an error (R394). -/
def execLcount (h : Hdr) (tok c : BitVec 6) (s : State) : Host.Outcome State Fault Refusal :=
  forTeam s fun f t =>
    match activeLanes t h with
    | [] => finishWord s f { sw := h.sw }
    | l :: _ =>
      if !releaseReady s f t .grid then s
      else
        let a := (readK t c.toNat).toNat
        let park := fun (s : State) (e : FaultCode) => finishWord s f { faults := [(l, e, a)], sw := h.sw }
        match laneSpot s f t .gl .write 32 a with
        | (s1, .miss page va) => waitWalks s1 f t [(page, va)]
        | (s1, .fault e _) => park s1 e
        | (s1, .found (.home pa) va ver shared) =>
          let s2 := usePages s1 f t .gl [(l, .found (.home pa) va ver shared)]
          let r := readBlocks s2 pa 32 t.partition a
          if frameHeld s pa then s
          else if r.2 then park r.1 .memPoisoned
          else
            match reach r.1 t.partition pa a with
            | (s3, .error e) => park s3 e
            | (s3, .ok pa) =>
              let x := countArrival s3 f t pa
              finishWord x.1 f { pends := [tokenValue t tok x.2], sw := h.sw }
        | (s1, .found _ _ _ _) | (s1, .unmapped) => park s1 .pageFault

/-- What qwork writes for block b of p blocks, t tiles of i iterations each (R353, R354). -/
def workSplit (t i p b : Nat) : List Nat :=
  let w := t * i
  let q := w / p
  let r := w % p
  let start := fun (x : Nat) => x * q + min x r
  let s := start b
  let e := start (b + 1)
  let tiles := if s = e then 0 else (e - 1) / i * 2 ^ 32 + s / i
  let hp := decide (s % i ≠ 0) && decide (s < e)
  let tail := decide (e % i ≠ 0) && decide (e < w) && decide (s < e) && decide (e / i * i ≥ s)
  let n := if tail then ((List.range p).filter fun x => decide (x > b) && decide (start x < (e / i + 1) * i)).length else 0
  [s, e, tiles, min n 0xFFFF * 2 ^ 32 + bit1 tail * 2 + bit1 hp]

/-- The meaning of qwork (R353). -/
def execQwork (h : Hdr) (grp : BitVec 4) (t i : BitVec 6) (s : State) : Host.Outcome State Fault Refusal :=
  forTeam s fun f tm =>
    let act := activeLanes tm h
    let lane := act.headD 0
    let low := fun (k : BitVec 6) => (readK tm k.toNat).toNat % 2 ^ 32
    let vals := workSplit (low t) (low i) (s.launchOf tm).blocks (s.blockOf tm).index
    let writes := (List.range 4).map fun j =>
      (⟨.k (4 * grp.toNat + j), [(lane, BitVec.ofNat 64 (vals.getD j 0))]⟩ : RegWrite)
    finishWord s f { pends := [{ issue := tm.issues, lat := .variable, writes, lanes := act }], sw := h.sw }

end Sys2Proof.Machine
end

