-- ==== Sys2Proof/Machine/Fabric.lean ====
section
/-! DEFINITION. The fabric: ports and routes (R435 to R437, R454), remote accesses at both ends (R438 to R441), sealing
(R442), collectives and pod barriers (R443 to R447), fabric time (R448 to R452) and flits in transit (R453). -/

namespace Sys2Proof.Machine

-- ===== fabric time =====

/-- Fabric time in ns, 64 bits (R448). -/
def Fabric.ns (x : Fabric) : Nat := x.time / 4000000 % 2 ^ 64

/-- Fabric time after one cluster cycle of 1.25 ns, at the corrected rate (R449). -/
def Fabric.tick (x : Fabric) : Fabric := { x with time := x.time + (5000000 + 5 * x.rate).toNat }

/-- This package's role (R437). -/
def Fabric.role (x : Fabric) : Nat := natBits x.ftime.toNat 3 2

/-- The grandmaster that this package follows: the least fid among those announced and, where its role is 1, itself
(R448). -/
def Fabric.grandmaster (x : Fabric) : Option Nat :=
  match x.masters.map (·.1) ++ (if x.role == 1 then [x.fid] else []) with
  | [] => none
  | m :: r => some (r.foldl min m)

/-- The domain in which this package keeps time (R437). -/
def Fabric.domain (x : Fabric) : Nat := natBits x.ftime.toNat 23 16

/-- What a boundary clock sends on when it has met a sync of its grandmaster (R448): a sync with its time, in one step, or the
time in a message that follows. DESIGN CHOICE: log 99. -/
def Fabric.resync (x : Fabric) : List Notice :=
  if natBit x.ftime.toNat 4 then [.ptpSync x.domain none, .ptpFollowUp x.domain x.ns] else [.ptpSync x.domain (some x.ns)]

/-- Cluster cycles of one sync interval, 2^−k s (R437). -/
def Fabric.syncCycles (x : Fabric) : Nat := 800000000 / 2 ^ natBits x.ftime.toNat 11 8

/-- The meaning of PTP_ANNOUNCE_RECEIVED: the announced grandmaster stands among those known, of which the best is the one of
least priority2, its fid; the one that this package follows it announces on, as a boundary clock (R448). DESIGN CHOICE: log 99. -/
def execPtpAnnounceReceived (master stratum : Nat) (s : State) : Host.Outcome State Fault Refusal :=
  .next (
    let x := s.fabric
    if x.role == 0 then s
    else
      let y := { x with masters := (x.masters.filter fun m => m.1 != master) ++ [(master, stratum)] }
      let y := if y.grandmaster == x.grandmaster || x.lock then y else { y with lastSync := s.cycle }
      let told := if y.grandmaster == some master then [Notice.ptpAnnounce y.domain master] else []
      { s with fabric := y, notices := s.notices ++ told })

/-- A sync from the grandmaster, sent at a time of its own and met after a measured delay (R449). A grandmaster's own
sync has offset 0. The rate correction within ±500 ppm, while LOCK is set, and whether fabric time steps when LOCK is first set,
are left open. -/
def syncFrom (s : State) (master sent delay : Nat) : State :=
  let x := s.fabric
  let self := master == x.fid
  let off : Int := if self then 0 else (x.ns : Int) - ((sent + delay : Nat) : Int)
  let good := if off.natAbs < 8 then x.goodSyncs + 1 else 0
  let locks := !x.lock && decide (good ≥ 16)
  let (s1, n) := drawFree s
  let (s2, m) := drawFree s1
  let step := locks && !x.stepped && !self && Config.freeBit n
  let rate : Int := if self || !x.lock then x.rate else ((Config.freeWord m).toNat % 1001 : Nat) - (500 : Int)
  let y := { x with offset := wrapNat 32 off, goodSyncs := good, lastSync := s.cycle, lock := x.lock || locks
                    stepped := x.stepped || locks, rate, time := if step then (sent + delay) * 4000000 else x.time }
  { s2 with fabric := y, notices := s2.notices ++ y.resync }

/-- The meaning of PTP_SYNC_RECEIVED (R449). -/
def execPtpSyncReceived (master sent delay : Nat) (s : State) : Host.Outcome State Fault Refusal :=
  .next (if s.fabric.role == 0 || s.fabric.grandmaster != some master then s else syncFrom s master sent delay)

/-- Whether 4 sync intervals have passed without a sync of the grandmaster that this package follows (R449). -/
def Fabric.silent (x : Fabric) (cycle : Nat) : Bool :=
  (x.lock || !x.masters.isEmpty) && decide (cycle ≥ x.lastSync + 4 * x.syncCycles)

/-- The meaning of PTP_SYNC_LOSS: LOCK clears after 4 sync intervals without a sync (R449), and the grandmaster that was silent is
no longer known, so that another is chosen (R448). DESIGN CHOICE: log 99. -/
def execPtpSyncLoss (s : State) : Host.Outcome State Fault Refusal :=
  .next (
    let x := s.fabric
    if !x.silent s.cycle then s
    else
      { s with fabric := { x with lock := false, goodSyncs := 0, lastSync := s.cycle
                                  masters := x.masters.filter fun m => some m.1 != x.grandmaster } })

/-- The meaning of tget (R451). -/
def execTget (h : Hdr) (d : Dst) (pc : BitVec 4) (s : State) : Host.Outcome State Fault Refusal :=
  ({ i := .tget h d pc, h, lat := L4, dests := [dstReg d, pReg pc], lin := .none, srcs := []
     fn := fun s _ _ _ =>
       { vals := [(dstReg d, BitVec.ofNat 64 s.fabric.ns), (pReg pc, (boolP s.fabric.lock).setWidth 64)] } } : Alu).exec s

/-- The meaning of tmwait (R452): the team waits for its deadline, and for its results. -/
def execTmwait (h : Hdr) (d : Dst) (a : BitVec 6) (s : State) : Host.Outcome State Fault Refusal :=
  forTeam s fun f t =>
    (finishWord s f { sw := true }).modTeam f fun t' => { t' with wait := .time (readK t a.toNat).toNat d (activeLanes t h) }

/-- A register takes one value in some lanes, with a fresh tag, outside a word (R452, R408). -/
def putAll (s : State) (f : Nat) (d : Reg) (lanes : List Nat) (x : Word) : State :=
  match tfind s.teams f with
  | none => s
  | some t =>
    let q := match d with
      | .v r => sweepWrite s f t r lanes [] [] fun _ => .fresh
      | _ => (s, [])
    landOne q.1 f { issue := t.issues, lat := .variable, writes := [⟨d, lanes.map fun l => (l, x)⟩], tags := q.2, lanes }

/-- The meaning of TMWAIT_WAKE (R452). -/
def execTmwaitWake (team : Nat) (s : State) : Host.Outcome State Fault Refusal :=
  .next (match tfind s.teams team with
  | none => s
  | some t =>
    match t.wait with
    | .time deadline d lanes =>
      if t.outstanding || s.fabric.ns < deadline then s
      else (putAll (commitFixed s team) team (dstReg d) lanes (BitVec.ofNat 64 s.fabric.ns)).modTeam team fun t => { t with wait := .ready }
    | _ => s)

-- ===== measurements =====

/-- A measurement register after an extension: SHAKE256 of its 64 bytes and the data (R423). -/
def extended (old : Nat) (data : List Byte) : Nat :=
  shakeOut 8 (64 + data.length) (old + 256 ^ 64 * ((List.range data.length).map fun i => (data.getD i 0).toNat * 256 ^ i).sum)

/-- A measurement register extended. -/
def State.extend (s : State) (reg : Nat) (data : List Byte) : State :=
  { s with bexile := { s.bexile with meas := tset s.bexile.meas reg (extended (tget s.bexile.meas reg 0) data) 0 } }

-- ===== ports and routes =====

/-- A port. -/
def State.port (s : State) (p : Nat) : Port := tget s.fabric.ports p {}

/-- ifneg.tar holds the lowest version on any port that is up (R436). -/
def renegotiate (s : State) : State :=
  let vs := (s.fabric.ports.filter fun e => !e.2.down).map (·.2.ver)
  let v := match vs with
    | [] => 0
    | x :: r => r.foldl min x
  let old := s.hostLink.ifneg.toNat
  { s with hostLink := { s.hostLink with ifneg := BitVec.ofNat 64 (natBits old 23 0 + v * 2 ^ 24) } }

/-- The state with a port replaced. -/
def State.setPort (s : State) (p : Nat) (x : Port) : State :=
  renegotiate { s with fabric := { s.fabric with ports := tset s.fabric.ports p x {} } }

/-- A fabric link fault entry (R390): type 0x07. -/
def linkEntry (s : State) (port cause partition lost : Nat) : State :=
  logEntry s partition (fields [(0, 7), (1, 0xFF), (2, 0xFF), (3, 0xFF), (8, s.cycle % 2 ^ 64), (24, port), (25, (s.port port).peer),
    (26, cause), (27, partition), (28, lost), (32, s.fabric.ns)])

/-- A change of a port that is no fault of R390's list is logged too (R454); its cause byte is free (log 32). -/
def linkChange (s : State) (port : Nat) : State :=
  let q := drawFree s
  linkEntry q.1 port (Config.freeByte q.2).toNat 0 0

/-- The meaning of TARBIN_PORT_TRAINING: the port's configuration is measured (R423, log 9), and the port uses the highest version common to both sides, of which this side offers
1 to 3 (R436, R396). A package has 32 ports, of 8 lanes each, which go on at 4 (R435, R437). The change is logged, and what waited for
a route goes out (R454). -/
def execTarbinPortTraining (port low high peer peerPort lanes : Nat) (s : State) : Host.Outcome State Fault Refusal :=
  .next (
    let x := s.port port
    let ver := min 3 high
    if !x.en || decide (ver < max 1 low) || decide (port ≥ 32) || !(lanes == 8 || lanes == 4) then s
    else
      let s1 := (s.setPort port { x with ver, peer, pport := peerPort, width := lanes, down := false }).extend 2
        (Config.linkBytes 2 [port, ver, peer, peerPort, lanes])
      flushTransit (linkChange s1 port))

/-- The meaning of FLIT_REPLAY: a replay is counted and changes no data (R435, R454). -/
def execFlitReplay (port : Nat) (s : State) : Host.Outcome State Fault Refusal :=
  .next (s.setPort port { s.port port with retries := min (s.port port).retries.succ 65535 })

/-- Whether an access goes out through a port. -/
def Acc.viaPort (s : State) (port : Nat) (a : Acc) : Bool :=
  match a.place with
  | .remote pkg _ => routePort s pkg == port
  | _ => false

/-- An access in flight on a route that has gone down: a store is lost and counts as complete; a load or atomic ends with
page-fault, a pref drops its line (R438, R439, R458). -/
def loseAccess (s : State) (key : Nat) (a : Acc) : State :=
  if !a.kind.isStore then settleAccess s key a (.error .pageFault)
  else { s with accs := tdel s.accs key }.modTeam a.team fun t => { t with lostStore := true }

-- ===== collectives =====

/-- The bytes of an element of a collective's type (R443). -/
def elemBytes (ty : Nat) : Nat := if ty = 1 then 2 else 4

/-- The elements of a participant's source (R444). -/
def collSrc (k : CollKey) : Nat := if k.op = 2 then k.size * k.count else k.count

/-- The elements of a participant's destination (R444). -/
def collDst (k : CollKey) : Nat := if k.op = 1 then k.size * k.count else k.count

/-- The pieces of a span of virtual addresses that lie in one 64 KiB region each. -/
def pieces (va n : Nat) : List (Nat × Nat) :=
  ((List.range ((va % 65536 + n + 65535) / 65536)).map fun i =>
    let lo := if i = 0 then va else va / 65536 * 65536 + i * 65536
    let hi := min (va + n) ((va / 65536 + i + 1) * 65536)
    (lo, hi - lo)).filter fun p => p.2 != 0

/-- The physical pieces of a span for a partition; none where a page does not translate. -/
def spanPas (s : State) (partition va n : Nat) (need : Need) : State × Option (List (Nat × Nat × Nat)) :=
  (pieces va n).foldl (fun r p =>
    match r.2 with
    | none => r
    | some l =>
      match walkTranslate r.1 partition p.1 need with
      | (s1, .ok pa) => (s1, some (l ++ [(p.1, pa, p.2)]))
      | (s1, .error _) => (s1, none)) (s, some [])

/-- The bytes of some physical pieces, and whether a block of them is lost. -/
def readPieces (s : State) (partition : Nat) (l : List (Nat × Nat × Nat)) : State × List Byte × Bool :=
  l.foldl (fun r p =>
    let q := readBlocks r.1 p.2.1 p.2.2 partition p.1
    (q.1, r.2.1 ++ (List.range p.2.2).map fun i => tget q.1.mem (p.2.1 + i) 0, r.2.2 || q.2)) (s, [], false)

/-- Element i of a list of little-endian bytes. -/
def elemAt (bs : List Byte) (size i : Nat) : Nat :=
  ((List.range size).map fun j => (bs.getD (i * size + j) 0).toNat * 256 ^ j).sum

/-- One step of ⊕ on the values of f32 (R444). -/
def reduceFlt (red : Nat) (x y : Nat) : Nat :=
  let a := Fmt.f32.value x
  let b := Fmt.f32.value y
  match red with
  | 0 => (Fmt.f32.add .rne a b).1
  | 1 => Fmt.f32.pattern (FV.min a b)
  | _ => Fmt.f32.pattern (FV.max a b)

/-- One step of ⊕ on 32-bit integers (R444). -/
def reduceInt (red : Nat) (x y : Nat) : Nat :=
  match red with
  | 0 => (x + y) % 2 ^ 32
  | 1 => wrapNat 32 (min (signedOf 32 x) (signedOf 32 y))
  | _ => wrapNat 32 (max (signedOf 32 x) (signedOf 32 y))

/-- ⊕ over the elements of the ranks, in ascending rank order (R444). bf16 elements widen to f32 and round once. -/
def reduceAll (red ty : Nat) (xs : List Nat) : Nat :=
  match xs with
  | [] => 0
  | x :: r =>
    if ty = 6 then r.foldl (reduceInt red) x
    else if ty = 2 then (if r.isEmpty then Fmt.f32.pattern (Fmt.f32.value x) else r.foldl (reduceFlt red) x)
    else
      let wide := r.foldl (fun a b => reduceFlt red a (b * 65536)) (x * 65536)
      Fmt.bf16.pattern (Fmt.f32.value wide)

/-- The contribution of a rank. -/
def Coll.part (c : Coll) (r : Nat) : List Byte := ((c.contributions.find? fun e => e.1 == r).map (·.2)).getD []

/-- The bytes of the destination of a collective (R444). -/
def Coll.result (c : Coll) : List Byte :=
  let k := c.key
  let es := elemBytes k.ty
  if k.op = 1 then (List.range k.size).flatMap fun r => (c.part r).take (k.count * es)
  else
    let at' := if k.op = 2 then c.rank * k.count else 0
    (List.range k.count).flatMap fun i =>
      let v := reduceAll k.red k.ty ((List.range k.size).map fun r => elemAt (c.part r) es (at' + i))
      (List.range es).map fun j => BitVec.ofNat 8 (v / 256 ^ j)

/-- The bytes of a collective's destination. -/
def Coll.dstBytes (c : Coll) : Nat := collDst c.key * elemBytes c.key.ty

/-- The destination of a collective takes undefined bytes (R446, R15). -/
def loseDst (s : State) (c : Coll) : State :=
  let r := spanPas s c.partition c.dst c.dstBytes .write
  scramble r.1 ((r.2.getD []).flatMap fun p => (List.range p.2.2).map fun i => p.2.1 + i)

/-- A collective in flight fails before its commit: the destination is undefined, the token takes the status, and the
other members are told unless they know (R446). -/
def failColl (s : State) (tag status : Nat) (tell : Bool) : State :=
  match tfind s.colls tag with
  | none => s
  | some c =>
    if c.committed then s
    else
      let s1 := loseDst s c
      let s2 := { s1 with colls := tdel s1.colls tag
                          notices := if tell then s1.notices ++ [.collFailed tag status] else s1.notices }
      landToken s2 c.team c.issue status

/-- Whether this participant has agreed the commit of a collective: from then on no failure of its own ends it, since another
member may have committed (R445, R446). DESIGN CHOICE: log 98. -/
def Coll.bound (c : Coll) : Bool := c.agreed.contains c.rank

/-- A failure that this participant recognises ends a collective that it has not agreed to commit (R446). -/
def failOwn (s : State) (tag status : Nat) : State :=
  if (tfind s.colls tag).elim false Coll.bound then s else failColl s tag status true

/-- The collectives of some teams that are reset end with participant-reset for every other member, but for one whose commit the
participant had agreed; the participant's destination is undefined (R406, R407, R446). -/
def leaveColls (s : State) (mine : Nat → Bool) : State :=
  let gone := s.colls.filter fun e => mine e.2.team && !e.2.committed
  let s1 := gone.foldl (fun s e => loseDst s e.2) s
  { s1 with notices := s1.notices ++ (gone.filter fun e => !e.2.bound).map fun e => .collFailed e.1 0x30 }

/-- The later of two arrivals at a pod barrier, each as the release time that it sets and its own time (R447). DESIGN CHOICE: of two
at one time the one with the later release time (log 98). -/
def laterArrival (a b : Nat × Nat) : Nat × Nat := if a.2 < b.2 || (a.2 == b.2 && a.1 < b.1) then b else a

/-- A contribution joins a collective in flight of a partition that has joined its span; records that disagree fail it (R443,
R446). A member whose contribution is there has agreed the commit (DESIGN CHOICE: log 98). That of a pod barrier holds the
release time that its arrival sets and the time of the arrival (R447). -/
def contribute (s : State) (key : CollKey) (member : Nat) (data : List Byte) : State :=
  match tfind s.colls key.tag with
  | none => s
  | some c =>
    if c.key.span ≠ key.span ∨ c.committed ∨ !spanOn s c.partition then s
    else if c.key ≠ key then failOwn s key.tag 0x33
    else
      let pod := key.op == 0 && key.count == 0
      let c' := if c.contributions.any fun e => e.1 == member then { c with agreed := (c.agreed ++ [member]).eraseDups }
        else { c with
          contributions := c.contributions ++ [(member, if pod then [] else data)]
          podTime := if pod then some ((c.podTime.elim id laterArrival) (elemAt data 8 0, elemAt data 8 1)) else c.podTime }
      { s with colls := tput s.colls key.tag c' }

/-- The meaning of COLL_CONTRIBUTION_ARRIVAL (R445): a contribution to a collective that its own participant has not yet
joined here is held. -/
def execCollContributionArrival (key : CollKey) (member : Nat) (data : List Byte) (s : State) : Host.Outcome State Fault Refusal :=
  .next (match tfind s.colls key.tag with
  | some _ => contribute s key member data
  | none => { s with fabric := { s.fabric with early := s.fabric.early ++ [(key, member, data)] } })

/-- The meaning of COLL_MEMBER_FAILURE (R446). -/
def execCollMemberFailure (tag status : Nat) (s : State) : Host.Outcome State Fault Refusal :=
  .next (failColl { s with fabric := { s.fabric with early := s.fabric.early.filter fun e => e.1.tag != tag } } tag status false)

/-- The meaning of COLL_TIMEOUT (R446). -/
def execCollTimeout (tag : Nat) (s : State) : Host.Outcome State Fault Refusal :=
  .next (match tfind s.colls tag with
  | none => s
  | some c => if s.cycle ≥ c.deadline then failOwn s tag 0x31 else s)

/-- Whether every contribution of a collective has been delivered (R445). -/
def Coll.whole (c : Coll) : Bool := (List.range c.key.size).all fun r => c.contributions.any fun e => e.1 == r

/-- The virtual address at which some physical pieces of a span meet an error block (R385). -/
def pieceVa (l : List (Nat × Nat × Nat)) (b : Nat) : Nat :=
  match l.find? fun p => decide (p.2.1 / 32 ≤ b ∧ b ≤ (p.2.1 + p.2.2 - 1) / 32) with
  | some p => blockVa p.1 b
  | none => 0

/-- A collective's destination written, and its token with the acquire that its reading makes (R445). Bytes of a lost
block that are not written whole stay as they are. -/
def commitColl (s : State) (tag : Nat) (c : Coll) : State :=
  let r := spanPas s c.partition c.dst c.dstBytes .write
  let out := c.result
  let ws := (r.2.getD []).flatMap fun p => (List.range p.2.2).map fun i => (p.2.1 + i, out.getD (p.1 - c.dst + i) 0)
  let s1 := (homeWriteAt r.1 noCluster c.partition ws (pieceVa (r.2.getD []))).1
  let s2 := acquireInvalidate { s1 with colls := tdel s1.colls tag } (clusterOf c.team) c.partition
  landToken s2 c.team c.issue (ws.length * 256)

/-- Whether every member has agreed the commit of a collective (R445). -/
def Coll.agreedAll (c : Coll) : Bool := (List.range c.key.size).all fun r => c.agreed.contains r

/-- This participant agrees the commit of a collective whose every contribution has been delivered, and tells the others (R445). -/
def Coll.agree (c : Coll) : Coll := { c with agreed := (c.agreed ++ [c.rank]).eraseDups }

/-- The meaning of COLL_COMMIT (R445): the participant agrees the commit, and once every member has it commits; a pod barrier takes
its release time instead (R447). -/
def execCollCommit (tag : Nat) (s : State) : Host.Outcome State Fault Refusal :=
  .next (match tfind s.colls tag with
  | none => s
  | some c =>
    if c.committed || !c.whole then s
    else if !c.bound && !c.agree.agreedAll then
      { s with colls := tput s.colls tag c.agree, notices := s.notices ++ [.collAgreed c.key c.rank] }
    else if !c.agree.agreedAll then s
    else if c.key.op = 0 ∧ c.key.count = 0 then
      let tp := natBits s.fabric.fpod.toNat 15 0
      { s with colls := tput s.colls tag { c with committed := true, releaseAt := c.podTime.elim 0 (·.1) + c.rank * tp } }
    else commitColl s tag c)

/-- The meaning of POD_BARRIER_RELEASE (R447, R418): at the release time the team's place in the hoist order is fixed, and
at that cycle its token is written. -/
def execPodBarrierRelease (tag : Nat) (s : State) : Host.Outcome State Fault Refusal :=
  .next (match tfind s.colls tag with
  | none => s
  | some c =>
    if !c.committed then s
    else
      match c.leaveAt with
      | none =>
        if s.fabric.ns < c.releaseAt then s
        else
          let rot := tget s.power.rot c.partition 0
          let size := 2 ^ s.power.wsz
          let r : Release := { start := s.cycle, rot, td := s.power.td, tw := waveInterval s.power size, size, waiting := [] }
          { s with colls := tput s.colls tag { c with leaveAt := some (r.time (clusterOf c.team)) }
                   power := { s.power with rot := tset s.power.rot c.partition ((rot + 1) % 64) 0 } }
      | some at' => if s.cycle < at' then s else beginHalting (commitColl (s.waveUses (waveInterval s.power (2 ^ s.power.wsz))) tag c) c.partition)

/-- What a collective's record gives (R443): its key without the span, and its own fields. -/
structure CollRec where
  key : CollKey
  rank : Nat
  src : Nat
  dst : Nat

/-- A collective record's fields, none where it is malformed (R443). -/
def CollRec.ofNat (span x : Nat) : Option CollRec :=
  let key : CollKey := { span, tag := recBytes x 43 40, op := recBytes x 1 1, red := recBytes x 2 2, ty := recBytes x 3 3,
                         size := recBytes x 5 4, count := recBytes x 11 8, timeout := recBytes x 15 12, members := recBytes x 39 32 }
  let ok := recBytes x 0 0 == 1 && recBytes x 63 44 == 0 && decide (key.op ≤ 2) && (decide (key.red ≤ 2) || key.op == 1) &&
    [1, 2, 6].contains key.ty && decide (1 ≤ key.size) && decide (key.size ≤ 256) && decide (recBytes x 7 6 < key.size)
  if ok then some { key, rank := recBytes x 7 6, src := recBytes x 23 16, dst := recBytes x 31 24 } else none

/-- The package ids of a collective's members, none where they cannot be read. -/
def readMembers (s : State) (partition va n : Nat) : State × Option (List Nat) :=
  match spanPas s partition va (2 * n) .read with
  | (s1, none) => (s1, none)
  | (s1, some l) =>
    let r := readPieces s1 partition l
    (r.1, if r.2.2 then none else some ((List.range n).map fun i => elemAt r.2.1 2 i))

/-- What a coll reads at its issue. -/
structure CollIn where
  record : CollRec
  members : List Nat
  pieces : List (Nat × Nat × Nat)

/-- A coll's record, members and source; none where the record is malformed, a structure of it cannot be read, its own
member entry does not name this package, or its source or destination does not translate (R443, R446). -/
def collRead (s : State) (partition va : Nat) : State × Option CollIn :=
  match recordRead s partition va 64 with
  | (s1, none) => (s1, none)
  | (s1, some x) =>
    match CollRec.ofNat ((s.partition partition).fspan.toNat % 65536) x with
    | none => (s1, none)
    | some r =>
      match readMembers s1 partition r.key.members r.key.size with
      | (s2, none) => (s2, none)
      | (s2, some ms) =>
        let es := elemBytes r.key.ty
        match spanPas s2 partition r.src (collSrc r.key * es) .read, spanPas s2 partition r.dst (collDst r.key * es) .write with
        | (s3, some l), (_, some _) => if ms.getD r.rank 256 = s.fabric.fid then (s3, some ⟨r, ms, l⟩) else (s3, none)
        | (s3, _), _ => (s3, none)

/-- A participant joins its collective: its source is read and sent to the others, for a pod barrier the release time that its
arrival sets with the arrival's time (R447), and what they sent before is taken (R445, R446). A participant whose partition has joined no span meets no other. -/
def joinColl (s : State) (f : Nat) (t : Team) (x : CollIn) : State :=
  let k := x.record.key
  let q := readPieces s t.partition x.pieces
  let pod := k.op == 0 && k.count == 0
  let margin := natBits s.fabric.fpod.toNat 31 16
  let wait := (if k.timeout = 0 then 10000 else k.timeout) * 800
  let mine := q.1.fabric.early.filter fun e => e.1.tag == k.tag && e.1.span == k.span && spanOn s t.partition
  let c : Coll := { team := f, issue := t.issues, partition := t.partition, key := k, rank := x.record.rank, dst := x.record.dst,
                    members := x.members, deadline := s.cycle + wait, contributions := [(x.record.rank, q.2.1)]
                    podTime := if pod then some (s.fabric.ns + margin, s.fabric.ns) else none }
  let sent := if pod then (toBytes 0 (s.fabric.ns + margin) 8 ++ toBytes 0 s.fabric.ns 8).map (·.2) else q.2.1
  let s1 := { q.1 with colls := tput q.1.colls k.tag c
                       notices := if spanOn s t.partition then q.1.notices ++ [.contribution k x.record.rank sent] else q.1.notices
                       fabric := { q.1.fabric with early := q.1.fabric.early.filter fun e => !mine.contains e } }
  let s2 := mine.foldl (fun s e => contribute s e.1 e.2.1 e.2.2) s1
  if q.2.2 then failOwn s2 k.tag 0x20 else s2

/-- The meaning of coll (R443 to R446). The word waits, unissued, for its .span release. -/
def execColl (h : Hdr) (tok a : BitVec 6) (s : State) : Host.Outcome State Fault Refusal :=
  forTeam s fun f t =>
    if releaseDown t .span then downTrap s f t
    else if !releaseReady s f t .span then s
    else
      let r := collRead s t.partition (readK t a.toNat).toNat
      match r.2 with
      | none => finishWord r.1 f { pends := [tokenValue t tok 0x10], sw := h.sw }
      | some x =>
        if (tfind r.1.colls x.record.key.tag).isSome then finishWord r.1 f { pends := [tokenValue t tok 0x33], sw := h.sw }
        else joinColl (finishWord r.1 f { pends := [tokenPend t tok], sw := h.sw }) f t x

-- ===== a port fails =====

/-- A port goes DOWN (R454): stores on it are lost, other accesses and the collectives routed through it fail, and the
rings are told (R390, R439, R453). -/
def portDown (s : State) (port : Nat) : State :=
  let x := s.port port
  let hit := s.accs.filter fun e => e.2.viaPort s port
  let lost := hit.filter fun e => e.2.kind.isStore
  let s1 := s.setPort port { x with down := true, width := 0, heldUntil := 0 }
  let s2 := hit.foldl (fun s e => loseAccess s e.1 e.2) s1
  let s3 := linkEntry s2 port 0 0 lost.length
  let of := fun (n : Nat) => (lost.filter fun e => e.2.partition == n).length
  let parts := (lost.map fun e => e.2.partition).eraseDups
  let s4 := parts.foldl (fun s n => linkEntry s port 2 n (of n)) s3
  let scheduled := natBit s.fabric.fsched.toNat 0 && decide (x.ver ≥ 3)
  let s5 := if scheduled then parts.foldl (fun s n => linkEntry s port 1 n (of n)) s4 else s4
  let cut := (s5.colls.filter fun e => e.2.members.any fun m => m != s.fabric.fid && routePort s m == port).map (·.1)
  cut.foldl (fun s tag => failOwn s tag 0x32) s5

/-- The meaning of PORT_LANE_FAILURE (R454): the port goes on at 4 lanes, after it has held its traffic for the time of its
retraining, which is free within 40 µs, or DOWN after a second failed retraining. A retraining is logged too; its cause byte is
free, since R390 lists none for it (log 32). -/
def execPortLaneFailure (port : Nat) (recovers : Bool) (s : State) : Host.Outcome State Fault Refusal :=
  .next (
    let x := s.port port
    if x.down then s
    else if recovers then
      let q := drawFree s
      linkChange (q.1.setPort port { x with width := 4, heldUntil := s.cycle + (Config.freeWord q.2).toNat % 32001 }) port
    else portDown s port)

/-- The meaning of FLIT_FORWARD (R453): a flit in transit goes on, or is held. -/
def execFlitForward (flit : Flit) (s : State) : Host.Outcome State Fault Refusal := .next (forwardFlit s flit)

-- ===== remote accesses =====

/-- The partition of this package that has joined a span (R437, R438). -/
def spanPartition (s : State) (span : Nat) : Option Nat :=
  (List.range 8).find? fun n => spanOn s n && (s.partition n).fspan.toNat % 65536 == span

/-- What a remote request needs of its page. -/
def remoteNeed : RemoteKind → Need
  | .load | .prefetch => .read
  | .store | .atomic _ _ => .write

/-- A remote request performed at its home here (R438, R439, R384): the state, a fault code or 0, and the data. -/
def remotePerform (s : State) (n : Nat) (r : RemoteReq) (pa : Nat) : State × Nat × Nat :=
  match r.kind with
  | .load | .prefetch =>
    let q := readBlocks s pa r.size n r.addr
    if q.2 then (q.1, FaultCode.memPoisoned.code, 0) else (q.1, 0, memGet q.1 pa r.size)
  | .store =>
    let q := homeStore s noCluster n pa r.data.toNat r.size r.addr
    (q.1, if q.2 then 0 else FaultCode.memPoisoned.code, 0)
  | .atomic op ty =>
    let q := readBlocks s pa r.size n r.addr
    if q.2 then (q.1, FaultCode.memPoisoned.code, 0)
    else
      let old := BitVec.ofNat 64 (memGet q.1 pa r.size)
      match atomicNew op ty old r.data r.cmp with
      | none => (q.1, 0, old.toNat)
      | some x => (memSet q.1 pa x.toNat r.size, 0, old.toNat)

/-- A scheduled store that is performed after its deadline is told in the ring of its home's partition (R453). -/
def lateStore (s : State) (n : Nat) (r : RemoteReq) : State :=
  if r.due.elim false fun d => decide (d < s.fabric.ns) then linkEntry s (routePort s r.package) 1 n 0 else s

/-- The meaning of REMOTE_REQUEST_ARRIVAL (R438): translated and checked under the partition of its span, performed, and
answered, with the version of a sealed page where the route carries it (R436, R441). -/
def execRemoteRequestArrival (r : RemoteReq) (s : State) : Host.Outcome State Fault Refusal :=
  .next (
    let answer := fun (s : State) (code data ver : Nat) => { s with notices := s.notices ++ [.answer r.package code data ver] }
    match spanPartition s r.span with
    | none => answer s FaultCode.accessDenied.code 0 0
    | some n =>
      let w := walkNow s n r.addr
      match w.2 with
      | none => answer w.1 FaultCode.pageFault.code 0 0
      | some (leaf, bits) =>
        match leafCheck n (remoteNeed r.kind) r.vt leaf bits r.addr with
        | .error c => answer w.1 c.code 0 0
        | .ok pa =>
          let q := remotePerform (lateStore w.1 n r) n r pa
          answer q.1 q.2.1 q.2.2 (if routeVer s r.package ≥ 2 then (Leaf.ofNat leaf).ver else 0))

/-- The lane fault of a code (R376). -/
def FaultCode.ofCode (c : Nat) : FaultCode :=
  match c with
  | 5 => .accessDenied
  | 6 => .spaceMismatch
  | 7 => .sealedStore
  | 11 => .memPoisoned
  | _ => .pageFault

/-- What the answer to a remote access leaves on this package: a load or pref may take its line, a sealed one only over Tarbin
version 2 or higher (R436, R440, R441), and none whose range was dropped meanwhile (R442); and an atomic drops the line that the cluster holds (R340, R440). -/
def takeAnswer (s : State) (a : Acc) (pkg addr ver : Nat) (line : Option Nat) : State :=
  match a.kind, line with
  | .load _, some x | .prefetch, some x =>
    if !a.stale && (ver = 0 || decide (routeVer s pkg ≥ 2)) then
      takeRemote s a.cluster a.partition pkg addr a.va ver a.hint (putBytes [] (toBytes 0 x 256))
    else s
  | .atomic _ _ _ _, _ => l1Drop s a.cluster fun l => l.remote == some pkg && l.line == addr / 256
  | _, _ => s

/-- The meaning of REMOTE_ANSWER_ARRIVAL (R438): the data of a load or atomic, with the line where it may be held, or the
refusal that parks its lane; a refused pref drops its line. A load notes the sealed version that it brings (R227). -/
def execRemoteAnswerArrival (acc data code ver : Nat) (line : Option Nat) (s : State) : Host.Outcome State Fault Refusal :=
  .next (match tfind s.accs acc with
  | none => s
  | some a =>
    match a.place, a.kind with
    | .remote _ _, .store => s
    | .remote pkg addr, kind =>
      if !accMayPerform s acc a then s
      else if code ≠ 0 then settleAccess s acc a (.error (FaultCode.ofCode code))
      else
        let s1 := noteVersion (takeAnswer s a pkg addr ver line) a (if routeVer s pkg ≥ 2 && !a.stale then ver else 0)
        settleAccess s1 acc a (match kind with
          | .load w => loadOut w data
          | .prefetch => .ok none
          | _ => .ok (some (BitVec.ofNat 64 data)))
    | _, _ => s)

/-- The meaning of REMOTE_STORE_ACK (R439): the store is performed, and the lines that the cluster holds take it (R204, R440),
or its refusal parks the lane (R438). -/
def execRemoteStoreAck (acc code : Nat) (s : State) : Host.Outcome State Fault Refusal :=
  .next (match tfind s.accs acc with
  | none => s
  | some a =>
    match a.place, a.kind with
    | .remote pkg addr, .store =>
      if !accMayPerform s acc a then s
      else if code ≠ 0 then settleAccess s acc a (.error (FaultCode.ofCode code))
      else settleAccess (l1StoreAt s a.cluster a.partition (some pkg) (toBytes addr a.data a.size)) acc a (.ok none)
    | _, _ => s)

-- ===== seal =====

/-- The leaf of a virtual address, with its physical address and the size of its page (R315 to R317). -/
def leafPlace (s : State) (va : Nat) : Nat → Nat → Option (Nat × Nat)
  | 0, table => some (table + 8 * natBits va 20 16, 16)
  | l + 1, table =>
    let lo := 21 + 9 * l
    let pa := table + 8 * natBits va (lo + 8) lo
    let e := memGet s pa 8
    if natBit e 1 then some (pa, lo) else leafPlace s va l (natBits e 43 12 * 4096)

/-- The pages of a sealing: the leaf, its place and size, for each 64 KiB of the range; none where one is unmapped. -/
def sealLeaves (s : State) (n base : Nat) (count : Nat) : State × Option (List (Nat × Nat × Nat)) :=
  (List.range count).foldl (fun r i =>
    let va := base + 65536 * i
    let w := walkNow r.1 n va
    match r.2, w.2, leafPlace w.1 va 3 ((s.partition n).proot * 4096) with
    | some l, some (leaf, bits), some (pa, _) => (w.1, some (l ++ [(leaf, pa, bits)]))
    | _, _, _ => (w.1, none)) (s, some [])

/-- Whether a page of 2^bits bytes that holds va lies whole in a range. -/
def pageInside (va bits base len : Nat) : Bool :=
  let lo := va / 2 ^ bits * 2 ^ bits
  decide (base ≤ lo) && decide (lo + 2 ^ bits ≤ base + len)

/-- The status of a seal or open whose pages are these, in the order of R442's table; 0 where it may go on. -/
def sealStatus (s : State) (x : SealOp) (leaves : Option (List (Nat × Nat × Nat))) : Nat :=
  match leaves with
  | none => 0x40
  | some l =>
    let ls := l.map fun e => Leaf.ofNat e.1
    let whole := ((List.range l.length).zip l).all fun e => pageInside (x.base + 65536 * e.1) e.2.2.2 x.base x.len
    if x.base % 65536 ≠ 0 ∨ x.len % 65536 ≠ 0 ∨ x.len = 0 ∨ !whole ∨ ls.any (fun y => !y.x && y.pn != x.partition) then 0x40
    else if (if x.isOpen then x.ver ≠ 0 else x.ver = 0 ∨ x.ver ≤ (s.partition x.partition).fvmark) then 0x41
    else if ls.any fun y => y.sealed != x.isOpen then 0x42
    else if ls.any fun y => y.x then 0x43
    else 0

/-- A leaf sealed at a version, or open (R442). -/
def sealedLeaf (leaf : Nat) (ver : Nat) (isOpen : Bool) : Nat :=
  let bare := leaf - natBits leaf 4 4 * 16 - natBits leaf 59 44 * 2 ^ 44
  if isOpen then bare else bare + 16 + ver * 2 ^ 44

/-- Physical pages, as base and size in bytes, that some leaves name. -/
def leafFrames (l : List (Nat × Nat × Nat)) : List (Nat × Nat) :=
  (l.map fun e => ((Leaf.ofNat e.1).frame * 65536, 2 ^ e.2.2)).eraseDups

/-- Whether a place lies in some physical pages. -/
def inFrames (fs : List (Nat × Nat)) (p : AccPlace) (n : Nat) : Bool :=
  match p with
  | .home pa => fs.any fun f => spansMeet pa n f.1 f.2
  | _ => false

/-- Writes in flight to the pages of a sealing fault after it; those performed before it are no longer in flight (R442). -/
def faultWrites (s : State) (fs : List (Nat × Nat)) : State :=
  (s.accs.filter fun e => e.2.kind.writes && inFrames fs e.2.place e.2.size).foldl
    (fun s e => settleAccess s e.1 e.2 (.error .sealedStore)) s

/-- Whether a per-lane copy to the pages of a sealing is still to write; it is performed before the change. -/
def copyHolds (s : State) (fs : List (Nat × Nat)) : Bool :=
  s.clusters.any fun c => c.2.ops.any fun o => match o.2.kind with
    | .cpy true size lanes => lanes.any fun l => inFrames fs l.place size
    | _ => false

/-- Whether the page of a walk's outcome meets a range. -/
def XlatResult.meets (x : XlatResult) (base len : Nat) : Bool :=
  spansMeet (x.page * 65536 / 2 ^ x.size * 2 ^ x.size) (2 ^ x.size) base len

/-- Every translation of a partition's range that a TLB, a waiting team, a layout slot or an operation holds is dropped (R321). -/
def dropRange (s : State) (n base len : Nat) : State :=
  let s1 := dropTranslations s fun e => e.partition == n && spansMeet (e.page * 2 ^ e.bits) (2 ^ e.bits) base len
  let keep := fun (l : List XlatResult) => l.filter fun x => !x.meets base len
  let team := fun (t : Team) =>
    { t with xlat := keep t.xlat, slots := t.slots.map fun y => (y.1, { y.2 with xlat := keep y.2.xlat }) }
  { s1 with
    teams := s1.teams.map fun e => if e.2.partition == n then (e.1, team e.2) else e
    clusters := s1.clusters.map fun c => (c.1, { c.2 with ops := c.2.ops.map fun o =>
      if o.2.partition == n then (o.1, { o.2 with xlat := keep o.2.xlat }) else o }) }

/-- Loads in flight from another package, of a partition or of every one, whose lines or versions are no longer current: no line of
them is held, and their results take fresh tags (R163, R442). -/
def staleLoads (s : State) (hit : Acc → Bool) (late : VKey → Bool) : State :=
  let pend := fun (p : Pend) =>
    if p.tags.any fun w => w.late.elim false late then { p with vers := (p.vers ++ [0]).eraseDups } else p
  { s with
    accs := s.accs.map fun e => if hit e.2 then (e.1, { e.2 with stale := true }) else e
    teams := s.teams.map fun e => (e.1, { e.2 with pend := e.2.pend.map pend }) }

/-- The entries that carry a sealed version die (R163). -/
def killVersion (s : State) (package ver : Nat) : State := killEverywhere s fun e => e.versions.contains (package, ver)

/-- Some leaves of a sealing change: writes in flight to their pages fault after it (R442). -/
def changeLeaves (s : State) (op : Nat) (x : SealOp) (l : List (Nat × Nat × Nat)) : State :=
  let s1 := l.foldl (fun s e => memSet s e.2.1 (sealedLeaf e.1 x.ver x.isOpen) 8) (faultWrites s (leafFrames l))
  let note := fun (y : SealOp) =>
    { y with done := y.done ++ l.map (·.2.1), opened := (y.opened ++ l.map fun e => (Leaf.ofNat e.1).ver).eraseDups }
  { s1 with seals := tmod s1.seals op note }

/-- The leaves of a sealing that have still to change, once its pages have been checked; the status where they fail. -/
def sealRest (s : State) (x : SealOp) : State × Except Nat (List (Nat × Nat × Nat)) :=
  let r := sealLeaves s x.partition x.base (x.len / 65536)
  let st := if x.done.isEmpty then sealStatus r.1 x r.2 else 0
  (r.1, if st ≠ 0 then .error st else .ok ((r.2.getD []).filter fun e => !x.done.contains e.2.1))

/-- A part of a sealing goes on (R442, R336): one leaf changes, by the choice `pick`. -/
def sealPart (s : State) (op : Nat) (x : SealOp) (pick : Nat) : State :=
  match sealRest s x with
  | (s1, .ok l) =>
    (match l[pick % l.length]? with
     | some e =>
       let same := l.filter fun y => y.2.1 == e.2.1
       if x.told || copyHolds s1 (leafFrames same) then s else changeLeaves s1 op x (same.take 1)
     | none => s)
  | (_, .error _) => s

/-- A sealing has changed every leaf: the mark of a sealing, the translations dropped here, and the versions that an opening
retires told to the other packages, one message each (R442). -/
def tellRange (s : State) (op : Nat) (x : SealOp) : State :=
  let p := s.partition x.partition
  let s1 := if x.isOpen then s else s.setPartition x.partition { p with fvmark := x.ver }
  let s2 := dropRange s1 x.partition x.base x.len
  let vs := if x.isOpen then (tfind s.seals op).elim [] (·.opened) else [x.ver]
  let s3 := if x.isOpen then vs.foldl (fun s v => killVersion s s.fabric.fid v) s2 else s2
  { s3 with notices := s3.notices ++ vs.map fun v => .rangeDrop x.base x.len v
            seals := tmod s3.seals op fun y => { y with told := true } }

/-- The meaning of SEAL_COMPLETION (R442): the pages are checked, and those still to change do; their translations are dropped here
and told to the other packages; and the token is written later, when every one of these has dropped them. -/
def execSealCompletion (op : Nat) (s : State) : Host.Outcome State Fault Refusal :=
  .next (match tfind s.seals op with
  | none => s
  | some x =>
    let gone := fun (s : State) => { s with seals := tdel s.seals op }
    if x.told then landToken (gone s) x.team x.issue (x.len * 256)
    else
      match sealRest s x with
      | (s1, .error st) => landToken (gone s1) x.team x.issue st
      | (s1, .ok l) => if copyHolds s1 (leafFrames l) then s else tellRange (changeLeaves s1 op x l) op x)

/-- A seal or open word (R442): it waits, unissued, for its .sys release; its token is written when it completes. -/
def sealWord (h : Hdr) (tok a b : BitVec 6) (isOpen : Bool) (s : State) (f : Nat) (t : Team) : State :=
  if releaseDown t .sys then downTrap s f t
  else if !releaseReady s f t .sys then s
  else
    let w := (readK t b.toNat).toNat
    let x : SealOp := { team := f, issue := t.issues, partition := t.partition, base := (readK t a.toNat).toNat, len := natBits w 47 0,
                        ver := natBits w 63 48, isOpen }
    let s1 := finishWord s f { pends := [tokenPend t tok], sw := h.sw }
    { s1 with seals := tput s1.seals s1.seq x, seq := s1.seq + 1 }

/-- The meaning of seal.seal (R442). -/
def execSeal (h : Hdr) (tok a b : BitVec 6) (s : State) : Host.Outcome State Fault Refusal := forTeam s (sealWord h tok a b false s)

/-- The meaning of seal.open (R442). -/
def execSealOpen (h : Hdr) (tok a b : BitVec 6) (s : State) : Host.Outcome State Fault Refusal := forTeam s (sealWord h tok a b true s)

/-- The meaning of FABRIC_RANGE_DROP (R442): another package has sealed, opened or reset a range; this one drops the lines and the
translations that it holds of it and the entries derived from it, and what is on its way from there is not held. -/
def execFabricRangeDrop (package base len version : Nat) (s : State) : Host.Outcome State Fault Refusal :=
  .next (
    let s1 := l1DropAll s fun l => l.remote == some package && l.ver != 0 && spansMeet (l.line * 256) 256 base len
    let s2 := { s1 with
      llc := s1.llc.filter fun l => !(l.remote == some package && spansMeet (l.line * 256) 256 base len)
      fabric := { s1.fabric with seen := s1.fabric.seen.filter fun x =>
        !(x.package == package && spansMeet (x.page * 65536) 65536 base len) } }
    let hit := fun (a : Acc) => match a.place with
      | .remote pkg addr => pkg == package && spansMeet addr a.size base len
      | _ => false
    killVersion (staleLoads s2 hit fun k => k.pkg == some package) package version)

end Sys2Proof.Machine
end

