-- ==== Sys2Proof/Machine/Slh.lean ====
section
/-! DEFINITION. SLH-DSA-SHAKE-256s, which signs firmware, identity and attestation (R2, R423, R424). PRESUMED: the spec names the
function and its sizes; its definition is that of FIPS 205, whose names these definitions keep, with an empty context string
(log 40). -/

namespace Sys2Proof.Machine

/-- A string of bytes, first byte first. -/
abbrev Bytes := List Byte

/-- The number that bytes give, lowest first. -/
def bytesNat : Bytes → Nat
  | [] => 0
  | b :: r => b.toNat + 256 * bytesNat r

/-- n bytes of a number, lowest first. -/
def natBytes : Nat → Nat → Bytes
  | 0, _ => []
  | n + 1, x => BitVec.ofNat 8 x :: natBytes n (x / 256)

/-- toByte: n bytes of a number, highest first. -/
def toByteBE (x n : Nat) : Bytes := (natBytes n x).reverse

/-- toInt: the number that bytes give, highest first. -/
def toIntBE (b : Bytes) : Nat := bytesNat b.reverse

/-- The first n bytes of SHAKE256 of a string, n at most 136. -/
def shakeBytes (n : Nat) (m : Bytes) : Bytes := (natBytes 136 (shakeOut 17 m.length (bytesNat m))).take n

-- ===== the parameter set: n 32, h 64, d 8, h' 8, a 14, k 22, lg w 4, m 47 =====

/-- The kinds of an address. -/
inductive AdrsType where
  | wotsHash | wotsPk | tree | forsTree | forsRoots | wotsPrf | forsPrf
deriving DecidableEq, Repr

/-- The number of a kind. -/
def AdrsType.code : AdrsType → Nat
  | .wotsHash => 0 | .wotsPk => 1 | .tree => 2 | .forsTree => 3 | .forsRoots => 4 | .wotsPrf => 5 | .forsPrf => 6

/-- An address: the layer, the tree, the kind, and three words, whose meaning the kind sets: the key pair, the chain or the tree
height, and the hash or the tree index. -/
structure Adrs where
  layer : Nat
  tree : Nat
  type : AdrsType := .wotsHash
  pair : Nat := 0
  mid : Nat := 0
  last : Nat := 0
deriving DecidableEq, Repr

/-- An address's 32 bytes. -/
def Adrs.bytes (x : Adrs) : Bytes :=
  toByteBE x.layer 4 ++ toByteBE x.tree 12 ++ toByteBE x.type.code 4 ++ toByteBE x.pair 4 ++ toByteBE x.mid 4 ++ toByteBE x.last 4

/-- F, H and T_l: 32 bytes of the public seed, an address and a message. -/
def slhHash (pkSeed : Bytes) (x : Adrs) (m : Bytes) : Bytes := shakeBytes 32 (pkSeed ++ x.bytes ++ m)

/-- base_2^b of a string: its first c digits of b bits, highest first. -/
def baseDigits (m : Bytes) (b c : Nat) : List Nat :=
  (List.range c).map fun i => toIntBE m / 2 ^ (8 * m.length - b * (i + 1)) % 2 ^ b

/-- A key as secrets and public seed. -/
structure SlhSeeds where
  skSeed : Bytes
  skPrf : Bytes
  pkSeed : Bytes
deriving DecidableEq, Repr

/-- A public key: its 64 bytes are the seed and the root. -/
structure SlhPublic where
  seed : Bytes
  root : Bytes
deriving DecidableEq, Repr

-- ===== WOTS+ =====

/-- chain: s steps from step i on. -/
def wotsChain (pkSeed : Bytes) (x : Adrs) (m : Bytes) (i : Nat) : Nat → Bytes
  | 0 => m
  | s + 1 => slhHash pkSeed { x with last := i + s } (wotsChain pkSeed x m i s)

/-- The 67 digits that a chain of a message's signature takes: 64 of the message, 3 of its checksum. -/
def wotsDigits (m : Bytes) : List Nat :=
  let msg := baseDigits m 4 64
  msg ++ baseDigits (toByteBE ((msg.map (15 - ·)).sum * 16) 2) 4 3

/-- The secret value of chain i of a key pair. -/
def wotsSecret (k : SlhSeeds) (x : Adrs) (i : Nat) : Bytes :=
  slhHash k.pkSeed { x with type := .wotsPrf, mid := i, last := 0 } k.skSeed

/-- The public key of a key pair from the ends of its chains. -/
def wotsPk (pkSeed : Bytes) (x : Adrs) (ends : List Bytes) : Bytes :=
  slhHash pkSeed { x with type := .wotsPk, mid := 0, last := 0 } ends.flatten

/-- The address of chain i of a key pair. -/
def Adrs.chain (x : Adrs) (i : Nat) : Adrs := { x with type := .wotsHash, mid := i, last := 0 }

/-- wots_pkGen. -/
def wotsPkGen (k : SlhSeeds) (x : Adrs) : Bytes :=
  wotsPk k.pkSeed x ((List.range 67).map fun i => wotsChain k.pkSeed (x.chain i) (wotsSecret k x i) 0 15)

/-- wots_sign. -/
def wotsSign (k : SlhSeeds) (x : Adrs) (m : Bytes) : List Bytes :=
  let ds := wotsDigits m
  (List.range 67).map fun i => wotsChain k.pkSeed (x.chain i) (wotsSecret k x i) 0 (ds.getD i 0)

/-- wots_pkFromSig. -/
def wotsPkFromSig (pkSeed : Bytes) (x : Adrs) (sig : List Bytes) (m : Bytes) : Bytes :=
  let ds := wotsDigits m
  wotsPk pkSeed x ((List.range 67).map fun i =>
    wotsChain pkSeed (x.chain i) (sig.getD i []) (ds.getD i 0) (15 - ds.getD i 0))

-- ===== XMSS and the hypertree =====

/-- The address of a node of an XMSS tree. -/
def Adrs.node (x : Adrs) (height index : Nat) : Adrs := { x with type := .tree, pair := 0, mid := height, last := index }

/-- xmss_node: node i at height z. -/
def xmssNode (k : SlhSeeds) (x : Adrs) (i : Nat) : Nat → Bytes
  | 0 => wotsPkGen k { x with type := .wotsHash, pair := i }
  | z + 1 => slhHash k.pkSeed (x.node (z + 1) i) (xmssNode k x (2 * i) z ++ xmssNode k x (2 * i + 1) z)

/-- The other child beside a node, by the node's number. -/
def sibling (i : Nat) : Nat := if i % 2 = 0 then i + 1 else i - 1

/-- xmss_sign: the WOTS+ signature by a leaf and its authentication path. -/
def xmssSign (k : SlhSeeds) (x : Adrs) (m : Bytes) (leaf : Nat) : List Bytes × List Bytes :=
  (wotsSign k { x with pair := leaf } m, (List.range 8).map fun j => xmssNode k x (sibling (leaf / 2 ^ j)) j)

/-- The root that a leaf and an authentication path give: one step for each node of the path. -/
def climb (pkSeed : Bytes) (at_ : Nat → Nat → Adrs) (index : Nat) (leaf : Bytes) (path : List Bytes) : Bytes :=
  ((List.range path.length).zip path).foldl (fun node e =>
    slhHash pkSeed (at_ (e.1 + 1) (index / 2 ^ (e.1 + 1)))
      (if index / 2 ^ e.1 % 2 = 0 then node ++ e.2 else e.2 ++ node)) leaf

/-- xmss_pkFromSig. -/
def xmssPkFromSig (pkSeed : Bytes) (x : Adrs) (leaf : Nat) (sig : List Bytes × List Bytes) (m : Bytes) : Bytes :=
  climb pkSeed x.node leaf (wotsPkFromSig pkSeed { x with pair := leaf } sig.1 m) sig.2

/-- The tree and the leaf of a layer that sign below a tree and a leaf of layer 0. -/
def layerPlace (tree leaf : Nat) : Nat → Nat × Nat
  | 0 => (tree, leaf)
  | j + 1 => ((layerPlace tree leaf j).1 / 256, (layerPlace tree leaf j).1 % 256)

/-- ht_sign: the XMSS signatures of the 8 layers, and the root that the last one signs under. -/
def htSign (k : SlhSeeds) (m : Bytes) (tree leaf : Nat) : List (List Bytes × List Bytes) :=
  ((List.range 8).foldl (fun (r : List (List Bytes × List Bytes) × Bytes) j =>
    let p := layerPlace tree leaf j
    let x : Adrs := { layer := j, tree := p.1 }
    let sig := xmssSign k x r.2 p.2
    (r.1 ++ [sig], xmssPkFromSig k.pkSeed x p.2 sig r.2)) ([], m)).1

/-- The root that the hypertree signatures of a message lead to. -/
def htRoot (pkSeed m : Bytes) (sigs : List (List Bytes × List Bytes)) (tree leaf : Nat) : Bytes :=
  ((List.range 8).zip sigs).foldl (fun node e =>
    let p := layerPlace tree leaf e.1
    xmssPkFromSig pkSeed { layer := e.1, tree := p.1 } p.2 e.2 node) m

-- ===== FORS =====

/-- The address of a node of the FORS trees of a key pair. -/
def Adrs.fors (x : Adrs) (height index : Nat) : Adrs := { x with type := .forsTree, mid := height, last := index }

/-- fors_skGen. -/
def forsSecret (k : SlhSeeds) (x : Adrs) (i : Nat) : Bytes :=
  slhHash k.pkSeed { x with type := .forsPrf, mid := 0, last := i } k.skSeed

/-- fors_node: node i at height z. -/
def forsNode (k : SlhSeeds) (x : Adrs) (i : Nat) : Nat → Bytes
  | 0 => slhHash k.pkSeed (x.fors 0 i) (forsSecret k x i)
  | z + 1 => slhHash k.pkSeed (x.fors (z + 1) i) (forsNode k x (2 * i) z ++ forsNode k x (2 * i + 1) z)

/-- fors_sign: for each of 22 trees a secret and its authentication path. -/
def forsSign (k : SlhSeeds) (x : Adrs) (md : Bytes) : List (Bytes × List Bytes) :=
  let ds := baseDigits md 14 22
  (List.range 22).map fun t =>
    let i := ds.getD t 0
    (forsSecret k x (t * 2 ^ 14 + i), (List.range 14).map fun j => forsNode k x (t * 2 ^ (14 - j) + sibling (i / 2 ^ j)) j)

/-- fors_pkFromSig. -/
def forsPkFromSig (pkSeed : Bytes) (x : Adrs) (sig : List (Bytes × List Bytes)) (md : Bytes) : Bytes :=
  let ds := baseDigits md 14 22
  let roots := (List.range 22).map fun t =>
    let i := t * 2 ^ 14 + ds.getD t 0
    let e := sig.getD t ([], [])
    climb pkSeed x.fors i (slhHash pkSeed (x.fors 0 i) e.1) e.2
  slhHash pkSeed { x with type := .forsRoots, mid := 0, last := 0 } roots.flatten

-- ===== keys, signatures, verification =====

/-- slh_keygen: the public key of some seeds. -/
def slhPublic (k : SlhSeeds) : SlhPublic := ⟨k.pkSeed, xmssNode k { layer := 7, tree := 0 } 0 8⟩

/-- What H_msg of a message gives: the FORS digest, the tree and the leaf. -/
def slhDigest (pk : SlhPublic) (r m : Bytes) : Bytes × Nat × Nat :=
  let d := shakeBytes 47 (r ++ pk.seed ++ pk.root ++ m)
  (d.take 39, toIntBE ((d.drop 39).take 7), toIntBE (d.drop 46))

/-- The message that the pure form signs: no pre-hash, an empty context. -/
def slhMessage (m : Bytes) : Bytes := [0, 0] ++ m

/-- The address of the FORS key pair of a tree and a leaf. -/
def forsAdrs (tree leaf : Nat) : Adrs := { layer := 0, tree, type := .forsTree, pair := leaf }

/-- A signature's bytes, 29 792 of them. -/
def slhPack (r : Bytes) (fors : List (Bytes × List Bytes)) (ht : List (List Bytes × List Bytes)) : Bytes :=
  r ++ (fors.flatMap fun e => e.1 ++ e.2.flatten) ++ ht.flatMap fun e => e.1.flatten ++ e.2.flatten

/-- slh_sign, with 32 random bytes. -/
def slhSign (k : SlhSeeds) (random m : Bytes) : Bytes :=
  let pk := slhPublic k
  let m' := slhMessage m
  let r := shakeBytes 32 (k.skPrf ++ random ++ m')
  let d := slhDigest pk r m'
  let x := forsAdrs d.2.1 d.2.2
  let fors := forsSign k x d.1
  slhPack r fors (htSign k (forsPkFromSig k.pkSeed x fors d.1) d.2.1 d.2.2)

/-- Values of 32 bytes from byte i of a string on. -/
def chunks (b : Bytes) (i c : Nat) : List Bytes := (List.range c).map fun j => (b.drop (i + 32 * j)).take 32

/-- slh_verify. -/
def slhVerify (pk : SlhPublic) (m sig : Bytes) : Bool :=
  let m' := slhMessage m
  let d := slhDigest pk (sig.take 32) m'
  let fors := (List.range 22).map fun t => ((sig.drop (32 + 480 * t)).take 32, chunks sig (64 + 480 * t) 14)
  let ht := (List.range 8).map fun j => (chunks sig (10592 + 2400 * j) 67, chunks sig (12736 + 2400 * j) 8)
  let x := forsAdrs d.2.1 d.2.2
  sig.length == 29792 && htRoot pk.seed (forsPkFromSig pk.seed x fors d.1) ht d.2.1 d.2.2 == pk.root

end Sys2Proof.Machine
end

