-- ==== Sys2Proof/Machine/Package.lean ====
section
/-! DEFINITION. The package: supervisor registers and pctl (R396 to R409), quotas (R397 to R400), pre-emption (R401 to
R404), watchdogs (R405, R430), resets (R406, R407), page retirement and scrubs (R385, R386), the host (R394, R395), power
(R415 to R422), and Bexile and bring-up (R423 to R428). -/

namespace Sys2Proof.Machine

/-- A number laid out as (bit offset, value) fields. -/
def packBits (l : List (Nat × Nat)) : Nat := l.foldl (fun x e => x + e.2 * 2 ^ e.1) 0

-- ===== reading a supervisor register =====

/-- qcfg (R357). -/
def qcfgWord (s : State) (q : Nat) : Nat :=
  let x := s.queue q
  packBits [(16, min (occupied s q) 255), (8, x.depth), (4, x.pn), (1, x.pri), (0, bit1 x.en)]

/-- errc (R383). -/
def errcWord (s : State) (d : Nat) : Nat :=
  let e := tget s.errs d {}
  packBits [(40, e.corr), (20, e.trans), (0, e.last)]

/-- pcore (R397). -/
def pcoreWord (q : Quota) : Nat := packBits [(16, q.rowcnt), (8, q.rowbase), (4, q.slotcnt), (0, q.slotbase)]

/-- pclus (R397). -/
def pclusWord (q : Quota) : Nat :=
  packBits [(48, bit1 q.acc), (44, q.l1cnt), (41, q.l1base), (34, q.sbcnt), (28, q.sbbase), (14, q.spcnt), (0, q.spbase)]

/-- pdom (R397). -/
def pdomWord (q : Quota) : Nat := packBits [(16, q.dies.toNat), (4, q.wcnt), (0, q.wbase)]

/-- pstate (R409). -/
def pstateWord (s : State) (n : Nat) : Nat :=
  packBits [(32, residentBlocks s n), (8, bit1 (s.partition n).pendingQuota.isSome), (0, partitionState s n)]

/-- The launch that a queue's watchdog times: the oldest that has a block placed (R405). -/
def watched (s : State) (q : Nat) : Option Launch := (queueLaunches s q).find? fun l => l.nextBlock != 0

/-- wdt (R405). -/
def wdtWord (s : State) (q : Nat) : Nat :=
  packBits [(32, (watched s q).elim 0 fun l => l.running / 800), (0, (s.queue q).wdtLimit)]

/-- The supervisor cap as read (R415). -/
def capRead (scap : Nat) : Nat := if scap ≠ 0 ∧ scap < 600 then 600 else scap

/-- The security state (R415, R426). -/
def securityState (s : State) : Nat := s.bexile.sec.getD (Config.fuses.1 % 4)

/-- A power register (R415). -/
def powerWord (s : State) (r : Nat) : Nat :=
  let p := s.power
  match r with
  | 0 => p.slew
  | 1 => packBits [(24, p.td), (8, p.tw), (0, p.wsz)]
  | 2 => packBits [(16, p.mcap), (0, capRead p.scap)]
  | 3 => packBits [(11, bit1 p.capd), (8, p.cur), (0, p.req)]
  | 4 => packBits [(8, Config.fuses.2 % 256), (0, securityState s)]
  | _ => if 8 ≤ r then tget p.rot (r - 8) 0 else 0

/-- tport (R437). -/
def tportWord (x : Port) : Nat :=
  packBits [(48, x.retries), (40, x.peer), (32, x.pport), (24, x.width), (16, x.ver), (1, bit1 x.down), (0, bit1 x.en)]

/-- fwin (R437). -/
def fwinWord (w : FWin) : Nat :=
  packBits [(63, bit1 w.en), (55, w.pkg), (36, w.rbase / 2 ^ 30), (18, w.lbase / 2 ^ 30), (10, w.size / 2 ^ 30)]

/-- A fabric register (R437). -/
def fabricWord (s : State) (r : Nat) : Nat :=
  let x := s.fabric
  if r < 0x20 then tportWord (s.port r)
  else if r = 0x20 then x.fid
  else if r = 0x21 then x.ftime.toNat + x.offset * 2 ^ 32 + bit1 x.lock
  else if r = 0x22 then x.fsched.toNat
  else if r = 0x23 then x.fpod.toNat
  else if r < 0x28 then 0
  else if r < 0x30 then (s.partition (r - 0x28)).fspan.toNat
  else if r < 0x38 then (s.partition (r - 0x30)).fvmark
  else if r < 0x40 then 0
  else if r < 0x80 then fwinWord (tget (s.partition ((r - 0x40) / 8)).fwins (r % 8) {})
  else if r < 0xA0 then (tget x.froute (r - 0x80) 0).toNat
  else 0

/-- A supervisor register by its number; 0 for an unassigned one (R408, R409). -/
def supRead (s : State) (r : Nat) : Nat :=
  if r < 0x40 then qcfgWord s r
  else if r < 0x48 then (s.partition (r - 0x40)).fltb
  else if r < 0x54 then errcWord s (r - 0x48)
  else if r < 0x60 then 0
  else if r < 0x68 then (s.partition (r - 0x60)).elogb.toNat
  else if r < 0x70 then (s.partition (r - 0x68)).elogLost * 2 ^ 32 + (s.partition (r - 0x68)).elogHead
  else if r < 0x78 then (s.partition (r - 0x70)).elogTail
  else if r < 0x80 then 0
  else if r < 0x88 then (s.partition (r - 0x80)).proot * 4096
  else if r < 0x90 then pcoreWord (s.partition (r - 0x88)).quota
  else if r < 0x98 then pclusWord (s.partition (r - 0x90)).quota
  else if r < 0xA0 then pdomWord (s.partition (r - 0x98)).quota
  else if r = 0xA0 then packBits [(4, s.shrWcnt), (0, s.shrWbase)]
  else if r < 0xA8 then 0
  else if r < 0xB0 then (s.partition (r - 0xA8)).psave.toNat
  else if r < 0xB8 then pstateWord s (r - 0xB0)
  else if r < 0xC0 then 0
  else if r < 0xD0 then (tget s.hostLink.vfmap (r - 0xC0) 0).toNat
  else if r = 0xD0 then 0x010301020101
  else if r = 0xD1 then s.hostLink.ifneg.toNat
  else if r < 0x100 then 0
  else if r < 0x140 then wdtWord s (r - 0x100)
  else if r = 0x140 then s.wdrec.toNat
  else if r < 0x200 then 0
  else if r < 0x210 then powerWord s (r - 0x200)
  else if r < 0x300 then 0
  else if r < 0x400 then fabricWord s (r - 0x300)
  else 0

-- ===== writes with a behaviour of their own =====

/-- A write of qcfg: PRI at once; PN, DEPTH and EN wait while the queue is occupied (R357). -/
def writeQcfg (s : State) (q : Nat) (v : Word) : State × Nat :=
  let x := s.queue q
  let y := x.configure v
  if occupied s q = 0 then (s.setQueue q y, 0)
  else if y.pn = x.pn ∧ y.depth = x.depth ∧ y.en = x.en then (s.setQueue q { x with pri := y.pri, pendingWrite := none }, 0)
  else (s.setQueue q { x with pri := y.pri, pendingWrite := some v }, 1)

/-- Two ranges, given by base and count, share an element. -/
def rangesMeet (a n b m : Nat) : Bool := n != 0 && m != 0 && spansMeet a n b m

/-- Whether each range of a quota lies within its resource (R398). -/
def quotaFits (q : Quota) : Bool :=
  decide (q.rowbase + q.rowcnt ≤ 32) && decide (q.slotbase + q.slotcnt ≤ 8) && decide (q.l1base + q.l1cnt ≤ 8) &&
  decide (q.sbbase + q.sbcnt ≤ 64) && decide (q.spbase + q.spcnt ≤ 12288) && decide (q.wbase + q.wcnt ≤ 16)

/-- Whether two partitions' quotas may stand together (R398). -/
def quotasAgree (a b : Quota) : Bool :=
  let share := a.dies &&& b.dies != 0
  !(share && (rangesMeet a.rowbase a.rowcnt b.rowbase b.rowcnt || rangesMeet a.slotbase a.slotcnt b.slotbase b.slotcnt ||
     rangesMeet a.l1base a.l1cnt b.l1base b.l1cnt || rangesMeet a.sbbase a.sbcnt b.sbbase b.sbcnt ||
     rangesMeet a.spbase a.spcnt b.spbase b.spcnt || (a.acc && b.acc))) &&
  !rangesMeet a.wbase a.wcnt b.wbase b.wcnt

/-- Whether the quotas are consistent when partition n holds q (R398). Those of a partition with a pending change must
agree both before and after it (DEDUCED, log 52). -/
def consistent (s : State) (n : Nat) (q : Quota) : Bool :=
  quotaFits q && !rangesMeet q.wbase q.wcnt s.shrWbase s.shrWcnt &&
  (List.range 8).all fun m => m == n || (quotasAgree q (s.partition m).quota && (s.partition m).pendingQuota.all fun p => quotasAgree q p)

/-- The rows that the warps of a block's teams map. -/
def blockRows (s : State) (b : Block) : List (Nat × Nat) :=
  b.teams.flatMap fun f => match tfind s.teams f with
    | some t => (t.vmap.map (·.2) ++ t.pend.flatMap fun p => p.tags.map (·.row)).map fun r => (f, r)
    | none => []

/-- Whether x lies in a range that begins at b and holds n. -/
def inRange (x b n : Nat) : Bool := decide (b ≤ x) && decide (x < b + n)

/-- Whether an operation of a block holds a scoreboard entry that a new quota removes (R400). -/
def holdsEntry (s : State) (n : Nat) (q : Quota) (e : Nat × Block) : Bool :=
  let old := (s.partition n).quota
  let c := s.cluster e.2.cluster
  c.entries.any fun y => inRange y.2.index old.sbbase old.sbcnt && !inRange y.2.index q.sbbase q.sbcnt &&
    (tfind c.ops y.1).elim false fun x => x.block == e.1

/-- Whether a block, resident or saved, holds a resource of its partition that a new quota removes (R400). -/
def blockHolds (s : State) (n : Nat) (q : Quota) (e : Nat × Block) : Bool :=
  let b := e.2
  b.teams.any (fun f => !inRange (f % 8) q.slotbase q.slotcnt) ||
  (blockRows s b).any (fun r => !inRange r.2 (32 * q.rowbase) (32 * q.rowcnt)) ||
  holdsEntry s n q e ||
  (b.rows != 0 && !(inRange b.base q.spbase q.spcnt && decide (b.base + b.rows ≤ q.spbase + q.spcnt))) ||
  !q.dies.getLsbD (b.cluster / 64) ||
  b.teams.any fun f => decide (rowsReserved s n (coreOf f) > 32 * q.rowcnt)

/-- Whether some block holds a resource that partition n's new quota removes (R400). -/
def holdsRemoved (s : State) (n : Nat) (q : Quota) : Bool := s.blocks.any fun e => e.2.partition == n && blockHolds s n q e

/-- The ways of a range, given by base and count, that lie outside another. -/
def waysLost (base cnt base' cnt' : Nat) : List Nat := ((List.range cnt).map (base + ·)).filter fun w => !inRange w base' cnt'

/-- The LLC ways that a new quota removes (R400). -/
def Quota.llcLost (old q : Quota) : List Nat := waysLost old.wbase old.wcnt q.wbase q.wcnt

/-- Whether a line stands in some ways of an owner. -/
def LlcLine.inWays (l : LlcLine) (owner : Nat) (ways : List Nat) : Bool := l.owner == owner && ways.contains l.way

/-- The lines in some ways of an owner go home and are dropped (R400). Home memory holds their bytes already. -/
def llcLose (s : State) (owner : Nat) (ways : List Nat) : State := { s with llc := s.llc.filter fun l => !l.inWays owner ways }

/-- The L1 lines of a partition in the ways, and on the dies, that a new quota removes are invalidated (R400). -/
def l1Lose (s : State) (n : Nat) (q : Quota) : State :=
  let old := (s.partition n).quota
  let ways := waysLost old.l1base old.l1cnt q.l1base q.l1cnt
  (s.clusters.map (·.1)).foldl (fun s cl =>
    l1Drop s cl fun l => l.partition == n && (ways.contains l.way || !q.dies.getLsbD (cl / 64))) s

/-- The tag-table entries of a partition outside a new quota's sets, rows and dies die: the sets follow the row range (R397). -/
def tagsLose (s : State) (n : Nat) (q : Quota) : State :=
  (s.cores.map (·.1)).foldl (fun s core => s.setCore core (killEntries (s.core core) fun i e =>
    e.key.partition == n && !(inRange (i / 4) (16 * q.rowbase) (16 * q.rowcnt) && inRange e.row (32 * q.rowbase) (32 * q.rowcnt) &&
      q.dies.getLsbD (core / 384)))) s

/-- A quota takes effect (R400): dirty lines of removed LLC ways go home, and removed LLC and L1 lines and tag-table entries go. -/
def applyQuota (s : State) (n : Nat) (q : Quota) : State :=
  let s1 := tagsLose (l1Lose (llcLose s n ((s.partition n).quota.llcLost q)) n q) n q
  s1.setPartition n { s1.partition n with quota := q, pendingQuota := none }

/-- A consistent quota change of a partition: at once, or deferred where a block holds a removed resource or a removed LLC way holds
a dirty line (R400). -/
def changeQuota (s : State) (n : Nat) (q : Quota) : State × Nat :=
  let p := s.partition n
  if p.pendingQuota.isSome then (s, 0x04)
  else if !consistent s n q then (s, 0x03)
  else
    let dirty := s.llc.any fun l => l.dirty && l.inWays n (p.quota.llcLost q)
    if holdsRemoved s n q || dirty then (s.setPartition n { p with pendingQuota := some q }, 0x01)
    else (applyQuota s n q, 0x00)

/-- A write of pcore, pclus, pdom or pshr (R397 to R400). -/
def writeQuota (s : State) (r : Nat) (v : Word) : State × Nat :=
  let w := v.toNat
  let n := r % 8
  let q := (s.partition n).quota
  if r = 0xA0 then
    let cnt := natBits w 8 4
    let base := natBits w 3 0
    let free := fun (q : Quota) => !rangesMeet base cnt q.wbase q.wcnt
    let ok := decide (base + cnt ≤ 16) && (List.range 8).all fun m =>
      free (s.partition m).quota && (s.partition m).pendingQuota.all free
    if ok then ({ llcLose s 8 (waysLost s.shrWbase s.shrWcnt base cnt) with shrWcnt := cnt, shrWbase := base }, 0)
    else (s, 0x03)
  else if r < 0x90 then
    changeQuota s n { q with rowcnt := natBits w 21 16, rowbase := natBits w 12 8, slotcnt := natBits w 7 4, slotbase := natBits w 2 0 }
  else if r < 0x98 then
    changeQuota s n { q with acc := natBit w 48, l1cnt := natBits w 47 44, l1base := natBits w 43 41, sbcnt := natBits w 40 34,
                             sbbase := natBits w 33 28, spcnt := natBits w 27 14, spbase := natBits w 13 0 }
  else changeQuota s n { q with dies := BitVec.ofNat 12 (natBits w 27 16), wcnt := natBits w 8 4, wbase := natBits w 3 0 }

/-- A write of ifneg: a field outside the supported range stays, the others are written, and the status is 0x03 (R396). -/
def writeIfneg (s : State) (v : Word) : State × Nat :=
  let w := v.toNat
  let old := s.hostLink.ifneg.toNat
  let field := fun (lo top : Nat) =>
    let x := natBits w (lo + 7) lo
    if 1 ≤ x ∧ x ≤ top then (x, true) else (natBits old (lo + 7) lo, false)
  let sup := field 16 2
  let lay := field 8 1
  let lrec := field 0 1
  let new := packBits [(24, natBits old 31 24), (16, sup.1), (8, lay.1), (0, lrec.1)]
  ({ s with hostLink := { s.hostLink with ifneg := BitVec.ofNat 64 new } }, if sup.2 && lay.2 && lrec.2 then 0 else 0x03)

/-- A write of pwcap: only scap can be written (R415, R421). -/
def writePwcap (s : State) (v : Word) : State × Nat :=
  ({ s with power := { s.power with scap := v.toNat % 65536 } }, 0)

/-- Whether the word that follows a team's is an exit. -/
def nextIsExit (s : State) (t : Team) : Bool :=
  match (vaRead s t.partition (t.pc + 8) 8).2 with
  | none => false
  | some w =>
    match decode (BitVec.ofNat 64 w) with
    | .ok (.exit _) => true
    | _ => false

/-- Whether retention may be requested: every other partition is idle or pre-empted and the word that follows is the exit
that ends partition 0's last team (R422). -/
def retentionOk (s : State) (f : Nat) (t : Team) : Bool :=
  othersAsleep s && nextIsExit s t &&
  !(s.teams.any fun e => e.2.partition == 0 && e.1 != f)

/-- The clusters that hold a block start again at the limiter's first notch, since the controller steps them up (R416).
DEDUCED: log 83. -/
def stepUpAll (s : State) : State :=
  (s.blocks.map fun e => e.2.cluster).eraseDups.foldl (fun s cl => s.setCluster cl { s.cluster cl with ctlNotch := 5 }) s

/-- A write of pwstate.req by a team (R415, R422). Retention is entered after partition 0's exit. A state with faster floors
is entered under the slew limit (R416). -/
def writePwstate (s : State) (f : Nat) (t : Team) (v : Word) : State × Nat :=
  let req := v.toNat % 8
  if req > 3 then (s, 0x03)
  else if req = 3 then (if retentionOk s f t then ({ s with power := { s.power with req := 3 } }, 0) else (s, 0x06))
  else
    let s1 := if s.power.cur == 1 && req != 1 then stepUpAll s else s
    ({ s1 with power := { s1.power with req, cur := req } }, 0)

/-- The window of a register value (R437). -/
def FWin.ofNat (w : Nat) : FWin :=
  { en := natBit w 63, pkg := natBits w 62 55, rbase := natBits w 53 36 * 2 ^ 30, lbase := natBits w 35 18 * 2 ^ 30,
    size := natBits w 17 10 * 2 ^ 30 }

/-- A write of fwin m: a size of 0, or an enabled window that overlaps another of the partition, changes nothing; entries with a
version sealed elsewhere die, those of loads in flight among them, and translations of the window's pages go (R437, R163, R441). -/
def writeFwin (s : State) (m : Nat) (v : Word) : State × Nat :=
  let n := m / 8
  let p := s.partition n
  let w := FWin.ofNat v.toNat
  let clash := p.fwins.any fun e => e.1 != m % 8 && e.2.en && rangesMeet w.lbase w.size e.2.lbase e.2.size
  if w.size == 0 || (w.en && clash) then (s, 0x03)
  else
    let s1 := s.setPartition n { p with fwins := tset p.fwins (m % 8) w {} }
    let s2 := { s1 with fabric := { s1.fabric with seen := s1.fabric.seen.filter fun x => !(x.partition == n && x.win == m % 8) } }
    let s3 := staleLoads s2 (fun a => a.partition == n && a.place.isRemote) fun k => k.partition == n && k.pkg.isSome
    (killEverywhere s3 fun e => e.key.partition == n && e.versions.any fun x => x.1 != s.fabric.fid, 0)

-- ===== plain writes =====

/-- A partition changed. -/
def State.modPartition (s : State) (n : Nat) (g : Partition → Partition) : State := s.setPartition n (g (s.partition n))

/-- A write of pwslew or pwhoist: a field outside its range stays (R415). -/
def writePower (s : State) (r w : Nat) : State × Nat :=
  let p := s.power
  if r = 0 then
    let x := natBits w 8 0
    if 1 ≤ x ∧ x ≤ 400 then ({ s with power := { p with slew := x } }, 0) else (s, 0x03)
  else
    let ok := decide (natBits w 2 0 ≤ 6)
    ({ s with power := { p with td := natBits w 39 24, tw := natBits w 23 8, wsz := if ok then natBits w 2 0 else p.wsz } },
     if ok then 0 else 0x03)

/-- A write of a fabric register other than fwin (R437). -/
def writeFabric (s : State) (r w : Nat) : State × Nat :=
  let x := s.fabric
  let bits := fun (hi lo : Nat) => natBits w hi lo * 2 ^ lo
  if r < 0x20 then
    let p := s.port r
    (s.setPort r { p with retries := (BitVec.ofNat 16 p.retries &&& ~~~BitVec.ofNat 16 (natBits w 63 48)).toNat, en := natBit w 0 }, 0)
  else if r = 0x20 then ({ s with fabric := { x with fid := w % 256 } }, 0)
  else if r = 0x21 then
    if natBits w 11 8 < 3 ∨ natBits w 11 8 > 7 then (s, 0x03)
    else ({ s with fabric := { x with ftime := BitVec.ofNat 64 (bits 23 16 + bits 11 8 + bits 4 2) } }, 0)
  else if r = 0x22 then
    let hmax := natBits w 15 8
    if hmax < 1 ∨ hmax > 8 ∨ natBits w 47 16 < 200 + 120 * hmax then (s, 0x03)
    else ({ s with fabric := { x with fsched := BitVec.ofNat 64 (bits 47 8 + bits 0 0) } }, 0)
  else if r = 0x23 then ({ s with fabric := { x with fpod := BitVec.ofNat 64 (bits 31 0) } }, 0)
  else if inRange r 0x28 8 then (s.modPartition (r - 0x28) fun p => { p with fspan := BitVec.ofNat 64 (bits 16 0) }, 0)
  else if inRange r 0x80 0x20 then
    let clean := ((List.range 8).map fun j => bits (8 * j + 7) (8 * j + 7) + bits (8 * j + 4) (8 * j)).sum
    ({ s with fabric := { x with froute := tset x.froute (r - 0x80) (BitVec.ofNat 64 clean) 0 } }, 0)
  else (s, 0x02)

/-- A write of a supervisor register that has no behaviour of its own (R408): its status is 0x02 for an unassigned or
read-only number. -/
def writePlain (s : State) (r : Nat) (v : Word) : State × Nat :=
  let w := v.toNat
  let bits := fun (hi lo : Nat) => natBits w hi lo * 2 ^ lo
  if inRange r 0x40 8 then (s.modPartition (r - 0x40) fun p => { p with fltb := bits 47 14 }, 0)
  else if inRange r 0x48 12 then
    let e := tget s.errs (r - 0x48) {}
    let clear := fun (n x y : Nat) => (BitVec.ofNat n x &&& ~~~BitVec.ofNat n y).toNat
    let e' : ErrCount := { corr := clear 24 e.corr (natBits w 63 40), trans := clear 20 e.trans (natBits w 39 20),
                           last := clear 20 e.last (natBits w 19 0) }
    ({ s with errs := tset s.errs (r - 0x48) e' {} }, 0)
  else if inRange r 0x60 8 then (s.modPartition (r - 0x60) fun p => { p with elogb := BitVec.ofNat 64 (bits 63 12 + bits 3 0) }, 0)
  else if inRange r 0x68 8 then
    (s.modPartition (r - 0x68) fun p =>
      { p with elogLost := (BitVec.ofNat 32 p.elogLost &&& ~~~BitVec.ofNat 32 (natBits w 63 32)).toNat }, 0)
  else if inRange r 0x70 8 then (s.modPartition (r - 0x70) fun p => { p with elogTail := w % 2 ^ 32 }, 0)
  else if inRange r 0x80 8 then (s.modPartition (r - 0x80) fun p => { p with proot := natBits w 43 12 }, 0)
  else if inRange r 0xA8 8 then (s.modPartition (r - 0xA8) fun p => { p with psave := BitVec.ofNat 64 (bits 63 16) }, 0)
  else if inRange r 0xC0 16 then
    let x := bits 63 62 + bits 18 16 + bits 13 8 + bits 5 0
    ({ s with hostLink := { s.hostLink with vfmap := tset s.hostLink.vfmap (r - 0xC0) (BitVec.ofNat 64 x) 0 } }, 0)
  else if inRange r 0x100 0x40 then (s.setQueue (r - 0x100) { s.queue (r - 0x100) with wdtLimit := w % 2 ^ 32 }, 0)
  else if r = 0x140 then ({ s with wdrec := BitVec.ofNat 64 (bits 47 0) }, 0)
  else if r = 0x200 ∨ r = 0x201 then writePower s (r - 0x200) w
  else if inRange r 0x300 0xA0 then writeFabric s (r - 0x300) w
  else (s, 0x02)

/-- A write of any supervisor register by a team (R408, R409). -/
def supWrite (s : State) (f : Nat) (t : Team) (r : Nat) (v : Word) : State × Nat :=
  if r < 0x40 then writeQcfg s r v
  else if inRange r 0x88 0x18 || r == 0xA0 then writeQuota s r v
  else if r = 0xD1 then writeIfneg s v
  else if r = 0x202 then writePwcap s v
  else if r = 0x203 then writePwstate s f t v
  else if inRange r 0x340 0x40 then writeFwin s (r - 0x340) v
  else writePlain s r v

-- ===== pctl =====

/-- A pctl that is done: its result. -/
def pctlDone (x : State × Nat) : State × Option Nat := (x.1, some x.2)

/-- A pctl word (R408). Outside partition 0 it raises privilege. It waits, unissued, for its .sys release and while another
pctl has not answered; then it acts once. Its result lands by an event of its own, with a .sys acquire; none where it has
still to come. -/
def pctlWord (i : Instr) (h : Hdr) (d : Dst) (act : State → Nat → Team → State × Option Nat) (s : State) (f : Nat) (t : Team) :
    State :=
  if t.partition ≠ 0 then trapWord s f t .privilege
  else if releaseDown t .sys then downTrap s f t
  else if !releaseReady s f t .sys || !s.pctls.isEmpty then s
  else
    let r := act s f t
    let z := runSlot r.1 f t i h .variable [dstReg d] .none (fun _ => []) [] fun _ =>
      { vals := [(dstReg d, BitVec.ofNat 64 (r.2.getD 0))] }
    let p := match r.2 with
      | some _ => { z.pend with acq := some .sys }
      | none => { z.pend with acq := some .sys, accs := 1, writes := z.pend.writes.map fun w => { w with vals := [] } }
    finishWord z.s f { pends := [p], sw := h.sw }

/-- A pctl in progress answers its team (R408). -/
def answerPctl (s : State) (op partition status : Nat) : State :=
  match s.pctls.find? fun x => x.op == op && x.partition == partition with
  | none => s
  | some x =>
    let mine := fun (p : Pend) => p.issue == x.issue && p.lat == .variable
    let give := fun (p : Pend) =>
      if mine p then { p with accs := 0, writes := p.writes.map fun w => { w with vals := p.lanes.map fun l => (l, BitVec.ofNat 64 status) } }
      else p
    let s1 := { s with pctls := s.pctls.filter fun y => !(y.op == op && y.partition == partition) }
    landDue (s1.modTeam x.team fun t => { t with pend := t.pend.map give }) x.team mine

/-- The register number that a pctl word names (R408). -/
def pctlReg (t : Team) (a : BitVec 6) : Nat := (readK t a.toNat).toNat % 65536

/-- The meaning of pctl.rd (R408). -/
def execPctlRd (h : Hdr) (d : Dst) (a : BitVec 6) (s : State) : Host.Outcome State Fault Refusal :=
  forTeam s fun f t => pctlWord (.pctlRd h d a) h d (fun s _ t => (s, some (supRead s (pctlReg t a)))) s f t

/-- The meaning of pctl.wr of a register without a behaviour of its own (R408). -/
def execPctlWr (h : Hdr) (d : Dst) (a b : BitVec 6) (s : State) : Host.Outcome State Fault Refusal :=
  forTeam s fun f t =>
    pctlWord (.pctlWr h d a b) h d (fun s f t => pctlDone (supWrite s f t (pctlReg t a) (readK t b.toNat))) s f t

/-- The meaning of pctl.wr of qcfg (R357). -/
def execPctlWrQcfg (h : Hdr) (d : Dst) (a b : BitVec 6) (s : State) : Host.Outcome State Fault Refusal :=
  forTeam s fun f t => pctlWord (.pctlWrQcfg h d a b) h d (fun s f t =>
    let r := pctlReg t a
    pctlDone (if r < 0x40 then writeQcfg s r (readK t b.toNat) else supWrite s f t r (readK t b.toNat))) s f t

/-- The meaning of pctl.wr of pcore, pclus, pdom or pshr (R400). -/
def execPctlWrQuota (h : Hdr) (d : Dst) (a b : BitVec 6) (s : State) : Host.Outcome State Fault Refusal :=
  forTeam s fun f t => pctlWord (.pctlWrQuota h d a b) h d (fun s f t =>
    let r := pctlReg t a
    pctlDone (if inRange r 0x88 0x18 || r == 0xA0 then writeQuota s r (readK t b.toNat) else supWrite s f t r (readK t b.toNat))) s f t

/-- The meaning of pctl.wr of ifneg (R396). -/
def execPctlWrIfneg (h : Hdr) (d : Dst) (a b : BitVec 6) (s : State) : Host.Outcome State Fault Refusal :=
  forTeam s fun f t => pctlWord (.pctlWrIfneg h d a b) h d (fun s f t =>
    let r := pctlReg t a
    pctlDone (if r = 0xD1 then writeIfneg s (readK t b.toNat) else supWrite s f t r (readK t b.toNat))) s f t

/-- The meaning of pctl.wr of pwstate (R422). -/
def execPctlWrPwstate (h : Hdr) (d : Dst) (a b : BitVec 6) (s : State) : Host.Outcome State Fault Refusal :=
  forTeam s fun f t => pctlWord (.pctlWrPwstate h d a b) h d (fun s f t =>
    let r := pctlReg t a
    pctlDone (if r = 0x203 then writePwstate s f t (readK t b.toNat) else supWrite s f t r (readK t b.toNat))) s f t

/-- The meaning of pctl.wr of pwcap (R421). -/
def execPctlWrPwcap (h : Hdr) (d : Dst) (a b : BitVec 6) (s : State) : Host.Outcome State Fault Refusal :=
  forTeam s fun f t => pctlWord (.pctlWrPwcap h d a b) h d (fun s f t =>
    let r := pctlReg t a
    pctlDone (if r = 0x202 then writePwcap s (readK t b.toNat) else supWrite s f t r (readK t b.toNat))) s f t

/-- The meaning of pctl.wr of fwin (R437). -/
def execPctlWrFwin (h : Hdr) (d : Dst) (a b : BitVec 6) (s : State) : Host.Outcome State Fault Refusal :=
  forTeam s fun f t => pctlWord (.pctlWrFwin h d a b) h d (fun s f t =>
    let r := pctlReg t a
    pctlDone (if inRange r 0x340 0x40 then writeFwin s (r - 0x340) (readK t b.toNat) else supWrite s f t r (readK t b.toNat))) s f t

/-- The meaning of QUOTA_CHANGE_APPLY (R400). -/
def execQuotaChangeApply (partition : Nat) (s : State) : Host.Outcome State Fault Refusal :=
  .next (match (s.partition partition).pendingQuota with
  | none => s
  | some q => if holdsRemoved s partition q then s else applyQuota s partition q)

-- ===== translations =====

/-- A page of a partition, or all of them, dropped from every TLB, waiting team and ATC (R321, R408). -/
def invalidate (s : State) (n : Nat) (page : Option Nat) : State :=
  let s1 := match page with
    | some va => dropRange s n (va % 2 ^ 48 / 65536 * 65536) 65536
    | none => dropRange s n 0 (2 ^ 48)
  let keep := fun (e : Nat × Nat) => some e.1 != functionOf s n || page.any fun va => e.2 != va / 65536
  { s1 with hostLink := { s1.hostLink with atc := s1.hostLink.atc.filter keep } }

/-- The meaning of pctl.tlbi (R408). -/
def execPctlTlbi (h : Hdr) (d : Dst) (a : BitVec 6) (b : Option (BitVec 6)) (s : State) : Host.Outcome State Fault Refusal :=
  forTeam s fun f t => pctlWord (.pctlTlbi h d a b) h d (fun s _ t =>
    let n := (readK t a.toNat).toNat
    if n > 7 then (s, some 0x06) else (invalidate s n (b.map fun k => (readK t k.toNat).toNat), some 0)) s f t

-- ===== pre-emption =====

/-- The live registers and window ranges of a .livemap entry (R403). -/
structure Live where
  regs : Nat
  ranges : List (Nat × Nat)

/-- A number of some bytes at any address of a partition, page by page; none where one cannot be read (R403). -/
def spanRead (s : State) (n va size : Nat) : State × Option Nat :=
  match spanPas s n va size .read with
  | (s1, none) => (s1, none)
  | (s1, some l) =>
    let r := readPieces s1 n l
    (r.1, if r.2.2 then none else some (elemAt r.2.1 size 0))

/-- Some 8-byte words from any address of a partition. -/
def spanWords (s : State) (n va c : Nat) : State × Option (List Nat) :=
  match spanRead s n va (8 * c) with
  | (s1, none) => (s1, none)
  | (s1, some x) => (s1, some ((List.range c).map fun i => natBits x (64 * i + 63) (64 * i)))

/-- The entry of a text offset, among the first c from an address (R403); none where there is none or one cannot be read. -/
def liveFind (s : State) (n off : Nat) : Nat → Nat → State × Option Nat
  | 0, _ => (s, none)
  | c + 1, va =>
    match spanRead s n va 32 with
    | (s1, none) => (s1, none)
    | (s1, some e) => if recBytes e 3 0 = off then (s1, some e) else liveFind s1 n off c (va + 32)

/-- The live-map entry of a halting word (R403). A table has at most one entry for each word of the text. -/
def liveEntry (s : State) (n : Nat) (k : Kernel) (word : Nat) : State × Option Live :=
  if k.livemap = 0 then (s, none)
  else
    match spanRead s n k.livemap 8 with
    | (s1, none) => (s1, none)
    | (s1, some c) =>
      match liveFind s1 n (word - k.text) (min c (k.textSize / 8)) (k.livemap + 8) with
      | (s2, none) => (s2, none)
      | (s2, some e) =>
        match spanWords s2 n (recBytes e 31 24) (recBytes e 5 4) with
        | (s3, none) => (s3, none)
        | (s3, some ws) =>
          (s3, some ⟨recBytes e 23 8, ws.map fun w => (w % 2 ^ 32, w / 2 ^ 32)⟩)

/-- The window granules of 32 bytes, of a window of some rows, that the entries keep; none where all are kept (R402, R403). -/
def liveGranules (rows : Nat) (ls : List (Option Live)) : Option (List Nat) :=
  if ls.any (·.isNone) then none
  else
    let gs := (ls.filterMap id).flatMap fun l => l.ranges.flatMap fun r => (List.range (r.2 / 32)).map fun i => r.1 / 32 + i
    some (gs.eraseDups.filter fun g => decide (g < 8 * rows))

/-- What a block's save holds: its teams with their entries, and the granules kept. -/
structure BlockSave where
  key : Nat
  block : Block
  teams : List (Nat × Option Live)
  granules : Option (List Nat)

/-- The registers below .regs that an entry lists. -/
def liveCount (regs : Nat) (l : Option Live) : Nat :=
  match l with
  | none => regs
  | some x => ((List.range regs).filter fun r => natBit x.regs r).length

/-- The bytes of area that a block's save needs (R402). -/
def saveSize (s : State) (b : BlockSave) : Nat :=
  let k := ((s.launch? b.block.partition b.block.launch).getD {}).kernel
  let vs := (b.teams.map fun e => 256 * (k.team / 32) * liveCount k.regs e.2).sum
  let win := match b.granules with
    | none => 256 * b.block.rows
    | some g => 32 * g.length
  4096 + 1024 * b.block.nteams + vs + win + (if b.block.holdsAcc then 786432 else 0)

/-- What the save of a block holds (R402, R403). -/
def planSave (s : State) (key : Nat) (b : Block) : State × BlockSave :=
  let k := ((s.launch? b.partition b.launch).getD {}).kernel
  let halted := b.teams.filter fun f => (tfind s.teams f).elim false (·.halted)
  let r := halted.foldl (fun (r : State × List (Nat × Option Live)) f =>
    let q := liveEntry r.1 b.partition k ((tfind r.1.teams f).elim 0 (·.restartAt))
    (q.1, r.2 ++ [(f, q.2)])) (s, [])
  (r.1, { key, block := b, teams := r.2, granules := liveGranules b.rows (r.2.map (·.2)) })

/-- Every (register, warp) of a team takes a fresh tag of its own (R163); its rows stay mapped, since a saved block keeps its
reservation (R400, R411). -/
def freshTeam (s : State) (f regs : Nat) : State :=
  match tfind s.teams f with
  | none => s
  | some t =>
    let core := coreOf f
    let rows := t.vmap.map (·.2)
    let s1 := s.setCore core (killEntries (s.core core) fun _ e => rows.contains e.row)
    let all := (List.range regs).flatMap fun r => (List.range (t.nlanes / 32)).map fun w => warpKey r w
    let go := all.foldl (fun (a : Core × Tab Tag) k =>
      let q := freshTag a.1 t.partition
      (q.1, tput a.2 k q.2)) (s1.core core, [])
    (s1.setCore core go.1).setTeam f { t with vtag := go.2, kFresh := List.range 64 }

/-- A halted team as its save and restore leave it (R402 to R404, R163): registers that its entry does not list read 0,
and every value has a fresh tag. -/
def saveTeam (s : State) (regs : Nat) (e : Nat × Option Live) : State :=
  let keep := fun (r : Nat) => match e.2 with
    | none => true
    | some l => natBit l.regs r
  freshTeam ((commitFixed s e.1).modTeam e.1 fun t => { t with v := t.v.filter fun x => keep (x.1 / 1024) }) e.1 regs

/-- A block as its save and restore leave it (R403, R285). -/
def saveBlock (s : State) (b : BlockSave) : State :=
  let k := ((s.launch? b.block.partition b.block.launch).getD {}).kernel
  let s1 := b.teams.foldl (fun s e => saveTeam s k.regs e) s
  let s2 := match b.granules with
    | none => s1
    | some gs =>
      let c := s1.cluster b.block.cluster
      let lo := 256 * b.block.base
      let gone := fun (a : Nat) => inRange a lo (256 * b.block.rows) && !gs.contains ((a - lo) / 32)
      s1.setCluster b.block.cluster { c with sp := c.sp.filter fun e => !gone e.1 }
  s2.modBlock b.key fun x => { x with saved := true, races := [] }

/-- The bytes of a cluster's four accumulators in memory (R74, R402). -/
def accBytes : Nat := 786432

/-- Byte x of a cluster's accumulators as memory holds them: 12 bytes for each entry, the lowest first (R74). -/
def accByte (c : Cluster) (x : Nat) : Byte := BitVec.ofNat 8 ((tget c.acc (x / 12) 0).toNat / 256 ^ (x % 12))

/-- The accumulators of a block written to a save area, from an address on (R252, R402). DEDUCED: the save is no use of their values,
so that of a poisoned or failing entry is saved as it stands and the entry stays as it is, like the window's words, which stay in
place (log 100). -/
def saveAcc (s : State) (key base : Nat) (b : Block) : State :=
  let q := spanPas s 0 base accBytes .write
  let c := s.cluster b.cluster
  let ws := (q.2.getD []).flatMap fun p => (List.range p.2.2).map fun i => (p.2.1 + i, accByte c (p.1 - base + i))
  (homeWrite q.1 noCluster 0 ws base).1.modBlock key fun x => { x with accSave := some base }

/-- The numbers of n bytes each that a list of bytes holds, lowest byte first. -/
def numbers (n : Nat) : Nat → List Byte → List Nat
  | 0, _ => []
  | c + 1, l => elemAt (l.take n) n 0 :: numbers n c (l.drop n)

/-- The accumulators of a block taken back from its save area (R252, R404). -/
def restoreAcc (s : State) (key : Nat) (b : Block) : State :=
  match b.accSave with
  | none => s
  | some base =>
    match spanPas s 0 base accBytes .read with
    | (s1, none) => s1
    | (s1, some l) =>
      let r := readPieces s1 0 l
      let acc := ((List.range 65536).zip (numbers 12 65536 r.2.1)).foldl (fun m e => tset m e.1 (BitVec.ofNat 96 e.2) 0) []
      (r.1.setCluster b.cluster { r.1.cluster b.cluster with acc }).modBlock key fun x => { x with accSave := none }

/-- The resident blocks of a partition. -/
def blocksOfPartition (s : State) (n : Nat) : Tab Block := s.blocks.filter fun e => e.2.partition == n

/-- Whether a block has halted (R401): every team has halted or ended with its results in, and no operation of it is left. -/
def blockHalted (s : State) (key : Nat) (b : Block) : Bool :=
  b.teams.all (fun f => (tfind s.teams f).elim true fun t =>
    (t.halted && t.pend.all Pend.isFixed && !(s.accs.any fun e => e.2.team == f)) || teamOver s f t) &&
  !((s.cluster b.cluster).ops.any fun e => e.2.block == key)

/-- A halted team goes on, or leaves a wait whose generation is complete (R401, R404). -/
def resumeTeam (s : State) (f : Nat) : State :=
  let s1 := s.modTeam f fun t => { t with halted := false }
  match tfind s1.teams f with
  | none => s1
  | some t =>
    match t.wait with
    | .bar id => s1.modTeam f fun t => t.leaveBar id ((s1.blockOf t).bar id).gen
    | .gbar =>
      let l := s1.launchOf t
      let passed := t.gbarPend.elim false fun p => decide (p < l.gen)
      let later := l.release.elim false fun r => r.waiting.contains (clusterOf f)
      if passed && !later then leaveGrid s1 f else s1
    | _ => s1

/-- The teams of a partition go on, and placement and timers with them (R401, R404). -/
def resumePartition (s : State) (n : Nat) : State :=
  let s0 := (blocksOfPartition s n).foldl (fun s e => restoreAcc s e.1 e.2) s
  let s1 := s0.modPartition n fun p => { p with preempting := false, halting := false, preempted := false }
  let s2 : State := { s1 with blocks := s1.blocks.map fun e => if e.2.partition == n then (e.1, { e.2 with saved := false }) else e }
  ((s2.teams.filter fun e => e.2.partition == n && e.2.halted).map (·.1)).foldl resumeTeam s2

/-- The meaning of pctl.preempt (R401): placement and timers stop, and teams halt from step 2 on. DEDUCED: a budget of
b ns is ⌈4 b / 5⌉ cluster cycles (log 60). -/
def execPctlPreempt (h : Hdr) (d : Dst) (a : BitVec 6) (b : Option (BitVec 6)) (s : State) : Host.Outcome State Fault Refusal :=
  forTeam s fun f t => pctlWord (.pctlPreempt h d a b) h d (fun s f t =>
    let n := (readK t a.toNat).toNat
    let budget := match b with
      | some k => (readK t k.toNat).toNat
      | none => 2000000
    if n < 1 ∨ n > 7 ∨ (s.partition n).preempted then (s, some 0x06)
    else
      let s1 := s.modPartition n fun p => { p with preempting := true, preemptDeadline := s.cycle + (4 * budget + 4) / 5 }
      (beginHalting { s1 with pctls := [⟨f, t.issues, 2, n⟩] } n, none)) s f t

/-- The area of psave: its base and its size in bytes (R402). -/
def saveArea (p : Partition) : Nat × Nat := (natBits p.psave.toNat 47 16 * 65536, natBits p.psave.toNat 63 48 * 2 ^ 20)

/-- Whether every block of a partition that is being pre-empted has halted (R401). -/
def allHalted (s : State) (n : Nat) : Bool :=
  (s.partition n).preempting && (s.partition n).halting && (blocksOfPartition s n).all fun e => blockHalted s e.1 e.2

/-- The blocks' accumulators written, each at the end of its block's part of the area (log 25). -/
def saveAccs (s : State) (area : Nat) (l : List BlockSave) : State :=
  (l.foldl (fun (r : State × Nat) b =>
    let next := r.2 + saveSize s b
    (if b.block.holdsAcc then saveAcc r.1 b.key (next - accBytes) b.block else r.1, next)) (s, area)).1

/-- The meaning of PREEMPT_SAVE (R401, R402): all blocks have halted and are saved together, or the area is too small. But for
the accumulators (R74), how the area lays the state out is not stated: its bytes are free, and the state stays where a restore
returns it (log 25). -/
def execPreemptSave (partition : Nat) (s : State) : Host.Outcome State Fault Refusal :=
  .next (
    let p := s.partition partition
    let bs := blocksOfPartition s partition
    if !allHalted s partition then s
    else
      let r := bs.foldl (fun (r : State × List BlockSave) e =>
        let q := planSave r.1 e.1 e.2
        (q.1, r.2 ++ [q.2])) (s, [])
      let need := (r.2.map fun b => saveSize r.1 b).sum
      let area := saveArea p
      if need > area.2 then answerPctl (resumePartition r.1 partition) 2 partition 0x07
      else
        let q := spanPas r.1 0 area.1 need .write
        let s1 := scramble q.1 ((q.2.getD []).flatMap fun x => (List.range x.2.2).map fun i => x.2.1 + i)
        let s2 := r.2.foldl saveBlock (saveAccs s1 area.1 r.2)
        let s3 := s2.modPartition partition fun p => { p with preempting := false, halting := false, preempted := true }
        answerPctl s3 2 partition 0x00)

/-- The meaning of PREEMPT_BUDGET_EXPIRY (R401): the budget passes before every block has halted. -/
def execPreemptBudgetExpiry (partition : Nat) (s : State) : Host.Outcome State Fault Refusal :=
  .next (
    let p := s.partition partition
    if p.preempting && decide (s.cycle ≥ p.preemptDeadline) && !allHalted s partition then answerPctl (resumePartition s partition) 2 partition 0x05 else s)

/-- The meaning of pctl.resume (R404). -/
def execPctlResume (h : Hdr) (d : Dst) (a : BitVec 6) (s : State) : Host.Outcome State Fault Refusal :=
  forTeam s fun f t => pctlWord (.pctlResume h d a) h d (fun s _ t =>
    let n := (readK t a.toNat).toNat
    if n < 1 ∨ n > 7 ∨ !(s.partition n).preempted then (s, some 0x06) else (resumePartition s n, some 0)) s f t

/-- The meaning of pctl.drain (R406). -/
def execPctlDrain (h : Hdr) (d : Dst) (a : BitVec 6) (s : State) : Host.Outcome State Fault Refusal :=
  forTeam s fun f t => pctlWord (.pctlDrain h d a) h d (fun s _ t =>
    let n := (readK t a.toNat).toNat
    if n < 1 ∨ n > 7 then (s, some 0x06) else (s.modPartition n fun p => { p with drained := true }, some 0)) s f t

-- ===== resets =====

/-- Blocks killed by steps 1 to 4 of R292 with no report, their collectives ended for the other members, and their
launches completed with 0x11 (R406, R407). -/
def endLaunches (s : State) (mine : Launch → Bool) : State :=
  let ls := s.launches.filter mine
  let hit := fun (n id : Nat) => ls.any fun l => l.partition == n && l.id == id
  let s1 := leaveColls s fun f => (tfind s.teams f).elim false fun t => hit t.partition t.launch
  let s2 := ((s1.blocks.filter fun e => hit e.2.partition e.2.launch).map (·.1)).foldl freeBlock s1
  ls.foldl (fun s l => completeLaunch s l 0x11) s2

/-- A queue whose partition is reset: it has accepted no launch, and none waits (R359). -/
def Queue.afresh (x : Queue) : Queue := { x with lastId := none, lastStatus := none, waitSince := none, heldBack := false }

/-- A cluster without a partition's placement pointer (R364, R367). -/
def Cluster.afresh (n : Nat) (c : Cluster) : Cluster := { c with lastCore := tdel c.lastCore n }

/-- A core without a partition's entries and counters (R163, R166). -/
def Core.afresh (n : Nat) (c : Core) : Core :=
  { killEntries c (fun _ e => e.key.partition == n) with binds := tdel c.binds n, misses := tdel c.misses n, freshes := tdel c.freshes n }

/-- A partition reset (R406, R411). -/
def resetPartition (s : State) (n : Nat) : State :=
  let s1 := endLaunches s fun l => l.partition == n
  let s2 := invalidate s1 n none
  let s3 := l1DropAll s2 fun l => l.partition == n
  let s4 := { s3 with
    llc := s3.llc.filter fun l => !(l.owner == n || (l.remote.isSome && l.filler == n))
    fabric := { s3.fabric with seen := s3.fabric.seen.filter fun x => x.partition != n }
    walks := s3.walks.filter fun e => e.2.partition != n
    clusters := teach s3.clusters (Cluster.afresh n) {}
    cores := teach s3.cores (Core.afresh n) {}
    queues := teach s3.queues (fun x => if x.pn = n then x.afresh else x) {}
    power := { s3.power with rot := tdel s3.power.rot n }
    notices := s3.notices ++ [Notice.rangeDrop 0 (2 ^ 48) 0] }
  let s5 := s4.modPartition n fun p =>
    { p with launchCtr := 0, rr := [], fvmark := 0, resetting := false, preempting := false, halting := false, preempted := false,
             drained := false }
  match (s5.partition n).pendingQuota with
  | some q => applyQuota s5 n q
  | none => s5

/-- Whether a frame is under retirement, which a reset waits for, whoever found the error (R391). -/
def retiringNow (s : State) : Bool := !s.retiring.isEmpty

/-- The meaning of pctl.reset (R406, R391). -/
def execPctlReset (h : Hdr) (d : Dst) (a : BitVec 6) (s : State) : Host.Outcome State Fault Refusal :=
  forTeam s fun f t => pctlWord (.pctlReset h d a) h d (fun s f t =>
    let n := (readK t a.toNat).toNat
    if n < 1 ∨ n > 7 then (s, some 0x06)
    else if retiringNow s then
      ({ s.modPartition n fun p => { p with resetting := true } with pctls := [⟨f, t.issues, 5, n⟩] }, none)
    else (resetPartition s n, some 0)) s f t

/-- Resets that waited for a retirement act once it has ended (R391). -/
def settleResets (s : State) : State :=
  (List.range 8).foldl (fun s n =>
    if (s.partition n).resetting && !retiringNow s then answerPctl (resetPartition s n) 5 n 0 else s) s

/-- The meaning of FUNCTION_LEVEL_RESET (R407), taken in one step. DESIGN CHOICE: number 16 is the PF's, of which R393 states only
that there is one: its ATC is emptied (log 31). -/
def execFunctionLevelReset (vf : Nat) (s : State) : Host.Outcome State Fault Refusal :=
  .next (
    let w := (tget s.hostLink.vfmap vf 0).toNat
    let mine := fun (l : Launch) => natBit w 63 && inRange l.queue (natBits w 5 0) (natBits w 13 8)
    let s1 := endLaunches s mine
    { s1 with hostLink := { s1.hostLink with atc := s1.hostLink.atc.filter fun e => e.1 != (vf + 1) % 17 } })

-- ===== watchdogs =====

/-- Cluster cycles pass for every launch with a block placed whose partition is not being pre-empted (R405, R430). -/
def tickLaunch (s : State) (l : Launch) : Launch :=
  let p := s.partition l.partition
  if l.nextBlock = 0 || p.preempting || p.preempted then l else { l with running := l.running + 1 }

/-- The task record of a launch's lowest-numbered resident block; 0 when none is resident (R430). -/
def lowestTask (s : State) (l : Launch) : Nat :=
  let mine := (s.blocks.filter fun e => e.2.partition == l.partition && e.2.launch == l.id && !e.2.saved).map (·.2)
  match mine with
  | [] => 0
  | b :: r =>
    let x := r.foldl (fun m y => if y.index < m.index then y else m) b
    taskRecord l.id 1 x.attempt x.limit x.index

/-- Whether a queue's watchdog has run out; one that pauses for a pre-emption does not (R405, R411). -/
def watchdogDue (s : State) (q : Nat) : Bool :=
  let lim := (s.queue q).wdtLimit
  lim != 0 && (watched s q).any fun l =>
    let p := s.partition l.partition
    !l.barred && !p.preempting && !p.preempted && decide (l.running ≥ 800 * lim)

/-- The meaning of WATCHDOG_EXPIRY (R405, R430): the launch is barred, the recovery record enqueued with its three k
values, and the entry written. -/
def execWatchdogExpiry (queue : Nat) (s : State) : Host.Outcome State Fault Refusal :=
  .next (match watched s queue with
  | none => s
  | some l =>
    if !watchdogDue s queue then s
    else
      let s1 := s.modLaunch l.partition l.id fun l => { l with barred := true }
      let w := s.wdrec.toNat
      let lead := [queue, l.partition, l.id].map (BitVec.ofNat 64)
      let r := if natBits w 47 6 = 0 then (s1, 0xFF) else enqueue s1 0 (natBits w 5 0) (natBits w 47 6 * 64) none lead
      logEntry r.1 0 (fields [(0, 6), (1, 0xFF), (2, 0xFF), (3, 0xFF), (8, s.cycle % 2 ^ 64), (16, lowestTask s l), (24, queue),
        (25, l.partition), (28, l.id), (32, (s.queue queue).wdtLimit), (36, r.2 % 256), (40, r.2 / 256)]))

-- ===== page retirement and scrubs =====

/-- The meaning of PAGE_RETIREMENT_COMPLETE (R385, R386): the frame is remapped to a spare and reported, or the pool is
empty. No byte changes, and lost blocks stay lost (R334). A reset that waited acts once none is left (R391). -/
def execPageRetirementComplete (frame : Nat) (s : State) : Host.Outcome State Fault Refusal :=
  .next (settleResets (match s.retiring.find? fun r => r.frame == frame with
  | none => s
  | some r => retireFrame s r))

/-- The meaning of MEMORY_SCRUB: a scrub reads an error block for no partition (R382, R385). -/
def execMemoryScrub (block : Nat) (s : State) : Host.Outcome State Fault Refusal :=
  .next (match memRange (block * 32) with
  | some (.host, _) | none => s
  | some _ => (readBlock s block 0xFF 0).1)

-- ===== the host =====

/-- The meaning of HOST_REQUEST_COMPLETION (R394): an access to host memory, whose request went out, is performed, or the
host's error parks its lane. -/
def execHostRequestCompletion (acc : Nat) (ok : Bool) (s : State) : Host.Outcome State Fault Refusal :=
  .next (match tfind s.accs acc with
  | none => s
  | some a =>
    if !a.toHost || !accMayPerform s acc a then s
    else
      let s1 := match a.place with
        | .home pa => hostRequest s a.partition pa a.va
        | _ => s
      if !ok then settleAccess s1 acc a (.error .pageFault)
      else
        let r := performAcc s1 a
        settleAccess r.s acc a r.out)

/-- The meaning of HOST_DEVICE_MEMORY_ACCESS: a host access of 8 bytes of device memory, performed at the byte's home
(R395, R382, R384). A read of a lost block returns nothing. It wakes nothing (R422). -/
def execHostDeviceMemoryAccess (_function addr : Nat) (write : Option Word) (s : State) : Host.Outcome State Fault Refusal :=
  .next (
    match memRange addr with
    | some (.host, _) | none => s
    | some _ =>
      match write with
      | some x => (homeWrite s noCluster 0xFF (toBytes addr x.toNat 8) 0).1
      | none =>
        let r := readBlocks s addr 8 0xFF 0
        if r.2 then r.1 else { r.1 with notices := r.1.notices ++ [.hostWord addr (BitVec.ofNat 64 (memGet r.1 addr 8))] })

/-- The bytes from 24 on that an entry of a type lists (R390, R430). -/
def entryBytes (type : Nat) : List Nat :=
  let span := fun (lo hi : Nat) => (List.range (hi + 1 - lo)).map (lo + ·)
  match type with
  | 1 => span 24 28 ++ span 32 47
  | 2 => span 24 28 ++ span 32 47
  | 3 => span 24 34 ++ span 36 51
  | 4 => span 24 33
  | 5 => 24 :: span 26 27
  | 6 => span 24 25 ++ span 28 36 ++ span 40 43
  | _ => span 24 39

/-- What bytes 1 to 3 and 16 to 23 of an entry of a type hold (R389, R390, R430); x gives the values that are not stated. -/
def entryPlace (type : Nat) (x : Nat → Nat) : List (Nat × Nat) :=
  match type with
  | 3 | 4 => [(1, x 1 % 12), (2, 0xFF), (3, 0xFF)]
  | 6 => [(1, 0xFF), (2, 0xFF), (3, 0xFF), (16, x 16)]
  | 7 => [(1, 0xFF), (2, 0xFF), (3, 0xFF)]
  | _ => [(1, x 1 % 12), (2, x 2 % 64), (3, x 3 % 48), (16, x 16)]

/-- An entry of partition 0's ring for a host-link event. DESIGN CHOICE: R389 gives it no type, so it is an entry of some type, in
that type's layout, and every value that R389, R390 and R428 do not state of it is free (log 31). -/
def hostLinkEntry (s : State) : State :=
  let x := fun (b : Nat) => (Config.freeWord (s.freeCtr + b)).toNat
  let type := 1 + x 0 % 7
  logEntry { s with freeCtr := s.freeCtr + 64 } 0 (fields ([(0, type), (8, s.cycle % 2 ^ 64)] ++ entryPlace type x ++
    (entryBytes type).map fun b => (b, x b % 256)))

/-- The meaning of HOST_LINK_TRAINING (R428): the link moves down its six entries, one for each failure, and its configuration
is measured (R423, log 9). Where bring-up has halted, the link stays in its training state (R427). -/
def execHostLinkTraining (fails : Nat) (s : State) : Host.Outcome State Fault Refusal :=
  .next (
    if s.bexile.failed ≠ 0 then s
    else
      let trained := min 5 (s.hostLink.trained + fails)
      (hostLinkEntry { s with hostLink := { s.hostLink with trained, up := true } }).extend 3 (Config.linkBytes 3 [trained]))

-- ===== power =====

/-- The governing cap; 0 for none (R415). -/
def Power.cap (p : Power) : Nat :=
  let s := capRead p.scap
  if p.mcap = 0 then s else if s = 0 then p.mcap else min p.mcap s

/-- Cluster cycles that a notch of the whole package takes under the slew limit: that of every cluster that holds a block
(R416, R421). DEDUCED: log 83. -/
def packageNotch (s : State) : Nat := s.power.notchCycles * max 1 ((s.blocks.map fun e => e.2.cluster).eraseDups.length)

/-- The meaning of CAP_STEP: one notch for the package towards the cap every 10 µs, up only under R416's limit (R421). -/
def execCapStep (s : State) : Host.Outcome State Fault Refusal :=
  .next (
    let p := s.power
    if s.cycle < p.lastCap + 8000 then s
    else
      let (s1, n) := drawFree s
      let est := Config.powerEstimate n
      let cap := p.cap
      let up := p.notch != 0 && (cap == 0 || decide (est < cap)) && decide (s.cycle ≥ p.lastStep + packageNotch s) && !wavesLeaving s
      let down := cap != 0 && decide (est > cap)
      let notch := if down then min 5 (p.notch + 1) else if up then p.notch - 1 else p.notch
      { s1 with power := { p with notch, lastCap := s.cycle, capd := cap != 0 && notch != 0,
                                  lastStep := if !down && up then s.cycle else p.lastStep } })

/-- The meaning of SLEW_NOTCH_STEP: a newly active cluster steps one notch up when the rise fits, and no wave of the hoist order has
still to leave (R416). -/
def execSlewNotchStep (cluster : Nat) (s : State) : Host.Outcome State Fault Refusal :=
  .next (
    let c := s.cluster cluster
    if c.ctlNotch = 0 || decide (s.cycle < s.power.lastStep + s.power.notchCycles) || wavesLeaving s then s
    else { s.setCluster cluster { c with ctlNotch := c.ctlNotch - 1 } with power := { s.power with lastStep := s.cycle } })

/-- The meaning of RETENTION_WAKE (R422, R426): a debug access wakes the package only in open-debug. -/
def execRetentionWake (source : WakeSource) (s : State) : Host.Outcome State Fault Refusal :=
  .next (if source == .debug && securityState s != 2 then s else wake s)

/-- The meaning of NODE_CAP_SET (R425). -/
def execNodeCapSet (watts : Nat) (s : State) : Host.Outcome State Fault Refusal :=
  .next (let s := wake s
         { s with power := { s.power with mcap := watts % 65536 } })

-- ===== Bexile =====

/-- What Bexile returns through its mailbox or over the management bus. -/
def reply (s : State) (x : Nat) : State := { s with notices := s.notices ++ [.mailbox x] }

/-- The meaning of PLDM_SENSOR_READ (R425). -/
def execPldmSensorRead (sensor : Sensor) (s : State) : Host.Outcome State Fault Refusal :=
  .next (let (s1, n) := drawFree (wake s)
         reply s1 (Config.sensor sensor n))

/-- The meaning of PLDM_BASE_REQUEST (R425). -/
def execPldmBaseRequest (request : Nat) (s : State) : Host.Outcome State Fault Refusal :=
  .next (reply (wake s) (Config.pldmAnswer request))

/-- The meaning of FIRMWARE_UPDATE (R425, R423): the image is staged for the next reset. -/
def execFirmwareUpdate (image signature svn : Nat) (s : State) : Host.Outcome State Fault Refusal :=
  .next (let s := wake s
         { s with bexile := { s.bexile with staged := some (image, signature, svn) } })

/-- The identity key of the package in its security state: the seed is SHAKE256 of the fused secret and the state (R424). DESIGN
CHOICE: the state is one byte, and the 96 bytes of the seed are the three of key generation, in their order (log 9). -/
def identity (s : State) : SlhSeeds :=
  let seed := shakeBytes 96 (Config.deviceSecret ++ [BitVec.ofNat 8 (securityState s)])
  { skSeed := seed.take 32, skPrf := (seed.drop 32).take 32, pkSeed := seed.drop 64 }

/-- The meaning of ATTESTATION_REPORT (R424): the nonce, the measurements, secst and the negotiated versions, signed with the
identity key. It wakes nothing (R426). The signature is given as the number of its bytes, lowest first. -/
def execAttestationReport (nonce : Nat) (s : State) : Host.Outcome State Fault Refusal :=
  .next (
    let meas := (List.range 8).map fun i => tget s.bexile.meas i 0
    let signed := meas ++ [powerWord s 4, s.hostLink.ifneg.toNat]
    let (s1, n) := drawFree s
    let sig := slhSign (identity s) (Config.signRandom n) (Config.reportBytes nonce signed)
    { s1 with notices := s1.notices ++ [.attestation nonce signed (bytesNat sig)] })

/-- The meaning of MEASUREMENT_EXTEND: Zalmer extends registers 4 to 7 (R423). -/
def execMeasurementExtend (reg : Nat) (data : List Byte) (s : State) : Host.Outcome State Fault Refusal :=
  .next (if inRange reg 4 4 then s.extend reg data else s)

/-- The meaning of UNLOCK_TOKEN: a token that Bexile accepts sets the security state at the next reset (R426). -/
def execUnlockToken (token : Nat) (s : State) : Host.Outcome State Fault Refusal :=
  .next (match Config.tokenGrants token with
  | some st => { s with bexile := { s.bexile with pendingSec := some (st % 4) } }
  | none => s)

/-- Whether an enabled virtual function bound to a partition consents to inspection (R407, R426). -/
def inspectable (s : State) (n : Nat) : Bool :=
  (List.range 16).any fun v =>
    let w := (tget s.hostLink.vfmap v 0).toNat
    natBit w 63 && natBit w 62 && natBits w 18 16 == n

/-- The partition that a debug target belongs to: a cluster without a block, which may be power-gated, belongs to none (R422,
R426). A partition's memory is named by its own addresses, a physical address by no partition's. -/
def debugOwner (s : State) (t : DebugTarget) : Option Nat :=
  match t with
  | .partition n | .partitionMemory n _ => some n
  | .teamReg f _ _ _ => (tfind s.teams f).map (·.partition)
  | .scratchpad cl a =>
    (s.blocks.find? fun e => e.2.cluster == cl && inRange (a / 256) e.2.base e.2.rows).map (·.2.partition)
  | .accumulator cl _ => (s.blocks.find? fun e => e.2.cluster == cl && e.2.holdsAcc).map (·.2.partition)
  | .register _ | .memory _ => none

/-- Whether the security and power states permit a debug access (R426). -/
def debugAllowed (s : State) (k : DebugKind) (t : DebugTarget) : Bool :=
  match securityState s with
  | 2 => true
  | 1 =>
    (match debugOwner s t with
     | some 0 => k == .inspect
     | some n => inspectable s n && k != .write && (s.power.cur != 3 || k == .inspect)
     | none => false)
  | _ => false

/-- A set of lanes as a number, bit l for lane l. -/
def laneBits (l : List Nat) : Nat := (l.map (2 ^ ·)).sum

/-- A team's register as a debug access reads it (R426). -/
def readPart (t : Team) (part : TeamPart) (reg lane : Nat) : Nat :=
  match part with
  | .v => (readV t reg lane).toNat
  | .k => (readK t reg).toNat
  | .p => (readP t reg lane).toNat
  | .t => (tget t.t reg 0).toNat
  | .pc => t.pc
  | .flags => t.flags.toNat
  | .mask => t.mask.toNat
  | .parked => laneBits (t.parked.map (·.1))
  | .exited => t.exited.toNat
  | .key => t.key.toNat
  | .position => t.position
  | .nb => bit1 t.nb
  | .hdlr => t.hdlr
  | .trapc => packBits [(8, t.trapUcode), (0, t.trapCause)]
  | .pend => packBits [(16, bit1 t.gbarPend.isSome), (0, laneBits (t.barPend.map (·.1)))]
  | .stackMask => (t.stack[reg]?).elim 0 fun e => e.mask.toNat
  | .stackAddr => (t.stack[reg]?).elim 0 (·.addr)

/-- A team with a register other than v and k written by a debug access (R426). -/
def writePart (t : Team) (part : TeamPart) (reg lane value : Nat) : Team :=
  let bits := BitVec.ofNat 1024 value
  let entry := fun (g : StackEntry → StackEntry) => { t with stack := (t.stack.take reg) ++ ((t.stack.drop reg).take 1).map g ++ t.stack.drop (reg + 1) }
  match part with
  | .v | .k => t
  | .p => if reg = 0 then t else { t with p := tset t.p (laneKey reg lane) (BitVec.ofNat 2 value) 0 }
  | .t => { t with t := tset t.t reg (BitVec.ofNat 64 value) 0 }
  | .pc => { t with pc := value }
  | .flags => { t with flags := BitVec.ofNat _ value }
  | .mask => { t with mask := bits }
  | .parked => { t with parked := t.parked.filter fun e => bits.getLsbD e.1 }
  | .exited => { t with exited := bits }
  | .key => { t with key := BitVec.ofNat 128 value }
  | .position => { t with position := value % 2 ^ 40 }
  | .nb => { t with nb := natBit value 0 }
  | .hdlr => { t with hdlr := value }
  | .trapc => { t with trapUcode := natBits value 15 8, trapCause := natBits value 7 0 }
  | .pend => { t with barPend := t.barPend.filter (fun e => natBit value e.1), gbarPend := if natBit value 16 then t.gbarPend else none }
  | .stackMask => entry fun e => { e with mask := bits }
  | .stackAddr => entry fun e => { e with addr := value }

/-- A team's register written by a debug access: a v or k value is an instruction's no longer (R156, R426). -/
def debugWrite (s : State) (f : Nat) (part : TeamPart) (reg lane value : Nat) : State :=
  match part with
  | .v => putAll s f (.v reg) [lane] (BitVec.ofNat 64 value)
  | .k => putAll s f (.k reg) [0] (BitVec.ofNat 64 value)
  | _ => s.modTeam f fun t => writePart t part reg lane value

/-- A list with a number put in, or taken out for the value 0. -/
def putOrTake (l : List Nat) (n value : Nat) : List Nat :=
  let rest := l.filter (· != n)
  if value = 0 then rest else rest ++ [n]

/-- The meaning of DEBUG_ACCESS (R426): what is not permitted has no effect. A halt or trace with value 0 ends for its
partition. A supervisor register is written as pctl.wr writes it; open-debug wakes a package in retention. -/
def execDebugAccess (kind : DebugKind) (target : DebugTarget) (value : Nat) (s : State) : Host.Outcome State Fault Refusal :=
  .next (
    if !debugAllowed s kind target then s
    else
      let s := if securityState s = 2 then wake s else s
      match kind, target with
      | .halt, .partition n => { s with bexile := { s.bexile with halted := putOrTake s.bexile.halted n value } }
      | .trace, .partition n => { s with bexile := { s.bexile with traced := putOrTake s.bexile.traced n value } }
      | .inspect, .partition n => reply s (pstateWord s n)
      | .inspect, .register r => reply s (supRead s r)
      | .inspect, .memory pa => reply s (memGet s pa 8)
      | .inspect, .partitionMemory n va => let r := vaRead s n va 8
                                           reply r.1 (r.2.getD 0)
      | .inspect, .teamReg f part r l => reply s ((tfind s.teams f).elim 0 fun t => readPart t part r l)
      | .inspect, .scratchpad cl a => reply s (bytesGet (s.cluster cl).sp a 8)
      | .inspect, .accumulator cl e => reply s (tget (s.cluster cl).acc e 0).toNat
      | .write, .register r => (supWrite s 0 {} r (BitVec.ofNat 64 value)).1
      | .write, .memory pa => memSet s pa value 8
      | .write, .partitionMemory n va => (vaWrite s n va (toBytes 0 value 8)).1
      | .write, .teamReg f part r l => debugWrite s f part r l value
      | .write, .scratchpad cl a => (spWrite s cl (toBytes a value 8)).1
      | .write, .accumulator cl e =>
        s.setCluster cl { s.cluster cl with acc := tset (s.cluster cl).acc e (BitVec.ofNat 96 value) 0 }
      | _, _ => s)

-- ===== reset of the package =====

/-- The rows of a cluster that fail bring-up's read-back (R427, R298). -/
def failingRows (c : Cluster) : List Nat := ((c.spLatent.filter fun e => decide (e.2 = .lasting)).map (·.1 / 32)).eraseDups

/-- A cluster after the scrubs of bring-up. -/
def Cluster.scrubbed (c : Cluster) : Cluster :=
  let bad := failingRows c
  { spLatent := c.spLatent.filter (fun e => decide (e.2 = .lasting)), rowsWithdrawn := bad }

/-- Whether a firmware image's signature, the number of its bytes with the lowest first, verifies (R423). -/
def signatureOk (image sig svn : Nat) : Bool :=
  slhVerify ⟨Config.firmwareKey.take 32, Config.firmwareKey.drop 32⟩ (Config.signedImage image svn)
    (natBytes 29792 sig)

/-- The firmware that bring-up runs: the staged image where it verifies and is no older than the fused floor (R423, R425). -/
def bootImage (b : Bexile) : Nat :=
  match b.staged with
  | some (image, sig, svn) => if signatureOk image sig svn && decide (svn ≥ Config.fuses.2 % 256) then image else b.image
  | none => b.image

/-- The meaning of PACKAGE_RESET (R427): every register at its reset value, vaults, scratchpads and accumulators scrubbed,
the security state and the firmware as the reset finds them (R425, R426). Whether Bexile's firmware or Zalmer fails to
verify is free; bring-up then halts, with the step in the mailbox. Other memory keeps its bytes, except where open-debug
is entered. -/
def execPackageReset (s : State) : Host.Outcome State Fault Refusal :=
  .next (
    let (s1, n) := drawFree s
    let (s2, m) := drawFree s1
    let failed := if Config.freeBit n then 1 else if Config.freeBit m then 4 else 0
    let image := bootImage s.bexile
    let sec := s.bexile.pendingSec
    let opens := sec.getD (Config.fuses.1 % 4) == 2 && securityState s != 2
    let keep := fun (pa : Nat) => if opens then decide (pa ≥ 0x80000000000) else decide (pa ≥ 0x180000000)
    -- register 0 holds Bexile's firmware and register 1 Zalmer, each measured once it has verified (R423)
    let meas : Tab Nat := ((List.range 2).filter fun i => decide (failed = 0 ∨ (failed = 4 ∧ i = 0))).foldl
      (fun t i => tset t i (extended 0 (Config.measured image i)) 0) []
    let r : State :=
      { State.reset with
        inputs := s.inputs, choiceCtr := s.choiceCtr, freeCtr := s2.freeCtr, notices := s.notices
        mem := s.mem.filter fun e => keep e.1
        lost := s.lost.filter fun b => keep (b * 32)
        latent := s.latent.filter fun e => keep (e.1 * 32)
        remap := s.remap, pools := s.pools
        clusters := teach s.clusters Cluster.scrubbed {}
        bexile := { meas, failed, sec, image } }
    if failed = 0 then r else reply r failed)

/-- Zalmer is loaded into partition 0, and runs (R427, R410): its bytes go to memory, and block 0 of a launch that stands in no queue
is placed. Its bytes, its kernel descriptor and its k values are the image's; one whose descriptor breaks R360 halts bring-up.
DESIGN CHOICE: that Zalmer starts as one block of launch 0 (log 101). -/
def loadZalmer (s : State) : State :=
  let image := s.bexile.image
  let d := (Config.zalmerDesc image).toNat
  let k := Kernel.ofNat d
  let s1 : State := { s with mem := putBytes s.mem (Config.zalmerBytes image) }
  let l : Launch := { id := 0, partition := 0, queue := 64, kernel := k, nextBlock := 1,
                      kvals := (List.range 64).map (Config.zalmerK image) }
  match if descOk d then planFor s1 0 k 0 0 else none with
  | some plan => placeBlock { s1 with launches := s1.launches ++ [l], bexile := { s1.bexile with loading := false } } l 0 plan
  | none => reply { s1 with bexile := { s1.bexile with failed := 4 } } 4

/-- What bring-up does of its own next: Zalmer is loaded (step 4), and once the host link is up the Configuration Ready of the PF is
set by Zalmer (step 7). DESIGN CHOICE: no rule gives a register for it, so it is set at some moment while Zalmer runs (log 101). -/
def bringUpMoves (s : State) : List State :=
  if s.bexile.failed ≠ 0 then []
  else if s.bexile.loading then [loadZalmer s]
  else if s.hostLink.up && !s.hostLink.ready && (s.teams.any fun e => e.2.partition == 0) then
    [{ s with hostLink := { s.hostLink with ready := true } }]
  else []

end Sys2Proof.Machine
end

