-- ==== Sys2Proof/Machine/Issue.lean ====
section
/-! DEFINITION. The issue of a word: its fetch (R16, R32, R291), the checks made at decode (R21, R32, R33), the choice of
the operation that a pctl.wr names, and stalls (R81, R145). -/

namespace Sys2Proof.Machine

/-- What a fetch of a word gives: the word, an address outside the kernel's text, or a failure with its kind (R32). -/
inductive Fetched where
  | word (w : BitVec 64)
  | outside
  | failed (kind : Nat)
deriving DecidableEq, Repr

/-- The word at a team's pc, of its kernel's text, eight bytes in little-endian order (R16, R32). -/
def fetchWord (s : State) (t : Team) : State × Fetched :=
  if !inText (s.kernelOf t) t.pc then (s, .outside)
  else
    match walkTranslate s t.partition t.pc .read with
    | (s1, .error c) => (s1, .failed c.code)
    | (s1, .ok pa) =>
      let r := readBlocks s1 pa 8 t.partition t.pc
      if r.2 then (r.1, .failed FaultCode.memPoisoned.code) else (r.1, .word (BitVec.ofNat 64 (memGet r.1 pa 8)))

/-- Whether a kernel's descriptor allows an instruction: v indices below .regs (R21), a target table that exists (R173),
and grid barriers (R344). -/
def launchAllows (k : Kernel) (i : Instr) : Bool :=
  !namesBadV k.regs i &&
  (match i with
   | .brt _ _ tbl => decide (tbl.toNat < k.ntab)
   | .gbarMeet _ | .gbarPost _ | .gbarAwait _ => k.gridbar
   | _ => true)

/-- The instruction that a team issues for a decoded one: a pctl.wr by the register that K[A] names (R408). -/
def refine (t : Team) (i : Instr) : Instr :=
  match i with
  | .pctlWr h d a b =>
    let r := pctlReg t a
    if r < 0x40 then .pctlWrQcfg h d a b
    else if inRange r 0x88 0x18 || r == 0xA0 then .pctlWrQuota h d a b
    else if r == 0xD1 then .pctlWrIfneg h d a b
    else if r == 0x203 then .pctlWrPwstate h d a b
    else if r == 0x202 then .pctlWrPwcap h d a b
    else if inRange r 0x340 0x40 then .pctlWrFwin h d a b
    else .pctlWr h d a b
  | x => x

/-- The registers that a word reads or writes, that of vget and vput through its index among them (R145, R186). -/
def wordRegs (s : State) (t : Team) (i : Instr) : List Reg :=
  namesOf i ++
  (match i with
   | .vget _ _ k | .vput _ _ k => (indexedReg s t k).elim [] fun r => [Reg.v r]
   | _ => [])

/-- Whether a word stalls at issue: a register with a scoreboarded write outstanding (R145), or a getc of flags while an
instruction of variable latency, a token's among them, is outstanding (R81, R143). -/
def wordStalls (s : State) (t : Team) (i : Instr) : Bool :=
  ((wordRegs s t i).any fun r => t.scoreboard.contains r) ||
  (match i with
   | .getc _ _ ctl => ctl == 0 && t.pend.any fun p => !p.isFixed
   | _ => false)

/-- Whether a team may be granted the datapath, stalls apart: ready, not halted by a debug access, and not in retention
(R153, R422, R426). -/
def mayIssue (s : State) (t : Team) : Bool :=
  t.isReady && !s.bexile.halted.contains t.partition && s.power.cur != 3

/-- The issue of a word of a partition that a debug access traces is told (R426). -/
def traceIssue (s : State) (f : Nat) (t : Team) : State :=
  if s.bexile.traced.contains t.partition then { s with notices := s.notices ++ [.trace t.partition f t.pc] } else s

/-- What a team's issue comes to: an instruction to carry out, or a state in which none is. -/
inductive Issued where
  | run (s : State) (i : Instr)
  | done (s : State)

/-- A team whose every lane has parked enters its handler (R150). -/
def lanesGone (t : Team) : Bool := t.mask == 0 && !t.parked.isEmpty && t.handler.isNone

/-- The issue of the next word of a team whose due results have landed (R32, R33, R145). -/
def issueFrom (s : State) (f : Nat) (t : Team) : Issued :=
  if lanesGone t then .done (trapTeam s f { cause := Cause.parked.code, word := t.pc })
  else
    match fetchWord s t with
    | (s1, .failed kind) => .done (killBlock s1 f t.block ⟨kind, 0xFF, t.pc, t.index, t.pc⟩)
    | (s1, .outside) => .done (trapWord s1 f t .illegalEncoding)
    | (s1, .word w) =>
      match decode w with
      | .error .illegalPair => .done (trapWord s1 f t .illegalPair)
      | .error .illegalEncoding => .done (trapWord s1 f t .illegalEncoding)
      | .ok i =>
        if !launchAllows (s1.kernelOf t) i then .done (trapWord s1 f t (if w.getLsbD 62 then .illegalPair else .illegalEncoding))
        else
          let j := refine t i
          if wordStalls s1 t j then .done s1 else .run { traceIssue s1 f t with cur := f } j

/-- The issue of a team's next word: its fixed-latency results that are due land first (R144). -/
def issueWord (s : State) (f : Nat) : Issued :=
  match tfind s.teams f with
  | none => .done s
  | some t =>
    if !mayIssue s t then .done s
    else
      let s1 := landAt s f t.issues
      match tfind s1.teams f with
      | none => .done s1
      | some t1 => issueFrom s1 f t1

/-- Whether a team is ready: it may issue and its next word does not stall (R153). -/
def teamReady (s : State) (f : Nat) (t : Team) : Bool :=
  mayIssue s t &&
  (let s1 := landAt s f t.issues
   match tfind s1.teams f with
   | none => false
   | some t1 =>
     match fetchWord s1 t1 with
     | (s2, .word w) =>
       (match decode w with
        | .ok i => lanesGone t1 || !launchAllows (s2.kernelOf t1) i || !wordStalls s2 t1 (refine t1 i)
        | .error _ => true)
     | _ => true)

/-- The meaning of yield (R153, R168, R176): where a lane is active, the other teams of the core that are ready now are
granted first. -/
def execYield (h : Hdr) (s : State) : Host.Outcome State Fault Refusal :=
  forTeam s fun f t =>
    let others := (s.teams.filter fun e => coreOf e.1 == coreOf f && e.1 != f && teamReady s e.1 e.2).map (·.1)
    finishWord (if (activeLanes t h).isEmpty then s else s.setTeam f { t with yielded := others }) f { sw := h.sw }

-- ===== a word where the next issue fetches it =====

/-- The physical address from which the team that holds the datapath fetches its next word, if it can. -/
def fetchPlace (s : State) : Option Nat :=
  match s.turn with
  | .free => none
  | .issue f =>
    (tfind s.teams f).bind fun t =>
      if mayIssue s t && inText (s.kernelOf t) t.pc then
        match walkTranslate s t.partition t.pc .read with
        | (_, .ok pa) => some pa
        | (_, .error _) => none
      else none

/-- The kernel that a loaded word runs under: the largest descriptor of R360 that one word of text allows. -/
def loadedKernel : Kernel :=
  { team := 32, teams := 1, blocks := 1, regs := 128, scratch := 3145728, gridbar := true, acc := true, text := 0, textSize := 8,
    ntab := 256 }

/-- A machine loaded from outside with one block of one team of partition 0, granted the datapath, its text at virtual
and physical address 0, mapped by a page of 1 GiB whose tables lie at 1000H and 2000H (R316, R317). -/
def loadTeam (s : State) : State :=
  let mem := bytesSet (bytesSet s.mem 0x1000 0x2001 8) 0x2000 0xF 8
  let l : Launch := { id := 1, kernel := loadedKernel, nextBlock := 1 }
  let b : Block := { launch := 1, rows := 12288, holdsAcc := true, teams := [0] }
  { s with
    turn := .issue 0
    mem
    partitions := tput s.partitions 0 { s.partition 0 with proot := 1 }
    launches := [l]
    blocks := [(0, b)]
    teams := [(0, startTeam l 0 0 0)]
    power := { s.power with cur := 0 }
    bexile := { s.bexile with halted := [], loading := false } }

/-- A word stored where the next step fetches it; where no team holds the datapath at a word that it can fetch, a team is
loaded first. -/
def loadWord (s : State) (w : Nat) : State :=
  match fetchPlace s with
  | some pa => memSet s pa w 8
  | none => memSet (loadTeam s) 0 w 8

end Sys2Proof.Machine
end

