-- ==== Sys2Proof/Machine/Events.lean ====
section
/-! DEFINITION. The arbiter of a core (R153, R154, R176), what passes in a cluster cycle (R11, R382, R387), and the events
that may come next. -/

namespace Sys2Proof.Machine

-- ===== the arbiter =====

/-- The ready teams of a core. -/
def readyTeams (s : State) (core : Nat) : List Nat :=
  (s.teams.filter fun e => coreOf e.1 == core && teamReady s e.1 e.2).map (·.1)

/-- The ready teams that the arbiter grants next from: those that no yield holds back, or all where every one is held back
(R176). DESIGN CHOICE: a team that was ready at a yield and is so no longer holds the yielder back no more (log 48). -/
def grantable (s : State) (ready : List Nat) : List Nat :=
  let free := ready.filter fun f => (tfind s.teams f).elim true fun t => !t.yielded.any fun g => ready.contains g
  if free.isEmpty then ready else free

/-- The team granted: the first after the last team granted, by slot (R153). -/
def nextGrant (s : State) (core : Nat) : Option Nat :=
  let among := grantable s (readyTeams s core)
  ((List.range 8).map fun i => 8 * core + ((s.core core).lastTeam + 1 + i) % 8).find? fun f => among.contains f

/-- The meaning of DATAPATH_GRANT (R153): the team granted issues its next word in the next step, which carries the whole
sweep, and every yield that waited for its grant has had it. Cores below it issue no more in this cluster cycle, whose words are
ordered by core (R213, R358). -/
def execDatapathGrant (core : Nat) (s : State) : Host.Outcome State Fault Refusal :=
  .next (match nextGrant s core with
  | none => s
  | some f =>
    let s1 := s.setCore core { s.core core with lastTeam := f % 8 }
    { s1 with turn := .issue f
              grantFloor := core + 1
              teams := s1.teams.map fun e => if coreOf e.1 == core then (e.1, { e.2 with yielded := e.2.yielded.filter (· != f) }) else e })

-- ===== silicon errors =====

/-- An error kind by its number. -/
def errKind (n : Nat) : ErrKind := if n = 0 then .single else if n = 1 then .transient else .lasting

/-- The words of a cluster's scratchpad. -/
def spWordCount : Nat := 393216

/-- A silicon error strikes (R288, R296, R382, R387): its kind, and where. It shows when the struck item is next read; tables
held under parity lose their item at once, and what is held in triplicate is corrected by vote. -/
def strike (s : State) (e : Nat × Nat) : State :=
  let x := e.2
  match e.1 with
  | 1 | 2 | 3 =>
    (match memRange (x * 32) with
     | some (.host, _) | none => s
     | some _ => if s.lost.contains x then s else { s with latent := tput s.latent x (errKind (e.1 - 1)) })
  | 4 | 5 | 6 =>
    let cl := x / spWordCount % 768
    let c := s.cluster cl
    if c.spPoison.contains (x % spWordCount) then s
    else s.setCluster cl { c with spLatent := tput c.spLatent (x % spWordCount) (errKind (e.1 - 4)) }
  | 7 | 8 | 9 =>
    let cl := x / 65536 % 768
    let c := s.cluster cl
    if c.accPoison.contains (x % 65536) then s
    else s.setCluster cl { c with accLatent := tput c.accLatent (x % 65536) (errKind (e.1 - 7)) }
  | 10 =>
    let core := x / 32768 % 4608
    let c := s.core core
    s.setCore core { c with rowPoison := if c.rowPoison.contains (x % 32768) then c.rowPoison else c.rowPoison ++ [x % 32768] }
  | 11 => s.setCore (x % 4608) (killEntries (s.core (x % 4608)) fun i _ => i == x / 4608)
  | 12 =>
    let c := s.core (x % 4608)
    s.setCore (x % 4608) { c with tlb := c.tlb.eraseIdx (x / 4608) }
  | 13 =>
    let cl := x % 768
    (match (s.cluster cl).l1[x / 768]? with
     | none => s
     | some l => countTrans (l1Drop s cl fun y => y == l) (cl / 64))
  | 14 =>
    (match s.llc[x / 8]? with
     | none => s
     | some l =>
       if l.dirty && l.remote.isNone then loseBlock s (l.line * 8 + x % 8) l.owner 0
       else { countLast s l.die with llc := s.llc.eraseIdx (x / 8) })
  | 15 => countCorr s (x % 12)
  | 16 =>
    let n := s.blocks.length
    (match s.blocks[x % n]? with
     | none => s
     | some b => match b.2.races[x / n]? with
       | none => s
       | some r => countCorr (s.modBlock b.1 fun y => { y with races := tdel y.races r.1 }) (b.2.cluster / 64))
  | _ => s

/-- Whether every team of a cluster stalls: it holds a team that has not ended and does not wait at a grid barrier, whose
release follows the hoist order, and none of its teams is ready (R145, R416). -/
def clusterStalls (s : State) (cl : Nat) : Bool :=
  let mine := s.teams.filter fun e => clusterOf e.1 == cl
  mine.any (fun e => match e.2.wait with
    | .ended _ _ _ _ | .gbar => false
    | _ => true) && mine.all fun e => !teamReady s e.1 e.2

/-- Clusters whose teams have come to a stall are noted, and one whose teams leave a stall is newly active: its first notch is a rise
that nothing withholds (R416). DEDUCED: log 83. -/
def noteStalls (s : State) : State :=
  (s.teams.map (fun e => clusterOf e.1) ++ (s.clusters.filter (·.2.stalled)).map (·.1)).eraseDups.foldl (fun u cl =>
    let c := u.cluster cl
    let now := clusterStalls s cl
    let leaves := c.stalled && !now && s.teams.any fun e => clusterOf e.1 == cl && teamReady s e.1 e.2
    let u1 := u.setCluster cl { c with stalled := now, ctlNotch := if leaves then 5 else c.ctlNotch }
    if leaves then u1.charge u1.power.notchCycles else u1) s

/-- A cluster cycle passes: every count of cycles and fabric time rise (R11, R192, R365, R405, R449), flits that a retraining held
go on (R454), and halting and retention begin where nothing stands in their way any longer (R420, R422). -/
def tick (s : State) : State :=
  let s1 := noteStalls (noteWaiting s)
  let s2 := { s1 with cycle := s1.cycle + 1, grantFloor := 0, launches := s1.launches.map (tickLaunch s1), fabric := s1.fabric.tick }
  let s3 := enterRetention ((List.range 8).foldl beginHalting (flushTransit s2))
  let (s4, n) := drawFree s3
  strike s4 (Config.upset n)

-- ===== the events that are due =====

/-- Wakes from tmwait that cannot wait for another cycle: a team wakes within 2 cluster cycles of its deadline (R452). -/
def dueWakes (s : State) : List Instr :=
  (s.teams.filter fun e => match e.2.wait with
    | .time d _ _ => !e.2.outstanding && decide (s.fabric.time % (4000000 * 2 ^ 64) > 4000000 * d + 5000000)
    | _ => false).map fun e => .tmwaitWake e.1

/-- Waves of the hoist order whose time has come (R418). -/
def dueWaves (s : State) : List Instr :=
  ((List.range s.launches.length).zip s.launches).flatMap fun e => match e.2.release with
    | none => []
    | some r => (r.waiting.filter fun u => decide (s.cycle ≥ r.time u)).map fun u => .hoistWaveRelease e.1 u

/-- What happens as soon as it can: a deferred write of a queue that has become empty (R357), the save of a partition whose every
block has halted (R401), and a reset that waited for retirements, of which none is left (R391). -/
def dueSettled (s : State) : List Instr :=
  ((s.queues.filter fun e => e.2.pendingWrite.isSome && occupied s e.1 == 0).map fun e => .qcfgDeferredApply e.1) ++
  ((List.range 8).filter fun n => allHalted s n).map .preemptSave ++
  (if s.retiring.isEmpty && (List.range 8).any fun n => (s.partition n).resetting then [.pageRetirementComplete 0] else [])

/-- Limits of queues and partitions that have been reached (R365, R401, R405). -/
def dueLimits (s : State) : List Instr :=
  ((s.queues.filter fun e => watchdogDue s e.1).map fun e => .watchdogExpiry e.1) ++
  ((s.queues.filter fun e => !e.2.heldBack && e.2.waitSince.elim false fun c => decide (s.cycle ≥ c + 8192)).map fun e =>
    .priorityWaitTimeout e.1) ++
  ((List.range 8).filter fun n => (s.partition n).preempting && decide (s.cycle ≥ (s.partition n).preemptDeadline)).map .preemptBudgetExpiry

/-- Times of the fabric that have come (R446, R447, R449). A grandmaster is in step with itself at every sync interval. -/
def dueFabric (s : State) : List Instr :=
  let x := s.fabric
  let podDue := fun (c : Coll) => c.committed && (match c.leaveAt with
    | none => decide (x.ns ≥ c.releaseAt)
    | some t => decide (s.cycle ≥ t))
  ((s.colls.filter fun e => !e.2.committed && !e.2.bound && decide (s.cycle ≥ e.2.deadline)).map fun e => .collTimeout e.1) ++
  ((s.colls.filter fun e => podDue e.2).map fun e => .podBarrierRelease e.1) ++
  (if x.role != 0 && x.grandmaster == some x.fid && decide (s.cycle ≥ x.lastSync + x.syncCycles) then [.ptpSyncReceived x.fid 0 0] else []) ++
  (if x.silent s.cycle then [.ptpSyncLoss] else [])

/-- Lines of .gl and .vt data that have reached their age (R323). -/
def dueLines (s : State) : List Instr :=
  s.clusters.flatMap fun e => (e.2.l1.filter fun l => !l1Valid s l).map fun l => .l1LineAgeOut e.1 l.line

/-- The events whose time has come: they happen before a cycle passes. -/
def dueMoves (s : State) : List Instr :=
  ([dueSettled s, dueWakes s, dueWaves s, dueLimits s, dueFabric s, dueLines s,
    if (s.power.cap != 0 || s.power.notch != 0) && decide (s.cycle ≥ s.power.lastCap + 8000) then [.capStep] else []]
    : List (List Instr)).flatten

-- ===== the events that may happen =====

/-- The events of a team that may happen. -/
def teamMoves (s : State) (f : Nat) (t : Team) : List Instr :=
  let results := t.pend.flatMap fun p =>
    if p.lat == .variable then
      if p.accs = 0 then [Instr.variableLatencyWriteback f p.issue 0]
      else (s.accs.filter fun e => e.2.team == f && e.2.issue == p.issue && e.2.kind.returns).map fun e =>
        .variableLatencyWriteback f p.issue e.2.lane
    else if p.tokenDone then [.variableLatencyWriteback f p.issue 0] else []
  let slots := (t.slots.filter fun e => e.2.state == .pending && !slotWalks s f e.1).map fun e => Instr.layoutSlotLoaded f e.1
  let own := match t.wait with
    | .marker | .trap _ => [Instr.segmentResume f]
    | .entries _ => [.scoreboardStallRelease f]
    | .time _ _ _ => [.tmwaitWake f]
    | .ended _ _ _ _ => if teamOver s f t then [.teamEnd f] else []
    | _ => []
  results ++ slots ++ own

/-- The events of an asynchronous operation that may happen (R216 to R291). -/
def opMoves (s : State) (cl key : Nat) (x : AsyncOp) : List Instr :=
  match x.phase with
  | .waiting => [.asyncOperationStart cl key]
  | .held => [.followOnMmaIssue cl key]
  | .moved => [.matrixOperationComplete cl key]
  | .running =>
    if (engineFaultOf s cl x).isSome then [.engineFault cl key]
    else if x.kind.onArray then [.matrixOperationComplete cl key] else [.copyCompletion cl key]

/-- The events of accesses in flight that return nothing (R218, R322), and of scratchpad atomics; a load's lanes come with its
result. -/
def accMoves (key : Nat) (a : Acc) : List Instr :=
  match a.place with
  | .sp _ _ => if a.readsSp then [] else [.plainSpAccessPerformed key]
  | .home _ => if a.kind.returns || a.toHost then [] else [.homeStorePerformed key]
  | .remote _ _ => []

/-- The cores that hold a team. -/
def busyCores (s : State) : List Nat := (s.teams.map fun e => coreOf e.1).eraseDups

/-- Every event of the package that may happen now; one that is not enabled leaves the state as it is. -/
def moves (s : State) : List Instr :=
  ([((busyCores s).filter fun c => decide (s.grantFloor ≤ c)).map .datapathGrant,
    s.teams.flatMap (fun e => teamMoves s e.1 e.2),
    s.clusters.flatMap (fun c => c.2.ops.flatMap fun e => opMoves s c.1 e.1 e.2),
    ((s.clusters.filter fun c => c.2.ctlNotch != 0).map fun c => .slewNotchStep c.1),
    s.accs.flatMap (fun e => accMoves e.1 e.2),
    s.walks.map (fun e => .pageWalkComplete e.1),
    s.retiring.map (fun r => .pageRetirementComplete r.frame),
    s.latent.map (fun e => .memoryScrub e.1),
    ((List.range 8).filter fun n => (decision s n).isSome).map .placementDecision,
    ((List.range 8).filter fun n => (s.partition n).pendingQuota.isSome).map .quotaChangeApply,
    ((((List.range s.launches.length).zip s.launches).filter fun e => launchOver s e.2).map fun e => .gridCompletion e.1),
    s.seals.map (fun e => .sealCompletion e.1),
    s.colls.map (fun e => .collCommit e.1)] : List (List Instr)).flatten

/-- A part of something long that may go on by itself: bring-up (R427), an operation that moves its elements one by one (R232, R262,
R336), or a sealing that changes its pages one by one (R442). -/
inductive Part where
  | bringUp
  | op (cluster key : Nat)
  | sealing (op : Nat)
deriving DecidableEq, Repr

/-- The parts that may go on now. -/
def parts (s : State) : List Part :=
  (if (bringUpMoves s).isEmpty then [] else [Part.bringUp]) ++
  (s.clusters.flatMap fun c => (c.2.ops.filter fun e => e.2.phase == .running).map fun e => Part.op c.1 e.1) ++
  (s.seals.filter fun e => !e.2.told).map fun e => Part.sealing e.1

/-- A part goes on; `pick` chooses which element or page is the next. -/
def goOn (s : State) (p : Part) (pick : Nat) : State :=
  match p with
  | .bringUp => (bringUpMoves s).headD s
  | .op cl key => (tfind (s.cluster cl).ops key).elim s fun x => opPart s cl key x pick
  | .sealing op => (tfind s.seals op).elim s fun x => sealPart s op x pick

/-- Whether an event comes from outside the package, or from a part of it that gives no state: the host, the management
bus, a lane of a port, another package. -/
def isInput : Instr → Bool
  | .doorbellWrite _ _ _ | .hostRequestCompletion _ _ | .hostDeviceMemoryAccess _ _ _ | .hostLinkTraining _
  | .functionLevelReset _ | .packageReset | .retentionWake _ | .nodeCapSet _ | .pldmSensorRead _ | .pldmBaseRequest _
  | .firmwareUpdate _ _ _ | .attestationReport _ | .measurementExtend _ _ | .unlockToken _ | .debugAccess _ _ _
  | .tarbinPortTraining _ _ _ _ _ _ | .flitReplay _ | .portLaneFailure _ _ | .flitForward _ | .remoteRequestArrival _
  | .remoteAnswerArrival _ _ _ _ _ | .remoteStoreAck _ _ | .collContributionArrival _ _ _ | .collMemberFailure _ _
  | .fabricRangeDrop _ _ _ _ | .ptpSyncReceived _ _ _ | .ptpAnnounceReceived _ _ => true
  | _ => false

/-- Whether an input reaches the package: after a failed bring-up only a reset does, and the host only over a link that has
trained (R427). -/
def inputLands (s : State) : Instr → Bool
  | .packageReset => true
  | .doorbellWrite _ _ _ | .hostRequestCompletion _ _ | .hostDeviceMemoryAccess _ _ _ | .functionLevelReset _ =>
    s.bexile.failed == 0 && s.hostLink.up
  | _ => s.bexile.failed == 0

/-- Whether the port on the route to a package retrains, which holds its traffic (R454). -/
def portHolds (s : State) (pkg : Nat) : Bool := decide ((s.port (routePort s pkg)).heldUntil > s.cycle)

/-- The package that an access in flight goes to, if it is another one. -/
def accPackage (s : State) (acc : Nat) : Option Nat :=
  (tfind s.accs acc).bind fun a => match a.place with
    | .remote pkg _ => some pkg
    | _ => none

/-- Whether an input is held: by the home, whose frame is under retirement (R385), or by the port that brings it (R454). -/
def inputHeld (s : State) : Instr → Bool
  | .hostDeviceMemoryAccess _ addr _ => frameHeld s addr
  | .remoteRequestArrival r =>
    portHolds s r.package ||
    (!s.retiring.isEmpty && (spanPartition s r.span).any fun n =>
      (walkFrom s r.addr 3 ((s.partition n).proot * 4096)).any fun l =>
        frameHeld s ((Leaf.ofNat l.1).frame * 65536 + r.addr % 2 ^ l.2))
  | .remoteAnswerArrival acc _ _ _ _ | .remoteStoreAck acc _ => (accPackage s acc).any (portHolds s)
  | _ => false

/-- Whether an input is a scheduled store whose deadline comes in this cluster cycle or has come (R453). -/
def deadlineNear (s : State) : Instr → Bool
  | .remoteRequestArrival r => r.due.any fun d => decide (d ≤ s.fabric.ns + 2)
  | _ => false

/-- The state as an input leaves it for the rest of the cycle: a host's enqueue comes after those of every core (R358). -/
def afterInput (s : State) : Instr → State
  | .doorbellWrite _ _ _ => { s with grantFloor := 4608 }
  | _ => s

/-- What comes next where no team has been granted: an event, a part of something long, or a cluster cycle. -/
inductive Next where
  | event (s : State) (i : Instr)
  | move (s : State)
  | cycle (s : State)

/-- The next input, taken from those that wait. One that is no event from outside, or does not reach the package, is dropped. -/
def takeInput (s : State) : Next :=
  match s.inputs with
  | [] => .cycle s
  | i :: r =>
    if inputHeld s i then .cycle s
    else if isInput i && inputLands s i then .event (afterInput { s with inputs := r } i) i
    else .cycle { s with inputs := r }

/-- The choice of what comes next: an event that is due, or an input while a scheduled store among them has to be performed (R453);
else, freely, an event that may happen, a part that may go on, an input or a cycle. After a failed bring-up nothing goes on but
inputs and time (R427). -/
def chooseNext (s : State) : Next :=
  match if s.bexile.failed = 0 then dueMoves s else [] with
  | i :: _ => .event s i
  | [] =>
    let ms := moves s
    let ps := parts s
    if s.bexile.failed ≠ 0 ∨ s.inputs.any (deadlineNear s) then takeInput s
    else if ms.isEmpty && ps.isEmpty && s.inputs.isEmpty then .cycle s
    else
      let c := Config.choice s.choiceCtr
      let n := c % (ms.length + ps.length + 2)
      let s1 := { s with choiceCtr := s.choiceCtr + 1 }
      match ms[n]?, ps[n - ms.length]? with
      | some i, _ => .event s1 i
      | none, some p => .move (goOn s1 p (c / (ms.length + ps.length + 2)))
      | none, none => if n = ms.length + ps.length then takeInput s1 else .cycle s1

end Sys2Proof.Machine
end

