-- ==== Sys2Proof/Machine/Transcend.lean ====
section
/-! DEFINITION. The transcendental functions of R112, each the exact value rounded once to nearest even in .f32.
An irrational value is enclosed in fixed point far beyond the bits that rounding needs; the exact cases are taken
first, so that every other result is inexact. -/

namespace Sys2Proof.Machine

/-- The fraction bits of the fixed-point numbers of fex2, flg2 and ftanh. -/
def fixP : Nat := 320

/-- floor(ln 2 × 2^320). -/
def fixLn2 : Nat :=
  0xB17217F7D1CF79ABC9E3B39803F2F6AF40F343267298B62D8A0D175B8BAAFA2BE7B876206DEBAC98

/-- The fraction bits of the fixed-point numbers of fsinpi and fcospi. -/
def trigP : Nat := 448

/-- floor(π × 2^448). -/
def trigPi : Nat :=
  0x3243F6A8885A308D313198A2E03707344A4093822299F31D0082EFA98EC4E6C89452821E638D01377BE5466CF34E90C6CC0AC29B7C97C50DD

/-- The sum of y^k / k! from term k on, in fixed point of p bits; t is the term before it. -/
def expSeries (p y : Nat) : Nat → Nat → Nat → Nat → Nat
  | 0, _, _, acc => acc
  | n + 1, k, t, acc =>
    let t' := t * y / 2 ^ p / k
    expSeries p y n (k + 1) t' (acc + t')

/-- e^y for 0 ≤ y < 1 in fixed point of 320 bits. -/
def fixExp (y : Nat) : Nat := expSeries fixP y 80 1 (2 ^ fixP) (2 ^ fixP)

/-- 2^x for x that is no integer, as significand, exponent (and something below): −150 < x < 128 (R112). -/
def exp2Parts (s : Bool) (m : Nat) (e : Int) : Nat × Int :=
  -- x in fixed point, exact: e ≥ −149
  let a := m * 2 ^ (e + fixP).toNat
  let x : Int := if s then -(a : Int) else a
  let n := x / (2 ^ fixP : Nat)
  let f := (x % (2 ^ fixP : Nat)).toNat
  (fixExp (f * fixLn2 / 2 ^ fixP), n - fixP)

/-- fex2 (R112). -/
def fex2Val (x : FV) : Nat × Flags :=
  match x with
  | .nan => (Fmt.f32.nan, 0)
  | .inf true => (0, 0)
  | .inf false => (Fmt.f32.inf false, 0)
  | .fin s m e =>
    if FV.cmp x (.fin false 128 0) != .lt then (Fmt.f32.inf false, Flags.overflow)
    else if FV.cmp x (.fin true 150 0) != .gt then (0, Flags.underflow)
    else
      let (i, inex) := roundToInt .rtz s m e
      if !inex then Fmt.f32.round .rne false 1 i false
      else
        let (v, q) := exp2Parts s m e
        Fmt.f32.round .rne false v q true

/-- The sum of z^(2k+1) / (2k+1) in fixed point; t is z^(2k+1), z2 is z². -/
def atanhSeries (z2 : Nat) : Nat → Nat → Nat → Nat → Nat
  | 0, _, _, acc => acc
  | n + 1, k, t, acc => atanhSeries z2 n (k + 2) (t * z2 / 2 ^ fixP) (acc + t / k)

/-- ln t for 1 ≤ t < 2, t = m / 2^b, in fixed point of 320 bits. -/
def fixLn (m b : Nat) : Nat :=
  let z := (m - 2 ^ b) * 2 ^ fixP / (m + 2 ^ b)
  2 * atanhSeries (z * z / 2 ^ fixP) 110 1 z 0

/-- flg2 (R112). -/
def flg2Val (x : FV) : Nat × Flags :=
  match x with
  | .nan => (Fmt.f32.nan, 0)
  | .inf false => (Fmt.f32.inf false, 0)
  | .inf true => Fmt.f32.invalid
  | .fin s m e =>
    if m = 0 then (Fmt.f32.inf true, Flags.dz)
    else if s then Fmt.f32.invalid
    else
      let b := bitLen m - 1
      let n : Int := e + b
      if m = 2 ^ b then Fmt.f32.round .rne (decide (n < 0)) n.natAbs 0 false
      else
        let v : Int := n * (2 ^ fixP : Nat) + (fixLn m b * 2 ^ fixP / fixLn2 : Nat)
        Fmt.f32.round .rne (decide (v < 0)) v.natAbs (-(fixP : Int)) true

/-- The alternating sum of the terms of sin or cos: the k-th factor is k × (k + 1), y2 the square of the argument. -/
def trigSeries (y2 : Nat) : Nat → Nat → Int → Int → Int
  | 0, _, _, acc => acc
  | n + 1, k, t, acc =>
    let t' : Int := -(t * y2 / ((2 ^ trigP : Nat) : Int) / ((k * (k + 1) : Nat) : Int))
    trigSeries y2 n (k + 2) t' (acc + t')

/-- sin y in fixed point of 448 bits, 0 ≤ y ≤ π / 2. -/
def fixSin (y : Nat) : Nat := (trigSeries (y * y / 2 ^ trigP) 60 2 y y).toNat

/-- cos y in fixed point of 448 bits, 0 ≤ y ≤ π / 2. -/
def fixCos (y : Nat) : Nat := (trigSeries (y * y / 2 ^ trigP) 60 1 (2 ^ trigP) (2 ^ trigP)).toNat

/-- sin(π × r / 2^b) for 0 < r / 2^b < 1/2 or beyond, reduced to a quarter turn: the magnitude in fixed point. -/
def sinTurn (r b : Nat) : Nat :=
  -- r / 2^b in [0, 1); about 1/2 the sine is even
  let r' := if 2 * r > 2 ^ b then 2 ^ b - r else r
  let y := r' * trigPi / 2 ^ b
  if 4 * r' ≤ 2 ^ b then fixSin y else fixCos ((2 ^ b - 2 * r') * trigPi / 2 ^ (b + 1))

/-- fsinpi (R112). -/
def fsinpiVal (x : FV) : Nat × Flags :=
  match x with
  | .nan => (Fmt.f32.nan, 0)
  | .inf _ => Fmt.f32.invalid
  | .fin s m e =>
    if m = 0 then (Fmt.f32.zero s, 0)
    else if 0 ≤ e then (Fmt.f32.zero s, 0)
    else
      let b := (-e).toNat
      let t := m % 2 ^ (b + 1)
      let r := t % 2 ^ b
      let neg := s != (t / 2 ^ b == 1)
      if r = 0 then (Fmt.f32.zero s, 0)
      else if 2 * r = 2 ^ b then Fmt.f32.round .rne neg 1 0 false
      else Fmt.f32.round .rne neg (sinTurn r b) (-(trigP : Int)) true

/-- fcospi (R112). -/
def fcospiVal (x : FV) : Nat × Flags :=
  match x with
  | .nan => (Fmt.f32.nan, 0)
  | .inf _ => Fmt.f32.invalid
  | .fin _ m e =>
    let b := (-e).toNat
    let m := m * 2 ^ e.toNat
    let t := m % 2 ^ (b + 1)
    let r := t % 2 ^ b
    let odd := t / 2 ^ b == 1
    if r = 0 then Fmt.f32.round .rne odd 1 0 false
    else if 2 * r = 2 ^ b then (0, 0)
    else
      -- cos(π r) = sin(π (1/2 − r)) for r < 1/2, −sin(π (r − 1/2)) beyond
      let h := 2 ^ b
      let d := if 2 * r < h then h - 2 * r else 2 * r - h
      Fmt.f32.round .rne (odd != decide (2 * r > h)) (sinTurn d (b + 1)) (-(trigP : Int)) true

/-- ftanh (R112). For |x| < 2^−13 the value lies below x by less than a quarter of the last place; for |x| ≥ 16 it
lies below 1 by less than 2^−40. -/
def ftanhVal (x : FV) : Nat × Flags :=
  match x with
  | .nan => (Fmt.f32.nan, 0)
  | .inf s => Fmt.f32.round .rne s 1 0 false
  | .fin s m e =>
    if m = 0 then (Fmt.f32.zero s, 0)
    else if FV.cmp (.fin false m e) (.fin false 1 (-13)) == .lt then
      Fmt.f32.round .rne s (m * 2 ^ 40 - 1) (e - 40) true
    else if FV.cmp (.fin false m e) (.fin false 16 0) != .lt then
      Fmt.f32.round .rne s (2 ^ 60 - 1) (-60) true
    else
      let a := m * 2 ^ (e + 1 + fixP).toNat
      let n := a / fixLn2
      let w := fixExp (a - n * fixLn2) * 2 ^ n
      let one := 2 ^ fixP
      Fmt.f32.round .rne s ((w - one) * one / (w + one)) (-(fixP : Int)) true

end Sys2Proof.Machine
end

