-- ==== Sys2Proof/Machine/FloatOps.lean ====
section
/-! DEFINITION. The meanings of the floating-point class (R105 to R115). -/

namespace Sys2Proof.Machine

/-- fadd (R109): sum -/
def faddAlu (h : Hdr) (ty : Ty) (rnd : Rnd) (d : Dst) (a b : MSrc) : Alu :=
  fltBin (.fadd h ty rnd d a b) h L4 d (Fmt.ofTy ty) a b fun x y => fltOut ((Fmt.ofTy ty).add rnd x y)

/-- The meaning of fadd. -/
def execFadd (h : Hdr) (ty : Ty) (rnd : Rnd) (d : Dst) (a b : MSrc) (s : State) : Host.Outcome State Fault Refusal :=
  (faddAlu h ty rnd d a b).exec s

/-- fsub (R109): difference -/
def fsubAlu (h : Hdr) (ty : Ty) (rnd : Rnd) (d : Dst) (a b : MSrc) : Alu :=
  fltBin (.fsub h ty rnd d a b) h L4 d (Fmt.ofTy ty) a b fun x y => fltOut ((Fmt.ofTy ty).add rnd x y.neg)

/-- The meaning of fsub. -/
def execFsub (h : Hdr) (ty : Ty) (rnd : Rnd) (d : Dst) (a b : MSrc) (s : State) : Host.Outcome State Fault Refusal :=
  (fsubAlu h ty rnd d a b).exec s

/-- fmul (R109): product -/
def fmulAlu (h : Hdr) (ty : Ty) (rnd : Rnd) (d : Dst) (a b : MSrc) : Alu :=
  fltBin (.fmul h ty rnd d a b) h L4 d (Fmt.ofTy ty) a b fun x y => fltOut ((Fmt.ofTy ty).mul rnd x y)

/-- The meaning of fmul. -/
def execFmul (h : Hdr) (ty : Ty) (rnd : Rnd) (d : Dst) (a b : MSrc) (s : State) : Host.Outcome State Fault Refusal :=
  (fmulAlu h ty rnd d a b).exec s

/-- ffma (R109): product plus C, rounded once -/
def ffmaAlu (h : Hdr) (ty : Ty) (rnd : Rnd) (d : Dst) (a b c : MSrc) : Alu :=
  fltTri (.ffma h ty rnd d a b c) h L8 d (Fmt.ofTy ty) a b c fun x y z => fltOut ((Fmt.ofTy ty).fma rnd x y z)

/-- The meaning of ffma. -/
def execFfma (h : Hdr) (ty : Ty) (rnd : Rnd) (d : Dst) (a b c : MSrc) (s : State) : Host.Outcome State Fault Refusal :=
  (ffmaAlu h ty rnd d a b c).exec s

/-- fmin (R110): lesser -/
def fminAlu (h : Hdr) (ty : Ty) (d : Dst) (a b : MSrc) : Alu :=
  fltBin (.fmin h ty d a b) h L4 d (Fmt.ofTy ty) a b fun x y => fltOut ((Fmt.ofTy ty).pattern (FV.min x y), 0)

/-- The meaning of fmin. -/
def execFmin (h : Hdr) (ty : Ty) (d : Dst) (a b : MSrc) (s : State) : Host.Outcome State Fault Refusal :=
  (fminAlu h ty d a b).exec s

/-- fmax (R110): greater -/
def fmaxAlu (h : Hdr) (ty : Ty) (d : Dst) (a b : MSrc) : Alu :=
  fltBin (.fmax h ty d a b) h L4 d (Fmt.ofTy ty) a b fun x y => fltOut ((Fmt.ofTy ty).pattern (FV.max x y), 0)

/-- The meaning of fmax. -/
def execFmax (h : Hdr) (ty : Ty) (d : Dst) (a b : MSrc) (s : State) : Host.Outcome State Fault Refusal :=
  (fmaxAlu h ty d a b).exec s

/-- The answer of fcmp: undecided where an operand is a NaN (R111). -/
def fcmpVal (rel : Rel) (x y : FV) : BitVec 2 := if x.isNan || y.isNan then 2 else boolP (rel.holds (FV.cmp x y))

/-- fcmp (R111): a relation to a predicate. -/
def fcmpAlu (h : Hdr) (ty : Ty) (rel : Rel) (pd : BitVec 4) (a b : MSrc) : Alu :=
  { i := .fcmp h ty rel pd a b, h, lat := L4, dests := [pReg pd], lin := .none, srcs := [a.src, b.src]
    fn := fun s f t l => lanePred pd (fcmpVal rel (readFlt s f t (Fmt.ofTy ty) a l) (readFlt s f t (Fmt.ofTy ty) b l)) }

/-- The meaning of fcmp. -/
def execFcmp (h : Hdr) (ty : Ty) (rel : Rel) (pd : BitVec 4) (a b : MSrc) (s : State) : Host.Outcome State Fault Refusal :=
  (fcmpAlu h ty rel pd a b).exec s

/-- frcp (R109): reciprocal -/
def frcpAlu (h : Hdr) (rnd : Rnd) (d : Dst) (a : MSrc) : Alu :=
  fltUn (.frcp h rnd d a) h L12 d Fmt.f32 a fun x => fltOut (Fmt.f32.div rnd (.fin false 1 0) x)

/-- The meaning of frcp. -/
def execFrcp (h : Hdr) (rnd : Rnd) (d : Dst) (a : MSrc) (s : State) : Host.Outcome State Fault Refusal :=
  (frcpAlu h rnd d a).exec s

/-- frsq (R109): reciprocal square root -/
def frsqAlu (h : Hdr) (rnd : Rnd) (d : Dst) (a : MSrc) : Alu :=
  fltUn (.frsq h rnd d a) h L12 d Fmt.f32 a fun x => fltOut (Fmt.f32.rsqrt rnd x)

/-- The meaning of frsq. -/
def execFrsq (h : Hdr) (rnd : Rnd) (d : Dst) (a : MSrc) (s : State) : Host.Outcome State Fault Refusal :=
  (frsqAlu h rnd d a).exec s

/-- fsqrt (R109): square root -/
def fsqrtAlu (h : Hdr) (ty : Ty) (rnd : Rnd) (d : Dst) (a : MSrc) : Alu :=
  fltUn (.fsqrt h ty rnd d a) h .variable d (Fmt.ofTy ty) a fun x => fltOut ((Fmt.ofTy ty).sqrt rnd x)

/-- The meaning of fsqrt. -/
def execFsqrt (h : Hdr) (ty : Ty) (rnd : Rnd) (d : Dst) (a : MSrc) (s : State) : Host.Outcome State Fault Refusal :=
  (fsqrtAlu h ty rnd d a).exec s

/-- fdiv (R109): quotient -/
def fdivAlu (h : Hdr) (ty : Ty) (rnd : Rnd) (d : Dst) (a b : MSrc) : Alu :=
  fltBin (.fdiv h ty rnd d a b) h .variable d (Fmt.ofTy ty) a b fun x y => fltOut ((Fmt.ofTy ty).div rnd x y)

/-- The meaning of fdiv. -/
def execFdiv (h : Hdr) (ty : Ty) (rnd : Rnd) (d : Dst) (a b : MSrc) (s : State) : Host.Outcome State Fault Refusal :=
  (fdivAlu h ty rnd d a b).exec s

/-- fex2 (R112): power of two -/
def fex2Alu (h : Hdr) (d : Dst) (a : MSrc) : Alu :=
  fltUn (.fex2 h d a) h L12 d Fmt.f32 a fun x => fltOut (fex2Val x)

/-- The meaning of fex2. -/
def execFex2 (h : Hdr) (d : Dst) (a : MSrc) (s : State) : Host.Outcome State Fault Refusal :=
  (fex2Alu h d a).exec s

/-- flg2 (R112): base-two logarithm -/
def flg2Alu (h : Hdr) (d : Dst) (a : MSrc) : Alu :=
  fltUn (.flg2 h d a) h L12 d Fmt.f32 a fun x => fltOut (flg2Val x)

/-- The meaning of flg2. -/
def execFlg2 (h : Hdr) (d : Dst) (a : MSrc) (s : State) : Host.Outcome State Fault Refusal :=
  (flg2Alu h d a).exec s

/-- fsinpi (R112): sine of a multiple of pi -/
def fsinpiAlu (h : Hdr) (d : Dst) (a : MSrc) : Alu :=
  fltUn (.fsinpi h d a) h L12 d Fmt.f32 a fun x => fltOut (fsinpiVal x)

/-- The meaning of fsinpi. -/
def execFsinpi (h : Hdr) (d : Dst) (a : MSrc) (s : State) : Host.Outcome State Fault Refusal :=
  (fsinpiAlu h d a).exec s

/-- fcospi (R112): cosine of a multiple of pi -/
def fcospiAlu (h : Hdr) (d : Dst) (a : MSrc) : Alu :=
  fltUn (.fcospi h d a) h L12 d Fmt.f32 a fun x => fltOut (fcospiVal x)

/-- The meaning of fcospi. -/
def execFcospi (h : Hdr) (d : Dst) (a : MSrc) (s : State) : Host.Outcome State Fault Refusal :=
  (fcospiAlu h d a).exec s

/-- ftanh (R112): hyperbolic tangent -/
def ftanhAlu (h : Hdr) (d : Dst) (a : MSrc) : Alu :=
  fltUn (.ftanh h d a) h L12 d Fmt.f32 a fun x => fltOut (ftanhVal x)

/-- The meaning of ftanh. -/
def execFtanh (h : Hdr) (d : Dst) (a : MSrc) (s : State) : Host.Outcome State Fault Refusal :=
  (ftanhAlu h d a).exec s

/-- fclass (R113): class mask -/
def fclassAlu (h : Hdr) (ty : Ty) (d : Dst) (a : MSrc) : Alu :=
  fltUn (.fclass h ty d a) h L4 d (Fmt.ofTy ty) a fun x => fltOut ((Fmt.ofTy ty).classify x, 0)

/-- The meaning of fclass. -/
def execFclass (h : Hdr) (ty : Ty) (d : Dst) (a : MSrc) (s : State) : Host.Outcome State Fault Refusal :=
  (fclassAlu h ty d a).exec s

/-- fscale (R109): x times a power of two, with the exponent read as an integer. -/
def fscaleAlu (h : Hdr) (ty : Ty) (rnd : Rnd) (d : Dst) (a : MSrc) (b : Src) : Alu :=
  { i := .fscale h ty rnd d a b, h, lat := L4, dests := [dstReg d]
    lin := .key [.src (.flt (Fmt.ofTy ty)) a.src, .src .int b], srcs := [a.src, b]
    fn := fun s f t l =>
      laneVal d (fltOut ((Fmt.ofTy ty).scale rnd (readFlt s f t (Fmt.ofTy ty) a l) (rdInt .s32 (readSrc s f t .int b l)))) }

/-- The meaning of fscale. -/
def execFscale (h : Hdr) (ty : Ty) (rnd : Rnd) (d : Dst) (a : MSrc) (b : Src) (s : State) : Host.Outcome State Fault Refusal :=
  (fscaleAlu h ty rnd d a b).exec s

/-- A value converted between formats (R114). -/
def cvtfVal (td : Fmt) (rnd : Rnd) (x : FV) : Nat × Flags :=
  match x with
  | .fin s m e => td.round rnd s m e false
  | _ => (td.pattern x, 0)

/-- A value converted to an integer type (R114). -/
def cvtfiVal (td : Ty) (rnd : Rnd) (x : FV) : Word × Flags :=
  match x with
  | .nan => (0, Flags.nv)
  | .inf s => (putInt td (if s then td.least else td.largest), Flags.nv)
  | .fin s m e =>
    let r := roundToInt rnd s m e
    if r.1 < td.least then (putInt td td.least, Flags.nv)
    else if r.1 > td.largest then (putInt td td.largest, Flags.nv)
    else (putInt td r.1, Flags.when r.2 Flags.nx)

/-- cvtf (R114): conversion between formats -/
def cvtfAlu (h : Hdr) (td ts : Ty) (rnd : Rnd) (d : Dst) (a : MSrc) : Alu :=
  fltUn (.cvtf h td ts rnd d a) h L4 d (Fmt.ofTy ts) a fun x => fltOut (cvtfVal (Fmt.ofTy td) rnd x)

/-- The meaning of cvtf. -/
def execCvtf (h : Hdr) (td ts : Ty) (rnd : Rnd) (d : Dst) (a : MSrc) (s : State) : Host.Outcome State Fault Refusal :=
  (cvtfAlu h td ts rnd d a).exec s

/-- cvtfi (R114): conversion to an integer -/
def cvtfiAlu (h : Hdr) (td ts : Ty) (rnd : Rnd) (d : Dst) (a : MSrc) : Alu :=
  fltUn (.cvtfi h td ts rnd d a) h L4 d (Fmt.ofTy ts) a (cvtfiVal td rnd)

/-- The meaning of cvtfi. -/
def execCvtfi (h : Hdr) (td ts : Ty) (rnd : Rnd) (d : Dst) (a : MSrc) (s : State) : Host.Outcome State Fault Refusal :=
  (cvtfiAlu h td ts rnd d a).exec s

/-- An integer converted to a format (R114). -/
def cvtifVal (td : Fmt) (rnd : Rnd) (x : Int) : Nat × Flags := td.round rnd (decide (x < 0)) x.natAbs 0 false

/-- cvtif (R114): conversion from an integer -/
def cvtifAlu (h : Hdr) (td ts : Ty) (rnd : Rnd) (d : Dst) (a : Src) : Alu :=
  aluUn (.cvtif h td ts rnd d a) h L4 d a fun x => fltOut (cvtifVal (Fmt.ofTy td) rnd (rdInt ts x))

/-- The meaning of cvtif. -/
def execCvtif (h : Hdr) (td ts : Ty) (rnd : Rnd) (d : Dst) (a : Src) (s : State) : Host.Outcome State Fault Refusal :=
  (cvtifAlu h td ts rnd d a).exec s

/-- fdot2 (R115): two products of packed elements and C, rounded once to .f32. -/
def fdot2Alu (h : Hdr) (ty : Ty) (rnd : Rnd) (d : Dst) (a b : Src) (c : MSrc) : Alu :=
  let e := Fmt.ofTy ty
  { i := .fdot2 h ty rnd d a b c, h, lat := L8, dests := [dstReg d]
    lin := .key [.src (.packed e) a, .src (.packed e) b, .src (.flt Fmt.f32) c.src], srcs := [a, b, c.src]
    fn := fun s f t l =>
      let x := (readSrc s f t (.packed e) a l).toNat
      let y := (readSrc s f t (.packed e) b l).toNat
      laneVal d (fltOut (dot2 rnd (e.value (natBits x 15 0)) (e.value (natBits y 15 0)) (e.value (natBits x 31 16))
        (e.value (natBits y 31 16)) (readFlt s f t Fmt.f32 c l))) }

/-- The meaning of fdot2. -/
def execFdot2 (h : Hdr) (ty : Ty) (rnd : Rnd) (d : Dst) (a b : Src) (c : MSrc) (s : State) : Host.Outcome State Fault Refusal :=
  (fdot2Alu h ty rnd d a b c).exec s

end Sys2Proof.Machine
end

