-- ==== Sys2Proof/Machine/Integer.lean ====
section
/-! DEFINITION. The meanings of the integer class (R83 to R102) and of the immediate class (R103). -/

namespace Sys2Proof.Machine

/-- iadd (R88): sum -/
def iaddAlu (h : Hdr) (ty : Ty) (sat : Bool) (d : Dst) (a b : Src) : Alu :=
  aluBin (.iadd h ty sat d a b) h L4 d a b (aluIadd ty sat)

/-- The meaning of iadd. -/
def execIadd (h : Hdr) (ty : Ty) (sat : Bool) (d : Dst) (a b : Src) (s : State) : Host.Outcome State Fault Refusal :=
  (iaddAlu h ty sat d a b).exec s

/-- isub (R88): difference -/
def isubAlu (h : Hdr) (ty : Ty) (sat : Bool) (d : Dst) (a b : Src) : Alu :=
  aluBin (.isub h ty sat d a b) h L4 d a b (aluIsub ty sat)

/-- The meaning of isub. -/
def execIsub (h : Hdr) (ty : Ty) (sat : Bool) (d : Dst) (a b : Src) (s : State) : Host.Outcome State Fault Refusal :=
  (isubAlu h ty sat d a b).exec s

/-- imul (R88): product -/
def imulAlu (h : Hdr) (ty : Ty) (sat : Bool) (d : Dst) (a b : Src) : Alu :=
  aluBin (.imul h ty sat d a b) h L8 d a b (aluImul ty sat)

/-- The meaning of imul. -/
def execImul (h : Hdr) (ty : Ty) (sat : Bool) (d : Dst) (a b : Src) (s : State) : Host.Outcome State Fault Refusal :=
  (imulAlu h ty sat d a b).exec s

/-- imulh (R88): high half of the product -/
def imulhAlu (h : Hdr) (ty : Ty) (d : Dst) (a b : Src) : Alu :=
  aluBin (.imulh h ty d a b) h L8 d a b (aluImulh ty)

/-- The meaning of imulh. -/
def execImulh (h : Hdr) (ty : Ty) (d : Dst) (a b : Src) (s : State) : Host.Outcome State Fault Refusal :=
  (imulhAlu h ty d a b).exec s

/-- imad (R88): product plus C -/
def imadAlu (h : Hdr) (ty : Ty) (sat : Bool) (d : Dst) (a b c : Src) : Alu :=
  aluTri (.imad h ty sat d a b c) h L8 d a b c (aluImad ty sat)

/-- The meaning of imad. -/
def execImad (h : Hdr) (ty : Ty) (sat : Bool) (d : Dst) (a b c : Src) (s : State) : Host.Outcome State Fault Refusal :=
  (imadAlu h ty sat d a b c).exec s

/-- imadw (R88): wide product plus C -/
def imadwAlu (h : Hdr) (ty : Ty) (d : Dst) (a b c : Src) : Alu :=
  aluTri (.imadw h ty d a b c) h L8 d a b c (aluImadw ty)

/-- The meaning of imadw. -/
def execImadw (h : Hdr) (ty : Ty) (d : Dst) (a b c : Src) (s : State) : Host.Outcome State Fault Refusal :=
  (imadwAlu h ty d a b c).exec s

/-- The carry into a lane of iaddx, and whether it is undecided (R89). -/
def carryIn (t : Team) (ci : Option (BitVec 4)) (l : Nat) : Nat × Bool :=
  match ci with
  | none => (0, false)
  | some p => (bit1 (readP t p.toNat l == 1), readP t p.toNat l == 2)

/-- iaddx (R89): sum or difference with carry, and the carry out to a predicate, undecided where the carry in is. -/
def iaddxAlu (h : Hdr) (ty : Ty) (sub : Bool) (ci : Option (BitVec 4)) (d : Dst) (a b : Src) (co : BitVec 4) : Alu :=
  { i := .iaddx h ty sub ci d a b co, h, lat := L4, dests := [dstReg d, pReg co], lin := .none, srcs := [a, b]
    fn := fun s f t l =>
      let c := carryIn t ci l
      let r := aluIaddx ty sub c.1 (readSrc s f t .int a l) (readSrc s f t .int b l)
      { vals := [(dstReg d, r.1), (pReg co, (if c.2 then 2 else boolP r.2).setWidth 64)] } }

/-- The meaning of iaddx. -/
def execIaddx (h : Hdr) (ty : Ty) (sub : Bool) (ci : Option (BitVec 4)) (d : Dst) (a b : Src) (co : BitVec 4) (s : State) :
    Host.Outcome State Fault Refusal :=
  (iaddxAlu h ty sub ci d a b co).exec s

/-- idiv (R90): quotient or remainder -/
def idivAlu (h : Hdr) (ty : Ty) (rem : Bool) (d : Dst) (a b : Src) : Alu :=
  aluBin (.idiv h ty rem d a b) h .variable d a b (aluIdiv ty rem)

/-- The meaning of idiv. -/
def execIdiv (h : Hdr) (ty : Ty) (rem : Bool) (d : Dst) (a b : Src) (s : State) : Host.Outcome State Fault Refusal :=
  (idivAlu h ty rem d a b).exec s

/-- iabs (R91): magnitude -/
def iabsAlu (h : Hdr) (ty : Ty) (sat : Bool) (d : Dst) (a : Src) : Alu :=
  aluUn (.iabs h ty sat d a) h L4 d a (aluIabs ty sat)

/-- The meaning of iabs. -/
def execIabs (h : Hdr) (ty : Ty) (sat : Bool) (d : Dst) (a : Src) (s : State) : Host.Outcome State Fault Refusal :=
  (iabsAlu h ty sat d a).exec s

/-- ineg (R91): negation -/
def inegAlu (h : Hdr) (ty : Ty) (sat : Bool) (d : Dst) (a : Src) : Alu :=
  aluUn (.ineg h ty sat d a) h L4 d a (aluIneg ty sat)

/-- The meaning of ineg. -/
def execIneg (h : Hdr) (ty : Ty) (sat : Bool) (d : Dst) (a : Src) (s : State) : Host.Outcome State Fault Refusal :=
  (inegAlu h ty sat d a).exec s

/-- imin (R91): lesser -/
def iminAlu (h : Hdr) (ty : Ty) (d : Dst) (a b : Src) : Alu :=
  aluBin (.imin h ty d a b) h L4 d a b (aluImin ty)

/-- The meaning of imin. -/
def execImin (h : Hdr) (ty : Ty) (d : Dst) (a b : Src) (s : State) : Host.Outcome State Fault Refusal :=
  (iminAlu h ty d a b).exec s

/-- imax (R91): greater -/
def imaxAlu (h : Hdr) (ty : Ty) (d : Dst) (a b : Src) : Alu :=
  aluBin (.imax h ty d a b) h L4 d a b (aluImax ty)

/-- The meaning of imax. -/
def execImax (h : Hdr) (ty : Ty) (d : Dst) (a b : Src) (s : State) : Host.Outcome State Fault Refusal :=
  (imaxAlu h ty d a b).exec s

/-- iclamp (R91): A held within B and C -/
def iclampAlu (h : Hdr) (ty : Ty) (d : Dst) (a b c : Src) : Alu :=
  aluTri (.iclamp h ty d a b c) h L4 d a b c (aluIclamp ty)

/-- The meaning of iclamp. -/
def execIclamp (h : Hdr) (ty : Ty) (d : Dst) (a b c : Src) (s : State) : Host.Outcome State Fault Refusal :=
  (iclampAlu h ty d a b c).exec s

/-- idp4 (R91): sum of four byte products and C -/
def idp4Alu (h : Hdr) (sat ua ub : Bool) (d : Dst) (a b c : Src) : Alu :=
  aluTri (.idp4 h sat ua ub d a b c) h L8 d a b c (aluIdp4 sat ua ub)

/-- The meaning of idp4. -/
def execIdp4 (h : Hdr) (sat ua ub : Bool) (d : Dst) (a b c : Src) (s : State) : Host.Outcome State Fault Refusal :=
  (idp4Alu h sat ua ub d a b c).exec s

/-- land (R92): and -/
def landAlu (h : Hdr) (ty : Ty) (d : Dst) (a b : Src) : Alu :=
  aluBin (.land h ty d a b) h L4 d a b (aluAnd ty)

/-- The meaning of land. -/
def execLand (h : Hdr) (ty : Ty) (d : Dst) (a b : Src) (s : State) : Host.Outcome State Fault Refusal :=
  (landAlu h ty d a b).exec s

/-- lor (R92): or -/
def lorAlu (h : Hdr) (ty : Ty) (d : Dst) (a b : Src) : Alu :=
  aluBin (.lor h ty d a b) h L4 d a b (aluOr ty)

/-- The meaning of lor. -/
def execLor (h : Hdr) (ty : Ty) (d : Dst) (a b : Src) (s : State) : Host.Outcome State Fault Refusal :=
  (lorAlu h ty d a b).exec s

/-- lxor (R92): exclusive or -/
def lxorAlu (h : Hdr) (ty : Ty) (d : Dst) (a b : Src) : Alu :=
  aluBin (.lxor h ty d a b) h L4 d a b (aluXor ty)

/-- The meaning of lxor. -/
def execLxor (h : Hdr) (ty : Ty) (d : Dst) (a b : Src) (s : State) : Host.Outcome State Fault Refusal :=
  (lxorAlu h ty d a b).exec s

/-- andn (R92): and not -/
def andnAlu (h : Hdr) (ty : Ty) (d : Dst) (a b : Src) : Alu :=
  aluBin (.andn h ty d a b) h L4 d a b (aluAndn ty)

/-- The meaning of andn. -/
def execAndn (h : Hdr) (ty : Ty) (d : Dst) (a b : Src) (s : State) : Host.Outcome State Fault Refusal :=
  (andnAlu h ty d a b).exec s

/-- lut3 (R93): any bitwise function of three -/
def lut3Alu (h : Hdr) (ty : Ty) (tt : BitVec 8) (d : Dst) (a b c : Src) : Alu :=
  aluTri (.lut3 h ty tt d a b c) h L4 d a b c (aluLut3 ty tt)

/-- The meaning of lut3. -/
def execLut3 (h : Hdr) (ty : Ty) (tt : BitVec 8) (d : Dst) (a b c : Src) (s : State) : Host.Outcome State Fault Refusal :=
  (lut3Alu h ty tt d a b c).exec s

/-- shl (R94): left shift -/
def shlAlu (h : Hdr) (ty : Ty) (d : Dst) (a b : Src) : Alu :=
  aluBin (.shl h ty d a b) h L4 d a b (aluShl ty)

/-- The meaning of shl. -/
def execShl (h : Hdr) (ty : Ty) (d : Dst) (a b : Src) (s : State) : Host.Outcome State Fault Refusal :=
  (shlAlu h ty d a b).exec s

/-- shr (R94): logical right shift -/
def shrAlu (h : Hdr) (ty : Ty) (d : Dst) (a b : Src) : Alu :=
  aluBin (.shr h ty d a b) h L4 d a b (aluShr ty)

/-- The meaning of shr. -/
def execShr (h : Hdr) (ty : Ty) (d : Dst) (a b : Src) (s : State) : Host.Outcome State Fault Refusal :=
  (shrAlu h ty d a b).exec s

/-- sar (R94): arithmetic right shift -/
def sarAlu (h : Hdr) (ty : Ty) (d : Dst) (a b : Src) : Alu :=
  aluBin (.sar h ty d a b) h L4 d a b (aluSar ty)

/-- The meaning of sar. -/
def execSar (h : Hdr) (ty : Ty) (d : Dst) (a b : Src) (s : State) : Host.Outcome State Fault Refusal :=
  (sarAlu h ty d a b).exec s

/-- fshl (R94): funnel shift -/
def fshlAlu (h : Hdr) (ty : Ty) (d : Dst) (a b c : Src) : Alu :=
  aluTri (.fshl h ty d a b c) h L4 d a b c (aluFshl ty)

/-- The meaning of fshl. -/
def execFshl (h : Hdr) (ty : Ty) (d : Dst) (a b c : Src) (s : State) : Host.Outcome State Fault Refusal :=
  (fshlAlu h ty d a b c).exec s

/-- popc (R95): set bits -/
def popcAlu (h : Hdr) (ty : Ty) (d : Dst) (a : Src) : Alu :=
  aluUn (.popc h ty d a) h L4 d a (aluPopc ty)

/-- The meaning of popc. -/
def execPopc (h : Hdr) (ty : Ty) (d : Dst) (a : Src) (s : State) : Host.Outcome State Fault Refusal :=
  (popcAlu h ty d a).exec s

/-- clz (R95): leading zeros -/
def clzAlu (h : Hdr) (ty : Ty) (d : Dst) (a : Src) : Alu :=
  aluUn (.clz h ty d a) h L4 d a (aluClz ty)

/-- The meaning of clz. -/
def execClz (h : Hdr) (ty : Ty) (d : Dst) (a : Src) (s : State) : Host.Outcome State Fault Refusal :=
  (clzAlu h ty d a).exec s

/-- ctz (R95): trailing zeros -/
def ctzAlu (h : Hdr) (ty : Ty) (d : Dst) (a : Src) : Alu :=
  aluUn (.ctz h ty d a) h L4 d a (aluCtz ty)

/-- The meaning of ctz. -/
def execCtz (h : Hdr) (ty : Ty) (d : Dst) (a : Src) (s : State) : Host.Outcome State Fault Refusal :=
  (ctzAlu h ty d a).exec s

/-- brev (R95): bits reversed -/
def brevAlu (h : Hdr) (ty : Ty) (d : Dst) (a : Src) : Alu :=
  aluUn (.brev h ty d a) h L4 d a (aluBrev ty)

/-- The meaning of brev. -/
def execBrev (h : Hdr) (ty : Ty) (d : Dst) (a : Src) (s : State) : Host.Outcome State Fault Refusal :=
  (brevAlu h ty d a).exec s

/-- bfx (R96): bit field extracted -/
def bfxAlu (h : Hdr) (ty : Ty) (d : Dst) (a b c : Src) : Alu :=
  aluTri (.bfx h ty d a b c) h L4 d a b c (aluBfx ty)

/-- The meaning of bfx. -/
def execBfx (h : Hdr) (ty : Ty) (d : Dst) (a b c : Src) (s : State) : Host.Outcome State Fault Refusal :=
  (bfxAlu h ty d a b c).exec s

/-- bfi (R96): bit field inserted -/
def bfiAlu (h : Hdr) (ty : Ty) (d : Dst) (a b c : Src) : Alu :=
  aluTri (.bfi h ty d a b c) h L4 d a b c (aluBfi ty)

/-- The meaning of bfi. -/
def execBfi (h : Hdr) (ty : Ty) (d : Dst) (a b c : Src) (s : State) : Host.Outcome State Fault Refusal :=
  (bfiAlu h ty d a b c).exec s

/-- icmp (R98): a relation to a predicate. -/
def icmpAlu (h : Hdr) (ty : Ty) (rel : Rel) (pd : BitVec 4) (a b : Src) : Alu :=
  { i := .icmp h ty rel pd a b, h, lat := L4, dests := [pReg pd], lin := .none, srcs := [a, b]
    fn := fun s f t l => lanePred pd (boolP (aluIcmp ty rel (readSrc s f t .int a l) (readSrc s f t .int b l))) }

/-- The meaning of icmp. -/
def execIcmp (h : Hdr) (ty : Ty) (rel : Rel) (pd : BitVec 4) (a b : Src) (s : State) : Host.Outcome State Fault Refusal :=
  (icmpAlu h ty rel pd a b).exec s

/-- Which source sel takes under a predicate value; none leaves D (R99). -/
def selPick (pol : SelPol) (p : BitVec 2) : Option Bool :=
  if p = 1 then some true
  else if p = 0 then some false
  else match pol with
    | .uf => some false
    | .ut => some true
    | .uk => none

/-- sel (R99): a choice on a three-valued predicate; it has lineage only on p0 (R87). -/
def selAlu (h : Hdr) (ty : Ty) (pol : SelPol) (d : Dst) (a b : Src) (pc : BitVec 4) : Alu :=
  { i := .sel h ty pol d a b pc, h, lat := L4, dests := [dstReg d]
    lin := if pc = 0 then .key [.src .int a, .src .int b] else .none, srcs := [a, b]
    fn := fun s f t l =>
      match selPick pol (readP t pc.toNat l) with
      | some true => laneVal d (aluMov ty (readSrc s f t .int a l))
      | some false => laneVal d (aluMov ty (readSrc s f t .int b l))
      | none => {} }

/-- The meaning of sel. -/
def execSel (h : Hdr) (ty : Ty) (pol : SelPol) (d : Dst) (a b : Src) (pc : BitVec 4) (s : State) :
    Host.Outcome State Fault Refusal :=
  (selAlu h ty pol d a b pc).exec s

/-- cvti (R100): conversion between integer types -/
def cvtiAlu (h : Hdr) (td ts : Ty) (sat : Bool) (d : Dst) (a : Src) : Alu :=
  aluUn (.cvti h td ts sat d a) h L4 d a (aluCvti td ts sat)

/-- The meaning of cvti. -/
def execCvti (h : Hdr) (td ts : Ty) (sat : Bool) (d : Dst) (a : Src) (s : State) : Host.Outcome State Fault Refusal :=
  (cvtiAlu h td ts sat d a).exec s

/-- mov (R101): copy -/
def movAlu (h : Hdr) (ty : Ty) (d : Dst) (a : Src) : Alu :=
  aluUn (.mov h ty d a) h L4 d a (aluMov ty)

/-- The meaning of mov. -/
def execMov (h : Hdr) (ty : Ty) (d : Dst) (a : Src) (s : State) : Host.Outcome State Fault Refusal :=
  (movAlu h ty d a).exec s

/-- lea (R102): scaled sum -/
def leaAlu (h : Hdr) (ty : Ty) (scale : BitVec 3) (d : Dst) (a b : Src) : Alu :=
  aluBin (.lea h ty scale d a b) h L4 d a b (aluLea ty scale)

/-- The meaning of lea. -/
def execLea (h : Hdr) (ty : Ty) (scale : BitVec 3) (d : Dst) (a b : Src) (s : State) : Host.Outcome State Fault Refusal :=
  (leaAlu h ty scale d a b).exec s

/-- bperm (R97): byte permutation -/
def bpermAlu (h : Hdr) (ty : Ty) (d : Dst) (a b c : Src) : Alu :=
  aluTri (.bperm h ty d a b c) h L4 d a b c (aluBperm ty)

/-- The meaning of bperm. -/
def execBperm (h : Hdr) (ty : Ty) (d : Dst) (a b c : Src) (s : State) : Host.Outcome State Fault Refusal :=
  (bpermAlu h ty d a b c).exec s

/-- movi (R103): a constant -/
def moviAlu (h : Hdr) (d : Dst) (imm : BitVec 32) : Alu :=
  { i := .movi h d imm, h, lat := L4, dests := [dstReg d], lin := .key [.null, .imm (imm.setWidth 64)], srcs := []
    fn := fun _ _ _ _ => laneVal d (imm.setWidth 64, 0) }

/-- The meaning of movi. -/
def execMovi (h : Hdr) (d : Dst) (imm : BitVec 32) (s : State) : Host.Outcome State Fault Refusal :=
  (moviAlu h d imm).exec s

/-- movhi (R103): imm over the low half of A -/
def movhiAlu (h : Hdr) (d : Dst) (a : Src) (imm : BitVec 32) : Alu :=
  aluImm (.movhi h d a imm) h L4 d a imm aluMovhi

/-- The meaning of movhi. -/
def execMovhi (h : Hdr) (d : Dst) (a : Src) (imm : BitVec 32) (s : State) : Host.Outcome State Fault Refusal :=
  (movhiAlu h d a imm).exec s

/-- iaddi (R103): sum -/
def iaddiAlu (h : Hdr) (d : Dst) (a : Src) (imm : BitVec 32) : Alu :=
  aluImm (.iaddi h d a imm) h L4 d a imm aluIaddi

/-- The meaning of iaddi. -/
def execIaddi (h : Hdr) (d : Dst) (a : Src) (imm : BitVec 32) (s : State) : Host.Outcome State Fault Refusal :=
  (iaddiAlu h d a imm).exec s

/-- iandi (R103): and -/
def iandiAlu (h : Hdr) (d : Dst) (a : Src) (imm : BitVec 32) : Alu :=
  aluImm (.iandi h d a imm) h L4 d a imm aluIandi

/-- The meaning of iandi. -/
def execIandi (h : Hdr) (d : Dst) (a : Src) (imm : BitVec 32) (s : State) : Host.Outcome State Fault Refusal :=
  (iandiAlu h d a imm).exec s

/-- iori (R103): or -/
def ioriAlu (h : Hdr) (d : Dst) (a : Src) (imm : BitVec 32) : Alu :=
  aluImm (.iori h d a imm) h L4 d a imm aluIori

/-- The meaning of iori. -/
def execIori (h : Hdr) (d : Dst) (a : Src) (imm : BitVec 32) (s : State) : Host.Outcome State Fault Refusal :=
  (ioriAlu h d a imm).exec s

/-- ixori (R103): exclusive or -/
def ixoriAlu (h : Hdr) (d : Dst) (a : Src) (imm : BitVec 32) : Alu :=
  aluImm (.ixori h d a imm) h L4 d a imm aluIxori

/-- The meaning of ixori. -/
def execIxori (h : Hdr) (d : Dst) (a : Src) (imm : BitVec 32) (s : State) : Host.Outcome State Fault Refusal :=
  (ixoriAlu h d a imm).exec s

/-- imuli (R103): product -/
def imuliAlu (h : Hdr) (d : Dst) (a : Src) (imm : BitVec 32) : Alu :=
  aluImm (.imuli h d a imm) h L8 d a imm aluImuli

/-- The meaning of imuli. -/
def execImuli (h : Hdr) (d : Dst) (a : Src) (imm : BitVec 32) (s : State) : Host.Outcome State Fault Refusal :=
  (imuliAlu h d a imm).exec s

/-- icmpi (R103): a relation with an immediate, to a predicate. -/
def icmpiAlu (h : Hdr) (rel : Rel) (pd : BitVec 4) (a : Src) (imm : BitVec 32) : Alu :=
  { i := .icmpi h rel pd a imm, h, lat := L4, dests := [pReg pd], lin := .none, srcs := [a]
    fn := fun s f t l => lanePred pd (boolP (rel.holds (intOrd (rdInt .s32 (readSrc s f t .int a l)) (sextImm imm)))) }

/-- The meaning of icmpi. -/
def execIcmpi (h : Hdr) (rel : Rel) (pd : BitVec 4) (a : Src) (imm : BitVec 32) (s : State) : Host.Outcome State Fault Refusal :=
  (icmpiAlu h rel pd a imm).exec s

end Sys2Proof.Machine
end

