-- ==== Sys2Proof/Machine/IntervalOps.lean ====
section
/-! DEFINITION. The meanings of the interval class (R117 to R129); ivbis stands with the scratchpad accesses
(MemOps.lean). -/

namespace Sys2Proof.Machine

/-- ivpt (R121): the interval around a float. -/
def ivptAlu (h : Hdr) (dbl : Bool) (d : Dst) (a : MSrc) : Alu :=
  fltUn (.ivpt h dbl d a) h L4 d (if dbl then Fmt.f64 else Fmt.f32) a ivPtVal

/-- The meaning of ivpt. -/
def execIvpt (h : Hdr) (dbl : Bool) (d : Dst) (a : MSrc) (s : State) : Host.Outcome State Fault Refusal :=
  (ivptAlu h dbl d a).exec s

/-- ivmake (R121): an interval from its bounds -/
def ivmakeAlu (h : Hdr) (d : Dst) (a b : MSrc) : Alu :=
  fltBin (.ivmake h d a b) h L4 d Fmt.f32 a b ivMakeVal

/-- The meaning of ivmake. -/
def execIvmake (h : Hdr) (d : Dst) (a b : MSrc) (s : State) : Host.Outcome State Fault Refusal :=
  (ivmakeAlu h d a b).exec s

/-- ivlo (R121): lower bound -/
def ivloAlu (h : Hdr) (d : Dst) (a : MSrc) : Alu :=
  ivUn (.ivlo h d a) h L4 d a ivLoVal

/-- The meaning of ivlo. -/
def execIvlo (h : Hdr) (d : Dst) (a : MSrc) (s : State) : Host.Outcome State Fault Refusal :=
  (ivloAlu h d a).exec s

/-- ivhi (R121): upper bound -/
def ivhiAlu (h : Hdr) (d : Dst) (a : MSrc) : Alu :=
  ivUn (.ivhi h d a) h L4 d a ivHiVal

/-- The meaning of ivhi. -/
def execIvhi (h : Hdr) (d : Dst) (a : MSrc) (s : State) : Host.Outcome State Fault Refusal :=
  (ivhiAlu h d a).exec s

/-- ivmid (R121): midpoint -/
def ivmidAlu (h : Hdr) (d : Dst) (a : MSrc) : Alu :=
  ivUn (.ivmid h d a) h L4 d a ivMidVal

/-- The meaning of ivmid. -/
def execIvmid (h : Hdr) (d : Dst) (a : MSrc) (s : State) : Host.Outcome State Fault Refusal :=
  (ivmidAlu h d a).exec s

/-- ivwid (R121): width -/
def ivwidAlu (h : Hdr) (d : Dst) (a : MSrc) : Alu :=
  ivUn (.ivwid h d a) h L4 d a ivWidVal

/-- The meaning of ivwid. -/
def execIvwid (h : Hdr) (d : Dst) (a : MSrc) (s : State) : Host.Outcome State Fault Refusal :=
  (ivwidAlu h d a).exec s

/-- ivsqr (R123): square -/
def ivsqrAlu (h : Hdr) (d : Dst) (a : MSrc) : Alu :=
  ivUn (.ivsqr h d a) h L8 d a ivSqrVal

/-- The meaning of ivsqr. -/
def execIvsqr (h : Hdr) (d : Dst) (a : MSrc) (s : State) : Host.Outcome State Fault Refusal :=
  (ivsqrAlu h d a).exec s

/-- ivsqrt (R125): square root -/
def ivsqrtAlu (h : Hdr) (d : Dst) (a : MSrc) : Alu :=
  ivUn (.ivsqrt h d a) h .variable d a ivSqrtVal

/-- The meaning of ivsqrt. -/
def execIvsqrt (h : Hdr) (d : Dst) (a : MSrc) (s : State) : Host.Outcome State Fault Refusal :=
  (ivsqrtAlu h d a).exec s

/-- ivrsqrt (R125): reciprocal square root -/
def ivrsqrtAlu (h : Hdr) (d : Dst) (a : MSrc) : Alu :=
  ivUn (.ivrsqrt h d a) h .variable d a ivRsqrtVal

/-- The meaning of ivrsqrt. -/
def execIvrsqrt (h : Hdr) (d : Dst) (a : MSrc) (s : State) : Host.Outcome State Fault Refusal :=
  (ivrsqrtAlu h d a).exec s

/-- ivadd (R123): sum -/
def ivaddAlu (h : Hdr) (d : Dst) (a b : MSrc) : Alu :=
  ivBin (.ivadd h d a b) h L4 d a b ivAddVal

/-- The meaning of ivadd. -/
def execIvadd (h : Hdr) (d : Dst) (a b : MSrc) (s : State) : Host.Outcome State Fault Refusal :=
  (ivaddAlu h d a b).exec s

/-- ivsub (R123): difference -/
def ivsubAlu (h : Hdr) (d : Dst) (a b : MSrc) : Alu :=
  ivBin (.ivsub h d a b) h L4 d a b ivSubVal

/-- The meaning of ivsub. -/
def execIvsub (h : Hdr) (d : Dst) (a b : MSrc) (s : State) : Host.Outcome State Fault Refusal :=
  (ivsubAlu h d a b).exec s

/-- ivmul (R123): product -/
def ivmulAlu (h : Hdr) (d : Dst) (a b : MSrc) : Alu :=
  ivBin (.ivmul h d a b) h L8 d a b ivMulVal

/-- The meaning of ivmul. -/
def execIvmul (h : Hdr) (d : Dst) (a b : MSrc) (s : State) : Host.Outcome State Fault Refusal :=
  (ivmulAlu h d a b).exec s

/-- ivdiv (R124): quotient -/
def ivdivAlu (h : Hdr) (d : Dst) (a b : MSrc) : Alu :=
  ivBin (.ivdiv h d a b) h .variable d a b ivDivVal

/-- The meaning of ivdiv. -/
def execIvdiv (h : Hdr) (d : Dst) (a b : MSrc) (s : State) : Host.Outcome State Fault Refusal :=
  (ivdivAlu h d a b).exec s

/-- ivhull (R126): hull -/
def ivhullAlu (h : Hdr) (d : Dst) (a b : MSrc) : Alu :=
  ivBin (.ivhull h d a b) h L4 d a b ivHullVal

/-- The meaning of ivhull. -/
def execIvhull (h : Hdr) (d : Dst) (a b : MSrc) (s : State) : Host.Outcome State Fault Refusal :=
  (ivhullAlu h d a b).exec s

/-- ivfma (R123): product plus C, each bound rounded once. -/
def ivfmaAlu (h : Hdr) (d : Dst) (a b c : MSrc) : Alu :=
  { i := .ivfma h d a b c, h, lat := L8, dests := [dstReg d]
    lin := .key [.src .ivl a.src, .src .ivl b.src, .src .ivl c.src], srcs := [a.src, b.src, c.src]
    fn := fun s f t l => laneVal d (ivFmaVal (readIv s f t a l) (readIv s f t b l) (readIv s f t c l)) }

/-- The meaning of ivfma. -/
def execIvfma (h : Hdr) (d : Dst) (a b c : MSrc) (s : State) : Host.Outcome State Fault Refusal :=
  (ivfmaAlu h d a b c).exec s

/-- ivmeet (R127): the intersection; an empty one parks the lane, or under .ne is written. -/
def ivmeetAlu (h : Hdr) (ne : Bool) (d : Dst) (a b : MSrc) : Alu :=
  { i := .ivmeet h ne d a b, h, lat := L4, dests := [dstReg d]
    lin := .key [.src .ivl a.src, .src .ivl b.src], srcs := [a.src, b.src]
    fn := fun s f t l =>
      match ivMeetVal (readIv s f t a l) (readIv s f t b l) with
      | some r => laneVal d r
      | none => if ne then laneVal d (emptyWord, 0) else { fault := some (.emptyInterval, 0) } }

/-- The meaning of ivmeet. -/
def execIvmeet (h : Hdr) (ne : Bool) (d : Dst) (a b : MSrc) (s : State) : Host.Outcome State Fault Refusal :=
  (ivmeetAlu h ne d a b).exec s

/-- ivcmp (R128): a relation of intervals to a three-valued predicate. -/
def ivcmpAlu (h : Hdr) (rel : IvRel) (pd : BitVec 4) (a b : MSrc) : Alu :=
  { i := .ivcmp h rel pd a b, h, lat := L4, dests := [pReg pd], lin := .none, srcs := [a.src, b.src]
    fn := fun s f t l => let r := ivCmpVal rel (readIv s f t a l) (readIv s f t b l); lanePred pd r.1 r.2 }

/-- The meaning of ivcmp. -/
def execIvcmp (h : Hdr) (rel : IvRel) (pd : BitVec 4) (a b : MSrc) (s : State) : Host.Outcome State Fault Refusal :=
  (ivcmpAlu h rel pd a b).exec s

/-- ivsplit (R129): the two halves about the midpoint. -/
def ivsplitAlu (h : Hdr) (d e : BitVec 7) (a : MSrc) : Alu :=
  { i := .ivsplit h d e a, h, lat := L4, dests := [.v d.toNat, .v e.toNat], lin := .none, srcs := [a.src]
    fn := fun s f t l =>
      let r := ivSplitVal (readIv s f t a l)
      { vals := [(.v d.toNat, r.1), (.v e.toNat, r.2.1)], flags := r.2.2 } }

/-- The meaning of ivsplit. -/
def execIvsplit (h : Hdr) (d e : BitVec 7) (a : MSrc) (s : State) : Host.Outcome State Fault Refusal :=
  (ivsplitAlu h d e a).exec s

end Sys2Proof.Machine
end

