-- ==== Sys2Proof/Machine/PairOps.lean ====
section
/-! DEFINITION. The meanings of pair words (R29 to R31, R36, R104, R116, R133): each slot is its F-form twin, both
slots read before either writes, and the word is one issue. -/

namespace Sys2Proof.Machine

/-- The arithmetic of the F-form twin of a slot (R30, R36). -/
def twinAlu : Instr → Option Alu
  | .iadd h ty sat d a b => some (iaddAlu h ty sat d a b)
  | .isub h ty sat d a b => some (isubAlu h ty sat d a b)
  | .imul h ty sat d a b => some (imulAlu h ty sat d a b)
  | .imin h ty d a b => some (iminAlu h ty d a b)
  | .imax h ty d a b => some (imaxAlu h ty d a b)
  | .land h ty d a b => some (landAlu h ty d a b)
  | .lor h ty d a b => some (lorAlu h ty d a b)
  | .lxor h ty d a b => some (lxorAlu h ty d a b)
  | .andn h ty d a b => some (andnAlu h ty d a b)
  | .shl h ty d a b => some (shlAlu h ty d a b)
  | .shr h ty d a b => some (shrAlu h ty d a b)
  | .sar h ty d a b => some (sarAlu h ty d a b)
  | .mov h ty d a => some (movAlu h ty d a)
  | .popc h ty d a => some (popcAlu h ty d a)
  | .clz h ty d a => some (clzAlu h ty d a)
  | .brev h ty d a => some (brevAlu h ty d a)
  | .fadd h ty r d a b => some (faddAlu h ty r d a b)
  | .fsub h ty r d a b => some (fsubAlu h ty r d a b)
  | .fmul h ty r d a b => some (fmulAlu h ty r d a b)
  | .fmin h ty d a b => some (fminAlu h ty d a b)
  | .fmax h ty d a b => some (fmaxAlu h ty d a b)
  | .frcp h r d a => some (frcpAlu h r d a)
  | .frsq h r d a => some (frsqAlu h r d a)
  | .fsqrt h ty r d a => some (fsqrtAlu h ty r d a)
  | .fex2 h d a => some (fex2Alu h d a)
  | .flg2 h d a => some (flg2Alu h d a)
  | .cvtf h td ts r d a => some (cvtfAlu h td ts r d a)
  | .ivadd h d a b => some (ivaddAlu h d a b)
  | .ivsub h d a b => some (ivsubAlu h d a b)
  | .ivmul h d a b => some (ivmulAlu h d a b)
  | .ivhull h d a b => some (ivhullAlu h d a b)
  | .ivmeet h ne d a b => some (ivmeetAlu h ne d a b)
  | _ => none

/-- The state after a pair word that a team issues (R30). -/
def pairWord (sw : Bool) (x y : Slot) (s : State) (f : Nat) (t : Team) : State :=
  match twinAlu (slotTwin sw x), twinAlu (slotTwin sw y) with
  | some a, some b =>
    let r := a.run s f t []
    let q := b.run r.s f t r.pend.tags
    -- a lane that a fault parks in one slot is parked for the word; the other slot's result in it stands (R151)
    finishWord q.s f { pends := [r.pend, q.pend], faults := r.faults ++ q.faults, sw }
  | _, _ => trapWord s f t .illegalPair

/-- The meaning of a pair word whose slot X is iadd. -/
def execIaddPairSlot (sw : Bool) (x : SlotArgs) (y : Slot) (s : State) : Host.Outcome State Fault Refusal :=
  forTeam s (pairWord sw ⟨.iadd, x⟩ y s)

/-- The meaning of a pair word whose slot X is isub. -/
def execIsubPairSlot (sw : Bool) (x : SlotArgs) (y : Slot) (s : State) : Host.Outcome State Fault Refusal :=
  forTeam s (pairWord sw ⟨.isub, x⟩ y s)

/-- The meaning of a pair word whose slot X is imul. -/
def execImulPairSlot (sw : Bool) (x : SlotArgs) (y : Slot) (s : State) : Host.Outcome State Fault Refusal :=
  forTeam s (pairWord sw ⟨.imul, x⟩ y s)

/-- The meaning of a pair word whose slot X is imin. -/
def execIminPairSlot (sw : Bool) (x : SlotArgs) (y : Slot) (s : State) : Host.Outcome State Fault Refusal :=
  forTeam s (pairWord sw ⟨.imin, x⟩ y s)

/-- The meaning of a pair word whose slot X is imax. -/
def execImaxPairSlot (sw : Bool) (x : SlotArgs) (y : Slot) (s : State) : Host.Outcome State Fault Refusal :=
  forTeam s (pairWord sw ⟨.imax, x⟩ y s)

/-- The meaning of a pair word whose slot X is land. -/
def execLandPairSlot (sw : Bool) (x : SlotArgs) (y : Slot) (s : State) : Host.Outcome State Fault Refusal :=
  forTeam s (pairWord sw ⟨.land, x⟩ y s)

/-- The meaning of a pair word whose slot X is lor. -/
def execLorPairSlot (sw : Bool) (x : SlotArgs) (y : Slot) (s : State) : Host.Outcome State Fault Refusal :=
  forTeam s (pairWord sw ⟨.lor, x⟩ y s)

/-- The meaning of a pair word whose slot X is lxor. -/
def execLxorPairSlot (sw : Bool) (x : SlotArgs) (y : Slot) (s : State) : Host.Outcome State Fault Refusal :=
  forTeam s (pairWord sw ⟨.lxor, x⟩ y s)

/-- The meaning of a pair word whose slot X is andn. -/
def execAndnPairSlot (sw : Bool) (x : SlotArgs) (y : Slot) (s : State) : Host.Outcome State Fault Refusal :=
  forTeam s (pairWord sw ⟨.andn, x⟩ y s)

/-- The meaning of a pair word whose slot X is shl. -/
def execShlPairSlot (sw : Bool) (x : SlotArgs) (y : Slot) (s : State) : Host.Outcome State Fault Refusal :=
  forTeam s (pairWord sw ⟨.shl, x⟩ y s)

/-- The meaning of a pair word whose slot X is shr. -/
def execShrPairSlot (sw : Bool) (x : SlotArgs) (y : Slot) (s : State) : Host.Outcome State Fault Refusal :=
  forTeam s (pairWord sw ⟨.shr, x⟩ y s)

/-- The meaning of a pair word whose slot X is sar. -/
def execSarPairSlot (sw : Bool) (x : SlotArgs) (y : Slot) (s : State) : Host.Outcome State Fault Refusal :=
  forTeam s (pairWord sw ⟨.sar, x⟩ y s)

/-- The meaning of a pair word whose slot X is mov. -/
def execMovPairSlot (sw : Bool) (x : SlotArgs) (y : Slot) (s : State) : Host.Outcome State Fault Refusal :=
  forTeam s (pairWord sw ⟨.mov, x⟩ y s)

/-- The meaning of a pair word whose slot X is popc. -/
def execPopcPairSlot (sw : Bool) (x : SlotArgs) (y : Slot) (s : State) : Host.Outcome State Fault Refusal :=
  forTeam s (pairWord sw ⟨.popc, x⟩ y s)

/-- The meaning of a pair word whose slot X is clz. -/
def execClzPairSlot (sw : Bool) (x : SlotArgs) (y : Slot) (s : State) : Host.Outcome State Fault Refusal :=
  forTeam s (pairWord sw ⟨.clz, x⟩ y s)

/-- The meaning of a pair word whose slot X is brev. -/
def execBrevPairSlot (sw : Bool) (x : SlotArgs) (y : Slot) (s : State) : Host.Outcome State Fault Refusal :=
  forTeam s (pairWord sw ⟨.brev, x⟩ y s)

/-- The meaning of a pair word whose slot X is fadd. -/
def execFaddPairSlot (sw : Bool) (x : SlotArgs) (y : Slot) (s : State) : Host.Outcome State Fault Refusal :=
  forTeam s (pairWord sw ⟨.fadd, x⟩ y s)

/-- The meaning of a pair word whose slot X is fsub. -/
def execFsubPairSlot (sw : Bool) (x : SlotArgs) (y : Slot) (s : State) : Host.Outcome State Fault Refusal :=
  forTeam s (pairWord sw ⟨.fsub, x⟩ y s)

/-- The meaning of a pair word whose slot X is fmul. -/
def execFmulPairSlot (sw : Bool) (x : SlotArgs) (y : Slot) (s : State) : Host.Outcome State Fault Refusal :=
  forTeam s (pairWord sw ⟨.fmul, x⟩ y s)

/-- The meaning of a pair word whose slot X is fmin. -/
def execFminPairSlot (sw : Bool) (x : SlotArgs) (y : Slot) (s : State) : Host.Outcome State Fault Refusal :=
  forTeam s (pairWord sw ⟨.fmin, x⟩ y s)

/-- The meaning of a pair word whose slot X is fmax. -/
def execFmaxPairSlot (sw : Bool) (x : SlotArgs) (y : Slot) (s : State) : Host.Outcome State Fault Refusal :=
  forTeam s (pairWord sw ⟨.fmax, x⟩ y s)

/-- The meaning of a pair word whose slot X is frcp. -/
def execFrcpPairSlot (sw : Bool) (x : SlotArgs) (y : Slot) (s : State) : Host.Outcome State Fault Refusal :=
  forTeam s (pairWord sw ⟨.frcp, x⟩ y s)

/-- The meaning of a pair word whose slot X is frsq. -/
def execFrsqPairSlot (sw : Bool) (x : SlotArgs) (y : Slot) (s : State) : Host.Outcome State Fault Refusal :=
  forTeam s (pairWord sw ⟨.frsq, x⟩ y s)

/-- The meaning of a pair word whose slot X is fsqrt. -/
def execFsqrtPairSlot (sw : Bool) (x : SlotArgs) (y : Slot) (s : State) : Host.Outcome State Fault Refusal :=
  forTeam s (pairWord sw ⟨.fsqrt, x⟩ y s)

/-- The meaning of a pair word whose slot X is fex2. -/
def execFex2PairSlot (sw : Bool) (x : SlotArgs) (y : Slot) (s : State) : Host.Outcome State Fault Refusal :=
  forTeam s (pairWord sw ⟨.fex2, x⟩ y s)

/-- The meaning of a pair word whose slot X is flg2. -/
def execFlg2PairSlot (sw : Bool) (x : SlotArgs) (y : Slot) (s : State) : Host.Outcome State Fault Refusal :=
  forTeam s (pairWord sw ⟨.flg2, x⟩ y s)

/-- The meaning of a pair word whose slot X is cvtf. -/
def execCvtfPairSlot (sw : Bool) (x : SlotArgs) (y : Slot) (s : State) : Host.Outcome State Fault Refusal :=
  forTeam s (pairWord sw ⟨.cvtf, x⟩ y s)

/-- The meaning of a pair word whose slot X is ivadd. -/
def execIvaddPairSlot (sw : Bool) (x : SlotArgs) (y : Slot) (s : State) : Host.Outcome State Fault Refusal :=
  forTeam s (pairWord sw ⟨.ivadd, x⟩ y s)

/-- The meaning of a pair word whose slot X is ivsub. -/
def execIvsubPairSlot (sw : Bool) (x : SlotArgs) (y : Slot) (s : State) : Host.Outcome State Fault Refusal :=
  forTeam s (pairWord sw ⟨.ivsub, x⟩ y s)

/-- The meaning of a pair word whose slot X is ivmul. -/
def execIvmulPairSlot (sw : Bool) (x : SlotArgs) (y : Slot) (s : State) : Host.Outcome State Fault Refusal :=
  forTeam s (pairWord sw ⟨.ivmul, x⟩ y s)

/-- The meaning of a pair word whose slot X is ivhull. -/
def execIvhullPairSlot (sw : Bool) (x : SlotArgs) (y : Slot) (s : State) : Host.Outcome State Fault Refusal :=
  forTeam s (pairWord sw ⟨.ivhull, x⟩ y s)

/-- The meaning of a pair word whose slot X is ivmeet. -/
def execIvmeetPairSlot (sw : Bool) (x : SlotArgs) (y : Slot) (s : State) : Host.Outcome State Fault Refusal :=
  forTeam s (pairWord sw ⟨.ivmeet, x⟩ y s)

end Sys2Proof.Machine
end

