-- ==== Sys2Proof/Machine/Dispatch.lean ====
section
/-! DEFINITION. The dispatch: one arm per constructor of Instr, each one call of that instruction's meaning. -/

namespace Sys2Proof.Machine

/-- What an instruction or event does to the machine. -/
def exec (i : Instr) (s : State) : Host.Outcome State Fault Refusal :=
  match i with
  | .iadd h ty sat d a b => Sys2Proof.Machine.execIadd h ty sat d a b s
  | .isub h ty sat d a b => Sys2Proof.Machine.execIsub h ty sat d a b s
  | .imul h ty sat d a b => Sys2Proof.Machine.execImul h ty sat d a b s
  | .imulh h ty d a b => Sys2Proof.Machine.execImulh h ty d a b s
  | .imad h ty sat d a b c => Sys2Proof.Machine.execImad h ty sat d a b c s
  | .imadw h ty d a b c => Sys2Proof.Machine.execImadw h ty d a b c s
  | .iaddx h ty sub ci d a b co => Sys2Proof.Machine.execIaddx h ty sub ci d a b co s
  | .idiv h ty rem d a b => Sys2Proof.Machine.execIdiv h ty rem d a b s
  | .iabs h ty sat d a => Sys2Proof.Machine.execIabs h ty sat d a s
  | .ineg h ty sat d a => Sys2Proof.Machine.execIneg h ty sat d a s
  | .imin h ty d a b => Sys2Proof.Machine.execImin h ty d a b s
  | .imax h ty d a b => Sys2Proof.Machine.execImax h ty d a b s
  | .iclamp h ty d a b c => Sys2Proof.Machine.execIclamp h ty d a b c s
  | .idp4 h sat ua ub d a b c => Sys2Proof.Machine.execIdp4 h sat ua ub d a b c s
  | .land h ty d a b => Sys2Proof.Machine.execLand h ty d a b s
  | .lor h ty d a b => Sys2Proof.Machine.execLor h ty d a b s
  | .lxor h ty d a b => Sys2Proof.Machine.execLxor h ty d a b s
  | .andn h ty d a b => Sys2Proof.Machine.execAndn h ty d a b s
  | .lut3 h ty tt d a b c => Sys2Proof.Machine.execLut3 h ty tt d a b c s
  | .shl h ty d a b => Sys2Proof.Machine.execShl h ty d a b s
  | .shr h ty d a b => Sys2Proof.Machine.execShr h ty d a b s
  | .sar h ty d a b => Sys2Proof.Machine.execSar h ty d a b s
  | .fshl h ty d a b c => Sys2Proof.Machine.execFshl h ty d a b c s
  | .popc h ty d a => Sys2Proof.Machine.execPopc h ty d a s
  | .clz h ty d a => Sys2Proof.Machine.execClz h ty d a s
  | .ctz h ty d a => Sys2Proof.Machine.execCtz h ty d a s
  | .brev h ty d a => Sys2Proof.Machine.execBrev h ty d a s
  | .bfx h ty d a b c => Sys2Proof.Machine.execBfx h ty d a b c s
  | .bfi h ty d a b c => Sys2Proof.Machine.execBfi h ty d a b c s
  | .icmp h ty rel pd a b => Sys2Proof.Machine.execIcmp h ty rel pd a b s
  | .sel h ty pol d a b pc => Sys2Proof.Machine.execSel h ty pol d a b pc s
  | .cvti h td ts sat d a => Sys2Proof.Machine.execCvti h td ts sat d a s
  | .mov h ty d a => Sys2Proof.Machine.execMov h ty d a s
  | .lea h ty scale d a b => Sys2Proof.Machine.execLea h ty scale d a b s
  | .bperm h ty d a b c => Sys2Proof.Machine.execBperm h ty d a b c s
  | .fadd h ty rnd d a b => Sys2Proof.Machine.execFadd h ty rnd d a b s
  | .fsub h ty rnd d a b => Sys2Proof.Machine.execFsub h ty rnd d a b s
  | .fmul h ty rnd d a b => Sys2Proof.Machine.execFmul h ty rnd d a b s
  | .ffma h ty rnd d a b c => Sys2Proof.Machine.execFfma h ty rnd d a b c s
  | .fmin h ty d a b => Sys2Proof.Machine.execFmin h ty d a b s
  | .fmax h ty d a b => Sys2Proof.Machine.execFmax h ty d a b s
  | .fcmp h ty rel pd a b => Sys2Proof.Machine.execFcmp h ty rel pd a b s
  | .frcp h rnd d a => Sys2Proof.Machine.execFrcp h rnd d a s
  | .frsq h rnd d a => Sys2Proof.Machine.execFrsq h rnd d a s
  | .fsqrt h ty rnd d a => Sys2Proof.Machine.execFsqrt h ty rnd d a s
  | .fdiv h ty rnd d a b => Sys2Proof.Machine.execFdiv h ty rnd d a b s
  | .fex2 h d a => Sys2Proof.Machine.execFex2 h d a s
  | .flg2 h d a => Sys2Proof.Machine.execFlg2 h d a s
  | .fsinpi h d a => Sys2Proof.Machine.execFsinpi h d a s
  | .fcospi h d a => Sys2Proof.Machine.execFcospi h d a s
  | .ftanh h d a => Sys2Proof.Machine.execFtanh h d a s
  | .fclass h ty d a => Sys2Proof.Machine.execFclass h ty d a s
  | .fscale h ty rnd d a b => Sys2Proof.Machine.execFscale h ty rnd d a b s
  | .cvtf h td ts rnd d a => Sys2Proof.Machine.execCvtf h td ts rnd d a s
  | .cvtfi h td ts rnd d a => Sys2Proof.Machine.execCvtfi h td ts rnd d a s
  | .cvtif h td ts rnd d a => Sys2Proof.Machine.execCvtif h td ts rnd d a s
  | .fdot2 h ty rnd d a b c => Sys2Proof.Machine.execFdot2 h ty rnd d a b c s
  | .ivpt h dbl d a => Sys2Proof.Machine.execIvpt h dbl d a s
  | .ivmake h d a b => Sys2Proof.Machine.execIvmake h d a b s
  | .ivlo h d a => Sys2Proof.Machine.execIvlo h d a s
  | .ivhi h d a => Sys2Proof.Machine.execIvhi h d a s
  | .ivmid h d a => Sys2Proof.Machine.execIvmid h d a s
  | .ivwid h d a => Sys2Proof.Machine.execIvwid h d a s
  | .ivadd h d a b => Sys2Proof.Machine.execIvadd h d a b s
  | .ivsub h d a b => Sys2Proof.Machine.execIvsub h d a b s
  | .ivmul h d a b => Sys2Proof.Machine.execIvmul h d a b s
  | .ivfma h d a b c => Sys2Proof.Machine.execIvfma h d a b c s
  | .ivdiv h d a b => Sys2Proof.Machine.execIvdiv h d a b s
  | .ivsqr h d a => Sys2Proof.Machine.execIvsqr h d a s
  | .ivsqrt h d a => Sys2Proof.Machine.execIvsqrt h d a s
  | .ivrsqrt h d a => Sys2Proof.Machine.execIvrsqrt h d a s
  | .ivhull h d a b => Sys2Proof.Machine.execIvhull h d a b s
  | .ivmeet h ne d a b => Sys2Proof.Machine.execIvmeet h ne d a b s
  | .ivcmp h rel pd a b => Sys2Proof.Machine.execIvcmp h rel pd a b s
  | .ivsplit h d e a => Sys2Proof.Machine.execIvsplit h d e a s
  | .ivbis h d a q tag pc => Sys2Proof.Machine.execIvbis h d a q tag pc s
  | .nop h => Sys2Proof.Machine.execNop h s
  | .exit h => Sys2Proof.Machine.execExit h s
  | .yield h => Sys2Proof.Machine.execYield h s
  | .trap h code => Sys2Proof.Machine.execTrap h code s
  | .ret h k => Sys2Proof.Machine.execRet h k s
  | .cvg h => Sys2Proof.Machine.execCvg h s
  | .pand h na nb pd pa pb => Sys2Proof.Machine.execPand h na nb pd pa pb s
  | .por h na nb pd pa pb => Sys2Proof.Machine.execPor h na nb pd pa pb s
  | .pnot h pd pa => Sys2Proof.Machine.execPnot h pd pa s
  | .pdec h ut pd pa => Sys2Proof.Machine.execPdec h ut pd pa s
  | .pmov h pd a => Sys2Proof.Machine.execPmov h pd a s
  | .pget h d pa => Sys2Proof.Machine.execPget h d pa s
  | .vote h team mode d pa => Sys2Proof.Machine.execVote h team mode d pa s
  | .shfl h team mode d a b pc => Sys2Proof.Machine.execShfl h team mode d a b pc s
  | .scan h ty warp excl op d a => Sys2Proof.Machine.execScan h ty warp excl op d a s
  | .redl h ty team op d a => Sys2Proof.Machine.execRedl h ty team op d a s
  | .push h d a b => Sys2Proof.Machine.execPush h d a b s
  | .matchLanes h ty d a => Sys2Proof.Machine.execMatchLanes h ty d a s
  | .vget h d k => Sys2Proof.Machine.execVget h d k s
  | .vput h a k => Sys2Proof.Machine.execVput h a k s
  | .rand h mode d => Sys2Proof.Machine.execRand h mode d s
  | .rkey h a b c => Sys2Proof.Machine.execRkey h a b c s
  | .rfork h d a => Sys2Proof.Machine.execRfork h d a s
  | .vstag h d a => Sys2Proof.Machine.execVstag h d a s
  | .getc h d ctl => Sys2Proof.Machine.execGetc h d ctl s
  | .setc h ctl a => Sys2Proof.Machine.execSetc h ctl a s
  | .setcFlags h a => Sys2Proof.Machine.execSetcFlags h a s
  | .setcBindctl h a => Sys2Proof.Machine.execSetcBindctl h a s
  | .setcStream h ctl a => Sys2Proof.Machine.execSetcStream h ctl a s
  | .setcPassc h a => Sys2Proof.Machine.execSetcPassc h a s
  | .setcRatio h a => Sys2Proof.Machine.execSetcRatio h a s
  | .ld h space w hint d a off => Sys2Proof.Machine.execLd h space w hint d a off s
  | .st h space w hint a data off => Sys2Proof.Machine.execSt h space w hint a data off s
  | .pref h space hint a off => Sys2Proof.Machine.execPref h space hint a off s
  | .cpy h store x2 space w hint tok vm vs off => Sys2Proof.Machine.execCpy h store x2 space w hint tok vm vs off s
  | .cpyt h store space hint tok grp tile off => Sys2Proof.Machine.execCpyt h store space hint tok grp tile off s
  | .cpym h space hint tok grp cmd off => Sys2Proof.Machine.execCpym h space hint tok grp cmd off s
  | .cpys h space hint tok grp src idx off => Sys2Proof.Machine.execCpys h space hint tok grp src idx off s
  | .tkchk h d tok => Sys2Proof.Machine.execTkchk h d tok s
  | .lyset h space hint grp base off => Sys2Proof.Machine.execLyset h space hint grp base off s
  | .tdesc h t a b => Sys2Proof.Machine.execTdesc h t a b s
  | .mzero h i96 acc => Sys2Proof.Machine.execMzero h i96 acc s
  | .mma h tb acc ta tb' => Sys2Proof.Machine.execMma h tb acc ta tb' s
  | .mmab h scaled ctr planes acc ta tb' => Sys2Proof.Machine.execMmab h scaled ctr planes acc ta tb' s
  | .mdrain h space hint clr add tok acc tile grp => Sys2Proof.Machine.execMdrain h space hint clr add tok acc tile grp s
  | .ocmp h mode d x y => Sys2Proof.Machine.execOcmp h mode d x y s
  | .rcount h d a => Sys2Proof.Machine.execRcount h d a s
  | .rclose h refl d a => Sys2Proof.Machine.execRclose h refl d a s
  | .rcomp h d a b => Sys2Proof.Machine.execRcomp h d a b s
  | .rtrans h d a => Sys2Proof.Machine.execRtrans h d a s
  | .qcvt h k a mask dst q => Sys2Proof.Machine.execQcvt h k a mask dst q s
  | .qexp h ctr planes d a m q => Sys2Proof.Machine.execQexp h ctr planes d a m q s
  | .barMeet h id part => Sys2Proof.Machine.execBarMeet h id part s
  | .barPost h id part => Sys2Proof.Machine.execBarPost h id part s
  | .barAwait h id => Sys2Proof.Machine.execBarAwait h id s
  | .rwatchOff h => Sys2Proof.Machine.execRwatchOff h s
  | .rwatchOn h => Sys2Proof.Machine.execRwatchOn h s
  | .rwatchClr h => Sys2Proof.Machine.execRwatchClr h s
  | .atom h ty op space order scope d a b c => Sys2Proof.Machine.execAtom h ty op space order scope d a b c s
  | .fence h order scope => Sys2Proof.Machine.execFence h order scope s
  | .gbarMeet h => Sys2Proof.Machine.execGbarMeet h s
  | .gbarPost h => Sys2Proof.Machine.execGbarPost h s
  | .gbarAwait h => Sys2Proof.Machine.execGbarAwait h s
  | .launch h tok q r => Sys2Proof.Machine.execLaunch h tok q r s
  | .lcount h tok c => Sys2Proof.Machine.execLcount h tok c s
  | .qwork h grp t iters => Sys2Proof.Machine.execQwork h grp t iters s
  | .pctlRd h d a => Sys2Proof.Machine.execPctlRd h d a s
  | .pctlWr h d a b => Sys2Proof.Machine.execPctlWr h d a b s
  | .pctlWrQcfg h d a b => Sys2Proof.Machine.execPctlWrQcfg h d a b s
  | .pctlWrQuota h d a b => Sys2Proof.Machine.execPctlWrQuota h d a b s
  | .pctlWrIfneg h d a b => Sys2Proof.Machine.execPctlWrIfneg h d a b s
  | .pctlWrPwstate h d a b => Sys2Proof.Machine.execPctlWrPwstate h d a b s
  | .pctlWrPwcap h d a b => Sys2Proof.Machine.execPctlWrPwcap h d a b s
  | .pctlWrFwin h d a b => Sys2Proof.Machine.execPctlWrFwin h d a b s
  | .pctlPreempt h d a b => Sys2Proof.Machine.execPctlPreempt h d a b s
  | .pctlResume h d a => Sys2Proof.Machine.execPctlResume h d a s
  | .pctlDrain h d a => Sys2Proof.Machine.execPctlDrain h d a s
  | .pctlReset h d a => Sys2Proof.Machine.execPctlReset h d a s
  | .pctlTlbi h d a b => Sys2Proof.Machine.execPctlTlbi h d a b s
  | .tmwait h d a => Sys2Proof.Machine.execTmwait h d a s
  | .tget h d pc => Sys2Proof.Machine.execTget h d pc s
  | .coll h tok a => Sys2Proof.Machine.execColl h tok a s
  | .seal h tok a b => Sys2Proof.Machine.execSeal h tok a b s
  | .sealOpen h tok a b => Sys2Proof.Machine.execSealOpen h tok a b s
  | .movi h d imm => Sys2Proof.Machine.execMovi h d imm s
  | .movhi h d a imm => Sys2Proof.Machine.execMovhi h d a imm s
  | .iaddi h d a imm => Sys2Proof.Machine.execIaddi h d a imm s
  | .iandi h d a imm => Sys2Proof.Machine.execIandi h d a imm s
  | .iori h d a imm => Sys2Proof.Machine.execIori h d a imm s
  | .ixori h d a imm => Sys2Proof.Machine.execIxori h d a imm s
  | .icmpi h rel pd a imm => Sys2Proof.Machine.execIcmpi h rel pd a imm s
  | .imuli h d a imm => Sys2Proof.Machine.execImuli h d a imm s
  | .bra h off => Sys2Proof.Machine.execBra h off s
  | .call h k off => Sys2Proof.Machine.execCall h k off s
  | .rcv h off => Sys2Proof.Machine.execRcv h off s
  | .brt h k tbl => Sys2Proof.Machine.execBrt h k tbl s
  | .loop h k off => Sys2Proof.Machine.execLoop h k off s
  | .iaddPairSlot sw x y => Sys2Proof.Machine.execIaddPairSlot sw x y s
  | .isubPairSlot sw x y => Sys2Proof.Machine.execIsubPairSlot sw x y s
  | .imulPairSlot sw x y => Sys2Proof.Machine.execImulPairSlot sw x y s
  | .iminPairSlot sw x y => Sys2Proof.Machine.execIminPairSlot sw x y s
  | .imaxPairSlot sw x y => Sys2Proof.Machine.execImaxPairSlot sw x y s
  | .landPairSlot sw x y => Sys2Proof.Machine.execLandPairSlot sw x y s
  | .lorPairSlot sw x y => Sys2Proof.Machine.execLorPairSlot sw x y s
  | .lxorPairSlot sw x y => Sys2Proof.Machine.execLxorPairSlot sw x y s
  | .andnPairSlot sw x y => Sys2Proof.Machine.execAndnPairSlot sw x y s
  | .shlPairSlot sw x y => Sys2Proof.Machine.execShlPairSlot sw x y s
  | .shrPairSlot sw x y => Sys2Proof.Machine.execShrPairSlot sw x y s
  | .sarPairSlot sw x y => Sys2Proof.Machine.execSarPairSlot sw x y s
  | .movPairSlot sw x y => Sys2Proof.Machine.execMovPairSlot sw x y s
  | .popcPairSlot sw x y => Sys2Proof.Machine.execPopcPairSlot sw x y s
  | .clzPairSlot sw x y => Sys2Proof.Machine.execClzPairSlot sw x y s
  | .brevPairSlot sw x y => Sys2Proof.Machine.execBrevPairSlot sw x y s
  | .faddPairSlot sw x y => Sys2Proof.Machine.execFaddPairSlot sw x y s
  | .fsubPairSlot sw x y => Sys2Proof.Machine.execFsubPairSlot sw x y s
  | .fmulPairSlot sw x y => Sys2Proof.Machine.execFmulPairSlot sw x y s
  | .fminPairSlot sw x y => Sys2Proof.Machine.execFminPairSlot sw x y s
  | .fmaxPairSlot sw x y => Sys2Proof.Machine.execFmaxPairSlot sw x y s
  | .frcpPairSlot sw x y => Sys2Proof.Machine.execFrcpPairSlot sw x y s
  | .frsqPairSlot sw x y => Sys2Proof.Machine.execFrsqPairSlot sw x y s
  | .fsqrtPairSlot sw x y => Sys2Proof.Machine.execFsqrtPairSlot sw x y s
  | .fex2PairSlot sw x y => Sys2Proof.Machine.execFex2PairSlot sw x y s
  | .flg2PairSlot sw x y => Sys2Proof.Machine.execFlg2PairSlot sw x y s
  | .cvtfPairSlot sw x y => Sys2Proof.Machine.execCvtfPairSlot sw x y s
  | .ivaddPairSlot sw x y => Sys2Proof.Machine.execIvaddPairSlot sw x y s
  | .ivsubPairSlot sw x y => Sys2Proof.Machine.execIvsubPairSlot sw x y s
  | .ivmulPairSlot sw x y => Sys2Proof.Machine.execIvmulPairSlot sw x y s
  | .ivhullPairSlot sw x y => Sys2Proof.Machine.execIvhullPairSlot sw x y s
  | .ivmeetPairSlot sw x y => Sys2Proof.Machine.execIvmeetPairSlot sw x y s
  | .datapathGrant core => Sys2Proof.Machine.execDatapathGrant core s
  | .variableLatencyWriteback team issue lane => Sys2Proof.Machine.execVariableLatencyWriteback team issue lane s
  | .segmentResume team => Sys2Proof.Machine.execSegmentResume team s
  | .teamEnd team => Sys2Proof.Machine.execTeamEnd team s
  | .scoreboardStallRelease team => Sys2Proof.Machine.execScoreboardStallRelease team s
  | .asyncOperationStart cluster op => Sys2Proof.Machine.execAsyncOperationStart cluster op s
  | .plainSpAccessPerformed acc => Sys2Proof.Machine.execPlainSpAccessPerformed acc s
  | .copyCompletion cluster op => Sys2Proof.Machine.execCopyCompletion cluster op s
  | .followOnMmaIssue cluster op => Sys2Proof.Machine.execFollowOnMmaIssue cluster op s
  | .matrixOperationComplete cluster op => Sys2Proof.Machine.execMatrixOperationComplete cluster op s
  | .layoutSlotLoaded team slot => Sys2Proof.Machine.execLayoutSlotLoaded team slot s
  | .engineFault cluster op => Sys2Proof.Machine.execEngineFault cluster op s
  | .pageRetirementComplete frame => Sys2Proof.Machine.execPageRetirementComplete frame s
  | .pageWalkComplete walk => Sys2Proof.Machine.execPageWalkComplete walk s
  | .homeStorePerformed acc => Sys2Proof.Machine.execHomeStorePerformed acc s
  | .l1LineAgeOut cluster line => Sys2Proof.Machine.execL1LineAgeOut cluster line s
  | .placementDecision partition => Sys2Proof.Machine.execPlacementDecision partition s
  | .priorityWaitTimeout queue => Sys2Proof.Machine.execPriorityWaitTimeout queue s
  | .gridCompletion launch => Sys2Proof.Machine.execGridCompletion launch s
  | .qcfgDeferredApply queue => Sys2Proof.Machine.execQcfgDeferredApply queue s
  | .watchdogExpiry queue => Sys2Proof.Machine.execWatchdogExpiry queue s
  | .preemptSave partition => Sys2Proof.Machine.execPreemptSave partition s
  | .preemptBudgetExpiry partition => Sys2Proof.Machine.execPreemptBudgetExpiry partition s
  | .quotaChangeApply partition => Sys2Proof.Machine.execQuotaChangeApply partition s
  | .slewNotchStep cluster => Sys2Proof.Machine.execSlewNotchStep cluster s
  | .hoistWaveRelease launch unit => Sys2Proof.Machine.execHoistWaveRelease launch unit s
  | .capStep => Sys2Proof.Machine.execCapStep s
  | .sealCompletion op => Sys2Proof.Machine.execSealCompletion op s
  | .collCommit tag => Sys2Proof.Machine.execCollCommit tag s
  | .collTimeout tag => Sys2Proof.Machine.execCollTimeout tag s
  | .podBarrierRelease tag => Sys2Proof.Machine.execPodBarrierRelease tag s
  | .ptpSyncReceived master sent delay => Sys2Proof.Machine.execPtpSyncReceived master sent delay s
  | .ptpSyncLoss => Sys2Proof.Machine.execPtpSyncLoss s
  | .tmwaitWake team => Sys2Proof.Machine.execTmwaitWake team s
  | .memoryScrub block => Sys2Proof.Machine.execMemoryScrub block s
  | .doorbellWrite queue record viaPf => Sys2Proof.Machine.execDoorbellWrite queue record viaPf s
  | .hostRequestCompletion acc ok => Sys2Proof.Machine.execHostRequestCompletion acc ok s
  | .functionLevelReset vf => Sys2Proof.Machine.execFunctionLevelReset vf s
  | .packageReset => Sys2Proof.Machine.execPackageReset s
  | .hostLinkTraining fails => Sys2Proof.Machine.execHostLinkTraining fails s
  | .retentionWake source => Sys2Proof.Machine.execRetentionWake source s
  | .nodeCapSet watts => Sys2Proof.Machine.execNodeCapSet watts s
  | .pldmSensorRead sensor => Sys2Proof.Machine.execPldmSensorRead sensor s
  | .firmwareUpdate image signature svn => Sys2Proof.Machine.execFirmwareUpdate image signature svn s
  | .attestationReport nonce => Sys2Proof.Machine.execAttestationReport nonce s
  | .measurementExtend reg data => Sys2Proof.Machine.execMeasurementExtend reg data s
  | .unlockToken token => Sys2Proof.Machine.execUnlockToken token s
  | .debugAccess kind target value => Sys2Proof.Machine.execDebugAccess kind target value s
  | .tarbinPortTraining port lowVersion highVersion peer peerPort lanes => Sys2Proof.Machine.execTarbinPortTraining port lowVersion highVersion peer peerPort lanes s
  | .flitReplay port => Sys2Proof.Machine.execFlitReplay port s
  | .portLaneFailure port recovers => Sys2Proof.Machine.execPortLaneFailure port recovers s
  | .remoteRequestArrival r => Sys2Proof.Machine.execRemoteRequestArrival r s
  | .remoteAnswerArrival acc data code ver line => Sys2Proof.Machine.execRemoteAnswerArrival acc data code ver line s
  | .remoteStoreAck acc code => Sys2Proof.Machine.execRemoteStoreAck acc code s
  | .collContributionArrival key member data => Sys2Proof.Machine.execCollContributionArrival key member data s
  | .ptpAnnounceReceived master stratum => Sys2Proof.Machine.execPtpAnnounceReceived master stratum s
  | .hostDeviceMemoryAccess function addr write => Sys2Proof.Machine.execHostDeviceMemoryAccess function addr write s
  | .flitForward flit => Sys2Proof.Machine.execFlitForward flit s
  | .fabricRangeDrop package base len version => Sys2Proof.Machine.execFabricRangeDrop package base len version s
  | .collMemberFailure tag status => Sys2Proof.Machine.execCollMemberFailure tag status s
  | .pldmBaseRequest request => Sys2Proof.Machine.execPldmBaseRequest request s

end Sys2Proof.Machine
end

