-- ==== Sys2Proof/Machine/Step.lean ====
section
/-! DEFINITION. One step of the machine: the issue of a word by the team that holds the datapath, or the next event or
cluster cycle. -/

namespace Sys2Proof.Machine

/-- One step. A team that was granted the datapath issues its next word; else what comes next is chosen (log 1), once the array's
operations that have become able to begin are noted (R264). -/
def step (s : State) : Host.Outcome State Fault Refusal :=
  match s.turn with
  | .issue f =>
    match issueWord { s with turn := .free } f with
    | .run s1 i => exec i s1
    | .done s1 => .next s1
  | .free =>
    match chooseNext (noteAble s) with
    | .event s1 i => exec i s1
    | .move s1 => .next s1
    | .cycle s1 => .next (tick s1)

/-- The state with an instruction of `nbits` bits, zero above them, where the next step fetches it (log 10). -/
def State.withFetchWord (s : State) (nbits w : Nat) : State := loadWord s (w % 2 ^ min nbits 64)

end Sys2Proof.Machine
end

