-- ==== Sys2Proof/Laws/Encoding.lean ====
section
/-! SUPPORT. The encoder's codes are read back: each name's code, each register field, the fields of a word, the slots of
a pair, and what the decoder reads under each opcode. -/

set_option Elab.async false

namespace Sys2Proof

@[simp] theorem Sense.ofCode_code (x : Sense) : Sense.ofCode x.code = x := by cases x <;> rfl

@[simp] theorem Ty.ofCode_code (x : Ty) : Ty.ofCode x.code = some x := by cases x <;> rfl

@[simp] theorem Rnd.ofCode_code (x : Rnd) : Rnd.ofCode x.code = x := by cases x <;> rfl

@[simp] theorem Mod.ofCode_code (x : Mod) : Mod.ofCode x.code = x := by cases x <;> rfl

@[simp] theorem Rel.ofCode_code (x : Rel) : Rel.ofCode x.code = some x := by cases x <;> rfl

@[simp] theorem IvRel.ofCode_code (x : IvRel) : IvRel.ofCode x.code = x := by cases x <;> rfl

@[simp] theorem SelPol.ofCode_code (x : SelPol) : SelPol.ofCode x.code = some x := by cases x <;> rfl

@[simp] theorem VoteMode.ofCode_code (x : VoteMode) : VoteMode.ofCode x.code = some x := by cases x <;> rfl

@[simp] theorem ShflMode.ofCode_code (x : ShflMode) : ShflMode.ofCode x.code = some x := by cases x <;> rfl

@[simp] theorem ScanOp.ofCode_code (x : ScanOp) : ScanOp.ofCode x.code = some x := by cases x <;> rfl

@[simp] theorem RandMode.ofCode_code (x : RandMode) : RandMode.ofCode x.code = some x := by cases x <;> rfl

@[simp] theorem Space.ofCode_code (x : Space) : Space.ofCode x.code = some x := by cases x <;> rfl

@[simp] theorem Width.ofCode_code (x : Width) : Width.ofCode x.code = some x := by cases x <;> rfl

@[simp] theorem Hint.ofCode_code (x : Hint) : Hint.ofCode x.code = x := by cases x <;> rfl

@[simp] theorem DrainSpace.ofCode_code (x : DrainSpace) : DrainSpace.ofCode x.code = some x := by cases x <;> rfl

@[simp] theorem OcmpMode.ofCode_code (x : OcmpMode) : OcmpMode.ofCode x.code = some x := by cases x <;> rfl

@[simp] theorem AtomOp.ofCode_code (x : AtomOp) : AtomOp.ofCode x.code = some x := by cases x <;> rfl

@[simp] theorem AtomSpace.ofCode_code (x : AtomSpace) : AtomSpace.ofCode x.code = some x := by cases x <;> rfl

@[simp] theorem AtomOrder.ofCode_code (x : AtomOrder) : AtomOrder.ofCode x.code = x := by cases x <;> rfl

@[simp] theorem FenceOrder.ofCode_code (x : FenceOrder) : FenceOrder.ofCode x.code = some x := by cases x <;> rfl

@[simp] theorem Scope.ofCode_code (x : Scope) : Scope.ofCode x.code = some x := by cases x <;> rfl

@[simp] theorem SlotGuard.ofCode_code (x : SlotGuard) : SlotGuard.ofCode x.code = x := by cases x <;> rfl

@[simp] theorem PairOp.ofCode_code (x : PairOp) : PairOp.ofCode x.code = some x := by cases x <;> rfl

@[simp] theorem Special.ofCode_code (x : Special) : Special.ofCode x.code = some x := by cases x <;> rfl

@[simp] theorem vOf_vCode (r : BitVec 7) : vOf (vCode r) = some r := by revert r; decide

@[simp] theorem kOf_kCode (r : BitVec 6) : kOf (kCode r) = some r := by revert r; decide

@[simp] theorem groupOf_groupCode (g : BitVec 4) : groupOf (groupCode g) = some g := by revert g; decide

@[simp] theorem optKOf_optKCode (k : Option (BitVec 6)) : optKOf (optKCode k) = some k := by
  cases k with
  | none => decide
  | some k => revert k; decide

@[simp] theorem optGroupOf_optGroupCode (g : Option (BitVec 4)) : optGroupOf (optGroupCode g) = some g := by
  cases g with
  | none => decide
  | some k => revert k; decide

@[simp] theorem Src.ofCode_code (x : Src) : Src.ofCode x.code = some x := by
  cases x with
  | v r => revert r; decide
  | k r => revert r; decide
  | zero => decide
  | special y => cases y <;> decide
  | const n => revert n; decide

@[simp] theorem Dst.ofCode_code (x : Dst) : Dst.ofCode x.code = some x := by
  cases x with
  | v r => revert r; decide
  | k r => revert r; decide

@[simp] theorem predCode_low (p : BitVec 4) : (predCode p).extractLsb' 0 4 = p := by revert p; decide

@[simp] theorem accCode_low (a : BitVec 2) : (accCode a).extractLsb' 0 2 = a := by revert a; decide

@[simp] theorem carryBits_sub (sub : Bool) (ci : Option (BitVec 4)) : (carryBits sub ci)[5] = sub := by
  cases ci with
  | none => revert sub; decide
  | some p => revert sub p; decide

theorem carryBits_enable (sub : Bool) (ci : Option (BitVec 4)) : (carryBits sub ci).getLsbD 4 = ci.isSome := by
  cases ci with
  | none => revert sub; decide
  | some p => revert sub p; decide

theorem carryBits_pred (sub : Bool) (p : BitVec 4) : (carryBits sub (some p)).extractLsb' 0 4 = p := by
  revert sub p; decide

@[simp] theorem imm_parts (x : BitVec 32) : x.extractLsb' 24 8 ++ x.extractLsb' 16 8 ++ x.extractLsb' 0 16 = x := by
  rw [BitVec.extractLsb'_append_extractLsb'_eq_extractLsb' (by rfl), BitVec.extractLsb'_append_extractLsb'_eq_extractLsb' (by rfl)]
  exact BitVec.extractLsb'_eq_self

/-- The fields of a word are read back from it. -/
theorem Fields.unpack_pack (f : Fields) : Fields.unpack f.pack = f := by
  obtain ⟨⟨sw, gp, gs⟩, op, d, a, b, c, fn⟩ := f
  simp (disch := decide) only [Fields.unpack, Fields.pack, BitVec.extractLsb'_append_eq_of_le,
    BitVec.extractLsb'_append_eq_of_add_le, BitVec.getLsbD_append, b1]
  simp

theorem Fields.pack_form (f : Fields) : f.pack.getLsbD 62 = false := by
  simp (disch := decide) only [Fields.pack, BitVec.getLsbD_append, b1]
  simp

/-- A slot is read back from its bits. -/
theorem Slot.unpack_pack (x : Slot) : Slot.unpack x.pack = some x := by
  obtain ⟨op, d, b, g, ty, rnd, cls⟩ := x
  simp (disch := decide) only [Slot.unpack, Slot.pack, BitVec.extractLsb'_append_eq_of_le,
    BitVec.extractLsb'_append_eq_of_add_le]
  simp

theorem packPair_form (sw : Bool) (x y : Slot) : (packPair sw x y).getLsbD 62 = true := by
  simp (disch := decide) only [packPair, BitVec.getLsbD_append, b1]
  simp

/-- The slots of a pair word are read back from it. -/
theorem packPair_slots (sw : Bool) (x y : Slot) : (packPair sw x y).getLsbD 63 = sw ∧
    (packPair sw x y).extractLsb' 31 31 = x.pack ∧ (packPair sw x y).extractLsb' 0 31 = y.pack := by
  refine ⟨?_, ?_, ?_⟩
  · simp (disch := decide) only [packPair, BitVec.getLsbD_append, b1]
    simp
  · simp (disch := decide) only [packPair, BitVec.extractLsb'_append_eq_of_le, BitVec.extractLsb'_append_eq_of_add_le]
    simp
  · simp (disch := decide) only [packPair, BitVec.extractLsb'_append_eq_of_add_le]
    simp

/-- A word of fields decodes to a well-formed instruction that its fields name. -/
theorem decode_of_fields {i j : Instr} {f : Fields} (hf : i.fields = some f) (hj : j.fields = some f)
    (hw : j.wellFormed = true) (hd : decodeFields f = some j) (w : BitVec 64) (he : encode i = some w) : decode w = .ok j := by
  have h : f.pack.getLsbD 62 = false := f.pack_form
  have e : encode j = some f.pack := by simp only [encode, hj]
  obtain rfl : f.pack = w := by simpa only [encode, hf, Option.some.injEq] using he
  simp only [decode, decodeRaw, h, Fields.unpack_pack, hd, Bool.false_eq_true, if_false, hw, e]
  simp

/-- A word of two slots decodes to the well-formed pair that its slots name. -/
theorem decode_of_slots {i : Instr} {sw : Bool} {x y : Slot} (hf : i.fields = none) (hs : i.slots = some (sw, x, y))
    (hw : i.wellFormed = true) (hp : pairInstr sw x y = i) (w : BitVec 64) (he : encode i = some w) : decode w = .ok i := by
  have e : encode i = some (packPair sw x y) := by simp only [encode, hf, hs]
  obtain rfl : packPair sw x y = w := by simpa only [e, Option.some.injEq] using he
  obtain ⟨h63, hx, hy⟩ := packPair_slots sw x y
  simp [decode, decodeRaw, hx, hy, h63, packPair_form, Slot.unpack_pack, hp, hw, e, -BitVec.getLsbD_eq_getElem]

theorem decodeFields_00 (h d a b c fn) : decodeFields ⟨h, 0x00, d, a, b, c, fn⟩ =
    (let f : Fields := ⟨h, 0x00, d, a, b, c, fn⟩; do return .iadd f.h (← f.ty) (f.fnBit 0) (← f.dst) (← f.srcA) (← f.srcB)) := rfl

theorem decodeFields_01 (h d a b c fn) : decodeFields ⟨h, 0x01, d, a, b, c, fn⟩ =
    (let f : Fields := ⟨h, 0x01, d, a, b, c, fn⟩; do return .isub f.h (← f.ty) (f.fnBit 0) (← f.dst) (← f.srcA) (← f.srcB)) := rfl

theorem decodeFields_02 (h d a b c fn) : decodeFields ⟨h, 0x02, d, a, b, c, fn⟩ =
    (let f : Fields := ⟨h, 0x02, d, a, b, c, fn⟩; do return .imul f.h (← f.ty) (f.fnBit 0) (← f.dst) (← f.srcA) (← f.srcB)) := rfl

theorem decodeFields_03 (h d a b c fn) : decodeFields ⟨h, 0x03, d, a, b, c, fn⟩ =
    (let f : Fields := ⟨h, 0x03, d, a, b, c, fn⟩; do return .imulh f.h (← f.ty) (← f.dst) (← f.srcA) (← f.srcB)) := rfl

theorem decodeFields_04 (h d a b c fn) : decodeFields ⟨h, 0x04, d, a, b, c, fn⟩ =
    (let f : Fields := ⟨h, 0x04, d, a, b, c, fn⟩; do return .imad f.h (← f.ty) (f.fnBit 0) (← f.dst) (← f.srcA) (← f.srcB) (← f.srcC)) := rfl

theorem decodeFields_05 (h d a b c fn) : decodeFields ⟨h, 0x05, d, a, b, c, fn⟩ =
    (let f : Fields := ⟨h, 0x05, d, a, b, c, fn⟩; do return .imadw f.h (← f.ty) (← f.dst) (← f.srcA) (← f.srcB) (← f.srcC)) := rfl

theorem decodeFields_06 (h d a b c fn) : decodeFields ⟨h, 0x06, d, a, b, c, fn⟩ =
    (let f : Fields := ⟨h, 0x06, d, a, b, c, fn⟩; do return .iaddx f.h (← f.ty) (f.fnBit 5) f.carryIn (← f.dst) (← f.srcA) (← f.srcB) f.predC) := rfl

theorem decodeFields_07 (h d a b c fn) : decodeFields ⟨h, 0x07, d, a, b, c, fn⟩ =
    (let f : Fields := ⟨h, 0x07, d, a, b, c, fn⟩; do return .idiv f.h (← f.ty) (f.fnBit 0) (← f.dst) (← f.srcA) (← f.srcB)) := rfl

theorem decodeFields_08 (h d a b c fn) : decodeFields ⟨h, 0x08, d, a, b, c, fn⟩ =
    (let f : Fields := ⟨h, 0x08, d, a, b, c, fn⟩; do return .iabs f.h (← f.ty) (f.fnBit 0) (← f.dst) (← f.srcA)) := rfl

theorem decodeFields_09 (h d a b c fn) : decodeFields ⟨h, 0x09, d, a, b, c, fn⟩ =
    (let f : Fields := ⟨h, 0x09, d, a, b, c, fn⟩; do return .ineg f.h (← f.ty) (f.fnBit 0) (← f.dst) (← f.srcA)) := rfl

theorem decodeFields_0A (h d a b c fn) : decodeFields ⟨h, 0x0A, d, a, b, c, fn⟩ =
    (let f : Fields := ⟨h, 0x0A, d, a, b, c, fn⟩; do return .imin f.h (← f.ty) (← f.dst) (← f.srcA) (← f.srcB)) := rfl

theorem decodeFields_0B (h d a b c fn) : decodeFields ⟨h, 0x0B, d, a, b, c, fn⟩ =
    (let f : Fields := ⟨h, 0x0B, d, a, b, c, fn⟩; do return .imax f.h (← f.ty) (← f.dst) (← f.srcA) (← f.srcB)) := rfl

theorem decodeFields_0C (h d a b c fn) : decodeFields ⟨h, 0x0C, d, a, b, c, fn⟩ =
    (let f : Fields := ⟨h, 0x0C, d, a, b, c, fn⟩; do return .iclamp f.h (← f.ty) (← f.dst) (← f.srcA) (← f.srcB) (← f.srcC)) := rfl

theorem decodeFields_0D (h d a b c fn) : decodeFields ⟨h, 0x0D, d, a, b, c, fn⟩ =
    (let f : Fields := ⟨h, 0x0D, d, a, b, c, fn⟩; do return .idp4 f.h (f.fnBit 2) (f.fnBit 1) (f.fnBit 0) (← f.dst) (← f.srcA) (← f.srcB) (← f.srcC)) := rfl

theorem decodeFields_0E (h d a b c fn) : decodeFields ⟨h, 0x0E, d, a, b, c, fn⟩ =
    (let f : Fields := ⟨h, 0x0E, d, a, b, c, fn⟩; do return .land f.h (← f.ty) (← f.dst) (← f.srcA) (← f.srcB)) := rfl

theorem decodeFields_0F (h d a b c fn) : decodeFields ⟨h, 0x0F, d, a, b, c, fn⟩ =
    (let f : Fields := ⟨h, 0x0F, d, a, b, c, fn⟩; do return .lor f.h (← f.ty) (← f.dst) (← f.srcA) (← f.srcB)) := rfl

theorem decodeFields_10 (h d a b c fn) : decodeFields ⟨h, 0x10, d, a, b, c, fn⟩ =
    (let f : Fields := ⟨h, 0x10, d, a, b, c, fn⟩; do return .lxor f.h (← f.ty) (← f.dst) (← f.srcA) (← f.srcB)) := rfl

theorem decodeFields_11 (h d a b c fn) : decodeFields ⟨h, 0x11, d, a, b, c, fn⟩ =
    (let f : Fields := ⟨h, 0x11, d, a, b, c, fn⟩; do return .andn f.h (← f.ty) (← f.dst) (← f.srcA) (← f.srcB)) := rfl

theorem decodeFields_12 (h d a b c fn) : decodeFields ⟨h, 0x12, d, a, b, c, fn⟩ =
    (let f : Fields := ⟨h, 0x12, d, a, b, c, fn⟩; do return .lut3 f.h (← f.ty) (f.fn.extractLsb' 0 8) (← f.dst) (← f.srcA) (← f.srcB) (← f.srcC)) := rfl

theorem decodeFields_13 (h d a b c fn) : decodeFields ⟨h, 0x13, d, a, b, c, fn⟩ =
    (let f : Fields := ⟨h, 0x13, d, a, b, c, fn⟩; do return .shl f.h (← f.ty) (← f.dst) (← f.srcA) (← f.srcB)) := rfl

theorem decodeFields_14 (h d a b c fn) : decodeFields ⟨h, 0x14, d, a, b, c, fn⟩ =
    (let f : Fields := ⟨h, 0x14, d, a, b, c, fn⟩; do return .shr f.h (← f.ty) (← f.dst) (← f.srcA) (← f.srcB)) := rfl

theorem decodeFields_15 (h d a b c fn) : decodeFields ⟨h, 0x15, d, a, b, c, fn⟩ =
    (let f : Fields := ⟨h, 0x15, d, a, b, c, fn⟩; do return .sar f.h (← f.ty) (← f.dst) (← f.srcA) (← f.srcB)) := rfl

theorem decodeFields_16 (h d a b c fn) : decodeFields ⟨h, 0x16, d, a, b, c, fn⟩ =
    (let f : Fields := ⟨h, 0x16, d, a, b, c, fn⟩; do return .fshl f.h (← f.ty) (← f.dst) (← f.srcA) (← f.srcB) (← f.srcC)) := rfl

theorem decodeFields_17 (h d a b c fn) : decodeFields ⟨h, 0x17, d, a, b, c, fn⟩ =
    (let f : Fields := ⟨h, 0x17, d, a, b, c, fn⟩; do return .popc f.h (← f.ty) (← f.dst) (← f.srcA)) := rfl

theorem decodeFields_18 (h d a b c fn) : decodeFields ⟨h, 0x18, d, a, b, c, fn⟩ =
    (let f : Fields := ⟨h, 0x18, d, a, b, c, fn⟩; do return .clz f.h (← f.ty) (← f.dst) (← f.srcA)) := rfl

theorem decodeFields_19 (h d a b c fn) : decodeFields ⟨h, 0x19, d, a, b, c, fn⟩ =
    (let f : Fields := ⟨h, 0x19, d, a, b, c, fn⟩; do return .ctz f.h (← f.ty) (← f.dst) (← f.srcA)) := rfl

theorem decodeFields_1A (h d a b c fn) : decodeFields ⟨h, 0x1A, d, a, b, c, fn⟩ =
    (let f : Fields := ⟨h, 0x1A, d, a, b, c, fn⟩; do return .brev f.h (← f.ty) (← f.dst) (← f.srcA)) := rfl

theorem decodeFields_1B (h d a b c fn) : decodeFields ⟨h, 0x1B, d, a, b, c, fn⟩ =
    (let f : Fields := ⟨h, 0x1B, d, a, b, c, fn⟩; do return .bfx f.h (← f.ty) (← f.dst) (← f.srcA) (← f.srcB) (← f.srcC)) := rfl

theorem decodeFields_1C (h d a b c fn) : decodeFields ⟨h, 0x1C, d, a, b, c, fn⟩ =
    (let f : Fields := ⟨h, 0x1C, d, a, b, c, fn⟩; do return .bfi f.h (← f.ty) (← f.dst) (← f.srcA) (← f.srcB) (← f.srcC)) := rfl

theorem decodeFields_1D (h d a b c fn) : decodeFields ⟨h, 0x1D, d, a, b, c, fn⟩ =
    (let f : Fields := ⟨h, 0x1D, d, a, b, c, fn⟩; do return .icmp f.h (← f.ty) (← Rel.ofCode (f.fn.extractLsb' 0 3)) f.predD (← f.srcA) (← f.srcB)) := rfl

theorem decodeFields_1E (h d a b c fn) : decodeFields ⟨h, 0x1E, d, a, b, c, fn⟩ =
    (let f : Fields := ⟨h, 0x1E, d, a, b, c, fn⟩; do return .sel f.h (← f.ty) (← SelPol.ofCode (f.fn.extractLsb' 0 2)) (← f.dst) (← f.srcA) (← f.srcB) f.predC) := rfl

theorem decodeFields_1F (h d a b c fn) : decodeFields ⟨h, 0x1F, d, a, b, c, fn⟩ =
    (let f : Fields := ⟨h, 0x1F, d, a, b, c, fn⟩; do return .cvti f.h (← f.ty) (← f.clsTy) (f.fnBit 4) (← f.dst) (← f.srcA)) := rfl

theorem decodeFields_20 (h d a b c fn) : decodeFields ⟨h, 0x20, d, a, b, c, fn⟩ =
    (let f : Fields := ⟨h, 0x20, d, a, b, c, fn⟩; do return .mov f.h (← f.ty) (← f.dst) (← f.srcA)) := rfl

theorem decodeFields_21 (h d a b c fn) : decodeFields ⟨h, 0x21, d, a, b, c, fn⟩ =
    (let f : Fields := ⟨h, 0x21, d, a, b, c, fn⟩; do return .lea f.h (← f.ty) (f.fn.extractLsb' 0 3) (← f.dst) (← f.srcA) (← f.srcB)) := rfl

theorem decodeFields_22 (h d a b c fn) : decodeFields ⟨h, 0x22, d, a, b, c, fn⟩ =
    (let f : Fields := ⟨h, 0x22, d, a, b, c, fn⟩; do return .bperm f.h (← f.ty) (← f.dst) (← f.srcA) (← f.srcB) (← f.srcC)) := rfl

theorem decodeFields_30 (h d a b c fn) : decodeFields ⟨h, 0x30, d, a, b, c, fn⟩ =
    (let f : Fields := ⟨h, 0x30, d, a, b, c, fn⟩; do return .fadd f.h (← f.ty) f.rnd (← f.dst) (← f.msrcA) (← f.msrcB)) := rfl

theorem decodeFields_31 (h d a b c fn) : decodeFields ⟨h, 0x31, d, a, b, c, fn⟩ =
    (let f : Fields := ⟨h, 0x31, d, a, b, c, fn⟩; do return .fsub f.h (← f.ty) f.rnd (← f.dst) (← f.msrcA) (← f.msrcB)) := rfl

theorem decodeFields_32 (h d a b c fn) : decodeFields ⟨h, 0x32, d, a, b, c, fn⟩ =
    (let f : Fields := ⟨h, 0x32, d, a, b, c, fn⟩; do return .fmul f.h (← f.ty) f.rnd (← f.dst) (← f.msrcA) (← f.msrcB)) := rfl

theorem decodeFields_33 (h d a b c fn) : decodeFields ⟨h, 0x33, d, a, b, c, fn⟩ =
    (let f : Fields := ⟨h, 0x33, d, a, b, c, fn⟩; do return .ffma f.h (← f.ty) f.rnd (← f.dst) (← f.msrcA) (← f.msrcB) (← f.msrcC)) := rfl

theorem decodeFields_34 (h d a b c fn) : decodeFields ⟨h, 0x34, d, a, b, c, fn⟩ =
    (let f : Fields := ⟨h, 0x34, d, a, b, c, fn⟩; do return .fmin f.h (← f.ty) (← f.dst) (← f.msrcA) (← f.msrcB)) := rfl

theorem decodeFields_35 (h d a b c fn) : decodeFields ⟨h, 0x35, d, a, b, c, fn⟩ =
    (let f : Fields := ⟨h, 0x35, d, a, b, c, fn⟩; do return .fmax f.h (← f.ty) (← f.dst) (← f.msrcA) (← f.msrcB)) := rfl

theorem decodeFields_36 (h d a b c fn) : decodeFields ⟨h, 0x36, d, a, b, c, fn⟩ =
    (let f : Fields := ⟨h, 0x36, d, a, b, c, fn⟩; do return .fcmp f.h (← f.ty) (← Rel.ofCode (f.fn.extractLsb' 0 3)) f.predD (← f.msrcA) (← f.msrcB)) := rfl

theorem decodeFields_37 (h d a b c fn) : decodeFields ⟨h, 0x37, d, a, b, c, fn⟩ =
    (let f : Fields := ⟨h, 0x37, d, a, b, c, fn⟩; do return .frcp f.h f.rnd (← f.dst) (← f.msrcA)) := rfl

theorem decodeFields_38 (h d a b c fn) : decodeFields ⟨h, 0x38, d, a, b, c, fn⟩ =
    (let f : Fields := ⟨h, 0x38, d, a, b, c, fn⟩; do return .frsq f.h f.rnd (← f.dst) (← f.msrcA)) := rfl

theorem decodeFields_39 (h d a b c fn) : decodeFields ⟨h, 0x39, d, a, b, c, fn⟩ =
    (let f : Fields := ⟨h, 0x39, d, a, b, c, fn⟩; do return .fsqrt f.h (← f.ty) f.rnd (← f.dst) (← f.msrcA)) := rfl

theorem decodeFields_3A (h d a b c fn) : decodeFields ⟨h, 0x3A, d, a, b, c, fn⟩ =
    (let f : Fields := ⟨h, 0x3A, d, a, b, c, fn⟩; do return .fdiv f.h (← f.ty) f.rnd (← f.dst) (← f.msrcA) (← f.msrcB)) := rfl

theorem decodeFields_3B (h d a b c fn) : decodeFields ⟨h, 0x3B, d, a, b, c, fn⟩ =
    (let f : Fields := ⟨h, 0x3B, d, a, b, c, fn⟩; do return .fex2 f.h (← f.dst) (← f.msrcA)) := rfl

theorem decodeFields_3C (h d a b c fn) : decodeFields ⟨h, 0x3C, d, a, b, c, fn⟩ =
    (let f : Fields := ⟨h, 0x3C, d, a, b, c, fn⟩; do return .flg2 f.h (← f.dst) (← f.msrcA)) := rfl

theorem decodeFields_3D (h d a b c fn) : decodeFields ⟨h, 0x3D, d, a, b, c, fn⟩ =
    (let f : Fields := ⟨h, 0x3D, d, a, b, c, fn⟩; do return .fsinpi f.h (← f.dst) (← f.msrcA)) := rfl

theorem decodeFields_3E (h d a b c fn) : decodeFields ⟨h, 0x3E, d, a, b, c, fn⟩ =
    (let f : Fields := ⟨h, 0x3E, d, a, b, c, fn⟩; do return .fcospi f.h (← f.dst) (← f.msrcA)) := rfl

theorem decodeFields_3F (h d a b c fn) : decodeFields ⟨h, 0x3F, d, a, b, c, fn⟩ =
    (let f : Fields := ⟨h, 0x3F, d, a, b, c, fn⟩; do return .ftanh f.h (← f.dst) (← f.msrcA)) := rfl

theorem decodeFields_40 (h d a b c fn) : decodeFields ⟨h, 0x40, d, a, b, c, fn⟩ =
    (let f : Fields := ⟨h, 0x40, d, a, b, c, fn⟩; do return .fclass f.h (← f.ty) (← f.dst) (← f.msrcA)) := rfl

theorem decodeFields_41 (h d a b c fn) : decodeFields ⟨h, 0x41, d, a, b, c, fn⟩ =
    (let f : Fields := ⟨h, 0x41, d, a, b, c, fn⟩; do return .fscale f.h (← f.ty) f.rnd (← f.dst) (← f.msrcA) (← f.srcB)) := rfl

theorem decodeFields_42 (h d a b c fn) : decodeFields ⟨h, 0x42, d, a, b, c, fn⟩ =
    (let f : Fields := ⟨h, 0x42, d, a, b, c, fn⟩; do return .cvtf f.h (← f.ty) (← f.clsTy) f.rnd (← f.dst) (← f.msrcA)) := rfl

theorem decodeFields_43 (h d a b c fn) : decodeFields ⟨h, 0x43, d, a, b, c, fn⟩ =
    (let f : Fields := ⟨h, 0x43, d, a, b, c, fn⟩; do return .cvtfi f.h (← f.ty) (← f.clsTy) f.rnd (← f.dst) (← f.msrcA)) := rfl

theorem decodeFields_44 (h d a b c fn) : decodeFields ⟨h, 0x44, d, a, b, c, fn⟩ =
    (let f : Fields := ⟨h, 0x44, d, a, b, c, fn⟩; do return .cvtif f.h (← f.ty) (← f.clsTy) f.rnd (← f.dst) (← f.srcA)) := rfl

theorem decodeFields_45 (h d a b c fn) : decodeFields ⟨h, 0x45, d, a, b, c, fn⟩ =
    (let f : Fields := ⟨h, 0x45, d, a, b, c, fn⟩; do return .fdot2 f.h (← f.ty) f.rnd (← f.dst) (← f.srcA) (← f.srcB) (← f.msrcC)) := rfl

theorem decodeFields_48 (h d a b c fn) : decodeFields ⟨h, 0x48, d, a, b, c, fn⟩ =
    (let f : Fields := ⟨h, 0x48, d, a, b, c, fn⟩; do return .ivpt f.h (f.fnBit 0) (← f.dst) (← f.msrcA)) := rfl

theorem decodeFields_49 (h d a b c fn) : decodeFields ⟨h, 0x49, d, a, b, c, fn⟩ =
    (let f : Fields := ⟨h, 0x49, d, a, b, c, fn⟩; do return .ivmake f.h (← f.dst) (← f.msrcA) (← f.msrcB)) := rfl

theorem decodeFields_4A (h d a b c fn) : decodeFields ⟨h, 0x4A, d, a, b, c, fn⟩ =
    (let f : Fields := ⟨h, 0x4A, d, a, b, c, fn⟩; do return .ivlo f.h (← f.dst) (← f.msrcA)) := rfl

theorem decodeFields_4B (h d a b c fn) : decodeFields ⟨h, 0x4B, d, a, b, c, fn⟩ =
    (let f : Fields := ⟨h, 0x4B, d, a, b, c, fn⟩; do return .ivhi f.h (← f.dst) (← f.msrcA)) := rfl

theorem decodeFields_4C (h d a b c fn) : decodeFields ⟨h, 0x4C, d, a, b, c, fn⟩ =
    (let f : Fields := ⟨h, 0x4C, d, a, b, c, fn⟩; do return .ivmid f.h (← f.dst) (← f.msrcA)) := rfl

theorem decodeFields_4D (h d a b c fn) : decodeFields ⟨h, 0x4D, d, a, b, c, fn⟩ =
    (let f : Fields := ⟨h, 0x4D, d, a, b, c, fn⟩; do return .ivwid f.h (← f.dst) (← f.msrcA)) := rfl

theorem decodeFields_4E (h d a b c fn) : decodeFields ⟨h, 0x4E, d, a, b, c, fn⟩ =
    (let f : Fields := ⟨h, 0x4E, d, a, b, c, fn⟩; do return .ivadd f.h (← f.dst) (← f.msrcA) (← f.msrcB)) := rfl

theorem decodeFields_4F (h d a b c fn) : decodeFields ⟨h, 0x4F, d, a, b, c, fn⟩ =
    (let f : Fields := ⟨h, 0x4F, d, a, b, c, fn⟩; do return .ivsub f.h (← f.dst) (← f.msrcA) (← f.msrcB)) := rfl

theorem decodeFields_50 (h d a b c fn) : decodeFields ⟨h, 0x50, d, a, b, c, fn⟩ =
    (let f : Fields := ⟨h, 0x50, d, a, b, c, fn⟩; do return .ivmul f.h (← f.dst) (← f.msrcA) (← f.msrcB)) := rfl

theorem decodeFields_51 (h d a b c fn) : decodeFields ⟨h, 0x51, d, a, b, c, fn⟩ =
    (let f : Fields := ⟨h, 0x51, d, a, b, c, fn⟩; do return .ivfma f.h (← f.dst) (← f.msrcA) (← f.msrcB) (← f.msrcC)) := rfl

theorem decodeFields_52 (h d a b c fn) : decodeFields ⟨h, 0x52, d, a, b, c, fn⟩ =
    (let f : Fields := ⟨h, 0x52, d, a, b, c, fn⟩; do return .ivdiv f.h (← f.dst) (← f.msrcA) (← f.msrcB)) := rfl

theorem decodeFields_53 (h d a b c fn) : decodeFields ⟨h, 0x53, d, a, b, c, fn⟩ =
    (let f : Fields := ⟨h, 0x53, d, a, b, c, fn⟩; do return .ivsqr f.h (← f.dst) (← f.msrcA)) := rfl

theorem decodeFields_54 (h d a b c fn) : decodeFields ⟨h, 0x54, d, a, b, c, fn⟩ =
    (let f : Fields := ⟨h, 0x54, d, a, b, c, fn⟩; do return .ivsqrt f.h (← f.dst) (← f.msrcA)) := rfl

theorem decodeFields_55 (h d a b c fn) : decodeFields ⟨h, 0x55, d, a, b, c, fn⟩ =
    (let f : Fields := ⟨h, 0x55, d, a, b, c, fn⟩; do return .ivrsqrt f.h (← f.dst) (← f.msrcA)) := rfl

theorem decodeFields_56 (h d a b c fn) : decodeFields ⟨h, 0x56, d, a, b, c, fn⟩ =
    (let f : Fields := ⟨h, 0x56, d, a, b, c, fn⟩; do return .ivhull f.h (← f.dst) (← f.msrcA) (← f.msrcB)) := rfl

theorem decodeFields_57 (h d a b c fn) : decodeFields ⟨h, 0x57, d, a, b, c, fn⟩ =
    (let f : Fields := ⟨h, 0x57, d, a, b, c, fn⟩; do return .ivmeet f.h (f.fnBit 0) (← f.dst) (← f.msrcA) (← f.msrcB)) := rfl

theorem decodeFields_58 (h d a b c fn) : decodeFields ⟨h, 0x58, d, a, b, c, fn⟩ =
    (let f : Fields := ⟨h, 0x58, d, a, b, c, fn⟩; do return .ivcmp f.h (IvRel.ofCode (f.fn.extractLsb' 0 3)) f.predD (← f.msrcA) (← f.msrcB)) := rfl

theorem decodeFields_59 (h d a b c fn) : decodeFields ⟨h, 0x59, d, a, b, c, fn⟩ =
    (let f : Fields := ⟨h, 0x59, d, a, b, c, fn⟩; do return .ivsplit f.h (← vOf f.d) (← vOf f.b) (← f.msrcA)) := rfl

theorem decodeFields_5A (h d a b c fn) : decodeFields ⟨h, 0x5A, d, a, b, c, fn⟩ =
    (let f : Fields := ⟨h, 0x5A, d, a, b, c, fn⟩; do return .ivbis f.h (← vOf f.d) (← f.msrcA) (← kOf f.b) (← f.srcC) (f.fn.extractLsb' 0 4)) := rfl

theorem decodeFields_60 (h d a b c fn) : decodeFields ⟨h, 0x60, d, a, b, c, fn⟩ =
    (let f : Fields := ⟨h, 0x60, d, a, b, c, fn⟩; do return .nop f.h) := rfl

theorem decodeFields_61 (h d a b c fn) : decodeFields ⟨h, 0x61, d, a, b, c, fn⟩ =
    (let f : Fields := ⟨h, 0x61, d, a, b, c, fn⟩; do return .exit f.h) := rfl

theorem decodeFields_62 (h d a b c fn) : decodeFields ⟨h, 0x62, d, a, b, c, fn⟩ =
    (let f : Fields := ⟨h, 0x62, d, a, b, c, fn⟩; do return .yield f.h) := rfl

theorem decodeFields_63 (h d a b c fn) : decodeFields ⟨h, 0x63, d, a, b, c, fn⟩ =
    (let f : Fields := ⟨h, 0x63, d, a, b, c, fn⟩; do return .trap f.h (f.fn.extractLsb' 0 8)) := rfl

theorem decodeFields_64 (h d a b c fn) : decodeFields ⟨h, 0x64, d, a, b, c, fn⟩ =
    (let f : Fields := ⟨h, 0x64, d, a, b, c, fn⟩; do return .ret f.h (← kOf f.a)) := rfl

theorem decodeFields_65 (h d a b c fn) : decodeFields ⟨h, 0x65, d, a, b, c, fn⟩ =
    (let f : Fields := ⟨h, 0x65, d, a, b, c, fn⟩; do return .cvg f.h) := rfl

theorem decodeFields_66 (h d a b c fn) : decodeFields ⟨h, 0x66, d, a, b, c, fn⟩ =
    (let f : Fields := ⟨h, 0x66, d, a, b, c, fn⟩; do return .pand f.h (f.fnBit 0) (f.fnBit 1) f.predD f.predA f.predB) := rfl

theorem decodeFields_67 (h d a b c fn) : decodeFields ⟨h, 0x67, d, a, b, c, fn⟩ =
    (let f : Fields := ⟨h, 0x67, d, a, b, c, fn⟩; do return .por f.h (f.fnBit 0) (f.fnBit 1) f.predD f.predA f.predB) := rfl

theorem decodeFields_68 (h d a b c fn) : decodeFields ⟨h, 0x68, d, a, b, c, fn⟩ =
    (let f : Fields := ⟨h, 0x68, d, a, b, c, fn⟩; do return .pnot f.h f.predD f.predA) := rfl

theorem decodeFields_69 (h d a b c fn) : decodeFields ⟨h, 0x69, d, a, b, c, fn⟩ =
    (let f : Fields := ⟨h, 0x69, d, a, b, c, fn⟩; do return .pdec f.h (f.fnBit 0) f.predD f.predA) := rfl

theorem decodeFields_6A (h d a b c fn) : decodeFields ⟨h, 0x6A, d, a, b, c, fn⟩ =
    (let f : Fields := ⟨h, 0x6A, d, a, b, c, fn⟩; do return .pmov f.h f.predD (← f.srcA)) := rfl

theorem decodeFields_6B (h d a b c fn) : decodeFields ⟨h, 0x6B, d, a, b, c, fn⟩ =
    (let f : Fields := ⟨h, 0x6B, d, a, b, c, fn⟩; do return .pget f.h (← f.dst) f.predA) := rfl

theorem decodeFields_6C (h d a b c fn) : decodeFields ⟨h, 0x6C, d, a, b, c, fn⟩ =
    (let f : Fields := ⟨h, 0x6C, d, a, b, c, fn⟩; do return .vote f.h (f.fnBit 3) (← VoteMode.ofCode (f.fn.extractLsb' 0 3)) (← f.dst) f.predA) := rfl

theorem decodeFields_6D (h d a b c fn) : decodeFields ⟨h, 0x6D, d, a, b, c, fn⟩ =
    (let f : Fields := ⟨h, 0x6D, d, a, b, c, fn⟩; do return .shfl f.h (f.fnBit 3) (← ShflMode.ofCode (f.fn.extractLsb' 0 3)) (← vOf f.d) (← f.srcA) (← f.srcB) f.predC) := rfl

theorem decodeFields_6E (h d a b c fn) : decodeFields ⟨h, 0x6E, d, a, b, c, fn⟩ =
    (let f : Fields := ⟨h, 0x6E, d, a, b, c, fn⟩; do return .scan f.h (← f.ty) (f.fnBit 4) (f.fnBit 3) (← ScanOp.ofCode (f.fn.extractLsb' 0 3)) (← vOf f.d) (← f.srcA)) := rfl

theorem decodeFields_6F (h d a b c fn) : decodeFields ⟨h, 0x6F, d, a, b, c, fn⟩ =
    (let f : Fields := ⟨h, 0x6F, d, a, b, c, fn⟩; do return .redl f.h (← f.ty) (f.fnBit 3) (← ScanOp.ofCode (f.fn.extractLsb' 0 3)) (← f.dst) (← f.srcA)) := rfl

theorem decodeFields_70 (h d a b c fn) : decodeFields ⟨h, 0x70, d, a, b, c, fn⟩ =
    (let f : Fields := ⟨h, 0x70, d, a, b, c, fn⟩; do return .push f.h (← vOf f.d) (← f.srcA) (← f.srcB)) := rfl

theorem decodeFields_71 (h d a b c fn) : decodeFields ⟨h, 0x71, d, a, b, c, fn⟩ =
    (let f : Fields := ⟨h, 0x71, d, a, b, c, fn⟩; do return .matchLanes f.h (← f.ty) (← vOf f.d) (← f.srcA)) := rfl

theorem decodeFields_72 (h d a b c fn) : decodeFields ⟨h, 0x72, d, a, b, c, fn⟩ =
    (let f : Fields := ⟨h, 0x72, d, a, b, c, fn⟩; do return .vget f.h (← vOf f.d) (← kOf f.a)) := rfl

theorem decodeFields_73 (h d a b c fn) : decodeFields ⟨h, 0x73, d, a, b, c, fn⟩ =
    (let f : Fields := ⟨h, 0x73, d, a, b, c, fn⟩; do return .vput f.h (← f.srcA) (← kOf f.b)) := rfl

theorem decodeFields_74 (h d a b c fn) : decodeFields ⟨h, 0x74, d, a, b, c, fn⟩ =
    (let f : Fields := ⟨h, 0x74, d, a, b, c, fn⟩; do return .rand f.h (← RandMode.ofCode (f.fn.extractLsb' 0 2)) (← vOf f.d)) := rfl

theorem decodeFields_75 (h d a b c fn) : decodeFields ⟨h, 0x75, d, a, b, c, fn⟩ =
    (let f : Fields := ⟨h, 0x75, d, a, b, c, fn⟩; do return .rkey f.h (← kOf f.a) (← kOf f.b) (← optKOf f.c)) := rfl

theorem decodeFields_76 (h d a b c fn) : decodeFields ⟨h, 0x76, d, a, b, c, fn⟩ =
    (let f : Fields := ⟨h, 0x76, d, a, b, c, fn⟩; do return .rfork f.h (f.d.extractLsb' 1 5) (← kOf f.a)) := rfl

theorem decodeFields_77 (h d a b c fn) : decodeFields ⟨h, 0x77, d, a, b, c, fn⟩ =
    (let f : Fields := ⟨h, 0x77, d, a, b, c, fn⟩; do return .vstag f.h (← f.dst) (← vOf f.a)) := rfl

theorem decodeFields_78 (h d a b c fn) : decodeFields ⟨h, 0x78, d, a, b, c, fn⟩ =
    (let f : Fields := ⟨h, 0x78, d, a, b, c, fn⟩; do return .getc f.h (← f.dst) (f.fn.extractLsb' 0 4)) := rfl

theorem decodeFields_79 (h d a b c fn) : decodeFields ⟨h, 0x79, d, a, b, c, fn⟩ =
    (let f : Fields := ⟨h, 0x79, d, a, b, c, fn⟩
     do
       if f.fn = 0x0 then return .setcFlags f.h (← f.srcA)
       else if f.fn = 0x1 then return .setcBindctl f.h (← f.srcA)
       else if f.fn = 0x4 || f.fn = 0x5 || f.fn = 0x6 then return .setcStream f.h (f.fn.extractLsb' 0 4) (← f.srcA)
       else if f.fn = 0xC then return .setcPassc f.h (← f.srcA)
       else if f.fn = 0xD then return .setcRatio f.h (← f.srcA)
       else return .setc f.h (f.fn.extractLsb' 0 4) (← f.srcA)) := rfl

theorem decodeFields_80 (h d a b c fn) : decodeFields ⟨h, 0x80, d, a, b, c, fn⟩ =
    (let f : Fields := ⟨h, 0x80, d, a, b, c, fn⟩; do return .ld f.h (← f.space) (← f.width) f.hint (← f.dst) (← f.srcA) f.fn) := rfl

theorem decodeFields_81 (h d a b c fn) : decodeFields ⟨h, 0x81, d, a, b, c, fn⟩ =
    (let f : Fields := ⟨h, 0x81, d, a, b, c, fn⟩; do return .st f.h (← f.space) (← f.width) f.hint (← f.srcA) (← f.srcB) f.fn) := rfl

theorem decodeFields_82 (h d a b c fn) : decodeFields ⟨h, 0x82, d, a, b, c, fn⟩ =
    (let f : Fields := ⟨h, 0x82, d, a, b, c, fn⟩; do return .pref f.h (← f.space) f.hint (← f.srcA) f.fn) := rfl

theorem decodeFields_83 (h d a b c fn) : decodeFields ⟨h, 0x83, d, a, b, c, fn⟩ =
    (let f : Fields := ⟨h, 0x83, d, a, b, c, fn⟩; do return .cpy f.h (f.b.getLsbD 7) (f.a.getLsbD 7) (← f.space) (← f.width) f.hint (← kOf f.d) (f.a.extractLsb' 0 7) (f.b.extractLsb' 0 7) f.fn) := rfl

theorem decodeFields_84 (h d a b c fn) : decodeFields ⟨h, 0x84, d, a, b, c, fn⟩ =
    (let f : Fields := ⟨h, 0x84, d, a, b, c, fn⟩; do return .cpyt f.h (f.b.getLsbD 4) (← f.space) f.hint (← kOf f.d) (← groupOf f.a) (f.b.extractLsb' 0 4) f.fn) := rfl

theorem decodeFields_85 (h d a b c fn) : decodeFields ⟨h, 0x85, d, a, b, c, fn⟩ =
    (let f : Fields := ⟨h, 0x85, d, a, b, c, fn⟩; do return .cpym f.h (← f.space) f.hint (← kOf f.d) (← groupOf f.a) (← kOf f.b) f.fn) := rfl

theorem decodeFields_86 (h d a b c fn) : decodeFields ⟨h, 0x86, d, a, b, c, fn⟩ =
    (let f : Fields := ⟨h, 0x86, d, a, b, c, fn⟩; do return .cpys f.h (← f.space) f.hint (← kOf f.d) (← groupOf f.a) (f.b.extractLsb' 0 4) (f.b.extractLsb' 4 4) f.fn) := rfl

theorem decodeFields_87 (h d a b c fn) : decodeFields ⟨h, 0x87, d, a, b, c, fn⟩ =
    (let f : Fields := ⟨h, 0x87, d, a, b, c, fn⟩; do return .tkchk f.h (← f.dst) (← kOf f.a)) := rfl

theorem decodeFields_88 (h d a b c fn) : decodeFields ⟨h, 0x88, d, a, b, c, fn⟩ =
    (let f : Fields := ⟨h, 0x88, d, a, b, c, fn⟩; do return .lyset f.h (← f.space) f.hint (← groupOf f.d) (← optKOf f.a) f.fn) := rfl

theorem decodeFields_90 (h d a b c fn) : decodeFields ⟨h, 0x90, d, a, b, c, fn⟩ =
    (let f : Fields := ⟨h, 0x90, d, a, b, c, fn⟩; do return .tdesc f.h f.predD (← kOf f.a) (← optKOf f.b)) := rfl

theorem decodeFields_91 (h d a b c fn) : decodeFields ⟨h, 0x91, d, a, b, c, fn⟩ =
    (let f : Fields := ⟨h, 0x91, d, a, b, c, fn⟩; do return .mzero f.h (f.fnBit 0) (f.d.extractLsb' 0 2)) := rfl

theorem decodeFields_92 (h d a b c fn) : decodeFields ⟨h, 0x92, d, a, b, c, fn⟩ =
    (let f : Fields := ⟨h, 0x92, d, a, b, c, fn⟩; do return .mma f.h (f.fnBit 0) (f.d.extractLsb' 0 2) f.predA f.predB) := rfl

theorem decodeFields_93 (h d a b c fn) : decodeFields ⟨h, 0x93, d, a, b, c, fn⟩ =
    (let f : Fields := ⟨h, 0x93, d, a, b, c, fn⟩; do return .mmab f.h (f.fnBit 5) (f.fnBit 4) (f.fn.extractLsb' 0 4) (f.d.extractLsb' 0 2) f.predA f.predB) := rfl

theorem decodeFields_94 (h d a b c fn) : decodeFields ⟨h, 0x94, d, a, b, c, fn⟩ =
    (let f : Fields := ⟨h, 0x94, d, a, b, c, fn⟩; do return .mdrain f.h (← DrainSpace.ofCode (f.fn.extractLsb' 0 2)) (Hint.ofCode (f.fn.extractLsb' 5 2)) (f.fnBit 3) (f.fnBit 2) (← kOf f.d) (f.a.extractLsb' 0 2) f.predB (← optGroupOf f.c)) := rfl

theorem decodeFields_95 (h d a b c fn) : decodeFields ⟨h, 0x95, d, a, b, c, fn⟩ =
    (let f : Fields := ⟨h, 0x95, d, a, b, c, fn⟩; do return .ocmp f.h (← OcmpMode.ofCode (f.fn.extractLsb' 0 3)) f.predD f.predA f.predB) := rfl

theorem decodeFields_96 (h d a b c fn) : decodeFields ⟨h, 0x96, d, a, b, c, fn⟩ =
    (let f : Fields := ⟨h, 0x96, d, a, b, c, fn⟩; do return .rcount f.h f.predD f.predA) := rfl

theorem decodeFields_97 (h d a b c fn) : decodeFields ⟨h, 0x97, d, a, b, c, fn⟩ =
    (let f : Fields := ⟨h, 0x97, d, a, b, c, fn⟩; do return .rclose f.h (f.fnBit 0) f.predD f.predA) := rfl

theorem decodeFields_98 (h d a b c fn) : decodeFields ⟨h, 0x98, d, a, b, c, fn⟩ =
    (let f : Fields := ⟨h, 0x98, d, a, b, c, fn⟩; do return .rcomp f.h f.predD f.predA f.predB) := rfl

theorem decodeFields_99 (h d a b c fn) : decodeFields ⟨h, 0x99, d, a, b, c, fn⟩ =
    (let f : Fields := ⟨h, 0x99, d, a, b, c, fn⟩; do return .rtrans f.h f.predD f.predA) := rfl

theorem decodeFields_9A (h d a b c fn) : decodeFields ⟨h, 0x9A, d, a, b, c, fn⟩ =
    (let f : Fields := ⟨h, 0x9A, d, a, b, c, fn⟩; do return .qcvt f.h (← kOf f.d) f.predA (f.b.extractLsb' 4 4) (f.b.extractLsb' 0 4) (← kOf f.c)) := rfl

theorem decodeFields_9B (h d a b c fn) : decodeFields ⟨h, 0x9B, d, a, b, c, fn⟩ =
    (let f : Fields := ⟨h, 0x9B, d, a, b, c, fn⟩; do return .qexp f.h (f.fnBit 4) (f.fn.extractLsb' 0 4) f.predD f.predA f.predB (← kOf f.c)) := rfl

theorem decodeFields_A0 (h d a b c fn) : decodeFields ⟨h, 0xA0, d, a, b, c, fn⟩ =
    (let f : Fields := ⟨h, 0xA0, d, a, b, c, fn⟩
     do
       if f.fn.extractLsb' 4 2 = 0 then return .barMeet f.h (f.fn.extractLsb' 0 4) (← optKOf f.a)
       else if f.fn.extractLsb' 4 2 = 1 then return .barPost f.h (f.fn.extractLsb' 0 4) (← optKOf f.a)
       else if f.fn.extractLsb' 4 2 = 2 then return .barAwait f.h (f.fn.extractLsb' 0 4)
       else none) := rfl

theorem decodeFields_A1 (h d a b c fn) : decodeFields ⟨h, 0xA1, d, a, b, c, fn⟩ =
    (let f : Fields := ⟨h, 0xA1, d, a, b, c, fn⟩
     do
       if f.fn = 0 then return .rwatchOff f.h
       else if f.fn = 1 then return .rwatchOn f.h
       else if f.fn = 2 then return .rwatchClr f.h
       else none) := rfl

theorem decodeFields_A8 (h d a b c fn) : decodeFields ⟨h, 0xA8, d, a, b, c, fn⟩ =
    (let f : Fields := ⟨h, 0xA8, d, a, b, c, fn⟩; do return .atom f.h (← f.ty) (← AtomOp.ofCode (f.fn.extractLsb' 8 4)) (← AtomSpace.ofCode (f.fn.extractLsb' 6 2)) (AtomOrder.ofCode (f.fn.extractLsb' 4 2)) (← Scope.ofCode (f.fn.extractLsb' 1 3)) (← f.dst) (← f.srcA) (← f.srcB) (← casOperand f)) := rfl

theorem decodeFields_A9 (h d a b c fn) : decodeFields ⟨h, 0xA9, d, a, b, c, fn⟩ =
    (let f : Fields := ⟨h, 0xA9, d, a, b, c, fn⟩; do return .fence f.h (← FenceOrder.ofCode (f.fn.extractLsb' 4 2)) (← Scope.ofCode (f.fn.extractLsb' 1 3))) := rfl

theorem decodeFields_AA (h d a b c fn) : decodeFields ⟨h, 0xAA, d, a, b, c, fn⟩ =
    (let f : Fields := ⟨h, 0xAA, d, a, b, c, fn⟩
     do
       if f.fn = 0 then return .gbarMeet f.h
       else if f.fn = 16 then return .gbarPost f.h
       else if f.fn = 32 then return .gbarAwait f.h
       else none) := rfl

theorem decodeFields_AB (h d a b c fn) : decodeFields ⟨h, 0xAB, d, a, b, c, fn⟩ =
    (let f : Fields := ⟨h, 0xAB, d, a, b, c, fn⟩; do return .launch f.h (← kOf f.d) (← kOf f.a) (← kOf f.b)) := rfl

theorem decodeFields_AC (h d a b c fn) : decodeFields ⟨h, 0xAC, d, a, b, c, fn⟩ =
    (let f : Fields := ⟨h, 0xAC, d, a, b, c, fn⟩; do return .lcount f.h (← kOf f.d) (← kOf f.a)) := rfl

theorem decodeFields_AD (h d a b c fn) : decodeFields ⟨h, 0xAD, d, a, b, c, fn⟩ =
    (let f : Fields := ⟨h, 0xAD, d, a, b, c, fn⟩; do return .qwork f.h (← groupOf f.d) (← kOf f.a) (← kOf f.b)) := rfl

theorem decodeFields_B0 (h d a b c fn) : decodeFields ⟨h, 0xB0, d, a, b, c, fn⟩ =
    (let f : Fields := ⟨h, 0xB0, d, a, b, c, fn⟩
     do
       if f.fn = 0 then return .pctlRd f.h (← f.dst) (← kOf f.a)
       else if f.fn = 1 then return .pctlWr f.h (← f.dst) (← kOf f.a) (← kOf f.b)
       else if f.fn = 2 then return .pctlPreempt f.h (← f.dst) (← kOf f.a) (← optKOf f.b)
       else if f.fn = 3 then return .pctlResume f.h (← f.dst) (← kOf f.a)
       else if f.fn = 4 then return .pctlDrain f.h (← f.dst) (← kOf f.a)
       else if f.fn = 5 then return .pctlReset f.h (← f.dst) (← kOf f.a)
       else if f.fn = 6 then return .pctlTlbi f.h (← f.dst) (← kOf f.a) (← optKOf f.b)
       else none) := rfl

theorem decodeFields_B1 (h d a b c fn) : decodeFields ⟨h, 0xB1, d, a, b, c, fn⟩ =
    (let f : Fields := ⟨h, 0xB1, d, a, b, c, fn⟩; do return .tmwait f.h (← f.dst) (← kOf f.a)) := rfl

theorem decodeFields_B2 (h d a b c fn) : decodeFields ⟨h, 0xB2, d, a, b, c, fn⟩ =
    (let f : Fields := ⟨h, 0xB2, d, a, b, c, fn⟩; do return .tget f.h (← f.dst) f.predC) := rfl

theorem decodeFields_B3 (h d a b c fn) : decodeFields ⟨h, 0xB3, d, a, b, c, fn⟩ =
    (let f : Fields := ⟨h, 0xB3, d, a, b, c, fn⟩; do return .coll f.h (← kOf f.d) (← kOf f.a)) := rfl

theorem decodeFields_B4 (h d a b c fn) : decodeFields ⟨h, 0xB4, d, a, b, c, fn⟩ =
    (let f : Fields := ⟨h, 0xB4, d, a, b, c, fn⟩
     do
       if f.fn = 0 then return .seal f.h (← kOf f.d) (← kOf f.a) (← kOf f.b)
       else if f.fn = 1 then return .sealOpen f.h (← kOf f.d) (← kOf f.a) (← kOf f.b)
       else none) := rfl

theorem decodeFields_C0 (h d a b c fn) : decodeFields ⟨h, 0xC0, d, a, b, c, fn⟩ =
    (let f : Fields := ⟨h, 0xC0, d, a, b, c, fn⟩; do return .movi f.h (← f.dst) f.imm) := rfl

theorem decodeFields_C1 (h d a b c fn) : decodeFields ⟨h, 0xC1, d, a, b, c, fn⟩ =
    (let f : Fields := ⟨h, 0xC1, d, a, b, c, fn⟩; do return .movhi f.h (← f.dst) (← f.srcA) f.imm) := rfl

theorem decodeFields_C2 (h d a b c fn) : decodeFields ⟨h, 0xC2, d, a, b, c, fn⟩ =
    (let f : Fields := ⟨h, 0xC2, d, a, b, c, fn⟩; do return .iaddi f.h (← f.dst) (← f.srcA) f.imm) := rfl

theorem decodeFields_C3 (h d a b c fn) : decodeFields ⟨h, 0xC3, d, a, b, c, fn⟩ =
    (let f : Fields := ⟨h, 0xC3, d, a, b, c, fn⟩; do return .iandi f.h (← f.dst) (← f.srcA) f.imm) := rfl

theorem decodeFields_C4 (h d a b c fn) : decodeFields ⟨h, 0xC4, d, a, b, c, fn⟩ =
    (let f : Fields := ⟨h, 0xC4, d, a, b, c, fn⟩; do return .iori f.h (← f.dst) (← f.srcA) f.imm) := rfl

theorem decodeFields_C5 (h d a b c fn) : decodeFields ⟨h, 0xC5, d, a, b, c, fn⟩ =
    (let f : Fields := ⟨h, 0xC5, d, a, b, c, fn⟩; do return .ixori f.h (← f.dst) (← f.srcA) f.imm) := rfl

theorem decodeFields_C6 (h d a b c fn) : decodeFields ⟨h, 0xC6, d, a, b, c, fn⟩ =
    (let f : Fields := ⟨h, 0xC6, d, a, b, c, fn⟩; do return .icmpi f.h (← Rel.ofCode (f.d.extractLsb' 4 3)) f.predD (← f.srcA) f.imm) := rfl

theorem decodeFields_C7 (h d a b c fn) : decodeFields ⟨h, 0xC7, d, a, b, c, fn⟩ =
    (let f : Fields := ⟨h, 0xC7, d, a, b, c, fn⟩; do return .imuli f.h (← f.dst) (← f.srcA) f.imm) := rfl

theorem decodeFields_F0 (h d a b c fn) : decodeFields ⟨h, 0xF0, d, a, b, c, fn⟩ =
    (let f : Fields := ⟨h, 0xF0, d, a, b, c, fn⟩; do return .bra f.h f.imm) := rfl

theorem decodeFields_F1 (h d a b c fn) : decodeFields ⟨h, 0xF1, d, a, b, c, fn⟩ =
    (let f : Fields := ⟨h, 0xF1, d, a, b, c, fn⟩; do return .call f.h (← kOf f.d) f.imm) := rfl

theorem decodeFields_F2 (h d a b c fn) : decodeFields ⟨h, 0xF2, d, a, b, c, fn⟩ =
    (let f : Fields := ⟨h, 0xF2, d, a, b, c, fn⟩; do return .rcv f.h f.imm) := rfl

theorem decodeFields_F3 (h d a b c fn) : decodeFields ⟨h, 0xF3, d, a, b, c, fn⟩ =
    (let f : Fields := ⟨h, 0xF3, d, a, b, c, fn⟩; do return .brt f.h (← kOf f.d) f.a) := rfl

theorem decodeFields_F4 (h d a b c fn) : decodeFields ⟨h, 0xF4, d, a, b, c, fn⟩ =
    (let f : Fields := ⟨h, 0xF4, d, a, b, c, fn⟩; do return .loop f.h (← kOf f.d) f.imm) := rfl

end Sys2Proof
end

