-- ==== Sys2Proof/Safety.lean ====
section
/-! DEFINITION. The vocabulary of claims: the invariant that every step keeps, the frames of words, and what it means that
a word completes with given results. -/

namespace Sys2Proof

/-- The instruction as a word writes it: the forms of pctl.wr share their encoding, and the register that K[A] names
tells them apart at issue (R408). -/
def Instr.written : Instr → Instr
  | .pctlWrQcfg h d a b | .pctlWrQuota h d a b | .pctlWrIfneg h d a b | .pctlWrPwstate h d a b
  | .pctlWrPwcap h d a b | .pctlWrFwin h d a b => .pctlWr h d a b
  | i => i

end Sys2Proof

namespace Sys2Proof.Machine

/-- The memory of the package keeps its canonical form. -/
abbrev State.memOk (s : State) : Prop := Memory.wf s.mem = true

/-- The two states differ at most in the value store of one core, and in the counter that orders its uses (R156 to
R163). -/
structure StoreOnly (c : Nat) (s s' : State) : Prop where
  rest : { s' with cores := s.cores, seq := s.seq } = s
  others : ∀ k, k ≠ c → s'.core k = s.core k
  own : { s'.core c with tagTable := (s.core c).tagTable, generation := (s.core c).generation, binds := (s.core c).binds,
                         misses := (s.core c).misses, freshes := (s.core c).freshes } = s.core c

/-- The issuing team is t' in s', and nothing else differs from s but the value store of its core: every other team, all
of memory and scratchpad, and every register outside the team are as they were. -/
structure TeamOnly (s s' : State) (t' : Team) : Prop where
  team : tfind s'.teams s.cur = some t'
  teams : ∀ f, f ≠ s.cur → tfind s'.teams f = tfind s.teams f
  store : StoreOnly (coreOf s.cur) s { s' with teams := s.teams }

/-- A team after a word: one issue more, its next pc, results put in flight, and the wait that a switch marker begins
(R137, R141). No register, flag or mask of it has changed yet. -/
def Team.issued (t : Team) (h : Hdr) (next : Nat) (ps : List Pend) : Team :=
  { t with issues := t.issues + 1, pc := next, pend := t.pend ++ ps, wait := if h.sw then .marker else t.wait }

/-- Where the word at a team's pc jumps with a branch offset, counted in words from the next word, modulo 2^64 (R28). -/
def jumpTo (t : Team) (off : BitVec 32) : Nat := (((t.pc : Int) + 8 + 8 * off.toInt) % 2 ^ 64).toNat

/-- What a result holds for a register: the value of each lane that writes it; for a register with one value, that of the
lowest lane (R49). -/
def resultOf (r : Reg) (lanes : List Nat) (x : Nat → Option Word) : RegWrite :=
  ⟨r, (match r with
    | .k _ | .t _ => lanes.take 1
    | _ => lanes).filterMap fun l => (x l).map fun v => (l, v)⟩

/-- A result in flight of a word of team t under guard h: its latency, its registers' values, and the union of the flags
that its lanes raise. A write of p0 is discarded (R50). -/
structure IsResult (p : Pend) (t : Team) (h : Hdr) (lat : Lat) (res : List (Reg × (Nat → Option Word)))
    (fl : Nat → Flags) : Prop where
  issue : p.issue = t.issues
  lat : p.lat = lat
  lanes : p.lanes = activeLanes t h
  writes : p.writes = (res.filter fun r => r.1 != .p 0).map fun r => resultOf r.1 (activeLanes t h) r.2
  flags : p.flags = Flags.union ((activeLanes t h).map fl)
  now : p.accs = 0 ∧ p.isLoop = false ∧ p.acq = none

/-- Word i of team t completes: the machine goes on to the next word with the result in flight, where a lane is active,
and nothing else has changed. -/
def Computes (i : Instr) (s : State) (t : Team) (h : Hdr) (lat : Lat) (res : List (Reg × (Nat → Option Word)))
    (fl : Nat → Flags) : Prop :=
  ∃ s' ps, exec i s = .next s' ∧ TeamOnly s s' (t.issued h (t.pc + 8) ps) ∧
    if (activeLanes t h).isEmpty then ps = [] else ∃ p, ps = [p] ∧ IsResult p t h lat res fl

/-- Team t issues in state s, on a core whose register rows are sound (R387). -/
structure Issuing (s : State) (t : Team) : Prop where
  team : tfind s.teams s.cur = some t
  sound : (s.core (coreOf s.cur)).rowPoison = [] ∧ (s.core (coreOf s.cur)).rowGone = []

/-- A word with one destination computes g lane by lane. -/
def ComputesOne (i : Instr) (h : Hdr) (lat : Lat) (d : Reg) (g : State → Nat → Team → Nat → Word × Flags) : Prop :=
  ∀ s t, Issuing s t → Computes i s t h lat [(d, fun l => some (g s s.cur t l).1)] fun l => (g s s.cur t l).2

/-- A word of one integer source. -/
def ComputesInt (i : Instr) (h : Hdr) (lat : Lat) (d : Dst) (a : Src) (g : Word → Word × Flags) : Prop :=
  ComputesOne i h lat (dstReg d) fun s f t l => g (readSrc s f t .int a l)

/-- A word of two integer sources. -/
def ComputesInt2 (i : Instr) (h : Hdr) (lat : Lat) (d : Dst) (a b : Src) (g : Word → Word → Word × Flags) : Prop :=
  ComputesOne i h lat (dstReg d) fun s f t l => g (readSrc s f t .int a l) (readSrc s f t .int b l)

/-- A word of three integer sources. -/
def ComputesInt3 (i : Instr) (h : Hdr) (lat : Lat) (d : Dst) (a b c : Src) (g : Word → Word → Word → Word × Flags) : Prop :=
  ComputesOne i h lat (dstReg d) fun s f t l =>
    g (readSrc s f t .int a l) (readSrc s f t .int b l) (readSrc s f t .int c l)

/-- A word of one float source in a format. -/
def ComputesFlt (i : Instr) (h : Hdr) (lat : Lat) (d : Dst) (fm : Fmt) (a : MSrc) (g : FV → Word × Flags) : Prop :=
  ComputesOne i h lat (dstReg d) fun s f t l => g (readFlt s f t fm a l)

/-- A word of two float sources in a format. -/
def ComputesFlt2 (i : Instr) (h : Hdr) (lat : Lat) (d : Dst) (fm : Fmt) (a b : MSrc) (g : FV → FV → Word × Flags) : Prop :=
  ComputesOne i h lat (dstReg d) fun s f t l => g (readFlt s f t fm a l) (readFlt s f t fm b l)

/-- A word of one interval source. -/
def ComputesIv (i : Instr) (h : Hdr) (lat : Lat) (d : Dst) (a : MSrc) (g : Iv → Word × Flags) : Prop :=
  ComputesOne i h lat (dstReg d) fun s f t l => g (readIv s f t a l)

/-- A word of two interval sources. -/
def ComputesIv2 (i : Instr) (h : Hdr) (lat : Lat) (d : Dst) (a b : MSrc) (g : Iv → Iv → Word × Flags) : Prop :=
  ComputesOne i h lat (dstReg d) fun s f t l => g (readIv s f t a l) (readIv s f t b l)

/-- A word that writes one predicate and raises no flag. -/
def ComputesPred (i : Instr) (h : Hdr) (pd : BitVec 4) (g : State → Nat → Team → Nat → BitVec 2) : Prop :=
  ComputesOne i h L4 (pReg pd) fun s f t l => ((g s f t l).setWidth 64, 0)

/-- Word i takes the issuing team to t', and the machine does nothing else. -/
def Goes (i : Instr) (s : State) (t' : Team) : Prop := exec i s = .next (s.setTeam s.cur t')

/-- Word i traps with a cause: it takes no effect (R33). `trapWord` sends the team to its handler. -/
def Traps (i : Instr) (s : State) (t : Team) (c : Cause) : Prop := exec i s = .next (trapWord s s.cur t c)

/-- Word i puts an asynchronous operation into its cluster, with its range-scoreboard entry where it takes one, and leaves the
results ps in flight. No byte of memory or scratchpad and no register has changed yet. -/
def Queues (i : Instr) (s : State) (t : Team) (h : Hdr) (x : AsyncOp) (e : Option SbEntry) (ps : List Pend) : Prop :=
  exec i s = .next ((pushOp s (s.cur / 48) x e).setTeam s.cur (t.issued h (t.pc + 8) ps))

/-- The word is not issued yet: its team waits for n free range-scoreboard entries (R219). -/
def AwaitsEntries (i : Instr) (s : State) (t : Team) (n : Nat) : Prop := Goes i s { t with wait := .entries n }

/-- The value of a token register in flight, until its event writes it (R230). -/
def tokenInFlight (t : Team) (tok : BitVec 6) : Pend := { issue := t.issues, lat := .token, writes := [⟨.k tok.toNat, []⟩], lanes := [0] }

/-- A word outside the effect that it has on its own cluster, team and value store: no other team, no memory, no other cluster
and no block, queue, launch or partition has changed. -/
structure ClusterFrame (s s' : State) : Prop where
  rest : { s' with clusters := s.clusters, teams := s.teams, cores := s.cores, seq := s.seq } = s
  teams : ∀ f, f ≠ s.cur → tfind s'.teams f = tfind s.teams f
  clusters : ∀ k, k ≠ s.cur / 48 → s'.cluster k = s.cluster k
  data : (s'.cluster (s.cur / 48)).sp = (s.cluster (s.cur / 48)).sp ∧ (s'.cluster (s.cur / 48)).acc = (s.cluster (s.cur / 48)).acc

/-- No error block of memory and no word of a scratchpad or accumulator holds an error that has not been met (R296, R382). -/
structure NoErrors (s : State) : Prop where
  latent : s.latent = []
  lost : s.lost = []
  sp : ∀ k, (s.cluster k).spPoison = [] ∧ (s.cluster k).spLatent = []
  acc : ∀ k, (s.cluster k).accPoison = [] ∧ (s.cluster k).accLatent = []

/-- What a memory word may change as it issues: the team that issues it, the accesses in flight from key s.seq on, the cores'
TLBs and value stores, the race watch of its block, what a trace of its partition tells (R426), and the flits of its remote stores
(R453). All of memory and scratchpad are as they were. -/
structure MemFrame (s s' : State) : Prop where
  rest : { s' with accs := s.accs, seq := s.seq, teams := s.teams, cores := s.cores, blocks := s.blocks, notices := s.notices,
                   fabric := { s'.fabric with transit := s.fabric.transit, outgoing := s.fabric.outgoing } } = s
  told : ∃ l, s'.notices = s.notices ++ l ∧ ∀ x ∈ l, ∃ p a n w, x = .traceAccess p s.cur a n w ∧ s.bexile.traced.contains p = true
  sent : ∃ o h, s'.fabric.outgoing = s.fabric.outgoing ++ o ∧ s'.fabric.transit = s.fabric.transit ++ h
  teams : ∀ f, f ≠ s.cur → tfind s'.teams f = tfind s.teams f
  accs : ∀ k, k < s.seq → tfind s'.accs k = tfind s.accs k
  blocks : ∀ b, (tfind s'.blocks b).map (fun x => { x with races := [] }) =
    (tfind s.blocks b).map (fun x => { x with races := [] })

/-- Neither memory nor any scratchpad or accumulator has changed. -/
structure DataKept (s s' : State) : Prop where
  mem : s'.mem = s.mem
  sp : ∀ k, (s'.cluster k).sp = (s.cluster k).sp
  acc : ∀ k, (s'.cluster k).acc = (s.cluster k).acc

/-- Runs of bytes, each an address, a length and a value, written in order: each that no later one meets holds its value, and no
other byte has changed. -/
def Written (m : Tab Byte) (runs : List (Nat × Nat × Nat)) (m' : Tab Byte) : Prop :=
  (∀ a r b, runs = a ++ r :: b → (∀ q ∈ b, q.1 + q.2.1 ≤ r.1 ∨ r.1 + r.2.1 ≤ q.1) →
    bytesGet m' r.1 r.2.1 = r.2.2 % 256 ^ r.2.1) ∧
  ∀ y, (∀ r ∈ runs, y < r.1 ∨ r.1 + r.2.1 ≤ y) → tget m' y 0 = tget m y 0

/-- The runs of a relation's bytes in a tile of a window whose first row is w0, bit (i, j) set where g says so (R250). -/
def relRuns (w0 : Nat) (t : Tile) (g : Nat → Nat → Bool) : List (Nat × Nat × Nat) :=
  (List.range t.rows).flatMap fun i => (List.range (t.cols / 8)).map fun n =>
    (256 * (w0 + t.base + i * t.pitch) + n, 1, ((List.range 8).map fun b => if g i (8 * n + b) then 2 ^ b else 0).sum)

/-- The runs of the elements of a tile of 2, 4 or 8 bytes each (R250). -/
def elemRuns (w0 : Nat) (t : Tile) (val : Nat → Nat → Nat) : List (Nat × Nat × Nat) :=
  (List.range t.rows).flatMap fun i => (List.range t.cols).map fun j =>
    (256 * (w0 + t.base + i * t.pitch) + t.fmt.bits / 8 * j, t.fmt.bits / 8, val i j)

/-- A walk has brought an operation the page of an address on its memory side, and its leaf lets it reach n bytes of home memory at
pa (R318 to R320). -/
def Brought (s : State) (x : AsyncOp) (write : Bool) (va pa n : Nat) : Prop :=
  let a := opAddr s x va
  a < 2 ^ 48 ∧ windowOf s x.partition a = none ∧ pa % n = 0 ∧ pa + n ≤ 0x80000000000 ∧
  ∃ w leaf, x.xlat.find? (fun w => w.page == a / 2 ^ 16) = some w ∧ w.leaf = some leaf ∧
    leafCheck x.partition (if write then .write else .read) (x.space == .vt) leaf w.size a = .ok pa

/-- A value rounded once to nearest even, a NaN and an infinity taking the format's own patterns, with its flags (R58, R76). -/
def roundTo (f : Fmt) (v : FV) : Nat × Flags :=
  match v with
  | .fin n m e => f.round .rne n m e false
  | v => (f.pattern v, 0)

/-- The float format of a storage format, and the range that an integer saturates to in it (R261). -/
def drainRange (f : EFmt) : Fmt × Int × Int :=
  match f with
  | .f16 => (.f16, 0, 0)
  | .bf16 => (.bf16, 0, 0)
  | .f64 => (.f64, 0, 0)
  | .s8 => (.f32, -128, 127)
  | .n8 => (.f32, 0, 255)
  | _ => (.f32, -(2 ^ 31), 2 ^ 31 - 1)

/-- What an mdrain delivers of an accumulator entry e over the bits `old`, in a storage format: the value, and whether it was
rounded or saturated (R261). -/
def Drained (i96 add : Bool) (f : EFmt) (e old value : Nat) (lossy : Bool) : Prop :=
  let r := drainRange f
  if i96 then
    let exact := signedOf 96 e + if add then signedOf 32 old else 0
    let y := max r.2.1 (min r.2.2 exact)
    (value : Int) = y % (256 : Int) ^ f.bytes ∧ (lossy = true ↔ y ≠ exact)
  else
    let v := if add then Fmt.f32.add .rne (Fmt.f32.value old) (Fmt.e96.value e) else roundTo r.1 (Fmt.e96.value e)
    value = v.1 ∧ (lossy = true ↔ v.1 ≠ r.1.nan ∧ v.2 ≠ 0)

/-- The value that an atomic of a type leaves over the bytes that it finds, none where it writes nothing (R339). -/
def atomicLeaves (op : AtomOp) (ty : Ty) (bytes : Nat) (b c : Word) : Option Word :=
  let old := BitVec.ofNat 64 bytes
  match op with
  | .add => some (if ty = .f32 then BitVec.ofNat 64 (Fmt.f32.add .rne (Fmt.f32.value bytes) (Fmt.f32.value (b.toNat % 2 ^ 32))).1
      else putInt ty (rdInt ty old + rdInt ty b))
  | .min => some (putInt ty (min (rdInt ty old) (rdInt ty b)))
  | .max => some (putInt ty (max (rdInt ty old) (rdInt ty b)))
  | .and => some (BitVec.ofNat 64 ((old &&& b).toNat % 2 ^ ty.bits))
  | .or => some (BitVec.ofNat 64 ((old ||| b).toNat % 2 ^ ty.bits))
  | .xor => some (BitVec.ofNat 64 ((old ^^^ b).toNat % 2 ^ ty.bits))
  | .exch => some (BitVec.ofNat 64 (b.toNat % 2 ^ ty.bits))
  | .cas => if old.toNat = c.toNat % 2 ^ ty.bits then some (BitVec.ofNat 64 (b.toNat % 2 ^ ty.bits)) else none
  | .inc => some (if rdInt ty b ≤ rdInt ty old then 0 else putInt ty (rdInt ty old + 1))

/-- The granules that the active lanes' accesses of n bytes touch, with their lanes (R283). -/
def touches (act : List Nat) (place : Nat → AccPlace) (va : Nat → Nat) (n : Nat) : List (Nat × Nat) :=
  act.flatMap fun l => match place l with
    | .sp _ _ => (windowGranules (va l) n).map fun g => (l, g)
    | _ => []

-- ===== values of floats and intervals =====

/-- The number that a finite value is; 0 for a NaN and for the infinities. -/
def FV.rat : FV → ℚ
  | .fin s m e => (if s then -1 else 1) * (m * (2 : ℚ) ^ e)
  | _ => 0

/-- The order of the values that are not NaN, with -0 equal to +0. -/
def FV.lt (x y : FV) : Bool :=
  match x, y with
  | .fin .., .fin .. => decide (x.rat < y.rat)
  | .inf true, .fin .. | .inf true, .inf false | .fin .., .inf false => true
  | _, _ => false

/-- A bound that is at most the number q. -/
def FV.atMost (x : FV) (q : ℚ) : Prop :=
  match x with
  | .fin .. => x.rat ≤ q
  | .inf s => s = true
  | .nan => False

/-- A bound that is at least the number q. -/
def FV.atLeast (x : FV) (q : ℚ) : Prop :=
  match x with
  | .fin .. => q ≤ x.rat
  | .inf s => s = false
  | .nan => False

/-- What a significand m, an exponent e and a sticky bit hold of a magnitude. `side q` compares q with the magnitude: it is
negative below it and positive above it. -/
def Stands (fm : Fmt) (side : ℚ → ℚ) (m : Nat) (e : Int) (sticky : Bool) : Prop :=
  if sticky then side (m * (2 : ℚ) ^ e) < 0 ∧ 0 < side ((m + 1) * (2 : ℚ) ^ e) ∧ 2 ^ (fm.fw + 2) ≤ m
  else side (m * (2 : ℚ) ^ e) = 0

/-- The multiple n of 2^q that the magnitude x of a sign rounds to in a mode (R57). -/
def Nearest (r : Rnd) (neg : Bool) (x : ℚ) (q : Int) (n : Nat) : Prop :=
  let u := (2 : ℚ) ^ q
  match r, neg with
  | .rne, _ => |x - n * u| ≤ u / 2 ∧ (|x - n * u| = u / 2 → n % 2 = 0)
  | .rtz, _ | .rdn, false | .rup, true => n * u ≤ x ∧ x < (n + 1) * u
  | .rdn, true | .rup, false => (n - 1) * u < x ∧ x ≤ n * u

/-- A result that is the exact value v rounded once; a zero has the sign given. -/
def RoundedFrom (fm : Fmt) (r : Rnd) (v : ℚ) (zeroSign : Bool) (out : Word × Flags) : Prop :=
  ∃ s m e, out = fltOut (fm.round r s m e false) ∧ (FV.fin s m e).rat = v ∧ (m = 0 → s = zeroSign)

/-- The canonical NaN as a result. -/
def nanOut (fm : Fmt) (fl : Flags) : Word × Flags := (BitVec.ofNat 64 fm.nan, fl)

/-- An infinity as a result. -/
def infOut (fm : Fmt) (neg : Bool) (fl : Flags) : Word × Flags := (BitVec.ofNat 64 (fm.inf neg), fl)

/-- A zero as a result, without a flag. -/
def zeroOut (fm : Fmt) (neg : Bool) : Word × Flags := (BitVec.ofNat 64 (fm.zero neg), 0)

/-- Whether an interval is proper and holds a number (R61). -/
def Iv.Holds (x : Iv) (q : ℚ) : Prop :=
  match x with
  | .proper lo hi => lo.atMost q ∧ hi.atLeast q
  | _ => False

/-- What an interval word of one operand gives where its operand is not proper (R64). -/
def Gated (g : Iv → Word × Flags) : Prop :=
  g .nai = (naiWord, 0) ∧ g .illFormed = (naiWord, Flags.nv) ∧ g .empty = (emptyWord, 0)

/-- What an interval word of two operands gives where one is not proper (R64). -/
def Gated2 (g : Iv → Iv → Word × Flags) : Prop :=
  ∀ x, g .nai x = (naiWord, 0) ∧ g x .nai = (naiWord, 0) ∧
    (x ≠ .nai → g .illFormed x = (naiWord, Flags.nv) ∧ g x .illFormed = (naiWord, Flags.nv) ∧
      (x ≠ .illFormed → g .empty x = (emptyWord, 0) ∧ g x .empty = (emptyWord, 0)))

end Sys2Proof.Machine
end

