-- ==== Sys2Proof/Laws/PerInstr.lean ====
section
/-! SUPPORT. The families of statements that are made of every instruction. -/

set_option linter.unusedSimpArgs false

set_option Elab.async false

namespace Sys2Proof.Laws

/-- The word of a well-formed instruction decodes to it. -/
def RoundTrip.Statement (i : Instr) : Prop := i.wellFormed = true → ∀ w, encode i = some w → decode w = .ok i.written

theorem RoundTrip.iadd (h ty sat d a b) : RoundTrip.Statement (.iadd h ty sat d a b) := fun hw =>
  decode_of_fields (j := .iadd h ty sat d a b) rfl rfl hw (by
    simp (disch := decide) only [decodeFields_00, Fields.ty, Fields.clsTy, Fields.rnd, Fields.fnBit, Fields.dst, Fields.srcA, Fields.srcB, Fields.srcC, Fields.msrcA,
    Fields.msrcB, Fields.msrcC, Fields.predD, Fields.predA, Fields.predB, Fields.predC, Fields.space, Fields.width, Fields.hint,
    Fields.imm, immFields, fnInt, fnFlt, fnBits, clsBit, b1, BitVec.extractLsb'_append_eq_of_le,
    BitVec.extractLsb'_append_eq_of_add_le, BitVec.getLsbD_append]
    simp)

theorem RoundTrip.isub (h ty sat d a b) : RoundTrip.Statement (.isub h ty sat d a b) := fun hw =>
  decode_of_fields (j := .isub h ty sat d a b) rfl rfl hw (by
    simp (disch := decide) only [decodeFields_01, Fields.ty, Fields.clsTy, Fields.rnd, Fields.fnBit, Fields.dst, Fields.srcA, Fields.srcB, Fields.srcC, Fields.msrcA,
    Fields.msrcB, Fields.msrcC, Fields.predD, Fields.predA, Fields.predB, Fields.predC, Fields.space, Fields.width, Fields.hint,
    Fields.imm, immFields, fnInt, fnFlt, fnBits, clsBit, b1, BitVec.extractLsb'_append_eq_of_le,
    BitVec.extractLsb'_append_eq_of_add_le, BitVec.getLsbD_append]
    simp)

theorem RoundTrip.imul (h ty sat d a b) : RoundTrip.Statement (.imul h ty sat d a b) := fun hw =>
  decode_of_fields (j := .imul h ty sat d a b) rfl rfl hw (by
    simp (disch := decide) only [decodeFields_02, Fields.ty, Fields.clsTy, Fields.rnd, Fields.fnBit, Fields.dst, Fields.srcA, Fields.srcB, Fields.srcC, Fields.msrcA,
    Fields.msrcB, Fields.msrcC, Fields.predD, Fields.predA, Fields.predB, Fields.predC, Fields.space, Fields.width, Fields.hint,
    Fields.imm, immFields, fnInt, fnFlt, fnBits, clsBit, b1, BitVec.extractLsb'_append_eq_of_le,
    BitVec.extractLsb'_append_eq_of_add_le, BitVec.getLsbD_append]
    simp)

theorem RoundTrip.imulh (h ty d a b) : RoundTrip.Statement (.imulh h ty d a b) := fun hw =>
  decode_of_fields (j := .imulh h ty d a b) rfl rfl hw (by
    simp (disch := decide) only [decodeFields_03, Fields.ty, Fields.clsTy, Fields.rnd, Fields.fnBit, Fields.dst, Fields.srcA, Fields.srcB, Fields.srcC, Fields.msrcA,
    Fields.msrcB, Fields.msrcC, Fields.predD, Fields.predA, Fields.predB, Fields.predC, Fields.space, Fields.width, Fields.hint,
    Fields.imm, immFields, fnInt, fnFlt, fnBits, clsBit, b1, BitVec.extractLsb'_append_eq_of_le,
    BitVec.extractLsb'_append_eq_of_add_le, BitVec.getLsbD_append]
    simp)

theorem RoundTrip.imad (h ty sat d a b c) : RoundTrip.Statement (.imad h ty sat d a b c) := fun hw =>
  decode_of_fields (j := .imad h ty sat d a b c) rfl rfl hw (by
    simp (disch := decide) only [decodeFields_04, Fields.ty, Fields.clsTy, Fields.rnd, Fields.fnBit, Fields.dst, Fields.srcA, Fields.srcB, Fields.srcC, Fields.msrcA,
    Fields.msrcB, Fields.msrcC, Fields.predD, Fields.predA, Fields.predB, Fields.predC, Fields.space, Fields.width, Fields.hint,
    Fields.imm, immFields, fnInt, fnFlt, fnBits, clsBit, b1, BitVec.extractLsb'_append_eq_of_le,
    BitVec.extractLsb'_append_eq_of_add_le, BitVec.getLsbD_append]
    simp)

theorem RoundTrip.imadw (h ty d a b c) : RoundTrip.Statement (.imadw h ty d a b c) := fun hw =>
  decode_of_fields (j := .imadw h ty d a b c) rfl rfl hw (by
    simp (disch := decide) only [decodeFields_05, Fields.ty, Fields.clsTy, Fields.rnd, Fields.fnBit, Fields.dst, Fields.srcA, Fields.srcB, Fields.srcC, Fields.msrcA,
    Fields.msrcB, Fields.msrcC, Fields.predD, Fields.predA, Fields.predB, Fields.predC, Fields.space, Fields.width, Fields.hint,
    Fields.imm, immFields, fnInt, fnFlt, fnBits, clsBit, b1, BitVec.extractLsb'_append_eq_of_le,
    BitVec.extractLsb'_append_eq_of_add_le, BitVec.getLsbD_append]
    simp)

theorem RoundTrip.iaddx (h ty sub ci d a b co) : RoundTrip.Statement (.iaddx h ty sub ci d a b co) := fun hw =>
  decode_of_fields (j := .iaddx h ty sub ci d a b co) rfl rfl hw (by
    cases ci <;>
    simp (disch := decide) only [decodeFields_06, Fields.carryIn, carryBits_enable, carryBits_pred, Fields.ty, Fields.clsTy, Fields.rnd, Fields.fnBit, Fields.dst, Fields.srcA, Fields.srcB, Fields.srcC, Fields.msrcA,
    Fields.msrcB, Fields.msrcC, Fields.predD, Fields.predA, Fields.predB, Fields.predC, Fields.space, Fields.width, Fields.hint,
    Fields.imm, immFields, fnInt, fnFlt, fnBits, clsBit, b1, BitVec.extractLsb'_append_eq_of_le,
    BitVec.extractLsb'_append_eq_of_add_le, BitVec.getLsbD_append]
    all_goals simp)

theorem RoundTrip.idiv (h ty rem d a b) : RoundTrip.Statement (.idiv h ty rem d a b) := fun hw =>
  decode_of_fields (j := .idiv h ty rem d a b) rfl rfl hw (by
    simp (disch := decide) only [decodeFields_07, Fields.ty, Fields.clsTy, Fields.rnd, Fields.fnBit, Fields.dst, Fields.srcA, Fields.srcB, Fields.srcC, Fields.msrcA,
    Fields.msrcB, Fields.msrcC, Fields.predD, Fields.predA, Fields.predB, Fields.predC, Fields.space, Fields.width, Fields.hint,
    Fields.imm, immFields, fnInt, fnFlt, fnBits, clsBit, b1, BitVec.extractLsb'_append_eq_of_le,
    BitVec.extractLsb'_append_eq_of_add_le, BitVec.getLsbD_append]
    simp)

theorem RoundTrip.iabs (h ty sat d a) : RoundTrip.Statement (.iabs h ty sat d a) := fun hw =>
  decode_of_fields (j := .iabs h ty sat d a) rfl rfl hw (by
    simp (disch := decide) only [decodeFields_08, Fields.ty, Fields.clsTy, Fields.rnd, Fields.fnBit, Fields.dst, Fields.srcA, Fields.srcB, Fields.srcC, Fields.msrcA,
    Fields.msrcB, Fields.msrcC, Fields.predD, Fields.predA, Fields.predB, Fields.predC, Fields.space, Fields.width, Fields.hint,
    Fields.imm, immFields, fnInt, fnFlt, fnBits, clsBit, b1, BitVec.extractLsb'_append_eq_of_le,
    BitVec.extractLsb'_append_eq_of_add_le, BitVec.getLsbD_append]
    simp)

theorem RoundTrip.ineg (h ty sat d a) : RoundTrip.Statement (.ineg h ty sat d a) := fun hw =>
  decode_of_fields (j := .ineg h ty sat d a) rfl rfl hw (by
    simp (disch := decide) only [decodeFields_09, Fields.ty, Fields.clsTy, Fields.rnd, Fields.fnBit, Fields.dst, Fields.srcA, Fields.srcB, Fields.srcC, Fields.msrcA,
    Fields.msrcB, Fields.msrcC, Fields.predD, Fields.predA, Fields.predB, Fields.predC, Fields.space, Fields.width, Fields.hint,
    Fields.imm, immFields, fnInt, fnFlt, fnBits, clsBit, b1, BitVec.extractLsb'_append_eq_of_le,
    BitVec.extractLsb'_append_eq_of_add_le, BitVec.getLsbD_append]
    simp)

theorem RoundTrip.imin (h ty d a b) : RoundTrip.Statement (.imin h ty d a b) := fun hw =>
  decode_of_fields (j := .imin h ty d a b) rfl rfl hw (by
    simp (disch := decide) only [decodeFields_0A, Fields.ty, Fields.clsTy, Fields.rnd, Fields.fnBit, Fields.dst, Fields.srcA, Fields.srcB, Fields.srcC, Fields.msrcA,
    Fields.msrcB, Fields.msrcC, Fields.predD, Fields.predA, Fields.predB, Fields.predC, Fields.space, Fields.width, Fields.hint,
    Fields.imm, immFields, fnInt, fnFlt, fnBits, clsBit, b1, BitVec.extractLsb'_append_eq_of_le,
    BitVec.extractLsb'_append_eq_of_add_le, BitVec.getLsbD_append]
    simp)

theorem RoundTrip.imax (h ty d a b) : RoundTrip.Statement (.imax h ty d a b) := fun hw =>
  decode_of_fields (j := .imax h ty d a b) rfl rfl hw (by
    simp (disch := decide) only [decodeFields_0B, Fields.ty, Fields.clsTy, Fields.rnd, Fields.fnBit, Fields.dst, Fields.srcA, Fields.srcB, Fields.srcC, Fields.msrcA,
    Fields.msrcB, Fields.msrcC, Fields.predD, Fields.predA, Fields.predB, Fields.predC, Fields.space, Fields.width, Fields.hint,
    Fields.imm, immFields, fnInt, fnFlt, fnBits, clsBit, b1, BitVec.extractLsb'_append_eq_of_le,
    BitVec.extractLsb'_append_eq_of_add_le, BitVec.getLsbD_append]
    simp)

theorem RoundTrip.iclamp (h ty d a b c) : RoundTrip.Statement (.iclamp h ty d a b c) := fun hw =>
  decode_of_fields (j := .iclamp h ty d a b c) rfl rfl hw (by
    simp (disch := decide) only [decodeFields_0C, Fields.ty, Fields.clsTy, Fields.rnd, Fields.fnBit, Fields.dst, Fields.srcA, Fields.srcB, Fields.srcC, Fields.msrcA,
    Fields.msrcB, Fields.msrcC, Fields.predD, Fields.predA, Fields.predB, Fields.predC, Fields.space, Fields.width, Fields.hint,
    Fields.imm, immFields, fnInt, fnFlt, fnBits, clsBit, b1, BitVec.extractLsb'_append_eq_of_le,
    BitVec.extractLsb'_append_eq_of_add_le, BitVec.getLsbD_append]
    simp)

theorem RoundTrip.idp4 (h sat ua ub d a b c) : RoundTrip.Statement (.idp4 h sat ua ub d a b c) := fun hw =>
  decode_of_fields (j := .idp4 h sat ua ub d a b c) rfl rfl hw (by
    simp (disch := decide) only [decodeFields_0D, Fields.ty, Fields.clsTy, Fields.rnd, Fields.fnBit, Fields.dst, Fields.srcA, Fields.srcB, Fields.srcC, Fields.msrcA,
    Fields.msrcB, Fields.msrcC, Fields.predD, Fields.predA, Fields.predB, Fields.predC, Fields.space, Fields.width, Fields.hint,
    Fields.imm, immFields, fnInt, fnFlt, fnBits, clsBit, b1, BitVec.extractLsb'_append_eq_of_le,
    BitVec.extractLsb'_append_eq_of_add_le, BitVec.getLsbD_append]
    simp)

theorem RoundTrip.land (h ty d a b) : RoundTrip.Statement (.land h ty d a b) := fun hw =>
  decode_of_fields (j := .land h ty d a b) rfl rfl hw (by
    simp (disch := decide) only [decodeFields_0E, Fields.ty, Fields.clsTy, Fields.rnd, Fields.fnBit, Fields.dst, Fields.srcA, Fields.srcB, Fields.srcC, Fields.msrcA,
    Fields.msrcB, Fields.msrcC, Fields.predD, Fields.predA, Fields.predB, Fields.predC, Fields.space, Fields.width, Fields.hint,
    Fields.imm, immFields, fnInt, fnFlt, fnBits, clsBit, b1, BitVec.extractLsb'_append_eq_of_le,
    BitVec.extractLsb'_append_eq_of_add_le, BitVec.getLsbD_append]
    simp)

theorem RoundTrip.lor (h ty d a b) : RoundTrip.Statement (.lor h ty d a b) := fun hw =>
  decode_of_fields (j := .lor h ty d a b) rfl rfl hw (by
    simp (disch := decide) only [decodeFields_0F, Fields.ty, Fields.clsTy, Fields.rnd, Fields.fnBit, Fields.dst, Fields.srcA, Fields.srcB, Fields.srcC, Fields.msrcA,
    Fields.msrcB, Fields.msrcC, Fields.predD, Fields.predA, Fields.predB, Fields.predC, Fields.space, Fields.width, Fields.hint,
    Fields.imm, immFields, fnInt, fnFlt, fnBits, clsBit, b1, BitVec.extractLsb'_append_eq_of_le,
    BitVec.extractLsb'_append_eq_of_add_le, BitVec.getLsbD_append]
    simp)

theorem RoundTrip.lxor (h ty d a b) : RoundTrip.Statement (.lxor h ty d a b) := fun hw =>
  decode_of_fields (j := .lxor h ty d a b) rfl rfl hw (by
    simp (disch := decide) only [decodeFields_10, Fields.ty, Fields.clsTy, Fields.rnd, Fields.fnBit, Fields.dst, Fields.srcA, Fields.srcB, Fields.srcC, Fields.msrcA,
    Fields.msrcB, Fields.msrcC, Fields.predD, Fields.predA, Fields.predB, Fields.predC, Fields.space, Fields.width, Fields.hint,
    Fields.imm, immFields, fnInt, fnFlt, fnBits, clsBit, b1, BitVec.extractLsb'_append_eq_of_le,
    BitVec.extractLsb'_append_eq_of_add_le, BitVec.getLsbD_append]
    simp)

theorem RoundTrip.andn (h ty d a b) : RoundTrip.Statement (.andn h ty d a b) := fun hw =>
  decode_of_fields (j := .andn h ty d a b) rfl rfl hw (by
    simp (disch := decide) only [decodeFields_11, Fields.ty, Fields.clsTy, Fields.rnd, Fields.fnBit, Fields.dst, Fields.srcA, Fields.srcB, Fields.srcC, Fields.msrcA,
    Fields.msrcB, Fields.msrcC, Fields.predD, Fields.predA, Fields.predB, Fields.predC, Fields.space, Fields.width, Fields.hint,
    Fields.imm, immFields, fnInt, fnFlt, fnBits, clsBit, b1, BitVec.extractLsb'_append_eq_of_le,
    BitVec.extractLsb'_append_eq_of_add_le, BitVec.getLsbD_append]
    simp)

theorem RoundTrip.lut3 (h ty tt d a b c) : RoundTrip.Statement (.lut3 h ty tt d a b c) := fun hw =>
  decode_of_fields (j := .lut3 h ty tt d a b c) rfl rfl hw (by
    simp (disch := decide) only [decodeFields_12, Fields.ty, Fields.clsTy, Fields.rnd, Fields.fnBit, Fields.dst, Fields.srcA, Fields.srcB, Fields.srcC, Fields.msrcA,
    Fields.msrcB, Fields.msrcC, Fields.predD, Fields.predA, Fields.predB, Fields.predC, Fields.space, Fields.width, Fields.hint,
    Fields.imm, immFields, fnInt, fnFlt, fnBits, clsBit, b1, BitVec.extractLsb'_append_eq_of_le,
    BitVec.extractLsb'_append_eq_of_add_le, BitVec.getLsbD_append]
    simp)

theorem RoundTrip.shl (h ty d a b) : RoundTrip.Statement (.shl h ty d a b) := fun hw =>
  decode_of_fields (j := .shl h ty d a b) rfl rfl hw (by
    simp (disch := decide) only [decodeFields_13, Fields.ty, Fields.clsTy, Fields.rnd, Fields.fnBit, Fields.dst, Fields.srcA, Fields.srcB, Fields.srcC, Fields.msrcA,
    Fields.msrcB, Fields.msrcC, Fields.predD, Fields.predA, Fields.predB, Fields.predC, Fields.space, Fields.width, Fields.hint,
    Fields.imm, immFields, fnInt, fnFlt, fnBits, clsBit, b1, BitVec.extractLsb'_append_eq_of_le,
    BitVec.extractLsb'_append_eq_of_add_le, BitVec.getLsbD_append]
    simp)

theorem RoundTrip.shr (h ty d a b) : RoundTrip.Statement (.shr h ty d a b) := fun hw =>
  decode_of_fields (j := .shr h ty d a b) rfl rfl hw (by
    simp (disch := decide) only [decodeFields_14, Fields.ty, Fields.clsTy, Fields.rnd, Fields.fnBit, Fields.dst, Fields.srcA, Fields.srcB, Fields.srcC, Fields.msrcA,
    Fields.msrcB, Fields.msrcC, Fields.predD, Fields.predA, Fields.predB, Fields.predC, Fields.space, Fields.width, Fields.hint,
    Fields.imm, immFields, fnInt, fnFlt, fnBits, clsBit, b1, BitVec.extractLsb'_append_eq_of_le,
    BitVec.extractLsb'_append_eq_of_add_le, BitVec.getLsbD_append]
    simp)

theorem RoundTrip.sar (h ty d a b) : RoundTrip.Statement (.sar h ty d a b) := fun hw =>
  decode_of_fields (j := .sar h ty d a b) rfl rfl hw (by
    simp (disch := decide) only [decodeFields_15, Fields.ty, Fields.clsTy, Fields.rnd, Fields.fnBit, Fields.dst, Fields.srcA, Fields.srcB, Fields.srcC, Fields.msrcA,
    Fields.msrcB, Fields.msrcC, Fields.predD, Fields.predA, Fields.predB, Fields.predC, Fields.space, Fields.width, Fields.hint,
    Fields.imm, immFields, fnInt, fnFlt, fnBits, clsBit, b1, BitVec.extractLsb'_append_eq_of_le,
    BitVec.extractLsb'_append_eq_of_add_le, BitVec.getLsbD_append]
    simp)

theorem RoundTrip.fshl (h ty d a b c) : RoundTrip.Statement (.fshl h ty d a b c) := fun hw =>
  decode_of_fields (j := .fshl h ty d a b c) rfl rfl hw (by
    simp (disch := decide) only [decodeFields_16, Fields.ty, Fields.clsTy, Fields.rnd, Fields.fnBit, Fields.dst, Fields.srcA, Fields.srcB, Fields.srcC, Fields.msrcA,
    Fields.msrcB, Fields.msrcC, Fields.predD, Fields.predA, Fields.predB, Fields.predC, Fields.space, Fields.width, Fields.hint,
    Fields.imm, immFields, fnInt, fnFlt, fnBits, clsBit, b1, BitVec.extractLsb'_append_eq_of_le,
    BitVec.extractLsb'_append_eq_of_add_le, BitVec.getLsbD_append]
    simp)

theorem RoundTrip.popc (h ty d a) : RoundTrip.Statement (.popc h ty d a) := fun hw =>
  decode_of_fields (j := .popc h ty d a) rfl rfl hw (by
    simp (disch := decide) only [decodeFields_17, Fields.ty, Fields.clsTy, Fields.rnd, Fields.fnBit, Fields.dst, Fields.srcA, Fields.srcB, Fields.srcC, Fields.msrcA,
    Fields.msrcB, Fields.msrcC, Fields.predD, Fields.predA, Fields.predB, Fields.predC, Fields.space, Fields.width, Fields.hint,
    Fields.imm, immFields, fnInt, fnFlt, fnBits, clsBit, b1, BitVec.extractLsb'_append_eq_of_le,
    BitVec.extractLsb'_append_eq_of_add_le, BitVec.getLsbD_append]
    simp)

theorem RoundTrip.clz (h ty d a) : RoundTrip.Statement (.clz h ty d a) := fun hw =>
  decode_of_fields (j := .clz h ty d a) rfl rfl hw (by
    simp (disch := decide) only [decodeFields_18, Fields.ty, Fields.clsTy, Fields.rnd, Fields.fnBit, Fields.dst, Fields.srcA, Fields.srcB, Fields.srcC, Fields.msrcA,
    Fields.msrcB, Fields.msrcC, Fields.predD, Fields.predA, Fields.predB, Fields.predC, Fields.space, Fields.width, Fields.hint,
    Fields.imm, immFields, fnInt, fnFlt, fnBits, clsBit, b1, BitVec.extractLsb'_append_eq_of_le,
    BitVec.extractLsb'_append_eq_of_add_le, BitVec.getLsbD_append]
    simp)

theorem RoundTrip.ctz (h ty d a) : RoundTrip.Statement (.ctz h ty d a) := fun hw =>
  decode_of_fields (j := .ctz h ty d a) rfl rfl hw (by
    simp (disch := decide) only [decodeFields_19, Fields.ty, Fields.clsTy, Fields.rnd, Fields.fnBit, Fields.dst, Fields.srcA, Fields.srcB, Fields.srcC, Fields.msrcA,
    Fields.msrcB, Fields.msrcC, Fields.predD, Fields.predA, Fields.predB, Fields.predC, Fields.space, Fields.width, Fields.hint,
    Fields.imm, immFields, fnInt, fnFlt, fnBits, clsBit, b1, BitVec.extractLsb'_append_eq_of_le,
    BitVec.extractLsb'_append_eq_of_add_le, BitVec.getLsbD_append]
    simp)

theorem RoundTrip.brev (h ty d a) : RoundTrip.Statement (.brev h ty d a) := fun hw =>
  decode_of_fields (j := .brev h ty d a) rfl rfl hw (by
    simp (disch := decide) only [decodeFields_1A, Fields.ty, Fields.clsTy, Fields.rnd, Fields.fnBit, Fields.dst, Fields.srcA, Fields.srcB, Fields.srcC, Fields.msrcA,
    Fields.msrcB, Fields.msrcC, Fields.predD, Fields.predA, Fields.predB, Fields.predC, Fields.space, Fields.width, Fields.hint,
    Fields.imm, immFields, fnInt, fnFlt, fnBits, clsBit, b1, BitVec.extractLsb'_append_eq_of_le,
    BitVec.extractLsb'_append_eq_of_add_le, BitVec.getLsbD_append]
    simp)

theorem RoundTrip.bfx (h ty d a b c) : RoundTrip.Statement (.bfx h ty d a b c) := fun hw =>
  decode_of_fields (j := .bfx h ty d a b c) rfl rfl hw (by
    simp (disch := decide) only [decodeFields_1B, Fields.ty, Fields.clsTy, Fields.rnd, Fields.fnBit, Fields.dst, Fields.srcA, Fields.srcB, Fields.srcC, Fields.msrcA,
    Fields.msrcB, Fields.msrcC, Fields.predD, Fields.predA, Fields.predB, Fields.predC, Fields.space, Fields.width, Fields.hint,
    Fields.imm, immFields, fnInt, fnFlt, fnBits, clsBit, b1, BitVec.extractLsb'_append_eq_of_le,
    BitVec.extractLsb'_append_eq_of_add_le, BitVec.getLsbD_append]
    simp)

theorem RoundTrip.bfi (h ty d a b c) : RoundTrip.Statement (.bfi h ty d a b c) := fun hw =>
  decode_of_fields (j := .bfi h ty d a b c) rfl rfl hw (by
    simp (disch := decide) only [decodeFields_1C, Fields.ty, Fields.clsTy, Fields.rnd, Fields.fnBit, Fields.dst, Fields.srcA, Fields.srcB, Fields.srcC, Fields.msrcA,
    Fields.msrcB, Fields.msrcC, Fields.predD, Fields.predA, Fields.predB, Fields.predC, Fields.space, Fields.width, Fields.hint,
    Fields.imm, immFields, fnInt, fnFlt, fnBits, clsBit, b1, BitVec.extractLsb'_append_eq_of_le,
    BitVec.extractLsb'_append_eq_of_add_le, BitVec.getLsbD_append]
    simp)

theorem RoundTrip.icmp (h ty rel pd a b) : RoundTrip.Statement (.icmp h ty rel pd a b) := fun hw =>
  decode_of_fields (j := .icmp h ty rel pd a b) rfl rfl hw (by
    simp (disch := decide) only [decodeFields_1D, Fields.ty, Fields.clsTy, Fields.rnd, Fields.fnBit, Fields.dst, Fields.srcA, Fields.srcB, Fields.srcC, Fields.msrcA,
    Fields.msrcB, Fields.msrcC, Fields.predD, Fields.predA, Fields.predB, Fields.predC, Fields.space, Fields.width, Fields.hint,
    Fields.imm, immFields, fnInt, fnFlt, fnBits, clsBit, b1, BitVec.extractLsb'_append_eq_of_le,
    BitVec.extractLsb'_append_eq_of_add_le, BitVec.getLsbD_append]
    simp)

theorem RoundTrip.sel (h ty pol d a b pc) : RoundTrip.Statement (.sel h ty pol d a b pc) := fun hw =>
  decode_of_fields (j := .sel h ty pol d a b pc) rfl rfl hw (by
    simp (disch := decide) only [decodeFields_1E, Fields.ty, Fields.clsTy, Fields.rnd, Fields.fnBit, Fields.dst, Fields.srcA, Fields.srcB, Fields.srcC, Fields.msrcA,
    Fields.msrcB, Fields.msrcC, Fields.predD, Fields.predA, Fields.predB, Fields.predC, Fields.space, Fields.width, Fields.hint,
    Fields.imm, immFields, fnInt, fnFlt, fnBits, clsBit, b1, BitVec.extractLsb'_append_eq_of_le,
    BitVec.extractLsb'_append_eq_of_add_le, BitVec.getLsbD_append]
    simp)

theorem RoundTrip.cvti (h td ts sat d a) : RoundTrip.Statement (.cvti h td ts sat d a) := fun hw =>
  decode_of_fields (j := .cvti h td ts sat d a) rfl rfl hw (by
    simp (disch := decide) only [decodeFields_1F, Fields.ty, Fields.clsTy, Fields.rnd, Fields.fnBit, Fields.dst, Fields.srcA, Fields.srcB, Fields.srcC, Fields.msrcA,
    Fields.msrcB, Fields.msrcC, Fields.predD, Fields.predA, Fields.predB, Fields.predC, Fields.space, Fields.width, Fields.hint,
    Fields.imm, immFields, fnInt, fnFlt, fnBits, clsBit, b1, BitVec.extractLsb'_append_eq_of_le,
    BitVec.extractLsb'_append_eq_of_add_le, BitVec.getLsbD_append]
    simp)

theorem RoundTrip.mov (h ty d a) : RoundTrip.Statement (.mov h ty d a) := fun hw =>
  decode_of_fields (j := .mov h ty d a) rfl rfl hw (by
    simp (disch := decide) only [decodeFields_20, Fields.ty, Fields.clsTy, Fields.rnd, Fields.fnBit, Fields.dst, Fields.srcA, Fields.srcB, Fields.srcC, Fields.msrcA,
    Fields.msrcB, Fields.msrcC, Fields.predD, Fields.predA, Fields.predB, Fields.predC, Fields.space, Fields.width, Fields.hint,
    Fields.imm, immFields, fnInt, fnFlt, fnBits, clsBit, b1, BitVec.extractLsb'_append_eq_of_le,
    BitVec.extractLsb'_append_eq_of_add_le, BitVec.getLsbD_append]
    simp)

theorem RoundTrip.lea (h ty scale d a b) : RoundTrip.Statement (.lea h ty scale d a b) := fun hw =>
  decode_of_fields (j := .lea h ty scale d a b) rfl rfl hw (by
    simp (disch := decide) only [decodeFields_21, Fields.ty, Fields.clsTy, Fields.rnd, Fields.fnBit, Fields.dst, Fields.srcA, Fields.srcB, Fields.srcC, Fields.msrcA,
    Fields.msrcB, Fields.msrcC, Fields.predD, Fields.predA, Fields.predB, Fields.predC, Fields.space, Fields.width, Fields.hint,
    Fields.imm, immFields, fnInt, fnFlt, fnBits, clsBit, b1, BitVec.extractLsb'_append_eq_of_le,
    BitVec.extractLsb'_append_eq_of_add_le, BitVec.getLsbD_append]
    simp)

theorem RoundTrip.bperm (h ty d a b c) : RoundTrip.Statement (.bperm h ty d a b c) := fun hw =>
  decode_of_fields (j := .bperm h ty d a b c) rfl rfl hw (by
    simp (disch := decide) only [decodeFields_22, Fields.ty, Fields.clsTy, Fields.rnd, Fields.fnBit, Fields.dst, Fields.srcA, Fields.srcB, Fields.srcC, Fields.msrcA,
    Fields.msrcB, Fields.msrcC, Fields.predD, Fields.predA, Fields.predB, Fields.predC, Fields.space, Fields.width, Fields.hint,
    Fields.imm, immFields, fnInt, fnFlt, fnBits, clsBit, b1, BitVec.extractLsb'_append_eq_of_le,
    BitVec.extractLsb'_append_eq_of_add_le, BitVec.getLsbD_append]
    simp)

theorem RoundTrip.fadd (h ty rnd d a b) : RoundTrip.Statement (.fadd h ty rnd d a b) := fun hw =>
  decode_of_fields (j := .fadd h ty rnd d a b) rfl rfl hw (by
    simp (disch := decide) only [decodeFields_30, Fields.ty, Fields.clsTy, Fields.rnd, Fields.fnBit, Fields.dst, Fields.srcA, Fields.srcB, Fields.srcC, Fields.msrcA,
    Fields.msrcB, Fields.msrcC, Fields.predD, Fields.predA, Fields.predB, Fields.predC, Fields.space, Fields.width, Fields.hint,
    Fields.imm, immFields, fnInt, fnFlt, fnBits, clsBit, b1, BitVec.extractLsb'_append_eq_of_le,
    BitVec.extractLsb'_append_eq_of_add_le, BitVec.getLsbD_append]
    simp)

theorem RoundTrip.fsub (h ty rnd d a b) : RoundTrip.Statement (.fsub h ty rnd d a b) := fun hw =>
  decode_of_fields (j := .fsub h ty rnd d a b) rfl rfl hw (by
    simp (disch := decide) only [decodeFields_31, Fields.ty, Fields.clsTy, Fields.rnd, Fields.fnBit, Fields.dst, Fields.srcA, Fields.srcB, Fields.srcC, Fields.msrcA,
    Fields.msrcB, Fields.msrcC, Fields.predD, Fields.predA, Fields.predB, Fields.predC, Fields.space, Fields.width, Fields.hint,
    Fields.imm, immFields, fnInt, fnFlt, fnBits, clsBit, b1, BitVec.extractLsb'_append_eq_of_le,
    BitVec.extractLsb'_append_eq_of_add_le, BitVec.getLsbD_append]
    simp)

theorem RoundTrip.fmul (h ty rnd d a b) : RoundTrip.Statement (.fmul h ty rnd d a b) := fun hw =>
  decode_of_fields (j := .fmul h ty rnd d a b) rfl rfl hw (by
    simp (disch := decide) only [decodeFields_32, Fields.ty, Fields.clsTy, Fields.rnd, Fields.fnBit, Fields.dst, Fields.srcA, Fields.srcB, Fields.srcC, Fields.msrcA,
    Fields.msrcB, Fields.msrcC, Fields.predD, Fields.predA, Fields.predB, Fields.predC, Fields.space, Fields.width, Fields.hint,
    Fields.imm, immFields, fnInt, fnFlt, fnBits, clsBit, b1, BitVec.extractLsb'_append_eq_of_le,
    BitVec.extractLsb'_append_eq_of_add_le, BitVec.getLsbD_append]
    simp)

theorem RoundTrip.ffma (h ty rnd d a b c) : RoundTrip.Statement (.ffma h ty rnd d a b c) := fun hw =>
  decode_of_fields (j := .ffma h ty rnd d a b c) rfl rfl hw (by
    simp (disch := decide) only [decodeFields_33, Fields.ty, Fields.clsTy, Fields.rnd, Fields.fnBit, Fields.dst, Fields.srcA, Fields.srcB, Fields.srcC, Fields.msrcA,
    Fields.msrcB, Fields.msrcC, Fields.predD, Fields.predA, Fields.predB, Fields.predC, Fields.space, Fields.width, Fields.hint,
    Fields.imm, immFields, fnInt, fnFlt, fnBits, clsBit, b1, BitVec.extractLsb'_append_eq_of_le,
    BitVec.extractLsb'_append_eq_of_add_le, BitVec.getLsbD_append]
    simp)

theorem RoundTrip.fmin (h ty d a b) : RoundTrip.Statement (.fmin h ty d a b) := fun hw =>
  decode_of_fields (j := .fmin h ty d a b) rfl rfl hw (by
    simp (disch := decide) only [decodeFields_34, Fields.ty, Fields.clsTy, Fields.rnd, Fields.fnBit, Fields.dst, Fields.srcA, Fields.srcB, Fields.srcC, Fields.msrcA,
    Fields.msrcB, Fields.msrcC, Fields.predD, Fields.predA, Fields.predB, Fields.predC, Fields.space, Fields.width, Fields.hint,
    Fields.imm, immFields, fnInt, fnFlt, fnBits, clsBit, b1, BitVec.extractLsb'_append_eq_of_le,
    BitVec.extractLsb'_append_eq_of_add_le, BitVec.getLsbD_append]
    simp)

theorem RoundTrip.fmax (h ty d a b) : RoundTrip.Statement (.fmax h ty d a b) := fun hw =>
  decode_of_fields (j := .fmax h ty d a b) rfl rfl hw (by
    simp (disch := decide) only [decodeFields_35, Fields.ty, Fields.clsTy, Fields.rnd, Fields.fnBit, Fields.dst, Fields.srcA, Fields.srcB, Fields.srcC, Fields.msrcA,
    Fields.msrcB, Fields.msrcC, Fields.predD, Fields.predA, Fields.predB, Fields.predC, Fields.space, Fields.width, Fields.hint,
    Fields.imm, immFields, fnInt, fnFlt, fnBits, clsBit, b1, BitVec.extractLsb'_append_eq_of_le,
    BitVec.extractLsb'_append_eq_of_add_le, BitVec.getLsbD_append]
    simp)

theorem RoundTrip.fcmp (h ty rel pd a b) : RoundTrip.Statement (.fcmp h ty rel pd a b) := fun hw =>
  decode_of_fields (j := .fcmp h ty rel pd a b) rfl rfl hw (by
    simp (disch := decide) only [decodeFields_36, Fields.ty, Fields.clsTy, Fields.rnd, Fields.fnBit, Fields.dst, Fields.srcA, Fields.srcB, Fields.srcC, Fields.msrcA,
    Fields.msrcB, Fields.msrcC, Fields.predD, Fields.predA, Fields.predB, Fields.predC, Fields.space, Fields.width, Fields.hint,
    Fields.imm, immFields, fnInt, fnFlt, fnBits, clsBit, b1, BitVec.extractLsb'_append_eq_of_le,
    BitVec.extractLsb'_append_eq_of_add_le, BitVec.getLsbD_append]
    simp)

theorem RoundTrip.frcp (h rnd d a) : RoundTrip.Statement (.frcp h rnd d a) := fun hw =>
  decode_of_fields (j := .frcp h rnd d a) rfl rfl hw (by
    simp (disch := decide) only [decodeFields_37, Fields.ty, Fields.clsTy, Fields.rnd, Fields.fnBit, Fields.dst, Fields.srcA, Fields.srcB, Fields.srcC, Fields.msrcA,
    Fields.msrcB, Fields.msrcC, Fields.predD, Fields.predA, Fields.predB, Fields.predC, Fields.space, Fields.width, Fields.hint,
    Fields.imm, immFields, fnInt, fnFlt, fnBits, clsBit, b1, BitVec.extractLsb'_append_eq_of_le,
    BitVec.extractLsb'_append_eq_of_add_le, BitVec.getLsbD_append]
    simp)

theorem RoundTrip.frsq (h rnd d a) : RoundTrip.Statement (.frsq h rnd d a) := fun hw =>
  decode_of_fields (j := .frsq h rnd d a) rfl rfl hw (by
    simp (disch := decide) only [decodeFields_38, Fields.ty, Fields.clsTy, Fields.rnd, Fields.fnBit, Fields.dst, Fields.srcA, Fields.srcB, Fields.srcC, Fields.msrcA,
    Fields.msrcB, Fields.msrcC, Fields.predD, Fields.predA, Fields.predB, Fields.predC, Fields.space, Fields.width, Fields.hint,
    Fields.imm, immFields, fnInt, fnFlt, fnBits, clsBit, b1, BitVec.extractLsb'_append_eq_of_le,
    BitVec.extractLsb'_append_eq_of_add_le, BitVec.getLsbD_append]
    simp)

theorem RoundTrip.fsqrt (h ty rnd d a) : RoundTrip.Statement (.fsqrt h ty rnd d a) := fun hw =>
  decode_of_fields (j := .fsqrt h ty rnd d a) rfl rfl hw (by
    simp (disch := decide) only [decodeFields_39, Fields.ty, Fields.clsTy, Fields.rnd, Fields.fnBit, Fields.dst, Fields.srcA, Fields.srcB, Fields.srcC, Fields.msrcA,
    Fields.msrcB, Fields.msrcC, Fields.predD, Fields.predA, Fields.predB, Fields.predC, Fields.space, Fields.width, Fields.hint,
    Fields.imm, immFields, fnInt, fnFlt, fnBits, clsBit, b1, BitVec.extractLsb'_append_eq_of_le,
    BitVec.extractLsb'_append_eq_of_add_le, BitVec.getLsbD_append]
    simp)

theorem RoundTrip.fdiv (h ty rnd d a b) : RoundTrip.Statement (.fdiv h ty rnd d a b) := fun hw =>
  decode_of_fields (j := .fdiv h ty rnd d a b) rfl rfl hw (by
    simp (disch := decide) only [decodeFields_3A, Fields.ty, Fields.clsTy, Fields.rnd, Fields.fnBit, Fields.dst, Fields.srcA, Fields.srcB, Fields.srcC, Fields.msrcA,
    Fields.msrcB, Fields.msrcC, Fields.predD, Fields.predA, Fields.predB, Fields.predC, Fields.space, Fields.width, Fields.hint,
    Fields.imm, immFields, fnInt, fnFlt, fnBits, clsBit, b1, BitVec.extractLsb'_append_eq_of_le,
    BitVec.extractLsb'_append_eq_of_add_le, BitVec.getLsbD_append]
    simp)

theorem RoundTrip.fex2 (h d a) : RoundTrip.Statement (.fex2 h d a) := fun hw =>
  decode_of_fields (j := .fex2 h d a) rfl rfl hw (by
    simp (disch := decide) only [decodeFields_3B, Fields.ty, Fields.clsTy, Fields.rnd, Fields.fnBit, Fields.dst, Fields.srcA, Fields.srcB, Fields.srcC, Fields.msrcA,
    Fields.msrcB, Fields.msrcC, Fields.predD, Fields.predA, Fields.predB, Fields.predC, Fields.space, Fields.width, Fields.hint,
    Fields.imm, immFields, fnInt, fnFlt, fnBits, clsBit, b1, BitVec.extractLsb'_append_eq_of_le,
    BitVec.extractLsb'_append_eq_of_add_le, BitVec.getLsbD_append]
    simp)

theorem RoundTrip.flg2 (h d a) : RoundTrip.Statement (.flg2 h d a) := fun hw =>
  decode_of_fields (j := .flg2 h d a) rfl rfl hw (by
    simp (disch := decide) only [decodeFields_3C, Fields.ty, Fields.clsTy, Fields.rnd, Fields.fnBit, Fields.dst, Fields.srcA, Fields.srcB, Fields.srcC, Fields.msrcA,
    Fields.msrcB, Fields.msrcC, Fields.predD, Fields.predA, Fields.predB, Fields.predC, Fields.space, Fields.width, Fields.hint,
    Fields.imm, immFields, fnInt, fnFlt, fnBits, clsBit, b1, BitVec.extractLsb'_append_eq_of_le,
    BitVec.extractLsb'_append_eq_of_add_le, BitVec.getLsbD_append]
    simp)

theorem RoundTrip.fsinpi (h d a) : RoundTrip.Statement (.fsinpi h d a) := fun hw =>
  decode_of_fields (j := .fsinpi h d a) rfl rfl hw (by
    simp (disch := decide) only [decodeFields_3D, Fields.ty, Fields.clsTy, Fields.rnd, Fields.fnBit, Fields.dst, Fields.srcA, Fields.srcB, Fields.srcC, Fields.msrcA,
    Fields.msrcB, Fields.msrcC, Fields.predD, Fields.predA, Fields.predB, Fields.predC, Fields.space, Fields.width, Fields.hint,
    Fields.imm, immFields, fnInt, fnFlt, fnBits, clsBit, b1, BitVec.extractLsb'_append_eq_of_le,
    BitVec.extractLsb'_append_eq_of_add_le, BitVec.getLsbD_append]
    simp)

theorem RoundTrip.fcospi (h d a) : RoundTrip.Statement (.fcospi h d a) := fun hw =>
  decode_of_fields (j := .fcospi h d a) rfl rfl hw (by
    simp (disch := decide) only [decodeFields_3E, Fields.ty, Fields.clsTy, Fields.rnd, Fields.fnBit, Fields.dst, Fields.srcA, Fields.srcB, Fields.srcC, Fields.msrcA,
    Fields.msrcB, Fields.msrcC, Fields.predD, Fields.predA, Fields.predB, Fields.predC, Fields.space, Fields.width, Fields.hint,
    Fields.imm, immFields, fnInt, fnFlt, fnBits, clsBit, b1, BitVec.extractLsb'_append_eq_of_le,
    BitVec.extractLsb'_append_eq_of_add_le, BitVec.getLsbD_append]
    simp)

theorem RoundTrip.ftanh (h d a) : RoundTrip.Statement (.ftanh h d a) := fun hw =>
  decode_of_fields (j := .ftanh h d a) rfl rfl hw (by
    simp (disch := decide) only [decodeFields_3F, Fields.ty, Fields.clsTy, Fields.rnd, Fields.fnBit, Fields.dst, Fields.srcA, Fields.srcB, Fields.srcC, Fields.msrcA,
    Fields.msrcB, Fields.msrcC, Fields.predD, Fields.predA, Fields.predB, Fields.predC, Fields.space, Fields.width, Fields.hint,
    Fields.imm, immFields, fnInt, fnFlt, fnBits, clsBit, b1, BitVec.extractLsb'_append_eq_of_le,
    BitVec.extractLsb'_append_eq_of_add_le, BitVec.getLsbD_append]
    simp)

theorem RoundTrip.fclass (h ty d a) : RoundTrip.Statement (.fclass h ty d a) := fun hw =>
  decode_of_fields (j := .fclass h ty d a) rfl rfl hw (by
    simp (disch := decide) only [decodeFields_40, Fields.ty, Fields.clsTy, Fields.rnd, Fields.fnBit, Fields.dst, Fields.srcA, Fields.srcB, Fields.srcC, Fields.msrcA,
    Fields.msrcB, Fields.msrcC, Fields.predD, Fields.predA, Fields.predB, Fields.predC, Fields.space, Fields.width, Fields.hint,
    Fields.imm, immFields, fnInt, fnFlt, fnBits, clsBit, b1, BitVec.extractLsb'_append_eq_of_le,
    BitVec.extractLsb'_append_eq_of_add_le, BitVec.getLsbD_append]
    simp)

theorem RoundTrip.fscale (h ty rnd d a b) : RoundTrip.Statement (.fscale h ty rnd d a b) := fun hw =>
  decode_of_fields (j := .fscale h ty rnd d a b) rfl rfl hw (by
    simp (disch := decide) only [decodeFields_41, Fields.ty, Fields.clsTy, Fields.rnd, Fields.fnBit, Fields.dst, Fields.srcA, Fields.srcB, Fields.srcC, Fields.msrcA,
    Fields.msrcB, Fields.msrcC, Fields.predD, Fields.predA, Fields.predB, Fields.predC, Fields.space, Fields.width, Fields.hint,
    Fields.imm, immFields, fnInt, fnFlt, fnBits, clsBit, b1, BitVec.extractLsb'_append_eq_of_le,
    BitVec.extractLsb'_append_eq_of_add_le, BitVec.getLsbD_append]
    simp)

theorem RoundTrip.cvtf (h td ts rnd d a) : RoundTrip.Statement (.cvtf h td ts rnd d a) := fun hw =>
  decode_of_fields (j := .cvtf h td ts rnd d a) rfl rfl hw (by
    simp (disch := decide) only [decodeFields_42, Fields.ty, Fields.clsTy, Fields.rnd, Fields.fnBit, Fields.dst, Fields.srcA, Fields.srcB, Fields.srcC, Fields.msrcA,
    Fields.msrcB, Fields.msrcC, Fields.predD, Fields.predA, Fields.predB, Fields.predC, Fields.space, Fields.width, Fields.hint,
    Fields.imm, immFields, fnInt, fnFlt, fnBits, clsBit, b1, BitVec.extractLsb'_append_eq_of_le,
    BitVec.extractLsb'_append_eq_of_add_le, BitVec.getLsbD_append]
    simp)

theorem RoundTrip.cvtfi (h td ts rnd d a) : RoundTrip.Statement (.cvtfi h td ts rnd d a) := fun hw =>
  decode_of_fields (j := .cvtfi h td ts rnd d a) rfl rfl hw (by
    simp (disch := decide) only [decodeFields_43, Fields.ty, Fields.clsTy, Fields.rnd, Fields.fnBit, Fields.dst, Fields.srcA, Fields.srcB, Fields.srcC, Fields.msrcA,
    Fields.msrcB, Fields.msrcC, Fields.predD, Fields.predA, Fields.predB, Fields.predC, Fields.space, Fields.width, Fields.hint,
    Fields.imm, immFields, fnInt, fnFlt, fnBits, clsBit, b1, BitVec.extractLsb'_append_eq_of_le,
    BitVec.extractLsb'_append_eq_of_add_le, BitVec.getLsbD_append]
    simp)

theorem RoundTrip.cvtif (h td ts rnd d a) : RoundTrip.Statement (.cvtif h td ts rnd d a) := fun hw =>
  decode_of_fields (j := .cvtif h td ts rnd d a) rfl rfl hw (by
    simp (disch := decide) only [decodeFields_44, Fields.ty, Fields.clsTy, Fields.rnd, Fields.fnBit, Fields.dst, Fields.srcA, Fields.srcB, Fields.srcC, Fields.msrcA,
    Fields.msrcB, Fields.msrcC, Fields.predD, Fields.predA, Fields.predB, Fields.predC, Fields.space, Fields.width, Fields.hint,
    Fields.imm, immFields, fnInt, fnFlt, fnBits, clsBit, b1, BitVec.extractLsb'_append_eq_of_le,
    BitVec.extractLsb'_append_eq_of_add_le, BitVec.getLsbD_append]
    simp)

theorem RoundTrip.fdot2 (h ty rnd d a b c) : RoundTrip.Statement (.fdot2 h ty rnd d a b c) := fun hw =>
  decode_of_fields (j := .fdot2 h ty rnd d a b c) rfl rfl hw (by
    simp (disch := decide) only [decodeFields_45, Fields.ty, Fields.clsTy, Fields.rnd, Fields.fnBit, Fields.dst, Fields.srcA, Fields.srcB, Fields.srcC, Fields.msrcA,
    Fields.msrcB, Fields.msrcC, Fields.predD, Fields.predA, Fields.predB, Fields.predC, Fields.space, Fields.width, Fields.hint,
    Fields.imm, immFields, fnInt, fnFlt, fnBits, clsBit, b1, BitVec.extractLsb'_append_eq_of_le,
    BitVec.extractLsb'_append_eq_of_add_le, BitVec.getLsbD_append]
    simp)

theorem RoundTrip.ivpt (h dbl d a) : RoundTrip.Statement (.ivpt h dbl d a) := fun hw =>
  decode_of_fields (j := .ivpt h dbl d a) rfl rfl hw (by
    simp (disch := decide) only [decodeFields_48, Fields.ty, Fields.clsTy, Fields.rnd, Fields.fnBit, Fields.dst, Fields.srcA, Fields.srcB, Fields.srcC, Fields.msrcA,
    Fields.msrcB, Fields.msrcC, Fields.predD, Fields.predA, Fields.predB, Fields.predC, Fields.space, Fields.width, Fields.hint,
    Fields.imm, immFields, fnInt, fnFlt, fnBits, clsBit, b1, BitVec.extractLsb'_append_eq_of_le,
    BitVec.extractLsb'_append_eq_of_add_le, BitVec.getLsbD_append]
    simp)

theorem RoundTrip.ivmake (h d a b) : RoundTrip.Statement (.ivmake h d a b) := fun hw =>
  decode_of_fields (j := .ivmake h d a b) rfl rfl hw (by
    simp (disch := decide) only [decodeFields_49, Fields.ty, Fields.clsTy, Fields.rnd, Fields.fnBit, Fields.dst, Fields.srcA, Fields.srcB, Fields.srcC, Fields.msrcA,
    Fields.msrcB, Fields.msrcC, Fields.predD, Fields.predA, Fields.predB, Fields.predC, Fields.space, Fields.width, Fields.hint,
    Fields.imm, immFields, fnInt, fnFlt, fnBits, clsBit, b1, BitVec.extractLsb'_append_eq_of_le,
    BitVec.extractLsb'_append_eq_of_add_le, BitVec.getLsbD_append]
    simp)

theorem RoundTrip.ivlo (h d a) : RoundTrip.Statement (.ivlo h d a) := fun hw =>
  decode_of_fields (j := .ivlo h d a) rfl rfl hw (by
    simp (disch := decide) only [decodeFields_4A, Fields.ty, Fields.clsTy, Fields.rnd, Fields.fnBit, Fields.dst, Fields.srcA, Fields.srcB, Fields.srcC, Fields.msrcA,
    Fields.msrcB, Fields.msrcC, Fields.predD, Fields.predA, Fields.predB, Fields.predC, Fields.space, Fields.width, Fields.hint,
    Fields.imm, immFields, fnInt, fnFlt, fnBits, clsBit, b1, BitVec.extractLsb'_append_eq_of_le,
    BitVec.extractLsb'_append_eq_of_add_le, BitVec.getLsbD_append]
    simp)

theorem RoundTrip.ivhi (h d a) : RoundTrip.Statement (.ivhi h d a) := fun hw =>
  decode_of_fields (j := .ivhi h d a) rfl rfl hw (by
    simp (disch := decide) only [decodeFields_4B, Fields.ty, Fields.clsTy, Fields.rnd, Fields.fnBit, Fields.dst, Fields.srcA, Fields.srcB, Fields.srcC, Fields.msrcA,
    Fields.msrcB, Fields.msrcC, Fields.predD, Fields.predA, Fields.predB, Fields.predC, Fields.space, Fields.width, Fields.hint,
    Fields.imm, immFields, fnInt, fnFlt, fnBits, clsBit, b1, BitVec.extractLsb'_append_eq_of_le,
    BitVec.extractLsb'_append_eq_of_add_le, BitVec.getLsbD_append]
    simp)

theorem RoundTrip.ivmid (h d a) : RoundTrip.Statement (.ivmid h d a) := fun hw =>
  decode_of_fields (j := .ivmid h d a) rfl rfl hw (by
    simp (disch := decide) only [decodeFields_4C, Fields.ty, Fields.clsTy, Fields.rnd, Fields.fnBit, Fields.dst, Fields.srcA, Fields.srcB, Fields.srcC, Fields.msrcA,
    Fields.msrcB, Fields.msrcC, Fields.predD, Fields.predA, Fields.predB, Fields.predC, Fields.space, Fields.width, Fields.hint,
    Fields.imm, immFields, fnInt, fnFlt, fnBits, clsBit, b1, BitVec.extractLsb'_append_eq_of_le,
    BitVec.extractLsb'_append_eq_of_add_le, BitVec.getLsbD_append]
    simp)

theorem RoundTrip.ivwid (h d a) : RoundTrip.Statement (.ivwid h d a) := fun hw =>
  decode_of_fields (j := .ivwid h d a) rfl rfl hw (by
    simp (disch := decide) only [decodeFields_4D, Fields.ty, Fields.clsTy, Fields.rnd, Fields.fnBit, Fields.dst, Fields.srcA, Fields.srcB, Fields.srcC, Fields.msrcA,
    Fields.msrcB, Fields.msrcC, Fields.predD, Fields.predA, Fields.predB, Fields.predC, Fields.space, Fields.width, Fields.hint,
    Fields.imm, immFields, fnInt, fnFlt, fnBits, clsBit, b1, BitVec.extractLsb'_append_eq_of_le,
    BitVec.extractLsb'_append_eq_of_add_le, BitVec.getLsbD_append]
    simp)

theorem RoundTrip.ivadd (h d a b) : RoundTrip.Statement (.ivadd h d a b) := fun hw =>
  decode_of_fields (j := .ivadd h d a b) rfl rfl hw (by
    simp (disch := decide) only [decodeFields_4E, Fields.ty, Fields.clsTy, Fields.rnd, Fields.fnBit, Fields.dst, Fields.srcA, Fields.srcB, Fields.srcC, Fields.msrcA,
    Fields.msrcB, Fields.msrcC, Fields.predD, Fields.predA, Fields.predB, Fields.predC, Fields.space, Fields.width, Fields.hint,
    Fields.imm, immFields, fnInt, fnFlt, fnBits, clsBit, b1, BitVec.extractLsb'_append_eq_of_le,
    BitVec.extractLsb'_append_eq_of_add_le, BitVec.getLsbD_append]
    simp)

theorem RoundTrip.ivsub (h d a b) : RoundTrip.Statement (.ivsub h d a b) := fun hw =>
  decode_of_fields (j := .ivsub h d a b) rfl rfl hw (by
    simp (disch := decide) only [decodeFields_4F, Fields.ty, Fields.clsTy, Fields.rnd, Fields.fnBit, Fields.dst, Fields.srcA, Fields.srcB, Fields.srcC, Fields.msrcA,
    Fields.msrcB, Fields.msrcC, Fields.predD, Fields.predA, Fields.predB, Fields.predC, Fields.space, Fields.width, Fields.hint,
    Fields.imm, immFields, fnInt, fnFlt, fnBits, clsBit, b1, BitVec.extractLsb'_append_eq_of_le,
    BitVec.extractLsb'_append_eq_of_add_le, BitVec.getLsbD_append]
    simp)

theorem RoundTrip.ivmul (h d a b) : RoundTrip.Statement (.ivmul h d a b) := fun hw =>
  decode_of_fields (j := .ivmul h d a b) rfl rfl hw (by
    simp (disch := decide) only [decodeFields_50, Fields.ty, Fields.clsTy, Fields.rnd, Fields.fnBit, Fields.dst, Fields.srcA, Fields.srcB, Fields.srcC, Fields.msrcA,
    Fields.msrcB, Fields.msrcC, Fields.predD, Fields.predA, Fields.predB, Fields.predC, Fields.space, Fields.width, Fields.hint,
    Fields.imm, immFields, fnInt, fnFlt, fnBits, clsBit, b1, BitVec.extractLsb'_append_eq_of_le,
    BitVec.extractLsb'_append_eq_of_add_le, BitVec.getLsbD_append]
    simp)

theorem RoundTrip.ivfma (h d a b c) : RoundTrip.Statement (.ivfma h d a b c) := fun hw =>
  decode_of_fields (j := .ivfma h d a b c) rfl rfl hw (by
    simp (disch := decide) only [decodeFields_51, Fields.ty, Fields.clsTy, Fields.rnd, Fields.fnBit, Fields.dst, Fields.srcA, Fields.srcB, Fields.srcC, Fields.msrcA,
    Fields.msrcB, Fields.msrcC, Fields.predD, Fields.predA, Fields.predB, Fields.predC, Fields.space, Fields.width, Fields.hint,
    Fields.imm, immFields, fnInt, fnFlt, fnBits, clsBit, b1, BitVec.extractLsb'_append_eq_of_le,
    BitVec.extractLsb'_append_eq_of_add_le, BitVec.getLsbD_append]
    simp)

theorem RoundTrip.ivdiv (h d a b) : RoundTrip.Statement (.ivdiv h d a b) := fun hw =>
  decode_of_fields (j := .ivdiv h d a b) rfl rfl hw (by
    simp (disch := decide) only [decodeFields_52, Fields.ty, Fields.clsTy, Fields.rnd, Fields.fnBit, Fields.dst, Fields.srcA, Fields.srcB, Fields.srcC, Fields.msrcA,
    Fields.msrcB, Fields.msrcC, Fields.predD, Fields.predA, Fields.predB, Fields.predC, Fields.space, Fields.width, Fields.hint,
    Fields.imm, immFields, fnInt, fnFlt, fnBits, clsBit, b1, BitVec.extractLsb'_append_eq_of_le,
    BitVec.extractLsb'_append_eq_of_add_le, BitVec.getLsbD_append]
    simp)

theorem RoundTrip.ivsqr (h d a) : RoundTrip.Statement (.ivsqr h d a) := fun hw =>
  decode_of_fields (j := .ivsqr h d a) rfl rfl hw (by
    simp (disch := decide) only [decodeFields_53, Fields.ty, Fields.clsTy, Fields.rnd, Fields.fnBit, Fields.dst, Fields.srcA, Fields.srcB, Fields.srcC, Fields.msrcA,
    Fields.msrcB, Fields.msrcC, Fields.predD, Fields.predA, Fields.predB, Fields.predC, Fields.space, Fields.width, Fields.hint,
    Fields.imm, immFields, fnInt, fnFlt, fnBits, clsBit, b1, BitVec.extractLsb'_append_eq_of_le,
    BitVec.extractLsb'_append_eq_of_add_le, BitVec.getLsbD_append]
    simp)

theorem RoundTrip.ivsqrt (h d a) : RoundTrip.Statement (.ivsqrt h d a) := fun hw =>
  decode_of_fields (j := .ivsqrt h d a) rfl rfl hw (by
    simp (disch := decide) only [decodeFields_54, Fields.ty, Fields.clsTy, Fields.rnd, Fields.fnBit, Fields.dst, Fields.srcA, Fields.srcB, Fields.srcC, Fields.msrcA,
    Fields.msrcB, Fields.msrcC, Fields.predD, Fields.predA, Fields.predB, Fields.predC, Fields.space, Fields.width, Fields.hint,
    Fields.imm, immFields, fnInt, fnFlt, fnBits, clsBit, b1, BitVec.extractLsb'_append_eq_of_le,
    BitVec.extractLsb'_append_eq_of_add_le, BitVec.getLsbD_append]
    simp)

theorem RoundTrip.ivrsqrt (h d a) : RoundTrip.Statement (.ivrsqrt h d a) := fun hw =>
  decode_of_fields (j := .ivrsqrt h d a) rfl rfl hw (by
    simp (disch := decide) only [decodeFields_55, Fields.ty, Fields.clsTy, Fields.rnd, Fields.fnBit, Fields.dst, Fields.srcA, Fields.srcB, Fields.srcC, Fields.msrcA,
    Fields.msrcB, Fields.msrcC, Fields.predD, Fields.predA, Fields.predB, Fields.predC, Fields.space, Fields.width, Fields.hint,
    Fields.imm, immFields, fnInt, fnFlt, fnBits, clsBit, b1, BitVec.extractLsb'_append_eq_of_le,
    BitVec.extractLsb'_append_eq_of_add_le, BitVec.getLsbD_append]
    simp)

theorem RoundTrip.ivhull (h d a b) : RoundTrip.Statement (.ivhull h d a b) := fun hw =>
  decode_of_fields (j := .ivhull h d a b) rfl rfl hw (by
    simp (disch := decide) only [decodeFields_56, Fields.ty, Fields.clsTy, Fields.rnd, Fields.fnBit, Fields.dst, Fields.srcA, Fields.srcB, Fields.srcC, Fields.msrcA,
    Fields.msrcB, Fields.msrcC, Fields.predD, Fields.predA, Fields.predB, Fields.predC, Fields.space, Fields.width, Fields.hint,
    Fields.imm, immFields, fnInt, fnFlt, fnBits, clsBit, b1, BitVec.extractLsb'_append_eq_of_le,
    BitVec.extractLsb'_append_eq_of_add_le, BitVec.getLsbD_append]
    simp)

theorem RoundTrip.ivmeet (h ne d a b) : RoundTrip.Statement (.ivmeet h ne d a b) := fun hw =>
  decode_of_fields (j := .ivmeet h ne d a b) rfl rfl hw (by
    simp (disch := decide) only [decodeFields_57, Fields.ty, Fields.clsTy, Fields.rnd, Fields.fnBit, Fields.dst, Fields.srcA, Fields.srcB, Fields.srcC, Fields.msrcA,
    Fields.msrcB, Fields.msrcC, Fields.predD, Fields.predA, Fields.predB, Fields.predC, Fields.space, Fields.width, Fields.hint,
    Fields.imm, immFields, fnInt, fnFlt, fnBits, clsBit, b1, BitVec.extractLsb'_append_eq_of_le,
    BitVec.extractLsb'_append_eq_of_add_le, BitVec.getLsbD_append]
    simp)

theorem RoundTrip.ivcmp (h rel pd a b) : RoundTrip.Statement (.ivcmp h rel pd a b) := fun hw =>
  decode_of_fields (j := .ivcmp h rel pd a b) rfl rfl hw (by
    simp (disch := decide) only [decodeFields_58, Fields.ty, Fields.clsTy, Fields.rnd, Fields.fnBit, Fields.dst, Fields.srcA, Fields.srcB, Fields.srcC, Fields.msrcA,
    Fields.msrcB, Fields.msrcC, Fields.predD, Fields.predA, Fields.predB, Fields.predC, Fields.space, Fields.width, Fields.hint,
    Fields.imm, immFields, fnInt, fnFlt, fnBits, clsBit, b1, BitVec.extractLsb'_append_eq_of_le,
    BitVec.extractLsb'_append_eq_of_add_le, BitVec.getLsbD_append]
    simp)

theorem RoundTrip.ivsplit (h d e a) : RoundTrip.Statement (.ivsplit h d e a) := fun hw =>
  decode_of_fields (j := .ivsplit h d e a) rfl rfl hw (by
    simp (disch := decide) only [decodeFields_59, Fields.ty, Fields.clsTy, Fields.rnd, Fields.fnBit, Fields.dst, Fields.srcA, Fields.srcB, Fields.srcC, Fields.msrcA,
    Fields.msrcB, Fields.msrcC, Fields.predD, Fields.predA, Fields.predB, Fields.predC, Fields.space, Fields.width, Fields.hint,
    Fields.imm, immFields, fnInt, fnFlt, fnBits, clsBit, b1, BitVec.extractLsb'_append_eq_of_le,
    BitVec.extractLsb'_append_eq_of_add_le, BitVec.getLsbD_append]
    simp)

theorem RoundTrip.ivbis (h d a q tag pc) : RoundTrip.Statement (.ivbis h d a q tag pc) := fun hw =>
  decode_of_fields (j := .ivbis h d a q tag pc) rfl rfl hw (by
    simp (disch := decide) only [decodeFields_5A, Fields.ty, Fields.clsTy, Fields.rnd, Fields.fnBit, Fields.dst, Fields.srcA, Fields.srcB, Fields.srcC, Fields.msrcA,
    Fields.msrcB, Fields.msrcC, Fields.predD, Fields.predA, Fields.predB, Fields.predC, Fields.space, Fields.width, Fields.hint,
    Fields.imm, immFields, fnInt, fnFlt, fnBits, clsBit, b1, BitVec.extractLsb'_append_eq_of_le,
    BitVec.extractLsb'_append_eq_of_add_le, BitVec.getLsbD_append]
    simp)

theorem RoundTrip.nop (h) : RoundTrip.Statement (.nop h) := fun hw =>
  decode_of_fields (j := .nop h) rfl rfl hw (by
    simp (disch := decide) only [decodeFields_60, Fields.ty, Fields.clsTy, Fields.rnd, Fields.fnBit, Fields.dst, Fields.srcA, Fields.srcB, Fields.srcC, Fields.msrcA,
    Fields.msrcB, Fields.msrcC, Fields.predD, Fields.predA, Fields.predB, Fields.predC, Fields.space, Fields.width, Fields.hint,
    Fields.imm, immFields, fnInt, fnFlt, fnBits, clsBit, b1, BitVec.extractLsb'_append_eq_of_le,
    BitVec.extractLsb'_append_eq_of_add_le, BitVec.getLsbD_append]
    simp)

theorem RoundTrip.exit (h) : RoundTrip.Statement (.exit h) := fun hw =>
  decode_of_fields (j := .exit h) rfl rfl hw (by
    simp (disch := decide) only [decodeFields_61, Fields.ty, Fields.clsTy, Fields.rnd, Fields.fnBit, Fields.dst, Fields.srcA, Fields.srcB, Fields.srcC, Fields.msrcA,
    Fields.msrcB, Fields.msrcC, Fields.predD, Fields.predA, Fields.predB, Fields.predC, Fields.space, Fields.width, Fields.hint,
    Fields.imm, immFields, fnInt, fnFlt, fnBits, clsBit, b1, BitVec.extractLsb'_append_eq_of_le,
    BitVec.extractLsb'_append_eq_of_add_le, BitVec.getLsbD_append]
    simp)

theorem RoundTrip.yield (h) : RoundTrip.Statement (.yield h) := fun hw =>
  decode_of_fields (j := .yield h) rfl rfl hw (by
    simp (disch := decide) only [decodeFields_62, Fields.ty, Fields.clsTy, Fields.rnd, Fields.fnBit, Fields.dst, Fields.srcA, Fields.srcB, Fields.srcC, Fields.msrcA,
    Fields.msrcB, Fields.msrcC, Fields.predD, Fields.predA, Fields.predB, Fields.predC, Fields.space, Fields.width, Fields.hint,
    Fields.imm, immFields, fnInt, fnFlt, fnBits, clsBit, b1, BitVec.extractLsb'_append_eq_of_le,
    BitVec.extractLsb'_append_eq_of_add_le, BitVec.getLsbD_append]
    simp)

theorem RoundTrip.trap (h code) : RoundTrip.Statement (.trap h code) := fun hw =>
  decode_of_fields (j := .trap h code) rfl rfl hw (by
    simp (disch := decide) only [decodeFields_63, Fields.ty, Fields.clsTy, Fields.rnd, Fields.fnBit, Fields.dst, Fields.srcA, Fields.srcB, Fields.srcC, Fields.msrcA,
    Fields.msrcB, Fields.msrcC, Fields.predD, Fields.predA, Fields.predB, Fields.predC, Fields.space, Fields.width, Fields.hint,
    Fields.imm, immFields, fnInt, fnFlt, fnBits, clsBit, b1, BitVec.extractLsb'_append_eq_of_le,
    BitVec.extractLsb'_append_eq_of_add_le, BitVec.getLsbD_append]
    simp)

theorem RoundTrip.ret (h k) : RoundTrip.Statement (.ret h k) := fun hw =>
  decode_of_fields (j := .ret h k) rfl rfl hw (by
    simp (disch := decide) only [decodeFields_64, Fields.ty, Fields.clsTy, Fields.rnd, Fields.fnBit, Fields.dst, Fields.srcA, Fields.srcB, Fields.srcC, Fields.msrcA,
    Fields.msrcB, Fields.msrcC, Fields.predD, Fields.predA, Fields.predB, Fields.predC, Fields.space, Fields.width, Fields.hint,
    Fields.imm, immFields, fnInt, fnFlt, fnBits, clsBit, b1, BitVec.extractLsb'_append_eq_of_le,
    BitVec.extractLsb'_append_eq_of_add_le, BitVec.getLsbD_append]
    simp)

theorem RoundTrip.cvg (h) : RoundTrip.Statement (.cvg h) := fun hw =>
  decode_of_fields (j := .cvg h) rfl rfl hw (by
    simp (disch := decide) only [decodeFields_65, Fields.ty, Fields.clsTy, Fields.rnd, Fields.fnBit, Fields.dst, Fields.srcA, Fields.srcB, Fields.srcC, Fields.msrcA,
    Fields.msrcB, Fields.msrcC, Fields.predD, Fields.predA, Fields.predB, Fields.predC, Fields.space, Fields.width, Fields.hint,
    Fields.imm, immFields, fnInt, fnFlt, fnBits, clsBit, b1, BitVec.extractLsb'_append_eq_of_le,
    BitVec.extractLsb'_append_eq_of_add_le, BitVec.getLsbD_append]
    simp)

theorem RoundTrip.pand (h na nb pd pa pb) : RoundTrip.Statement (.pand h na nb pd pa pb) := fun hw =>
  decode_of_fields (j := .pand h na nb pd pa pb) rfl rfl hw (by
    simp (disch := decide) only [decodeFields_66, Fields.ty, Fields.clsTy, Fields.rnd, Fields.fnBit, Fields.dst, Fields.srcA, Fields.srcB, Fields.srcC, Fields.msrcA,
    Fields.msrcB, Fields.msrcC, Fields.predD, Fields.predA, Fields.predB, Fields.predC, Fields.space, Fields.width, Fields.hint,
    Fields.imm, immFields, fnInt, fnFlt, fnBits, clsBit, b1, BitVec.extractLsb'_append_eq_of_le,
    BitVec.extractLsb'_append_eq_of_add_le, BitVec.getLsbD_append]
    simp)

theorem RoundTrip.por (h na nb pd pa pb) : RoundTrip.Statement (.por h na nb pd pa pb) := fun hw =>
  decode_of_fields (j := .por h na nb pd pa pb) rfl rfl hw (by
    simp (disch := decide) only [decodeFields_67, Fields.ty, Fields.clsTy, Fields.rnd, Fields.fnBit, Fields.dst, Fields.srcA, Fields.srcB, Fields.srcC, Fields.msrcA,
    Fields.msrcB, Fields.msrcC, Fields.predD, Fields.predA, Fields.predB, Fields.predC, Fields.space, Fields.width, Fields.hint,
    Fields.imm, immFields, fnInt, fnFlt, fnBits, clsBit, b1, BitVec.extractLsb'_append_eq_of_le,
    BitVec.extractLsb'_append_eq_of_add_le, BitVec.getLsbD_append]
    simp)

theorem RoundTrip.pnot (h pd pa) : RoundTrip.Statement (.pnot h pd pa) := fun hw =>
  decode_of_fields (j := .pnot h pd pa) rfl rfl hw (by
    simp (disch := decide) only [decodeFields_68, Fields.ty, Fields.clsTy, Fields.rnd, Fields.fnBit, Fields.dst, Fields.srcA, Fields.srcB, Fields.srcC, Fields.msrcA,
    Fields.msrcB, Fields.msrcC, Fields.predD, Fields.predA, Fields.predB, Fields.predC, Fields.space, Fields.width, Fields.hint,
    Fields.imm, immFields, fnInt, fnFlt, fnBits, clsBit, b1, BitVec.extractLsb'_append_eq_of_le,
    BitVec.extractLsb'_append_eq_of_add_le, BitVec.getLsbD_append]
    simp)

theorem RoundTrip.pdec (h ut pd pa) : RoundTrip.Statement (.pdec h ut pd pa) := fun hw =>
  decode_of_fields (j := .pdec h ut pd pa) rfl rfl hw (by
    simp (disch := decide) only [decodeFields_69, Fields.ty, Fields.clsTy, Fields.rnd, Fields.fnBit, Fields.dst, Fields.srcA, Fields.srcB, Fields.srcC, Fields.msrcA,
    Fields.msrcB, Fields.msrcC, Fields.predD, Fields.predA, Fields.predB, Fields.predC, Fields.space, Fields.width, Fields.hint,
    Fields.imm, immFields, fnInt, fnFlt, fnBits, clsBit, b1, BitVec.extractLsb'_append_eq_of_le,
    BitVec.extractLsb'_append_eq_of_add_le, BitVec.getLsbD_append]
    simp)

theorem RoundTrip.pmov (h pd a) : RoundTrip.Statement (.pmov h pd a) := fun hw =>
  decode_of_fields (j := .pmov h pd a) rfl rfl hw (by
    simp (disch := decide) only [decodeFields_6A, Fields.ty, Fields.clsTy, Fields.rnd, Fields.fnBit, Fields.dst, Fields.srcA, Fields.srcB, Fields.srcC, Fields.msrcA,
    Fields.msrcB, Fields.msrcC, Fields.predD, Fields.predA, Fields.predB, Fields.predC, Fields.space, Fields.width, Fields.hint,
    Fields.imm, immFields, fnInt, fnFlt, fnBits, clsBit, b1, BitVec.extractLsb'_append_eq_of_le,
    BitVec.extractLsb'_append_eq_of_add_le, BitVec.getLsbD_append]
    simp)

theorem RoundTrip.pget (h d pa) : RoundTrip.Statement (.pget h d pa) := fun hw =>
  decode_of_fields (j := .pget h d pa) rfl rfl hw (by
    simp (disch := decide) only [decodeFields_6B, Fields.ty, Fields.clsTy, Fields.rnd, Fields.fnBit, Fields.dst, Fields.srcA, Fields.srcB, Fields.srcC, Fields.msrcA,
    Fields.msrcB, Fields.msrcC, Fields.predD, Fields.predA, Fields.predB, Fields.predC, Fields.space, Fields.width, Fields.hint,
    Fields.imm, immFields, fnInt, fnFlt, fnBits, clsBit, b1, BitVec.extractLsb'_append_eq_of_le,
    BitVec.extractLsb'_append_eq_of_add_le, BitVec.getLsbD_append]
    simp)

theorem RoundTrip.vote (h team mode d pa) : RoundTrip.Statement (.vote h team mode d pa) := fun hw =>
  decode_of_fields (j := .vote h team mode d pa) rfl rfl hw (by
    simp (disch := decide) only [decodeFields_6C, Fields.ty, Fields.clsTy, Fields.rnd, Fields.fnBit, Fields.dst, Fields.srcA, Fields.srcB, Fields.srcC, Fields.msrcA,
    Fields.msrcB, Fields.msrcC, Fields.predD, Fields.predA, Fields.predB, Fields.predC, Fields.space, Fields.width, Fields.hint,
    Fields.imm, immFields, fnInt, fnFlt, fnBits, clsBit, b1, BitVec.extractLsb'_append_eq_of_le,
    BitVec.extractLsb'_append_eq_of_add_le, BitVec.getLsbD_append]
    simp)

theorem RoundTrip.shfl (h team mode d a b pc) : RoundTrip.Statement (.shfl h team mode d a b pc) := fun hw =>
  decode_of_fields (j := .shfl h team mode d a b pc) rfl rfl hw (by
    simp (disch := decide) only [decodeFields_6D, Fields.ty, Fields.clsTy, Fields.rnd, Fields.fnBit, Fields.dst, Fields.srcA, Fields.srcB, Fields.srcC, Fields.msrcA,
    Fields.msrcB, Fields.msrcC, Fields.predD, Fields.predA, Fields.predB, Fields.predC, Fields.space, Fields.width, Fields.hint,
    Fields.imm, immFields, fnInt, fnFlt, fnBits, clsBit, b1, BitVec.extractLsb'_append_eq_of_le,
    BitVec.extractLsb'_append_eq_of_add_le, BitVec.getLsbD_append]
    simp)

theorem RoundTrip.scan (h ty warp excl op d a) : RoundTrip.Statement (.scan h ty warp excl op d a) := fun hw =>
  decode_of_fields (j := .scan h ty warp excl op d a) rfl rfl hw (by
    simp (disch := decide) only [decodeFields_6E, Fields.ty, Fields.clsTy, Fields.rnd, Fields.fnBit, Fields.dst, Fields.srcA, Fields.srcB, Fields.srcC, Fields.msrcA,
    Fields.msrcB, Fields.msrcC, Fields.predD, Fields.predA, Fields.predB, Fields.predC, Fields.space, Fields.width, Fields.hint,
    Fields.imm, immFields, fnInt, fnFlt, fnBits, clsBit, b1, BitVec.extractLsb'_append_eq_of_le,
    BitVec.extractLsb'_append_eq_of_add_le, BitVec.getLsbD_append]
    simp)

theorem RoundTrip.redl (h ty team op d a) : RoundTrip.Statement (.redl h ty team op d a) := fun hw =>
  decode_of_fields (j := .redl h ty team op d a) rfl rfl hw (by
    simp (disch := decide) only [decodeFields_6F, Fields.ty, Fields.clsTy, Fields.rnd, Fields.fnBit, Fields.dst, Fields.srcA, Fields.srcB, Fields.srcC, Fields.msrcA,
    Fields.msrcB, Fields.msrcC, Fields.predD, Fields.predA, Fields.predB, Fields.predC, Fields.space, Fields.width, Fields.hint,
    Fields.imm, immFields, fnInt, fnFlt, fnBits, clsBit, b1, BitVec.extractLsb'_append_eq_of_le,
    BitVec.extractLsb'_append_eq_of_add_le, BitVec.getLsbD_append]
    simp)

theorem RoundTrip.push (h d a b) : RoundTrip.Statement (.push h d a b) := fun hw =>
  decode_of_fields (j := .push h d a b) rfl rfl hw (by
    simp (disch := decide) only [decodeFields_70, Fields.ty, Fields.clsTy, Fields.rnd, Fields.fnBit, Fields.dst, Fields.srcA, Fields.srcB, Fields.srcC, Fields.msrcA,
    Fields.msrcB, Fields.msrcC, Fields.predD, Fields.predA, Fields.predB, Fields.predC, Fields.space, Fields.width, Fields.hint,
    Fields.imm, immFields, fnInt, fnFlt, fnBits, clsBit, b1, BitVec.extractLsb'_append_eq_of_le,
    BitVec.extractLsb'_append_eq_of_add_le, BitVec.getLsbD_append]
    simp)

theorem RoundTrip.matchLanes (h ty d a) : RoundTrip.Statement (.matchLanes h ty d a) := fun hw =>
  decode_of_fields (j := .matchLanes h ty d a) rfl rfl hw (by
    simp (disch := decide) only [decodeFields_71, Fields.ty, Fields.clsTy, Fields.rnd, Fields.fnBit, Fields.dst, Fields.srcA, Fields.srcB, Fields.srcC, Fields.msrcA,
    Fields.msrcB, Fields.msrcC, Fields.predD, Fields.predA, Fields.predB, Fields.predC, Fields.space, Fields.width, Fields.hint,
    Fields.imm, immFields, fnInt, fnFlt, fnBits, clsBit, b1, BitVec.extractLsb'_append_eq_of_le,
    BitVec.extractLsb'_append_eq_of_add_le, BitVec.getLsbD_append]
    simp)

theorem RoundTrip.vget (h d k) : RoundTrip.Statement (.vget h d k) := fun hw =>
  decode_of_fields (j := .vget h d k) rfl rfl hw (by
    simp (disch := decide) only [decodeFields_72, Fields.ty, Fields.clsTy, Fields.rnd, Fields.fnBit, Fields.dst, Fields.srcA, Fields.srcB, Fields.srcC, Fields.msrcA,
    Fields.msrcB, Fields.msrcC, Fields.predD, Fields.predA, Fields.predB, Fields.predC, Fields.space, Fields.width, Fields.hint,
    Fields.imm, immFields, fnInt, fnFlt, fnBits, clsBit, b1, BitVec.extractLsb'_append_eq_of_le,
    BitVec.extractLsb'_append_eq_of_add_le, BitVec.getLsbD_append]
    simp)

theorem RoundTrip.vput (h a k) : RoundTrip.Statement (.vput h a k) := fun hw =>
  decode_of_fields (j := .vput h a k) rfl rfl hw (by
    simp (disch := decide) only [decodeFields_73, Fields.ty, Fields.clsTy, Fields.rnd, Fields.fnBit, Fields.dst, Fields.srcA, Fields.srcB, Fields.srcC, Fields.msrcA,
    Fields.msrcB, Fields.msrcC, Fields.predD, Fields.predA, Fields.predB, Fields.predC, Fields.space, Fields.width, Fields.hint,
    Fields.imm, immFields, fnInt, fnFlt, fnBits, clsBit, b1, BitVec.extractLsb'_append_eq_of_le,
    BitVec.extractLsb'_append_eq_of_add_le, BitVec.getLsbD_append]
    simp)

theorem RoundTrip.rand (h mode d) : RoundTrip.Statement (.rand h mode d) := fun hw =>
  decode_of_fields (j := .rand h mode d) rfl rfl hw (by
    simp (disch := decide) only [decodeFields_74, Fields.ty, Fields.clsTy, Fields.rnd, Fields.fnBit, Fields.dst, Fields.srcA, Fields.srcB, Fields.srcC, Fields.msrcA,
    Fields.msrcB, Fields.msrcC, Fields.predD, Fields.predA, Fields.predB, Fields.predC, Fields.space, Fields.width, Fields.hint,
    Fields.imm, immFields, fnInt, fnFlt, fnBits, clsBit, b1, BitVec.extractLsb'_append_eq_of_le,
    BitVec.extractLsb'_append_eq_of_add_le, BitVec.getLsbD_append]
    simp)

theorem RoundTrip.rkey (h a b c) : RoundTrip.Statement (.rkey h a b c) := fun hw =>
  decode_of_fields (j := .rkey h a b c) rfl rfl hw (by
    simp (disch := decide) only [decodeFields_75, Fields.ty, Fields.clsTy, Fields.rnd, Fields.fnBit, Fields.dst, Fields.srcA, Fields.srcB, Fields.srcC, Fields.msrcA,
    Fields.msrcB, Fields.msrcC, Fields.predD, Fields.predA, Fields.predB, Fields.predC, Fields.space, Fields.width, Fields.hint,
    Fields.imm, immFields, fnInt, fnFlt, fnBits, clsBit, b1, BitVec.extractLsb'_append_eq_of_le,
    BitVec.extractLsb'_append_eq_of_add_le, BitVec.getLsbD_append]
    simp)

theorem RoundTrip.rfork (h d a) : RoundTrip.Statement (.rfork h d a) := fun hw =>
  decode_of_fields (j := .rfork h d a) rfl rfl hw (by
    simp (disch := decide) only [decodeFields_76, Fields.ty, Fields.clsTy, Fields.rnd, Fields.fnBit, Fields.dst, Fields.srcA, Fields.srcB, Fields.srcC, Fields.msrcA,
    Fields.msrcB, Fields.msrcC, Fields.predD, Fields.predA, Fields.predB, Fields.predC, Fields.space, Fields.width, Fields.hint,
    Fields.imm, immFields, fnInt, fnFlt, fnBits, clsBit, b1, BitVec.extractLsb'_append_eq_of_le,
    BitVec.extractLsb'_append_eq_of_add_le, BitVec.getLsbD_append]
    simp)

theorem RoundTrip.vstag (h d a) : RoundTrip.Statement (.vstag h d a) := fun hw =>
  decode_of_fields (j := .vstag h d a) rfl rfl hw (by
    simp (disch := decide) only [decodeFields_77, Fields.ty, Fields.clsTy, Fields.rnd, Fields.fnBit, Fields.dst, Fields.srcA, Fields.srcB, Fields.srcC, Fields.msrcA,
    Fields.msrcB, Fields.msrcC, Fields.predD, Fields.predA, Fields.predB, Fields.predC, Fields.space, Fields.width, Fields.hint,
    Fields.imm, immFields, fnInt, fnFlt, fnBits, clsBit, b1, BitVec.extractLsb'_append_eq_of_le,
    BitVec.extractLsb'_append_eq_of_add_le, BitVec.getLsbD_append]
    simp)

theorem RoundTrip.getc (h d ctl) : RoundTrip.Statement (.getc h d ctl) := fun hw =>
  decode_of_fields (j := .getc h d ctl) rfl rfl hw (by
    simp (disch := decide) only [decodeFields_78, Fields.ty, Fields.clsTy, Fields.rnd, Fields.fnBit, Fields.dst, Fields.srcA, Fields.srcB, Fields.srcC, Fields.msrcA,
    Fields.msrcB, Fields.msrcC, Fields.predD, Fields.predA, Fields.predB, Fields.predC, Fields.space, Fields.width, Fields.hint,
    Fields.imm, immFields, fnInt, fnFlt, fnBits, clsBit, b1, BitVec.extractLsb'_append_eq_of_le,
    BitVec.extractLsb'_append_eq_of_add_le, BitVec.getLsbD_append]
    simp)

theorem RoundTrip.setc (h ctl a) : RoundTrip.Statement (.setc h ctl a) := fun hw =>
  decode_of_fields (j := .setc h ctl a) rfl rfl hw (by
    have hc : ctl = 2 ∨ ctl = 3 ∨ ctl = 7 ∨ ctl = 8 ∨ ctl = 9 ∨ ctl = 10 ∨ ctl = 11 := by
      revert hw; simp only [Instr.wellFormed]; revert ctl; decide
    obtain rfl | rfl | rfl | rfl | rfl | rfl | rfl := hc
    all_goals simp only [decodeFields_79, Fields.srcA]
    all_goals simp)

theorem RoundTrip.setcFlags (h a) : RoundTrip.Statement (.setcFlags h a) := fun hw =>
  decode_of_fields (j := .setcFlags h a) rfl rfl hw (by
    simp (disch := decide) only [decodeFields_79, Fields.ty, Fields.clsTy, Fields.rnd, Fields.fnBit, Fields.dst, Fields.srcA, Fields.srcB, Fields.srcC, Fields.msrcA,
    Fields.msrcB, Fields.msrcC, Fields.predD, Fields.predA, Fields.predB, Fields.predC, Fields.space, Fields.width, Fields.hint,
    Fields.imm, immFields, fnInt, fnFlt, fnBits, clsBit, b1, BitVec.extractLsb'_append_eq_of_le,
    BitVec.extractLsb'_append_eq_of_add_le, BitVec.getLsbD_append]
    simp)

theorem RoundTrip.setcBindctl (h a) : RoundTrip.Statement (.setcBindctl h a) := fun hw =>
  decode_of_fields (j := .setcBindctl h a) rfl rfl hw (by
    simp (disch := decide) only [decodeFields_79, Fields.ty, Fields.clsTy, Fields.rnd, Fields.fnBit, Fields.dst, Fields.srcA, Fields.srcB, Fields.srcC, Fields.msrcA,
    Fields.msrcB, Fields.msrcC, Fields.predD, Fields.predA, Fields.predB, Fields.predC, Fields.space, Fields.width, Fields.hint,
    Fields.imm, immFields, fnInt, fnFlt, fnBits, clsBit, b1, BitVec.extractLsb'_append_eq_of_le,
    BitVec.extractLsb'_append_eq_of_add_le, BitVec.getLsbD_append]
    simp)

theorem RoundTrip.setcStream (h ctl a) : RoundTrip.Statement (.setcStream h ctl a) := fun hw =>
  decode_of_fields (j := .setcStream h ctl a) rfl rfl hw (by
    have hc : ctl = 4 ∨ ctl = 5 ∨ ctl = 6 := by simpa [Instr.wellFormed, or_assoc] using hw
    obtain rfl | rfl | rfl := hc
    all_goals simp only [decodeFields_79, Fields.srcA]
    all_goals simp)

theorem RoundTrip.setcPassc (h a) : RoundTrip.Statement (.setcPassc h a) := fun hw =>
  decode_of_fields (j := .setcPassc h a) rfl rfl hw (by
    simp (disch := decide) only [decodeFields_79, Fields.ty, Fields.clsTy, Fields.rnd, Fields.fnBit, Fields.dst, Fields.srcA, Fields.srcB, Fields.srcC, Fields.msrcA,
    Fields.msrcB, Fields.msrcC, Fields.predD, Fields.predA, Fields.predB, Fields.predC, Fields.space, Fields.width, Fields.hint,
    Fields.imm, immFields, fnInt, fnFlt, fnBits, clsBit, b1, BitVec.extractLsb'_append_eq_of_le,
    BitVec.extractLsb'_append_eq_of_add_le, BitVec.getLsbD_append]
    simp)

theorem RoundTrip.setcRatio (h a) : RoundTrip.Statement (.setcRatio h a) := fun hw =>
  decode_of_fields (j := .setcRatio h a) rfl rfl hw (by
    simp (disch := decide) only [decodeFields_79, Fields.ty, Fields.clsTy, Fields.rnd, Fields.fnBit, Fields.dst, Fields.srcA, Fields.srcB, Fields.srcC, Fields.msrcA,
    Fields.msrcB, Fields.msrcC, Fields.predD, Fields.predA, Fields.predB, Fields.predC, Fields.space, Fields.width, Fields.hint,
    Fields.imm, immFields, fnInt, fnFlt, fnBits, clsBit, b1, BitVec.extractLsb'_append_eq_of_le,
    BitVec.extractLsb'_append_eq_of_add_le, BitVec.getLsbD_append]
    simp)

theorem RoundTrip.ld (h space w hint d a off) : RoundTrip.Statement (.ld h space w hint d a off) := fun hw =>
  decode_of_fields (j := .ld h space w hint d a off) rfl rfl hw (by
    simp (disch := decide) only [decodeFields_80, Fields.ty, Fields.clsTy, Fields.rnd, Fields.fnBit, Fields.dst, Fields.srcA, Fields.srcB, Fields.srcC, Fields.msrcA,
    Fields.msrcB, Fields.msrcC, Fields.predD, Fields.predA, Fields.predB, Fields.predC, Fields.space, Fields.width, Fields.hint,
    Fields.imm, immFields, fnInt, fnFlt, fnBits, clsBit, b1, BitVec.extractLsb'_append_eq_of_le,
    BitVec.extractLsb'_append_eq_of_add_le, BitVec.getLsbD_append]
    simp)

theorem RoundTrip.st (h space w hint a data off) : RoundTrip.Statement (.st h space w hint a data off) := fun hw =>
  decode_of_fields (j := .st h space w hint a data off) rfl rfl hw (by
    simp (disch := decide) only [decodeFields_81, Fields.ty, Fields.clsTy, Fields.rnd, Fields.fnBit, Fields.dst, Fields.srcA, Fields.srcB, Fields.srcC, Fields.msrcA,
    Fields.msrcB, Fields.msrcC, Fields.predD, Fields.predA, Fields.predB, Fields.predC, Fields.space, Fields.width, Fields.hint,
    Fields.imm, immFields, fnInt, fnFlt, fnBits, clsBit, b1, BitVec.extractLsb'_append_eq_of_le,
    BitVec.extractLsb'_append_eq_of_add_le, BitVec.getLsbD_append]
    simp)

theorem RoundTrip.pref (h space hint a off) : RoundTrip.Statement (.pref h space hint a off) := fun hw =>
  decode_of_fields (j := .pref h space hint a off) rfl rfl hw (by
    simp (disch := decide) only [decodeFields_82, Fields.ty, Fields.clsTy, Fields.rnd, Fields.fnBit, Fields.dst, Fields.srcA, Fields.srcB, Fields.srcC, Fields.msrcA,
    Fields.msrcB, Fields.msrcC, Fields.predD, Fields.predA, Fields.predB, Fields.predC, Fields.space, Fields.width, Fields.hint,
    Fields.imm, immFields, fnInt, fnFlt, fnBits, clsBit, b1, BitVec.extractLsb'_append_eq_of_le,
    BitVec.extractLsb'_append_eq_of_add_le, BitVec.getLsbD_append]
    simp)

theorem RoundTrip.cpy (h store x2 space w hint tok vm vs off) : RoundTrip.Statement (.cpy h store x2 space w hint tok vm vs off) := fun hw =>
  decode_of_fields (j := .cpy h store x2 space w hint tok vm vs off) rfl rfl hw (by
    simp (disch := decide) only [decodeFields_83, Fields.ty, Fields.clsTy, Fields.rnd, Fields.fnBit, Fields.dst, Fields.srcA, Fields.srcB, Fields.srcC, Fields.msrcA,
    Fields.msrcB, Fields.msrcC, Fields.predD, Fields.predA, Fields.predB, Fields.predC, Fields.space, Fields.width, Fields.hint,
    Fields.imm, immFields, fnInt, fnFlt, fnBits, clsBit, b1, BitVec.extractLsb'_append_eq_of_le,
    BitVec.extractLsb'_append_eq_of_add_le, BitVec.getLsbD_append]
    simp)

theorem RoundTrip.cpyt (h store space hint tok grp tile off) : RoundTrip.Statement (.cpyt h store space hint tok grp tile off) := fun hw =>
  decode_of_fields (j := .cpyt h store space hint tok grp tile off) rfl rfl hw (by
    simp (disch := decide) only [decodeFields_84, Fields.ty, Fields.clsTy, Fields.rnd, Fields.fnBit, Fields.dst, Fields.srcA, Fields.srcB, Fields.srcC, Fields.msrcA,
    Fields.msrcB, Fields.msrcC, Fields.predD, Fields.predA, Fields.predB, Fields.predC, Fields.space, Fields.width, Fields.hint,
    Fields.imm, immFields, fnInt, fnFlt, fnBits, clsBit, b1, BitVec.extractLsb'_append_eq_of_le,
    BitVec.extractLsb'_append_eq_of_add_le, BitVec.getLsbD_append]
    simp)

theorem RoundTrip.cpym (h space hint tok grp cmd off) : RoundTrip.Statement (.cpym h space hint tok grp cmd off) := fun hw =>
  decode_of_fields (j := .cpym h space hint tok grp cmd off) rfl rfl hw (by
    simp (disch := decide) only [decodeFields_85, Fields.ty, Fields.clsTy, Fields.rnd, Fields.fnBit, Fields.dst, Fields.srcA, Fields.srcB, Fields.srcC, Fields.msrcA,
    Fields.msrcB, Fields.msrcC, Fields.predD, Fields.predA, Fields.predB, Fields.predC, Fields.space, Fields.width, Fields.hint,
    Fields.imm, immFields, fnInt, fnFlt, fnBits, clsBit, b1, BitVec.extractLsb'_append_eq_of_le,
    BitVec.extractLsb'_append_eq_of_add_le, BitVec.getLsbD_append]
    simp)

theorem RoundTrip.cpys (h space hint tok grp src idx off) : RoundTrip.Statement (.cpys h space hint tok grp src idx off) := fun hw =>
  decode_of_fields (j := .cpys h space hint tok grp src idx off) rfl rfl hw (by
    simp (disch := decide) only [decodeFields_86, Fields.ty, Fields.clsTy, Fields.rnd, Fields.fnBit, Fields.dst, Fields.srcA, Fields.srcB, Fields.srcC, Fields.msrcA,
    Fields.msrcB, Fields.msrcC, Fields.predD, Fields.predA, Fields.predB, Fields.predC, Fields.space, Fields.width, Fields.hint,
    Fields.imm, immFields, fnInt, fnFlt, fnBits, clsBit, b1, BitVec.extractLsb'_append_eq_of_le,
    BitVec.extractLsb'_append_eq_of_add_le, BitVec.getLsbD_append]
    simp)

theorem RoundTrip.tkchk (h d tok) : RoundTrip.Statement (.tkchk h d tok) := fun hw =>
  decode_of_fields (j := .tkchk h d tok) rfl rfl hw (by
    simp (disch := decide) only [decodeFields_87, Fields.ty, Fields.clsTy, Fields.rnd, Fields.fnBit, Fields.dst, Fields.srcA, Fields.srcB, Fields.srcC, Fields.msrcA,
    Fields.msrcB, Fields.msrcC, Fields.predD, Fields.predA, Fields.predB, Fields.predC, Fields.space, Fields.width, Fields.hint,
    Fields.imm, immFields, fnInt, fnFlt, fnBits, clsBit, b1, BitVec.extractLsb'_append_eq_of_le,
    BitVec.extractLsb'_append_eq_of_add_le, BitVec.getLsbD_append]
    simp)

theorem RoundTrip.lyset (h space hint grp base off) : RoundTrip.Statement (.lyset h space hint grp base off) := fun hw =>
  decode_of_fields (j := .lyset h space hint grp base off) rfl rfl hw (by
    simp (disch := decide) only [decodeFields_88, Fields.ty, Fields.clsTy, Fields.rnd, Fields.fnBit, Fields.dst, Fields.srcA, Fields.srcB, Fields.srcC, Fields.msrcA,
    Fields.msrcB, Fields.msrcC, Fields.predD, Fields.predA, Fields.predB, Fields.predC, Fields.space, Fields.width, Fields.hint,
    Fields.imm, immFields, fnInt, fnFlt, fnBits, clsBit, b1, BitVec.extractLsb'_append_eq_of_le,
    BitVec.extractLsb'_append_eq_of_add_le, BitVec.getLsbD_append]
    simp)

theorem RoundTrip.tdesc (h t a b) : RoundTrip.Statement (.tdesc h t a b) := fun hw =>
  decode_of_fields (j := .tdesc h t a b) rfl rfl hw (by
    simp (disch := decide) only [decodeFields_90, Fields.ty, Fields.clsTy, Fields.rnd, Fields.fnBit, Fields.dst, Fields.srcA, Fields.srcB, Fields.srcC, Fields.msrcA,
    Fields.msrcB, Fields.msrcC, Fields.predD, Fields.predA, Fields.predB, Fields.predC, Fields.space, Fields.width, Fields.hint,
    Fields.imm, immFields, fnInt, fnFlt, fnBits, clsBit, b1, BitVec.extractLsb'_append_eq_of_le,
    BitVec.extractLsb'_append_eq_of_add_le, BitVec.getLsbD_append]
    simp)

theorem RoundTrip.mzero (h i96 acc) : RoundTrip.Statement (.mzero h i96 acc) := fun hw =>
  decode_of_fields (j := .mzero h i96 acc) rfl rfl hw (by
    simp (disch := decide) only [decodeFields_91, Fields.ty, Fields.clsTy, Fields.rnd, Fields.fnBit, Fields.dst, Fields.srcA, Fields.srcB, Fields.srcC, Fields.msrcA,
    Fields.msrcB, Fields.msrcC, Fields.predD, Fields.predA, Fields.predB, Fields.predC, Fields.space, Fields.width, Fields.hint,
    Fields.imm, immFields, fnInt, fnFlt, fnBits, clsBit, b1, BitVec.extractLsb'_append_eq_of_le,
    BitVec.extractLsb'_append_eq_of_add_le, BitVec.getLsbD_append]
    simp)

theorem RoundTrip.mma (h tb acc ta tb') : RoundTrip.Statement (.mma h tb acc ta tb') := fun hw =>
  decode_of_fields (j := .mma h tb acc ta tb') rfl rfl hw (by
    simp (disch := decide) only [decodeFields_92, Fields.ty, Fields.clsTy, Fields.rnd, Fields.fnBit, Fields.dst, Fields.srcA, Fields.srcB, Fields.srcC, Fields.msrcA,
    Fields.msrcB, Fields.msrcC, Fields.predD, Fields.predA, Fields.predB, Fields.predC, Fields.space, Fields.width, Fields.hint,
    Fields.imm, immFields, fnInt, fnFlt, fnBits, clsBit, b1, BitVec.extractLsb'_append_eq_of_le,
    BitVec.extractLsb'_append_eq_of_add_le, BitVec.getLsbD_append]
    simp)

theorem RoundTrip.mmab (h scaled ctr planes acc ta tb') : RoundTrip.Statement (.mmab h scaled ctr planes acc ta tb') := fun hw =>
  decode_of_fields (j := .mmab h scaled ctr planes acc ta tb') rfl rfl hw (by
    simp (disch := decide) only [decodeFields_93, Fields.ty, Fields.clsTy, Fields.rnd, Fields.fnBit, Fields.dst, Fields.srcA, Fields.srcB, Fields.srcC, Fields.msrcA,
    Fields.msrcB, Fields.msrcC, Fields.predD, Fields.predA, Fields.predB, Fields.predC, Fields.space, Fields.width, Fields.hint,
    Fields.imm, immFields, fnInt, fnFlt, fnBits, clsBit, b1, BitVec.extractLsb'_append_eq_of_le,
    BitVec.extractLsb'_append_eq_of_add_le, BitVec.getLsbD_append]
    simp)

theorem RoundTrip.mdrain (h space hint clr add tok acc tile grp) : RoundTrip.Statement (.mdrain h space hint clr add tok acc tile grp) := fun hw =>
  decode_of_fields (j := .mdrain h space hint clr add tok acc tile grp) rfl rfl hw (by
    simp (disch := decide) only [decodeFields_94, Fields.ty, Fields.clsTy, Fields.rnd, Fields.fnBit, Fields.dst, Fields.srcA, Fields.srcB, Fields.srcC, Fields.msrcA,
    Fields.msrcB, Fields.msrcC, Fields.predD, Fields.predA, Fields.predB, Fields.predC, Fields.space, Fields.width, Fields.hint,
    Fields.imm, immFields, fnInt, fnFlt, fnBits, clsBit, b1, BitVec.extractLsb'_append_eq_of_le,
    BitVec.extractLsb'_append_eq_of_add_le, BitVec.getLsbD_append]
    simp)

theorem RoundTrip.ocmp (h mode d x y) : RoundTrip.Statement (.ocmp h mode d x y) := fun hw =>
  decode_of_fields (j := .ocmp h mode d x y) rfl rfl hw (by
    simp (disch := decide) only [decodeFields_95, Fields.ty, Fields.clsTy, Fields.rnd, Fields.fnBit, Fields.dst, Fields.srcA, Fields.srcB, Fields.srcC, Fields.msrcA,
    Fields.msrcB, Fields.msrcC, Fields.predD, Fields.predA, Fields.predB, Fields.predC, Fields.space, Fields.width, Fields.hint,
    Fields.imm, immFields, fnInt, fnFlt, fnBits, clsBit, b1, BitVec.extractLsb'_append_eq_of_le,
    BitVec.extractLsb'_append_eq_of_add_le, BitVec.getLsbD_append]
    simp)

theorem RoundTrip.rcount (h d a) : RoundTrip.Statement (.rcount h d a) := fun hw =>
  decode_of_fields (j := .rcount h d a) rfl rfl hw (by
    simp (disch := decide) only [decodeFields_96, Fields.ty, Fields.clsTy, Fields.rnd, Fields.fnBit, Fields.dst, Fields.srcA, Fields.srcB, Fields.srcC, Fields.msrcA,
    Fields.msrcB, Fields.msrcC, Fields.predD, Fields.predA, Fields.predB, Fields.predC, Fields.space, Fields.width, Fields.hint,
    Fields.imm, immFields, fnInt, fnFlt, fnBits, clsBit, b1, BitVec.extractLsb'_append_eq_of_le,
    BitVec.extractLsb'_append_eq_of_add_le, BitVec.getLsbD_append]
    simp)

theorem RoundTrip.rclose (h refl d a) : RoundTrip.Statement (.rclose h refl d a) := fun hw =>
  decode_of_fields (j := .rclose h refl d a) rfl rfl hw (by
    simp (disch := decide) only [decodeFields_97, Fields.ty, Fields.clsTy, Fields.rnd, Fields.fnBit, Fields.dst, Fields.srcA, Fields.srcB, Fields.srcC, Fields.msrcA,
    Fields.msrcB, Fields.msrcC, Fields.predD, Fields.predA, Fields.predB, Fields.predC, Fields.space, Fields.width, Fields.hint,
    Fields.imm, immFields, fnInt, fnFlt, fnBits, clsBit, b1, BitVec.extractLsb'_append_eq_of_le,
    BitVec.extractLsb'_append_eq_of_add_le, BitVec.getLsbD_append]
    simp)

theorem RoundTrip.rcomp (h d a b) : RoundTrip.Statement (.rcomp h d a b) := fun hw =>
  decode_of_fields (j := .rcomp h d a b) rfl rfl hw (by
    simp (disch := decide) only [decodeFields_98, Fields.ty, Fields.clsTy, Fields.rnd, Fields.fnBit, Fields.dst, Fields.srcA, Fields.srcB, Fields.srcC, Fields.msrcA,
    Fields.msrcB, Fields.msrcC, Fields.predD, Fields.predA, Fields.predB, Fields.predC, Fields.space, Fields.width, Fields.hint,
    Fields.imm, immFields, fnInt, fnFlt, fnBits, clsBit, b1, BitVec.extractLsb'_append_eq_of_le,
    BitVec.extractLsb'_append_eq_of_add_le, BitVec.getLsbD_append]
    simp)

theorem RoundTrip.rtrans (h d a) : RoundTrip.Statement (.rtrans h d a) := fun hw =>
  decode_of_fields (j := .rtrans h d a) rfl rfl hw (by
    simp (disch := decide) only [decodeFields_99, Fields.ty, Fields.clsTy, Fields.rnd, Fields.fnBit, Fields.dst, Fields.srcA, Fields.srcB, Fields.srcC, Fields.msrcA,
    Fields.msrcB, Fields.msrcC, Fields.predD, Fields.predA, Fields.predB, Fields.predC, Fields.space, Fields.width, Fields.hint,
    Fields.imm, immFields, fnInt, fnFlt, fnBits, clsBit, b1, BitVec.extractLsb'_append_eq_of_le,
    BitVec.extractLsb'_append_eq_of_add_le, BitVec.getLsbD_append]
    simp)

theorem RoundTrip.qcvt (h k a mask dst q) : RoundTrip.Statement (.qcvt h k a mask dst q) := fun hw =>
  decode_of_fields (j := .qcvt h k a mask dst q) rfl rfl hw (by
    simp (disch := decide) only [decodeFields_9A, Fields.ty, Fields.clsTy, Fields.rnd, Fields.fnBit, Fields.dst, Fields.srcA, Fields.srcB, Fields.srcC, Fields.msrcA,
    Fields.msrcB, Fields.msrcC, Fields.predD, Fields.predA, Fields.predB, Fields.predC, Fields.space, Fields.width, Fields.hint,
    Fields.imm, immFields, fnInt, fnFlt, fnBits, clsBit, b1, BitVec.extractLsb'_append_eq_of_le,
    BitVec.extractLsb'_append_eq_of_add_le, BitVec.getLsbD_append]
    simp)

theorem RoundTrip.qexp (h ctr planes d a m q) : RoundTrip.Statement (.qexp h ctr planes d a m q) := fun hw =>
  decode_of_fields (j := .qexp h ctr planes d a m q) rfl rfl hw (by
    simp (disch := decide) only [decodeFields_9B, Fields.ty, Fields.clsTy, Fields.rnd, Fields.fnBit, Fields.dst, Fields.srcA, Fields.srcB, Fields.srcC, Fields.msrcA,
    Fields.msrcB, Fields.msrcC, Fields.predD, Fields.predA, Fields.predB, Fields.predC, Fields.space, Fields.width, Fields.hint,
    Fields.imm, immFields, fnInt, fnFlt, fnBits, clsBit, b1, BitVec.extractLsb'_append_eq_of_le,
    BitVec.extractLsb'_append_eq_of_add_le, BitVec.getLsbD_append]
    simp)

theorem RoundTrip.barMeet (h id part) : RoundTrip.Statement (.barMeet h id part) := fun hw =>
  decode_of_fields (j := .barMeet h id part) rfl rfl hw (by
    simp (disch := decide) only [decodeFields_A0, Fields.ty, Fields.clsTy, Fields.rnd, Fields.fnBit, Fields.dst, Fields.srcA, Fields.srcB, Fields.srcC, Fields.msrcA,
    Fields.msrcB, Fields.msrcC, Fields.predD, Fields.predA, Fields.predB, Fields.predC, Fields.space, Fields.width, Fields.hint,
    Fields.imm, immFields, fnInt, fnFlt, fnBits, clsBit, b1, BitVec.extractLsb'_append_eq_of_le,
    BitVec.extractLsb'_append_eq_of_add_le, BitVec.getLsbD_append]
    simp)

theorem RoundTrip.barPost (h id part) : RoundTrip.Statement (.barPost h id part) := fun hw =>
  decode_of_fields (j := .barPost h id part) rfl rfl hw (by
    simp (disch := decide) only [decodeFields_A0, Fields.ty, Fields.clsTy, Fields.rnd, Fields.fnBit, Fields.dst, Fields.srcA, Fields.srcB, Fields.srcC, Fields.msrcA,
    Fields.msrcB, Fields.msrcC, Fields.predD, Fields.predA, Fields.predB, Fields.predC, Fields.space, Fields.width, Fields.hint,
    Fields.imm, immFields, fnInt, fnFlt, fnBits, clsBit, b1, BitVec.extractLsb'_append_eq_of_le,
    BitVec.extractLsb'_append_eq_of_add_le, BitVec.getLsbD_append]
    simp)

theorem RoundTrip.barAwait (h id) : RoundTrip.Statement (.barAwait h id) := fun hw =>
  decode_of_fields (j := .barAwait h id) rfl rfl hw (by
    simp (disch := decide) only [decodeFields_A0, Fields.ty, Fields.clsTy, Fields.rnd, Fields.fnBit, Fields.dst, Fields.srcA, Fields.srcB, Fields.srcC, Fields.msrcA,
    Fields.msrcB, Fields.msrcC, Fields.predD, Fields.predA, Fields.predB, Fields.predC, Fields.space, Fields.width, Fields.hint,
    Fields.imm, immFields, fnInt, fnFlt, fnBits, clsBit, b1, BitVec.extractLsb'_append_eq_of_le,
    BitVec.extractLsb'_append_eq_of_add_le, BitVec.getLsbD_append]
    simp)

theorem RoundTrip.rwatchOff (h) : RoundTrip.Statement (.rwatchOff h) := fun hw =>
  decode_of_fields (j := .rwatchOff h) rfl rfl hw (by
    simp (disch := decide) only [decodeFields_A1, Fields.ty, Fields.clsTy, Fields.rnd, Fields.fnBit, Fields.dst, Fields.srcA, Fields.srcB, Fields.srcC, Fields.msrcA,
    Fields.msrcB, Fields.msrcC, Fields.predD, Fields.predA, Fields.predB, Fields.predC, Fields.space, Fields.width, Fields.hint,
    Fields.imm, immFields, fnInt, fnFlt, fnBits, clsBit, b1, BitVec.extractLsb'_append_eq_of_le,
    BitVec.extractLsb'_append_eq_of_add_le, BitVec.getLsbD_append]
    simp)

theorem RoundTrip.rwatchOn (h) : RoundTrip.Statement (.rwatchOn h) := fun hw =>
  decode_of_fields (j := .rwatchOn h) rfl rfl hw (by
    simp (disch := decide) only [decodeFields_A1, Fields.ty, Fields.clsTy, Fields.rnd, Fields.fnBit, Fields.dst, Fields.srcA, Fields.srcB, Fields.srcC, Fields.msrcA,
    Fields.msrcB, Fields.msrcC, Fields.predD, Fields.predA, Fields.predB, Fields.predC, Fields.space, Fields.width, Fields.hint,
    Fields.imm, immFields, fnInt, fnFlt, fnBits, clsBit, b1, BitVec.extractLsb'_append_eq_of_le,
    BitVec.extractLsb'_append_eq_of_add_le, BitVec.getLsbD_append]
    simp)

theorem RoundTrip.rwatchClr (h) : RoundTrip.Statement (.rwatchClr h) := fun hw =>
  decode_of_fields (j := .rwatchClr h) rfl rfl hw (by
    simp (disch := decide) only [decodeFields_A1, Fields.ty, Fields.clsTy, Fields.rnd, Fields.fnBit, Fields.dst, Fields.srcA, Fields.srcB, Fields.srcC, Fields.msrcA,
    Fields.msrcB, Fields.msrcC, Fields.predD, Fields.predA, Fields.predB, Fields.predC, Fields.space, Fields.width, Fields.hint,
    Fields.imm, immFields, fnInt, fnFlt, fnBits, clsBit, b1, BitVec.extractLsb'_append_eq_of_le,
    BitVec.extractLsb'_append_eq_of_add_le, BitVec.getLsbD_append]
    simp)

theorem RoundTrip.atom (h ty op space order scope d a b c) : RoundTrip.Statement (.atom h ty op space order scope d a b c) := fun hw =>
  decode_of_fields (j := .atom h ty op space order scope d a b c) rfl rfl hw (by
    have hc : casOperand ⟨h, 0xA8, d.code, a.code, b.code, optSrcCode c,
        ty.code ++ op.code ++ space.code ++ order.code ++ scope.code ++ 0#1⟩ = some c := by
      simp (disch := decide) only [casOperand, BitVec.extractLsb'_append_eq_of_le, BitVec.extractLsb'_append_eq_of_add_le]
      simp only [Instr.wellFormed, Bool.and_eq_true] at hw
      obtain ⟨⟨-, hc⟩, -⟩ := hw
      cases c <;> cases op <;> simp [AtomOp.code, optSrcCode] at hc ⊢
    simp (disch := decide) only [decodeFields_A8, hc, Fields.ty, Fields.clsTy, Fields.rnd, Fields.fnBit, Fields.dst, Fields.srcA, Fields.srcB, Fields.srcC, Fields.msrcA,
    Fields.msrcB, Fields.msrcC, Fields.predD, Fields.predA, Fields.predB, Fields.predC, Fields.space, Fields.width, Fields.hint,
    Fields.imm, immFields, fnInt, fnFlt, fnBits, clsBit, b1, BitVec.extractLsb'_append_eq_of_le,
    BitVec.extractLsb'_append_eq_of_add_le, BitVec.getLsbD_append]
    simp)

theorem RoundTrip.fence (h order scope) : RoundTrip.Statement (.fence h order scope) := fun hw =>
  decode_of_fields (j := .fence h order scope) rfl rfl hw (by
    simp (disch := decide) only [decodeFields_A9, Fields.ty, Fields.clsTy, Fields.rnd, Fields.fnBit, Fields.dst, Fields.srcA, Fields.srcB, Fields.srcC, Fields.msrcA,
    Fields.msrcB, Fields.msrcC, Fields.predD, Fields.predA, Fields.predB, Fields.predC, Fields.space, Fields.width, Fields.hint,
    Fields.imm, immFields, fnInt, fnFlt, fnBits, clsBit, b1, BitVec.extractLsb'_append_eq_of_le,
    BitVec.extractLsb'_append_eq_of_add_le, BitVec.getLsbD_append]
    simp)

theorem RoundTrip.gbarMeet (h) : RoundTrip.Statement (.gbarMeet h) := fun hw =>
  decode_of_fields (j := .gbarMeet h) rfl rfl hw (by
    simp (disch := decide) only [decodeFields_AA, Fields.ty, Fields.clsTy, Fields.rnd, Fields.fnBit, Fields.dst, Fields.srcA, Fields.srcB, Fields.srcC, Fields.msrcA,
    Fields.msrcB, Fields.msrcC, Fields.predD, Fields.predA, Fields.predB, Fields.predC, Fields.space, Fields.width, Fields.hint,
    Fields.imm, immFields, fnInt, fnFlt, fnBits, clsBit, b1, BitVec.extractLsb'_append_eq_of_le,
    BitVec.extractLsb'_append_eq_of_add_le, BitVec.getLsbD_append]
    simp)

theorem RoundTrip.gbarPost (h) : RoundTrip.Statement (.gbarPost h) := fun hw =>
  decode_of_fields (j := .gbarPost h) rfl rfl hw (by
    simp (disch := decide) only [decodeFields_AA, Fields.ty, Fields.clsTy, Fields.rnd, Fields.fnBit, Fields.dst, Fields.srcA, Fields.srcB, Fields.srcC, Fields.msrcA,
    Fields.msrcB, Fields.msrcC, Fields.predD, Fields.predA, Fields.predB, Fields.predC, Fields.space, Fields.width, Fields.hint,
    Fields.imm, immFields, fnInt, fnFlt, fnBits, clsBit, b1, BitVec.extractLsb'_append_eq_of_le,
    BitVec.extractLsb'_append_eq_of_add_le, BitVec.getLsbD_append]
    simp)

theorem RoundTrip.gbarAwait (h) : RoundTrip.Statement (.gbarAwait h) := fun hw =>
  decode_of_fields (j := .gbarAwait h) rfl rfl hw (by
    simp (disch := decide) only [decodeFields_AA, Fields.ty, Fields.clsTy, Fields.rnd, Fields.fnBit, Fields.dst, Fields.srcA, Fields.srcB, Fields.srcC, Fields.msrcA,
    Fields.msrcB, Fields.msrcC, Fields.predD, Fields.predA, Fields.predB, Fields.predC, Fields.space, Fields.width, Fields.hint,
    Fields.imm, immFields, fnInt, fnFlt, fnBits, clsBit, b1, BitVec.extractLsb'_append_eq_of_le,
    BitVec.extractLsb'_append_eq_of_add_le, BitVec.getLsbD_append]
    simp)

theorem RoundTrip.launch (h tok q r) : RoundTrip.Statement (.launch h tok q r) := fun hw =>
  decode_of_fields (j := .launch h tok q r) rfl rfl hw (by
    simp (disch := decide) only [decodeFields_AB, Fields.ty, Fields.clsTy, Fields.rnd, Fields.fnBit, Fields.dst, Fields.srcA, Fields.srcB, Fields.srcC, Fields.msrcA,
    Fields.msrcB, Fields.msrcC, Fields.predD, Fields.predA, Fields.predB, Fields.predC, Fields.space, Fields.width, Fields.hint,
    Fields.imm, immFields, fnInt, fnFlt, fnBits, clsBit, b1, BitVec.extractLsb'_append_eq_of_le,
    BitVec.extractLsb'_append_eq_of_add_le, BitVec.getLsbD_append]
    simp)

theorem RoundTrip.lcount (h tok c) : RoundTrip.Statement (.lcount h tok c) := fun hw =>
  decode_of_fields (j := .lcount h tok c) rfl rfl hw (by
    simp (disch := decide) only [decodeFields_AC, Fields.ty, Fields.clsTy, Fields.rnd, Fields.fnBit, Fields.dst, Fields.srcA, Fields.srcB, Fields.srcC, Fields.msrcA,
    Fields.msrcB, Fields.msrcC, Fields.predD, Fields.predA, Fields.predB, Fields.predC, Fields.space, Fields.width, Fields.hint,
    Fields.imm, immFields, fnInt, fnFlt, fnBits, clsBit, b1, BitVec.extractLsb'_append_eq_of_le,
    BitVec.extractLsb'_append_eq_of_add_le, BitVec.getLsbD_append]
    simp)

theorem RoundTrip.qwork (h grp t i) : RoundTrip.Statement (.qwork h grp t i) := fun hw =>
  decode_of_fields (j := .qwork h grp t i) rfl rfl hw (by
    simp (disch := decide) only [decodeFields_AD, Fields.ty, Fields.clsTy, Fields.rnd, Fields.fnBit, Fields.dst, Fields.srcA, Fields.srcB, Fields.srcC, Fields.msrcA,
    Fields.msrcB, Fields.msrcC, Fields.predD, Fields.predA, Fields.predB, Fields.predC, Fields.space, Fields.width, Fields.hint,
    Fields.imm, immFields, fnInt, fnFlt, fnBits, clsBit, b1, BitVec.extractLsb'_append_eq_of_le,
    BitVec.extractLsb'_append_eq_of_add_le, BitVec.getLsbD_append]
    simp)

theorem RoundTrip.pctlRd (h d a) : RoundTrip.Statement (.pctlRd h d a) := fun hw =>
  decode_of_fields (j := .pctlRd h d a) rfl rfl hw (by
    simp (disch := decide) only [decodeFields_B0, Fields.ty, Fields.clsTy, Fields.rnd, Fields.fnBit, Fields.dst, Fields.srcA, Fields.srcB, Fields.srcC, Fields.msrcA,
    Fields.msrcB, Fields.msrcC, Fields.predD, Fields.predA, Fields.predB, Fields.predC, Fields.space, Fields.width, Fields.hint,
    Fields.imm, immFields, fnInt, fnFlt, fnBits, clsBit, b1, BitVec.extractLsb'_append_eq_of_le,
    BitVec.extractLsb'_append_eq_of_add_le, BitVec.getLsbD_append]
    simp)

theorem RoundTrip.pctlWr (h d a b) : RoundTrip.Statement (.pctlWr h d a b) := fun hw =>
  decode_of_fields (j := .pctlWr h d a b) rfl rfl hw (by
    simp (disch := decide) only [decodeFields_B0, Fields.ty, Fields.clsTy, Fields.rnd, Fields.fnBit, Fields.dst, Fields.srcA, Fields.srcB, Fields.srcC, Fields.msrcA,
    Fields.msrcB, Fields.msrcC, Fields.predD, Fields.predA, Fields.predB, Fields.predC, Fields.space, Fields.width, Fields.hint,
    Fields.imm, immFields, fnInt, fnFlt, fnBits, clsBit, b1, BitVec.extractLsb'_append_eq_of_le,
    BitVec.extractLsb'_append_eq_of_add_le, BitVec.getLsbD_append]
    simp)

theorem RoundTrip.pctlWrQcfg (h d a b) : RoundTrip.Statement (.pctlWrQcfg h d a b) := fun hw =>
  decode_of_fields (j := .pctlWr h d a b) rfl rfl hw (by
    simp (disch := decide) only [decodeFields_B0, Fields.ty, Fields.clsTy, Fields.rnd, Fields.fnBit, Fields.dst, Fields.srcA, Fields.srcB, Fields.srcC, Fields.msrcA,
    Fields.msrcB, Fields.msrcC, Fields.predD, Fields.predA, Fields.predB, Fields.predC, Fields.space, Fields.width, Fields.hint,
    Fields.imm, immFields, fnInt, fnFlt, fnBits, clsBit, b1, BitVec.extractLsb'_append_eq_of_le,
    BitVec.extractLsb'_append_eq_of_add_le, BitVec.getLsbD_append]
    simp)

theorem RoundTrip.pctlWrQuota (h d a b) : RoundTrip.Statement (.pctlWrQuota h d a b) := fun hw =>
  decode_of_fields (j := .pctlWr h d a b) rfl rfl hw (by
    simp (disch := decide) only [decodeFields_B0, Fields.ty, Fields.clsTy, Fields.rnd, Fields.fnBit, Fields.dst, Fields.srcA, Fields.srcB, Fields.srcC, Fields.msrcA,
    Fields.msrcB, Fields.msrcC, Fields.predD, Fields.predA, Fields.predB, Fields.predC, Fields.space, Fields.width, Fields.hint,
    Fields.imm, immFields, fnInt, fnFlt, fnBits, clsBit, b1, BitVec.extractLsb'_append_eq_of_le,
    BitVec.extractLsb'_append_eq_of_add_le, BitVec.getLsbD_append]
    simp)

theorem RoundTrip.pctlWrIfneg (h d a b) : RoundTrip.Statement (.pctlWrIfneg h d a b) := fun hw =>
  decode_of_fields (j := .pctlWr h d a b) rfl rfl hw (by
    simp (disch := decide) only [decodeFields_B0, Fields.ty, Fields.clsTy, Fields.rnd, Fields.fnBit, Fields.dst, Fields.srcA, Fields.srcB, Fields.srcC, Fields.msrcA,
    Fields.msrcB, Fields.msrcC, Fields.predD, Fields.predA, Fields.predB, Fields.predC, Fields.space, Fields.width, Fields.hint,
    Fields.imm, immFields, fnInt, fnFlt, fnBits, clsBit, b1, BitVec.extractLsb'_append_eq_of_le,
    BitVec.extractLsb'_append_eq_of_add_le, BitVec.getLsbD_append]
    simp)

theorem RoundTrip.pctlWrPwstate (h d a b) : RoundTrip.Statement (.pctlWrPwstate h d a b) := fun hw =>
  decode_of_fields (j := .pctlWr h d a b) rfl rfl hw (by
    simp (disch := decide) only [decodeFields_B0, Fields.ty, Fields.clsTy, Fields.rnd, Fields.fnBit, Fields.dst, Fields.srcA, Fields.srcB, Fields.srcC, Fields.msrcA,
    Fields.msrcB, Fields.msrcC, Fields.predD, Fields.predA, Fields.predB, Fields.predC, Fields.space, Fields.width, Fields.hint,
    Fields.imm, immFields, fnInt, fnFlt, fnBits, clsBit, b1, BitVec.extractLsb'_append_eq_of_le,
    BitVec.extractLsb'_append_eq_of_add_le, BitVec.getLsbD_append]
    simp)

theorem RoundTrip.pctlWrPwcap (h d a b) : RoundTrip.Statement (.pctlWrPwcap h d a b) := fun hw =>
  decode_of_fields (j := .pctlWr h d a b) rfl rfl hw (by
    simp (disch := decide) only [decodeFields_B0, Fields.ty, Fields.clsTy, Fields.rnd, Fields.fnBit, Fields.dst, Fields.srcA, Fields.srcB, Fields.srcC, Fields.msrcA,
    Fields.msrcB, Fields.msrcC, Fields.predD, Fields.predA, Fields.predB, Fields.predC, Fields.space, Fields.width, Fields.hint,
    Fields.imm, immFields, fnInt, fnFlt, fnBits, clsBit, b1, BitVec.extractLsb'_append_eq_of_le,
    BitVec.extractLsb'_append_eq_of_add_le, BitVec.getLsbD_append]
    simp)

theorem RoundTrip.pctlWrFwin (h d a b) : RoundTrip.Statement (.pctlWrFwin h d a b) := fun hw =>
  decode_of_fields (j := .pctlWr h d a b) rfl rfl hw (by
    simp (disch := decide) only [decodeFields_B0, Fields.ty, Fields.clsTy, Fields.rnd, Fields.fnBit, Fields.dst, Fields.srcA, Fields.srcB, Fields.srcC, Fields.msrcA,
    Fields.msrcB, Fields.msrcC, Fields.predD, Fields.predA, Fields.predB, Fields.predC, Fields.space, Fields.width, Fields.hint,
    Fields.imm, immFields, fnInt, fnFlt, fnBits, clsBit, b1, BitVec.extractLsb'_append_eq_of_le,
    BitVec.extractLsb'_append_eq_of_add_le, BitVec.getLsbD_append]
    simp)

theorem RoundTrip.pctlPreempt (h d a b) : RoundTrip.Statement (.pctlPreempt h d a b) := fun hw =>
  decode_of_fields (j := .pctlPreempt h d a b) rfl rfl hw (by
    simp (disch := decide) only [decodeFields_B0, Fields.ty, Fields.clsTy, Fields.rnd, Fields.fnBit, Fields.dst, Fields.srcA, Fields.srcB, Fields.srcC, Fields.msrcA,
    Fields.msrcB, Fields.msrcC, Fields.predD, Fields.predA, Fields.predB, Fields.predC, Fields.space, Fields.width, Fields.hint,
    Fields.imm, immFields, fnInt, fnFlt, fnBits, clsBit, b1, BitVec.extractLsb'_append_eq_of_le,
    BitVec.extractLsb'_append_eq_of_add_le, BitVec.getLsbD_append]
    simp)

theorem RoundTrip.pctlResume (h d a) : RoundTrip.Statement (.pctlResume h d a) := fun hw =>
  decode_of_fields (j := .pctlResume h d a) rfl rfl hw (by
    simp (disch := decide) only [decodeFields_B0, Fields.ty, Fields.clsTy, Fields.rnd, Fields.fnBit, Fields.dst, Fields.srcA, Fields.srcB, Fields.srcC, Fields.msrcA,
    Fields.msrcB, Fields.msrcC, Fields.predD, Fields.predA, Fields.predB, Fields.predC, Fields.space, Fields.width, Fields.hint,
    Fields.imm, immFields, fnInt, fnFlt, fnBits, clsBit, b1, BitVec.extractLsb'_append_eq_of_le,
    BitVec.extractLsb'_append_eq_of_add_le, BitVec.getLsbD_append]
    simp)

theorem RoundTrip.pctlDrain (h d a) : RoundTrip.Statement (.pctlDrain h d a) := fun hw =>
  decode_of_fields (j := .pctlDrain h d a) rfl rfl hw (by
    simp (disch := decide) only [decodeFields_B0, Fields.ty, Fields.clsTy, Fields.rnd, Fields.fnBit, Fields.dst, Fields.srcA, Fields.srcB, Fields.srcC, Fields.msrcA,
    Fields.msrcB, Fields.msrcC, Fields.predD, Fields.predA, Fields.predB, Fields.predC, Fields.space, Fields.width, Fields.hint,
    Fields.imm, immFields, fnInt, fnFlt, fnBits, clsBit, b1, BitVec.extractLsb'_append_eq_of_le,
    BitVec.extractLsb'_append_eq_of_add_le, BitVec.getLsbD_append]
    simp)

theorem RoundTrip.pctlReset (h d a) : RoundTrip.Statement (.pctlReset h d a) := fun hw =>
  decode_of_fields (j := .pctlReset h d a) rfl rfl hw (by
    simp (disch := decide) only [decodeFields_B0, Fields.ty, Fields.clsTy, Fields.rnd, Fields.fnBit, Fields.dst, Fields.srcA, Fields.srcB, Fields.srcC, Fields.msrcA,
    Fields.msrcB, Fields.msrcC, Fields.predD, Fields.predA, Fields.predB, Fields.predC, Fields.space, Fields.width, Fields.hint,
    Fields.imm, immFields, fnInt, fnFlt, fnBits, clsBit, b1, BitVec.extractLsb'_append_eq_of_le,
    BitVec.extractLsb'_append_eq_of_add_le, BitVec.getLsbD_append]
    simp)

theorem RoundTrip.pctlTlbi (h d a b) : RoundTrip.Statement (.pctlTlbi h d a b) := fun hw =>
  decode_of_fields (j := .pctlTlbi h d a b) rfl rfl hw (by
    simp (disch := decide) only [decodeFields_B0, Fields.ty, Fields.clsTy, Fields.rnd, Fields.fnBit, Fields.dst, Fields.srcA, Fields.srcB, Fields.srcC, Fields.msrcA,
    Fields.msrcB, Fields.msrcC, Fields.predD, Fields.predA, Fields.predB, Fields.predC, Fields.space, Fields.width, Fields.hint,
    Fields.imm, immFields, fnInt, fnFlt, fnBits, clsBit, b1, BitVec.extractLsb'_append_eq_of_le,
    BitVec.extractLsb'_append_eq_of_add_le, BitVec.getLsbD_append]
    simp)

theorem RoundTrip.tmwait (h d a) : RoundTrip.Statement (.tmwait h d a) := fun hw =>
  decode_of_fields (j := .tmwait h d a) rfl rfl hw (by
    simp (disch := decide) only [decodeFields_B1, Fields.ty, Fields.clsTy, Fields.rnd, Fields.fnBit, Fields.dst, Fields.srcA, Fields.srcB, Fields.srcC, Fields.msrcA,
    Fields.msrcB, Fields.msrcC, Fields.predD, Fields.predA, Fields.predB, Fields.predC, Fields.space, Fields.width, Fields.hint,
    Fields.imm, immFields, fnInt, fnFlt, fnBits, clsBit, b1, BitVec.extractLsb'_append_eq_of_le,
    BitVec.extractLsb'_append_eq_of_add_le, BitVec.getLsbD_append]
    simp)

theorem RoundTrip.tget (h d pc) : RoundTrip.Statement (.tget h d pc) := fun hw =>
  decode_of_fields (j := .tget h d pc) rfl rfl hw (by
    simp (disch := decide) only [decodeFields_B2, Fields.ty, Fields.clsTy, Fields.rnd, Fields.fnBit, Fields.dst, Fields.srcA, Fields.srcB, Fields.srcC, Fields.msrcA,
    Fields.msrcB, Fields.msrcC, Fields.predD, Fields.predA, Fields.predB, Fields.predC, Fields.space, Fields.width, Fields.hint,
    Fields.imm, immFields, fnInt, fnFlt, fnBits, clsBit, b1, BitVec.extractLsb'_append_eq_of_le,
    BitVec.extractLsb'_append_eq_of_add_le, BitVec.getLsbD_append]
    simp)

theorem RoundTrip.coll (h tok a) : RoundTrip.Statement (.coll h tok a) := fun hw =>
  decode_of_fields (j := .coll h tok a) rfl rfl hw (by
    simp (disch := decide) only [decodeFields_B3, Fields.ty, Fields.clsTy, Fields.rnd, Fields.fnBit, Fields.dst, Fields.srcA, Fields.srcB, Fields.srcC, Fields.msrcA,
    Fields.msrcB, Fields.msrcC, Fields.predD, Fields.predA, Fields.predB, Fields.predC, Fields.space, Fields.width, Fields.hint,
    Fields.imm, immFields, fnInt, fnFlt, fnBits, clsBit, b1, BitVec.extractLsb'_append_eq_of_le,
    BitVec.extractLsb'_append_eq_of_add_le, BitVec.getLsbD_append]
    simp)

theorem RoundTrip.seal (h tok a b) : RoundTrip.Statement (.seal h tok a b) := fun hw =>
  decode_of_fields (j := .seal h tok a b) rfl rfl hw (by
    simp (disch := decide) only [decodeFields_B4, Fields.ty, Fields.clsTy, Fields.rnd, Fields.fnBit, Fields.dst, Fields.srcA, Fields.srcB, Fields.srcC, Fields.msrcA,
    Fields.msrcB, Fields.msrcC, Fields.predD, Fields.predA, Fields.predB, Fields.predC, Fields.space, Fields.width, Fields.hint,
    Fields.imm, immFields, fnInt, fnFlt, fnBits, clsBit, b1, BitVec.extractLsb'_append_eq_of_le,
    BitVec.extractLsb'_append_eq_of_add_le, BitVec.getLsbD_append]
    simp)

theorem RoundTrip.sealOpen (h tok a b) : RoundTrip.Statement (.sealOpen h tok a b) := fun hw =>
  decode_of_fields (j := .sealOpen h tok a b) rfl rfl hw (by
    simp (disch := decide) only [decodeFields_B4, Fields.ty, Fields.clsTy, Fields.rnd, Fields.fnBit, Fields.dst, Fields.srcA, Fields.srcB, Fields.srcC, Fields.msrcA,
    Fields.msrcB, Fields.msrcC, Fields.predD, Fields.predA, Fields.predB, Fields.predC, Fields.space, Fields.width, Fields.hint,
    Fields.imm, immFields, fnInt, fnFlt, fnBits, clsBit, b1, BitVec.extractLsb'_append_eq_of_le,
    BitVec.extractLsb'_append_eq_of_add_le, BitVec.getLsbD_append]
    simp)

theorem RoundTrip.movi (h d imm) : RoundTrip.Statement (.movi h d imm) := fun hw =>
  decode_of_fields (j := .movi h d imm) rfl rfl hw (by
    simp (disch := decide) only [decodeFields_C0, Fields.ty, Fields.clsTy, Fields.rnd, Fields.fnBit, Fields.dst, Fields.srcA, Fields.srcB, Fields.srcC, Fields.msrcA,
    Fields.msrcB, Fields.msrcC, Fields.predD, Fields.predA, Fields.predB, Fields.predC, Fields.space, Fields.width, Fields.hint,
    Fields.imm, immFields, fnInt, fnFlt, fnBits, clsBit, b1, BitVec.extractLsb'_append_eq_of_le,
    BitVec.extractLsb'_append_eq_of_add_le, BitVec.getLsbD_append]
    simp)

theorem RoundTrip.movhi (h d a imm) : RoundTrip.Statement (.movhi h d a imm) := fun hw =>
  decode_of_fields (j := .movhi h d a imm) rfl rfl hw (by
    simp (disch := decide) only [decodeFields_C1, Fields.ty, Fields.clsTy, Fields.rnd, Fields.fnBit, Fields.dst, Fields.srcA, Fields.srcB, Fields.srcC, Fields.msrcA,
    Fields.msrcB, Fields.msrcC, Fields.predD, Fields.predA, Fields.predB, Fields.predC, Fields.space, Fields.width, Fields.hint,
    Fields.imm, immFields, fnInt, fnFlt, fnBits, clsBit, b1, BitVec.extractLsb'_append_eq_of_le,
    BitVec.extractLsb'_append_eq_of_add_le, BitVec.getLsbD_append]
    simp)

theorem RoundTrip.iaddi (h d a imm) : RoundTrip.Statement (.iaddi h d a imm) := fun hw =>
  decode_of_fields (j := .iaddi h d a imm) rfl rfl hw (by
    simp (disch := decide) only [decodeFields_C2, Fields.ty, Fields.clsTy, Fields.rnd, Fields.fnBit, Fields.dst, Fields.srcA, Fields.srcB, Fields.srcC, Fields.msrcA,
    Fields.msrcB, Fields.msrcC, Fields.predD, Fields.predA, Fields.predB, Fields.predC, Fields.space, Fields.width, Fields.hint,
    Fields.imm, immFields, fnInt, fnFlt, fnBits, clsBit, b1, BitVec.extractLsb'_append_eq_of_le,
    BitVec.extractLsb'_append_eq_of_add_le, BitVec.getLsbD_append]
    simp)

theorem RoundTrip.iandi (h d a imm) : RoundTrip.Statement (.iandi h d a imm) := fun hw =>
  decode_of_fields (j := .iandi h d a imm) rfl rfl hw (by
    simp (disch := decide) only [decodeFields_C3, Fields.ty, Fields.clsTy, Fields.rnd, Fields.fnBit, Fields.dst, Fields.srcA, Fields.srcB, Fields.srcC, Fields.msrcA,
    Fields.msrcB, Fields.msrcC, Fields.predD, Fields.predA, Fields.predB, Fields.predC, Fields.space, Fields.width, Fields.hint,
    Fields.imm, immFields, fnInt, fnFlt, fnBits, clsBit, b1, BitVec.extractLsb'_append_eq_of_le,
    BitVec.extractLsb'_append_eq_of_add_le, BitVec.getLsbD_append]
    simp)

theorem RoundTrip.iori (h d a imm) : RoundTrip.Statement (.iori h d a imm) := fun hw =>
  decode_of_fields (j := .iori h d a imm) rfl rfl hw (by
    simp (disch := decide) only [decodeFields_C4, Fields.ty, Fields.clsTy, Fields.rnd, Fields.fnBit, Fields.dst, Fields.srcA, Fields.srcB, Fields.srcC, Fields.msrcA,
    Fields.msrcB, Fields.msrcC, Fields.predD, Fields.predA, Fields.predB, Fields.predC, Fields.space, Fields.width, Fields.hint,
    Fields.imm, immFields, fnInt, fnFlt, fnBits, clsBit, b1, BitVec.extractLsb'_append_eq_of_le,
    BitVec.extractLsb'_append_eq_of_add_le, BitVec.getLsbD_append]
    simp)

theorem RoundTrip.ixori (h d a imm) : RoundTrip.Statement (.ixori h d a imm) := fun hw =>
  decode_of_fields (j := .ixori h d a imm) rfl rfl hw (by
    simp (disch := decide) only [decodeFields_C5, Fields.ty, Fields.clsTy, Fields.rnd, Fields.fnBit, Fields.dst, Fields.srcA, Fields.srcB, Fields.srcC, Fields.msrcA,
    Fields.msrcB, Fields.msrcC, Fields.predD, Fields.predA, Fields.predB, Fields.predC, Fields.space, Fields.width, Fields.hint,
    Fields.imm, immFields, fnInt, fnFlt, fnBits, clsBit, b1, BitVec.extractLsb'_append_eq_of_le,
    BitVec.extractLsb'_append_eq_of_add_le, BitVec.getLsbD_append]
    simp)

theorem RoundTrip.icmpi (h rel pd a imm) : RoundTrip.Statement (.icmpi h rel pd a imm) := fun hw =>
  decode_of_fields (j := .icmpi h rel pd a imm) rfl rfl hw (by
    simp (disch := decide) only [decodeFields_C6, Fields.ty, Fields.clsTy, Fields.rnd, Fields.fnBit, Fields.dst, Fields.srcA, Fields.srcB, Fields.srcC, Fields.msrcA,
    Fields.msrcB, Fields.msrcC, Fields.predD, Fields.predA, Fields.predB, Fields.predC, Fields.space, Fields.width, Fields.hint,
    Fields.imm, immFields, fnInt, fnFlt, fnBits, clsBit, b1, BitVec.extractLsb'_append_eq_of_le,
    BitVec.extractLsb'_append_eq_of_add_le, BitVec.getLsbD_append]
    simp)

theorem RoundTrip.imuli (h d a imm) : RoundTrip.Statement (.imuli h d a imm) := fun hw =>
  decode_of_fields (j := .imuli h d a imm) rfl rfl hw (by
    simp (disch := decide) only [decodeFields_C7, Fields.ty, Fields.clsTy, Fields.rnd, Fields.fnBit, Fields.dst, Fields.srcA, Fields.srcB, Fields.srcC, Fields.msrcA,
    Fields.msrcB, Fields.msrcC, Fields.predD, Fields.predA, Fields.predB, Fields.predC, Fields.space, Fields.width, Fields.hint,
    Fields.imm, immFields, fnInt, fnFlt, fnBits, clsBit, b1, BitVec.extractLsb'_append_eq_of_le,
    BitVec.extractLsb'_append_eq_of_add_le, BitVec.getLsbD_append]
    simp)

theorem RoundTrip.bra (h off) : RoundTrip.Statement (.bra h off) := fun hw =>
  decode_of_fields (j := .bra h off) rfl rfl hw (by
    simp (disch := decide) only [decodeFields_F0, Fields.ty, Fields.clsTy, Fields.rnd, Fields.fnBit, Fields.dst, Fields.srcA, Fields.srcB, Fields.srcC, Fields.msrcA,
    Fields.msrcB, Fields.msrcC, Fields.predD, Fields.predA, Fields.predB, Fields.predC, Fields.space, Fields.width, Fields.hint,
    Fields.imm, immFields, fnInt, fnFlt, fnBits, clsBit, b1, BitVec.extractLsb'_append_eq_of_le,
    BitVec.extractLsb'_append_eq_of_add_le, BitVec.getLsbD_append]
    simp)

theorem RoundTrip.call (h k off) : RoundTrip.Statement (.call h k off) := fun hw =>
  decode_of_fields (j := .call h k off) rfl rfl hw (by
    simp (disch := decide) only [decodeFields_F1, Fields.ty, Fields.clsTy, Fields.rnd, Fields.fnBit, Fields.dst, Fields.srcA, Fields.srcB, Fields.srcC, Fields.msrcA,
    Fields.msrcB, Fields.msrcC, Fields.predD, Fields.predA, Fields.predB, Fields.predC, Fields.space, Fields.width, Fields.hint,
    Fields.imm, immFields, fnInt, fnFlt, fnBits, clsBit, b1, BitVec.extractLsb'_append_eq_of_le,
    BitVec.extractLsb'_append_eq_of_add_le, BitVec.getLsbD_append]
    simp)

theorem RoundTrip.rcv (h off) : RoundTrip.Statement (.rcv h off) := fun hw =>
  decode_of_fields (j := .rcv h off) rfl rfl hw (by
    simp (disch := decide) only [decodeFields_F2, Fields.ty, Fields.clsTy, Fields.rnd, Fields.fnBit, Fields.dst, Fields.srcA, Fields.srcB, Fields.srcC, Fields.msrcA,
    Fields.msrcB, Fields.msrcC, Fields.predD, Fields.predA, Fields.predB, Fields.predC, Fields.space, Fields.width, Fields.hint,
    Fields.imm, immFields, fnInt, fnFlt, fnBits, clsBit, b1, BitVec.extractLsb'_append_eq_of_le,
    BitVec.extractLsb'_append_eq_of_add_le, BitVec.getLsbD_append]
    simp)

theorem RoundTrip.brt (h k tbl) : RoundTrip.Statement (.brt h k tbl) := fun hw =>
  decode_of_fields (j := .brt h k tbl) rfl rfl hw (by
    simp (disch := decide) only [decodeFields_F3, Fields.ty, Fields.clsTy, Fields.rnd, Fields.fnBit, Fields.dst, Fields.srcA, Fields.srcB, Fields.srcC, Fields.msrcA,
    Fields.msrcB, Fields.msrcC, Fields.predD, Fields.predA, Fields.predB, Fields.predC, Fields.space, Fields.width, Fields.hint,
    Fields.imm, immFields, fnInt, fnFlt, fnBits, clsBit, b1, BitVec.extractLsb'_append_eq_of_le,
    BitVec.extractLsb'_append_eq_of_add_le, BitVec.getLsbD_append]
    simp)

theorem RoundTrip.loop (h k off) : RoundTrip.Statement (.loop h k off) := fun hw =>
  decode_of_fields (j := .loop h k off) rfl rfl hw (by
    simp (disch := decide) only [decodeFields_F4, Fields.ty, Fields.clsTy, Fields.rnd, Fields.fnBit, Fields.dst, Fields.srcA, Fields.srcB, Fields.srcC, Fields.msrcA,
    Fields.msrcB, Fields.msrcC, Fields.predD, Fields.predA, Fields.predB, Fields.predC, Fields.space, Fields.width, Fields.hint,
    Fields.imm, immFields, fnInt, fnFlt, fnBits, clsBit, b1, BitVec.extractLsb'_append_eq_of_le,
    BitVec.extractLsb'_append_eq_of_add_le, BitVec.getLsbD_append]
    simp)

theorem RoundTrip.iaddPairSlot (sw x y) : RoundTrip.Statement (.iaddPairSlot sw x y) := fun hw =>
  decode_of_slots (i := .iaddPairSlot sw x y) rfl rfl hw rfl

theorem RoundTrip.isubPairSlot (sw x y) : RoundTrip.Statement (.isubPairSlot sw x y) := fun hw =>
  decode_of_slots (i := .isubPairSlot sw x y) rfl rfl hw rfl

theorem RoundTrip.imulPairSlot (sw x y) : RoundTrip.Statement (.imulPairSlot sw x y) := fun hw =>
  decode_of_slots (i := .imulPairSlot sw x y) rfl rfl hw rfl

theorem RoundTrip.iminPairSlot (sw x y) : RoundTrip.Statement (.iminPairSlot sw x y) := fun hw =>
  decode_of_slots (i := .iminPairSlot sw x y) rfl rfl hw rfl

theorem RoundTrip.imaxPairSlot (sw x y) : RoundTrip.Statement (.imaxPairSlot sw x y) := fun hw =>
  decode_of_slots (i := .imaxPairSlot sw x y) rfl rfl hw rfl

theorem RoundTrip.landPairSlot (sw x y) : RoundTrip.Statement (.landPairSlot sw x y) := fun hw =>
  decode_of_slots (i := .landPairSlot sw x y) rfl rfl hw rfl

theorem RoundTrip.lorPairSlot (sw x y) : RoundTrip.Statement (.lorPairSlot sw x y) := fun hw =>
  decode_of_slots (i := .lorPairSlot sw x y) rfl rfl hw rfl

theorem RoundTrip.lxorPairSlot (sw x y) : RoundTrip.Statement (.lxorPairSlot sw x y) := fun hw =>
  decode_of_slots (i := .lxorPairSlot sw x y) rfl rfl hw rfl

theorem RoundTrip.andnPairSlot (sw x y) : RoundTrip.Statement (.andnPairSlot sw x y) := fun hw =>
  decode_of_slots (i := .andnPairSlot sw x y) rfl rfl hw rfl

theorem RoundTrip.shlPairSlot (sw x y) : RoundTrip.Statement (.shlPairSlot sw x y) := fun hw =>
  decode_of_slots (i := .shlPairSlot sw x y) rfl rfl hw rfl

theorem RoundTrip.shrPairSlot (sw x y) : RoundTrip.Statement (.shrPairSlot sw x y) := fun hw =>
  decode_of_slots (i := .shrPairSlot sw x y) rfl rfl hw rfl

theorem RoundTrip.sarPairSlot (sw x y) : RoundTrip.Statement (.sarPairSlot sw x y) := fun hw =>
  decode_of_slots (i := .sarPairSlot sw x y) rfl rfl hw rfl

theorem RoundTrip.movPairSlot (sw x y) : RoundTrip.Statement (.movPairSlot sw x y) := fun hw =>
  decode_of_slots (i := .movPairSlot sw x y) rfl rfl hw rfl

theorem RoundTrip.popcPairSlot (sw x y) : RoundTrip.Statement (.popcPairSlot sw x y) := fun hw =>
  decode_of_slots (i := .popcPairSlot sw x y) rfl rfl hw rfl

theorem RoundTrip.clzPairSlot (sw x y) : RoundTrip.Statement (.clzPairSlot sw x y) := fun hw =>
  decode_of_slots (i := .clzPairSlot sw x y) rfl rfl hw rfl

theorem RoundTrip.brevPairSlot (sw x y) : RoundTrip.Statement (.brevPairSlot sw x y) := fun hw =>
  decode_of_slots (i := .brevPairSlot sw x y) rfl rfl hw rfl

theorem RoundTrip.faddPairSlot (sw x y) : RoundTrip.Statement (.faddPairSlot sw x y) := fun hw =>
  decode_of_slots (i := .faddPairSlot sw x y) rfl rfl hw rfl

theorem RoundTrip.fsubPairSlot (sw x y) : RoundTrip.Statement (.fsubPairSlot sw x y) := fun hw =>
  decode_of_slots (i := .fsubPairSlot sw x y) rfl rfl hw rfl

theorem RoundTrip.fmulPairSlot (sw x y) : RoundTrip.Statement (.fmulPairSlot sw x y) := fun hw =>
  decode_of_slots (i := .fmulPairSlot sw x y) rfl rfl hw rfl

theorem RoundTrip.fminPairSlot (sw x y) : RoundTrip.Statement (.fminPairSlot sw x y) := fun hw =>
  decode_of_slots (i := .fminPairSlot sw x y) rfl rfl hw rfl

theorem RoundTrip.fmaxPairSlot (sw x y) : RoundTrip.Statement (.fmaxPairSlot sw x y) := fun hw =>
  decode_of_slots (i := .fmaxPairSlot sw x y) rfl rfl hw rfl

theorem RoundTrip.frcpPairSlot (sw x y) : RoundTrip.Statement (.frcpPairSlot sw x y) := fun hw =>
  decode_of_slots (i := .frcpPairSlot sw x y) rfl rfl hw rfl

theorem RoundTrip.frsqPairSlot (sw x y) : RoundTrip.Statement (.frsqPairSlot sw x y) := fun hw =>
  decode_of_slots (i := .frsqPairSlot sw x y) rfl rfl hw rfl

theorem RoundTrip.fsqrtPairSlot (sw x y) : RoundTrip.Statement (.fsqrtPairSlot sw x y) := fun hw =>
  decode_of_slots (i := .fsqrtPairSlot sw x y) rfl rfl hw rfl

theorem RoundTrip.fex2PairSlot (sw x y) : RoundTrip.Statement (.fex2PairSlot sw x y) := fun hw =>
  decode_of_slots (i := .fex2PairSlot sw x y) rfl rfl hw rfl

theorem RoundTrip.flg2PairSlot (sw x y) : RoundTrip.Statement (.flg2PairSlot sw x y) := fun hw =>
  decode_of_slots (i := .flg2PairSlot sw x y) rfl rfl hw rfl

theorem RoundTrip.cvtfPairSlot (sw x y) : RoundTrip.Statement (.cvtfPairSlot sw x y) := fun hw =>
  decode_of_slots (i := .cvtfPairSlot sw x y) rfl rfl hw rfl

theorem RoundTrip.ivaddPairSlot (sw x y) : RoundTrip.Statement (.ivaddPairSlot sw x y) := fun hw =>
  decode_of_slots (i := .ivaddPairSlot sw x y) rfl rfl hw rfl

theorem RoundTrip.ivsubPairSlot (sw x y) : RoundTrip.Statement (.ivsubPairSlot sw x y) := fun hw =>
  decode_of_slots (i := .ivsubPairSlot sw x y) rfl rfl hw rfl

theorem RoundTrip.ivmulPairSlot (sw x y) : RoundTrip.Statement (.ivmulPairSlot sw x y) := fun hw =>
  decode_of_slots (i := .ivmulPairSlot sw x y) rfl rfl hw rfl

theorem RoundTrip.ivhullPairSlot (sw x y) : RoundTrip.Statement (.ivhullPairSlot sw x y) := fun hw =>
  decode_of_slots (i := .ivhullPairSlot sw x y) rfl rfl hw rfl

theorem RoundTrip.ivmeetPairSlot (sw x y) : RoundTrip.Statement (.ivmeetPairSlot sw x y) := fun hw =>
  decode_of_slots (i := .ivmeetPairSlot sw x y) rfl rfl hw rfl

theorem RoundTrip.datapathGrant (core) : RoundTrip.Statement (.datapathGrant core) := fun _ _ he =>
  nomatch (show none = some _ from he)

theorem RoundTrip.variableLatencyWriteback (team issue lane) : RoundTrip.Statement (.variableLatencyWriteback team issue lane) := fun _ _ he =>
  nomatch (show none = some _ from he)

theorem RoundTrip.segmentResume (team) : RoundTrip.Statement (.segmentResume team) := fun _ _ he =>
  nomatch (show none = some _ from he)

theorem RoundTrip.teamEnd (team) : RoundTrip.Statement (.teamEnd team) := fun _ _ he =>
  nomatch (show none = some _ from he)

theorem RoundTrip.scoreboardStallRelease (team) : RoundTrip.Statement (.scoreboardStallRelease team) := fun _ _ he =>
  nomatch (show none = some _ from he)

theorem RoundTrip.asyncOperationStart (cluster op) : RoundTrip.Statement (.asyncOperationStart cluster op) := fun _ _ he =>
  nomatch (show none = some _ from he)

theorem RoundTrip.plainSpAccessPerformed (acc) : RoundTrip.Statement (.plainSpAccessPerformed acc) := fun _ _ he =>
  nomatch (show none = some _ from he)

theorem RoundTrip.copyCompletion (cluster op) : RoundTrip.Statement (.copyCompletion cluster op) := fun _ _ he =>
  nomatch (show none = some _ from he)

theorem RoundTrip.followOnMmaIssue (cluster op) : RoundTrip.Statement (.followOnMmaIssue cluster op) := fun _ _ he =>
  nomatch (show none = some _ from he)

theorem RoundTrip.matrixOperationComplete (cluster op) : RoundTrip.Statement (.matrixOperationComplete cluster op) := fun _ _ he =>
  nomatch (show none = some _ from he)

theorem RoundTrip.layoutSlotLoaded (team slot) : RoundTrip.Statement (.layoutSlotLoaded team slot) := fun _ _ he =>
  nomatch (show none = some _ from he)

theorem RoundTrip.engineFault (cluster op) : RoundTrip.Statement (.engineFault cluster op) := fun _ _ he =>
  nomatch (show none = some _ from he)

theorem RoundTrip.pageRetirementComplete (frame) : RoundTrip.Statement (.pageRetirementComplete frame) := fun _ _ he =>
  nomatch (show none = some _ from he)

theorem RoundTrip.pageWalkComplete (walk) : RoundTrip.Statement (.pageWalkComplete walk) := fun _ _ he =>
  nomatch (show none = some _ from he)

theorem RoundTrip.homeStorePerformed (acc) : RoundTrip.Statement (.homeStorePerformed acc) := fun _ _ he =>
  nomatch (show none = some _ from he)

theorem RoundTrip.l1LineAgeOut (cluster line) : RoundTrip.Statement (.l1LineAgeOut cluster line) := fun _ _ he =>
  nomatch (show none = some _ from he)

theorem RoundTrip.placementDecision (partition) : RoundTrip.Statement (.placementDecision partition) := fun _ _ he =>
  nomatch (show none = some _ from he)

theorem RoundTrip.priorityWaitTimeout (queue) : RoundTrip.Statement (.priorityWaitTimeout queue) := fun _ _ he =>
  nomatch (show none = some _ from he)

theorem RoundTrip.gridCompletion (launch) : RoundTrip.Statement (.gridCompletion launch) := fun _ _ he =>
  nomatch (show none = some _ from he)

theorem RoundTrip.qcfgDeferredApply (queue) : RoundTrip.Statement (.qcfgDeferredApply queue) := fun _ _ he =>
  nomatch (show none = some _ from he)

theorem RoundTrip.watchdogExpiry (queue) : RoundTrip.Statement (.watchdogExpiry queue) := fun _ _ he =>
  nomatch (show none = some _ from he)

theorem RoundTrip.preemptSave (partition) : RoundTrip.Statement (.preemptSave partition) := fun _ _ he =>
  nomatch (show none = some _ from he)

theorem RoundTrip.preemptBudgetExpiry (partition) : RoundTrip.Statement (.preemptBudgetExpiry partition) := fun _ _ he =>
  nomatch (show none = some _ from he)

theorem RoundTrip.quotaChangeApply (partition) : RoundTrip.Statement (.quotaChangeApply partition) := fun _ _ he =>
  nomatch (show none = some _ from he)

theorem RoundTrip.slewNotchStep (cluster) : RoundTrip.Statement (.slewNotchStep cluster) := fun _ _ he =>
  nomatch (show none = some _ from he)

theorem RoundTrip.hoistWaveRelease (launch unit) : RoundTrip.Statement (.hoistWaveRelease launch unit) := fun _ _ he =>
  nomatch (show none = some _ from he)

theorem RoundTrip.capStep : RoundTrip.Statement (.capStep) := fun _ _ he =>
  nomatch (show none = some _ from he)

theorem RoundTrip.sealCompletion (op) : RoundTrip.Statement (.sealCompletion op) := fun _ _ he =>
  nomatch (show none = some _ from he)

theorem RoundTrip.collCommit (tag) : RoundTrip.Statement (.collCommit tag) := fun _ _ he =>
  nomatch (show none = some _ from he)

theorem RoundTrip.collTimeout (tag) : RoundTrip.Statement (.collTimeout tag) := fun _ _ he =>
  nomatch (show none = some _ from he)

theorem RoundTrip.podBarrierRelease (tag) : RoundTrip.Statement (.podBarrierRelease tag) := fun _ _ he =>
  nomatch (show none = some _ from he)

theorem RoundTrip.ptpSyncReceived (master sent delay) : RoundTrip.Statement (.ptpSyncReceived master sent delay) := fun _ _ he =>
  nomatch (show none = some _ from he)

theorem RoundTrip.ptpSyncLoss : RoundTrip.Statement (.ptpSyncLoss) := fun _ _ he =>
  nomatch (show none = some _ from he)

theorem RoundTrip.tmwaitWake (team) : RoundTrip.Statement (.tmwaitWake team) := fun _ _ he =>
  nomatch (show none = some _ from he)

theorem RoundTrip.memoryScrub (block) : RoundTrip.Statement (.memoryScrub block) := fun _ _ he =>
  nomatch (show none = some _ from he)

theorem RoundTrip.doorbellWrite (queue record viaPf) : RoundTrip.Statement (.doorbellWrite queue record viaPf) := fun _ _ he =>
  nomatch (show none = some _ from he)

theorem RoundTrip.hostRequestCompletion (acc ok) : RoundTrip.Statement (.hostRequestCompletion acc ok) := fun _ _ he =>
  nomatch (show none = some _ from he)

theorem RoundTrip.functionLevelReset (vf) : RoundTrip.Statement (.functionLevelReset vf) := fun _ _ he =>
  nomatch (show none = some _ from he)

theorem RoundTrip.packageReset : RoundTrip.Statement (.packageReset) := fun _ _ he =>
  nomatch (show none = some _ from he)

theorem RoundTrip.hostLinkTraining (fails) : RoundTrip.Statement (.hostLinkTraining fails) := fun _ _ he =>
  nomatch (show none = some _ from he)

theorem RoundTrip.retentionWake (source) : RoundTrip.Statement (.retentionWake source) := fun _ _ he =>
  nomatch (show none = some _ from he)

theorem RoundTrip.nodeCapSet (watts) : RoundTrip.Statement (.nodeCapSet watts) := fun _ _ he =>
  nomatch (show none = some _ from he)

theorem RoundTrip.pldmSensorRead (sensor) : RoundTrip.Statement (.pldmSensorRead sensor) := fun _ _ he =>
  nomatch (show none = some _ from he)

theorem RoundTrip.firmwareUpdate (image signature svn) : RoundTrip.Statement (.firmwareUpdate image signature svn) := fun _ _ he =>
  nomatch (show none = some _ from he)

theorem RoundTrip.attestationReport (nonce) : RoundTrip.Statement (.attestationReport nonce) := fun _ _ he =>
  nomatch (show none = some _ from he)

theorem RoundTrip.measurementExtend (reg data) : RoundTrip.Statement (.measurementExtend reg data) := fun _ _ he =>
  nomatch (show none = some _ from he)

theorem RoundTrip.unlockToken (token) : RoundTrip.Statement (.unlockToken token) := fun _ _ he =>
  nomatch (show none = some _ from he)

theorem RoundTrip.debugAccess (kind target value) : RoundTrip.Statement (.debugAccess kind target value) := fun _ _ he =>
  nomatch (show none = some _ from he)

theorem RoundTrip.tarbinPortTraining (port lowVersion highVersion peer peerPort lanes) : RoundTrip.Statement (.tarbinPortTraining port lowVersion highVersion peer peerPort lanes) := fun _ _ he =>
  nomatch (show none = some _ from he)

theorem RoundTrip.flitReplay (port) : RoundTrip.Statement (.flitReplay port) := fun _ _ he =>
  nomatch (show none = some _ from he)

theorem RoundTrip.portLaneFailure (port recovers) : RoundTrip.Statement (.portLaneFailure port recovers) := fun _ _ he =>
  nomatch (show none = some _ from he)

theorem RoundTrip.remoteRequestArrival (r) : RoundTrip.Statement (.remoteRequestArrival r) := fun _ _ he =>
  nomatch (show none = some _ from he)

theorem RoundTrip.remoteAnswerArrival (acc data code ver line) : RoundTrip.Statement (.remoteAnswerArrival acc data code ver line) := fun _ _ he =>
  nomatch (show none = some _ from he)

theorem RoundTrip.remoteStoreAck (acc code) : RoundTrip.Statement (.remoteStoreAck acc code) := fun _ _ he =>
  nomatch (show none = some _ from he)

theorem RoundTrip.collContributionArrival (key member data) : RoundTrip.Statement (.collContributionArrival key member data) := fun _ _ he =>
  nomatch (show none = some _ from he)

theorem RoundTrip.ptpAnnounceReceived (master stratum) : RoundTrip.Statement (.ptpAnnounceReceived master stratum) := fun _ _ he =>
  nomatch (show none = some _ from he)

theorem RoundTrip.hostDeviceMemoryAccess (function addr write) : RoundTrip.Statement (.hostDeviceMemoryAccess function addr write) := fun _ _ he =>
  nomatch (show none = some _ from he)

theorem RoundTrip.flitForward (flit) : RoundTrip.Statement (.flitForward flit) := fun _ _ he =>
  nomatch (show none = some _ from he)

theorem RoundTrip.fabricRangeDrop (package base len version) : RoundTrip.Statement (.fabricRangeDrop package base len version) := fun _ _ he =>
  nomatch (show none = some _ from he)

theorem RoundTrip.collMemberFailure (tag status) : RoundTrip.Statement (.collMemberFailure tag status) := fun _ _ he =>
  nomatch (show none = some _ from he)

theorem RoundTrip.pldmBaseRequest (request) : RoundTrip.Statement (.pldmBaseRequest request) := fun _ _ he =>
  nomatch (show none = some _ from he)

end Sys2Proof.Laws
end

