-- ==== Sys2Proof/Certificates/Slice0/Obligations.lean ====
section
/-! DEFINITION. The statements for the provers. Each docstring names the rules of the spec that it formalises. A word
"completes" in the sense of `Computes` (Safety.lean): exec answers a next state with the result in flight and every other
part of the machine, all registers, flags and memory among them, unchanged. -/

open Sys2Proof Sys2Proof.Machine

-- ===== words and steps =====

/-- Words that the spec writes out, bit by bit from their encodings, decode to the instructions it gives them: one or two of
each class. -/
def Obligations.WorkedEncodings : Prop :=
  let h : Hdr := ⟨false, 0, .isTrue⟩
  let n := fun r => (⟨.n, .v r⟩ : MSrc)
  decode 0x0480_0501_0203_20CA = .ok (.lut3 h .b32 0xCA (.v 5) (.v 1) (.v 2) (.v 3)) ∧
  decode 0x8740_01C1_FF00_1003 = .ok (.icmp ⟨true, 0, .isTrue⟩ .n32 .le 1 (.special .lane) (.const 15)) ∧
  decode 0x3180_5102_FFFF_FFFB = .ok (.icmpi h .ge 1 (.v 2) 0xFFFFFFFB) ∧
  decode 0x0CC0_0301_0201_C000 = .ok (.ffma h .f32 .rne (.v 3) (n 1) (n 2) (n 1)) ∧
  decode 0x10C0_0201_0000_080C = .ok (.cvtfi h .s32 .f32 .rdn (.v 2) (n 1)) ∧
  decode 0x1680_0A04_85C1_E006 = .ok (.ivbis h 10 (n 4) 5 (.special .lane) 6) ∧
  decode 0x3CC0_8400_0000_0000 = .ok (.brt h 4 0) ∧
  decode 0x3D00_8200_FFFF_FFFD = .ok (.loop h 2 0xFFFFFFFD) ∧
  decode 0x1980_0402_0300_0001 = .ok (.pand h true false 4 2 3) ∧
  decode 0x1B40_0502_8300_000C = .ok (.shfl h true .bcast 5 (.v 2) (.k 3) 0) ∧
  decode 0x2044_0003_0148_0000 = .ok (.st ⟨false, 1, .isTrue⟩ .vt .w32 .none (.v 3) (.v 1) 0) ∧
  decode 0x2000_01C0_0068_0004 = .ok (.ld h .cn .w32 .none (.v 1) .zero 4) ∧
  decode 0x20C0_8582_030C_0000 = .ok (.cpy h false true .gl .w64 .none 5 2 3 0) ∧
  decode 0x24C0_0004_0500_0014 = .ok (.mmab h false true 4 0 4 5) ∧
  decode 0x2500_8600_0788_0005 = .ok (.mdrain h .gl .none false true 6 0 7 (some 2)) ∧
  decode 0x2800_0082_0000_0015 = .ok (.barPost h 5 (some 2)) ∧
  decode 0x2A00_0402_0300_1006 = .ok (.atom h .n32 .add .gl .rlx .grid (.v 4) (.v 2) (.v 3) none) ∧
  decode 0x2A40_0000_0000_003A = .ok (.fence h .sc .sys) ∧
  decode 0x2C00_0181_C000_0002 = .ok (.pctlPreempt h (.v 1) 1 none) ∧
  decode 0x2C80_0900_0005_0000 = .ok (.tget h (.v 9) 5) ∧
  decode 0x2D00_8782_8300_0001 = .ok (.sealOpen h 7 2 3)

/-- Every well-formed instruction's word decodes to it, with every operand at every value that the encoding admits; and a word
that decodes is the word of the well-formed instruction that it decodes to, so no two words stand for one instruction and no
bit of a word is ignored (the forms of pctl.wr share their word: R408). -/
def Obligations.EveryWordRoundTrips : Prop :=
  (∀ i : Instr, Laws.RoundTrip.Statement i) ∧
  ∀ (w : BitVec 64) (i : Instr), decode w = .ok i → i.wellFormed = true ∧ encode i = some w

/-- What a step does where a team has been granted the datapath: its due results land, its word is fetched at its pc, eight
bytes in little-endian order, and where they decode to an instruction that the kernel's descriptor allows the step is exec of
that instruction for that team, told to a debugger that traces the partition (R426). It does not issue where a register of it
awaits a scoreboarded result. A pctl.wr goes by the register that K[A] names (R408); every other instruction is itself. -/
def Obligations.StepIssuesTheDecodedWord : Prop :=
  ∀ (s s1 s2 : State) (f pa : Nat) (t u : Team) (i : Instr), s.turn = .issue f → tfind s.teams f = some t → mayIssue s t = true →
    landAt { s with turn := .free } f t.issues = s1 → tfind s1.teams f = some u → lanesGone u = false →
    inText (s1.kernelOf u) u.pc = true → walkTranslate s1 u.partition u.pc .read = (s2, .ok pa) → s2.latent = [] → s2.lost = [] →
    decode (BitVec.ofNat 64 (bytesGet s2.mem pa 8)) = .ok i → launchAllows (s2.kernelOf u) i = true →
    step s = (if wordStalls s2 u (refine u i) then .next s2 else exec (refine u i) { traceIssue s2 f u with cur := f }) ∧
    (s2.bexile.traced.contains u.partition = false → traceIssue s2 f u = s2) ∧
    ((∀ h d a b, i ≠ .pctlWr h d a b) → refine u i = i)

/-- R32: a word that is no instruction's, or that the running kernel forbids, traps: illegal-pair for a word of the P form and
illegal-encoding for any other; so does a word outside the kernel's text, with illegal-encoding. A word of the text that cannot
be fetched kills its block instead. The word is checked before anything else of it, whatever its guard and mask. -/
def Obligations.IllegalWordsTrap : Prop :=
  ∀ (s s1 : State) (f : Nat) (t u : Team), s.turn = .issue f → tfind s.teams f = some t → mayIssue s t = true →
    landAt { s with turn := .free } f t.issues = s1 → tfind s1.teams f = some u → lanesGone u = false →
    (inText (s1.kernelOf u) u.pc = false → step s = .next (trapWord s1 f u .illegalEncoding)) ∧
    (inText (s1.kernelOf u) u.pc = true →
      (∀ s2 w, fetchWord s1 u = (s2, .word w) →
        ((∀ i : Instr, i.wellFormed = true → encode i ≠ some w) ∨
          ∃ i, decode w = .ok i ∧ (namesBadV (s2.kernelOf u).regs i = true ∨
            ∃ h k tbl, i = .brt h k tbl ∧ (s2.kernelOf u).ntab ≤ tbl.toNat)) →
        step s = .next (trapWord s2 f u (if w.getLsbD 62 then .illegalPair else .illegalEncoding))) ∧
      (∀ s2 c, walkTranslate s1 u.partition u.pc .read = (s2, .error c) → ∃ loc word team,
        step s = .next (killBlock s2 f u.block ⟨c.code, 0xFF, word, team, loc⟩)) ∧
      ∀ s2 pa, walkTranslate s1 u.partition u.pc .read = (s2, .ok pa) → ∀ s3, readBlocks s2 pa 8 u.partition u.pc = (s3, true) →
        ∃ loc word team, step s = .next (killBlock s3 f u.block ⟨0x0B, 0xFF, word, team, loc⟩))

/-- Every supervisor register after package reset, as the reset columns of its chapters give it (R357, R397, R405, R409, R415,
R437 and others; secst, 0x204, is fused); and what PACKAGE_RESET leaves: those registers, no team, block or launch, every core
and queue fresh, vaults scrubbed to zero, and the memory beyond them as it was unless the package comes up in open-debug. That
memory keeps its bytes is the model's choice (log 28). -/
def Obligations.ResetRegisters : Prop :=
  let reads := fun (s : State) => ∀ r, r ≠ 0x204 → supRead s r =
    (if r = 0x88 then 0x200080
     else if r = 0x90 then 2 ^ 48 + 8 * 2 ^ 44 + 64 * 2 ^ 34 + 12288 * 2 ^ 14
     else if r = 0x98 then 0xFFF00E2
     else if r = 0xA0 then 0x20
     else if r = 0xB0 then 1
     else if r = 0xD0 then 0x0103_0102_0101
     else if r = 0x200 then 40
     else if r = 0x201 then 2
     else if 0x300 ≤ r ∧ r < 0x320 then 3
     else if r = 0x321 then 0x50C
     else if r = 0x322 then 0x1F40100
     else if r = 0x323 then 0xC80000
     else 0)
  reads State.reset ∧
  ∀ s : State, ∃ s', exec .packageReset s = .next s' ∧ reads s' ∧ s'.teams = [] ∧ s'.blocks = [] ∧ s'.launches = [] ∧
    s'.cores = [] ∧ s'.accs = [] ∧ s'.cycle = 0 ∧ (∀ k, (s'.cluster k).sp = [] ∧ (s'.cluster k).acc = []) ∧
    (∀ a, a < 0x180000000 → tget s'.mem a 0 = 0) ∧
    (s.bexile.pendingSec.getD (Config.fuses.1 % 4) ≠ 2 → ∀ a, 0x180000000 ≤ a → tget s'.mem a 0 = tget s.mem a 0)

/-- Memory keeps its canonical form, addresses strictly rising and no entry of an unlisted byte's value, in every step. -/
def Obligations.StepKeepsMemoryCanonical : Prop :=
  ∀ s s' : State, s.memOk → step s = .next s' → s'.memOk

/-- The memory of the reset state is in canonical form: it lists nothing, and every byte reads as zero (log 3). -/
def Obligations.ResetMemoryIsCanonical : Prop :=
  State.reset.memOk ∧ ∀ a, tget State.reset.mem a 0 = 0

-- ===== the integer class =====

/-- R88: the six arithmetic words complete with fit and wrap of the exact sums and products. R89: iaddx completes with the sum
or difference and the carry or borrow out, undecided where the carry in is. A carry out that names p0 is discarded and D is
still written. R90: idiv completes with the quotient or remainder, at division by zero and at the least value by -1 too, and
raises no flag. R91: magnitudes, negation, extremes, clamping and the four-byte dot product complete with their results. -/
def Obligations.IntegerArithmetic : Prop :=
  (∀ (h : Hdr) (ty : Ty) (sat : Bool) (d : Dst) (a b c : Src),
    ComputesInt2 (.iadd h ty sat d a b) h L4 d a b (fun x y => fitInt ty sat (rdInt ty x + rdInt ty y)) ∧
    ComputesInt2 (.isub h ty sat d a b) h L4 d a b (fun x y => fitInt ty sat (rdInt ty x - rdInt ty y)) ∧
    ComputesInt2 (.imul h ty sat d a b) h L8 d a b (fun x y => fitInt ty sat (rdInt ty x * rdInt ty y)) ∧
    ComputesInt2 (.imulh h ty d a b) h L8 d a b (fun x y => (putInt ty ((rdInt ty x * rdInt ty y) / 2 ^ ty.bits), 0)) ∧
    ComputesInt3 (.imad h ty sat d a b c) h L8 d a b c (fun x y z => fitInt ty sat (rdInt ty x * rdInt ty y + rdInt ty z)) ∧
    ComputesInt3 (.imadw h .s32 d a b c) h L8 d a b c
      (fun x y z => (putInt .s64 (rdInt .s32 x * rdInt .s32 y + rdInt .s64 z), 0)) ∧
    ComputesInt3 (.imadw h .n32 d a b c) h L8 d a b c
      (fun x y z => (putInt .n64 (rdInt .n32 x * rdInt .n32 y + rdInt .n64 z), 0))) ∧
  (∀ (h : Hdr) (ty : Ty) (sub : Bool) (ci : Option (BitVec 4)) (d : Dst) (a b : Src) (co : BitVec 4) (s : State) (t : Team),
    Issuing s t →
    let c := fun l : Nat => match ci with
      | none => (0 : Int)
      | some p => if readP t p.toNat l = 1 then 1 else 0
    let u := fun l : Nat => match ci with
      | none => false
      | some p => readP t p.toNat l == 2
    let x := fun l : Nat =>
      if sub then rdInt ty (readSrc s s.cur t .int a l) - rdInt ty (readSrc s s.cur t .int b l) - c l
      else rdInt ty (readSrc s s.cur t .int a l) + rdInt ty (readSrc s s.cur t .int b l) + c l
    let out := fun l : Nat => if sub then decide (x l < 0) else decide (x l ≥ 2 ^ ty.bits)
    Computes (.iaddx h ty sub ci d a b co) s t h L4
      [(dstReg d, fun l => some (putInt ty (x l))), (pReg co, fun l => some (if u l then 2 else if out l then 1 else 0))]
      fun _ => 0) ∧
  (∀ (h : Hdr) (ty : Ty) (rem : Bool) (d : Dst) (a b : Src),
    ComputesInt2 (.idiv h ty rem d a b) h .variable d a b fun x y =>
      let n := rdInt ty x
      let m := rdInt ty y
      (putInt ty (
        if m = 0 then (if rem then n else 2 ^ ty.bits - 1)
        else if ty.signed = true ∧ n = -(2 ^ (ty.bits - 1)) ∧ m = -1 then (if rem then 0 else -(2 ^ (ty.bits - 1)))
        else if rem then n - Int.tdiv n m * m else Int.tdiv n m), 0)) ∧
  ∀ (h : Hdr) (ty : Ty) (sat ua ub : Bool) (d : Dst) (a b c : Src),
    ComputesInt (.iabs h ty sat d a) h L4 d a (fun x => fitInt ty sat |rdInt ty x|) ∧
    ComputesInt (.ineg h ty sat d a) h L4 d a (fun x => fitInt ty sat (-rdInt ty x)) ∧
    ComputesInt2 (.imin h ty d a b) h L4 d a b (fun x y => (putInt ty (min (rdInt ty x) (rdInt ty y)), 0)) ∧
    ComputesInt2 (.imax h ty d a b) h L4 d a b (fun x y => (putInt ty (max (rdInt ty x) (rdInt ty y)), 0)) ∧
    ComputesInt3 (.iclamp h ty d a b c) h L4 d a b c
      (fun x y z => (putInt ty (min (max (rdInt ty x) (rdInt ty y)) (rdInt ty z)), 0)) ∧
    ComputesInt3 (.idp4 h sat ua ub d a b c) h L8 d a b c (fun x y z =>
      let byte := fun (v : Word) (u : Bool) (i : Nat) => rdInt (if u then .n8 else .s8) (v >>> (8 * i))
      fitInt .s32 sat (rdInt .s32 z + ((List.range 4).map fun i => byte x ua i * byte y ub i).sum))

/-- R92 and R93: the bitwise words complete with a result whose bit i is the function of the operands' bits i that they name,
for i below the width, and 0 above; lut3's is entry (A[i], B[i], C[i]) of its table. None raises a flag. R94: the shifts
complete with a count that is read as .n32 and not masked: a count of the width or more shifts every bit out. -/
def Obligations.BitwiseLogicAndShifts : Prop :=
  (∀ (h : Hdr) (ty : Ty) (tt : BitVec 8) (d : Dst) (a b c : Src),
    ∃ (land lor lxor andn : Word → Word → Word) (lut3 : Word → Word → Word → Word),
      ComputesInt2 (.land h ty d a b) h L4 d a b (fun x y => (land x y, 0)) ∧
      ComputesInt2 (.lor h ty d a b) h L4 d a b (fun x y => (lor x y, 0)) ∧
      ComputesInt2 (.lxor h ty d a b) h L4 d a b (fun x y => (lxor x y, 0)) ∧
      ComputesInt2 (.andn h ty d a b) h L4 d a b (fun x y => (andn x y, 0)) ∧
      ComputesInt3 (.lut3 h ty tt d a b c) h L4 d a b c (fun x y z => (lut3 x y z, 0)) ∧
      ∀ (x y z : Word) (i : Nat), i < 64 →
        let on := decide (i < ty.bits)
        let bit := fun v : Word => v.getLsbD i
        bit (land x y) = (on && (bit x && bit y)) ∧
        bit (lor x y) = (on && (bit x || bit y)) ∧
        bit (lxor x y) = (on && (bit x ^^ bit y)) ∧
        bit (andn x y) = (on && (bit x && !bit y)) ∧
        bit (lut3 x y z) = (on && tt.getLsbD (4 * bit1 (bit x) + 2 * bit1 (bit y) + bit1 (bit z)))) ∧
  ∀ (h : Hdr) (ty : Ty) (d : Dst) (a b c : Src),
    ComputesInt2 (.shl h ty d a b) h L4 d a b (fun x y =>
      let n := y.toNat % 2 ^ 32
      (if n ≥ ty.bits then 0 else BitVec.ofNat 64 (x.toNat % 2 ^ ty.bits * 2 ^ n % 2 ^ ty.bits), 0)) ∧
    ComputesInt2 (.shr h ty d a b) h L4 d a b (fun x y =>
      let n := y.toNat % 2 ^ 32
      (if n ≥ ty.bits then 0 else BitVec.ofNat 64 (x.toNat % 2 ^ ty.bits / 2 ^ n), 0)) ∧
    ComputesInt2 (.sar h ty d a b) h L4 d a b (fun x y =>
      let n := y.toNat % 2 ^ 32
      (putInt ty (if n ≥ ty.bits then (if rdInt ty x < 0 then -1 else 0) else rdInt ty x / 2 ^ n), 0)) ∧
    ComputesInt3 (.fshl h ty d a b c) h L4 d a b c (fun x y z =>
      let m := min (z.toNat % 2 ^ 32) ty.bits
      let pair := x.toNat % 2 ^ ty.bits * 2 ^ ty.bits + y.toNat % 2 ^ ty.bits
      (BitVec.ofNat 64 (pair * 2 ^ m / 2 ^ ty.bits % 2 ^ ty.bits), 0))

/-- R95 and R97: counts and reversals complete: popc counts the set bits of A, clz and ctz the zero bits above the highest and
below the lowest set one, brev mirrors the width; bperm picks bytes by selectors. R96: bfx and bfi complete with a field
clipped at the top of the word, the one extended by its type, the other put into A. -/
def Obligations.BitCountsAndFields : Prop :=
  (∀ (h : Hdr) (ty : Ty) (d : Dst) (a b c : Src),
    ∃ (popc clz ctz brev : Word → Word) (bperm : Word → Word → Word → Word),
      ComputesInt (.popc h ty d a) h L4 d a (fun x => (popc x, 0)) ∧
      ComputesInt (.clz h ty d a) h L4 d a (fun x => (clz x, 0)) ∧
      ComputesInt (.ctz h ty d a) h L4 d a (fun x => (ctz x, 0)) ∧
      ComputesInt (.brev h ty d a) h L4 d a (fun x => (brev x, 0)) ∧
      ComputesInt3 (.bperm h ty d a b c) h L4 d a b c (fun x y z => (bperm x y z, 0)) ∧
      ∀ x y z : Word,
        (popc x).toNat = ((List.range ty.bits).countP fun i => x.getLsbD i) ∧
        (clz x).toNat ≤ ty.bits ∧ (∀ i, i < ty.bits → ty.bits - (clz x).toNat ≤ i → x.getLsbD i = false) ∧
        ((clz x).toNat < ty.bits → x.getLsbD (ty.bits - 1 - (clz x).toNat) = true) ∧
        (ctz x).toNat ≤ ty.bits ∧ (∀ i, i < (ctz x).toNat → x.getLsbD i = false) ∧
        ((ctz x).toNat < ty.bits → x.getLsbD (ctz x).toNat = true) ∧
        (∀ i, i < 64 → (brev x).getLsbD i = (decide (i < ty.bits) && x.getLsbD (ty.bits - 1 - i))) ∧
        ∀ i j, i < ty.bits / 8 → j < 8 →
          let sel := (z.toNat / 2 ^ (4 * i)) % 16
          (ty = .b32 → (bperm x y z).getLsbD (8 * i + j) =
            (decide (sel < 8) && (if sel < 4 then x.getLsbD (8 * sel + j) else y.getLsbD (8 * (sel - 4) + j)))) ∧
          (ty = .b64 → (bperm x y z).getLsbD (8 * i + j) =
            if sel < 8 then x.getLsbD (8 * sel + j) else y.getLsbD (8 * (sel - 8) + j))) ∧
  ∀ (h : Hdr) (ty : Ty) (d : Dst) (a b c : Src),
    ∃ (bfx bfi : Word → Word → Word → Word),
      ComputesInt3 (.bfx h ty d a b c) h L4 d a b c (fun x y z => (bfx x y z, 0)) ∧
      ComputesInt3 (.bfi h ty d a b c) h L4 d a b c (fun x y z => (bfi x y z, 0)) ∧
      ∀ x y z : Word,
        (let pos := y.toNat % 256
         let len := min (z.toNat % 256) (ty.bits - min pos ty.bits)
         (len = 0 → bfx x y z = 0) ∧
         (∀ i, i < len → (bfx x y z).getLsbD i = x.getLsbD (pos + i)) ∧
         (∀ i, len ≤ i → i < ty.bits → 0 < len →
           (bfx x y z).getLsbD i = (ty.signed && x.getLsbD (pos + len - 1)))) ∧
        (let pos := z.toNat % 256
         let len := min (z.toNat / 256 % 256) (ty.bits - min pos ty.bits)
         ∀ i, i < ty.bits → (bfi x y z).getLsbD i =
           if pos ≤ i ∧ i < pos + len then y.getLsbD (i - pos) else x.getLsbD i)

/-- R98 to R102: icmp, sel, cvti, mov and lea complete with their results; sel under .uk leaves D in an undecided lane. -/
def Obligations.CompareSelectConvert : Prop :=
  ∀ (h : Hdr) (ty ts : Ty) (sat : Bool) (rel : Rel) (pol : SelPol) (scale : BitVec 3) (d : Dst) (pd pc : BitVec 4) (a b : Src),
    ComputesPred (.icmp h ty rel pd a b) h pd (fun s f t l =>
      let x := rdInt ty (readSrc s f t .int a l)
      let y := rdInt ty (readSrc s f t .int b l)
      let holds := match rel with
        | .eq => decide (x = y)
        | .ne => decide (x ≠ y)
        | .lt => decide (x < y)
        | .le => decide (x ≤ y)
        | .gt => decide (x > y)
        | .ge => decide (x ≥ y)
      if holds then 1 else 0) ∧
    (∀ s t, Issuing s t → Computes (.sel h ty pol d a b pc) s t h L4
      [(dstReg d, fun l =>
        let p := readP t pc.toNat l
        let pick := fun x : Src => some (BitVec.ofNat 64 ((readSrc s s.cur t .int x l).toNat % 2 ^ ty.bits))
        if p = 1 then pick a else if p = 0 then pick b
        else match pol with
          | .uf => pick b
          | .ut => pick a
          | .uk => none)] fun _ => 0) ∧
    ComputesInt (.cvti h ty ts sat d a) h L4 d a
      (fun x => if ty = .b32 ∨ ty = .b64 then (putInt ty (rdInt ts x), 0) else fitInt ty sat (rdInt ts x)) ∧
    ComputesInt (.mov h ty d a) h L4 d a (fun x => (BitVec.ofNat 64 (x.toNat % 2 ^ ty.bits), 0)) ∧
    ComputesInt2 (.lea h ty scale d a b) h L4 d a b (fun x y => (putInt .n64 (rdInt .n64 x + rdInt ty y * 2 ^ scale.toNat), 0))

/-- R103: the immediate words complete with the effects of the table. -/
def Obligations.ImmediateWords : Prop :=
  ∀ (h : Hdr) (d : Dst) (pd : BitVec 4) (rel : Rel) (a : Src) (imm : BitVec 32),
    ComputesOne (.movi h d imm) h L4 (dstReg d) (fun _ _ _ _ => (imm.setWidth 64, 0)) ∧
    ComputesInt (.movhi h d a imm) h L4 d a (fun x => (imm ++ x.setWidth 32, 0)) ∧
    ComputesInt (.iaddi h d a imm) h L4 d a (fun x => ((x.setWidth 32 + imm).setWidth 64, 0)) ∧
    ComputesInt (.iandi h d a imm) h L4 d a (fun x => ((x.setWidth 32 &&& imm).setWidth 64, 0)) ∧
    ComputesInt (.iori h d a imm) h L4 d a (fun x => ((x.setWidth 32 ||| imm).setWidth 64, 0)) ∧
    ComputesInt (.ixori h d a imm) h L4 d a (fun x => ((x.setWidth 32 ^^^ imm).setWidth 64, 0)) ∧
    ComputesInt (.imuli h d a imm) h L8 d a (fun x => ((x.setWidth 32 * imm).setWidth 64, 0)) ∧
    ComputesPred (.icmpi h rel pd a imm) h pd (fun s f t l =>
      let x := ((readSrc s f t .int a l).setWidth 32 : BitVec 32).toInt
      let holds := match rel with
        | .eq => decide (x = imm.toInt)
        | .ne => decide (x ≠ imm.toInt)
        | .lt => decide (x < imm.toInt)
        | .le => decide (x ≤ imm.toInt)
        | .gt => decide (x > imm.toInt)
        | .ge => decide (x ≥ imm.toInt)
      if holds then 1 else 0)


-- ===== the floating-point class =====

/-- R57 to R59: a magnitude x in the binade above 2^(k + fw) is rounded once: overflow delivers the table of R58 and raises
OF and NX; a tiny result is rounded at the subnormal grid and raises UF and NX where it is inexact; any other is the nearest
multiple of 2^k in the mode and raises NX where it is inexact. A zero keeps its sign and raises nothing. -/
def Obligations.RoundingIsCorrect : Prop :=
  ∀ (fm : Fmt) (r : Rnd) (neg : Bool) (m : Nat) (e k : Int) (sticky : Bool) (x : ℚ),
    fm = .f16 ∨ fm = .bf16 ∨ fm = .f32 ∨ fm = .f64 →
    (fm.round r neg 0 e false = (fm.zero neg, 0)) ∧
    (Stands fm (fun q => q - x) m e sticky → (2 : ℚ) ^ (k + fm.fw) ≤ x → x < (2 : ℚ) ^ (k + fm.fw + 1) →
      ∃ n, Nearest r neg x k n ∧
        let v := n * (2 : ℚ) ^ k
        let out := fm.round r neg m e sticky
        if (2 : ℚ) ^ (fm.bias + 1) ≤ v then
          out = ((match r, neg with
            | .rne, _ | .rdn, true | .rup, false => fm.inf neg
            | _, _ => fm.maxFinite neg), Flags.overflow)
        else if v < (2 : ℚ) ^ (1 - (fm.bias : Int)) then
          ∃ n', Nearest r neg x (1 - (fm.bias : Int) - fm.fw) n' ∧
            out = (fm.zero neg + n',
              if n' * (2 : ℚ) ^ (1 - (fm.bias : Int) - fm.fw) = x then 0 else Flags.underflow)
        else out.1 < 2 ^ fm.width ∧ (∃ m' e', fm.value out.1 = .fin neg m' e') ∧
          (fm.value out.1).rat = (if neg then -v else v) ∧ out.2 = if v = x then 0 else Flags.nx)

/-- R109: fadd, fsub, fmul, ffma and fscale complete with the exact result rounded once. The first clauses are the NaN
operands of R108, then the invalid cases, the infinities and the signs of zeros (R60). R109: fdiv, fsqrt, frcp and frsq
complete with the exact quotient or root rounded once: the significand handed to the one rounding stands for it. Division of a
nonzero number by zero raises DZ; a root of a negative number is invalid. -/
def Obligations.FloatArithmetic : Prop :=
  (∀ (h : Hdr) (ty : Ty) (rnd : Rnd) (d : Dst) (a b c : MSrc) (n : Src),
    let fm := Fmt.ofTy ty
    ∃ (add sub mul : FV → FV → Word × Flags) (fma : FV → FV → FV → Word × Flags) (scale : FV → Int → Word × Flags),
      ComputesFlt2 (.fadd h ty rnd d a b) h L4 d fm a b add ∧
      ComputesFlt2 (.fsub h ty rnd d a b) h L4 d fm a b sub ∧
      ComputesFlt2 (.fmul h ty rnd d a b) h L4 d fm a b mul ∧
      ComputesOne (.ffma h ty rnd d a b c) h L8 (dstReg d)
        (fun s f t l => fma (readFlt s f t fm a l) (readFlt s f t fm b l) (readFlt s f t fm c l)) ∧
      ComputesOne (.fscale h ty rnd d a n) h L4 (dstReg d)
        (fun s f t l => scale (readFlt s f t fm a l) (rdInt .s32 (readSrc s f t .int n l))) ∧
      (∀ x y, (x = .nan ∨ y = .nan → add x y = nanOut fm 0 ∧ sub x y = nanOut fm 0 ∧ mul x y = nanOut fm 0) ∧
        (∀ z, x = .nan ∨ y = .nan ∨ z = .nan → fma x y z = nanOut fm 0)) ∧
      (∀ x y, sub x y = add x y.neg) ∧
      (∀ p q : Bool, add (.inf p) (.inf q) = (if p = q then infOut fm p 0 else nanOut fm Flags.nv) ∧
        mul (.inf p) (.inf q) = infOut fm (p != q) 0) ∧
      (∀ p sx mx ex, let x := FV.fin sx mx ex
        add (.inf p) x = infOut fm p 0 ∧ add x (.inf p) = infOut fm p 0 ∧
        mul (.inf p) x = (if mx = 0 then nanOut fm Flags.nv else infOut fm (p != sx) 0) ∧
        mul x (.inf p) = (if mx = 0 then nanOut fm Flags.nv else infOut fm (p != sx) 0)) ∧
      (∀ sx mx ex sy my ey, let x := FV.fin sx mx ex; let y := FV.fin sy my ey
        RoundedFrom fm rnd (x.rat + y.rat) (if sx = sy then sx else rnd == .rdn) (add x y) ∧
        RoundedFrom fm rnd (x.rat * y.rat) (sx != sy) (mul x y)) ∧
      (∀ x y z : FV, x ≠ .nan → y ≠ .nan → z ≠ .nan →
        match FV.mul x y, z with
        | none, _ => fma x y z = nanOut fm Flags.nv
        | some (.inf p), .inf q => fma x y z = if p = q then infOut fm p 0 else nanOut fm Flags.nv
        | some (.inf p), _ => fma x y z = infOut fm p 0
        | some (.fin ..), .inf q => fma x y z = infOut fm q 0
        | some (.fin sp mp ep), .fin sz mz ez =>
          RoundedFrom fm rnd ((FV.fin sp mp ep).rat + (FV.fin sz mz ez).rat) (if sp = sz then sp else rnd == .rdn) (fma x y z)
        | _, _ => False) ∧
      (∀ k : Int, scale .nan k = nanOut fm 0 ∧ (∀ p, scale (.inf p) k = infOut fm p 0) ∧
        ∀ sx ex, scale (.fin sx 0 ex) k = zeroOut fm sx) ∧
      ∀ (w : Nat) sx mx ex (k : Int), fm.value w = .fin sx mx ex →
        RoundedFrom fm rnd ((FV.fin sx mx ex).rat * (2 : ℚ) ^ k) sx (scale (.fin sx mx ex) k)) ∧
  ∀ (h : Hdr) (ty : Ty) (rnd : Rnd) (d : Dst) (a b : MSrc),
    let fm := Fmt.ofTy ty
    let f32 := Fmt.f32
    ∃ (div : FV → FV → Word × Flags) (sqrt rcp rsq : FV → Word × Flags),
      ComputesFlt2 (.fdiv h ty rnd d a b) h .variable d fm a b div ∧
      ComputesFlt (.fsqrt h ty rnd d a) h .variable d fm a sqrt ∧
      ComputesFlt (.frcp h rnd d a) h L12 d f32 a rcp ∧
      ComputesFlt (.frsq h rnd d a) h L12 d f32 a rsq ∧
      (∀ x, div .nan x = nanOut fm 0 ∧ div x .nan = nanOut fm 0) ∧
      sqrt .nan = nanOut fm 0 ∧ rcp .nan = nanOut f32 0 ∧ rsq .nan = nanOut f32 0 ∧
      (∀ p q : Bool, div (.inf p) (.inf q) = nanOut fm Flags.nv ∧ rcp (.inf p) = zeroOut f32 p) ∧
      sqrt (.inf false) = infOut fm false 0 ∧ sqrt (.inf true) = nanOut fm Flags.nv ∧
      rsq (.inf false) = zeroOut f32 false ∧ rsq (.inf true) = nanOut f32 Flags.nv ∧
      (∀ p sx mx ex, div (.inf p) (.fin sx mx ex) = infOut fm (p != sx) 0 ∧
        div (.fin sx mx ex) (.inf p) = zeroOut fm (sx != p)) ∧
      (∀ sx ex, sqrt (.fin sx 0 ex) = zeroOut fm sx ∧ rcp (.fin sx 0 ex) = infOut f32 sx Flags.dz ∧
        rsq (.fin sx 0 ex) = infOut f32 sx Flags.dz) ∧
      (∀ sx mx ex sy ey, div (.fin sx mx ex) (.fin sy 0 ey) =
        if mx = 0 then nanOut fm Flags.nv else infOut fm (sx != sy) Flags.dz) ∧
      ∀ sx mx ex sy my ey, 0 < my → let x := (FV.fin false mx ex).rat; let y := (FV.fin false my ey).rat
        (mx = 0 → div (.fin sx mx ex) (.fin sy my ey) = zeroOut fm (sx != sy)) ∧
        (0 < mx → ∃ m e st, Stands fm (fun q => q * y - x) m e st ∧
          div (.fin sx mx ex) (.fin sy my ey) = fltOut (fm.round rnd (sx != sy) m e st)) ∧
        (∃ m e st, Stands f32 (fun q => q * y - 1) m e st ∧ rcp (.fin sy my ey) = fltOut (f32.round rnd sy m e st)) ∧
        (if sy then sqrt (.fin sy my ey) = nanOut fm Flags.nv ∧ rsq (.fin sy my ey) = nanOut f32 Flags.nv
         else (∃ m e st, Stands fm (fun q => q * q - y) m e st ∧
             sqrt (.fin sy my ey) = fltOut (fm.round rnd false m e st)) ∧
           ∃ m e st, Stands f32 (fun q => q * q * y - 1) m e st ∧
             rsq (.fin sy my ey) = fltOut (f32.round rnd false m e st))

/-- R110, R111 and R113: fmin and fmax complete with the lesser and the greater operand, -0 below +0; fcmp with the relation
or, with a NaN, undecided; fclass with the mask of the operand's class. None raises a flag. The pattern written for a value
that was read is the pattern read. R114 and R115: cvtf, cvtfi, cvtif and fdot2 complete with the value in the destination
type, each rounded once. A value outside an integer type gives the nearest limit with NV, a NaN gives 0 with NV. The sign of a
zero that fdot2 gives is log 51 (DEDUCED). -/
def Obligations.FloatComparisonsAndConversions : Prop :=
  (∀ (h : Hdr) (ty : Ty) (rel : Rel) (d : Dst) (pd : BitVec 4) (a b : MSrc),
    let fm := Fmt.ofTy ty
    let pat := fun x : FV => BitVec.ofNat 64 (fm.pattern x)
    ∃ (lo hi : FV → FV → Word) (cmp : FV → FV → BitVec 2) (cls : FV → Word),
      ComputesFlt2 (.fmin h ty d a b) h L4 d fm a b (fun x y => (lo x y, 0)) ∧
      ComputesFlt2 (.fmax h ty d a b) h L4 d fm a b (fun x y => (hi x y, 0)) ∧
      ComputesPred (.fcmp h ty rel pd a b) h pd (fun s f t l => cmp (readFlt s f t fm a l) (readFlt s f t fm b l)) ∧
      ComputesFlt (.fclass h ty d a) h L4 d fm a (fun x => (cls x, 0)) ∧
      (∀ n, n < 2 ^ fm.width → fm.value n ≠ .nan → pat (fm.value n) = BitVec.ofNat 64 n) ∧
      (∀ x y, x = .nan ∨ y = .nan → lo x y = pat .nan ∧ hi x y = pat .nan ∧ cmp x y = 2) ∧
      (∀ x y, x ≠ .nan → y ≠ .nan → let zero := fun v : FV => ∃ s e, v = .fin s 0 e
        (lo x x = pat x ∧ hi x x = pat x) ∧
        (x.lt y = true ∨ (zero x ∧ zero y ∧ x.signBit = true ∧ y.signBit = false) →
          lo x y = pat x ∧ lo y x = pat x ∧ hi x y = pat y ∧ hi y x = pat y) ∧
        cmp x y = if (match rel with
          | .eq => !x.lt y && !y.lt x
          | .ne => x.lt y || y.lt x
          | .lt => x.lt y
          | .le => !y.lt x
          | .gt => y.lt x
          | .ge => !x.lt y) then 1 else 0) ∧
      cls .nan = 256 ∧ cls (.inf true) = 1 ∧ cls (.inf false) = 128 ∧
      (∀ e, cls (.fin true 0 e) = 8 ∧ cls (.fin false 0 e) = 16) ∧
      ∀ m e, 0 < m → let normal := (2 : ℚ) ^ (1 - (fm.bias : Int)) ≤ (FV.fin false m e).rat
        (normal → cls (.fin true m e) = 2 ∧ cls (.fin false m e) = 64) ∧
        (¬normal → cls (.fin true m e) = 4 ∧ cls (.fin false m e) = 32)) ∧
  ∀ (h : Hdr) (ty ts : Ty) (rnd : Rnd) (d : Dst) (a : MSrc) (b c : Src),
    let td := Fmt.ofTy ty
    let el := fun (s : State) (f : Nat) (t : Team) (x : Src) (l i : Nat) =>
      td.value (((readSrc s f t (.packed td) x l).toNat / 2 ^ (16 * i)) % 2 ^ 16)
    ∃ (cvtf cvtfi : FV → Word × Flags) (cvtif : Int → Word × Flags) (dot : FV → FV → FV → FV → FV → Word × Flags),
      ComputesFlt (.cvtf h ty ts rnd d a) h L4 d (Fmt.ofTy ts) a cvtf ∧
      ComputesFlt (.cvtfi h ty ts rnd d a) h L4 d (Fmt.ofTy ts) a cvtfi ∧
      ComputesInt (.cvtif h ty ts rnd d b) h L4 d b (fun x => cvtif (rdInt ts x)) ∧
      ComputesOne (.fdot2 h ty rnd d b c a) h L8 (dstReg d)
        (fun s f t l => dot (el s f t b l 0) (el s f t c l 0) (el s f t b l 1) (el s f t c l 1) (readFlt s f t Fmt.f32 a l)) ∧
      cvtf .nan = nanOut td 0 ∧ (∀ p, cvtf (.inf p) = infOut td p 0) ∧
      (∀ s m e, RoundedFrom td rnd (FV.fin s m e).rat s (cvtf (.fin s m e))) ∧
      cvtfi .nan = (0, Flags.nv) ∧ cvtfi (.inf true) = (putInt ty ty.least, Flags.nv) ∧
      cvtfi (.inf false) = (putInt ty ty.largest, Flags.nv) ∧
      (∀ s m e, ∃ n : Nat, Nearest rnd s (FV.fin false m e).rat 0 n ∧
        let v : Int := if s then -n else n
        cvtfi (.fin s m e) =
          if v < ty.least then (putInt ty ty.least, Flags.nv)
          else if ty.largest < v then (putInt ty ty.largest, Flags.nv)
          else (putInt ty v, if (v : ℚ) = (FV.fin s m e).rat then 0 else Flags.nx)) ∧
      (∀ n : Int, RoundedFrom td rnd n false (cvtif n)) ∧
      (∀ v w x y z, v = .nan ∨ w = .nan ∨ x = .nan ∨ y = .nan ∨ z = .nan → dot v w x y z = nanOut .f32 0) ∧
      ∀ v w x y z, v ≠ .nan → w ≠ .nan → x ≠ .nan → y ≠ .nan → z ≠ .nan →
        match FV.mul v w, FV.mul x y with
        | some p, some q =>
          let has := fun s : Bool => p = .inf s ∨ q = .inf s ∨ z = .inf s
          (has true ∧ has false → dot v w x y z = nanOut .f32 Flags.nv) ∧
          (∀ s, has s ∧ ¬has (!s) → dot v w x y z = infOut .f32 s 0) ∧
          (¬has true ∧ ¬has false →
            RoundedFrom .f32 rnd (p.rat + q.rat + z.rat)
              (if p.signBit = q.signBit ∧ q.signBit = z.signBit ∧ p.rat = 0 ∧ q.rat = 0 ∧ z.rat = 0 then z.signBit
               else rnd == .rdn) (dot v w x y z))
        | _, _ => dot v w x y z = nanOut .f32 Flags.nv

/-- R112: the transcendental words complete, with the special results of the table. -/
def Obligations.TranscendentalSpecialCases : Prop :=
  ∀ (h : Hdr) (d : Dst) (a : MSrc),
    ∃ (ex2 lg2 sin cos tanh : FV → Word × Flags),
      ComputesFlt (.fex2 h d a) h L12 d .f32 a ex2 ∧ ComputesFlt (.flg2 h d a) h L12 d .f32 a lg2 ∧
      ComputesFlt (.fsinpi h d a) h L12 d .f32 a sin ∧ ComputesFlt (.fcospi h d a) h L12 d .f32 a cos ∧
      ComputesFlt (.ftanh h d a) h L12 d .f32 a tanh ∧
      (∀ g ∈ [ex2, lg2, sin, cos, tanh], g .nan = nanOut .f32 0) ∧
      ex2 (.inf true) = zeroOut .f32 false ∧ ex2 (.inf false) = infOut .f32 false 0 ∧
      lg2 (.inf false) = infOut .f32 false 0 ∧ lg2 (.inf true) = nanOut .f32 Flags.nv ∧
      (∀ p : Bool, sin (.inf p) = nanOut .f32 Flags.nv ∧ cos (.inf p) = nanOut .f32 Flags.nv ∧
        tanh (.inf p) = (if p then 0xBF800000 else 0x3F800000, 0)) ∧
      ∀ s m e, let x := FV.fin s m e
        (∀ n : Int, -149 ≤ n → n ≤ 127 → x.rat = n → RoundedFrom .f32 .rne ((2 : ℚ) ^ n) false (ex2 x) ∧ (ex2 x).2 = 0) ∧
        (128 ≤ x.rat → ex2 x = infOut .f32 false Flags.overflow) ∧
        (x.rat ≤ -150 → ex2 x = (0, Flags.underflow)) ∧
        (m = 0 → lg2 x = infOut .f32 true Flags.dz ∧ tanh x = zeroOut .f32 s) ∧
        (x.rat < 0 → lg2 x = nanOut .f32 Flags.nv) ∧
        (∀ n : Int, -149 ≤ n → n ≤ 127 → x.rat = (2 : ℚ) ^ n → RoundedFrom .f32 .rne n false (lg2 x) ∧ (lg2 x).2 = 0) ∧
        ∀ n : Int, let one := fun neg : Bool => ((if neg then 0xBF800000 else 0x3F800000 : Word), (0 : Flags))
          (x.rat = n → sin x = zeroOut .f32 s ∧ cos x = one (decide (n % 2 = 1))) ∧
          (x.rat = n + 1 / 2 → sin x = one (decide (n % 2 = 1)) ∧ cos x = zeroOut .f32 false)

-- ===== the interval class =====

/-- R121 and R122: intervals built from floats, and bounds, midpoint and width read from intervals; the midpoint of every proper
interval lies between its bounds. -/
def Obligations.IntervalBounds : Prop :=
  ∀ (h : Hdr) (dbl : Bool) (d : Dst) (a b : MSrc),
    let nan : Word := BitVec.ofNat 64 Fmt.f32.nan
    let big := fun neg => Fmt.f32.value (Fmt.f32.maxFinite neg)
    ComputesFlt (.ivpt h dbl d a) h L4 d (if dbl then .f64 else .f32) a ivPtVal ∧
    ComputesFlt2 (.ivmake h d a b) h L4 d .f32 a b ivMakeVal ∧
    ComputesIv (.ivlo h d a) h L4 d a ivLoVal ∧ ComputesIv (.ivhi h d a) h L4 d a ivHiVal ∧
    ComputesIv (.ivmid h d a) h L4 d a ivMidVal ∧ ComputesIv (.ivwid h d a) h L4 d a ivWidVal ∧
    ivPtVal .nan = (naiWord, 0) ∧ (∀ p, ivPtVal (.inf p) = (ivWord (.inf p) (.inf p), 0)) ∧
    (∀ n, n < 2 ^ 32 → Fmt.f32.value n ≠ .nan → ivPtVal (Fmt.f32.value n) = (ivWord (Fmt.f32.value n) (Fmt.f32.value n), 0)) ∧
    (∀ s m e, let x := FV.fin s m e
      (Iv.ofWord (ivPtVal x).1).Holds x.rat ∧ (ivPtVal x).2 = 0 ∧
      ((2 : ℚ) ^ 128 ≤ x.rat → (ivPtVal x).1 = ivWord (big false) (.inf false)) ∧
      (x.rat ≤ -(2 : ℚ) ^ 128 → (ivPtVal x).1 = ivWord (.inf true) (big true))) ∧
    (∀ x y, ivMakeVal x y =
      if x = .nan ∨ y = .nan then (naiWord, 0)
      else if x = .inf false ∧ y = .inf true then (emptyWord, 0)
      else if y.lt x then (naiWord, Flags.nv)
      else (ivWord x y, 0)) ∧
    (∀ g ∈ [ivLoVal, ivHiVal, ivMidVal, ivWidVal], g .nai = (nan, 0) ∧ g .illFormed = (nan, Flags.nv)) ∧
    ivLoVal .empty = (0x7F800000, 0) ∧ ivHiVal .empty = (0xFF800000, 0) ∧ ivMidVal .empty = (nan, 0) ∧
    ivWidVal .empty = (nan, 0) ∧
    (∀ lo hi, let x := Iv.proper lo hi
      let m := fun y : FV => (BitVec.ofNat 64 (boundBits y), (0 : Flags))
      ivLoVal x = m lo ∧ ivHiVal x = m hi ∧
      (match lo, hi with
        | .inf true, .inf false => ivMidVal x = m .zero
        | .inf true, .fin .. => ivMidVal x = m (big true)
        | .fin .., .inf false => ivMidVal x = m (big false)
        | .inf p, .inf q => p = q → ivMidVal x = m (.inf p)
        | .fin sl ml el, .fin sh mh eh => ∃ s k e, (FV.fin s k e).rat = ((FV.fin sl ml el).rat + (FV.fin sh mh eh).rat) / 2 ∧
            ivMidVal x = m (Fmt.f32.value (Fmt.f32.round .rne s k e false).1)
        | _, _ => True) ∧
      (match lo, hi with
        | .fin sl ml el, .fin sh mh eh => ∃ s k e, (FV.fin s k e).rat = (FV.fin sh mh eh).rat - (FV.fin sl ml el).rat ∧
            ivWidVal x = m (outward true (.fin s k e))
        | .inf true, .fin .. | .fin .., .inf false | .inf true, .inf false => ivWidVal x = m (.inf false)
        | _, _ => True)) ∧
    ∀ (w : Word) lo hi, Iv.ofWord w = .proper lo hi →
      let mid := Fmt.f32.value (ivMidVal (.proper lo hi)).1.toNat
      mid ≠ .nan ∧ mid.lt lo = false ∧ hi.lt mid = false

/-- R123 to R125: interval arithmetic completes with the bounds of the tables for proper operands, and as R64 states for
others. -/
def Obligations.IntervalArithmetic : Prop :=
  ∀ (h : Hdr) (d : Dst) (a b c : MSrc),
    let down := outward false
    let up := outward true
    let root := fun (recip u : Bool) (x : FV) => Fmt.f32.value
      ((if recip then Fmt.f32.rsqrt else Fmt.f32.sqrt) (if u then .rup else .rdn) x).1
    let neg := fun x : FV => x.lt .zero
    let pos := fun x : FV => FV.lt .zero x
    ComputesIv2 (.ivadd h d a b) h L4 d a b ivAddVal ∧ ComputesIv2 (.ivsub h d a b) h L4 d a b ivSubVal ∧
    ComputesIv2 (.ivmul h d a b) h L8 d a b ivMulVal ∧ ComputesIv2 (.ivdiv h d a b) h .variable d a b ivDivVal ∧
    ComputesOne (.ivfma h d a b c) h L8 (dstReg d)
      (fun s f t l => ivFmaVal (readIv s f t a l) (readIv s f t b l) (readIv s f t c l)) ∧
    ComputesIv (.ivsqr h d a) h L8 d a ivSqrVal ∧ ComputesIv (.ivsqrt h d a) h .variable d a ivSqrtVal ∧
    ComputesIv (.ivrsqrt h d a) h .variable d a ivRsqrtVal ∧
    Gated2 ivAddVal ∧ Gated2 ivSubVal ∧ Gated2 ivMulVal ∧ Gated2 ivDivVal ∧
    Gated ivSqrVal ∧ Gated ivSqrtVal ∧ Gated ivRsqrtVal ∧
    (∀ x y z, (.nai ∈ [x, y, z] → ivFmaVal x y z = (naiWord, 0)) ∧
      (.nai ∉ [x, y, z] → .illFormed ∈ [x, y, z] → ivFmaVal x y z = (naiWord, Flags.nv)) ∧
      (.nai ∉ [x, y, z] → .illFormed ∉ [x, y, z] → .empty ∈ [x, y, z] → ivFmaVal x y z = (emptyWord, 0))) ∧
    ∀ al ah bl bh cl ch, al ≠ .nan → ah ≠ .nan → bl ≠ .nan → bh ≠ .nan → let x := Iv.proper al ah; let y := Iv.proper bl bh
      ivAddVal x y = (ivWord (down (boundAdd false al bl)) (up (boundAdd true ah bh)), 0) ∧
      ivSubVal x y = (ivWord (down (boundAdd false al bh.neg)) (up (boundAdd true ah bl.neg)), 0) ∧
      ivMulVal x y = ivFmaVal x y (.proper .zero .zero) ∧
      (let p := fun (u : Bool) (z v w : FV) => outward u (boundAdd u (boundMul v w) z)
       ivFmaVal x y (.proper cl ch) =
        (ivWord (bmin (bmin (p false cl al bl) (p false cl al bh)) (bmin (p false cl ah bl) (p false cl ah bh)))
          (bmax (bmax (p true ch al bl) (p true ch al bh)) (bmax (p true ch ah bl) (p true ch ah bh))), 0)) ∧
      ivSqrVal x = (ivWord
        (if neg al = false then down (boundMul al al) else if pos ah = false then down (boundMul ah ah) else .zero)
        (up (bmax (boundMul al al) (boundMul ah ah))), 0) ∧
      ivDivVal x y = (if pos bl = false ∧ neg bh = false then (ivWord (.inf true) (.inf false), 0)
        else
          let q := fun u => boundDiv u
          (ivWord (bmin (bmin (q false al bl) (q false al bh)) (bmin (q false ah bl) (q false ah bh)))
            (bmax (bmax (q true al bl) (q true al bh)) (bmax (q true ah bl) (q true ah bh))), 0)) ∧
      ivSqrtVal x = (if neg ah then (naiWord, Flags.nv)
        else (ivWord (if pos al then root false false al else .zero) (root false true ah), 0)) ∧
      ivRsqrtVal x = if pos ah = false then (naiWord, Flags.nv)
        else (ivWord (root true false ah) (if pos al then root true true al else .inf false), 0)

/-- R62: the set that an interval result denotes contains every exact result over its operand sets. -/
def Obligations.IntervalContainment : Prop :=
  ∀ (u v w : Word) (x y z : ℚ), let a := Iv.ofWord u; let b := Iv.ofWord v; let c := Iv.ofWord w
    let out := fun r : Word × Flags => Iv.ofWord r.1
    a.Holds x →
      (a.modify .g).Holds (-x) ∧ (a.modify .a).Holds |x| ∧ (a.modify .m).Holds (-|x|) ∧
      (out (ivSqrVal a)).Holds (x * x) ∧
      (∀ q, 0 ≤ q → q * q = x → (out (ivSqrtVal a)).Holds q) ∧
      (∀ q, 0 < q → q * q * x = 1 → (out (ivRsqrtVal a)).Holds q) ∧
      ((Iv.ofWord (ivSplitVal a).1).Holds x ∨ (Iv.ofWord (ivSplitVal a).2.1).Holds x) ∧
      (b.Holds y →
        (out (ivAddVal a b)).Holds (x + y) ∧ (out (ivSubVal a b)).Holds (x - y) ∧ (out (ivMulVal a b)).Holds (x * y) ∧
        (y ≠ 0 → (out (ivDivVal a b)).Holds (x / y)) ∧
        (out (ivHullVal a b)).Holds x ∧ (out (ivHullVal a b)).Holds y ∧
        (x = y → ∃ r, ivMeetVal a b = some r ∧ (out r).Holds x) ∧
        (c.Holds z → (out (ivFmaVal a b c)).Holds (x * y + z)))

/-- R126 to R129: hull, meet, comparison and split of intervals complete. ivmeet completes under .ne, and under .nf where
no active lane's meet is empty; ivsplit has two destinations. -/
def Obligations.IntervalSets : Prop :=
  ∀ (h : Hdr) (rel : IvRel) (d : Dst) (pd : BitVec 4) (d1 d2 : BitVec 7) (a b : MSrc), d1 ≠ d2 →
    ComputesIv2 (.ivhull h d a b) h L4 d a b ivHullVal ∧
    ComputesIv2 (.ivmeet h true d a b) h L4 d a b (fun x y => (ivMeetVal x y).getD (emptyWord, 0)) ∧
    (∀ s t, Issuing s t → let meet := fun l => ivMeetVal (readIv s s.cur t a l) (readIv s s.cur t b l)
      (∀ l ∈ activeLanes t h, (meet l).isSome) →
        Computes (.ivmeet h false d a b) s t h L4 [(dstReg d, fun l => (meet l).map (·.1))] fun l => ((meet l).getD (0, 0)).2) ∧
    ComputesOne (.ivcmp h rel pd a b) h L4 (pReg pd) (fun s f t l =>
      let r := ivCmpVal rel (readIv s f t a l) (readIv s f t b l)
      (r.1.setWidth 64, r.2)) ∧
    (∀ s t, Issuing s t → let r := fun l => ivSplitVal (readIv s s.cur t a l)
      Computes (.ivsplit h d1 d2 a) s t h L4
        [(.v d1.toNat, fun l => some (r l).1), (.v d2.toNat, fun l => some (r l).2.1)] fun l => (r l).2.2) ∧
    (∀ x, ivHullVal .nai x = (naiWord, 0) ∧ ivHullVal x .nai = (naiWord, 0) ∧ ivMeetVal .nai x = some (naiWord, 0) ∧
      ivMeetVal x .nai = some (naiWord, 0) ∧ ivCmpVal rel .nai x = (2, 0) ∧ ivCmpVal rel x .nai = (2, 0) ∧
      (x ≠ .nai → ivHullVal .illFormed x = (naiWord, Flags.nv) ∧ ivHullVal x .illFormed = (naiWord, Flags.nv) ∧
        ivMeetVal .illFormed x = some (naiWord, Flags.nv) ∧ ivMeetVal x .illFormed = some (naiWord, Flags.nv) ∧
        ivCmpVal rel .illFormed x = (2, Flags.nv) ∧ ivCmpVal rel x .illFormed = (2, Flags.nv)) ∧
      (x ≠ .nai → x ≠ .illFormed → ivMeetVal .empty x = none ∧ ivMeetVal x .empty = none)) ∧
    ivHullVal .empty .empty = (emptyWord, 0) ∧
    ivSplitVal .nai = (naiWord, naiWord, 0) ∧ ivSplitVal .illFormed = (naiWord, naiWord, Flags.nv) ∧
    ivSplitVal .empty = (emptyWord, emptyWord, 0) ∧
    ∀ al ah bl bh, let x := Iv.proper al ah; let y := Iv.proper bl bh
      let lt := FV.lt
      let le := fun p q => !FV.lt q p
      ivHullVal .empty x = (ivWord al ah, 0) ∧ ivHullVal x .empty = (ivWord al ah, 0) ∧
      ivHullVal x y = (ivWord (bmin al bl) (bmax ah bh), 0) ∧
      ivSplitVal x = (ivWord al (ivMid al ah), ivWord (ivMid al ah) ah, 0) ∧
      ivCmpVal rel .empty x = (if rel = .sub ∨ rel = .inn then 1 else 2, 0) ∧
      ivCmpVal rel x .empty = (if rel = .sub ∨ rel = .inn then 0 else 2, 0) ∧
      (al ≠ .nan → ah ≠ .nan → bl ≠ .nan → bh ≠ .nan →
        let point := le al ah && le ah al && le bl bh && le bh bl && le al bl && le bl al
        let apart := lt ah bl || lt bh al
        let three := fun t f : Bool => ((if t then 1 else if f then 0 else 2 : BitVec 2), (0 : Flags))
        ivMeetVal x y = (if lt (bmin ah bh) (bmax al bl) then none else some (ivWord (bmax al bl) (bmin ah bh), 0)) ∧
        ivCmpVal rel x y = match rel with
          | .eq => three point apart
          | .ne => three apart point
          | .lt => three (lt ah bl) (le bh al)
          | .le => three (le ah bl) (lt bh al)
          | .gt => three (lt bh al) (le ah bl)
          | .ge => three (le bh al) (lt ah bl)
          | .sub => three (le bl al && le ah bh) true
          | .inn => three (lt bl al && lt ah bh) true)

/-- R127 and R151: under .nf a lane whose meet is empty parks with its destination unchanged and no flag, and the other lanes
complete. A k destination takes the value of the lowest lane that did not fault, which is the model's reading (log 36). Stated where a lane of the mask is left and no handler runs; without one the team enters its handler (R150). -/
def Obligations.EmptyMeetParksItsLane : Prop :=
  ∀ (h : Hdr) (d : Dst) (a b : MSrc) (s : State) (t : Team), Issuing s t → t.handler = none →
    let meet := fun l => ivMeetVal (readIv s s.cur t a l) (readIv s s.cur t b l)
    let act := activeLanes t h
    let good := act.filter fun l => (meet l).isSome
    let bad := act.filter fun l => !(meet l).isSome
    act ≠ [] → t.mask &&& ~~~(laneSet bad) ≠ 0 →
      ∃ s' p, exec (.ivmeet h false d a b) s = .next s' ∧
        TeamOnly s s' (bad.foldl (fun u l => u.park l 9 0 t.pc) (t.issued h (t.pc + 8) [p])) ∧
        p.writes = [resultOf (dstReg d) good fun l => (meet l).map (·.1)] ∧
        p.flags = Flags.union (good.map fun l => ((meet l).getD (0, 0)).2) ∧ p.lat = L4 ∧ p.issue = t.issues

-- ===== control flow =====

/-- R176 and R172: nop only advances; yield, where a lane is active, leaves its turn to the teams of the core that are ready
now; loop counts its register down, at L4, and jumps while the count is not 0. A loop reads an earlier loop's write of the register at any distance. R148
and R170: bra, call and ret (outside a handler) act on their taken lanes. With none the word falls through; with all the team
jumps; otherwise the untaken lanes wait in a side entry after the branch, merged into a top entry of the same kind, and an
entry beyond the sixteenth traps. call writes the address after it to K[L] at L4 where a lane is taken. -/
def Obligations.BranchesAndLoops : Prop :=
  (∀ (h : Hdr) (k : BitVec 6) (off : BitVec 32) (s : State) (t : Team), tfind s.teams s.cur = some t →
    Goes (.nop h) s (t.issued h (t.pc + 8) []) ∧
    ((activeLanes t h).isEmpty = true → Goes (.yield h) s (t.issued h (t.pc + 8) [])) ∧
    ((activeLanes t h).isEmpty = false → ∃ others : List Nat,
      Goes (.yield h) s (({ t with yielded := others } : Team).issued h (t.pc + 8) []) ∧
      ∀ g, g ∈ others ↔ ∃ u, (g, u) ∈ s.teams ∧ g / 8 = s.cur / 8 ∧ g ≠ s.cur ∧ teamReady s g u = true) ∧
    let c := loopCount t k.toNat
    ((∀ p ∈ t.pend, p.isLoop = false) → c = readK t k.toNat) ∧
    (c = 0 → Goes (.loop h k off) s (t.issued h (t.pc + 8) [])) ∧
    (c ≠ 0 → Goes (.loop h k off) s
      (t.issued h (if c = 1 then t.pc + 8 else jumpTo t off)
        [{ issue := t.issues, lat := L4, writes := [⟨.k k.toNat, [(0, c - 1)]⟩], isLoop := true, lanes := [0] }])) ∧
    ∀ n : Nat, ∀ p w, t.pend.getLast? = some p → p.isLoop = true → p.writes = [⟨.k k.toNat, [(n, w)]⟩] → c = w) ∧
  ∀ (h : Hdr) (k : BitVec 6) (off : BitVec 32) (s : State) (t : Team), tfind s.teams s.cur = some t → t.handler = none →
    let taken := laneSet (activeLanes t h)
    let rest := t.mask &&& ~~~taken
    let target := jumpTo t off
    let back := (readK t k.toNat).toNat
    let text := s.kernelOf t
    let split : Option Team :=
      if rest = 0 then some t
      else match t.stack with
        | e :: r =>
          if e.isJoin = false ∧ e.addr = t.pc + 8 then some { t with stack := { e with mask := e.mask ||| rest } :: r, mask := taken }
          else if t.stack.length ≥ 16 then none
          else some { t with stack := ⟨false, t.pc + 8, rest, t.nextUid⟩ :: t.stack, nextUid := t.nextUid + 1, mask := taken }
        | [] => some { t with stack := [⟨false, t.pc + 8, rest, t.nextUid⟩], nextUid := t.nextUid + 1, mask := taken }
    let jumps := fun (i : Instr) (next : Nat) (ps : List Pend) => match split with
      | some u => Goes i s (u.issued h next ps)
      | none => Traps i s t .stackOverflow
    if taken = 0 then
      Goes (.bra h off) s (t.issued h (t.pc + 8) []) ∧ Goes (.call h k off) s (t.issued h (t.pc + 8) []) ∧
      ((activeLanes t h).isEmpty = true → Goes (.ret h k) s (t.issued h (t.pc + 8) []))
    else
      jumps (.bra h off) target [] ∧
      jumps (.call h k off) target
        [{ issue := t.issues, lat := L4, writes := [⟨.k k.toNat, [(0, BitVec.ofNat 64 (t.pc + 8))]⟩], lanes := [0] }] ∧
      (if back % 8 = 0 ∧ text.text ≤ back ∧ back < text.text + text.textSize then jumps (.ret h k) back []
       else (activeLanes t h).isEmpty = false → Traps (.ret h k) s t .badTarget)

/-- R147, R171 and R173: rcv and brt push a join entry of their reconvergence point, which must be a cvg of the text, with the
current mask; brt goes on at the target that its index names. A bad target or a seventeenth entry traps; of both at once bad-target
is raised, the model's reading for brt (log 90). The reads of the text and of the table may meet and count memory errors (s1). -/
def Obligations.JoinEntries : Prop :=
  ∀ (h : Hdr) (k : BitVec 6) (off : BitVec 32) (tbl : BitVec 8) (s s1 : State) (t : Team) (rcv next : Nat),
    tfind s.teams s.cur = some t →
    let target := jumpTo t off
    let joined := fun at' : Nat => ({ t with stack := ⟨true, at', t.mask, t.nextUid⟩ :: t.stack, nextUid := t.nextUid + 1 } : Team)
    (cvgAt s t target = (s1, true) →
      (t.stack.length < 16 → exec (.rcv h off) s = .next (s1.setTeam s.cur ((joined target).issued h (t.pc + 8) []))) ∧
      (16 ≤ t.stack.length → exec (.rcv h off) s = .next (trapWord s1 s.cur t .stackOverflow))) ∧
    (cvgAt s t target = (s1, false) → exec (.rcv h off) s = .next (trapWord s1 s.cur t .badTarget)) ∧
    (brtTarget s t tbl.toNat (readK t k.toNat).toNat = (s1, some (rcv, next)) →
      (t.stack.length < 16 → exec (.brt h k tbl) s = .next (s1.setTeam s.cur ((joined rcv).issued h next []))) ∧
      (16 ≤ t.stack.length → exec (.brt h k tbl) s = .next (trapWord s1 s.cur t .stackOverflow))) ∧
    (brtTarget s t tbl.toNat (readK t k.toNat).toNat = (s1, none) →
      exec (.brt h k tbl) s = .next (trapWord s1 s.cur t .badTarget))

/-- R149, R151 and R174: cvg pops its join entry, or the side entry above it, and the team goes on with that entry's lanes;
exit clears its lanes from every mask. Where that empties the current mask the team goes on with the topmost entry that still has
a lane, at its side's address or after its join's cvg, as if that cvg had been reached; with no lane left anywhere the team ends.
With a lane parked either word enters the handler instead. Two points are the model's: exit does so even where no lane is active
(log 74), and a side entry above no join is taken too (log 89). -/
def Obligations.ConvergeAndExit : Prop :=
  ∀ (h : Hdr) (s : State) (t : Team), tfind s.teams s.cur = some t →
    let act := laneSet (activeLanes t h)
    let lift := fun (e : StackEntry) (r : List StackEntry) (pc : Nat) =>
      ({ t with mask := e.mask, pathUid := e.uid, stack := r } : Team).issued h pc []
    (t.parked ≠ [] → Traps (.cvg h) s t .parked ∧ Traps (.exit h) s t .parked) ∧
    (t.parked = [] →
      (∀ e r, t.stack = e :: r → e.mask ≠ 0 → e.isJoin = true →
        if e.addr = t.pc then Goes (.cvg h) s (lift e r (t.pc + 8)) else Traps (.cvg h) s t .cvgMismatch) ∧
      (∀ e j r r', t.stack = e :: r → e.mask ≠ 0 → e.isJoin = false → r = r' ++ j :: r.drop (r'.length + 1) →
        j.isJoin = true → (∀ x ∈ r', x.isJoin = false) →
        if j.addr = t.pc then Goes (.cvg h) s (lift e r e.addr) else Traps (.cvg h) s t .cvgMismatch) ∧
      (t.stack = [] → Traps (.cvg h) s t .cvgMismatch) ∧
      (act = 0 → Goes (.exit h) s (t.issued h (t.pc + 8) [])) ∧
      (act ≠ 0 →
        let u : Team := { t with
          mask := t.mask &&& ~~~act
          stack := t.stack.map fun e => { e with mask := e.mask &&& ~~~act }
          exited := t.exited ||| act }
        (u.mask ≠ 0 → Goes (.exit h) s (u.issued h (t.pc + 8) [])) ∧
        (∀ pre e r, u.stack = pre ++ e :: r → u.mask = 0 → (∀ x ∈ pre, x.mask = 0) → e.mask ≠ 0 →
          Goes (.exit h) s (({ u with mask := e.mask, pathUid := e.uid, stack := r } : Team).issued h
            (if e.isJoin then e.addr + 8 else e.addr) [])) ∧
        ((∀ x ∈ u.stack, x.mask = 0) → u.mask = 0 → ∃ uid pc, exec (.exit h) s = .next (s.setTeam s.cur
          { (({ u with pathUid := uid, stack := [] } : Team).issued ⟨false, 0, .isTrue⟩ pc []) with
            wait := .ended t.mask t.pathUid t.stack t.pc })) ∧
        (t.stack = [] → u.mask = 0 → exec (.exit h) s = .next (s.setTeam s.cur
          { (u.issued h (t.pc + 8) []) with wait := .ended t.mask t.pathUid t.stack t.pc }))))

/-- R175, R379 and R33: a trap word with an active lane sends the team to its handler once every scoreboarded result but the
tokens is written. The team's k62 and k63 hold the frame's address and the word after the trap, trapc its cause and user code;
the mask, stack and parked lanes are held aside; every lane that has not exited runs at `hdlr` with an empty stack. Any other
word that traps enters likewise and returns to itself. Stated for a team with no result in flight; the frame is written by
plain stores, and a team whose frame has no translation yet waits for a walk (R320). R380 and R152: a ret with a taken lane ends the handler: it waits for the team's stores, reads resume and the
saved k62 and k63 from the frame, and goes on at K[L] with the mask and stack held aside; a lane resumed joins each mask that
it was cleared from and that still exists, every other parked lane has exited; a token outstanding for k62 or k63 stays so
(R230). Stated where a lane is left in the mask. -/
def Obligations.HandlerEntryAndReturn : Prop :=
  (∀ (h : Hdr) (code : BitVec 8) (c : Cause) (s s1 s2 : State) (t : Team) (pa : Nat), tfind s.teams s.cur = some t →
    ((activeLanes t h).isEmpty = true → Goes (.trap h code) s (t.issued h (t.pc + 8) [])) ∧
    ((activeLanes t h).isEmpty = false → t.outstanding = true → Goes (.trap h code) s
      { t with wait := .trap { cause := 9, ucode := code.toNat, word := t.pc } }) ∧
    ∀ i : TrapInfo, (i = { cause := 9, ucode := code.toNat, word := t.pc } ∨ i = { cause := c.code, word := t.pc }) →
      t.pend = [] → t.handler = none → t.hdlr ≠ 0 → (s.partition t.partition).fltb ≠ 0 →
      (i.cause = 9 → (activeLanes t h).isEmpty = false → i.ucode = code.toNat →
        frameReach s s.cur t .write (frameAddr s s.cur t) = none → exec (.trap h code) s =
          .next ((askWalk s s.cur t.partition (frameAddr s s.cur t / 2 ^ 16) (frameAddr s s.cur t)).setTeam s.cur { t with wait := .trap i })) ∧
      (frameReach s s.cur t .write (frameAddr s s.cur t) = some (s1, .ok pa) →
      homeWrite s1 (clusterOf s.cur) t.partition ((frameBytes t i).map fun w => (pa + w.1, w.2)) (frameAddr s s.cur t) = (s2, []) →
      let entered := s2.setTeam s.cur { t with
        k := tset (tset t.k 62 (BitVec.ofNat 64 ((s.partition t.partition).fltb + 0x4000 * s.cur)) 0) 63
          (BitVec.ofNat 64 (if i.cause = 9 then t.pc + 8 else t.pc)) 0
        kFresh := (t.kFresh.filter fun k => k != 62 && k != 63) ++ [62, 63]
        trapCause := i.cause
        trapUcode := if i.cause = 9 then i.ucode else t.trapUcode
        handler := some ⟨t.mask, t.pathUid, t.stack, (s.partition t.partition).fltb + 0x4000 * s.cur, t.parked⟩
        mask := allLanes t.nlanes &&& ~~~t.exited
        pathUid := t.nextUid
        nextUid := t.nextUid + 1
        stack := []
        parked := []
        xlat := []
        pc := t.hdlr
        wait := .ready }
      (i.cause = 9 → (activeLanes t h).isEmpty = false → i.ucode = code.toNat → exec (.trap h code) s = .next entered) ∧
      (i = { cause := c.code, word := t.pc } → trapWord s s.cur t c = entered))) ∧
  ∀ (h : Hdr) (k : BitVec 6) (s s1 : State) (t : Team) (v : HandlerSave) (bits : Nat) (k62 k63 : Word),
    tfind s.teams s.cur = some t → t.handler = some v → activeLanes t h ≠ [] →
    let back := (readK t k.toNat).toNat
    let text := s.kernelOf t
    back % 8 = 0 → text.text ≤ back → back < text.text + text.textSize →
    if s.accs.any (fun e => e.2.team == s.cur && e.2.kind.writes) then exec (.ret h k) s = .next s
    else
      (frameReach s s.cur t .read v.frame = none → exec (.ret h k) s =
        .next ((askWalk s s.cur t.partition (v.frame / 2 ^ 16) v.frame).setTeam s.cur { t with wait := .walk })) ∧
      ∀ r, frameReach s s.cur t .read v.frame = some r → frameRead r t v.frame = (s1, some (bits, k62, k63)) →
      let resumed := fun (uid : Nat) => laneSet ((v.parked.filter fun e => bits.testBit e.1 && e.2.masks.contains uid).map (·.1))
      let joins := fun l : Nat => v.parked.any fun e => e.1 == l && bits.testBit l &&
        (e.2.masks.contains v.uid || v.stack.any fun x => e.2.masks.contains x.uid)
      let gone := t.exited ||| laneSet ((v.parked.map (·.1)).filter fun l => !joins l)
      let mask := (v.mask ||| resumed v.uid) &&& ~~~gone
      mask ≠ 0 → exec (.ret h k) s = .next (s1.setTeam s.cur { t with
        k := tset (tset t.k 62 k62 0) 63 k63 0
        pend := t.pend.map fun p =>
          if p.lat == .token then p else { p with writes := p.writes.filter fun w => w.reg != .k 62 && w.reg != .k 63 }
        exited := gone
        mask
        pathUid := v.uid
        stack := v.stack.map fun e => { e with mask := (e.mask ||| resumed e.uid) &&& ~~~gone }
        handler := none
        parked := []
        xlat := []
        issues := t.issues + 1
        pc := back
        wait := .marker })

-- ===== predicates, lanes, indexed registers, the stream and control registers =====

/-- R69 and R178: the predicate words complete with Kleene's logic, F below U below T: `and` is the lesser, `or` the greater.
pmov reads two bits, pget writes 0, 1 or 2. -/
def Obligations.PredicateLogic : Prop :=
  ∀ (h : Hdr) (na nb ut : Bool) (d : Dst) (pd pa pb : BitVec 4) (a : Src),
    let rank := fun x : BitVec 2 => if x = 0 then 0 else if x = 1 then 2 else 1
    let ofRank := fun n : Nat => (if n = 0 then 0 else if n = 1 then 2 else 1 : BitVec 2)
    let src := fun (t : Team) (neg : Bool) (p : BitVec 4) (l : Nat) =>
      let r := rank (readP t p.toNat l)
      if neg then 2 - r else r
    ComputesPred (.pand h na nb pd pa pb) h pd (fun _ _ t l => ofRank (min (src t na pa l) (src t nb pb l))) ∧
    ComputesPred (.por h na nb pd pa pb) h pd (fun _ _ t l => ofRank (max (src t na pa l) (src t nb pb l))) ∧
    ComputesPred (.pnot h pd pa) h pd (fun _ _ t l => ofRank (src t true pa l)) ∧
    ComputesPred (.pdec h ut pd pa) h pd (fun _ _ t l =>
      match src t false pa l with
      | 0 => 0
      | 1 => if ut then 1 else 0
      | _ => 1) ∧
    ComputesPred (.pmov h pd a) h pd (fun s f t l =>
      match (readSrc s f t .int a l).toNat % 4 with
      | 0 => 0
      | 1 => 1
      | _ => 2) ∧
    ComputesOne (.pget h d pa) h L4 (dstReg d) (fun _ _ t l => ((readP t pa.toNat l).setWidth 64, 0)) ∧
    ∀ (t : Team) (p l : Nat), readP t 0 l = 1 ∧ readP t p l ≠ 3

/-- R179 to R181, R184 and R185: vote, shfl, push and match complete at L8 with values of other lanes of the team, read before
any is written. An invalid lane of shfl keeps D and writes F; a receiver of push takes the value of its highest sender. R182
and R183: scan and redl complete at L8 with the combination of the active lanes of a scope in ascending order: scan with those
up to the lane, or under .excl those before it, the identity for none; redl with all of them. A small constant supplies n.0 to .f32 (R20). -/
def Obligations.CrossLaneWords : Prop :=
  (∀ (h : Hdr) (ty : Ty) (team : Bool) (vm : VoteMode) (sm : ShflMode) (d : Dst) (dv : BitVec 7) (a b : Src) (pa pc : BitVec 4)
    (s : State) (t : Team), Issuing s t →
    let act := activeLanes t h
    let val := fun (x : Src) (l : Nat) => readSrc s s.cur t .int x l
    let scope := fun (wide : Bool) (l : Nat) => act.filter fun m => wide || m / 32 == l / 32
    (∃ v : Nat → Word, Computes (.vote h team vm d pa) s t h L8 [(dstReg d, fun l => some (v l))] (fun _ => 0) ∧
      ∀ l ∈ act, match vm with
        | .every => v l = if ∀ m ∈ scope team l, readP t pa.toNat m = 1 then 1 else 0
        | .any => v l = if ∃ m ∈ scope team l, readP t pa.toNat m = 1 then 1 else 0
        | .count => v l = BitVec.ofNat 64 ((scope team l).countP fun m => readP t pa.toNat m == 1)
        | .tmask => team = false → ∀ i, i < 64 →
            (v l).getLsbD i = decide (∃ m ∈ scope false l, m % 32 = i ∧ readP t pa.toNat m = 1)
        | .umask => team = false → ∀ i, i < 64 →
            (v l).getLsbD i = decide (∃ m ∈ scope false l, m % 32 = i ∧ readP t pa.toNat m = 2)) ∧
    (let source := fun l : Nat =>
        let w := l % 32
        let n := (val b l).toNat % 2 ^ 32
        let r := (w : Int) + ((val b l).setWidth 32 : BitVec 32).toInt
        match sm with
        | .abs => some (l / 32 * 32 + n % 32)
        | .rel => if 0 ≤ r ∧ r ≤ 31 then some (l / 32 * 32 + r.toNat) else none
        | .rot => some (l / 32 * 32 + (w + n % 32) % 32)
        | .mix => some (l / 32 * 32 + (w ^^^ (n % 32)))
        | .bcast => if team then (if n < t.nlanes then some n else none) else some (l / 32 * 32 + n % 32)
     Computes (.shfl h team sm dv a b pc) s t h L8
       [(.v dv.toNat, fun l => (source l).map (val a)), (pReg pc, fun l => some (if (source l).isSome then 1 else 0))]
       fun _ => 0) ∧
    Computes (.push h dv a b) s t ⟨h.sw, 0, .isTrue⟩ L8
      [(.v dv.toNat, fun l => (act.filter fun m => (val b m).toNat % 2 ^ 32 == l).getLast?.map (val a))] (fun _ => 0) ∧
    ∃ v : Nat → Word, Computes (.matchLanes h ty dv a) s t h L8 [(.v dv.toNat, fun l => some (v l))] (fun _ => 0) ∧
      ∀ l ∈ act, ∀ i, i < 64 → (v l).getLsbD i =
        decide (∃ m ∈ scope false l, m % 32 = i ∧ (val a m).toNat % 2 ^ ty.bits = (val a l).toNat % 2 ^ ty.bits)) ∧
  ∀ (h : Hdr) (ty : Ty) (team excl : Bool) (op : ScanOp) (d : Dst) (dv : BitVec 7) (a : Src) (s : State) (t : Team), Issuing s t →
    let val := fun l : Nat => readSrc s s.cur t (if ty = .f32 then .flt .f32 else .int) a l
    let scope := fun l : Nat => (activeLanes t h).filter fun m => team || m / 32 == l / 32
    let total := fun ls : List Nat => match ls with
      | [] => scanIdentity ty op
      | x :: xs => xs.foldl (fun acc m => (scanStep ty op acc (val m)).1) (scanRead ty (val x))
    let raised := fun ls : List Nat => match ls.getLast? with
      | none => 0
      | some m => if ls.length = 1 then 0 else (scanStep ty op (total ls.dropLast) (val m)).2
    let upTo := fun l : Nat => (scope l).filter fun m => if excl then decide (m < l) else decide (m ≤ l)
    Computes (.scan h ty (!team) excl op dv a) s t h L8 [(.v dv.toNat, fun l => some (total (upTo l)))] (fun l => raised (upTo l)) ∧
    Computes (.redl h ty team op d a) s t h L8 [(dstReg d, fun l => some (total (scope l)))]
      (fun l => raised ((scope l).filter fun m => decide (m ≤ l))) ∧
    (∀ x y : Word, ty ≠ .f32 → scanRead ty x = BitVec.ofNat 64 (x.toNat % 2 ^ ty.bits) ∧ scanStep ty op x y = (match op with
      | .add => putInt ty (rdInt ty x + rdInt ty y)
      | .min => putInt ty (min (rdInt ty x) (rdInt ty y))
      | .max => putInt ty (max (rdInt ty x) (rdInt ty y))
      | .and => BitVec.ofNat 64 ((x &&& y).toNat % 2 ^ ty.bits)
      | .or => BitVec.ofNat 64 ((x ||| y).toNat % 2 ^ ty.bits), 0)) ∧
    (∀ op, scanIdentity ty op = match op with
      | .add | .or => 0
      | .and => BitVec.ofNat 64 (2 ^ ty.bits - 1)
      | .min => if ty = .f32 then 0x7F800000 else putInt ty ty.largest
      | .max => if ty = .f32 then 0xFF800000 else putInt ty ty.least) ∧
    ∀ x y : Word, let f := fun v : Word => Fmt.f32.value (v.toNat % 2 ^ 32)
      scanStep .f32 .add x y = fltOut (Fmt.f32.add .rne (f x) (f y)) ∧
      scanStep .f32 .min x y = (BitVec.ofNat 64 (Fmt.f32.pattern (FV.min (f x) (f y))), 0) ∧
      scanStep .f32 .max x y = (BitVec.ofNat 64 (Fmt.f32.pattern (FV.max (f x) (f y))), 0)

/-- R186: vget and vput copy v_i for the index i that K[N] holds, at L4, and trap with bad-register where i is not below the
launch's .regs, even with no lane active, which is the model's choice (log 75). R187 to R189: rand draws from SHAKE256 of the key, the position and the lane, and moves the position on even
where no lane is active; at the last position it traps and draws nothing. rkey sets the key and the position; rfork writes the
child key to a pair of k registers and moves nothing. -/
def Obligations.IndexedRegistersAndRandomStream : Prop :=
  (∀ (h : Hdr) (d : BitVec 7) (a : Src) (k : BitVec 6) (s : State) (t : Team), Issuing s t →
    let i := (readK t k.toNat).toNat
    (i < (s.kernelOf t).regs → i < 128 →
      Computes (.vget h d k) s t h L4 [(.v d.toNat, fun l => some (readV t i l))] (fun _ => 0) ∧
      Computes (.vput h a k) s t h L4 [(.v i, fun l => some (readSrc s s.cur t .int a l))] (fun _ => 0)) ∧
    ((s.kernelOf t).regs ≤ i → Traps (.vget h d k) s t .badRegister ∧ Traps (.vput h a k) s t .badRegister)) ∧
  ∀ (h : Hdr) (mode : RandMode) (d : BitVec 7) (dk : BitVec 5) (a b : BitVec 6) (c : Option (BitVec 6)) (s : State) (t : Team),
    Issuing s t →
    (t.position = 2 ^ 40 - 1 → Traps (.rand h mode d) s t .streamExhausted) ∧
    (t.position ≠ 2 ^ 40 - 1 → ∃ (s' : State) (ps : List Pend) (v : Nat → Word), exec (.rand h mode d) s = .next s' ∧
      TeamOnly s s' (({ t with position := t.position + 1 } : Team).issued h (t.pc + 8) ps) ∧
      (if (activeLanes t h).isEmpty then ps = []
       else ∃ p, ps = [p] ∧ IsResult p t h .variable [(.v d.toNat, fun l => some (v l))] fun _ => 0) ∧
      ∀ l, let x := shake256 24 (t.key.toNat + (t.position * 2 ^ 24 + l) * 2 ^ 128) % 2 ^ 64
        match mode with
        | .b32 => (v l).toNat = x % 2 ^ 32
        | .b64 => (v l).toNat = x
        | .u01 => (v l).toNat < 2 ^ 32 ∧ (Fmt.f32.value (v l).toNat).rat = (x / 2 ^ 40 : Nat) / 2 ^ 24) ∧
    Goes (.rkey h a b c) s (({ t with
      key := readK t b.toNat ++ readK t a.toNat
      position := match c with
        | none => 0
        | some k => (readK t k.toNat).toNat % 2 ^ 40 } : Team).issued h (t.pc + 8) []) ∧
    let child := shake256 29 (t.key.toNat + t.position * 2 ^ 128 + (readK t a.toNat).toNat * 2 ^ 168) % 2 ^ 128
    let pair : List RegWrite := [⟨.k (2 * dk.toNat), [(0, BitVec.ofNat 64 (child % 2 ^ 64))]⟩,
      ⟨.k (2 * dk.toNat + 1), [(0, BitVec.ofNat 64 (child / 2 ^ 64))]⟩]
    Goes (.rfork h dk a) s (t.issued h (t.pc + 8) [{ issue := t.issues, lat := .variable, writes := pair, lanes := [0] }])

/-- R78, R165, R166, R191 and R192: getc writes a control register's value; setc writes the value of A in the lowest active
lane, at its issue: flags, bindctl, the stream registers, hdlr, and in the supervisor partition passc and ratio, whose write
elsewhere traps with privilege. A write of these that raises a core goes under the slew limit (R416): the registers take the value,
and the controller's notch leaves no core of the cluster a greater share at once (log 83). A write of any other register is discarded. vstag completes with the handle of the tag. -/
def Obligations.ControlRegisters : Prop :=
  ∀ (h : Hdr) (d : Dst) (r : BitVec 7) (ctl : BitVec 4) (a : Src) (s : State) (t : Team), Issuing s t →
    let put := fun (i : Instr) (g : Word → State × Team) => match (activeLanes t h).head? with
      | none => Goes i s (t.issued h (t.pc + 8) [])
      | some l => let r := g (readSrc s s.cur t .int a l)
        exec i s = .next (r.1.setTeam s.cur (r.2.issued h (t.pc + 8) []))
    ComputesOne (.vstag h d r) h L4 (dstReg d) (fun _ _ t l => (tagHandle (vTag t r.toNat (l / 32)), 0)) ∧
    ComputesOne (.getc h d ctl) h L4 (dstReg d) (fun s f t _ => (match ctl.toNat with
      | 0 => t.flags.setWidth 64
      | 1 => if t.nb then 1 else 0
      | 2 => BitVec.ofNat 64 (tget (s.core (f / 8)).binds t.partition 0)
      | 3 => BitVec.ofNat 64 (tget (s.core (f / 8)).misses t.partition 0)
      | 4 => t.key.setWidth 64
      | 5 => (t.key >>> 64).setWidth 64
      | 6 => BitVec.ofNat 64 t.position
      | 7 => BitVec.ofNat 64 s.cycle
      | 8 => BitVec.ofNat 64 t.issues
      | 9 => BitVec.ofNat 64 t.hdlr
      | 10 => BitVec.ofNat 64 (t.trapUcode * 256 + t.trapCause)
      | 11 => BitVec.ofNat 64 t.stack.length
      | 12 => BitVec.ofNat 64 (effPass s (f / 48))
      | 13 => BitVec.ofNat 64 (effRatio s (f / 8))
      | _ => 0, 0)) ∧
    put (.setcFlags h a) (fun x => (s, { t with flags := x.setWidth 6 })) ∧
    put (.setcBindctl h a) (fun x => (s, { t with nb := x.getLsbD 0 })) ∧
    put (.setcStream h 4 a) (fun x => (s, { t with key := (t.key >>> 64).setWidth 64 ++ x })) ∧
    put (.setcStream h 5 a) (fun x => (s, { t with key := x ++ t.key.setWidth 64 })) ∧
    put (.setcStream h 6 a) (fun x => (s, { t with position := x.toNat % 2 ^ 40 })) ∧
    put (.setc h ctl a) (fun x => (s, if ctl = 9 then { t with hdlr := x.toNat % 2 ^ 48 / 8 * 8 } else t)) ∧
    (t.partition ≠ 0 → Traps (.setcPassc h a) s t .privilege ∧ Traps (.setcRatio h a) s t .privilege) ∧
    (t.partition = 0 →
      put (.setcPassc h a) (fun x => (limitRaise s (s.setCluster (s.cur / 48)
        { s.cluster (s.cur / 48) with passc := if x.toNat % 4 = 3 then 2 else x.toNat % 4 }) (s.cur / 48), t)) ∧
      put (.setcRatio h a) (fun x =>
        (limitRaise s (s.setCore (s.cur / 8) { s.core (s.cur / 8) with ratio := x.toNat % 4 }) (s.cur / 48), t))) ∧
    ∀ (new : State) (cl : Nat), ∃ notch, limitRaise s new cl = new.setCluster cl { new.cluster cl with ctlNotch := notch } ∧
      ((∀ core, core / 6 = cl → coreShare new core ≤ coreShare s core) → notch = (new.cluster cl).ctlNotch) ∧
      ∀ core, core / 6 = cl → coreShare (limitRaise s new cl) core ≤ coreShare s core

-- ===== pair words =====

/-- R30, R104, R116 and R133: a pair word completes both its slots in one issue. Whatever result the F-form twin of a slot
would put in flight in this state, the pair puts in flight for that slot: both read before either writes. ivmeet without .ne
is stated where no active lane's meet is empty. -/
def Obligations.PairWords : Prop :=
  ∀ (i : Instr) (sw : Bool) (x y : Slot) (s : State) (t : Team), i.slots = some (sw, x, y) → Issuing s t →
    let hdr := fun z : Slot => slotHdr sw z.args.g
    (∀ z ∈ [x, y], z.op = .ivmeet → z.args.cls.getLsbD 0 = false → ∀ l ∈ activeLanes t (hdr z),
      (ivMeetVal (readIv s s.cur t ⟨.n, .v z.args.d⟩ l) (readIv s s.cur t ⟨.n, z.args.b⟩ l)).isSome) →
    ∃ s' ps qs, exec i s = .next s' ∧ TeamOnly s s' (t.issued (hdr x) (t.pc + 8) (ps ++ qs)) ∧
      ∀ z out, (z = x ∧ out = ps) ∨ (z = y ∧ out = qs) →
        if (activeLanes t (hdr z)).isEmpty then out = []
        else ∃ p, out = [p] ∧ ∀ lat res fl, Computes (slotTwin sw z) s t (hdr z) lat res fl → IsResult p t (hdr z) lat res fl

-- ===== memory =====

/-- R224 and R225: what a lane's access of n bytes at address a meets, the first rule broken in the order of the table: an
address that is no multiple of n; in scratchpad a byte outside the window; in .cn, which is not translated by a TLB, a byte at or
beyond the section's size; in .gl and .vt an address above 2^48, a page without a valid translation, then the permissions of its
leaf. A lane that waited on a walk names the address that asked for the walk, which is the model's reading of R388 (log 76). A .cn
access beyond the section names its offset, and one that is misaligned its virtual address (R376, R388). The order of the leaf's
faults is the model's reading (log 67). -/
def Obligations.LaneAddressRules : Prop :=
  ∀ (s : State) (f : Nat) (t : Team) (space : Space) (need : Need) (n a leaf bits : Nat), 0 < n →
    let b := s.blockOf t
    let k := s.kernelOf t
    let l := Leaf.ofNat leaf
    let pa := l.frame * 65536 + a % 2 ^ bits
    let inCn := (k.cnAddr + a) % 2 ^ 64
    (a % n ≠ 0 → laneSpot s f t space need n a = (s, .fault .misaligned (if space = .cn then inCn else a))) ∧
    (a % n = 0 →
      laneSpot s f t .sp need n a = (s, if a + n ≤ 256 * b.rows then .found (.sp b.cluster (256 * b.base + a)) a 0 false
        else .fault .scratchRange a) ∧
      (k.cnSize < a + n → laneSpot s f t .cn need n a = (s, .fault .cnRange a)) ∧
      (a + n ≤ k.cnSize → ∀ s1 pc, walkHeld s t.partition (k.cnAddr + a) .read = (s1, .ok pc) →
        laneSpot s f t .cn need n a = (s1, .found (.home pc) (k.cnAddr + a) 0 false)) ∧
      (2 ^ 48 ≤ a → laneSpot s f t .gl need n a = (s, .fault .pageFault a) ∧
        laneSpot s f t .vt need n a = (s, .fault .pageFault a)) ∧
      (a < 2 ^ 48 → windowOf s t.partition a = none → ∀ vt : Bool,
        let spot := laneSpot s f t (if vt then .vt else .gl) need n a
        let gives := fun loc : Nat =>
          if l.x = false ∧ l.pn ≠ t.partition then Spot.fault .accessDenied loc
          else if need = .read ∧ l.r = false then .fault .accessDenied loc
          else if need = .write ∧ l.sealed = true then .fault .sealedStore loc
          else if need = .write ∧ l.w = false then .fault .accessDenied loc
          else if vt = true ∧ 0x180000000 ≤ pa then .fault .spaceMismatch loc
          else .found (.home pa) a l.ver l.x
        let walked := t.xlat.find? fun x => x.page == a / 2 ^ 16
        let held := tlbFind (s.core (f / 8)) t.partition a
        (∀ x, walked = some x → (x.leaf = none → spot = (s, .fault .pageFault x.va)) ∧
          (x.leaf = some leaf → x.size = bits → spot = (s, gives x.va))) ∧
        (walked = none → (∀ e, held = some e → e.leaf = leaf → e.bits = bits → spot = (s, gives a)) ∧
          (held = none → spot = (s, .miss (a / 2 ^ 16) a)))))

/-- R226, R228 and R229: ld, st and pref complete. Each active lane's access at rd(A) + sext(offset) is in flight, holding for
st the low bytes of B; a warp of a load that has bound to an entry of the value store holds its value instead. Nothing is
written yet: memory, scratchpad and registers are unchanged. A store is marked whole where the lanes of its word together write
every byte of its error block (R382). Stated where each access is found, no race is met and no error lies in wait; an ld.iv reads
as it issues and is stated in IntervalLoads. pref, where no lane waits for a walk, changes no register, and no data where no frame
is under retirement, whose report the walk of a .cn line may let out first (log 26). -/
def Obligations.LoadsAndStoresIssue : Prop :=
  ∀ (h : Hdr) (space : Space) (w : Width) (hint : Hint) (d : Dst) (a data : Src) (off : BitVec 16) (s : State) (t : Team)
    (place : Nat → AccPlace) (va ver : Nat → Nat) (shared : Nat → Bool), Issuing s t →
    let act := activeLanes t h
    let n := widthBytes w
    let addr := fun l => (((readSrc s s.cur t .int a l).toNat + off.toInt) % 2 ^ 64).toNat
    let val := fun l => readSrc s s.cur t (if w = .iv then .ivl else .int) data l
    let acc := fun (k : AccKind) (x : Nat) (cn whole : Bool) (l : Nat) =>
      ({ team := s.cur, block := t.block, partition := t.partition, cluster := s.cur / 48, issue := t.issues, lane := l, kind := k,
         place := place l, va := va l, size := n, data := x, hint, cn, ver := ver l, word := t.pc, shared := shared l, whole } : Acc)
    let wholeBlock := fun l => ∃ pa, place l = .home pa ∧ pa < 0x80000000000 ∧
      ∀ y, y / 32 = pa / 32 → ∃ m ∈ act, ∃ pb, place m = .home pb ∧ pb ≤ y ∧ y < pb + n
    let reaches := fun (need : Need) => ∀ l ∈ act,
      laneSpot s s.cur t space need n (addr l) = (s, .found (place l) (va l) (ver l) (shared l))
    let after := fun ps => ({ t with xlat := [] } : Team).issued h (t.pc + 8) ps
    (NoErrors s →
      (w ≠ .iv → reaches .read → (∃ m, raceCheck (s.blockOf t) t.index false (touches act place va n) = .ok m) →
        ∃ s' ps, exec (.ld h space w hint d a off) s = .next s' ∧ MemFrame s s' ∧ tfind s'.teams s.cur = some (after ps) ∧
          if act.isEmpty then ps = []
          else ∃ p, ps = [p] ∧ p.issue = t.issues ∧ p.lat = .variable ∧ p.lanes = act ∧ p.flags = 0 ∧
            p.writes.map (·.reg) = [dstReg d] ∧
            ∀ l ∈ act, (∃ k, s.seq ≤ k ∧ tfind s'.accs k = some (acc (.load w) 0 (space == .cn) false l)) ∨
              (∃ pa, place l = .home pa ∧ ∀ x ∈ p.writes, (l, loadVal w (memGet s pa n)) ∈ x.vals) ∨
              ∃ pkg y line, place l = .remote pkg y ∧ heldRemote s (s.cur / 48) t.partition pkg y (va l) = some line ∧
                ∀ x ∈ p.writes, (l, loadVal w (bytesGet line.data (y % 256) n)) ∈ x.vals) ∧
      (reaches .write → (∃ m, raceCheck (s.blockOf t) t.index true (touches act place va n) = .ok m) →
        (w = .iv → ∀ l ∈ act, Iv.ofWord (val l) ≠ .illFormed) →
        ∃ s', exec (.st h space w hint a data off) s = .next s' ∧ MemFrame s s' ∧ tfind s'.teams s.cur = some (after []) ∧
          ∀ l ∈ act, ∃ k whole, s.seq ≤ k ∧ (whole = true ↔ wholeBlock l) ∧
            tfind s'.accs k = some (acc .store ((val l).toNat % 2 ^ (8 * n)) false whole l))) ∧
    ((∀ l ∈ act, ∀ page u, (laneSpot s s.cur t space .read 1 (addr l)).2 ≠ .miss page u) →
      ∃ s', exec (.pref h space hint a off) s = .next s' ∧ (s.retiring = [] → DataKept s s') ∧
        tfind s'.teams s.cur = some (after []) ∧ ∀ f, f ≠ s.cur → tfind s'.teams f = tfind s.teams f)

/-- R66 and R226: an ld.iv from scratchpad completes with the eight bytes of each active lane, once every access of it may be
performed. A lane that reads an ill-formed interval parks with bad-interval, and D is unchanged there. -/
def Obligations.IntervalLoads : Prop :=
  ∀ (h : Hdr) (hint : Hint) (d : Dst) (a : Src) (off : BitVec 16) (s : State) (t : Team),
    Issuing s t → NoErrors s → t.handler = none →
    let act := activeLanes t h
    let b := s.blockOf t
    let addr := fun l => (((readSrc s s.cur t .int a l).toNat + off.toInt) % 2 ^ 64).toNat
    let val := fun l => BitVec.ofNat 64 (bytesGet (s.cluster b.cluster).sp (256 * b.base + addr l) 8)
    let bad := act.filter fun l => Iv.ofWord (val l) == .illFormed
    let good := act.filter fun l => !(Iv.ofWord (val l) == .illFormed)
    (∀ l ∈ act, addr l % 8 = 0 ∧ addr l + 8 ≤ 256 * b.rows ∧
      accMayPerform s s.seq (laneAcc s.cur t (.load .iv) 8 0 hint false l (.sp b.cluster (256 * b.base + addr l)) (addr l) 0) = true) →
    (∃ m, raceCheck b t.index false (touches act (fun l => .sp b.cluster (256 * b.base + addr l)) addr 8) = .ok m) →
    act ≠ [] → t.mask &&& ~~~(laneSet bad) ≠ 0 →
      ∃ s' p, exec (.ld h .sp .iv hint d a off) s = .next s' ∧ DataKept s s' ∧
        tfind s'.teams s.cur = some (bad.foldl (fun u l => u.park l 8 (addr l) t.pc) (({ t with xlat := [] } : Team).issued h (t.pc + 8) [p])) ∧
        p.writes.map (·.reg) = [dstReg d] ∧ (∀ x ∈ p.writes, x.vals = good.map fun l => (l, val l)) ∧ p.accs = 0 ∧ p.lat = .variable

/-- R218, R228 and R322: a store is performed at one moment: its bytes hold its data, every other byte of memory and scratchpad
is as it was, and no team has changed. The stores of a word that together write an error block whole are performed as one, in
lane order. Stated where nothing older holds them back and no error lies in wait. -/
def Obligations.StoresArePerformed : Prop :=
  ∀ (s : State) (key : Nat) (a : Acc), tfind s.accs key = some a → a.kind = .store → NoErrors s → accMayPerform s key a = true →
    0 < a.size →
    (∀ cl x, a.place = .sp cl x → ∃ s', exec (.plainSpAccessPerformed key) s = .next s' ∧
      bytesGet (s'.cluster cl).sp x a.size = a.data % 256 ^ a.size ∧
      (∀ y, y < x ∨ x + a.size ≤ y → tget (s'.cluster cl).sp y 0 = tget (s.cluster cl).sp y 0) ∧
      (∀ c, c ≠ cl → s'.cluster c = s.cluster c) ∧
      { s' with clusters := s.clusters } = { s with accs := tdel s.accs key }) ∧
    ∀ pa, a.place = .home pa → pa + a.size ≤ 0x80000000000 →
      let home := fun (l : Tab Acc) (writes : Tab Byte → Prop) => ∃ s', exec (.homeStorePerformed key) s = .next s' ∧
        writes s'.mem ∧ (∀ c, (s'.cluster c).sp = (s.cluster c).sp ∧ (s'.cluster c).acc = (s.cluster c).acc) ∧
        { s' with clusters := s.clusters, mem := s.mem, llc := s.llc, seq := s.seq } = { s with accs := l }
      (a.whole = false → home (tdel s.accs key) fun m => bytesGet m pa a.size = a.data % 256 ^ a.size ∧
        ∀ y, y < pa ∨ pa + a.size ≤ y → tget m y 0 = tget s.mem y 0) ∧
      let group := s.accs.filter fun e => e.2.team == a.team && e.2.issue == a.issue && e.2.whole && (match e.2.place with
        | .home p => p / 32 == pa / 32
        | _ => false)
      let others := s.accs.filter fun e => !group.any fun x => x.1 == e.1
      (a.whole = true → (∀ e ∈ group, accMayPerform { s with accs := others } e.1 e.2 = true) →
        home others fun m => ∀ y, tget m y 0 = tget (putBytes s.mem (group.flatMap fun e => homeBytes e.2)) y 0)

/-- R226, R199 and R339: a load or an atomic in scratchpad is performed at one moment. The load takes the bytes that are there;
the atomic takes the old value and leaves the new one that the table gives, and nothing where .cas does not match. Every other
byte is as it was. `takeValue` hands the value to the result that waits for it (ResultsLand). R226, R322 and R340: the same of a
load or an atomic at its home in this package, in the VARIABLE_LATENCY_WRITEBACK of its lane; stated for a load whose line its
cluster's L1 does not hold. -/
def Obligations.ReadsAndAtomicsArePerformed : Prop :=
  let back := fun (u : State) (a : Acc) (v : Word) => takeValue u a.team a.issue a.lane (some v)
  let loaded := fun (w : Width) (bytes : Nat) => match w with
    | .s8 => BitVec.ofNat 64 ((BitVec.ofNat 8 bytes).signExtend 32).toNat
    | .s16 => BitVec.ofNat 64 ((BitVec.ofNat 16 bytes).signExtend 32).toNat
    | _ => BitVec.ofNat 64 bytes
  let left := fun (op : AtomOp) (ty : Ty) (b c : Word) (bytes : Nat) => match atomicLeaves op ty bytes b c with
    | some v => v.toNat
    | none => bytes
  (∀ (s : State) (key cl x : Nat) (a : Acc), tfind s.accs key = some a → a.place = .sp cl x → NoErrors s →
    accMayPerform s key a = true →
    let bytes := bytesGet (s.cluster cl).sp x a.size
    let s1 := { s with accs := tdel s.accs key }
    (∀ w, a.kind = .load w → (w = .iv → Iv.ofWord (BitVec.ofNat 64 bytes) ≠ .illFormed) →
      exec (.plainSpAccessPerformed key) s = .next (back s1 a (loaded w bytes))) ∧
    ∀ op ty b c, a.kind = .atomic op ty b c → (ty.bits = 32 ∨ ty.bits = 64) → a.size = ty.bits / 8 →
      ∃ u, exec (.plainSpAccessPerformed key) s = .next (back u a (BitVec.ofNat 64 bytes)) ∧
        { u with clusters := s.clusters } = s1 ∧ (∀ k, k ≠ cl → u.cluster k = s.cluster k) ∧
        (∀ y, y < x ∨ x + a.size ≤ y → tget (u.cluster cl).sp y 0 = tget (s.cluster cl).sp y 0) ∧
        bytesGet (u.cluster cl).sp x a.size = left op ty b c bytes) ∧
  ∀ (s : State) (key pa : Nat) (a : Acc) (t : Team) (p : Pend), laneAccess s a.team a.issue a.lane = some (key, a) →
    a.place = .home pa → pa < 0x80000000000 → NoErrors s → accMayPerform s key a = true → tfind s.teams a.team = some t →
    (t.pend.find? fun q => q.issue == a.issue && q.lat == .variable) = some p → p.accs ≠ 0 →
    let bytes := bytesGet s.mem pa a.size
    let performs := fun (v : Word) (writes : Tab Byte → Prop) => ∃ u,
      exec (.variableLatencyWriteback a.team a.issue a.lane) s = .next (back u a v) ∧ writes u.mem ∧
      (∀ c, (u.cluster c).sp = (s.cluster c).sp ∧ (u.cluster c).acc = (s.cluster c).acc) ∧
      { u with clusters := s.clusters, mem := s.mem, llc := s.llc, seq := s.seq } = { s with accs := tdel s.accs key }
    (∀ w, a.kind = .load w → (w = .iv → Iv.ofWord (BitVec.ofNat 64 bytes) ≠ .illFormed) →
      l1Find s a.cluster a.partition none (pa / 256) a.ver a.cn = none → performs (loaded w bytes) fun m => m = s.mem) ∧
    ∀ op ty b c, a.kind = .atomic op ty b c → (ty.bits = 32 ∨ ty.bits = 64) → a.size = ty.bits / 8 →
      performs (BitVec.ofNat 64 bytes) fun m => bytesGet m pa a.size = left op ty b c bytes ∧
        ∀ y, y < pa ∨ pa + a.size ≤ y → tget m y 0 = tget s.mem y 0

/-- R342, R339 and R340: an atomic completes: without a release part it issues at once, and one access of each active lane is
in flight with its operands; with one it waits, unissued, until the team's earlier accesses are done. Memory, scratchpad and
registers are unchanged until the accesses are performed. -/
def Obligations.AtomicsIssue : Prop :=
  ∀ (h : Hdr) (ty : Ty) (op : AtomOp) (space : AtomSpace) (order : AtomOrder) (scope : Scope) (d : Dst) (a b : Src) (c : Option Src)
    (s : State) (t : Team) (place : Nat → AccPlace) (va ver : Nat → Nat) (shared : Nat → Bool), Issuing s t → NoErrors s →
    let act := activeLanes t h
    let rel := order = .rel ∨ order = .ar
    let val := fun (x : Src) (l : Nat) => readSrc s s.cur t (if ty = .f32 then .flt .f32 else .int) x l
    (rel → t.lostStore = false → releaseReady s s.cur t scope = false →
      exec (.atom h ty op space order scope d a b c) s = .next s) ∧
    ((¬rel ∨ (t.lostStore = false ∧ releaseReady s s.cur t scope = true)) → act ≠ [] →
      (∀ l ∈ act, laneSpot s s.cur t (match space with
          | .gl => .gl
          | .sp => .sp
          | .vt => .vt) .write (ty.bits / 8) (readSrc s s.cur t .int a l).toNat =
            (s, .found (place l) (va l) (ver l) (shared l))) →
      ∃ s' p, exec (.atom h ty op space order scope d a b c) s = .next s' ∧ MemFrame s s' ∧
        tfind s'.teams s.cur = some (({ t with xlat := [] } : Team).issued h (t.pc + 8) [p]) ∧
        p.issue = t.issues ∧ p.lat = .variable ∧ p.lanes = act ∧ p.writes = [⟨dstReg d, []⟩] ∧ p.accs = act.length ∧
        p.acq = (if order = .acq ∨ order = .ar then some scope else none) ∧
        ∀ l ∈ act, ∃ k, s.seq ≤ k ∧ tfind s'.accs k = some
          { team := s.cur, block := t.block, partition := t.partition, cluster := s.cur / 48, issue := t.issues, lane := l
            kind := .atomic op ty (val b l) (match c with
              | some x => val x l
              | none => 0)
            place := place l, va := va l, size := ty.bits / 8, ver := ver l, word := t.pc, shared := shared l })

/-- R144, R145 and R81: a result that lands writes its registers and raises its flags, and nothing else of the team: every
register that it does not name, every lane that it does not hold, the masks, the pc and the stack are as they were; an older
result in flight loses what a newer one writes. A fixed result has landed at the issue its latency after its own; one of variable
latency whose accesses have all returned, and a token whose value is known, land in VARIABLE_LATENCY_WRITEBACK, whatever other
results are in flight. -/
def Obligations.ResultsLand : Prop :=
  ∀ (s : State) (f n lane : Nat) (t : Team) (p : Pend) (before after : List Pend), tfind s.teams f = some t →
    t.pend = before ++ p :: after → (∀ q ∈ before ++ after, q.issue ≠ p.issue) → p.acq = none → p.tags = [] →
    (∀ w ∈ p.writes, w.reg ≠ .p 0) → (p.writes.map (·.reg)).Nodup → (∀ w ∈ p.writes, (w.vals.map (·.1)).Nodup) →
    (∀ w ∈ p.writes, ∀ x ∈ w.vals, x.1 < 1024) →
    let given := fun (r : Reg) (l : Nat) => ∃ w ∈ p.writes, w.reg = r ∧ ∃ v, (l, v) ∈ w.vals
    let lands := fun (s' : State) => ∃ t', s' = s.setTeam f t' ∧
      { t' with v := t.v, k := t.k, kFresh := t.kFresh, p := t.p, t := t.t, flags := t.flags, pend := t.pend } = t ∧
      t'.pend = (before ++ after).map (fun q => if q.issue < p.issue then p.yield q else q) ∧ t'.flags = t.flags ||| p.flags ∧
      (∀ w ∈ p.writes, ∀ l v, (l, v) ∈ w.vals → match w.reg with
        | .v r => readV t' r l = v
        | .p r => tget t'.p (laneKey r l) 0 = v.setWidth 2
        | .k r => w.vals = [(l, v)] → readK t' r = v
        | .t r => w.vals = [(l, v)] → tget t'.t r 0 = v) ∧
      (∀ r l, l < 1024 → ¬given (.v r) l → readV t' r l = readV t r l) ∧
      (∀ r l, l < 1024 → ¬given (.p r) l → tget t'.p (laneKey r l) 0 = tget t.p (laneKey r l) 0) ∧
      (∀ r, (∀ l, ¬given (.k r) l) → readK t' r = readK t r) ∧ (∀ r, (∀ l, ¬given (.t r) l) → tget t'.t r 0 = tget t.t r 0)
    (∀ m, p.lat = .fixed m → before = [] → after = [] → if p.issue + m ≤ n then lands (landAt s f n) else landAt s f n = s) ∧
    (∀ q : Pend, { p.yield q with writes := q.writes, tags := q.tags } = q ∧
      (p.yield q).writes.length = q.writes.length ∧
      ∀ w' ∈ (p.yield q).writes, ∃ w ∈ q.writes, w'.reg = w.reg ∧ ∀ x, x ∈ w'.vals ↔ x ∈ w.vals ∧
        ¬∃ n ∈ p.writes, n.reg = w.reg ∧ ∃ y ∈ n.vals, y.1 = x.1 ∨ (∃ j, w.reg = .k j) ∨ ∃ j, w.reg = .t j) ∧
    ((p.lat = .variable ∧ p.accs = 0) ∨ (p.lat = .token ∧ ∀ w ∈ p.writes, w.vals ≠ []) →
      ∃ s', exec (.variableLatencyWriteback f p.issue lane) s = .next s' ∧ lands s')

/-- R130 to R132: ivbis completes. A lane whose interval is a point, empty or NaI writes it back with F; the others ask for a
slot in lane order. The j-th takes slot count + j while that is below cap: it keeps the lower half with T, and the entry holds
the upper half and the tag; with the list full it keeps its interval with F. The count word rises by the slots taken. Stated
where the count word and the slots lie in the window, every access may be performed, and no race is met. -/
def Obligations.BisectionAppends : Prop :=
  ∀ (h : Hdr) (d : BitVec 7) (a : MSrc) (q : BitVec 6) (tag : Src) (pc : BitVec 4) (s : State) (t : Team),
    Issuing s t → NoErrors s →
    let act := activeLanes t h
    let b := s.blockOf t
    let w := readK t q.toNat
    let cnt := 4 * (w.extractLsb' 38 20).toNat
    let cap := (w.extractLsb' 18 20).toNat
    let base := (w.extractLsb' 0 18).toNat
    let sp := (s.cluster b.cluster).sp
    let at' := fun off => 256 * b.base + off
    let count := bytesGet sp (at' cnt) 4
    let iv := fun l => readIv s s.cur t a l
    let asks := fun l => match iv l with
      | .proper lo hi => FV.cmp lo hi != .eq
      | _ => false
    let rank := fun l => (act.filter fun m => asks m && decide (m < l)).length
    let takes := fun l => asks l && decide (count + rank l < cap)
    let slot := fun l => 16 * (base + count + rank l)
    let may := fun off n => accMayPerform s s.seq (laneAcc s.cur t .store n 0 .none false 0 (.sp b.cluster (at' off)) off 0) = true
    cnt + 4 ≤ 256 * b.rows → may cnt 4 → (∀ l ∈ act, takes l = true → slot l + 16 ≤ 256 * b.rows ∧ may (slot l) 16 ∧
      (slot l + 16 ≤ cnt ∨ cnt + 4 ≤ slot l)) →
    (∃ m, raceCheck b t.index true ((act.filter takes).flatMap fun l => (windowGranules (slot l) 16).map fun g => (l, g)) = .ok m) →
    act ≠ [] →
      ∃ s' p, exec (.ivbis h d a q tag pc) s = .next s' ∧ tfind s'.teams s.cur = some (t.issued h (t.pc + 8) [p]) ∧
        p.lat = .variable ∧ p.lanes = act ∧
        p.writes = ((([.v d.toNat, pReg pc] : List Reg).filter fun r => r != .p 0).map fun r => ⟨r, act.map fun l => (l,
          if r = pReg pc then (if takes l then 1 else 0)
          else match iv l with
            | .proper lo hi => if takes l then ivWord lo (ivMid lo hi) else ivWord lo hi
            | .empty => emptyWord
            | _ => naiWord)⟩) ∧
        let sp' := (s'.cluster b.cluster).sp
        bytesGet sp' (at' cnt) 4 = count + (act.filter takes).length ∧
        (∀ l ∈ act, takes l = true → ∀ lo hi, iv l = .proper lo hi →
          bytesGet sp' (at' (slot l)) 8 = (ivWord (ivMid lo hi) hi).toNat ∧
          bytesGet sp' (at' (slot l + 8)) 8 = (readSrc s s.cur t .int tag l).toNat % 2 ^ 32) ∧
        (∀ y, (y < at' cnt ∨ at' (cnt + 4) ≤ y) → (∀ l ∈ act, takes l = true → y < at' (slot l) ∨ at' (slot l + 16) ≤ y) →
          tget sp' y 0 = tget sp y 0) ∧
        s'.mem = s.mem ∧ ∀ k, k ≠ b.cluster → s'.cluster k = s.cluster k

/-- R233, R236 and R237: tkchk completes at L4 with the token's value, or 0xFF while it is outstanding; lyset completes with its
slot pending on the address, and changes no register; the read of a pending slot waits for the team's earlier accesses to the
record (R327), for the acquire part of an earlier atomic, and for a walk where it has no translation (R320), and then holds the
record, or leaves the slot faulted where the address is no multiple of 64. It changes no data, but for the report of a frame under
retirement that it meets (log 26). -/
def Obligations.TokensAndLayoutSlots : Prop :=
  ∀ (h : Hdr) (d : Dst) (tok : BitVec 6) (space : Space) (hint : Hint) (grp : BitVec 4) (base : Option (BitVec 6)) (off : BitVec 16)
    (s : State) (t : Team), Issuing s t →
    (Computes (.tkchk h d tok) s t h L4 [(dstReg d, fun _ => some (if t.pend.any (fun p =>
        p.lat == .token && p.writes.any fun w => w.reg == .k tok.toNat) then 0xFF else readK t tok.toNat))] fun _ => 0) ∧
    (if (tget t.slots grp.toNat {}).state = .pending then exec (.lyset h space hint grp base off) s = .next s
     else
      let b := match base with
        | some k => (readK t k.toNat).toNat
        | none => 0
      let slot : LySlot := { state := .pending, record := 0, addr := ((b + off.toInt) % 2 ^ 64).toNat, cn := space == .cn, hint
                             issue := t.issues }
      Goes (.lyset h space hint grp base off) s
        (({ t with slots := tput t.slots grp.toNat slot } : Team).issued h (t.pc + 8) [])) ∧
    ∀ f u n, tfind s.teams f = some u → (tget u.slots n {}).state = .pending →
      let x := tget u.slots n {}
      let held := (∃ e ∈ s.accs, e.2.team = f ∧ e.2.issue < x.issue ∧ ∃ p q, e.2.place = .home p ∧
        slotPlace s f u x = some q ∧ p < q + 64 ∧ q < p + e.2.size) ∨ (∃ p ∈ u.pend, p.acq ≠ none ∧ p.issue < x.issue) ∨
        ∃ w ∈ s.walks, .slot f n ∈ w.2.others
      (held → exec (.layoutSlotLoaded f n) s = .next s) ∧
      (¬held → ∃ s', exec (.layoutSlotLoaded f n) s = .next s' ∧ (s.retiring = [] → DataKept s s') ∧
        (slotRead s f u x = none →
          s' = askWalkFor s (f / 3072) u.partition (slotAddr s u x / 2 ^ 16) (slotAddr s u x) (.slot f n)) ∧
        (x.addr % 64 ≠ 0 → s' = s.setTeam f { u with slots := tput u.slots n { x with state := .faulted, xlat := [] } }) ∧
        ∀ s1 rec, slotRead s f u x = some (s1, some rec) → tfind s1.teams f = some u →
          s' = s1.setTeam f { u with slots := tput u.slots n { x with state := .loaded, record := rec, xlat := [] } })

-- ===== copies, tiles and the matrix array =====

/-- R255 to R274, R213, R214, R219, R246 to R249: the matrix and relation words complete. tdesc writes its register at L4, the
low 14 bits of A with B added. Every other word puts its operation into the cluster, in issue order, with its range-scoreboard
entry: mma, mmab, ocmp, rcount, rcomp, rclose, rtrans, qcvt, qexp and mdrain need their tiles valid and of the formats and shapes
of their rules, or trap with bad-tile; those that name an accumulator need their block to hold them, in the mode of the rule, or
trap with bad-accumulator; with no entry free the word waits, unissued. An mdrain to memory takes no entry and waits for a
pending layout slot. -/
def Obligations.MatrixWordsIssue : Prop :=
  ∀ (h : Hdr) (s : State) (t : Team) (acc : BitVec 2) (d a b : BitVec 4) (ka : BitVec 6) (kb : Option (BitVec 6)) (flag ctr : Bool)
    (planes : BitVec 4), Issuing s t →
    let bl := s.blockOf t
    let T := fun r => tileOf t r
    let w := fun r => tget t.t (BitVec.toNat r) 0
    let iv := fun r => (T r).interval bl.base
    let valid := fun r => (T r).ok bl.rows = true
    let rel := fun r => valid r ∧ (T r).fmt = .rel
    let op := fun (b : Nat) (k : OpKind) =>
      ({ team := s.cur, block := t.block, partition := t.partition, index := t.index, word := t.pc, opByte := b, issue := t.issues
         token := none, kind := k, space := .sp, hint := .none } : AsyncOp)
    let free := entriesFree s (s.cur / 48) t.partition 1 = true
    let goes := fun (i : Instr) (x : AsyncOp) (reads : List Interval) (write : Option Interval) (ps : List Pend) =>
      (free → Queues i s t h x (some { partition := t.partition, reads, write }) ps) ∧ (¬free → AwaitsEntries i s t 1)
    let may := fun (i : Instr) (tiles : Prop) (x : AsyncOp) (reads : List Interval) (write : Option Interval) (ps : List Pend) =>
      (¬tiles → Traps i s t .badTile) ∧ (tiles → goes i x reads write ps)
    let mode := accMode (s.cluster (s.cur / 48)) acc.toNat
    let mayAcc := fun (i : Instr) (tiles : Prop) (i96 : Bool) (x : AsyncOp) (reads : List Interval) =>
      (¬tiles → Traps i s t .badTile) ∧ (tiles → ¬(bl.holdsAcc = true ∧ mode = i96) → Traps i s t .badAccumulator) ∧
      (tiles → bl.holdsAcc = true → mode = i96 → goes i x reads none [])
    Goes (.tdesc h d ka kb) s (t.issued h (t.pc + 8) [
      let x := readK t ka.toNat
      let y := match kb with
        | some k => readK t k.toNat
        | none => 0
      { issue := t.issues, lat := L4, writes := [⟨.t d.toNat, [(0, (x &&& ~~~0x3FFF#64) ||| ((x + y) &&& 0x3FFF#64))]⟩]
        lanes := [0] }]) ∧
    (bl.holdsAcc = false → Traps (.mzero h flag acc) s t .badAccumulator) ∧
    (bl.holdsAcc = true → Queues (.mzero h flag acc) s t h (op 0x91 (.mzero flag acc.toNat)) none []) ∧
    mayAcc (.mma h flag acc a b) (valid a ∧ valid b ∧ (T a).fmt = (T b).fmt ∧
      ((T a).fmt = .f16 ∨ (T a).fmt = .bf16 ∨ (T a).fmt = .f32) ∧ (T a).cols = if flag then (T b).cols else (T b).rows) false
      (op 0x92 (.mma flag acc.toNat (w a) (w b))) [iv a, iv b] ∧
    mayAcc (.mmab h flag ctr planes acc a b) (valid a ∧ valid b ∧ (T a).fmt = .bp ∧ (T b).fmt = .bp ∧ (T a).cols = (T b).rows) (!flag)
      (op 0x93 (.mmab flag ctr planes.toNat acc.toNat (w a) (w b))) [iv a, iv b] ∧
    may (.rcount h d a) (rel a ∧ valid d ∧ (T d).fmt = .s32 ∧ (T d).rows = 1 ∧ (T d).cols = (T a).rows)
      (op 0x96 (.rcount (w d) (w a))) [iv a] (some (iv d)) [] ∧
    may (.rclose h flag d a) (rel a ∧ (T a).cols = (T a).rows ∧ rel d ∧ (T d).rows = (T a).rows ∧ (T d).cols = (T a).rows)
      (op 0x97 (.rclose flag (w d) (w a))) [iv a] (some (iv d)) [] ∧
    may (.rcomp h d a b) (rel a ∧ rel b ∧ (T b).rows = (T a).cols ∧ rel d ∧ (T d).rows = (T a).rows ∧ (T d).cols = (T b).cols)
      (op 0x98 (.rcomp (w d) (w a) (w b))) [iv a, iv b] (some (iv d)) [] ∧
    may (.rtrans h d a) (rel a ∧ rel d ∧ (T d).rows = (T a).cols ∧ (T d).cols = (T a).rows)
      (op 0x99 (.rtrans (w d) (w a))) [iv a] (some (iv d)) [] ∧
    (∀ m : OcmpMode, may (.ocmp h m d a b)
      (valid a ∧ (T a).rows = 1 ∧ valid b ∧ (T b).rows = 1 ∧ (T a).fmt = (T b).fmt ∧
        ((T a).fmt = .f16 ∨ (T a).fmt = .bf16 ∨ (T a).fmt = .f32 ∨ (T a).fmt = .s32 ∨ (T a).fmt = .iv) ∧
        rel d ∧ (T d).rows = (T a).cols ∧ (T d).cols = 8 * (((T b).cols + 7) / 8) ∧
        ((T a).fmt = .iv → d.toNat % 2 = 0 ∧ m ≠ .gtix ∧ rel (d + 1) ∧ (T (d + 1)).rows = (T a).cols ∧
          (T (d + 1)).cols = 8 * (((T b).cols + 7) / 8)))
      { op 0x95 (.ocmp m (w d) (w a) (w b)) with kdest := if (T a).fmt = .iv then some (w (d + 1)).toNat else none } [iv a, iv b]
      (some (if (T a).fmt = .iv then (iv d).join (iv (d + 1)) else iv d)) []) ∧
    (let q := readK t ka.toNat
     let list := (q.extractLsb' 32 22).toNat
     let side := fun r c => (q.extractLsb' 54 10 = 0) ∧ list % 2 = 0 ∧ list + 2 * r * c ≤ 256 * bl.rows
     let r := (T a).rows
     let c := (T a).cols
     let cap : Interval := ⟨(256 * bl.base + list) / 32, (256 * bl.base + list + 2 * r * c + 31) / 32⟩
     (∀ n : BitVec 6, may (.qcvt h n a b d ka)
        (valid a ∧ (T a).fmt = .f32 ∧ c % 64 = 0 ∧ valid d ∧ (T d).fmt = .bp ∧ (T d).rows = r ∧ (T d).cols = c ∧
          rel b ∧ (T b).rows = r ∧ (T b).cols = c ∧ side r c)
        (op 0x9A (.qcvt (w d) (w b) (w a) q)) [iv a] (some (((iv d).join (iv b)).join cap))
        [{ issue := t.issues, lat := .variable, writes := [⟨.k n.toNat, []⟩], accs := 1, lanes := [0] }]) ∧
      may (.qexp h ctr planes d a b ka)
        (valid a ∧ (T a).fmt = .bp ∧ rel b ∧ (T b).rows = r ∧ (T b).cols = c ∧ valid d ∧ (T d).fmt = .f32 ∧ (T d).rows = r ∧
          (T d).cols = c ∧ side r c)
        (op 0x9B (.qexp ctr planes.toNat (w d) (w a) (w b) q)) [iv a, (iv b).join cap] (some (iv d)) []) ∧
    ∀ (tok : BitVec 6) (clr add : Bool) (hint : Hint) (grp : BitVec 4) (vt : Bool),
      let fits := fun (r : BitVec 4) => (T r).fmt = .f32 ∧ (mode = false ∨ bl.holdsAcc = false) ∨
        (T r).fmt = .s32 ∧ (mode = true ∨ bl.holdsAcc = false)
      let sp : Instr := .mdrain h .sp .none clr add tok acc a none
      let mem : Instr := .mdrain h (if vt then .vt else .gl) hint clr add tok acc a (some grp)
      (¬(valid a ∧ fits a) → Traps sp s t .badTile) ∧ (¬((T a).shapeOk = true ∧ fits a) → Traps mem s t .badTile) ∧
      (valid a → fits a → bl.holdsAcc = false → Traps sp s t .badAccumulator) ∧
      (valid a → fits a → bl.holdsAcc = true →
        goes sp { op 0x94 (.drainSp acc.toNat (w a) clr add) with token := some tok.toNat } [] (some (iv a)) [tokenInFlight t tok]) ∧
      ((T a).shapeOk = true → fits a →
        let slot := tget t.slots grp.toNat {}
        (bl.holdsAcc = false → Traps mem s t .badAccumulator) ∧
        (bl.holdsAcc = true → slot.state = .pending → exec mem s = .next s) ∧
        (bl.holdsAcc = true → slot.state = .loaded ∨ slot.state = .empty →
          let k := fun n => readK t (4 * grp.toNat + n)
          ∃ preset, let x : AsyncOp := { op 0x94 (.drainMem acc.toNat (w a) clr add slot (k 0) (k 1) (k 2) (k 3)) with
              space := if vt then .vt else .gl, hint := hint, token := some tok.toNat, presetStatus := preset }
            (slot.state = .empty → preset = some 0x11) ∧
            ((∀ r ∈ opRuns s (s.cur / 48) x, windowOf s t.partition r.1 = none) → Queues mem s t h x none [tokenInFlight t tok])))

/-- R256 to R258, R260 to R262, R265 to R271, R273 and R274, with R217, R250, R253 and R254: what the operations of the matrix
array do, in ASYNC_OPERATION_START and MATRIX_OPERATION_COMPLETE. mzero clears its accumulator tile and sets its mode; mma adds its
products to the M x N region in ascending k, rounded once each; mmab adds integer products exactly, and under .scaled its scaled
products, each exact before it is added; rcount, rcomp, rclose and rtrans write the relation or counts of their rules into D; ocmp
compares every y with every x, and under .iv writes the certain and the possible plane; qcvt writes planes, scales, mask and side
list and gives the number of outliers; qexp writes values and outliers; mdrain delivers its region into a tile or into memory and
gives its token, and clears under .clr. Every other byte of scratchpad and memory and every other accumulator entry are as they
were. Stated where no error lies in wait and no frame is under retirement. Where destinations overlap one another, the later in the
order written here stands: the model's choice for qcvt (log 95), ocmp.iv (log 96) and mdrain (log 94). -/
def Obligations.MatrixResults : Prop :=
  ∀ (s : State) (cl key : Nat) (x : AsyncOp), tfind (s.cluster cl).ops key = some x → x.presetStatus = none → NoErrors s →
    engineFaultOf s cl x = none →
    let c := s.cluster cl
    let w0 := opBase s x
    let T := Tile.ofWord
    let bit := fun (sp : Tab Byte) (t : Tile) (i j : Nat) => t.elem sp w0 i j = 1
    let rel := fun (t : Tile) => t.ok 12288 = true ∧ t.fmt = .rel
    let outside := fun (t : Tile) (n : Nat) (y : Nat) => ∀ i, i < t.rows →
      y < 256 * w0 + 256 * (t.base + i * t.pitch) ∨ 256 * w0 + 256 * (t.base + i * t.pitch) + n ≤ y
    let ends := fun (d : Tile) (n : Nat) (gives : Tab Byte → Prop) => x.token = none → x.phase = .running →
      ∃ s', exec (.matrixOperationComplete cl key) s = .next s' ∧ { s' with clusters := s.clusters } = s ∧
        (∀ k, k ≠ cl → s'.cluster k = s.cluster k) ∧ (s'.cluster cl).acc = c.acc ∧ tfind (s'.cluster cl).ops key = none ∧
        tfind (s'.cluster cl).entries key = none ∧ gives (s'.cluster cl).sp ∧
        ∀ y, outside d n y → tget (s'.cluster cl).sp y 0 = tget c.sp y 0
    (∀ d a, x.kind = .rtrans d a → rel (T d) → rel (T a) → (T d).rows = (T a).cols → (T d).cols = (T a).rows →
      ends (T d) ((T d).cols / 8) fun sp => ∀ i j, i < (T a).rows → j < (T a).cols → (bit sp (T d) j i ↔ bit c.sp (T a) i j)) ∧
    (∀ d a b, x.kind = .rcomp d a b → rel (T d) → rel (T a) → rel (T b) → (T b).rows = (T a).cols → (T d).rows = (T a).rows →
      (T d).cols = (T b).cols →
      ends (T d) ((T d).cols / 8) fun sp => ∀ i j, i < (T a).rows → j < (T b).cols →
        (bit sp (T d) i j ↔ ∃ k, k < (T a).cols ∧ bit c.sp (T a) i k ∧ bit c.sp (T b) k j)) ∧
    (∀ refl d a, x.kind = .rclose refl d a → rel (T d) → rel (T a) → (T a).cols = (T a).rows → (T d).rows = (T a).rows →
      (T d).cols = (T a).rows →
      ends (T d) ((T d).cols / 8) fun sp => ∀ i j, i < (T a).rows → j < (T a).rows →
        (bit sp (T d) i j ↔ Relation.TransGen (fun u v => u < (T a).rows ∧ v < (T a).rows ∧ bit c.sp (T a) u v) i j ∨
          (refl = true ∧ i = j))) ∧
    (∀ d a, x.kind = .rcount d a → rel (T a) → (T d).ok 12288 = true → (T d).fmt = .s32 → (T d).rows = 1 →
      (T d).cols = (T a).rows →
      ends (T d) (4 * (T d).cols) fun sp => ∀ i, i < (T a).rows →
        (T d).elem sp w0 0 i = ((List.range (T a).cols).filter fun j => (T a).elem c.sp w0 i j == 1).length) ∧
    (∀ i96 a, x.kind = .mzero i96 a → x.token = none → x.phase = .running →
      ∃ s', exec (.matrixOperationComplete cl key) s = .next s' ∧ { s' with clusters := s.clusters } = s ∧
        (s'.cluster cl).sp = c.sp ∧ (∀ k, k / 16384 = a → tget (s'.cluster cl).acc k 0 = 0) ∧
        (∀ k, k / 16384 ≠ a → tget (s'.cluster cl).acc k 0 = tget c.acc k 0) ∧ (a ∈ (s'.cluster cl).accI96 ↔ i96 = true)) ∧
    (∀ tb a p q, x.kind = .mma tb a p q → opMayStart s cl key x = true → (T p).ok 12288 = true → (T q).ok 12288 = true →
        let n := if tb then (T q).rows else (T q).cols
        let val := fun (t : Tile) (i j : Nat) => (t.fmt.flt).value (t.elem c.sp w0 i j)
        ∃ s', exec (.asyncOperationStart cl key) s = .next s' ∧ { s' with clusters := s.clusters } = s ∧
          (s'.cluster cl).sp = c.sp ∧ tfind (s'.cluster cl).entries key = none ∧
          (∀ i j, i < (T p).rows → j < n → tget (s'.cluster cl).acc (a * 16384 + 128 * i + j) 0 = BitVec.ofNat 96
            ((List.range (T p).cols).foldl (fun e k =>
              (Fmt.e96.fma .rne (val (T p) i k) (if tb then val (T q) j k else val (T q) k j) (Fmt.e96.value e)).1)
              (tget c.acc (a * 16384 + 128 * i + j) 0).toNat)) ∧
          ∀ k, (∀ i j, i < (T p).rows → j < n → k ≠ a * 16384 + 128 * i + j) → tget (s'.cluster cl).acc k 0 = tget c.acc k 0) ∧
    (∀ ctr np a p q, x.kind = .mmab false ctr np a p q → opMayStart s cl key x = true → (T p).ok 12288 = true →
      (T q).ok 12288 = true → (T p).fmt = .bp → (T q).fmt = .bp → (T p).cols = (T q).rows →
      ∃ s', exec (.asyncOperationStart cl key) s = .next s' ∧ { s' with clusters := s.clusters } = s ∧
        (s'.cluster cl).sp = c.sp ∧ tfind (s'.cluster cl).entries key = none ∧
        (∀ i j, i < (T p).rows → j < (T q).cols → tget (s'.cluster cl).acc (a * 16384 + 128 * i + j) 0 =
          tget c.acc (a * 16384 + 128 * i + j) 0 + BitVec.ofInt 96
            ((List.range (T p).cols).map fun k => planesRead ((T p).q c.sp w0 i k) np ctr * (T q).q c.sp w0 k j).sum) ∧
        ∀ k, (∀ i j, i < (T p).rows → j < (T q).cols → k ≠ a * 16384 + 128 * i + j) →
          tget (s'.cluster cl).acc k 0 = tget c.acc k 0) ∧
    (∀ ctr np a p q, x.kind = .mmab true ctr np a p q → opMayStart s cl key x = true → (T p).ok 12288 = true →
      (T q).ok 12288 = true → (T p).fmt = .bp → (T q).fmt = .bp → (T p).cols = (T q).rows →
      ∃ (s' : State) (prod : Nat → Nat → Nat → FV), exec (.asyncOperationStart cl key) s = .next s' ∧
        { s' with clusters := s.clusters } = s ∧ (s'.cluster cl).sp = c.sp ∧ tfind (s'.cluster cl).entries key = none ∧
        (∀ i j k, let sa := Fmt.f16.value ((T p).scale c.sp w0 i k)
          let sb := Fmt.f16.value ((T q).scale c.sp w0 k j)
          let ia := planesRead ((T p).q c.sp w0 i k) np ctr
          let ib := (T q).q c.sp w0 k j
          let inf := fun v : FV => v = .inf false ∨ v = .inf true
          (sa = .nan ∨ sb = .nan ∨ inf sa ∧ ia = 0 ∨ inf sb ∧ ib = 0 → prod i j k = .nan) ∧
          (∀ n m e n' m' e', sa = .fin n m e → sb = .fin n' m' e' →
            (∃ n2 m2 e2, prod i j k = .fin n2 m2 e2) ∧ (prod i j k).rat = sa.rat * ia * (sb.rat * ib))) ∧
        (∀ i j, i < (T p).rows → j < (T q).cols → tget (s'.cluster cl).acc (a * 16384 + 128 * i + j) 0 = BitVec.ofNat 96
          ((List.range (T p).cols).foldl (fun e k => (Fmt.e96.add .rne (Fmt.e96.value e) (prod i j k)).1)
            (tget c.acc (a * 16384 + 128 * i + j) 0).toNat)) ∧
        ∀ k, (∀ i j, i < (T p).rows → j < (T q).cols → k ≠ a * 16384 + 128 * i + j) →
          tget (s'.cluster cl).acc k 0 = tget c.acc k 0) ∧
    (x.phase = .running → s.retiring = [] →
      let ran := fun (s' : State) => exec (.matrixOperationComplete cl key) s = .next s' ∧ (∀ k, k ≠ cl → (s'.cluster k).sp =
        (s.cluster k).sp ∧ (s'.cluster k).acc = (s.cluster k).acc) ∧ tfind (s'.cluster cl).ops key = none ∧
        tfind (s'.cluster cl).entries key = none
      let only := fun (s' : State) => s'.mem = s.mem ∧ (s'.cluster cl).acc = c.acc
      -- what a drain leaves of its accumulator tile
      let left := fun (s' : State) (a : Nat) (clr : Bool) => (s'.cluster cl).accI96 = c.accI96 ∧
        ∀ k, tget (s'.cluster cl).acc k 0 = if clr = true ∧ k / 16384 = a then 0 else tget c.acc k 0
      let given := fun (s' : State) (v : Nat) => ∀ u r, tfind s.teams x.team = some u → x.token = some r →
        u.pend = [{ issue := x.issue, lat := .token, writes := [⟨.k r, []⟩], lanes := [0] }] →
        tfind s'.teams x.team = some { u with pend :=
          [{ issue := x.issue, lat := .token, writes := [⟨.k r, [(0, BitVec.ofNat 64 v)]⟩], lanes := [0] }] }
      -- the order of ocmp on floats
      let below := fun (u v : FV) => (u.isNan && !v.isNan) || (!u.isNan && !v.isNan && FV.lt u v)
      let holds := fun (m : OcmpMode) (lt gt ix : Bool) => match m with
        | .lt => lt
        | .le => !gt
        | .eq => !lt && !gt
        | .gt => gt
        | .gtix => gt || (!lt && ix)
      (∀ m d p q, x.kind = .ocmp m d p q → rel (T d) → (T d).rows = (T p).cols → (T p).rows = 1 → (T q).rows = 1 →
        (T p).fmt = (T q).fmt → (T d).cols = 8 * (((T q).cols + 7) / 8) →
        let v := fun (t : Tile) (j : Nat) => (T p).fmt.flt.value (t.elem c.sp w0 0 j)
        let z := fun (t : Tile) (j : Nat) => signedOf 32 (t.elem c.sp w0 0 j)
        ((T p).fmt = .f16 ∨ (T p).fmt = .bf16 ∨ (T p).fmt = .f32 → ∃ s', ran s' ∧ only s' ∧
          Written c.sp (relRuns w0 (T d) fun i j => decide (j < (T q).cols) &&
            holds m (below (v (T q) j) (v (T p) i)) (below (v (T p) i) (v (T q) j)) (decide (j < i))) (s'.cluster cl).sp) ∧
        ((T p).fmt = .s32 → ∃ s', ran s' ∧ only s' ∧
          Written c.sp (relRuns w0 (T d) fun i j => decide (j < (T q).cols) &&
            holds m (decide (z (T q) j < z (T p) i)) (decide (z (T p) i < z (T q) j)) (decide (j < i))) (s'.cluster cl).sp) ∧
        ∀ d2, (T p).fmt = .iv → m ≠ .gtix → x.kdest = some d2 → (rel (T (BitVec.ofNat 64 d2)) ∧
            (T (BitVec.ofNat 64 d2)).rows = (T d).rows ∧ (T (BitVec.ofNat 64 d2)).cols = (T d).cols) →
          let r : IvRel := match m with
            | .lt => .lt
            | .le => .le
            | .eq => .eq
            | _ => .gt
          let iv := fun (t : Tile) (j : Nat) => Iv.ofWord (BitVec.ofNat 64 (t.elem c.sp w0 0 j))
          let cmp := fun i j => (ivCmpVal r (iv (T q) j) (iv (T p) i)).1
          ∃ s', ran s' ∧ only s' ∧ Written c.sp
            (relRuns w0 (T d) (fun i j => decide (j < (T q).cols) && cmp i j == 1) ++
              relRuns w0 (T (BitVec.ofNat 64 d2)) fun i j => decide (j < (T q).cols) && (cmp i j == 1 || cmp i j == 2))
            (s'.cluster cl).sp) ∧
      (∀ d mk p word, x.kind = .qcvt d mk p word → (T p).ok 12288 = true → (T p).fmt = .f32 → (T p).cols % 64 = 0 →
        (T d).ok 12288 = true → (T d).fmt = .bp → (T d).rows = (T p).rows → (T d).cols = (T p).cols → rel (T mk) →
        (T mk).rows = (T p).rows → (T mk).cols = (T p).cols →
        let n := (T p).cols
        let v := fun i j => Fmt.f32.value ((T p).elem c.sp w0 i j)
        let thr := (Fmt.f32.value (word.extractLsb' 0 32).toNat).mag
        let out := fun i j => (v i j).isNan || (!thr.isNan && FV.lt thr (v i j).mag)
        let outs := ((List.range ((T p).rows * n)).filter fun z => out (z / n) (z % n)).map fun z => v (z / n) (z % n)
        let list := 256 * w0 + (word.extractLsb' 32 22).toNat
        ∃ (s' : State) (q : Nat → Nat → Int) (sc : Nat → Nat → Nat), ran s' ∧ only s' ∧
          (∀ i g, i < (T p).rows → g < n / 64 →
            let kept := fun e => e < 64 ∧ out i (64 * g + e) = false
            (∃ mx, (mx = FV.zero ∨ ∃ e, kept e ∧ mx = (v i (64 * g + e)).mag) ∧
              (∀ e, kept e → FV.lt mx (v i (64 * g + e)).mag = false) ∧ sc i g = (Fmt.f16.div .rne mx (intFV 127)).1) ∧
            ∀ e, e < 64 → let y := v i (64 * g + e)
              let s1 := Fmt.f16.value (sc i g)
              (out i (64 * g + e) = true ∨ s1.rat = 0 → q i (64 * g + e) = 0) ∧
              (out i (64 * g + e) = false → s1.rat ≠ 0 → ∃ z, Nearest .rne false (|y.rat| / s1.rat) 0 z ∧
                q i (64 * g + e) = (if y.rat < 0 then -1 else 1) * (min 127 z : Nat))) ∧
          Written c.sp
            (((List.range (T d).rows).flatMap fun i => (List.range n).map fun j =>
                (256 * (w0 + (T d).base + i * (T d).pitch) + j, 1, groupByte (fun e => q i (64 * (j / 64) + e)) (j % 64))) ++
              ((List.range (T d).rows).flatMap fun i => (List.range (n / 64)).map fun g =>
                (256 * w0 + (T d).scaleAt i g, 2, sc i g)) ++
              relRuns w0 (T mk) out ++
              (List.range outs.length).map fun k => (list + 2 * k, 2, (roundTo .f16 (outs.getD k .nan)).1))
            (s'.cluster cl).sp ∧
          ∀ u k, tfind s.teams x.team = some u →
            u.pend = [{ issue := x.issue, lat := .variable, writes := [⟨.k k, []⟩], accs := 1, lanes := [0] }] →
            ∃ u', tfind s'.teams x.team = some u' ∧ u'.pend = [] ∧ readK u' k = BitVec.ofNat 64 outs.length) ∧
      (∀ ctr np d p mk word, x.kind = .qexp ctr np d p mk word → (T p).ok 12288 = true → (T p).fmt = .bp → rel (T mk) →
        (T mk).rows = (T p).rows → (T mk).cols = (T p).cols → (T d).ok 12288 = true → (T d).fmt = .f32 →
        (T d).rows = (T p).rows → (T d).cols = (T p).cols →
        let n := (T p).cols
        let set := fun i j => (T mk).elem c.sp w0 i j == 1
        let before := fun i j => ((List.range (i * n + j)).filter fun z => set (z / n) (z % n)).length
        let list := 256 * w0 + (word.extractLsb' 32 22).toNat
        ∃ (s' : State) (val : Nat → Nat → Nat), ran s' ∧ only s' ∧ Written c.sp (elemRuns w0 (T d) val) (s'.cluster cl).sp ∧
          ∀ i j, i < (T p).rows → j < n →
            let sc := Fmt.f16.value ((T p).scale c.sp w0 i j)
            let z := planesRead ((T p).q c.sp w0 i j) np ctr
            (set i j = true → val i j = (roundTo .f32 (Fmt.f16.value (bytesGet c.sp (list + 2 * before i j) 2))).1) ∧
            (set i j = false → val i j = (Fmt.f32.mul .rne sc (intFV z)).1 ∧
              ∀ neg m e, sc = .fin neg m e → (Fmt.f32.value (val i j)).rat = sc.rat * z)) ∧
      (∀ a tile clr add, x.kind = .drainSp a tile clr add → let t := T tile
        let i96 := c.accI96.contains a
        t.ok 12288 = true → t.fmt = (if i96 = true then .s32 else .f32) →
        ∃ (s' : State) (val : Nat → Nat → Nat) (lossy : Nat → Nat → Bool) (st : Nat), ran s' ∧ s'.mem = s.mem ∧ left s' a clr ∧
          Written c.sp (elemRuns w0 t val) (s'.cluster cl).sp ∧
          (∀ i j, i < t.rows → j < t.cols → Drained i96 add (if i96 = true then .s32 else .f32)
            (tget c.acc (a * 16384 + 128 * i + j) 0).toNat (t.elem c.sp w0 i j) (val i j) (lossy i j)) ∧
          st < 2 ∧ (st = 1 ↔ ∃ i j, i < t.rows ∧ j < t.cols ∧ lossy i j = true) ∧
          given s' (t.rows * t.cols * 4 * 256 + st)) ∧
      ∀ a tile clr add slot k0 k1 k2 k3, x.kind = .drainMem a tile clr add slot k0 k1 k2 k3 → let t := T tile
        let i96 := c.accI96.contains a
        let l := opLayout x
        let cells := boxCells l t false
        let n := l.fmt.bytes
        t.shapeOk = true → t.fmt = (if i96 = true then .s32 else .f32) → pairOk l.fmt t.fmt = true →
        (add = true → l.fmt = if i96 = true then .s32 else .f32) → x.moved = [] → x.tally = {} → splitRead s cl x = false →
        ∀ pa : Nat → Nat, (∀ k ∈ cells, ∀ va, k.va = some va → Brought s x true va (pa va) n) →
        ∃ (s' : State) (val : Nat → Nat → Nat) (lossy : Nat → Nat → Bool) (st : Nat), ran s' ∧ (s'.cluster cl).sp = c.sp ∧
          left s' a clr ∧
          Written s.mem (cells.filterMap fun k => k.va.map fun va => (pa va, n, val k.i k.j)) s'.mem ∧
          (∀ k ∈ cells, ∀ va, k.va = some va → Drained i96 add l.fmt (tget c.acc (a * 16384 + 128 * k.i + k.j) 0).toNat
            (bytesGet s.mem (pa va) n) (val k.i k.j) (lossy k.i k.j)) ∧
          st < 2 ∧ (st = 1 ↔ ∃ k ∈ cells, k.va.isSome = true ∧ lossy k.i k.j = true) ∧
          given s' ((cells.filter fun k => k.va.isSome).length * n * 256 + st))

/-- R213, R219, R234, R237 to R239, R243 and R244: the copy words complete. cpy, where every active lane's memory side and window
side are found, puts one operation of the active lanes into the cluster, its entry covering their scratchpad granules; where no
lane moves its token is 0 at once. cpyt, cpys and cpym check their tiles, or trap with bad-tile; wait, unissued, for a pending
slot and for free entries; and put the copy into the cluster, cpym with the mma that follows it held behind it. A faulted slot
kills the block. -/
def Obligations.CopyWordsIssue : Prop :=
  ∀ (h : Hdr) (st x2 : Bool) (space : Space) (w : Width) (hint : Hint) (tok cmd : BitVec 6) (vm vs : BitVec 7) (off : BitVec 16)
    (grp tile idx : BitVec 4) (s : State) (t : Team), Issuing s t →
    let bl := s.blockOf t
    let cl := s.cur / 48
    let T := fun r => tileOf t r
    let iv := fun (x : Tile) => x.interval bl.base
    let wd := fun r => tget t.t (BitVec.toNat r) 0
    let free := fun n => entriesFree s cl t.partition n = true
    let slot := tget t.slots grp.toNat {}
    let k := fun n => readK t (4 * grp.toNat + n)
    let op := fun (b : Nat) (kind : OpKind) (preset : Option Nat) =>
      ({ team := s.cur, block := t.block, partition := t.partition, index := t.index, word := t.pc, opByte := b, issue := t.issues
         token := some tok.toNat, kind := kind, space := space, hint := hint, presetStatus := preset } : AsyncOp)
    let entry := fun (reads : List Interval) (write : Option Interval) => ({ partition := t.partition, reads, write } : SbEntry)
    let near := fun (x : AsyncOp) => ∀ r ∈ opRuns s cl x, windowOf s t.partition r.1 = none
    -- what a tensor word does with its slot
    let bySlot := fun (i : Instr) (b n : Nat) (goes : Prop) =>
      (slot.state = .pending → exec i s = .next s) ∧
      (slot.state ≠ .pending → ¬free n → AwaitsEntries i s t n) ∧
      (slot.state = .faulted → free n → exec i s = .next (killBlock s s.cur t.block ⟨0x10, b, t.pc, t.index, slot.addr⟩)) ∧
      (slot.state = .loaded ∨ slot.state = .empty → free n → goes)
    (let i : Instr := .cpyt h st space hint tok grp tile off
     let x := op 0x84 (.tensor st (wd tile) slot (k 0) (k 1) (k 2) (k 3) off.toInt (space == .cn))
     ((T tile).ok bl.rows = false → Traps i s t .badTile) ∧
     ((T tile).ok bl.rows = true → bySlot i 0x84 1 (∃ preset, (slot.state = .empty → preset = some 0x11) ∧ (near (x preset) →
       Queues i s t h (x preset) (some (entry (if st then [iv (T tile)] else []) (if st then none else some (iv (T tile)))))
         [tokenInFlight t tok])))) ∧
    (let i : Instr := .cpys h space hint tok grp tile idx off
     let ok := (T tile).ok bl.rows = true ∧ (T idx).ok bl.rows = true ∧ tile ≠ idx ∧ (T idx).fmt = .s32 ∧ (T idx).rows = 1 ∧
       (T tile).rows ≤ (T idx).cols
     let x := op 0x86 (.scatter (wd tile) (wd idx) slot (k 0) (k 1) (k 2) (k 3) off.toInt)
     (¬ok → Traps i s t .badTile) ∧
     (ok → bySlot i 0x86 1 (∃ preset, (slot.state = .empty → preset = some 0x11) ∧ (near (x preset) →
       Queues i s t h (x preset) (some (entry [iv (T tile), iv (T idx)] none)) [tokenInFlight t tok])))) ∧
    (let i : Instr := .cpym h space hint tok grp cmd off
     let c := readK t cmd.toNat
     let d := c.extractLsb' 16 4
     let a := c.extractLsb' 20 4
     let b := c.extractLsb' 24 4
     let acc := (c.extractLsb' 28 2).toNat
     let tb := c.getLsbD 0
     let clean := c.extractLsb' 30 34 = 0 ∧ c.extractLsb' 1 15 = 0
     let ok := (T d).ok bl.rows = true ∧ (T a).ok bl.rows = true ∧ (T b).ok bl.rows = true ∧ (T a).fmt = (T b).fmt ∧
       ((T a).fmt = .f16 ∨ (T a).fmt = .bf16 ∨ (T a).fmt = .f32) ∧ (T a).cols = if tb then (T b).cols else (T b).rows
     let holds := bl.holdsAcc = true ∧ accMode (s.cluster cl) acc = false
     let x := op 0x85 (.tensor false (wd d) slot (k 0) (k 1) (k 2) (k 3) off.toInt (space == .cn))
     (¬clean → Traps i s t .illegalEncoding) ∧ (clean → ¬ok → Traps i s t .badTile) ∧
     (clean → ok → ¬holds → Traps i s t .badAccumulator) ∧
     (clean → ok → holds → bySlot i 0x85 2 (∃ preset, (slot.state = .empty → preset = some 0x11) ∧ (near (x preset) →
       exec i s = .next ((pushOp (pushOp s cl (x preset) (some (entry [] (some (iv (T d)))))) cl
           { op 0x85 (.mma tb acc (wd a) (wd b)) none with
             token := none, space := .sp, hint := .none, phase := .held, after := some s.seq }
           (some (entry [iv (T a), iv (T b)] none))).setTeam s.cur
         (t.issued h (t.pc + 8) [tokenInFlight t tok])))))) ∧
    let i : Instr := .cpy h st x2 space w hint tok vm vs off
    let n := if x2 then 16 else widthBytes w
    let act := activeLanes t h
    let m := fun l => (((readV t vm.toNat l).toNat + off.toInt) % 2 ^ 64).toNat
    let x := fun l => (readV t vs.toNat l).toNat % 2 ^ 32
    ∀ (place : Nat → AccPlace) (va ver : Nat → Nat) (shared : Nat → Bool),
      let there := fun l => Spot.found (place l) (va l) (ver l) (shared l)
      (∀ l ∈ act, m l % n = 0 ∧ x l % n = 0 ∧ x l + n ≤ 256 * bl.rows ∧
        if space = .cn then m l + n ≤ (s.kernelOf t).cnSize ∧ glSpot s s.cur t .read false ((s.kernelOf t).cnAddr + m l) = there l
        else laneSpot s s.cur t space (if st then .write else .read) n (m l) = (s, there l)) →
      (¬free 1 → AwaitsEntries i s t 1) ∧
      (free 1 → ∃ s', exec i s = .next s' ∧ ClusterFrame s s' ∧
        if act = [] then ∃ u, tfind s'.teams s.cur = some u ∧ readK u tok.toNat = 0 ∧ u.issues = t.issues + 1 ∧ u.pc = t.pc + 8
        else tfind s'.teams s.cur = some (({ t with xlat := [] } : Team).issued h (t.pc + 8) [tokenInFlight t tok]) ∧
          ∃ key span, s.seq ≤ key ∧ (s'.cluster cl).ops = tput (s.cluster cl).ops key (op 0x83 (.cpy st n (act.map fun l =>
              ⟨l, place l, va l, ver l, 256 * bl.base + x l, shared l⟩)) none) ∧
            (∃ index, (s'.cluster cl).entries = tput (s.cluster cl).entries key
              { entry (if st then [span] else []) (if st then none else some span) with index }) ∧
            ∀ l ∈ act, span.lo ≤ (256 * bl.base + x l) / 32 ∧ (256 * bl.base + x l + n + 31) / 32 ≤ span.hi)

/-- R212, R216, R217, R219, R230, R231, R234, R239 to R244 and R291 to R294: what becomes of an operation of the copy engine. In
COPY_COMPLETION a cpy moves its lanes' bytes, between home memory and scratchpad, and no other byte; a cpyt, and the copy of a cpym,
moves its box between memory and its tile, converted, each element out of bounds taking what the pad rule gives in a load and
nothing in a store; a cpys stores each tile row at the index that tI gives it. The operation and its entry go, and the token holds
the bytes moved and the status. An operation with a status found at issue moves nothing. The mma held behind a copy is let go by its
end, or cancelled by a status that moves nothing, and then becomes free to issue; a failure of a running operation kills its block,
whose teams and operations go; a team that waits for entries goes on when its partition has them free. Stated where no error lies in
wait and no frame is under retirement, for copies of which no part has moved; a cpy lies in its team's cluster. -/
def Obligations.CopiesEnd : Prop :=
  ∀ (s : State) (cl key : Nat) (x : AsyncOp), tfind (s.cluster cl).ops key = some x →
    let c := s.cluster cl
    let gone := fun (s' : State) => tfind (s'.cluster cl).ops key = none ∧ tfind (s'.cluster cl).entries key = none
    let token := fun (s' : State) (v : Nat) => ∀ u r, tfind s.teams x.team = some u →
      u.pend = [{ issue := x.issue, lat := .token, writes := [⟨.k r, []⟩], lanes := [0] }] →
      ∃ u', tfind s'.teams x.team = some u' ∧ readK u' r = BitVec.ofNat 64 v ∧ u'.pend = []
    let free := (c.ops.any fun e => e.2.after == some key && e.2.phase == .held) = false
    (x.phase = .running → free → NoErrors s → s.retiring = [] → engineFaultOf s cl x = none →
      (∀ st, x.kind.onArray = false → x.presetStatus = some st →
        ∃ s', exec (.copyCompletion cl key) s = .next s' ∧ gone s' ∧ DataKept s s' ∧ token s' st) ∧
      (∀ store size lanes, x.kind = .cpy store size lanes → x.presetStatus = none → x.team / 48 = cl →
        (size = 4 ∨ size = 8 ∨ size = 16) →
        ∀ pa : CpyLane → Nat, (∀ l ∈ lanes, l.place = .home (pa l) ∧ pa l % size = 0 ∧ pa l + size ≤ 0x80000000000) →
        lanes.Pairwise (fun a b => if store then pa a + size ≤ pa b ∨ pa b + size ≤ pa a else a.sp + size ≤ b.sp ∨ b.sp + size ≤ a.sp) →
        (∀ l ∈ c.l1, l.remote = none → ∀ i, i < 256 → tget l.data i 0 = tget s.mem (256 * l.line + i) 0) →
        ∃ s', exec (.copyCompletion cl key) s = .next s' ∧ gone s' ∧ token s' (lanes.length * size * 256) ∧
          (∀ k, k ≠ cl → s'.cluster k = s.cluster k) ∧ (s'.cluster cl).acc = c.acc ∧
          if store then (s'.cluster cl).sp = c.sp ∧ (∀ l ∈ lanes, bytesGet s'.mem (pa l) size = bytesGet c.sp l.sp size) ∧
            ∀ y, (∀ l ∈ lanes, y < pa l ∨ pa l + size ≤ y) → tget s'.mem y 0 = tget s.mem y 0
          else s'.mem = s.mem ∧ (∀ l ∈ lanes, bytesGet (s'.cluster cl).sp l.sp size = bytesGet s.mem (pa l) size) ∧
            ∀ y, (∀ l ∈ lanes, y < l.sp ∨ l.sp + size ≤ y) → tget (s'.cluster cl).sp y 0 = tget c.sp y 0)) ∧
    (x.phase = .running → NoErrors s → s.retiring = [] → engineFaultOf s cl x = none → x.presetStatus = none → x.moved = [] →
      x.tally = {} →
      let w0 := opBase s x
      let l := opLayout x
      let n := l.fmt.bytes
      let ran := fun (s' : State) => exec (.copyCompletion cl key) s = .next s' ∧ gone s' ∧ (s'.cluster cl).acc = c.acc ∧
        ∀ k, k ≠ cl → s'.cluster k = s.cluster k
      let status := fun (st : Nat) (rounded nai : Prop) => st < 4 ∧ (st % 2 = 1 ↔ rounded) ∧ (2 ≤ st ↔ nai)
      let row := fun (t : Tile) (i : Nat) => 256 * (w0 + t.base + i * t.pitch)
      -- the places of a box's elements in home memory
      let placed := fun (t : Tile) (store : Bool) (cells : List Cell) (pa : Nat → Nat) => ∀ k ∈ cells, ∀ va, k.va = some va →
        Brought s x store va (pa va) n ∧ (t.fmt = .bp → Brought s x store k.sva (pa k.sva) 2)
      -- what a store leaves
      let stored := fun (t : Tile) (cells : List Cell) => ∀ pa : Nat → Nat, placed t true cells pa →
        let raw := fun (k : Cell) => if t.fmt = .bp then bytesGet c.sp (row t k.i + k.j) 64 else t.elem c.sp w0 k.i k.j
        let conv := fun (k : Cell) => storeConv l.fmt t.fmt (raw k)
        let live := cells.filter fun k => k.va.isSome
        ∃ s' st, ran s' ∧ (s'.cluster cl).sp = c.sp ∧
          (t.fmt ≠ .rel → Written s.mem (live.flatMap fun k => (pa (k.va.getD 0), n, (conv k).1) :: (if t.fmt = .bp then
              [(pa k.sva, 2, bytesGet c.sp (256 * w0 + t.scaleAt k.i (k.j / 64)) 2)] else [])) s'.mem) ∧
          (t.fmt = .rel → ∀ y b, b < 8 → (tget s'.mem y 0).getLsbD b =
            match (live.filter fun k => pa (k.va.getD 0) == y && k.bit == b).getLast? with
            | some k => raw k == 1
            | none => (tget s.mem y 0).getLsbD b) ∧
          status st (∃ k ∈ live, (conv k).2.1 = true) (∃ k ∈ live, (conv k).2.2 = true) ∧
          token s' (256 * (if t.fmt = .rel then (live.map fun k => (k.i, k.va)).eraseDups.length
            else live.length * (n + if t.fmt = .bp then 2 else 0)) + st)
      (∀ tile slot k0 k1 k2 k3 off cn, x.kind = .tensor true tile slot k0 k1 k2 k3 off cn → let t := Tile.ofWord tile
        t.ok 12288 = true → pairOk l.fmt t.fmt = true → free → stored t (boxCells l t false)) ∧
      (∀ tile idx slot k0 k1 k2 k3 off, x.kind = .scatter tile idx slot k0 k1 k2 k3 off → let t := Tile.ofWord tile
        let ti := Tile.ofWord idx
        t.ok 12288 = true → pairOk l.fmt t.fmt = true → free → ti.ok 12288 = true → ti.fmt = .s32 → ti.rows = 1 → t.rows ≤ ti.cols →
        stored t ((List.range t.rows).flatMap fun i => (l.starts t).map fun j =>
          (l.atRow (signedOf 32 (ti.elem c.sp w0 0 i))).cell (t.fmt == .rel) false i 0 j)) ∧
      ∀ tile slot k0 k1 k2 k3 off cn, x.kind = .tensor false tile slot k0 k1 k2 k3 off cn → let t := Tile.ofWord tile
        t.ok 12288 = true → pairOk l.fmt t.fmt = true →
        (∀ l ∈ c.l1, l.remote = none → ∀ i, i < 256 → tget l.data i 0 = tget s.mem (256 * l.line + i) 0) →
        ∀ pa : Nat → Nat, placed t false (boxCells l t true) pa →
        let cell := fun i j => l.cell (t.fmt == .rel) true i i j
        let fill := l.fill % 256 ^ n
        -- the stored bits that an element or a group takes, before conversion
        let raw := fun i j => match (cell i j).va with
          | some va => if t.fmt = .rel then bytesGet s.mem (pa va) 1 / 2 ^ (cell i j).bit % 2 else bytesGet s.mem (pa va) n
          | none => if t.fmt = .bp then 0 else if t.fmt = .rel then l.fill % 2 else fill
        let scale := fun i j => if (cell i j).va.isSome then bytesGet s.mem (pa (cell i j).sva) 2 else 0
        let conv := fun i j => loadConv l.fmt t.fmt (raw i j)
        let some' := fun (p : Nat × Bool × Bool → Bool) => ∃ i j, i < t.rows ∧ j ∈ l.starts t ∧ p (conv i j) = true
        ∃ s' st, ran s' ∧ s'.mem = s.mem ∧
          Written c.sp (if t.fmt = .bp then
              (List.range t.rows).flatMap fun i => (l.starts t).flatMap fun j =>
                [(row t i + j, 64, raw i j), (256 * w0 + t.scaleAt i (j / 64), 2, scale i j)]
            else if t.fmt = .rel then relRuns w0 t fun i j => raw i j == 1
            else elemRuns w0 t fun i j => (conv i j).1) (s'.cluster cl).sp ∧
          status st (some' fun r => r.2.1) (some' fun r => r.2.2) ∧
          token s' (256 * (if t.fmt = .bp then t.rows * (t.cols / 64) * 66 else t.rows * t.cols * t.fmt.bits / 8) + st)) ∧
    -- the follow-on of a cpym
    (∀ k y, x.phase = .running → NoErrors s → s.retiring = [] → engineFaultOf s cl x = none → x.kind.onArray = false →
      opMiss s cl x = [] → opOutside s cl x = false → tfind c.ops k = some y → y.after = some key → y.phase = .held →
      (∀ e ∈ c.ops, e.2.after = some key → e.1 = k) → x.tally = {} →
      ∃ s', exec (.copyCompletion cl key) s = .next s' ∧ gone s' ∧
        if x.presetStatus = some 0x10 ∨ x.presetStatus = some 0x11 ∨ x.presetStatus = some 0x12 then
          tfind (s'.cluster cl).ops k = none ∧ tfind (s'.cluster cl).entries k = none
        else x.presetStatus = none → tfind (s'.cluster cl).ops k = some { y with after := none }) ∧
    (x.phase = .held → x.after = none → exec (.followOnMmaIssue cl key) s =
      .next (s.setCluster cl { c with ops := tput c.ops key { x with phase := .waiting } })) ∧
    (x.phase = .running → ∀ e b, engineFaultOf s cl x = some e → tfind s.blocks x.block = some b →
      ∃ s', exec (.engineFault cl key) s = .next s' ∧ tfind s'.blocks x.block = none ∧ ∀ f ∈ b.teams, tfind s'.teams f = none) ∧
    ∀ f u n, tfind s.teams f = some u → u.wait = .entries n → entriesFree s (f / 48) u.partition n = true →
      exec (.scoreboardStallRelease f) s = .next (s.setTeam f { u with wait := .ready })

-- ===== barriers and fences =====

/-- R279 to R282, R285 and R401: bar completes. An arrival against the rules of its barrier, an await with nothing pending, or any
bar in handler mode traps with bad-barrier and records nothing; an arrival waits, unissued, for its .block release. Then the team
is in the arrived set with the open generation pending, and .meet waits; .await waits for its pending generation. The arrival
that completes a generation raises it, empties the arrived set, removes the participants' race-watch entries, and every team
waiting on it leaves. A team of a partition that is halting halts at .meet and .await. No register or byte of memory changes. -/
def Obligations.BlockBarriers : Prop :=
  ∀ (h : Hdr) (id : BitVec 4) (part : Option (BitVec 6)) (meets : Bool) (s : State) (t : Team) (b : Block),
    Issuing s t → tfind s.blocks t.block = some b →
    let i : Instr := if meets then .barMeet h id part else .barPost h id part
    let n := id.toNat
    let x := tget b.bars n {}
    let all := BitVec.ofNat 48 (2 ^ b.nteams - 1)
    let m : TeamSet := match part with
      | none => all
      | some k => (readK t k.toNat).extractLsb' 0 48
    let bad := m = 0 ∨ m &&& ~~~all ≠ 0 ∨ m.getLsbD t.index = false ∨ x.arrived.getLsbD t.index = true ∨
      (x.arrived ≠ 0 ∧ x.mask ≠ m)
    let arrived := x.arrived ||| BitVec.ofNat 48 (2 ^ t.index)
    let halts := (s.partition t.partition).halting
    let wait := fun (u : Team) => { u with
      wait := .bar n
      halted := t.halted || halts
      restartAt := if halts then t.pc else t.restartAt }
    let leave := fun (u : Team) => { u with wait := .marker, barPend := tdel u.barPend n }
    let u := ({ t with barPend := tput t.barPend n x.gen } : Team).issued h (t.pc + 8) []
    (t.handler ≠ none ∨ bad → Traps i s t .badBarrier) ∧
    (t.handler = none → ¬bad → releaseReady s s.cur t .block = false → exec i s = .next s) ∧
    (t.handler = none → ¬bad → releaseReady s s.cur t .block = true →
      (m &&& ~~~(arrived ||| b.ended) ≠ 0 →
        exec i s = .next ((s.setBlock t.block { b with bars := tput b.bars n ⟨x.gen, arrived, m⟩ }).setTeam s.cur
          (if meets then wait u else u))) ∧
      (m &&& ~~~(arrived ||| b.ended) = 0 →
        ∃ s' b', exec i s = .next s' ∧ { s' with teams := s.teams, blocks := s.blocks } = s ∧
          tfind s'.blocks t.block = some b' ∧ { b' with bars := b.bars, races := b.races } = b ∧
          (∀ j, tget b'.bars j {} = if j = n then ⟨x.gen + 1, 0, 0⟩ else tget b.bars j {}) ∧
          (∀ r ∈ b'.races, ∀ p, (arrived ||| (m &&& b.ended)).getLsbD p = true →
            r.2.readers.getLsbD p = false ∧ r.2.writer ≠ some p) ∧
          (∀ f v, f ∈ b.teams → f ≠ s.cur → tfind s.teams f = some v → tfind s'.teams f = some
            (if v.wait = .bar n ∧ v.halted = false ∧ (∃ p, tfind v.barPend n = some p ∧ p ≤ x.gen) then leave v else v)) ∧
          (s.cur ∈ b.teams → tfind s'.teams s.cur = some
            (if !meets then (if t.wait = .bar n ∧ h.sw = false ∧ t.halted = false then leave u else u)
             else if (wait u).halted then wait u else leave u)))) ∧
    (t.handler ≠ none ∨ tfind t.barPend n = none → Traps (.barAwait h id) s t .badBarrier) ∧
    ∀ p, t.handler = none → tfind t.barPend n = some p →
      Goes (.barAwait h id) s (let v := wait (t.issued h (t.pc + 8) [])
        if p < x.gen ∧ v.halted = false then leave v else v)

/-- R344, R345, R347, R329 and R418: gbar completes. Outside a .gridbar launch it traps with illegal-encoding; a second arrival in a
generation, an await with nothing pending, or any gbar in handler mode traps with bad-barrier; a team of a faulted grid ends there
as by exit, or with lanes parked enters its handler, which is the model's reading (log 19). An arrival waits, unissued, for its
.grid release; then the team has arrived, .meet waits, and where every team of the grid has arrived or ended the generation rises
and its waiters leave in the waves of the hoist order: a cluster's teams in HOIST_WAVE_RELEASE, at completion + 16 + die x td +
wave x tw cluster cycles and not before. -/
def Obligations.GridBarriers : Prop :=
  ∀ (h : Hdr) (meets : Bool) (s : State) (t : Team) (l : Launch), Issuing s t → s.launch? t.partition t.launch = some l →
    let i : Instr := if meets then .gbarMeet h else .gbarPost h
    let me := ((s.blockOf t).index, t.index)
    let halts := (s.partition t.partition).halting
    let u := t.issued h (t.pc + 8) []
    let wait := fun (u : Team) => { u with
      wait := .gbar
      halted := t.halted || halts
      restartAt := if halts then t.pc else t.restartAt }
    let ended : Team := { u with
      mask := 0, stack := [], exited := allLanes t.nlanes
      wait := .ended t.mask t.pathUid t.stack t.pc }
    let ready := releaseReady s s.cur t .grid = true ∧ releaseReady s s.cur t .block = true
    let whole := l.blocks * l.kernel.teams ≤ ((l.arrived ++ [me]) ++ l.endedTeams).eraseDups.length
    (l.kernel.gridbar = false → Traps i s t .illegalEncoding ∧ Traps (.gbarAwait h) s t .illegalEncoding) ∧
    (l.kernel.gridbar = true →
      (t.handler ≠ none → Traps i s t .badBarrier ∧ Traps (.gbarAwait h) s t .badBarrier) ∧
      (t.handler = none →
        (l.faulted = true → if t.parked = [] then Goes i s ended else Traps i s t .parked) ∧
        (l.faulted = false → me ∈ l.arrived → Traps i s t .badBarrier) ∧
        (l.faulted = false → me ∉ l.arrived →
          (¬ready → exec i s = .next s) ∧
          (ready → ¬whole → exec i s = .next ((s.modLaunch t.partition t.launch fun l => { l with arrived := l.arrived ++ [me] }).setTeam
            s.cur (if meets then wait { u with gbarPend := some l.gen } else { u with gbarPend := some l.gen }))) ∧
          (ready → whole → ∃ s' l', exec i s = .next s' ∧ s'.launch? t.partition t.launch = some l' ∧ l'.gen = l.gen + 1 ∧
            l'.arrived = [] ∧ (∀ r, l'.release = some r → r.start = s.cycle) ∧
            (meets = true → ∃ r, l'.release = some r ∧ s.cur / 48 ∈ r.waiting) ∧
            DataKept s s' ∧ (∀ f, f ≠ s.cur → tfind s'.teams f = tfind s.teams f) ∧
            tfind s'.teams s.cur = some (if meets then wait { u with gbarPend := some l.gen } else { u with gbarPend := some l.gen }))) ∧
        (t.gbarPend = none → Traps (.gbarAwait h) s t .badBarrier) ∧
        ∀ p, t.gbarPend = some p →
          (l.gen ≤ p → l.faulted = false → Goes (.gbarAwait h) s (wait u)) ∧
          (l.gen ≤ p → l.faulted = true → if t.parked = [] then Goes (.gbarAwait h) s ended else Traps (.gbarAwait h) s t .parked) ∧
          (p < l.gen → (wait u).halted = false → ∃ s', exec (.gbarAwait h) s = .next s' ∧ DataKept s s' ∧
            tfind s'.teams s.cur = some { u with wait := .marker, gbarPend := none } ∧
            ∀ x ∈ (s'.cluster (s.cur / 48)).l1, x.partition = t.partition → x.cn = false → x.kept = true))) ∧
    ∀ (n unit : Nat) (g : Launch) (r : Release), s.launches[n]? = some g → g.release = some r → unit ∈ r.waiting →
      let time := r.start + 16 + unit / 64 * r.td + (unit % 64 + r.rot) % 64 / r.size * r.tw
      (s.cycle < time → exec (.hoistWaveRelease n unit) s = .next s) ∧
      (time ≤ s.cycle → ∃ s', exec (.hoistWaveRelease n unit) s = .next s' ∧ DataKept s s' ∧
        ∀ f v p, tfind s.teams f = some v → f / 48 = unit → v.partition = g.partition → v.launch = g.id → v.wait = .gbar →
          v.gbarPend = some p → p < g.gen → v.halted = false →
          tfind s'.teams f = some { v with wait := .marker, gbarPend := none })

/-- R285, R288, R328, R329, R331 and R343: rwatch and fence complete. rwatch empties the records of the block and sets its watch as
its mode says. A fence waits, unissued, for every outstanding result and, with a release part, for its release; then it ends the
segment; a release at .block or wider removes the team's race-watch entries, an acquire at .sheet or wider invalidates the
partition's .gl and .vt lines in the cluster's L1, but for sealed lines of another package. No register and no byte of memory changes. After a lost
store, a release at .span or wider traps with fabric-down (R439). -/
def Obligations.FencesAndRaceWatch : Prop :=
  ∀ (h : Hdr) (o : FenceOrder) (sc : Scope) (s : State) (t : Team) (b : Block), Issuing s t → tfind s.blocks t.block = some b →
    let watch := fun (i : Instr) (b' : Block) =>
      exec i s = .next ((s.setBlock t.block b').setTeam s.cur (t.issued h (t.pc + 8) []))
    let rel := o = .rel ∨ o = .sc
    let acq := o = .acq ∨ o = .sc
    let i : Instr := .fence h o sc
    let wide := sc = .span ∨ sc = .sys
    watch (.rwatchOff h) { b with races := [], raceOn := false } ∧
    watch (.rwatchOn h) { b with raceOn := true } ∧
    watch (.rwatchClr h) { b with races := [] } ∧
    (rel → wide → t.lostStore = true → exec i s = .next (trapWord (s.setTeam s.cur { t with lostStore := false }) s.cur
      { t with lostStore := false } .fabricDown)) ∧
    (¬(rel ∧ wide ∧ t.lostStore = true) →
      ((∃ p ∈ t.pend, p.lat = .variable) ∨ (rel ∧ releaseReady s s.cur t sc = false) → exec i s = .next s) ∧
      ((∀ p ∈ t.pend, p.lat ≠ .variable) → (rel → releaseReady s s.cur t sc = true) →
        ∃ s' b', exec i s = .next s' ∧ { s' with teams := s.teams, blocks := s.blocks, clusters := s.clusters } = s ∧
          tfind s'.teams s.cur = some { t.issued h (t.pc + 8) [] with wait := .marker } ∧
          (∀ f, f ≠ s.cur → tfind s'.teams f = tfind s.teams f) ∧
          (∀ k, { s'.cluster k with l1 := (s.cluster k).l1 } = s.cluster k) ∧
          (s'.cluster (s.cur / 48)).l1 = (if acq ∧ sc ≠ .team ∧ sc ≠ .block then
              (s.cluster (s.cur / 48)).l1.filter fun x => !(x.partition == t.partition && !x.cn && !x.kept)
            else (s.cluster (s.cur / 48)).l1) ∧
          tfind s'.blocks t.block = some b' ∧ { b' with races := b.races } = b ∧
          (if rel ∧ sc ≠ .team then ∀ r ∈ b'.races, t.index < 48 → r.2.readers.getLsbD t.index = false ∧ r.2.writer ≠ some t.index
           else b' = b)))

-- ===== launches and queues =====

/-- R349 to R354: launch, lcount and qwork complete. launch and lcount wait, unissued, for their .grid release, and do nothing
where no lane is active. launch leaves in flight the token of its enqueue, 0x07 where K[Q] names no queue. An lcount whose
counter record lies at pa counts its arrival there: short of expect the token is 0xFE, beyond it 0x06 with nothing counted; the
last arrival sets the count to 0 and enqueues the record with the count word's blocks, or gives 0x05 for a count word of 0 and
0x02 for one that cannot be read. No other byte of memory changes before the enqueue. qwork gives its block's share of the
iterations (R354). Stated for lcount where no error lies in wait and the record's frame is not under retirement. That the enqueue
takes place as the word issues is the model's reading (log 15), and so is 0x02 for what the last arriver cannot read or finds
against its rules (log 56). -/
def Obligations.QueueWords : Prop :=
  ∀ (h : Hdr) (tok q r : BitVec 6) (grp : BitVec 4) (s : State) (t : Team), Issuing s t →
    let act := activeLanes t h
    let ready := releaseReady s s.cur t .grid = true
    let k := fun x : BitVec 6 => (readK t x.toNat).toNat
    let token := fun v : Nat => ({ tokenInFlight t tok with writes := [⟨.k tok.toNat, [(0, BitVec.ofNat 64 v)]⟩] } : Pend)
    let ends := fun (i : Instr) (u : Team) (x : State × Nat) =>
      exec i s = .next (x.1.setTeam s.cur (u.issued h (t.pc + 8) [token x.2]))
    (act = [] → Goes (.launch h tok q r) s (t.issued h (t.pc + 8) []) ∧ Goes (.lcount h tok q) s (t.issued h (t.pc + 8) [])) ∧
    (act ≠ [] → ¬ready → exec (.launch h tok q r) s = .next s ∧ exec (.lcount h tok q) s = .next s) ∧
    (act ≠ [] → ready → ends (.launch h tok q r) t (if 64 ≤ k q then (s, 7) else enqueue s t.partition (k q) (k r) none [])) ∧
    (∀ pa va ver shared, act ≠ [] → ready → NoErrors s → laneSpot s s.cur t .gl .write 32 (k q) = (s, .found (.home pa) va ver shared) →
      pa + 32 ≤ 0x80000000000 → frameHeld s pa = false →
      let field := fun (at' n : Nat) => bytesGet s.mem (pa + at') n
      let n := field 0 4 + 1
      let counted := fun (s1 : State) (v : Nat) => bytesGet s1.mem pa 4 = v ∧ s1.launches = s.launches ∧ s1.queues = s.queues ∧
        (∀ y, y < pa ∨ pa + 4 ≤ y → tget s1.mem y 0 = tget s.mem y 0) ∧
        ∀ c, (s1.cluster c).sp = (s.cluster c).sp ∧ (s1.cluster c).acc = (s.cluster c).acc
      let u : Team := { t with xlat := [] }
      ∃ s1, (n < field 4 4 → counted s1 n ∧ ends (.lcount h tok q) u (s1, 0xFE)) ∧
        (field 4 4 < n → counted s1 (field 0 4) ∧ ends (.lcount h tok q) u (s1, 6)) ∧
        (n = field 4 4 → counted s1 0 ∧ ends (.lcount h tok q) u (
          if field 25 7 ≠ 0 ∨ 64 ≤ field 24 1 ∨ field 16 8 % 4 ≠ 0 then (s1, 2)
          else
            let z := vaRead s1 t.partition (field 16 8) 4
            match z.2 with
            | none => (z.1, 2)
            | some 0 => (z.1, 5)
            | some w => enqueue z.1 t.partition (field 24 1) (field 8 8) (some w) []))) ∧
    let tiles := k q % 2 ^ 32
    let iters := k r % 2 ^ 32
    let p := (s.launchOf t).blocks
    let b := (s.blockOf t).index
    let start := fun x => x * (tiles * iters / p) + min x (tiles * iters % p)
    let lo := start b
    let hi := start (b + 1)
    let owns := hi % iters ≠ 0 ∧ hi < tiles * iters ∧ lo < hi ∧ lo ≤ hi / iters * iters
    let later := ((List.range p).filter fun x => decide (b < x ∧ start x < (hi / iters + 1) * iters)).length
    let vals := [lo, hi, if lo = hi then 0 else (hi - 1) / iters * 2 ^ 32 + lo / iters,
      (if owns then min later 0xFFFF else 0) * 2 ^ 32 + (if owns then 2 else 0) + if lo % iters ≠ 0 ∧ lo < hi then 1 else 0]
    Goes (.qwork h grp q r) s (t.issued h (t.pc + 8) (if act = [] then [] else
      [{ issue := t.issues, lat := .variable, lanes := act
         writes := (List.range 4).map fun j => ⟨.k (4 * grp.toNat + j), [(act.headD 0, BitVec.ofNat 64 (vals.getD j 0))]⟩ }]))

/-- R349, R350, R357 to R359 and R395: what an enqueue answers, in the order of the table, and what it leaves. It reads its record
before any check. A queue that is disabled or full answers 0x01 and a record that cannot be read or breaks its rules 0x02; a queue of another partition 0x03; a
.gridbar launch beyond its partition's capacity 0x04; none of these changes a queue or a launch. Any other takes the next
identifier of its partition, joins the launches behind those that wait, and answers it. A doorbell write enqueues for its
queue's partition and its page keeps the answer; one through a VF that is not enabled is dropped. A write of PN, DEPTH or EN
that waited is made once the queue is empty. -/
def Obligations.Enqueues : Prop :=
  ∀ (s : State) (n q va : Nat) (blocks : Option Nat) (lead : List Word),
    let x := s.queue q
    let own := s.partition x.pn
    let open' := own.drained = false ∧ own.resetting = false ∧ x.en = true ∧ x.depth ≠ 0 ∧
      (s.launches.filter fun l => l.queue == q).length < x.depth
    let same := fun (u : State) => u.launches = s.launches ∧ u.queues = s.queues ∧ (u.partition n).launchCtr = (s.partition n).launchCtr ∧
      u.teams = s.teams ∧ u.blocks = s.blocks
    let r := enqueue s n q va blocks lead
    (¬open' → r.2 = 1 ∧ same r.1 ∧ ∀ d, (launchRead s n va).2 = some d →
      r.1 = keepDesc (launchRead s n va).1 n d.desc d.kernel) ∧
    (va % 64 ≠ 0 → (launchRead s n va).2 = none) ∧
    (∀ w, (vaRead s n va 64).2 = some w → w % 256 ≠ 1 ∨ w / 256 % 256 ^ 7 ≠ 0 ∨ 64 < w / 256 ^ 24 % 256 ∨ w / 256 ^ 48 % 256 ^ 16 ≠ 0 →
      (launchRead s n va).2 = none) ∧
    (open' → (launchRead s n va).2 = none → r.2 = 2 ∧ same r.1) ∧
    (∀ d, open' → (launchRead s n va).2 = some d →
      let count := blocks.getD d.blocks
      let large := d.kernel.gridbar = true ∧ capacity (keepDesc (launchRead s n va).1 n d.desc d.kernel) n d.kernel < count
      let id := ((s.partition n).launchCtr + 1) % 2 ^ 32
      (x.pn ≠ n → r.2 = 3 ∧ same r.1) ∧
      (x.pn = n → large → r.2 = 4 ∧ same r.1) ∧
      (x.pn = n → ¬large → r.2 = id * 256 ∧ (r.1.partition n).launchCtr = id ∧ (r.1.queue q).lastId = some id ∧
        (∀ m, m ≠ q → r.1.queue m = s.queue m) ∧ r.1.teams = s.teams ∧ r.1.blocks = s.blocks ∧
        ∃ l, r.1.launches = s.launches ++ [l] ∧ l.id = id ∧ l.partition = n ∧ l.queue = q ∧ l.kernel = d.kernel ∧ l.blocks = count ∧
          l.kvals = lead ++ d.kvals.drop lead.length ∧ l.done = d.done ∧ l.dep = d.dep ∧ l.nextBlock = 0 ∧
          l.ahead = (if x.lastStatus = none then x.lastId else none) ∧
          (l.skipped = true ↔ d.dep = true ∧ ∃ st, x.lastStatus = some st ∧ st ≠ 0))) ∧
    let bound := ∃ v, v < 16 ∧ (tget s.hostLink.vfmap v 0).getLsbD 63 = true ∧
      let first := ((tget s.hostLink.vfmap v 0).extractLsb' 0 6).toNat
      first ≤ q ∧ q < first + ((tget s.hostLink.vfmap v 0).extractLsb' 8 6).toNat
    (¬bound → exec (.doorbellWrite q va false) s = .next s) ∧
    (∀ pf : Bool, pf = true ∨ bound → s.power.cur ≠ 3 → let e := enqueue s x.pn q va none []
      exec (.doorbellWrite q va pf) s = .next (e.1.setQueue q { e.1.queue q with doorbell := e.2 })) ∧
    ∀ v : Word, x.pendingWrite = some v →
      if ∃ l ∈ s.launches, l.queue = q then exec (.qcfgDeferredApply q) s = .next s
      else ∃ u, exec (.qcfgDeferredApply q) s = .next u ∧ { u with queues := s.queues } = s ∧ (∀ m, m ≠ q → u.queue m = s.queue m) ∧
        let y := u.queue q
        y.pn = (v.extractLsb' 4 3).toNat ∧ y.depth = (v.extractLsb' 8 6).toNat ∧ y.pri = (v.extractLsb' 1 3).toNat ∧
        y.en = v.getLsbD 0 ∧ y.pendingWrite = none


/-- R363 to R368, R370 and R422: a decision of partition n's distributor. It places the candidate of an enabled queue of the
partition: of those that fit and that no queue waiting too long holds back, one of the highest PRI, and among those the first
above the pointer, wrapping; while a .gridbar launch is placed in part, its next block and no other. In retention nothing is
placed. The block's cluster is the first of the scan that can hold it; its teams take free slots of the
partition's range, its window is the lowest run of free rows. All its teams start ready at the kernel's text with the launch's
k values, and nothing else of the machine changes but the queue's wait, the pointers, before a launch's first block the partition's
L1 lines, what a trace tells, and, for a cluster that was idle, its first notch, which the slew limit is charged with (the model's
reading, log 83). With no candidate that fits nothing happens. -/
def Obligations.Placement : Prop :=
  ∀ (s : State) (n : Nat), n < 8 →
    -- a queue that the distributor could serve, with its candidate
    let fits := fun (q : Nat) (c : Launch × Nat × Bool) => q < 64 ∧ (s.queue q).en = true ∧ (s.queue q).pn = n ∧
      candidate s q = some c ∧ candidatePlan s c ≠ none
    let pri := fun q => (s.queue q).pri
    -- the .gridbar launch that is placed in part
    let partly := fun (q : Nat) (l : Launch) => q < 64 ∧ (s.queue q).en = true ∧ (s.queue q).pn = n ∧ l ∈ s.launches ∧ l.queue = q ∧
      l.faulted = false ∧ l.barred = false ∧ l.skipped = false ∧ l.kernel.gridbar = true ∧ l.nextBlock ≠ 0 ∧ l.nextBlock < l.blocks
    let held := fun q => ∃ e ∈ s.queues, e.2.en = true ∧ e.2.pn = n ∧ e.2.heldBack = true ∧ pri q < e.2.pri
    let q0 := (s.partition n).placing
    (decision s n = none → exec (.placementDecision n) s = .next s) ∧
    ((s.partition n).drained = true ∨ (s.partition n).preempting = true ∨ (s.partition n).preempted = true ∨ s.power.cur = 3 →
      decision s n = none) ∧
    (∀ q l b again plan, decision s n = some (q, (l, b, again), plan) →
      candidatePlan s (l, b, again) = some plan ∧
      ((∃ q' l', partly q' l') → partly q l ∧ b = l.nextBlock ∧ again = false) ∧
      ((∀ q' l', ¬partly q' l') → fits q (l, b, again) ∧ ¬held q ∧ ∀ q' c', fits q' c' → ¬held q' → pri q' ≤ pri q ∧
        (pri q' = pri q → let ptr := tget (s.partition n).rr (pri q) 63
          if ptr < q then q' ≤ ptr ∨ q ≤ q' else q' ≤ ptr ∧ q ≤ q')) ∧
      (l.partition = n → plan.frames.Nodup → (∀ e ∈ s.launches, e.partition = n → e.id = l.id → e = l) →
        ∃ s', exec (.placementDecision n) s = .next s' ∧ s'.mem = s.mem ∧ s'.accs = s.accs ∧
          s'.power = (if ∃ e ∈ s.blocks, e.2.cluster = plan.cluster then s.power
            else { s.power with lastStep := max s.cycle (s.power.lastStep + s.power.notchCycles) }) ∧
          (∀ k, { s'.cluster k with l1 := (s.cluster k).l1, lastCore := (s.cluster k).lastCore, ctlNotch := (s.cluster k).ctlNotch } =
            s.cluster k) ∧
          (s'.queue q).waitSince = none ∧ (s'.queue q).heldBack = false ∧ tget (s'.partition n).rr (pri q) 63 = q ∧
          (∃ k : Block, tfind s'.blocks s.uid = some k ∧ k.partition = n ∧ k.launch = l.id ∧ k.index = b ∧ k.cluster = plan.cluster ∧
            k.base = plan.base ∧ k.rows = l.kernel.scratch / 256 ∧ k.teams = plan.frames ∧ k.nteams = l.kernel.teams ∧ k.ended = 0 ∧
            k.bars = [] ∧ k.races = [] ∧ k.raceOn = true) ∧
          (∀ j, j ≠ s.uid → tfind s'.blocks j = tfind s.blocks j) ∧
          (∀ i f, plan.frames[i]? = some f → ∃ t : Team, tfind s'.teams f = some t ∧
            t = { partition := n, launch := l.id, block := s.uid, index := i, nlanes := l.kernel.team, pc := l.kernel.text, k := t.k,
                  mask := t.mask } ∧
            (∀ j, readK t j = if j < l.kvals.length then l.kvals.getD j 0 else 0) ∧
            ∀ j, j < 1024 → t.mask.getLsbD j = decide (j < l.kernel.team)) ∧
          (∀ f, f ∉ plan.frames → tfind s'.teams f = tfind s.teams f) ∧
          ∃ l', s'.launch? n l.id = some l' ∧ l' = (if again then { l with awaiting := l.awaiting.drop 1 }
            else { l with nextBlock := l.nextBlock + 1 }))) ∧
    (∀ k id b plan, planFor s n k id b = some plan → ∃ i j, i < 12 ∧ j < 64 ∧
      plan.cluster = 64 * ((id + b + i) % 12) + (b / 12 + j) % 64 ∧ q0.dies.getLsbD ((id + b + i) % 12) = true ∧
      ∀ i' j', i' < 12 → j' < 64 → q0.dies.getLsbD ((id + b + i') % 12) = true → i' < i ∨ (i' = i ∧ j' < j) →
        clusterPlan s n q0 k (64 * ((id + b + i') % 12) + (b / 12 + j') % 64) = none) ∧
    ∀ (k : Kernel) (cl : Nat) (plan : Plan), clusterPlan s n q0 k cl = some plan → q0.slotbase + q0.slotcnt ≤ 8 →
      let w := k.scratch / 256
      let free := fun b => q0.spbase ≤ b ∧ b + w ≤ q0.spbase + q0.spcnt ∧ ∀ r, b ≤ r → r < b + w →
        (∀ e ∈ s.blocks, e.2.cluster = cl → r < e.2.base ∨ e.2.base + e.2.rows ≤ r) ∧ r ∉ (s.cluster cl).rowsWithdrawn
      plan.cluster = cl ∧ plan.frames.length = k.teams ∧ plan.frames.Nodup ∧
      (∀ f ∈ plan.frames, f / 48 = cl ∧ tfind s.teams f = none ∧ q0.slotbase ≤ f % 8 ∧ f % 8 < q0.slotbase + q0.slotcnt ∧
        (s.core (f / 8)).withdrawn = false) ∧
      (k.acc = true → q0.acc = true ∧ ∀ e ∈ s.blocks, e.2.cluster = cl → e.2.holdsAcc = false) ∧
      free plan.base ∧ (0 < w → ∀ b, free b → plan.base ≤ b)


/-- R174, R281, R365, R368, R369, R405 and R430: how teams and launches end. A team that has ended leaves its slot once every
result, access and copy of it is complete; the last team of a block takes the block with it, its window scrubbed to zero, and
a barrier that waited only for ended teams lets its waiters go. A launch none of whose blocks is resident and that can place
no more completes: its completion word holds the identifier and the status of the table, it leaves its queue, and a DEP launch
behind it is free to place, or is skipped after any status but 0x00. A queue that has waited 8192 cycles holds lower
priorities back. A watchdog whose limit the launch's running time has reached, and that no pre-emption pauses, bars the launch, enqueues the recovery record
with its three k values, and writes its entry. R389: an entry goes to its partition's ring, 64 bytes at the head, which then
advances; where there is no ring, the ring is full or the store faults, it is dropped and counted, the count staying at its largest
value (the model's choice, log 87). Nothing else of memory changes. Stated where no error lies in wait. -/
def Obligations.TeamsAndLaunchesEnd : Prop :=
  (∀ (s : State), NoErrors s →
    (∀ f t b, tfind s.teams f = some t → tfind s.blocks t.block = some b →
      let whole := (∃ m u st w, t.wait = .ended m u st w) ∧ (∀ p ∈ t.pend, ∃ n, p.lat = .fixed n) ∧ (∀ e ∈ s.accs, e.2.team ≠ f) ∧
        ∀ e ∈ (s.cluster (f / 48)).ops, e.2.team ≠ f
      let ended := b.ended ||| BitVec.ofNat 48 (2 ^ t.index)
      (¬whole → exec (.teamEnd f) s = .next s) ∧
      (whole → ∃ s', exec (.teamEnd f) s = .next s' ∧ tfind s'.teams f = none ∧ s'.mem = s.mem ∧ s'.accs = s.accs ∧
        (∀ k, k ≠ b.cluster → s'.cluster k = s.cluster k) ∧
        if ended ≠ BitVec.ofNat 48 (2 ^ b.nteams - 1) then
          (∃ b', tfind s'.blocks t.block = some b' ∧ b'.ended = ended ∧ b'.teams = b.teams.filter (· != f)) ∧
          s'.cluster b.cluster = s.cluster b.cluster ∧
          ∀ g u id p, g ≠ f → g ∈ b.teams → tfind s.teams g = some u → u.wait = .bar id → u.halted = false → tfind u.barPend id = some p →
            id < 16 → let x := tget b.bars id {}
            x.arrived ≠ 0 → x.mask &&& ~~~(x.arrived ||| ended) = 0 → p ≤ x.gen →
            tfind s'.teams g = some { u with wait := .marker, barPend := tdel u.barPend id }
        else tfind s'.blocks t.block = none ∧
          (∀ y, tget (s'.cluster b.cluster).sp y 0 =
            if 256 * b.base ≤ y ∧ y < 256 * (b.base + b.rows) then 0 else tget (s.cluster b.cluster).sp y 0) ∧
          (s'.cluster b.cluster).acc = if b.holdsAcc then [] else (s.cluster b.cluster).acc)) ∧
    (∀ n l, s.launches[n]? = some l →
      let unplaced := l.nextBlock < l.blocks ∨ l.awaiting ≠ []
      let whole := (∀ e ∈ s.blocks, e.2.partition = l.partition → e.2.launch ≠ l.id) ∧
        (l.faulted = true ∨ l.barred = true ∨ l.skipped = true ∨ ¬unplaced)
      let status := if l.skipped then 0x12 else if l.faulted then 0x10 else if l.barred = true ∧ unplaced then 0x13 else 0
      (¬whole → exec (.gridCompletion n) s = .next s) ∧
      (whole → ∃ s', exec (.gridCompletion n) s = .next s' ∧ s'.teams = s.teams ∧ s'.blocks = s.blocks ∧
        s'.launches = (s.launches.filter fun y => !(y.id == l.id && y.partition == l.partition)).map (fun y =>
          if y.queue = l.queue ∧ y.partition = l.partition ∧ y.ahead = some l.id then
            { y with ahead := none, skipped := y.skipped || (y.dep && status != 0) } else y) ∧
        (∀ c, (s'.cluster c).sp = (s.cluster c).sp ∧ (s'.cluster c).acc = (s.cluster c).acc) ∧
        let told := s'.notices = s.notices ++ (if l.notify then [.launchDone l.partition l.id status] else []) ++
          (if l.partition ∈ s.bexile.traced then [.traceQueue l.partition l.queue l.id false] else [])
        (l.done = 0 → s'.mem = s.mem ∧ told) ∧
        ∀ pa, l.done ≠ 0 → walkTranslate s l.partition l.done .write = (s, .ok pa) →
          told ∧ bytesGet s'.mem pa 4 = l.id % 2 ^ 24 * 256 + status ∧ ∀ y, y < pa ∨ pa + 4 ≤ y → tget s'.mem y 0 = tget s.mem y 0)) ∧
    (∀ q, let x := s.queue q
      exec (.priorityWaitTimeout q) s = .next (match x.waitSince with
        | some c => if c + 8192 ≤ s.cycle then s.setQueue q { x with heldBack := true } else s
        | none => s)) ∧
    ∀ q, let limit := (s.queue q).wdtLimit
      let mine := s.launches.filter fun l => l.queue == q && l.nextBlock != 0
      (mine = [] → exec (.watchdogExpiry q) s = .next s) ∧
      ∀ l r, mine = l :: r → let paused := (s.partition l.partition).preempting = true ∨ (s.partition l.partition).preempted = true
        (limit = 0 ∨ l.barred = true ∨ paused ∨ l.running < 800 * limit → exec (.watchdogExpiry q) s = .next s) ∧
        (limit ≠ 0 → l.barred = false → ¬paused → 800 * limit ≤ l.running →
          let s1 := { s with launches := s.launches.map fun y =>
            if y.partition == l.partition && y.id == l.id then { y with barred := true } else y }
          let at' := (s.wdrec.extractLsb' 6 42).toNat
          let x := if at' = 0 then (s1, 0xFF) else enqueue s1 0 (s.wdrec.extractLsb' 0 6).toNat (at' * 64) none
            [BitVec.ofNat 64 q, BitVec.ofNat 64 l.partition, BitVec.ofNat 64 l.id]
          exec (.watchdogExpiry q) s = .next (logEntry x.1 0 (fields [(0, 6), (1, 0xFF), (2, 0xFF), (3, 0xFF), (8, s.cycle % 2 ^ 64),
            (16, lowestTask s l), (24, q), (25, l.partition), (28, l.id), (32, limit), (36, x.2 % 256), (40, x.2 / 256)])))) ∧
  ∀ (s : State) (n entry : Nat), NoErrors s →
    let p := s.partition n
    let base := (p.elogb.extractLsb' 12 52).toNat * 4096
    let count := 2 ^ ((p.elogb.extractLsb' 0 4).toNat + 6)
    let at' := base + 64 * (p.elogHead % count)
    let dropped := s.setPartition n { p with elogLost := min (p.elogLost + 1) (2 ^ 32 - 1) }
    (base = 0 → logEntry s n entry = dropped) ∧
    ((p.elogHead + 2 ^ 32 - p.elogTail) % 2 ^ 32 = count → logEntry s n entry = dropped) ∧
    (∀ c, walkTranslate s n at' .write = (s, .error c) → logEntry s n entry = dropped) ∧
    ∀ pa, base ≠ 0 → (p.elogHead + 2 ^ 32 - p.elogTail) % 2 ^ 32 ≠ count →
      walkTranslate s n at' .write = (s, .ok pa) →
      bytesGet (logEntry s n entry).mem pa 64 = entry % 256 ^ 64 ∧
      (∀ y, y < pa ∨ pa + 64 ≤ y → tget (logEntry s n entry).mem y 0 = tget s.mem y 0) ∧
      (logEntry s n entry).partition n = { p with elogHead := (p.elogHead + 1) % 2 ^ 32 } ∧
      ∀ m, m ≠ n → (logEntry s n entry).partition m = s.partition m


-- ===== the supervisor =====

/-- R408: pctl completes. Outside partition 0 it raises privilege. It waits, unissued, for its .sys release and for an earlier
pctl; then it acts, once, and its result is in flight for every active lane, with a .sys acquire as it lands. .rd gives the
register (SupervisorRegisters says what a write leaves in it), .wr writes it by its number, whichever of its forms the step
chose; .tlbi, .drain, .resume and .reset act at once, with bad-state for a partition out of range and for a resume of one that
is not pre-empted; .preempt begins, and answers in PREEMPT_SAVE or PREEMPT_BUDGET_EXPIRY, its deadline the budget in cluster cycles
rounded up, which is the model's reading (log 60); a .reset while a frame is under retirement answers when that has ended
(R391). -/
def Obligations.PctlWords : Prop :=
  ∀ (h : Hdr) (d : Dst) (a b : BitVec 6) (kb : Option (BitVec 6)) (s : State) (t : Team), Issuing s t →
    let n := (readK t a.toNat).toNat
    let reg := n % 65536
    let v := readK t b.toNat
    let act := activeLanes t h
    let opt := fun (no : Nat) => match kb with
      | some k => (readK t k.toNat).toNat
      | none => no
    -- what word i does that acts as x and has the result x.2, or none yet
    let word := fun (i : Instr) (x : State × Option Nat) =>
      (t.partition ≠ 0 → Traps i s t .privilege) ∧
      (t.partition = 0 → t.lostStore = true → exec i s = .next (trapWord (s.setTeam s.cur { t with lostStore := false }) s.cur
        { t with lostStore := false } .fabricDown)) ∧
      (t.partition = 0 → t.lostStore = false → ¬(releaseReady s s.cur t .sys = true ∧ s.pctls = []) → exec i s = .next s) ∧
      (t.partition = 0 → t.lostStore = false → releaseReady s s.cur t .sys = true → s.pctls = [] →
        ∃ s' p, exec i s = .next s' ∧ p.issue = t.issues ∧ p.lat = .variable ∧ p.acq = some .sys ∧ p.lanes = act ∧ p.isLoop = false ∧
          p.accs = (if x.2 = none then 1 else 0) ∧ p.flags = 0 ∧
          p.writes = (match x.2 with
            | some r => [resultOf (dstReg d) act fun _ => some (BitVec.ofNat 64 r)]
            | none => [⟨dstReg d, []⟩]) ∧
          ∀ u, tfind x.1.teams s.cur = some u → TeamOnly x.1 s' (u.issued h (u.pc + 8) (if act = [] then [] else [p])))
    let write := supWrite s s.cur t reg v
    let mine := 1 ≤ n ∧ n ≤ 7
    word (.pctlRd h d a) (s, some (supRead s reg)) ∧
    (∀ i ∈ [Instr.pctlWr h d a b, .pctlWrQcfg h d a b, .pctlWrQuota h d a b, .pctlWrIfneg h d a b, .pctlWrPwstate h d a b,
        .pctlWrPwcap h d a b, .pctlWrFwin h d a b], word i (write.1, some write.2)) ∧
    word (.pctlTlbi h d a kb) (if 7 < n then (s, some 6) else (invalidate s n (kb.map fun k => (readK t k.toNat).toNat), some 0)) ∧
    word (.pctlDrain h d a) (if mine then (s.setPartition n { s.partition n with drained := true }, some 0) else (s, some 6)) ∧
    word (.pctlResume h d a) (if mine ∧ (s.partition n).preempted = true then (resumePartition s n, some 0) else (s, some 6)) ∧
    word (.pctlReset h d a) (if ¬mine then (s, some 6)
      else if s.retiring ≠ [] then
        ({ s.setPartition n { s.partition n with resetting := true } with pctls := [⟨s.cur, t.issues, 5, n⟩] }, none)
      else (resetPartition s n, some 0)) ∧
    word (.pctlPreempt h d a kb) (if mine ∧ (s.partition n).preempted = false then
        (beginHalting { s.setPartition n { s.partition n with
          preempting := true, preemptDeadline := s.cycle + (4 * opt 2000000 + 4) / 5 } with pctls := [⟨s.cur, t.issues, 2, n⟩] } n, none)
      else (s, some 6))

/-- R357, R383, R396 to R400, R405, R407 to R409, R415, R421, R422 and R437: what a write of a supervisor register leaves and
answers. A field that software may not write keeps its value and a W1C field loses the bits written; a value outside its range,
a quota that conflicts, a window of size 0 or one that overlaps answers 0x03; a quota write while one is pending 0x04; a deferred
one 0x01; an unassigned or read-only number 0x02. That pending quotas count in the checks of a quota and of pshr is the model's
reading (log 52), and so is the first notch at which the clusters that hold blocks start where the package leaves the reduced state
(logs 83 and 55). -/
def Obligations.SupervisorRegisters : Prop :=
  ∀ (s : State) (f : Nat) (t : Team) (r : Nat) (v : Word),
    let x := supWrite s f t r v
    let p := fun (base : Nat) => s.partition (r - base)
    let is := fun (base n : Nat) => base ≤ r ∧ r < base + n
    let field := fun (lo n : Nat) => (v.extractLsb' lo n).toNat
    let clear := fun (n old lo : Nat) => (BitVec.ofNat n old &&& ~~~(v.extractLsb' lo n)).toNat
    -- registers that read back what is written, within a mask
    let mask : Option Word :=
      if is 0x40 8 then some 0x0000_FFFF_FFFF_C000
      else if is 0x60 8 then some 0xFFFF_FFFF_FFFF_F00F
      else if is 0x70 8 then some 0xFFFF_FFFF
      else if is 0x80 8 then some 0x0000_0FFF_FFFF_F000
      else if is 0xA8 8 then some 0xFFFF_FFFF_FFFF_0000
      else if is 0xC0 16 then some 0xC000_0000_0007_3F3F
      else if r = 0x140 then some 0x0000_FFFF_FFFF_FFFF
      else if r = 0x320 then some 0xFF
      else if r = 0x323 then some 0xFFFF_FFFF
      else if is 0x328 8 then some 0x1FFFF
      else if is 0x380 32 then some 0x9F9F_9F9F_9F9F_9F9F
      else none
    (∀ m, mask = some m → x.2 = 0 ∧ supRead x.1 r = (v &&& m).toNat ∧ (∀ q, q ≠ r → supRead x.1 q = supRead s q) ∧
      { x.1 with partitions := s.partitions, hostLink := s.hostLink, fabric := s.fabric, wdrec := s.wdrec } = s) ∧
    (is 0 0x40 → let q := s.queue r
      let new : Queue := { q with
        pn := field 4 3, depth := field 8 6, pri := field 1 3, en := v.getLsbD 0, pendingWrite := none
        lastId := if field 4 3 = q.pn then q.lastId else none
        lastStatus := if field 4 3 = q.pn then q.lastStatus else none }
      x = if ∀ l ∈ s.launches, l.queue ≠ r then (s.setQueue r new, 0)
        else if new.pn = q.pn ∧ new.depth = q.depth ∧ new.en = q.en then
          (s.setQueue r { q with pri := field 1 3, pendingWrite := none }, 0)
        else (s.setQueue r { q with pri := field 1 3, pendingWrite := some v }, 1)) ∧
    (is 0x48 12 → let e := tget s.errs (r - 0x48) {}
      x.2 = 0 ∧ tget x.1.errs (r - 0x48) {} = ⟨clear 24 e.corr 40, clear 20 e.trans 20, clear 20 e.last 0⟩ ∧
      { x.1 with errs := s.errs } = s) ∧
    (is 0x68 8 → x = (s.setPartition (r - 0x68) { p 0x68 with elogLost := clear 32 (p 0x68).elogLost 32 }, 0)) ∧
    (is 0x88 24 → let n := r % 8
      let old := s.partition n
      let q : Quota :=
        if r < 0x90 then { old.quota with rowcnt := field 16 6, rowbase := field 8 5, slotcnt := field 4 4, slotbase := field 0 3 }
        else if r < 0x98 then { old.quota with
          acc := v.getLsbD 48, l1cnt := field 44 4, l1base := field 41 3, sbcnt := field 34 7, sbbase := field 28 6,
          spcnt := field 14 14, spbase := field 0 14 }
        else { old.quota with dies := v.extractLsb' 16 12, wcnt := field 4 5, wbase := field 0 4 }
      (old.pendingQuota ≠ none → x = (s, 4)) ∧
      (old.pendingQuota = none → consistent s n q = false → x = (s, 3)) ∧
      (old.pendingQuota = none → consistent s n q = true →
        -- the LLC and L1 ways that the new quota removes
        let goes := fun w => old.quota.wbase ≤ w ∧ w < old.quota.wbase + old.quota.wcnt ∧ ¬(q.wbase ≤ w ∧ w < q.wbase + q.wcnt)
        let goes1 := fun w => old.quota.l1base ≤ w ∧ w < old.quota.l1base + old.quota.l1cnt ∧ ¬(q.l1base ≤ w ∧ w < q.l1base + q.l1cnt)
        let waits := holdsRemoved s n q = true ∨ ∃ l ∈ s.llc, l.owner = n ∧ l.dirty = true ∧ goes l.way
        (waits → x.2 = 1 ∧ x.1.partition n = { old with pendingQuota := some q } ∧ { x.1 with partitions := s.partitions } = s) ∧
        (¬waits → x.2 = 0 ∧
          x.1.partition n = { old with quota := q } ∧ x.1.mem = s.mem ∧ x.1.teams = s.teams ∧ x.1.blocks = s.blocks ∧
          (∀ l, l ∈ x.1.llc ↔ l ∈ s.llc ∧ ¬(l.owner = n ∧ goes l.way)) ∧
          (∀ k l, l ∈ (x.1.cluster k).l1 ↔ l ∈ (s.cluster k).l1 ∧ ¬(l.partition = n ∧ (goes1 l.way ∨ q.dies.getLsbD (k / 64) = false))) ∧
          ∀ m, m ≠ n → x.1.partition m = s.partition m))) ∧
    (∀ n q, (∀ m, m ≠ n → (s.partition m).pendingQuota = none) →
      let meets := fun a c b e : Nat => ∃ i, a ≤ i ∧ i < a + c ∧ b ≤ i ∧ i < b + e
      (consistent s n q = true ↔
        q.rowbase + q.rowcnt ≤ 32 ∧ q.slotbase + q.slotcnt ≤ 8 ∧ q.l1base + q.l1cnt ≤ 8 ∧ q.sbbase + q.sbcnt ≤ 64 ∧
        q.spbase + q.spcnt ≤ 12288 ∧ q.wbase + q.wcnt ≤ 16 ∧ ¬meets q.wbase q.wcnt s.shrWbase s.shrWcnt ∧
        ∀ m, m < 8 → m ≠ n → let o := (s.partition m).quota
          ¬meets q.wbase q.wcnt o.wbase o.wcnt ∧
          (q.dies &&& o.dies ≠ 0 → ¬meets q.rowbase q.rowcnt o.rowbase o.rowcnt ∧ ¬meets q.slotbase q.slotcnt o.slotbase o.slotcnt ∧
            ¬meets q.l1base q.l1cnt o.l1base o.l1cnt ∧ ¬meets q.sbbase q.sbcnt o.sbbase o.sbcnt ∧
            ¬meets q.spbase q.spcnt o.spbase o.spcnt ∧ ¬(q.acc = true ∧ o.acc = true)))) ∧
    (r = 0xA0 → let apart := fun (o : Quota) => ¬∃ i, field 0 4 ≤ i ∧ i < field 0 4 + field 4 5 ∧ o.wbase ≤ i ∧ i < o.wbase + o.wcnt
      let fits := field 0 4 + field 4 5 ≤ 16 ∧ ∀ m, m < 8 → apart (s.partition m).quota ∧
        ∀ o, (s.partition m).pendingQuota = some o → apart o
      (fits → x.2 = 0 ∧ { x.1 with llc := s.llc } = { s with shrWcnt := field 4 5, shrWbase := field 0 4 } ∧
        ∀ l, l ∈ x.1.llc ↔ l ∈ s.llc ∧ ¬(l.owner = 8 ∧ s.shrWbase ≤ l.way ∧ l.way < s.shrWbase + s.shrWcnt ∧
          ¬(field 0 4 ≤ l.way ∧ l.way < field 0 4 + field 4 5))) ∧
      (¬fits → x = (s, 3))) ∧
    (r = 0xD1 → let old := s.hostLink.ifneg.toNat
      let lrec := if field 0 8 = 1 then 1 else old % 256
      let lay := if field 8 8 = 1 then 1 else old / 2 ^ 8 % 256
      let sup := if field 16 8 = 1 ∨ field 16 8 = 2 then field 16 8 else old / 2 ^ 16 % 256
      x = ({ s with hostLink := { s.hostLink with
              ifneg := BitVec.ofNat 64 (lrec + lay * 2 ^ 8 + sup * 2 ^ 16 + old / 2 ^ 24 % 256 * 2 ^ 24) } },
           if field 0 8 = 1 ∧ field 8 8 = 1 ∧ (field 16 8 = 1 ∨ field 16 8 = 2) then 0 else 3)) ∧
    (is 0x100 0x40 → x = (s.setQueue (r - 0x100) { s.queue (r - 0x100) with wdtLimit := field 0 32 }, 0)) ∧
    (r = 0x200 → x = if 1 ≤ field 0 9 ∧ field 0 9 ≤ 400 then ({ s with power := { s.power with slew := field 0 9 } }, 0) else (s, 3)) ∧
    (r = 0x201 → let size := if field 0 3 ≤ 6 then field 0 3 else s.power.wsz
      x = ({ s with power := { s.power with td := field 24 16, tw := field 8 16, wsz := size } }, if field 0 3 ≤ 6 then 0 else 3)) ∧
    (r = 0x202 → x = ({ s with power := { s.power with scap := field 0 16 } }, 0)) ∧
    (r = 0x203 → let req := field 0 3
      (3 < req → x = (s, 3)) ∧ (req < 3 → x.2 = 0 ∧ { x.1 with clusters := s.clusters } = { s with power := { s.power with req, cur := req } } ∧
        (∀ k, { x.1.cluster k with ctlNotch := (s.cluster k).ctlNotch } = s.cluster k) ∧
        if s.power.cur = 1 ∧ req ≠ 1 then ∀ e ∈ s.blocks, (x.1.cluster e.2.cluster).ctlNotch = 5 else x.1.clusters = s.clusters) ∧
      (req = 3 → x = if retentionOk s f t then ({ s with power := { s.power with req := 3 } }, 0) else (s, 6))) ∧
    (is 0x300 0x20 → ∃ port : Port, x.2 = 0 ∧ tget x.1.fabric.ports (r - 0x300) {} = port ∧ port = { s.port (r - 0x300) with
        retries := clear 16 (s.port (r - 0x300)).retries 48, en := v.getLsbD 0 } ∧
      { x.1 with fabric := s.fabric, hostLink := s.hostLink } = s) ∧
    (r = 0x321 → x = if 3 ≤ field 8 4 ∧ field 8 4 ≤ 7 then ({ s with fabric := { s.fabric with ftime := v &&& 0xFF0F1C } }, 0) else (s, 3)) ∧
    (r = 0x322 → x = if 1 ≤ field 8 8 ∧ field 8 8 ≤ 8 ∧ 200 + 120 * field 8 8 ≤ field 16 32 then
      ({ s with fabric := { s.fabric with fsched := v &&& 0xFFFF_FFFF_FF01 } }, 0) else (s, 3)) ∧
    (is 0x340 0x40 → let n := (r - 0x340) / 8
      let w : FWin := { en := v.getLsbD 63, pkg := field 55 8, rbase := field 36 18 * 2 ^ 30, lbase := field 18 18 * 2 ^ 30
                        size := field 10 8 * 2 ^ 30 }
      let clash := ∃ e ∈ (s.partition n).fwins, e.1 ≠ (r - 0x340) % 8 ∧ e.2.en = true ∧
        ∃ y, w.lbase ≤ y ∧ y < w.lbase + w.size ∧ e.2.lbase ≤ y ∧ y < e.2.lbase + e.2.size
      (w.size = 0 ∨ w.en = true ∧ clash → x = (s, 3)) ∧
      (¬(w.size = 0 ∨ w.en = true ∧ clash) → x.2 = 0 ∧ tget (x.1.partition n).fwins ((r - 0x340) % 8) {} = w ∧ x.1.mem = s.mem ∧
        supRead x.1 r = (v &&& 0xFFBF_FFFF_FFFF_FC00).toNat)) ∧
    (¬(r < 0x54 ∨ is 0x60 0x18 ∨ is 0x80 0x21 ∨ is 0xA8 8 ∨ is 0xC0 16 ∨ r = 0xD1 ∨ is 0x100 0x41 ∨ is 0x200 4 ∨ is 0x300 0x24 ∨
      is 0x328 8 ∨ is 0x340 0x60) → x = (s, 2))


/-- R321, R400 to R407 and R411: what partition control does. A drop of translations leaves no TLB entry of the partition for the
page. A pre-emption that waits for no release makes teams that wait at a barrier halt. It ends when every block has halted: saved
together where the area holds them, or resumed with 0x07; past its budget, with a block that has not halted, it is resumed with 0x05. Resuming clears the halts, and
a team whose generation is complete leaves its wait. A reset removes the partition's blocks with their teams, its launches, L1
lines and LLC lines, lifts drain and pre-emption, and keeps quotas, ring, frame area and page table; a function-level reset does
so for the launches of its queues alone. A deferred quota takes effect once no block holds what it removes. The answer of a pctl
that waited lands in its register. That teams' registers stay in place while saved is the model's choice (log 25), and so is what
the reset of function 16, the PF, does (log 31). -/
def Obligations.PartitionControl : Prop :=
  ∀ (s : State) (n : Nat),
    let p := s.partition n
    let mine := s.blocks.filter fun e => e.2.partition == n
    -- translations
    (∀ (page : Option Nat) (c : Nat) (e : TlbEntry), e ∈ ((invalidate s n page).core c).tlb ↔ e ∈ (s.core c).tlb ∧
      ¬(e.partition = n ∧ match page with
        | some va => e.page * 2 ^ e.bits < va % 2 ^ 48 / 65536 * 65536 + 65536 ∧ va % 2 ^ 48 / 65536 * 65536 < (e.page + 1) * 2 ^ e.bits
        | none => e.page * 2 ^ e.bits < 2 ^ 48 ∧ 0 < (e.page + 1) * 2 ^ e.bits)) ∧
    -- halting
    (p.preempting = true → p.halting = false → (∀ l ∈ s.launches, l.partition = n → l.release = none) →
        (∀ e ∈ s.colls, e.2.partition = n → e.2.committed = false) →
      let s' := beginHalting s n
      s'.partition n = { p with halting := true } ∧ { s' with partitions := s.partitions, teams := s.teams } = s ∧
      ∀ f u, tfind s.teams f = some u → tfind s'.teams f = some (
        if u.partition = n ∧ u.atBarrier = true then { u with halted := true, restartAt := u.pc - 8 } else u)) ∧
    -- resuming
    ((∀ e ∈ mine, e.2.accSave = none) → let s' := resumePartition s n
     s'.partition n = { p with preempting := false, halting := false, preempted := false } ∧ s'.mem = s.mem ∧ s'.launches = s.launches ∧
     (∀ k b, tfind s.blocks k = some b → tfind s'.blocks k = some (if b.partition = n then { b with saved := false } else b)) ∧
     ∀ f u, tfind s.teams f = some u → u.partition = n → u.halted = true →
       ((∀ id, u.wait ≠ .bar id) → u.wait ≠ .gbar → tfind s'.teams f = some { u with halted := false }) ∧
       ∀ id g b, u.wait = .bar id → tfind u.barPend id = some g → tfind s.blocks u.block = some b →
         tfind s'.teams f = some (if g < (tget b.bars id {}).gen then
           { u with halted := false, wait := .marker, barPend := tdel u.barPend id } else { u with halted := false })) ∧
    -- saving
    (let halted := fun (e : Nat × Block) => (∀ f ∈ e.2.teams, ∀ u, tfind s.teams f = some u →
         ((u.halted = true ∧ (∀ q ∈ u.pend, ∃ m, q.lat = .fixed m) ∧ ∀ a ∈ s.accs, a.2.team ≠ f) ∨ teamOver s f u = true)) ∧
       ∀ o ∈ (s.cluster e.2.cluster).ops, o.2.block ≠ e.1
     let ready := p.preempting = true ∧ p.halting = true ∧ ∀ e ∈ mine, halted e
     let kernel := fun (b : Block) => ((s.launch? n b.launch).getD {}).kernel
     let size := fun (b : Block) => 4096 + 1024 * b.nteams +
       256 * ((kernel b).team / 32) * (kernel b).regs * (b.teams.filter fun f => (tfind s.teams f).any (·.halted)).length +
       256 * b.rows + if b.holdsAcc then 786432 else 0
     let plain := ∀ e ∈ mine, (kernel e.2).livemap = 0 ∧ ∃ f ∈ e.2.teams, ∃ u, tfind s.teams f = some u ∧ u.halted = true
     let need := (mine.map fun e => size e.2).sum
     let area := (p.psave.extractLsb' 48 16).toNat * 2 ^ 20
     (¬ready → exec (.preemptSave n) s = .next s) ∧
     (ready → plain → area < need →
       exec (.preemptSave n) s = .next (answerPctl (resumePartition s n) 2 n 7)) ∧
     (ready → plain → need ≤ area →
       ∃ u, exec (.preemptSave n) s = .next (answerPctl u 2 n 0) ∧ u.launches = s.launches ∧ u.pctls = s.pctls ∧
         u.partition n = { p with preempting := false, halting := false, preempted := true } ∧
         (∀ k, (u.cluster k).sp = (s.cluster k).sp ∧ (u.cluster k).acc = (s.cluster k).acc) ∧
         (∀ e ∈ mine, ∃ b, tfind u.blocks e.1 = some b ∧ b.saved = true ∧ b.races = []) ∧
         ∀ f t, tfind s.teams f = some t → t.pend = [] → ∃ t', tfind u.teams f = some t' ∧ t'.v = t.v ∧ t'.k = t.k ∧ t'.p = t.p ∧
           t'.t = t.t ∧ t'.flags = t.flags ∧ t'.mask = t.mask ∧ t'.stack = t.stack ∧ t'.pc = t.pc ∧ t'.wait = t.wait) ∧
     (p.preempting = true → p.preemptDeadline ≤ s.cycle → ¬ready →
       exec (.preemptBudgetExpiry n) s = .next (answerPctl (resumePartition s n) 2 n 5)) ∧
     (p.preempting = false ∨ s.cycle < p.preemptDeadline ∨ ready → exec (.preemptBudgetExpiry n) s = .next s)) ∧
    -- the answer of a pctl
    (∀ op st g iss d q t, s.pctls = [⟨g, iss, op, n⟩] → tfind s.teams g = some t → t.pend = [q] → q.issue = iss → q.lat = .variable →
      q.writes = [⟨d, []⟩] → q.tags = [] → q.lanes ≠ [] → q.lanes.Nodup → (∀ l ∈ q.lanes, l < 1024) →
      (answerPctl s op n st).pctls = [] ∧ ∃ t', tfind (answerPctl s op n st).teams g = some t' ∧ t'.pend = [] ∧
        match d with
        | .k j => readK t' j = BitVec.ofNat 64 st
        | .v j => ∀ l ∈ q.lanes, readV t' j l = BitVec.ofNat 64 st
        | _ => True) ∧
    -- resets
    (NoErrors s → p.pendingQuota = none → let s' := resetPartition s n
      (∀ l ∈ s'.launches, l.partition ≠ n) ∧ (∀ k, ∀ x ∈ (s'.cluster k).l1, x.partition ≠ n) ∧ (∀ x ∈ s'.llc, x.owner ≠ n) ∧
      (∀ k b, tfind s.blocks k = some b → b.partition = n → (∃ l ∈ s.launches, l.partition = n ∧ l.id = b.launch) →
        tfind s'.blocks k = none ∧ ∀ f ∈ b.teams, tfind s'.teams f = none) ∧
      s'.partition n = { s'.partition n with
        launchCtr := 0, rr := [], fvmark := 0, resetting := false, preempting := false, halting := false, preempted := false
        drained := false, quota := p.quota, fltb := p.fltb, elogb := p.elogb, proot := p.proot, pendingQuota := none }) ∧
    (∀ vf, let w := tget s.hostLink.vfmap vf 0
      let mine := fun (q : Nat) => w.getLsbD 63 = true ∧ (w.extractLsb' 0 6).toNat ≤ q ∧ q < (w.extractLsb' 0 6).toNat + (w.extractLsb' 8 6).toNat
      ∃ s', exec (.functionLevelReset vf) s = .next s' ∧ (∀ e ∈ s'.hostLink.atc, e.1 ≠ (vf + 1) % 17) ∧ (∀ l ∈ s'.launches, ¬mine l.queue) ∧
        (∀ k b l, tfind s.blocks k = some b → l ∈ s.launches → l.partition = b.partition → l.id = b.launch → mine l.queue →
          tfind s'.blocks k = none ∧ ∀ f ∈ b.teams, tfind s'.teams f = none) ∧
        (w.getLsbD 63 = false → { s' with hostLink := s.hostLink } = s)) ∧
    match p.pendingQuota with
    | none => exec (.quotaChangeApply n) s = .next s
    | some q => if holdsRemoved s n q then exec (.quotaChangeApply n) s = .next s
      else ∃ s', exec (.quotaChangeApply n) s = .next s' ∧ s'.partition n = { p with quota := q, pendingQuota := none } ∧
        DataKept s s' ∧ s'.teams = s.teams ∧ s'.blocks = s.blocks ∧ ∀ m, m ≠ n → s'.partition m = s.partition m


-- ===== the fabric =====

/-- R448, R449, R451 and R452: tget and tmwait complete, and what syncs do. tget gives every active lane the fabric time at its
issue and the predicate LOCK. tmwait's team waits; it wakes when its results are in and fabric time has reached K[A], and its D
holds the fabric time of that moment. The grandmaster is the one of least fid among those announced and, with role 1, the
package itself; one that is announced stands among them, and the one that is followed is announced on. A sync of the grandmaster
sets the offset, adds to the run of syncs within 8 ns or ends it, and sets LOCK at 16, and a sync goes on, in two messages with
STEP2; 4 sync intervals without one clear LOCK, and the silent grandmaster is no longer known. While LOCK is set fabric time
never steps. A rate correction is within ±500 ppm, and the rate stays as it was while LOCK is clear. The offset 0 of a sync of
the package's own fid is log 34 (DESIGN CHOICE); which announced masters are known, for how long, and what a boundary clock sends
on are log 99 (DESIGN CHOICE). -/
def Obligations.FabricTime : Prop :=
  ∀ (h : Hdr) (d : Dst) (pc : BitVec 4) (a : BitVec 6) (s : State),
    let x := s.fabric
    let ns := x.time / 4000000 % 2 ^ 64
    let role := (x.ftime.extractLsb' 2 2).toNat
    let interval := 800000000 / 2 ^ (x.ftime.extractLsb' 8 4).toNat
    let domain := (x.ftime.extractLsb' 16 8).toNat
    let gm := fun (ms : List (Nat × Nat)) => (ms.map (·.1) ++ if role = 1 then [x.fid] else []).min?
    (∀ t, Issuing s t →
      Computes (.tget h d pc) s t h L4 [(dstReg d, fun _ => some (BitVec.ofNat 64 ns)), (pReg pc, fun _ => some (if x.lock then 1 else 0))]
        (fun _ => 0) ∧
      Goes (.tmwait h d a) s { t.issued h (t.pc + 8) [] with wait := .time (readK t a.toNat).toNat d (activeLanes t h) }) ∧
    (∀ f t dl lanes, tfind s.teams f = some t → t.wait = .time dl d lanes → (∀ l ∈ lanes, l < 1024) →
      ((∃ p ∈ t.pend, p.lat = .variable) ∨ ns < dl → exec (.tmwaitWake f) s = .next s) ∧
      (t.pend = [] → dl ≤ ns → ∃ s' t', exec (.tmwaitWake f) s = .next s' ∧ tfind s'.teams f = some t' ∧ t'.wait = .ready ∧
        { t' with v := t.v, k := t.k, kFresh := t.kFresh, vmap := t.vmap, vtag := t.vtag, wait := t.wait } = t ∧
        (match d with
          | .v r => ∀ l ∈ lanes, readV t' r.toNat l = BitVec.ofNat 64 ns
          | .k r => lanes ≠ [] → readK t' r.toNat = BitVec.ofNat 64 ns) ∧
        (∀ r l, l < 1024 → dstReg d ≠ .v r ∨ l ∉ lanes → readV t' r l = readV t r l) ∧ (∀ r, dstReg d ≠ .k r → readK t' r = readK t r) ∧
        (∀ g, g ≠ f → tfind s'.teams g = tfind s.teams g) ∧ { s' with teams := s.teams, cores := s.cores, seq := s.seq } = s)) ∧
    (∀ m st, let ms := (x.masters.filter fun o => o.1 ≠ m) ++ [(m, st)]
      exec (.ptpAnnounceReceived m st) s = .next (if role = 0 then s
        else { s with fabric := { x with masters := ms, lastSync := if gm ms = gm x.masters ∨ x.lock = true then x.lastSync else s.cycle }
                      notices := s.notices ++ if gm ms = some m then [.ptpAnnounce domain m] else [] })) ∧
    (∀ m sent delay,
      (role = 0 ∨ gm x.masters ≠ some m → exec (.ptpSyncReceived m sent delay) s = .next s) ∧
      (role ≠ 0 → gm x.masters = some m → ∃ s', exec (.ptpSyncReceived m sent delay) s = .next s' ∧
        let y := s'.fabric
        let told := y.time / 4000000 % 2 ^ 64
        { s' with fabric := s.fabric, freeCtr := s.freeCtr, notices := s.notices } = s ∧
        s'.notices = s.notices ++ (if x.ftime.getLsbD 4 = true then [.ptpSync domain none, .ptpFollowUp domain told]
          else [.ptpSync domain (some told)]) ∧
        y.masters = x.masters ∧ y.ftime = x.ftime ∧ y.fid = x.fid ∧
        let off : Int := if m = x.fid then 0 else (ns : Int) - (sent + delay)
        (y.offset : Int) = off % 2 ^ 32 ∧ y.goodSyncs = (if |off| < 8 then x.goodSyncs + 1 else 0) ∧ y.lastSync = s.cycle ∧
        y.lock = (x.lock || decide (16 ≤ y.goodSyncs)) ∧
        (y.time = x.time ∨ y.time = (sent + delay) * 4000000) ∧
        (x.lock = true ∨ x.stepped = true ∨ y.goodSyncs < 16 → y.time = x.time) ∧
        (if m = x.fid ∨ x.lock = false then y.rate = x.rate else -500 ≤ y.rate ∧ y.rate ≤ 500))) ∧
    exec .ptpSyncLoss s = .next (if (x.lock = true ∨ x.masters ≠ []) ∧ x.lastSync + 4 * interval ≤ s.cycle then
      { s with fabric := { x with lock := false, goodSyncs := 0, lastSync := s.cycle
                                  masters := x.masters.filter fun o => some o.1 ≠ gm x.masters } } else s)

/-- R442: seal and open complete. The word waits, unissued, for its .sys release and leaves its token in flight. As it completes
the pages are checked in the order of the table: the token takes the first status that applies and nothing else changes. Else
every leaf of the range is sealed at the version, or open with version 0; fvmark takes a sealed version; no TLB holds the range;
the other packages are told, of each version that an opening retires; and the token, which waits for that, holds the length.
Another package's sealing drops the lines, the translations and the value-store entries held of it here, and what is in flight
from its range brings no line. Stated where no error lies in wait and nothing is on its way to the pages. That an opening with
version bits set answers 0x41 is log 58 (DEDUCED). -/
def Obligations.Sealing : Prop :=
  ∀ (s : State), NoErrors s →
    (∀ (h : Hdr) (tok a b : BitVec 6) (isOpen : Bool) (t : Team), Issuing s t →
      let i : Instr := if isOpen then .sealOpen h tok a b else .seal h tok a b
      let u := t.issued h (t.pc + 8) [tokenInFlight t tok]
      let x : SealOp := { team := s.cur, issue := t.issues, partition := t.partition, base := (readK t a.toNat).toNat
                          len := ((readK t b.toNat).extractLsb' 0 48).toNat, ver := ((readK t b.toNat).extractLsb' 48 16).toNat, isOpen }
      (t.lostStore = true → exec i s = .next (trapWord (s.setTeam s.cur { t with lostStore := false }) s.cur
        { t with lostStore := false } .fabricDown)) ∧
      (t.lostStore = false → releaseReady s s.cur t .sys = false → exec i s = .next s) ∧
      (t.lostStore = false → releaseReady s s.cur t .sys = true →
        exec i s = .next { s.setTeam s.cur u with seals := tput s.seals s.seq x, seq := s.seq + 1 })) ∧
    (∀ op x, tfind s.seals op = some x → x.told = true →
      exec (.sealCompletion op) s = .next (landToken { s with seals := tdel s.seals op } x.team x.issue (x.len * 256))) ∧
    (∀ op x, tfind s.seals op = some x → x.ver < 2 ^ 16 → x.done = [] → x.opened = [] → x.told = false →
      let va := fun i => x.base + 65536 * i
      let pages := List.range (x.len / 65536)
      let page := fun i => (walkNow s x.partition (va i)).2
      let leaf := fun i => Leaf.ofNat ((page i).elim 0 (·.1))
      let inside := fun i => (page i).elim False fun e =>
        x.base ≤ va i / 2 ^ e.2 * 2 ^ e.2 ∧ va i / 2 ^ e.2 * 2 ^ e.2 + 2 ^ e.2 ≤ x.base + x.len
      let badRange := x.base % 65536 ≠ 0 ∨ x.len % 65536 ≠ 0 ∨ x.len = 0 ∨
        ∃ i ∈ pages, ¬inside i ∨ ((leaf i).x = false ∧ (leaf i).pn ≠ x.partition)
      let badVersion := if x.isOpen then x.ver ≠ 0 else x.ver ≤ (s.partition x.partition).fvmark
      let badState := ∃ i ∈ pages, (leaf i).sealed ≠ x.isOpen
      let shared := ∃ i ∈ pages, (leaf i).x = true
      let fails := fun (st : Nat) => exec (.sealCompletion op) s = .next (landToken { s with seals := tdel s.seals op } x.team x.issue st)
      (badRange → fails 0x40) ∧ (¬badRange → badVersion → fails 0x41) ∧ (¬badRange → ¬badVersion → badState → fails 0x42) ∧
      (¬badRange → ¬badVersion → ¬badState → shared → fails 0x43) ∧
      (¬badRange → ¬badVersion → ¬badState → ¬shared → s.accs = [] →
        (∀ c ∈ s.clusters, c.2.ops = []) →
        ∃ s' y, exec (.sealCompletion op) s = .next s' ∧ tfind s'.seals op = some y ∧
          (∀ o, o ≠ op → tfind s'.seals o = tfind s.seals o) ∧
          { y with done := [], opened := [], told := false } = x ∧ y.told = true ∧
          (∀ g u, tfind s.teams g = some u → ∃ u', tfind s'.teams g = some u' ∧ u'.k = u.k ∧ u'.pend = u.pend) ∧
          (s'.partition x.partition).fvmark = (if x.isOpen then (s.partition x.partition).fvmark else x.ver) ∧
          (∀ i ∈ pages, ∀ e pa bits, page i = some e → leafPlace s (va i) 3 ((s.partition x.partition).proot * 4096) = some (pa, bits) →
            BitVec.ofNat 64 (bytesGet s'.mem pa 8) = (BitVec.ofNat 64 e.1 &&& ~~~0x0FFF_F000_0000_0010) |||
              if x.isOpen then 0 else BitVec.ofNat 64 (0x10 + x.ver * 2 ^ 44)) ∧
          (∀ c, ∀ e ∈ (s'.core c).tlb, e.partition = x.partition → (e.page + 1) * 2 ^ e.bits ≤ x.base ∨ x.base + x.len ≤ e.page * 2 ^ e.bits) ∧
          ∃ vs : List Nat, s'.notices = s.notices ++ vs.map (.rangeDrop x.base x.len) ∧ vs.Nodup ∧
            (x.isOpen = false → vs = [x.ver]) ∧ (x.isOpen = true → ∀ v, v ∈ vs ↔ ∃ i ∈ pages, (leaf i).ver = v))) ∧
    (∀ pkg base len ver, ∃ s', exec (.fabricRangeDrop pkg base len ver) s = .next s' ∧
      { s' with clusters := s.clusters, cores := s.cores, llc := s.llc, accs := s.accs, teams := s.teams,
                fabric := { s'.fabric with seen := s.fabric.seen } } = s ∧ DataKept s s' ∧
      (∀ x, x ∈ s'.fabric.seen ↔ x ∈ s.fabric.seen ∧
        ¬(x.package = pkg ∧ x.page * 65536 < base + len ∧ base < x.page * 65536 + 65536)) ∧
      (s'.accs = s.accs.map fun e => match e.2.place with
        | .remote p addr => if p = pkg ∧ addr < base + len ∧ base < addr + e.2.size then (e.1, { e.2 with stale := true }) else e
        | _ => e) ∧
      (∀ g u, tfind s.teams g = some u → ∃ u', tfind s'.teams g = some u' ∧ { u' with pend := u.pend } = u ∧
        u'.pend.map (fun p => { p with vers := [] }) = u.pend.map fun p => { p with vers := [] }) ∧
      (∀ k x, x ∈ (s'.cluster k).l1 ↔ x ∈ (s.cluster k).l1 ∧
        ¬(x.remote = some pkg ∧ x.ver ≠ 0 ∧ x.line * 256 < base + len ∧ base < x.line * 256 + 256)) ∧
      (∀ x, x ∈ s'.llc ↔ x ∈ s.llc ∧ ¬(x.remote = some pkg ∧ x.line * 256 < base + len ∧ base < x.line * 256 + 256)) ∧
      ∀ c, ∀ e ∈ (s'.core c).tagTable, (pkg, ver) ∉ e.2.versions) ∧
    -- the token
    ∀ f t iss r v, tfind s.teams f = some t → t.pend = [{ issue := iss, lat := .token, writes := [⟨.k r, []⟩], lanes := [0] }] →
      ∃ t', tfind (landToken s f iss v).teams f = some t' ∧ t'.pend = [] ∧ readK t' r = BitVec.ofNat 64 v ∧
        ∀ j, j ≠ r → readK t' j = readK t j


/-- R443 to R447: coll completes, and what becomes of a collective. The word waits, unissued, for its .span release; a record
that is malformed leaves the token 0x10 in flight and a tag in flight 0x33, and nothing joins. Otherwise the participant joins:
its contribution is there and sent on, with those that came early. A contribution whose record differs fails the collective with
0x33; one for a partition that has left its span is not taken. With every contribution there it agrees the commit and tells the
others, and with every member's agreement it commits: the destination holds ⊕ of the ranks' elements in ascending rank order, or
each rank's part in turn, and the token the bytes written. A failure before the commit gives the token its status and tells the
others; a member's failure comes with its own. At its timeout the status is 0x31. A pod barrier takes the release time that its
last arrival sets and leaves at its place in the hoist order. Stated where no error lies in wait and no frame is under retirement.
The token 0x10 for a record or members that cannot be read, or a source or destination that does not translate, is log 33
(DEDUCED); the messages that agree a commit, that a participant which has agreed does not fail by itself, and which of two
simultaneous arrivals is the last are log 98 (DESIGN CHOICE). -/
def Obligations.Collectives : Prop :=
  ∀ (s : State), NoErrors s → s.retiring = [] →
    let ns := s.fabric.time / 4000000 % 2 ^ 64
    let hostOnly := fun (l : List Notice) => ∀ n ∈ l, ∃ b f x, n = .hostRequest b f x
    let joined := fun (n : Nat) => (s.partition n).fspan.getLsbD 16 = true
    (∀ (h : Hdr) (tok a : BitVec 6) (t : Team), Issuing s t → t.lostStore = false →
      let i : Instr := .coll h tok a
      let va := (readK t a.toNat).toNat
      let rd := (collRead s t.partition va).1
      let alone := fun (v : Nat) => exec i s = .next (rd.setTeam s.cur (t.issued h (t.pc + 8) [{ tokenInFlight t tok with
        writes := [⟨.k tok.toNat, [(0, BitVec.ofNat 64 v)]⟩] }]))
      (releaseReady s s.cur t .span = false → exec i s = .next s) ∧
      (releaseReady s s.cur t .span = true →
        ((collRead s t.partition va).2 = none → alone 0x10) ∧
        (va % 64 ≠ 0 → (collRead s t.partition va).2 = none) ∧
        (∀ w, (vaRead s t.partition va 64).2 = some w → w % 256 ≠ 1 ∨ w / 256 ^ 44 % 256 ^ 20 ≠ 0 ∨ 2 < w / 256 % 256 ∨
          w / 256 ^ 4 % 256 ^ 2 ≤ w / 256 ^ 6 % 256 ^ 2 ∨ 256 < w / 256 ^ 4 % 256 ^ 2 → (collRead s t.partition va).2 = none) ∧
        ∀ r, (collRead s t.partition va).2 = some r →
          ((tfind s.colls r.record.key.tag).isSome = true → alone 0x33) ∧
          (tfind s.colls r.record.key.tag = none → s.fabric.early = [] →
            let data := (readPieces s t.partition r.pieces).2.1
            let pod := r.record.key.op = 0 ∧ r.record.key.count = 0
            ∃ s' c, exec i s = .next s' ∧ tfind s'.teams s.cur = some (t.issued h (t.pc + 8) [tokenInFlight t tok]) ∧
              (∀ f, f ≠ s.cur → tfind s'.teams f = tfind s.teams f) ∧ DataKept s s' ∧
              tfind s'.colls r.record.key.tag = some c ∧ (∀ k, k ≠ r.record.key.tag → tfind s'.colls k = tfind s.colls k) ∧
              c.team = s.cur ∧ c.issue = t.issues ∧ c.key = r.record.key ∧ c.rank = r.record.rank ∧ c.dst = r.record.dst ∧
              c.contributions = [(r.record.rank, data)] ∧
              c.deadline = s.cycle + (if c.key.timeout = 0 then 10000 else c.key.timeout) * 800 ∧
              c.podTime = (if pod then some (ns + (s.fabric.fpod.extractLsb' 16 16).toNat, ns) else none) ∧
              c.agreed = [] ∧ c.committed = false ∧ c.leaveAt = none ∧
              (∃ l, rd.notices = s.notices ++ l ∧ hostOnly l) ∧
              ∃ sent, s'.notices = rd.notices ++ (if joined t.partition then [.contribution c.key c.rank sent] else []) ∧
                (¬pod → sent = data) ∧ (pod → elemAt sent 8 1 = ns ∧
                  elemAt sent 8 0 = (ns + (s.fabric.fpod.extractLsb' 16 16).toNat) % 2 ^ 64)))) ∧
    (∀ tag c, tfind s.colls tag = some c → c.key.tag = tag →
      let free := { s with colls := tdel s.colls tag }
      -- ends with a status before its commit: what the destination's bytes are is open
      let fails := fun (u : State) (st : Nat) (told : Bool) => ∃ s1 l, u = landToken s1 c.team c.issue st ∧ s1.colls = free.colls ∧
        s1.teams = s.teams ∧ s1.notices = s.notices ++ l ++ (if told then [.collFailed tag st] else []) ∧ hostOnly l
      let bound := c.rank ∈ c.agreed
      let pod := c.key.op = 0 ∧ c.key.count = 0
      let whole := ∀ r, r < c.key.size → ∃ e ∈ c.contributions, e.1 = r
      let agreedAll := ∀ r, r < c.key.size → r ≠ c.rank → r ∈ c.agreed
      let agrees := fun (m : Nat) => (c.agreed ++ [m]).eraseDups
      (∀ key m data, key.tag = tag → let i : Instr := .collContributionArrival key m data
        let takes := fun (d : Coll) => exec i s = .next { s with colls := tput s.colls tag d }
        (key.span ≠ c.key.span ∨ c.committed = true ∨ ¬joined c.partition → exec i s = .next s) ∧
        (key.span = c.key.span → c.committed = false → joined c.partition →
          (key ≠ c.key → bound → exec i s = .next s) ∧
          (key ≠ c.key → ¬bound → ∃ u, exec i s = .next u ∧ fails u 0x33 true) ∧
          (key = c.key →
            ((∃ e ∈ c.contributions, e.1 = m) → takes { c with agreed := agrees m }) ∧
            ((∀ e ∈ c.contributions, e.1 ≠ m) →
              (¬pod → takes { c with contributions := c.contributions ++ [(m, data)] }) ∧
              (pod → let a := (elemAt data 8 0, elemAt data 8 1)
                takes { c with
                  contributions := c.contributions ++ [(m, [])]
                  podTime := some (match c.podTime with
                    | none => a
                    | some b => if b.2 < a.2 ∨ (b.2 = a.2 ∧ b.1 < a.1) then a else b) }))))) ∧
      (∀ st, c.committed = false → ∃ u, exec (.collMemberFailure tag st) s = .next u ∧ fails u st false) ∧
      (s.cycle < c.deadline → exec (.collTimeout tag) s = .next s) ∧
      (c.deadline ≤ s.cycle → c.committed = true ∨ bound → exec (.collTimeout tag) s = .next s) ∧
      (c.deadline ≤ s.cycle → c.committed = false → ¬bound → ∃ u, exec (.collTimeout tag) s = .next u ∧ fails u 0x31 true) ∧
      (c.committed = true ∨ ¬whole → exec (.collCommit tag) s = .next s) ∧
      (c.committed = false → whole → ¬agreedAll → exec (.collCommit tag) s = .next (if bound then s else { s with
        colls := tput s.colls tag { c with agreed := agrees c.rank }
        notices := s.notices ++ [.collAgreed c.key c.rank] })) ∧
      (c.committed = false → whole → agreedAll → ¬pod →
        ∀ pa, (spanPas s c.partition c.dst c.dstBytes .write) = (s, some [(c.dst, pa, c.dstBytes)]) →
        let size := if c.key.ty = 1 then 2 else 4
        let part := fun r => ((c.contributions.find? fun e => e.1 == r).map (·.2)).getD []
        let elem := fun (r i : Nat) => ((List.range size).map fun j => ((part r).getD (i * size + j) 0).toNat * 256 ^ j).sum
        ∃ s1, exec (.collCommit tag) s = .next (landToken s1 c.team c.issue (c.dstBytes * 256)) ∧ s1.colls = free.colls ∧
          s1.teams = s.teams ∧ (∀ y, y < pa ∨ pa + c.dstBytes ≤ y → tget s1.mem y 0 = tget s.mem y 0) ∧
          (c.key.op = 1 → c.dstBytes = c.key.size * c.key.count * size ∧ ∀ r i, r < c.key.size → i < c.key.count →
            (c.key.count * size ≤ (part r).length) → (∀ q, q < c.key.size → c.key.count * size ≤ (part q).length) →
            bytesGet s1.mem (pa + (r * c.key.count + i) * size) size = elem r i) ∧
          (c.key.op ≠ 1 → c.dstBytes = c.key.count * size ∧ ∀ i, i < c.key.count →
            let xs := (List.range c.key.size).map fun r => elem r ((if c.key.op = 2 then c.rank * c.key.count else 0) + i)
            bytesGet s1.mem (pa + i * size) size = reduceAll c.key.red c.key.ty xs % 256 ^ size)) ∧
      (pod →
        (c.committed = false → whole → agreedAll → exec (.collCommit tag) s = .next { s with colls := tput s.colls tag { c with
          committed := true
          releaseAt := (match c.podTime with
            | none => 0
            | some b => b.1) + c.rank * (s.fabric.fpod.extractLsb' 0 16).toNat } }) ∧
        (c.committed = true → c.leaveAt = none → ns < c.releaseAt → exec (.podBarrierRelease tag) s = .next s) ∧
        (c.committed = true → c.leaveAt = none → c.releaseAt ≤ ns →
          let rot := tget s.power.rot c.partition 0
          let unit := c.team / 48
          let tw := max s.power.tw ((192000 * 2 ^ s.power.wsz + s.power.slew - 1) / s.power.slew)
          exec (.podBarrierRelease tag) s = .next { s with
            colls := tput s.colls tag { c with leaveAt := some (s.cycle + 16 + unit / 64 * s.power.td +
              (unit % 64 + rot) % 64 / 2 ^ s.power.wsz * tw) }
            power := { s.power with rot := tset s.power.rot c.partition ((rot + 1) % 64) 0 } }) ∧
        (∀ at', c.committed = true → c.leaveAt = some at' →
          (s.cycle < at' → exec (.podBarrierRelease tag) s = .next s) ∧
          (at' ≤ s.cycle → ∃ s1, exec (.podBarrierRelease tag) s = .next (beginHalting (landToken s1 c.team c.issue 0) c.partition) ∧
            s1.colls = free.colls ∧
            s1.mem = s.mem ∧ s1.teams = s.teams)))) ∧
    (∀ (red x : Nat) (xs : List Nat),
      reduceAll red 6 (x :: xs) = xs.foldl (fun p y => match red with
        | 0 => (p + y) % 2 ^ 32
        | 1 => ((min (BitVec.ofNat 32 p).toInt (BitVec.ofNat 32 y).toInt) % 2 ^ 32).toNat
        | _ => ((max (BitVec.ofNat 32 p).toInt (BitVec.ofNat 32 y).toInt) % 2 ^ 32).toNat) x ∧
      (xs ≠ [] → reduceAll 0 2 (x :: xs) = xs.foldl (fun p y => (Fmt.f32.add .rne (Fmt.f32.value p) (Fmt.f32.value y)).1) x) ∧
      reduceAll 0 1 (x :: xs) = Fmt.bf16.pattern (Fmt.f32.value
        (xs.foldl (fun p y => (Fmt.f32.add .rne (Fmt.f32.value p) (Fmt.f32.value (y * 65536))).1) (x * 65536)))) ∧
    ∀ key m data, tfind s.colls key.tag = none → exec (.collContributionArrival key m data) s =
      .next { s with fabric := { s.fabric with early := s.fabric.early ++ [(key, m, data)] } }


/-- R435 to R441, R453 and R454: the ports and what crosses them. A port trains to the highest version common to both sides, or
not at all; a replay is counted; after a lane's failure it holds its traffic while it retrains, within 40 µs, and goes on at 4
lanes, or is DOWN; each change is logged in partition 0's ring. A store on a port that goes DOWN is lost: it is in flight no longer
and its team owes the fabric-down trap. A flit goes on in the scheduled class only while its port is at version 3 and its hops are
within the stamped limit; one that is held goes out when its port can carry it. A request from another package is performed under
the partition of its span, or refused, and a scheduled store that comes after its deadline is told in that partition's ring; an
answer brings its lane the data, or parks it with the target's refusal, and an atomic's drops the line that the cluster holds; an
acknowledgement ends a store and reaches the lines that hold its bytes. Stated where no error lies in wait. That a port that is
DOWN keeps its version, peer and pport, and the cause byte of a change that R390 does not list, are the model's choices (log 32). -/
def Obligations.FabricTraffic : Prop :=
  ∀ (s : State) (port : Nat), NoErrors s → let x := s.port port
    let only := fun (s' : State) => { s' with fabric := s.fabric, hostLink := s.hostLink } = s
    let tar := fun (s' : State) => ∀ n y, tfind s'.fabric.ports n = some y → y.down = false →
      (s'.hostLink.ifneg.extractLsb' 24 8).toNat ≤ y.ver % 256
    (∀ low high peer pp lanes, let ver := min 3 high
      let trains := x.en = true ∧ max 1 low ≤ ver ∧ port < 32 ∧ (lanes = 8 ∨ lanes = 4)
      (¬trains → exec (.tarbinPortTraining port low high peer pp lanes) s = .next s) ∧
      (trains → (∀ n y, tfind s.fabric.ports n = some y → y.ver < 256) → ∃ s' cause, cause < 256 ∧
        exec (.tarbinPortTraining port low high peer pp lanes) s = .next (flushTransit (linkEntry s' port cause 0 0)) ∧
        only { s' with bexile := s.bexile, freeCtr := s.freeCtr } ∧ tar s' ∧
        { s'.bexile with meas := s.bexile.meas } = s.bexile ∧ (∀ m, m ≠ 2 → tget s'.bexile.meas m 0 = tget s.bexile.meas m 0) ∧
        s'.port port = { x with ver, peer, pport := pp, width := lanes, down := false } ∧ ∀ n, n ≠ port → s'.port n = s.port n)) ∧
    (∃ s', exec (.flitReplay port) s = .next s' ∧ only s' ∧ s'.port port = { x with retries := min (x.retries + 1) 65535 } ∧
      ∀ n, n ≠ port → s'.port n = s.port n) ∧
    (∀ ok : Bool, x.down = true → exec (.portLaneFailure port ok) s = .next s) ∧
    (∀ fl, s.fabric.transit = [fl] →
      exec (.flitForward fl) { s with fabric := { s.fabric with transit := [] } } = .next (flushTransit s)) ∧
    (x.down = false → ∃ s' cause held, exec (.portLaneFailure port true) s = .next (linkEntry s' port cause 0 0) ∧ cause < 256 ∧
      s.cycle ≤ held ∧ held ≤ s.cycle + 32000 ∧ s'.port port = { x with width := 4, heldUntil := held } ∧
      { s' with fabric := s.fabric, hostLink := s.hostLink, freeCtr := s.freeCtr } = s) ∧
    (x.down = false → s.accs = [] → s.colls = [] → ∃ s', exec (.portLaneFailure port false) s = .next (linkEntry s' port 0 0 0) ∧
      s'.port port = { x with down := true, width := 0, heldUntil := 0 } ∧ only s') ∧
    (x.down = false → s.colls = [] → ∀ key a pkg addr t, s.accs = [(key, a)] → a.place = .remote pkg addr → a.kind = .store →
      (((tget s.fabric.froute (pkg / 8) 0).extractLsb' (8 * (pkg % 8)) 5).toNat = port) → tfind s.teams a.team = some t →
      ∃ s', exec (.portLaneFailure port false) s = .next s' ∧ s'.accs = [] ∧ (s'.port port).down = true ∧
        tfind s'.teams a.team = some { t with lostStore := true }) ∧
    (∀ fl : Flit,
      let route := (tget s.fabric.froute (fl.target / 8) 0).extractLsb' (8 * (fl.target % 8)) 8
      let out := (route.extractLsb' 0 5).toNat
      exec (.flitForward fl) s = .next { s with fabric := if route.getLsbD 7 = true ∧ (s.port out).down = false ∧
          (s.port out).heldUntil ≤ s.cycle then
          { s.fabric with outgoing := s.fabric.outgoing ++ [(out, { fl with
            hops := fl.hops + 1, scheduled := fl.scheduled && decide (3 ≤ (s.port out).ver) && decide (fl.hops + 1 ≤ fl.hmax) })] }
        else { s.fabric with transit := s.fabric.transit ++ [fl] } }) ∧
    (∀ r : RemoteReq,
      let joins := fun n => n < 8 ∧ (s.partition n).fspan.getLsbD 16 = true ∧ (s.partition n).fspan.toNat % 65536 = r.span
      let i := Instr.remoteRequestArrival r
      ((∀ n, ¬joins n) → exec i s = .next { s with notices := s.notices ++ [.answer r.package 5 0 0] }) ∧
      ∀ n, joins n → (∀ m, m < n → ¬joins m) →
        let writes := match r.kind with
          | .load | .prefetch => false
          | _ => true
        ((walkNow s n r.addr).2 = none → exec i s = .next { s with notices := s.notices ++ [.answer r.package 4 0 0] }) ∧
        ∀ leaf bits, (walkNow s n r.addr).2 = some (leaf, bits) →
          (∀ c, leafCheck n (if writes then .write else .read) r.vt leaf bits r.addr = .error c →
            exec i s = .next { s with notices := s.notices ++ [.answer r.package c.code 0 0] }) ∧
          ∀ pa, leafCheck n (if writes then .write else .read) r.vt leaf bits r.addr = .ok pa →
            let ver := if 2 ≤ routeVer s r.package then (Leaf.ofNat leaf).ver else 0
            let late := ∃ d, r.due = some d ∧ d < s.fabric.time / 4000000 % 2 ^ 64
            let u := if late then linkEntry s (routePort s r.package) 1 n 0 else s
            let answers := fun (s' : State) (code data : Nat) => s'.notices = u.notices ++ [.answer r.package code data ver]
            ∃ s', exec i s = .next s' ∧ s'.teams = s.teams ∧ (∀ y, y < pa ∨ pa + r.size ≤ y → tget s'.mem y 0 = tget u.mem y 0) ∧
              (r.kind = .load ∨ r.kind = .prefetch → s'.mem = u.mem ∧ answers s' 0 (bytesGet u.mem pa r.size)) ∧
              (r.kind = .store → bytesGet s'.mem pa r.size = r.data.toNat % 256 ^ r.size ∧ answers s' 0 0) ∧
              ∀ op ty, r.kind = .atomic op ty → r.size ≤ 8 → let old := BitVec.ofNat 64 (bytesGet u.mem pa r.size)
                answers s' 0 old.toNat ∧ bytesGet s'.mem pa r.size = (match atomicNew op ty old r.data r.cmp with
                  | some v => v.toNat % 256 ^ r.size
                  | none => bytesGet u.mem pa r.size)) ∧
    ∀ key a pkg addr, tfind s.accs key = some a → a.place = .remote pkg addr → accMayPerform s key a = true →
      let rest := { s with accs := tdel s.accs key }
      let parks := fun (u : State) (c : FaultCode) => lateFault u a.team a.lane c a.va a.word
      let cached := fun (u : State) (l1 : List L1Line) => { u with clusters := s.clusters } = rest ∧
        (∀ k, k ≠ a.cluster → u.cluster k = s.cluster k) ∧ u.cluster a.cluster = { s.cluster a.cluster with l1 }
      let noted := fun (u : State) (ver : Nat) => noteVersion u a (if 2 ≤ routeVer s pkg ∧ a.stale = false then ver else 0)
      (a.kind = .store → (∃ u l1, exec (.remoteStoreAck key 0) s = .next u ∧ cached u l1 ∧ l1.length = (s.cluster a.cluster).l1.length ∧
          ∀ (i : Nat) (x y : L1Line), (s.cluster a.cluster).l1[i]? = some x → l1[i]? = some y → { y with data := x.data } = x ∧
            ∀ j, j < 256 → tget y.data j 0 =
              if x.partition = a.partition ∧ x.remote = some pkg ∧ addr ≤ 256 * x.line + j ∧ 256 * x.line + j < addr + a.size then
                BitVec.ofNat 8 (a.data / 256 ^ (256 * x.line + j - addr)) else tget x.data j 0) ∧
        (∀ c : FaultCode, c = .pageFault ∨ c = .accessDenied ∨ c = .sealedStore ∨ c = .memPoisoned →
          exec (.remoteStoreAck key c.code) s = .next (parks rest c)) ∧
        ∀ data code ver line, exec (.remoteAnswerArrival key data code ver line) s = .next s) ∧
      (∀ op ty b c, a.kind = .atomic op ty b c → ∀ data ver line, ∃ u, exec (.remoteAnswerArrival key data 0 ver line) s =
          .next (takeValue (noted u ver) a.team a.issue a.lane (some (BitVec.ofNat 64 data))) ∧
        cached u ((s.cluster a.cluster).l1.filter fun l => !(l.remote == some pkg && l.line == addr / 256))) ∧
      (a.kind = .prefetch → ∀ data code ver, exec (.remoteAnswerArrival key data code ver none) s =
        .next (if code = 0 then noted rest ver else rest)) ∧
      (∀ w, a.kind = .load w → w ≠ .iv →
        (∀ data ver, exec (.remoteAnswerArrival key data 0 ver none) s = .next (takeValue (noted rest ver) a.team a.issue a.lane (some (match w with
          | .s8 => BitVec.ofNat 64 ((BitVec.ofNat 8 data).signExtend 32).toNat
          | .s16 => BitVec.ofNat 64 ((BitVec.ofNat 16 data).signExtend 32).toNat
          | _ => BitVec.ofNat 64 data)))) ∧
        ∀ (c : FaultCode) data ver line, c = .pageFault ∨ c = .accessDenied ∨ c = .spaceMismatch ∨ c = .memPoisoned →
          exec (.remoteAnswerArrival key data c.code ver line) s =
            .next (parks (takeValue (spoilTag rest a.team a.issue a.lane) a.team a.issue a.lane none) c))


-- ===== the package and its keeper =====

/-- R382 to R386, R394, R395, R422 to R426 and R428: what the host, the management bus and Bexile do. A host request ends
with the bytes moved, or parks its lane with the host's error. A host access of device memory reads or writes eight bytes at
their home. In retention a wake returns to the previous state and enqueues the record of wdrec; a debug access wakes only in
open-debug. The cap of the node, a sensor's reading, an image staged, a report signed, a measurement extended in registers 4 to
7 alone, and a token accepted have the effects of their rules and no other. A debug access that the security state does not
permit has none; inspection of a partition that consents and of its memory, and of any place in open-debug, answers. Stated where
no error lies in wait. That a host-link training extends measurement 3 and what a report signs are log 9 (DESIGN CHOICE); that an
inspection answers to the mailbox, and that a halt or trace ends by the value 0, are log 65 (DEDUCED). -/
def Obligations.HostAndKeeper : Prop :=
  ∀ (s : State), NoErrors s → s.power.cur ≠ 3 →
    let tells := fun (i : Instr) (n : Notice) => exec i s = .next { s with notices := s.notices ++ [n] }
    let state := match s.bexile.sec with
      | some x => x
      | none => Config.fuses.1 % 4
    let kept := fun (s' : State) (pa n : Nat) => ∀ y, y < pa ∨ pa + n ≤ y → tget s'.mem y 0 = tget s.mem y 0
    let device := fun (pa : Nat) => pa < 0x180000000 ∨ (0x10000000000 ≤ pa ∧ pa < 0x19000000000)
    (∀ key a pa, tfind s.accs key = some a → a.place = .home pa → 0x80000000000 ≤ pa → accMayPerform s key a = true →
      exec (.hostRequestCompletion key false) s = .next (settleAccess (hostRequest s a.partition pa a.va) key a (.error .pageFault)) ∧
      (a.kind = .store → ∃ s', exec (.hostRequestCompletion key true) s = .next s' ∧ s'.accs = tdel s.accs key ∧
        s'.teams = s.teams ∧ bytesGet s'.mem pa a.size = a.data % 256 ^ a.size ∧ kept s' pa a.size) ∧
      (∀ w, a.kind = .load w → w ≠ .iv → l1Find s a.cluster a.partition none (pa / 256) a.ver a.cn = none →
        ∃ u, exec (.hostRequestCompletion key true) s =
          .next (takeValue u a.team a.issue a.lane (some (loadVal w (bytesGet s.mem pa a.size)))) ∧
          u.mem = s.mem ∧ u.accs = tdel s.accs key ∧ u.teams = s.teams)) ∧
    (∀ key a, tfind s.accs key = some a → accMayPerform s key a = false → ∀ ok, exec (.hostRequestCompletion key ok) s = .next s) ∧
    (∀ n pa va, let u := hostRequest s n pa va
      { u with notices := s.notices, hostLink := { u.hostLink with atc := s.hostLink.atc } } = s ∧
      ∃ fn translated, u.notices = s.notices ++ [.hostRequest (pa - 0x80000000000) fn translated] ∧ (n = 0 → fn = some 0) ∧
        (∀ v, n ≠ 0 → fn = some v → 1 ≤ v ∧ v ≤ 16 ∧ let w := tget s.hostLink.vfmap (v - 1) 0
          w.getLsbD 63 = true ∧ (w.extractLsb' 16 3).toNat = n) ∧
        (translated = true → ∃ v, fn = some v ∧ Config.atsEnabled v = true ∧ (v, va / 65536) ∈ s.hostLink.atc)) ∧
    (∀ f pa, device pa →
      tells (.hostDeviceMemoryAccess f pa none) (.hostWord pa (BitVec.ofNat 64 (bytesGet s.mem pa 8))) ∧
      ∀ x : Word, ∃ s', exec (.hostDeviceMemoryAccess f pa (some x)) s = .next s' ∧ bytesGet s'.mem pa 8 = x.toNat ∧ kept s' pa 8 ∧
        s'.teams = s.teams) ∧
    (∀ f pa w, pa < 0x20000000000 → ¬device pa → exec (.hostDeviceMemoryAccess f pa w) s = .next s) ∧
    (∀ n, let entry := min 5 (s.hostLink.trained + n)
      (s.bexile.failed ≠ 0 → exec (.hostLinkTraining n) s = .next s) ∧
      (s.bexile.failed = 0 → ∃ s' e, exec (.hostLinkTraining n) s = .next ((logEntry s' 0 e).extend 3 (Config.linkBytes 3 [entry])) ∧
        { s' with freeCtr := s.freeCtr } = { s with hostLink := { s.hostLink with trained := entry, up := true } })) ∧
    (∀ src, exec (.retentionWake src) s = .next s) ∧
    (∀ src, let z := { s with power := { s.power with cur := 3 } }
      let back := { s with
        power := { s.power with cur := s.power.prev, req := s.power.prev }
        hostLink := { s.hostLink with idle := false }
        fabric := { s.fabric with idle := false } }
      let rec' := (s.wdrec.extractLsb' 6 42).toNat
      exec (.retentionWake src) z = .next (if src = .debug ∧ state ≠ 2 then z else if rec' = 0 then back
        else (enqueue back 0 (s.wdrec.extractLsb' 0 6).toNat (rec' * 64) none []).1)) ∧
    (∀ w, exec (.nodeCapSet w) s = .next { s with power := { s.power with mcap := w % 65536 } }) ∧
    (∀ x, ∃ v, exec (.pldmSensorRead x) s = .next { s with freeCtr := s.freeCtr + 1, notices := s.notices ++ [.mailbox v] }) ∧
    (∀ x, ∃ v, tells (.pldmBaseRequest x) (.mailbox v)) ∧
    (∀ image sig svn, exec (.firmwareUpdate image sig svn) s =
      .next { s with bexile := { s.bexile with staged := some (image, sig, svn) } }) ∧
    (∀ nonce, let meas := (List.range 8).map fun i => tget s.bexile.meas i 0
      let all := meas ++ [Config.fuses.2 % 256 * 256 + state, s.hostLink.ifneg.toNat]
      exec (.attestationReport nonce) s = .next { s with freeCtr := s.freeCtr + 1, notices := s.notices ++ [.attestation nonce all
        (bytesNat (slhSign (identity s) (Config.signRandom s.freeCtr) (Config.reportBytes nonce all)))] }) ∧
    (∀ r data, exec (.measurementExtend r data) s = .next (if 4 ≤ r ∧ r < 8 then
        { s with bexile := { s.bexile with meas := tset s.bexile.meas r (extended (tget s.bexile.meas r 0) data) 0 } } else s)) ∧
    (∀ token, exec (.unlockToken token) s = .next (match Config.tokenGrants token with
      | some g => { s with bexile := { s.bexile with pendingSec := some (g % 4) } }
      | none => s)) ∧
    (∀ kind target value, (state ≠ 1 → state ≠ 2 → exec (.debugAccess kind target value) s = .next s) ∧
      (state = 1 → (∃ n, target = .register n ∨ target = .memory n) → exec (.debugAccess kind target value) s = .next s) ∧
      (state = 1 → kind = .write → exec (.debugAccess kind target value) s = .next s)) ∧
    (state = 1 → ∀ n, n ≠ 0 → (∀ v, v < 16 → let w := tget s.hostLink.vfmap v 0
        ¬(w.getLsbD 63 = true ∧ w.getLsbD 62 = true ∧ (w.extractLsb' 16 3).toNat = n)) →
      ∀ kind value, exec (.debugAccess kind (.partition n) value) s = .next s) ∧
    (state = 1 → ∀ n, n ≠ 0 → (∃ v, v < 16 ∧ let w := tget s.hostLink.vfmap v 0
        w.getLsbD 63 = true ∧ w.getLsbD 62 = true ∧ (w.extractLsb' 16 3).toNat = n) → ∀ value,
      tells (.debugAccess .inspect (.partition n) value) (.mailbox (pstateWord s n)) ∧
      (∀ va, let r := vaRead s n va 8
        exec (.debugAccess .inspect (.partitionMemory n va) value) s = .next { r.1 with
          notices := r.1.notices ++ [.mailbox (r.2.getD 0)] }) ∧
      exec (.debugAccess .halt (.partition n) value) s = .next { s with bexile := { s.bexile with
        halted := s.bexile.halted.filter (· != n) ++ if value = 0 then [] else [n] } }) ∧
    (state = 2 → ∀ n value, exec (.debugAccess .halt (.partition n) value) s = .next { s with bexile := { s.bexile with
        halted := s.bexile.halted.filter (· != n) ++ if value = 0 then [] else [n] } } ∧
      exec (.debugAccess .trace (.partition n) value) s = .next { s with bexile := { s.bexile with
        traced := s.bexile.traced.filter (· != n) ++ if value = 0 then [] else [n] } } ∧
      (∀ f t, tfind s.teams f = some t → ∀ r l,
        let reads := fun (part : TeamPart) (x : Nat) => tells (.debugAccess .inspect (.teamReg f part r l) value) (.mailbox x)
        reads .v (readV t r l).toNat ∧ reads .k (readK t r).toNat ∧ reads .p (readP t r l).toNat ∧ reads .t (tget t.t r 0).toNat ∧
        reads .pc t.pc ∧ reads .flags t.flags.toNat ∧ reads .mask t.mask.toNat ∧ reads .exited t.exited.toNat ∧
        (∀ e, t.stack[r]? = some e → reads .stackMask e.mask.toNat ∧ reads .stackAddr e.addr) ∧
        exec (.debugAccess .write (.teamReg f .mask r l) value) s =
          .next (s.setTeam f { t with mask := BitVec.ofNat 1024 value }) ∧
        exec (.debugAccess .write (.teamReg f .pc r l) value) s = .next (s.setTeam f { t with pc := value })) ∧
      (∀ c, tells (.debugAccess .inspect (.scratchpad c n) value) (.mailbox (bytesGet (s.cluster c).sp n 8)) ∧
        tells (.debugAccess .inspect (.accumulator c n) value) (.mailbox (tget (s.cluster c).acc n 0).toNat)) ∧
      tells (.debugAccess .inspect (.register n) value) (.mailbox (supRead s n)) ∧
      tells (.debugAccess .inspect (.memory n) value) (.mailbox (bytesGet s.mem n 8)) ∧
      (∃ s', exec (.debugAccess .write (.memory n) value) s = .next s' ∧ bytesGet s'.mem n 8 = value % 2 ^ 64 ∧ kept s' n 8 ∧
        { s' with mem := s.mem } = s) ∧
      exec (.debugAccess .write (.register n) value) s = .next (supWrite s 0 {} n (BitVec.ofNat 64 value)).1)

/-- R415, R416 and R421: the power controller. A newly active cluster goes one notch up when the slew limit allows the rise and no
wave of the hoist order is to leave, which would have the limit to itself. Every 10 µs the package goes one notch down while its
estimate is above the governing cap, and one up while it is below, within the slew limit for the clusters that hold blocks;
without a cap it goes up. Nothing else of the machine changes. That a notch up of the package is charged as one of every cluster
that holds a block is log 83 (DEDUCED). -/
def Obligations.PowerController : Prop :=
  ∀ (s : State) (k : Nat),
    let p := s.power
    let supervisor := if p.scap = 0 then 0 else max p.scap 600
    let cap := if p.mcap = 0 then supervisor else if supervisor = 0 then p.mcap else min p.mcap supervisor
    let cycles := (8000 + 3 * p.slew - 1) / (3 * p.slew)
    let est := Config.powerEstimate s.freeCtr
    let active := (s.blocks.map fun e => e.2.cluster).eraseDups.length
    let c := s.cluster k
    let waves := (∃ l ∈ s.launches, l.release ≠ none) ∨ ∃ e ∈ s.colls, e.2.leaveAt ≠ none
    let steps := fun (q : Power) => exec .capStep s = .next { s with
      freeCtr := s.freeCtr + 1
      power := { q with lastCap := s.cycle, capd := decide (cap ≠ 0 ∧ q.notch ≠ 0) } }
    let down := cap ≠ 0 ∧ cap < est
    let up := p.notch ≠ 0 ∧ (cap = 0 ∨ est < cap) ∧ p.lastStep + cycles * max 1 active ≤ s.cycle ∧ ¬waves
    (c.ctlNotch = 0 ∨ s.cycle < p.lastStep + cycles ∨ waves → exec (.slewNotchStep k) s = .next s) ∧
    (c.ctlNotch ≠ 0 → p.lastStep + cycles ≤ s.cycle → ¬waves → exec (.slewNotchStep k) s =
      .next { s.setCluster k { c with ctlNotch := c.ctlNotch - 1 } with power := { p with lastStep := s.cycle } }) ∧
    (s.cycle < p.lastCap + 8000 → exec .capStep s = .next s) ∧
    (p.lastCap + 8000 ≤ s.cycle → down → steps { p with notch := min 5 (p.notch + 1) }) ∧
    (p.lastCap + 8000 ≤ s.cycle → ¬down → up → steps { p with notch := p.notch - 1, lastStep := s.cycle }) ∧
    (p.lastCap + 8000 ≤ s.cycle → ¬down → ¬up → steps p)

/-- R33, R141, R153, R176, R319, R320, R323, R382 and R384 to R386: what happens between words. A core's arbiter grants the
first ready team after the last one granted, those that no yield holds back before the others. A team at a marker, or on its way
to its handler, goes on once its results are in. A walk that has a walker, and no page of whose tables is under retirement, gives one outcome to every team that waits on it; one
that fails walks again first. A line of .gl or .vt data ages out after 4096 cycles. A scrub meets an error block's error as
a read does. A retirement enters a spare in the remap, or reports that its pool is empty; no byte changes but the entries'. That
the arbiter grants among all where every ready team is held back is log 48 (DESIGN CHOICE), the address of a walk that fails
log 76 (DEDUCED), the owner byte 0xFF of a retired page log 57 (DEDUCED), and that errc's trans and last stay at their largest value
log 87 (DESIGN CHOICE). -/
def Obligations.BetweenWords : Prop :=
  ∀ (s : State),
    (∀ core, let ready := fun f => ∃ t, (f, t) ∈ s.teams ∧ f / 8 = core ∧ teamReady s f t = true
      let free := fun f => ∀ t, tfind s.teams f = some t → ∀ g ∈ t.yielded, ¬ready g
      let may := fun f => ready f ∧ (free f ∨ ∀ g, ready g → ¬free g)
      let slot := fun i => 8 * core + ((s.core core).lastTeam + 1 + i) % 8
      ((∀ f, ¬ready f) → exec (.datapathGrant core) s = .next s) ∧
      ∀ i, i < 8 → may (slot i) → (∀ j, j < i → ¬may (slot j)) →
        ∃ s', exec (.datapathGrant core) s = .next s' ∧ s'.turn = .issue (slot i) ∧ (s'.core core).lastTeam = slot i % 8 ∧
          s'.grantFloor = core + 1 ∧
          { s' with turn := s.turn, cores := s.cores, teams := s.teams, grantFloor := s.grantFloor } = s ∧ (∀ c, c ≠ core → s'.core c = s.core c) ∧
          ∀ f t, tfind s.teams f = some t → tfind s'.teams f = some (if f / 8 = core then
            { t with yielded := t.yielded.filter (· != slot i) } else t)) ∧
    (∀ f t, tfind s.teams f = some t →
      ((∃ p ∈ t.pend, p.lat = .variable) ∨ t.halted = true → exec (.segmentResume f) s = .next s) ∧
      ((∀ p ∈ t.pend, p.lat ≠ .variable) → t.halted = false → match t.wait with
        | .marker => exec (.segmentResume f) s = .next ((commitFixed s f).modTeam f fun u => { u with wait := .ready })
        | .trap i => exec (.segmentResume f) s = .next (enterHandler (s.setTeam f { t with wait := .ready }) f i)
        | _ => exec (.segmentResume f) s = .next s)) ∧
    (NoErrors s → ∀ key w, tfind s.walks key = some w →
      let before := (s.walks.filter fun e => e.2.die == w.die && decide (e.1 < key)).length
      let out := (walkNow s w.partition (w.page * 2 ^ 16)).2
      (16 ≤ before → exec (.pageWalkComplete key) s = .next s) ∧
      (before < 16 → s.retiring = [] → out = none → w.attempts = 0 →
        exec (.pageWalkComplete key) s = .next { s with walks := tput s.walks key { w with attempts := 1 } }) ∧
      (before < 16 → s.retiring = [] → out ≠ none ∨ w.attempts ≠ 0 → w.teams = [] →
        let x : XlatResult := match out with
          | some (leaf, bits) => ⟨w.page, some leaf, bits, 0, w.va⟩
          | none => ⟨w.page, none, 16, 4, w.va⟩
        (∀ c op y, w.others = [.op c op] → tfind (s.cluster c).ops op = some y → ∃ s', exec (.pageWalkComplete key) s = .next s' ∧
          s'.walks = tdel s.walks key ∧ tfind (s'.cluster c).ops op = some { y with xlat := y.xlat ++ [x] }) ∧
        ∀ f n t y, w.others = [.slot f n] → tfind s.teams f = some t → tfind t.slots n = some y → y.state = .pending →
          ∃ s' t', exec (.pageWalkComplete key) s = .next s' ∧ s'.walks = tdel s.walks key ∧ tfind s'.teams f = some t' ∧
            { t' with slots := t.slots } = t ∧ tfind t'.slots n = some { y with xlat := y.xlat ++ [x] }) ∧
      (before < 16 → s.retiring = [] → out ≠ none ∨ w.attempts ≠ 0 → w.teams.Nodup → w.others = [] → ∃ s', exec (.pageWalkComplete key) s = .next s' ∧
        s'.walks = tdel s.walks key ∧ DataKept s s' ∧ s'.cores = s.cores ∧ (out = none ∨ w.attempts = 0 → s'.errs = s.errs) ∧
        (∀ f ∈ w.teams, ∀ t, tfind s.teams f = some t → tfind s'.teams f = some { t with
          xlat := t.xlat ++ [match out with
            | some (leaf, bits) => ⟨w.page, some leaf, bits, 0, w.va⟩
            | none => ⟨w.page, none, 16, 4, w.va⟩]
          wait := if t.wait == .walk && !(tdel s.walks key).any fun e => e.2.teams.contains f then .ready else t.wait }) ∧
        ∀ f, f ∉ w.teams → tfind s'.teams f = tfind s.teams f)) ∧
    (∀ k line, ∃ s', exec (.l1LineAgeOut k line) s = .next s' ∧ (∀ j, j ≠ k → s'.cluster j = s.cluster j) ∧
      { s' with clusters := s.clusters } = s ∧ { s'.cluster k with l1 := (s.cluster k).l1 } = s.cluster k ∧
      ∀ x, x ∈ (s'.cluster k).l1 ↔ x ∈ (s.cluster k).l1 ∧
        ¬(x.line = line ∧ x.cn = false ∧ x.kept = false ∧ x.filled + 4096 ≤ s.cycle)) ∧
    (∀ b, let pa := b * 32
      let count := fun (u : State) (g : ErrCount → ErrCount) =>
        { u with errs := tset u.errs (homeDie pa) (g (tget u.errs (homeDie pa) {})) {} }
      let met := { s with latent := tdel s.latent b }
      pa < 0x180000000 →
      (b ∈ s.lost ∨ tfind s.latent b = none → exec (.memoryScrub b) s = .next s) ∧
      (b ∉ s.lost →
        (tfind s.latent b = some .single →
          exec (.memoryScrub b) s = .next (count met fun e => { e with corr := min (e.corr + 1) (2 ^ 24 - 1) })) ∧
        (tfind s.latent b = some .transient →
          exec (.memoryScrub b) s = .next (count met fun e => { e with trans := min (e.trans + 1) (2 ^ 20 - 1) })) ∧
        (tfind s.latent b = some .lasting → (∀ r ∈ s.retiring, r.frame ≠ b / 2048) →
          exec (.memoryScrub b) s = .next { count met fun e => { e with last := min (e.last + 1) (2 ^ 20 - 1) } with
            lost := s.lost ++ [b], retiring := s.retiring ++ [⟨b / 2048, 0xFF, 0, b⟩] }))) ∧
    ∀ r, r ∈ s.retiring → (∀ x ∈ s.retiring, x.frame = r.frame → x = r) → (∀ n, n < 8 → (s.partition n).resetting = false) →
      let pool := poolOf (r.frame * 65536)
      let taken := tget s.pools pool 0
      let s1 := { s with retiring := s.retiring.filter fun x => x.frame != r.frame }
      (poolSize pool ≤ taken → ∃ e, exec (.pageRetirementComplete r.frame) s = .next (logBy storeAt s1 0 e) ∧ e % 256 = 4) ∧
      (taken < poolSize pool → ∃ e owner,
        let s2 := { s1 with pools := tput s1.pools pool (taken + 1), remap := tput s1.remap r.frame taken }
        exec (.pageRetirementComplete r.frame) s = .next (logBy storeAt
          (if owner = 0 ∨ 7 < owner then s2 else logBy storeAt s2 owner e) 0 e) ∧
          e % 256 = 3 ∧ (owner = r.owner ∨ owner = 0xFF))
end

