-- ==== Sys2Proof/Laws/Tab.lean ====
section
/-! SUPPORT. What the operations on sparse arrays do: reads after writes, and the canonical form that every operation
keeps. -/

namespace Sys2Proof.Machine

variable {α : Type}

-- ===== reads after writes =====

@[simp] theorem tfind_tput_self (t : Tab α) (k : Nat) (x : α) : tfind (tput t k x) k = some x := by
  induction t with
  | nil => simp [tput, tfind]
  | cons e r ih =>
    obtain ⟨i, y⟩ := e
    by_cases h : i < k
    · simp [tput, h, tfind, show i ≠ k by omega, ih]
    · by_cases h2 : i = k <;> simp [tput, h, h2, tfind]

@[simp] theorem tfind_tput_ne (t : Tab α) {k j : Nat} (x : α) (h : j ≠ k) : tfind (tput t k x) j = tfind t j := by
  induction t with
  | nil => simp [tput, tfind, Ne.symm h]
  | cons e r ih =>
    obtain ⟨i, y⟩ := e
    by_cases h1 : i < k
    · simp [tput, h1, tfind, ih]
    · by_cases h2 : i = k
      · subst h2; simp [tput, tfind, Ne.symm h]
      · simp [tput, h1, h2, tfind, Ne.symm h]

theorem tget_eq_tfind (t : Tab α) (k : Nat) (d : α) : tget t k d = (tfind t k).getD d := by
  induction t with
  | nil => rfl
  | cons e r ih =>
    obtain ⟨i, y⟩ := e
    by_cases h : i = k <;> simp [tget, tfind, h, ih]

@[simp] theorem tget_tput_self (t : Tab α) (k : Nat) (x d : α) : tget (tput t k x) k d = x := by
  simp [tget_eq_tfind]

@[simp] theorem tget_tput_ne (t : Tab α) {k j : Nat} (x d : α) (h : j ≠ k) : tget (tput t k x) j d = tget t j d := by
  simp [tget_eq_tfind, h]

@[simp] theorem tfind_tdel_self (t : Tab α) (k : Nat) : tfind (tdel t k) k = none := by
  induction t with
  | nil => rfl
  | cons e r ih =>
    obtain ⟨i, y⟩ := e
    by_cases h : i = k <;> simp [tdel, tfind, h, ih]

@[simp] theorem tfind_tdel_ne (t : Tab α) {k j : Nat} (h : j ≠ k) : tfind (tdel t k) j = tfind t j := by
  induction t with
  | nil => rfl
  | cons e r ih =>
    obtain ⟨i, y⟩ := e
    by_cases h1 : i = k
    · subst h1; simp [tdel, tfind, Ne.symm h, ih]
    · simp [tdel, tfind, h1, ih]

@[simp] theorem tget_tset_self [DecidableEq α] (t : Tab α) (k : Nat) (x d : α) : tget (tset t k x d) k d = x := by
  by_cases h : x = d <;> simp [tset, h, tget_eq_tfind]

@[simp] theorem tget_tset_ne [DecidableEq α] (t : Tab α) {k j : Nat} (x d e : α) (h : j ≠ k) :
    tget (tset t k x d) j e = tget t j e := by
  by_cases h1 : x = d <;> simp [tset, h1, tget_eq_tfind, h]

@[simp] theorem tfind_tmod_self (t : Tab α) (k : Nat) (f : α → α) : tfind (tmod t k f) k = (tfind t k).map f := by
  unfold tmod
  split <;> simp [*]

@[simp] theorem tfind_tmod_ne (t : Tab α) {k j : Nat} (f : α → α) (h : j ≠ k) : tfind (tmod t k f) j = tfind t j := by
  unfold tmod
  split <;> simp [h]

/-- A key that is listed is changed by listing its new value. -/
theorem tmod_eq (t : Tab α) {k : Nat} {x : α} (f : α → α) (h : tfind t k = some x) : tmod t k f = tput t k (f x) := by
  simp [tmod, h]

/-- The later of two entries at a key stands. -/
@[simp] theorem tget_teach [DecidableEq α] (t : Tab α) (k : Nat) (f : α → α) (d : α) (h : f d = d) :
    tget (teach t f d) k d = f (tget t k d) := by
  induction t with
  | nil => simp [teach, tget, h]
  | cons e r ih =>
    obtain ⟨i, x⟩ := e
    by_cases hk : i = k
    · subst hk
      by_cases hx : f x = d <;> simp [teach, tget, hx, tget_eq_tfind (tdel _ _)]
    · by_cases hx : f x = d
      · simp [teach, tget, hx, hk, tget_eq_tfind (tdel _ _), Ne.symm hk, ← ih, ← tget_eq_tfind]
      · simp [teach, tget, hx, hk, ih]

@[simp] theorem tput_tput (t : Tab α) (k : Nat) (x y : α) : tput (tput t k x) k y = tput t k y := by
  induction t with
  | nil => simp [tput]
  | cons e r ih =>
    obtain ⟨i, z⟩ := e
    by_cases h : i < k
    · simp [tput, h, ih]
    · by_cases h2 : i = k <;> simp [tput, h, h2]

-- ===== the canonical form =====

/-- Keys rise strictly, as a pairwise relation. -/
theorem tsorted_iff (t : Tab α) : tsorted t = true ↔ t.Pairwise (fun a b => a.1 < b.1) := by
  induction t with
  | nil => simp [tsorted]
  | cons e r ih =>
    cases r with
    | nil => simp [tsorted]
    | cons e2 r2 =>
      obtain ⟨i, x⟩ := e
      obtain ⟨j, y⟩ := e2
      simp only [tsorted, Bool.and_eq_true, decide_eq_true_eq, ih, List.pairwise_cons]
      constructor
      · rintro ⟨h, h1, h2⟩
        refine ⟨fun a ha => ?_, h1, h2⟩
        rcases List.mem_cons.1 ha with rfl | ha
        · exact h
        · exact lt_trans h (h1 a ha)
      · rintro ⟨h, h1, h2⟩
        exact ⟨h (j, y) (List.mem_cons_self ..), h1, h2⟩

/-- The canonical form: keys rise and no entry holds the default. -/
theorem Tab.wf_iff [DecidableEq α] (t : Tab α) (d : α) :
    Tab.wf t d = true ↔ t.Pairwise (fun a b => a.1 < b.1) ∧ ∀ e ∈ t, e.2 ≠ d := by
  simp [Tab.wf, tsorted_iff]

@[simp] theorem Tab.wf_nil [DecidableEq α] (d : α) : Tab.wf ([] : Tab α) d = true := rfl

theorem mem_tput {t : Tab α} {k : Nat} {x : α} {e : Nat × α} (h : e ∈ tput t k x) : e = (k, x) ∨ e ∈ t := by
  induction t with
  | nil => exact Or.inl (by simpa [tput] using h)
  | cons a r ih =>
    obtain ⟨i, y⟩ := a
    by_cases h1 : i < k
    · simp only [tput, h1, if_true, List.mem_cons] at h ⊢
      rcases h with h | h
      · exact Or.inr (Or.inl h)
      · exact (ih h).imp id Or.inr
    · by_cases h2 : i = k
      · subst h2
        simp only [tput, h1, if_false, if_true, List.mem_cons] at h ⊢
        tauto
      · simp only [tput, h1, h2, if_false, List.mem_cons] at h ⊢
        tauto

theorem mem_tdel {t : Tab α} {k : Nat} {e : Nat × α} (h : e ∈ tdel t k) : e ∈ t ∧ e.1 ≠ k := by
  induction t with
  | nil => simp [tdel] at h
  | cons a r ih =>
    obtain ⟨i, y⟩ := a
    by_cases h1 : i = k
    · simp only [tdel, h1, if_true] at h
      exact ⟨List.mem_cons_of_mem _ (ih h).1, (ih h).2⟩
    · simp only [tdel, h1, if_false, List.mem_cons] at h
      rcases h with rfl | h
      · exact ⟨List.mem_cons_self .., h1⟩
      · exact ⟨List.mem_cons_of_mem _ (ih h).1, (ih h).2⟩

theorem sorted_tput {t : Tab α} (k : Nat) (x : α) (h : t.Pairwise (fun a b => a.1 < b.1)) :
    (tput t k x).Pairwise (fun a b => a.1 < b.1) := by
  induction t with
  | nil => simp [tput]
  | cons a r ih =>
    obtain ⟨i, y⟩ := a
    obtain ⟨h1, h2⟩ := List.pairwise_cons.1 h
    by_cases h3 : i < k
    · simp only [tput, h3, if_true, List.pairwise_cons]
      refine ⟨fun e he => ?_, ih h2⟩
      rcases mem_tput he with rfl | he
      · exact h3
      · exact h1 e he
    · by_cases h4 : i = k
      · subst h4
        simp only [tput, h3, if_false, if_true, List.pairwise_cons]
        exact ⟨h1, h2⟩
      · simp only [tput, h3, h4, if_false, List.pairwise_cons]
        refine ⟨fun e he => ?_, h1, h2⟩
        rcases List.mem_cons.1 he with rfl | he
        · show k < i; omega
        · have := h1 e he; show k < e.1; simp only at this; omega

theorem sorted_tdel {t : Tab α} (k : Nat) (h : t.Pairwise (fun a b => a.1 < b.1)) :
    (tdel t k).Pairwise (fun a b => a.1 < b.1) := by
  induction t with
  | nil => simp [tdel]
  | cons a r ih =>
    obtain ⟨i, y⟩ := a
    obtain ⟨h1, h2⟩ := List.pairwise_cons.1 h
    by_cases h3 : i = k
    · simp only [tdel, h3, if_true]; exact ih h2
    · simp only [tdel, h3, if_false, List.pairwise_cons]
      exact ⟨fun e he => h1 e (mem_tdel he).1, ih h2⟩

/-- A write keeps the canonical form. -/
theorem Tab.wf_tset [DecidableEq α] {t : Tab α} {d : α} (k : Nat) (x : α) (h : Tab.wf t d = true) :
    Tab.wf (tset t k x d) d = true := by
  rw [Tab.wf_iff] at h ⊢
  obtain ⟨hs, hd⟩ := h
  by_cases h1 : x = d
  · simp only [tset, h1, if_true]
    exact ⟨sorted_tdel k hs, fun e he => hd e (mem_tdel he).1⟩
  · simp only [tset, h1, if_false]
    refine ⟨sorted_tput k x hs, fun e he => ?_⟩
    rcases mem_tput he with rfl | he
    · exact h1
    · exact hd e he

/-- Entries taken away keep the canonical form. -/
theorem Tab.wf_filter [DecidableEq α] {t : Tab α} {d : α} (f : Nat × α → Bool) (h : Tab.wf t d = true) :
    Tab.wf (t.filter f) d = true := by
  rw [Tab.wf_iff] at h ⊢
  exact ⟨h.1.filter f, fun e he => h.2 e (List.mem_filter.1 he).1⟩

/-- Bytes stored keep the canonical form. -/
theorem Tab.wf_bytesSet {t : Tab Byte} (a x n : Nat) (h : Tab.wf t 0 = true) : Tab.wf (bytesSet t a x n) 0 = true := by
  induction n generalizing a x with
  | zero => exact h
  | succ n ih => exact Tab.wf_tset _ _ (ih _ _)

-- ===== bytes =====

/-- A byte outside the bytes stored is unchanged. -/
theorem tget_bytesSet_ne (t : Tab Byte) (a x n b : Nat) (h : b < a ∨ a + n ≤ b) : tget (bytesSet t a x n) b 0 = tget t b 0 := by
  induction n generalizing a x with
  | zero => rfl
  | succ n ih =>
    rw [bytesSet, tget_tset_ne _ _ _ _ (by omega)]
    exact ih _ _ (by omega)

/-- What bytes read depends on those bytes alone. -/
theorem bytesGet_congr {t u : Tab Byte} (a n : Nat) (h : ∀ b, a ≤ b → b < a + n → tget t b 0 = tget u b 0) :
    bytesGet t a n = bytesGet u a n := by
  induction n generalizing a with
  | zero => rfl
  | succ n ih =>
    rw [bytesGet, bytesGet, h a (by omega) (by omega), ih _ fun b h1 h2 => h b (by omega) (by omega)]

/-- Bytes read after they are stored give the number stored, modulo their width (R10). -/
theorem bytesGet_bytesSet (t : Tab Byte) (a x n : Nat) : bytesGet (bytesSet t a x n) a n = x % 256 ^ n := by
  induction n generalizing a x with
  | zero => simp [bytesGet, Nat.mod_one]
  | succ n ih =>
    have h : bytesGet (bytesSet t a x (n + 1)) (a + 1) n = bytesGet (bytesSet t (a + 1) (x / 256) n) (a + 1) n :=
      bytesGet_congr _ _ fun b h1 _ => tget_tset_ne _ _ _ _ (by omega)
    rw [bytesGet, h, ih, bytesSet, tget_tset_self, BitVec.toNat_ofNat, show (2 : Nat) ^ 8 = 256 from rfl, pow_succ', Nat.mod_mul]

end Sys2Proof.Machine
end

