-- ==== Sys2Proof/Laws/State.lean ====
section
/-! SUPPORT. The fields of State after each of its updates. -/

set_option Elab.async false

namespace Sys2Proof.Machine

@[simp] theorem State.setTeam_turn (s : State) (f : Nat) (t : Team) : (s.setTeam f t).turn = s.turn := rfl

@[simp] theorem State.setTeam_inputs (s : State) (f : Nat) (t : Team) : (s.setTeam f t).inputs = s.inputs := rfl

@[simp] theorem State.setTeam_choiceCtr (s : State) (f : Nat) (t : Team) : (s.setTeam f t).choiceCtr = s.choiceCtr := rfl

@[simp] theorem State.setTeam_freeCtr (s : State) (f : Nat) (t : Team) : (s.setTeam f t).freeCtr = s.freeCtr := rfl

@[simp] theorem State.setTeam_cur (s : State) (f : Nat) (t : Team) : (s.setTeam f t).cur = s.cur := rfl

@[simp] theorem State.setTeam_cycle (s : State) (f : Nat) (t : Team) : (s.setTeam f t).cycle = s.cycle := rfl

@[simp] theorem State.setTeam_grantFloor (s : State) (f : Nat) (t : Team) : (s.setTeam f t).grantFloor = s.grantFloor := rfl

@[simp] theorem State.setTeam_seq (s : State) (f : Nat) (t : Team) : (s.setTeam f t).seq = s.seq := rfl

@[simp] theorem State.setTeam_uid (s : State) (f : Nat) (t : Team) : (s.setTeam f t).uid = s.uid := rfl

@[simp] theorem State.setTeam_mem (s : State) (f : Nat) (t : Team) : (s.setTeam f t).mem = s.mem := rfl

@[simp] theorem State.setTeam_latent (s : State) (f : Nat) (t : Team) : (s.setTeam f t).latent = s.latent := rfl

@[simp] theorem State.setTeam_lost (s : State) (f : Nat) (t : Team) : (s.setTeam f t).lost = s.lost := rfl

@[simp] theorem State.setTeam_retiring (s : State) (f : Nat) (t : Team) : (s.setTeam f t).retiring = s.retiring := rfl

@[simp] theorem State.setTeam_remap (s : State) (f : Nat) (t : Team) : (s.setTeam f t).remap = s.remap := rfl

@[simp] theorem State.setTeam_pools (s : State) (f : Nat) (t : Team) : (s.setTeam f t).pools = s.pools := rfl

@[simp] theorem State.setTeam_errs (s : State) (f : Nat) (t : Team) : (s.setTeam f t).errs = s.errs := rfl

@[simp] theorem State.setTeam_llc (s : State) (f : Nat) (t : Team) : (s.setTeam f t).llc = s.llc := rfl

@[simp] theorem State.setTeam_walks (s : State) (f : Nat) (t : Team) : (s.setTeam f t).walks = s.walks := rfl

@[simp] theorem State.setTeam_accs (s : State) (f : Nat) (t : Team) : (s.setTeam f t).accs = s.accs := rfl

@[simp] theorem State.setTeam_teams (s : State) (f : Nat) (t : Team) : (s.setTeam f t).teams = tput s.teams f t := rfl

@[simp] theorem State.setTeam_blocks (s : State) (f : Nat) (t : Team) : (s.setTeam f t).blocks = s.blocks := rfl

@[simp] theorem State.setTeam_cores (s : State) (f : Nat) (t : Team) : (s.setTeam f t).cores = s.cores := rfl

@[simp] theorem State.setTeam_clusters (s : State) (f : Nat) (t : Team) : (s.setTeam f t).clusters = s.clusters := rfl

@[simp] theorem State.setTeam_launches (s : State) (f : Nat) (t : Team) : (s.setTeam f t).launches = s.launches := rfl

@[simp] theorem State.setTeam_queues (s : State) (f : Nat) (t : Team) : (s.setTeam f t).queues = s.queues := rfl

@[simp] theorem State.setTeam_partitions (s : State) (f : Nat) (t : Team) : (s.setTeam f t).partitions = s.partitions := rfl

@[simp] theorem State.setTeam_shrWcnt (s : State) (f : Nat) (t : Team) : (s.setTeam f t).shrWcnt = s.shrWcnt := rfl

@[simp] theorem State.setTeam_shrWbase (s : State) (f : Nat) (t : Team) : (s.setTeam f t).shrWbase = s.shrWbase := rfl

@[simp] theorem State.setTeam_wdrec (s : State) (f : Nat) (t : Team) : (s.setTeam f t).wdrec = s.wdrec := rfl

@[simp] theorem State.setTeam_pctls (s : State) (f : Nat) (t : Team) : (s.setTeam f t).pctls = s.pctls := rfl

@[simp] theorem State.setTeam_notices (s : State) (f : Nat) (t : Team) : (s.setTeam f t).notices = s.notices := rfl

@[simp] theorem State.setTeam_hostLink (s : State) (f : Nat) (t : Team) : (s.setTeam f t).hostLink = s.hostLink := rfl

@[simp] theorem State.setTeam_power (s : State) (f : Nat) (t : Team) : (s.setTeam f t).power = s.power := rfl

@[simp] theorem State.setTeam_bexile (s : State) (f : Nat) (t : Team) : (s.setTeam f t).bexile = s.bexile := rfl

@[simp] theorem State.setTeam_fabric (s : State) (f : Nat) (t : Team) : (s.setTeam f t).fabric = s.fabric := rfl

@[simp] theorem State.setTeam_colls (s : State) (f : Nat) (t : Team) : (s.setTeam f t).colls = s.colls := rfl

@[simp] theorem State.setTeam_seals (s : State) (f : Nat) (t : Team) : (s.setTeam f t).seals = s.seals := rfl

@[simp] theorem State.setBlock_turn (s : State) (b : Nat) (x : Block) : (s.setBlock b x).turn = s.turn := rfl

@[simp] theorem State.setBlock_inputs (s : State) (b : Nat) (x : Block) : (s.setBlock b x).inputs = s.inputs := rfl

@[simp] theorem State.setBlock_choiceCtr (s : State) (b : Nat) (x : Block) : (s.setBlock b x).choiceCtr = s.choiceCtr := rfl

@[simp] theorem State.setBlock_freeCtr (s : State) (b : Nat) (x : Block) : (s.setBlock b x).freeCtr = s.freeCtr := rfl

@[simp] theorem State.setBlock_cur (s : State) (b : Nat) (x : Block) : (s.setBlock b x).cur = s.cur := rfl

@[simp] theorem State.setBlock_cycle (s : State) (b : Nat) (x : Block) : (s.setBlock b x).cycle = s.cycle := rfl

@[simp] theorem State.setBlock_grantFloor (s : State) (b : Nat) (x : Block) : (s.setBlock b x).grantFloor = s.grantFloor := rfl

@[simp] theorem State.setBlock_seq (s : State) (b : Nat) (x : Block) : (s.setBlock b x).seq = s.seq := rfl

@[simp] theorem State.setBlock_uid (s : State) (b : Nat) (x : Block) : (s.setBlock b x).uid = s.uid := rfl

@[simp] theorem State.setBlock_mem (s : State) (b : Nat) (x : Block) : (s.setBlock b x).mem = s.mem := rfl

@[simp] theorem State.setBlock_latent (s : State) (b : Nat) (x : Block) : (s.setBlock b x).latent = s.latent := rfl

@[simp] theorem State.setBlock_lost (s : State) (b : Nat) (x : Block) : (s.setBlock b x).lost = s.lost := rfl

@[simp] theorem State.setBlock_retiring (s : State) (b : Nat) (x : Block) : (s.setBlock b x).retiring = s.retiring := rfl

@[simp] theorem State.setBlock_remap (s : State) (b : Nat) (x : Block) : (s.setBlock b x).remap = s.remap := rfl

@[simp] theorem State.setBlock_pools (s : State) (b : Nat) (x : Block) : (s.setBlock b x).pools = s.pools := rfl

@[simp] theorem State.setBlock_errs (s : State) (b : Nat) (x : Block) : (s.setBlock b x).errs = s.errs := rfl

@[simp] theorem State.setBlock_llc (s : State) (b : Nat) (x : Block) : (s.setBlock b x).llc = s.llc := rfl

@[simp] theorem State.setBlock_walks (s : State) (b : Nat) (x : Block) : (s.setBlock b x).walks = s.walks := rfl

@[simp] theorem State.setBlock_accs (s : State) (b : Nat) (x : Block) : (s.setBlock b x).accs = s.accs := rfl

@[simp] theorem State.setBlock_teams (s : State) (b : Nat) (x : Block) : (s.setBlock b x).teams = s.teams := rfl

@[simp] theorem State.setBlock_blocks (s : State) (b : Nat) (x : Block) : (s.setBlock b x).blocks = tput s.blocks b x := rfl

@[simp] theorem State.setBlock_cores (s : State) (b : Nat) (x : Block) : (s.setBlock b x).cores = s.cores := rfl

@[simp] theorem State.setBlock_clusters (s : State) (b : Nat) (x : Block) : (s.setBlock b x).clusters = s.clusters := rfl

@[simp] theorem State.setBlock_launches (s : State) (b : Nat) (x : Block) : (s.setBlock b x).launches = s.launches := rfl

@[simp] theorem State.setBlock_queues (s : State) (b : Nat) (x : Block) : (s.setBlock b x).queues = s.queues := rfl

@[simp] theorem State.setBlock_partitions (s : State) (b : Nat) (x : Block) : (s.setBlock b x).partitions = s.partitions := rfl

@[simp] theorem State.setBlock_shrWcnt (s : State) (b : Nat) (x : Block) : (s.setBlock b x).shrWcnt = s.shrWcnt := rfl

@[simp] theorem State.setBlock_shrWbase (s : State) (b : Nat) (x : Block) : (s.setBlock b x).shrWbase = s.shrWbase := rfl

@[simp] theorem State.setBlock_wdrec (s : State) (b : Nat) (x : Block) : (s.setBlock b x).wdrec = s.wdrec := rfl

@[simp] theorem State.setBlock_pctls (s : State) (b : Nat) (x : Block) : (s.setBlock b x).pctls = s.pctls := rfl

@[simp] theorem State.setBlock_notices (s : State) (b : Nat) (x : Block) : (s.setBlock b x).notices = s.notices := rfl

@[simp] theorem State.setBlock_hostLink (s : State) (b : Nat) (x : Block) : (s.setBlock b x).hostLink = s.hostLink := rfl

@[simp] theorem State.setBlock_power (s : State) (b : Nat) (x : Block) : (s.setBlock b x).power = s.power := rfl

@[simp] theorem State.setBlock_bexile (s : State) (b : Nat) (x : Block) : (s.setBlock b x).bexile = s.bexile := rfl

@[simp] theorem State.setBlock_fabric (s : State) (b : Nat) (x : Block) : (s.setBlock b x).fabric = s.fabric := rfl

@[simp] theorem State.setBlock_colls (s : State) (b : Nat) (x : Block) : (s.setBlock b x).colls = s.colls := rfl

@[simp] theorem State.setBlock_seals (s : State) (b : Nat) (x : Block) : (s.setBlock b x).seals = s.seals := rfl

@[simp] theorem State.setCluster_turn (s : State) (k : Nat) (c : Cluster) : (s.setCluster k c).turn = s.turn := rfl

@[simp] theorem State.setCluster_inputs (s : State) (k : Nat) (c : Cluster) : (s.setCluster k c).inputs = s.inputs := rfl

@[simp] theorem State.setCluster_choiceCtr (s : State) (k : Nat) (c : Cluster) : (s.setCluster k c).choiceCtr = s.choiceCtr := rfl

@[simp] theorem State.setCluster_freeCtr (s : State) (k : Nat) (c : Cluster) : (s.setCluster k c).freeCtr = s.freeCtr := rfl

@[simp] theorem State.setCluster_cur (s : State) (k : Nat) (c : Cluster) : (s.setCluster k c).cur = s.cur := rfl

@[simp] theorem State.setCluster_cycle (s : State) (k : Nat) (c : Cluster) : (s.setCluster k c).cycle = s.cycle := rfl

@[simp] theorem State.setCluster_grantFloor (s : State) (k : Nat) (c : Cluster) : (s.setCluster k c).grantFloor = s.grantFloor := rfl

@[simp] theorem State.setCluster_seq (s : State) (k : Nat) (c : Cluster) : (s.setCluster k c).seq = s.seq := rfl

@[simp] theorem State.setCluster_uid (s : State) (k : Nat) (c : Cluster) : (s.setCluster k c).uid = s.uid := rfl

@[simp] theorem State.setCluster_mem (s : State) (k : Nat) (c : Cluster) : (s.setCluster k c).mem = s.mem := rfl

@[simp] theorem State.setCluster_latent (s : State) (k : Nat) (c : Cluster) : (s.setCluster k c).latent = s.latent := rfl

@[simp] theorem State.setCluster_lost (s : State) (k : Nat) (c : Cluster) : (s.setCluster k c).lost = s.lost := rfl

@[simp] theorem State.setCluster_retiring (s : State) (k : Nat) (c : Cluster) : (s.setCluster k c).retiring = s.retiring := rfl

@[simp] theorem State.setCluster_remap (s : State) (k : Nat) (c : Cluster) : (s.setCluster k c).remap = s.remap := rfl

@[simp] theorem State.setCluster_pools (s : State) (k : Nat) (c : Cluster) : (s.setCluster k c).pools = s.pools := rfl

@[simp] theorem State.setCluster_errs (s : State) (k : Nat) (c : Cluster) : (s.setCluster k c).errs = s.errs := rfl

@[simp] theorem State.setCluster_llc (s : State) (k : Nat) (c : Cluster) : (s.setCluster k c).llc = s.llc := rfl

@[simp] theorem State.setCluster_walks (s : State) (k : Nat) (c : Cluster) : (s.setCluster k c).walks = s.walks := rfl

@[simp] theorem State.setCluster_accs (s : State) (k : Nat) (c : Cluster) : (s.setCluster k c).accs = s.accs := rfl

@[simp] theorem State.setCluster_teams (s : State) (k : Nat) (c : Cluster) : (s.setCluster k c).teams = s.teams := rfl

@[simp] theorem State.setCluster_blocks (s : State) (k : Nat) (c : Cluster) : (s.setCluster k c).blocks = s.blocks := rfl

@[simp] theorem State.setCluster_cores (s : State) (k : Nat) (c : Cluster) : (s.setCluster k c).cores = s.cores := rfl

@[simp] theorem State.setCluster_clusters (s : State) (k : Nat) (c : Cluster) : (s.setCluster k c).clusters = tset s.clusters k c {} := rfl

@[simp] theorem State.setCluster_launches (s : State) (k : Nat) (c : Cluster) : (s.setCluster k c).launches = s.launches := rfl

@[simp] theorem State.setCluster_queues (s : State) (k : Nat) (c : Cluster) : (s.setCluster k c).queues = s.queues := rfl

@[simp] theorem State.setCluster_partitions (s : State) (k : Nat) (c : Cluster) : (s.setCluster k c).partitions = s.partitions := rfl

@[simp] theorem State.setCluster_shrWcnt (s : State) (k : Nat) (c : Cluster) : (s.setCluster k c).shrWcnt = s.shrWcnt := rfl

@[simp] theorem State.setCluster_shrWbase (s : State) (k : Nat) (c : Cluster) : (s.setCluster k c).shrWbase = s.shrWbase := rfl

@[simp] theorem State.setCluster_wdrec (s : State) (k : Nat) (c : Cluster) : (s.setCluster k c).wdrec = s.wdrec := rfl

@[simp] theorem State.setCluster_pctls (s : State) (k : Nat) (c : Cluster) : (s.setCluster k c).pctls = s.pctls := rfl

@[simp] theorem State.setCluster_notices (s : State) (k : Nat) (c : Cluster) : (s.setCluster k c).notices = s.notices := rfl

@[simp] theorem State.setCluster_hostLink (s : State) (k : Nat) (c : Cluster) : (s.setCluster k c).hostLink = s.hostLink := rfl

@[simp] theorem State.setCluster_power (s : State) (k : Nat) (c : Cluster) : (s.setCluster k c).power = s.power := rfl

@[simp] theorem State.setCluster_bexile (s : State) (k : Nat) (c : Cluster) : (s.setCluster k c).bexile = s.bexile := rfl

@[simp] theorem State.setCluster_fabric (s : State) (k : Nat) (c : Cluster) : (s.setCluster k c).fabric = s.fabric := rfl

@[simp] theorem State.setCluster_colls (s : State) (k : Nat) (c : Cluster) : (s.setCluster k c).colls = s.colls := rfl

@[simp] theorem State.setCluster_seals (s : State) (k : Nat) (c : Cluster) : (s.setCluster k c).seals = s.seals := rfl

@[simp] theorem State.setCore_turn (s : State) (k : Nat) (c : Core) : (s.setCore k c).turn = s.turn := rfl

@[simp] theorem State.setCore_inputs (s : State) (k : Nat) (c : Core) : (s.setCore k c).inputs = s.inputs := rfl

@[simp] theorem State.setCore_choiceCtr (s : State) (k : Nat) (c : Core) : (s.setCore k c).choiceCtr = s.choiceCtr := rfl

@[simp] theorem State.setCore_freeCtr (s : State) (k : Nat) (c : Core) : (s.setCore k c).freeCtr = s.freeCtr := rfl

@[simp] theorem State.setCore_cur (s : State) (k : Nat) (c : Core) : (s.setCore k c).cur = s.cur := rfl

@[simp] theorem State.setCore_cycle (s : State) (k : Nat) (c : Core) : (s.setCore k c).cycle = s.cycle := rfl

@[simp] theorem State.setCore_grantFloor (s : State) (k : Nat) (c : Core) : (s.setCore k c).grantFloor = s.grantFloor := rfl

@[simp] theorem State.setCore_seq (s : State) (k : Nat) (c : Core) : (s.setCore k c).seq = s.seq := rfl

@[simp] theorem State.setCore_uid (s : State) (k : Nat) (c : Core) : (s.setCore k c).uid = s.uid := rfl

@[simp] theorem State.setCore_mem (s : State) (k : Nat) (c : Core) : (s.setCore k c).mem = s.mem := rfl

@[simp] theorem State.setCore_latent (s : State) (k : Nat) (c : Core) : (s.setCore k c).latent = s.latent := rfl

@[simp] theorem State.setCore_lost (s : State) (k : Nat) (c : Core) : (s.setCore k c).lost = s.lost := rfl

@[simp] theorem State.setCore_retiring (s : State) (k : Nat) (c : Core) : (s.setCore k c).retiring = s.retiring := rfl

@[simp] theorem State.setCore_remap (s : State) (k : Nat) (c : Core) : (s.setCore k c).remap = s.remap := rfl

@[simp] theorem State.setCore_pools (s : State) (k : Nat) (c : Core) : (s.setCore k c).pools = s.pools := rfl

@[simp] theorem State.setCore_errs (s : State) (k : Nat) (c : Core) : (s.setCore k c).errs = s.errs := rfl

@[simp] theorem State.setCore_llc (s : State) (k : Nat) (c : Core) : (s.setCore k c).llc = s.llc := rfl

@[simp] theorem State.setCore_walks (s : State) (k : Nat) (c : Core) : (s.setCore k c).walks = s.walks := rfl

@[simp] theorem State.setCore_accs (s : State) (k : Nat) (c : Core) : (s.setCore k c).accs = s.accs := rfl

@[simp] theorem State.setCore_teams (s : State) (k : Nat) (c : Core) : (s.setCore k c).teams = s.teams := rfl

@[simp] theorem State.setCore_blocks (s : State) (k : Nat) (c : Core) : (s.setCore k c).blocks = s.blocks := rfl

@[simp] theorem State.setCore_cores (s : State) (k : Nat) (c : Core) : (s.setCore k c).cores = tset s.cores k c {} := rfl

@[simp] theorem State.setCore_clusters (s : State) (k : Nat) (c : Core) : (s.setCore k c).clusters = s.clusters := rfl

@[simp] theorem State.setCore_launches (s : State) (k : Nat) (c : Core) : (s.setCore k c).launches = s.launches := rfl

@[simp] theorem State.setCore_queues (s : State) (k : Nat) (c : Core) : (s.setCore k c).queues = s.queues := rfl

@[simp] theorem State.setCore_partitions (s : State) (k : Nat) (c : Core) : (s.setCore k c).partitions = s.partitions := rfl

@[simp] theorem State.setCore_shrWcnt (s : State) (k : Nat) (c : Core) : (s.setCore k c).shrWcnt = s.shrWcnt := rfl

@[simp] theorem State.setCore_shrWbase (s : State) (k : Nat) (c : Core) : (s.setCore k c).shrWbase = s.shrWbase := rfl

@[simp] theorem State.setCore_wdrec (s : State) (k : Nat) (c : Core) : (s.setCore k c).wdrec = s.wdrec := rfl

@[simp] theorem State.setCore_pctls (s : State) (k : Nat) (c : Core) : (s.setCore k c).pctls = s.pctls := rfl

@[simp] theorem State.setCore_notices (s : State) (k : Nat) (c : Core) : (s.setCore k c).notices = s.notices := rfl

@[simp] theorem State.setCore_hostLink (s : State) (k : Nat) (c : Core) : (s.setCore k c).hostLink = s.hostLink := rfl

@[simp] theorem State.setCore_power (s : State) (k : Nat) (c : Core) : (s.setCore k c).power = s.power := rfl

@[simp] theorem State.setCore_bexile (s : State) (k : Nat) (c : Core) : (s.setCore k c).bexile = s.bexile := rfl

@[simp] theorem State.setCore_fabric (s : State) (k : Nat) (c : Core) : (s.setCore k c).fabric = s.fabric := rfl

@[simp] theorem State.setCore_colls (s : State) (k : Nat) (c : Core) : (s.setCore k c).colls = s.colls := rfl

@[simp] theorem State.setCore_seals (s : State) (k : Nat) (c : Core) : (s.setCore k c).seals = s.seals := rfl

@[simp] theorem State.setPartition_turn (s : State) (n : Nat) (p : Partition) : (s.setPartition n p).turn = s.turn := rfl

@[simp] theorem State.setPartition_inputs (s : State) (n : Nat) (p : Partition) : (s.setPartition n p).inputs = s.inputs := rfl

@[simp] theorem State.setPartition_choiceCtr (s : State) (n : Nat) (p : Partition) : (s.setPartition n p).choiceCtr = s.choiceCtr := rfl

@[simp] theorem State.setPartition_freeCtr (s : State) (n : Nat) (p : Partition) : (s.setPartition n p).freeCtr = s.freeCtr := rfl

@[simp] theorem State.setPartition_cur (s : State) (n : Nat) (p : Partition) : (s.setPartition n p).cur = s.cur := rfl

@[simp] theorem State.setPartition_cycle (s : State) (n : Nat) (p : Partition) : (s.setPartition n p).cycle = s.cycle := rfl

@[simp] theorem State.setPartition_grantFloor (s : State) (n : Nat) (p : Partition) : (s.setPartition n p).grantFloor = s.grantFloor := rfl

@[simp] theorem State.setPartition_seq (s : State) (n : Nat) (p : Partition) : (s.setPartition n p).seq = s.seq := rfl

@[simp] theorem State.setPartition_uid (s : State) (n : Nat) (p : Partition) : (s.setPartition n p).uid = s.uid := rfl

@[simp] theorem State.setPartition_mem (s : State) (n : Nat) (p : Partition) : (s.setPartition n p).mem = s.mem := rfl

@[simp] theorem State.setPartition_latent (s : State) (n : Nat) (p : Partition) : (s.setPartition n p).latent = s.latent := rfl

@[simp] theorem State.setPartition_lost (s : State) (n : Nat) (p : Partition) : (s.setPartition n p).lost = s.lost := rfl

@[simp] theorem State.setPartition_retiring (s : State) (n : Nat) (p : Partition) : (s.setPartition n p).retiring = s.retiring := rfl

@[simp] theorem State.setPartition_remap (s : State) (n : Nat) (p : Partition) : (s.setPartition n p).remap = s.remap := rfl

@[simp] theorem State.setPartition_pools (s : State) (n : Nat) (p : Partition) : (s.setPartition n p).pools = s.pools := rfl

@[simp] theorem State.setPartition_errs (s : State) (n : Nat) (p : Partition) : (s.setPartition n p).errs = s.errs := rfl

@[simp] theorem State.setPartition_llc (s : State) (n : Nat) (p : Partition) : (s.setPartition n p).llc = s.llc := rfl

@[simp] theorem State.setPartition_walks (s : State) (n : Nat) (p : Partition) : (s.setPartition n p).walks = s.walks := rfl

@[simp] theorem State.setPartition_accs (s : State) (n : Nat) (p : Partition) : (s.setPartition n p).accs = s.accs := rfl

@[simp] theorem State.setPartition_teams (s : State) (n : Nat) (p : Partition) : (s.setPartition n p).teams = s.teams := rfl

@[simp] theorem State.setPartition_blocks (s : State) (n : Nat) (p : Partition) : (s.setPartition n p).blocks = s.blocks := rfl

@[simp] theorem State.setPartition_cores (s : State) (n : Nat) (p : Partition) : (s.setPartition n p).cores = s.cores := rfl

@[simp] theorem State.setPartition_clusters (s : State) (n : Nat) (p : Partition) : (s.setPartition n p).clusters = s.clusters := rfl

@[simp] theorem State.setPartition_launches (s : State) (n : Nat) (p : Partition) : (s.setPartition n p).launches = s.launches := rfl

@[simp] theorem State.setPartition_queues (s : State) (n : Nat) (p : Partition) : (s.setPartition n p).queues = s.queues := rfl

@[simp] theorem State.setPartition_partitions (s : State) (n : Nat) (p : Partition) : (s.setPartition n p).partitions = tset s.partitions n p {} := rfl

@[simp] theorem State.setPartition_shrWcnt (s : State) (n : Nat) (p : Partition) : (s.setPartition n p).shrWcnt = s.shrWcnt := rfl

@[simp] theorem State.setPartition_shrWbase (s : State) (n : Nat) (p : Partition) : (s.setPartition n p).shrWbase = s.shrWbase := rfl

@[simp] theorem State.setPartition_wdrec (s : State) (n : Nat) (p : Partition) : (s.setPartition n p).wdrec = s.wdrec := rfl

@[simp] theorem State.setPartition_pctls (s : State) (n : Nat) (p : Partition) : (s.setPartition n p).pctls = s.pctls := rfl

@[simp] theorem State.setPartition_notices (s : State) (n : Nat) (p : Partition) : (s.setPartition n p).notices = s.notices := rfl

@[simp] theorem State.setPartition_hostLink (s : State) (n : Nat) (p : Partition) : (s.setPartition n p).hostLink = s.hostLink := rfl

@[simp] theorem State.setPartition_power (s : State) (n : Nat) (p : Partition) : (s.setPartition n p).power = s.power := rfl

@[simp] theorem State.setPartition_bexile (s : State) (n : Nat) (p : Partition) : (s.setPartition n p).bexile = s.bexile := rfl

@[simp] theorem State.setPartition_fabric (s : State) (n : Nat) (p : Partition) : (s.setPartition n p).fabric = s.fabric := rfl

@[simp] theorem State.setPartition_colls (s : State) (n : Nat) (p : Partition) : (s.setPartition n p).colls = s.colls := rfl

@[simp] theorem State.setPartition_seals (s : State) (n : Nat) (p : Partition) : (s.setPartition n p).seals = s.seals := rfl

@[simp] theorem State.setQueue_turn (s : State) (q : Nat) (x : Queue) : (s.setQueue q x).turn = s.turn := rfl

@[simp] theorem State.setQueue_inputs (s : State) (q : Nat) (x : Queue) : (s.setQueue q x).inputs = s.inputs := rfl

@[simp] theorem State.setQueue_choiceCtr (s : State) (q : Nat) (x : Queue) : (s.setQueue q x).choiceCtr = s.choiceCtr := rfl

@[simp] theorem State.setQueue_freeCtr (s : State) (q : Nat) (x : Queue) : (s.setQueue q x).freeCtr = s.freeCtr := rfl

@[simp] theorem State.setQueue_cur (s : State) (q : Nat) (x : Queue) : (s.setQueue q x).cur = s.cur := rfl

@[simp] theorem State.setQueue_cycle (s : State) (q : Nat) (x : Queue) : (s.setQueue q x).cycle = s.cycle := rfl

@[simp] theorem State.setQueue_grantFloor (s : State) (q : Nat) (x : Queue) : (s.setQueue q x).grantFloor = s.grantFloor := rfl

@[simp] theorem State.setQueue_seq (s : State) (q : Nat) (x : Queue) : (s.setQueue q x).seq = s.seq := rfl

@[simp] theorem State.setQueue_uid (s : State) (q : Nat) (x : Queue) : (s.setQueue q x).uid = s.uid := rfl

@[simp] theorem State.setQueue_mem (s : State) (q : Nat) (x : Queue) : (s.setQueue q x).mem = s.mem := rfl

@[simp] theorem State.setQueue_latent (s : State) (q : Nat) (x : Queue) : (s.setQueue q x).latent = s.latent := rfl

@[simp] theorem State.setQueue_lost (s : State) (q : Nat) (x : Queue) : (s.setQueue q x).lost = s.lost := rfl

@[simp] theorem State.setQueue_retiring (s : State) (q : Nat) (x : Queue) : (s.setQueue q x).retiring = s.retiring := rfl

@[simp] theorem State.setQueue_remap (s : State) (q : Nat) (x : Queue) : (s.setQueue q x).remap = s.remap := rfl

@[simp] theorem State.setQueue_pools (s : State) (q : Nat) (x : Queue) : (s.setQueue q x).pools = s.pools := rfl

@[simp] theorem State.setQueue_errs (s : State) (q : Nat) (x : Queue) : (s.setQueue q x).errs = s.errs := rfl

@[simp] theorem State.setQueue_llc (s : State) (q : Nat) (x : Queue) : (s.setQueue q x).llc = s.llc := rfl

@[simp] theorem State.setQueue_walks (s : State) (q : Nat) (x : Queue) : (s.setQueue q x).walks = s.walks := rfl

@[simp] theorem State.setQueue_accs (s : State) (q : Nat) (x : Queue) : (s.setQueue q x).accs = s.accs := rfl

@[simp] theorem State.setQueue_teams (s : State) (q : Nat) (x : Queue) : (s.setQueue q x).teams = s.teams := rfl

@[simp] theorem State.setQueue_blocks (s : State) (q : Nat) (x : Queue) : (s.setQueue q x).blocks = s.blocks := rfl

@[simp] theorem State.setQueue_cores (s : State) (q : Nat) (x : Queue) : (s.setQueue q x).cores = s.cores := rfl

@[simp] theorem State.setQueue_clusters (s : State) (q : Nat) (x : Queue) : (s.setQueue q x).clusters = s.clusters := rfl

@[simp] theorem State.setQueue_launches (s : State) (q : Nat) (x : Queue) : (s.setQueue q x).launches = s.launches := rfl

@[simp] theorem State.setQueue_queues (s : State) (q : Nat) (x : Queue) : (s.setQueue q x).queues = tset s.queues q x {} := rfl

@[simp] theorem State.setQueue_partitions (s : State) (q : Nat) (x : Queue) : (s.setQueue q x).partitions = s.partitions := rfl

@[simp] theorem State.setQueue_shrWcnt (s : State) (q : Nat) (x : Queue) : (s.setQueue q x).shrWcnt = s.shrWcnt := rfl

@[simp] theorem State.setQueue_shrWbase (s : State) (q : Nat) (x : Queue) : (s.setQueue q x).shrWbase = s.shrWbase := rfl

@[simp] theorem State.setQueue_wdrec (s : State) (q : Nat) (x : Queue) : (s.setQueue q x).wdrec = s.wdrec := rfl

@[simp] theorem State.setQueue_pctls (s : State) (q : Nat) (x : Queue) : (s.setQueue q x).pctls = s.pctls := rfl

@[simp] theorem State.setQueue_notices (s : State) (q : Nat) (x : Queue) : (s.setQueue q x).notices = s.notices := rfl

@[simp] theorem State.setQueue_hostLink (s : State) (q : Nat) (x : Queue) : (s.setQueue q x).hostLink = s.hostLink := rfl

@[simp] theorem State.setQueue_power (s : State) (q : Nat) (x : Queue) : (s.setQueue q x).power = s.power := rfl

@[simp] theorem State.setQueue_bexile (s : State) (q : Nat) (x : Queue) : (s.setQueue q x).bexile = s.bexile := rfl

@[simp] theorem State.setQueue_fabric (s : State) (q : Nat) (x : Queue) : (s.setQueue q x).fabric = s.fabric := rfl

@[simp] theorem State.setQueue_colls (s : State) (q : Nat) (x : Queue) : (s.setQueue q x).colls = s.colls := rfl

@[simp] theorem State.setQueue_seals (s : State) (q : Nat) (x : Queue) : (s.setQueue q x).seals = s.seals := rfl

@[simp] theorem State.modTeam_turn (s : State) (f : Nat) (g : Team → Team) : (s.modTeam f g).turn = s.turn := rfl

@[simp] theorem State.modTeam_inputs (s : State) (f : Nat) (g : Team → Team) : (s.modTeam f g).inputs = s.inputs := rfl

@[simp] theorem State.modTeam_choiceCtr (s : State) (f : Nat) (g : Team → Team) : (s.modTeam f g).choiceCtr = s.choiceCtr := rfl

@[simp] theorem State.modTeam_freeCtr (s : State) (f : Nat) (g : Team → Team) : (s.modTeam f g).freeCtr = s.freeCtr := rfl

@[simp] theorem State.modTeam_cur (s : State) (f : Nat) (g : Team → Team) : (s.modTeam f g).cur = s.cur := rfl

@[simp] theorem State.modTeam_cycle (s : State) (f : Nat) (g : Team → Team) : (s.modTeam f g).cycle = s.cycle := rfl

@[simp] theorem State.modTeam_grantFloor (s : State) (f : Nat) (g : Team → Team) : (s.modTeam f g).grantFloor = s.grantFloor := rfl

@[simp] theorem State.modTeam_seq (s : State) (f : Nat) (g : Team → Team) : (s.modTeam f g).seq = s.seq := rfl

@[simp] theorem State.modTeam_uid (s : State) (f : Nat) (g : Team → Team) : (s.modTeam f g).uid = s.uid := rfl

@[simp] theorem State.modTeam_mem (s : State) (f : Nat) (g : Team → Team) : (s.modTeam f g).mem = s.mem := rfl

@[simp] theorem State.modTeam_latent (s : State) (f : Nat) (g : Team → Team) : (s.modTeam f g).latent = s.latent := rfl

@[simp] theorem State.modTeam_lost (s : State) (f : Nat) (g : Team → Team) : (s.modTeam f g).lost = s.lost := rfl

@[simp] theorem State.modTeam_retiring (s : State) (f : Nat) (g : Team → Team) : (s.modTeam f g).retiring = s.retiring := rfl

@[simp] theorem State.modTeam_remap (s : State) (f : Nat) (g : Team → Team) : (s.modTeam f g).remap = s.remap := rfl

@[simp] theorem State.modTeam_pools (s : State) (f : Nat) (g : Team → Team) : (s.modTeam f g).pools = s.pools := rfl

@[simp] theorem State.modTeam_errs (s : State) (f : Nat) (g : Team → Team) : (s.modTeam f g).errs = s.errs := rfl

@[simp] theorem State.modTeam_llc (s : State) (f : Nat) (g : Team → Team) : (s.modTeam f g).llc = s.llc := rfl

@[simp] theorem State.modTeam_walks (s : State) (f : Nat) (g : Team → Team) : (s.modTeam f g).walks = s.walks := rfl

@[simp] theorem State.modTeam_accs (s : State) (f : Nat) (g : Team → Team) : (s.modTeam f g).accs = s.accs := rfl

@[simp] theorem State.modTeam_teams (s : State) (f : Nat) (g : Team → Team) : (s.modTeam f g).teams = tmod s.teams f g := rfl

@[simp] theorem State.modTeam_blocks (s : State) (f : Nat) (g : Team → Team) : (s.modTeam f g).blocks = s.blocks := rfl

@[simp] theorem State.modTeam_cores (s : State) (f : Nat) (g : Team → Team) : (s.modTeam f g).cores = s.cores := rfl

@[simp] theorem State.modTeam_clusters (s : State) (f : Nat) (g : Team → Team) : (s.modTeam f g).clusters = s.clusters := rfl

@[simp] theorem State.modTeam_launches (s : State) (f : Nat) (g : Team → Team) : (s.modTeam f g).launches = s.launches := rfl

@[simp] theorem State.modTeam_queues (s : State) (f : Nat) (g : Team → Team) : (s.modTeam f g).queues = s.queues := rfl

@[simp] theorem State.modTeam_partitions (s : State) (f : Nat) (g : Team → Team) : (s.modTeam f g).partitions = s.partitions := rfl

@[simp] theorem State.modTeam_shrWcnt (s : State) (f : Nat) (g : Team → Team) : (s.modTeam f g).shrWcnt = s.shrWcnt := rfl

@[simp] theorem State.modTeam_shrWbase (s : State) (f : Nat) (g : Team → Team) : (s.modTeam f g).shrWbase = s.shrWbase := rfl

@[simp] theorem State.modTeam_wdrec (s : State) (f : Nat) (g : Team → Team) : (s.modTeam f g).wdrec = s.wdrec := rfl

@[simp] theorem State.modTeam_pctls (s : State) (f : Nat) (g : Team → Team) : (s.modTeam f g).pctls = s.pctls := rfl

@[simp] theorem State.modTeam_notices (s : State) (f : Nat) (g : Team → Team) : (s.modTeam f g).notices = s.notices := rfl

@[simp] theorem State.modTeam_hostLink (s : State) (f : Nat) (g : Team → Team) : (s.modTeam f g).hostLink = s.hostLink := rfl

@[simp] theorem State.modTeam_power (s : State) (f : Nat) (g : Team → Team) : (s.modTeam f g).power = s.power := rfl

@[simp] theorem State.modTeam_bexile (s : State) (f : Nat) (g : Team → Team) : (s.modTeam f g).bexile = s.bexile := rfl

@[simp] theorem State.modTeam_fabric (s : State) (f : Nat) (g : Team → Team) : (s.modTeam f g).fabric = s.fabric := rfl

@[simp] theorem State.modTeam_colls (s : State) (f : Nat) (g : Team → Team) : (s.modTeam f g).colls = s.colls := rfl

@[simp] theorem State.modTeam_seals (s : State) (f : Nat) (g : Team → Team) : (s.modTeam f g).seals = s.seals := rfl

@[simp] theorem State.modBlock_turn (s : State) (b : Nat) (g : Block → Block) : (s.modBlock b g).turn = s.turn := rfl

@[simp] theorem State.modBlock_inputs (s : State) (b : Nat) (g : Block → Block) : (s.modBlock b g).inputs = s.inputs := rfl

@[simp] theorem State.modBlock_choiceCtr (s : State) (b : Nat) (g : Block → Block) : (s.modBlock b g).choiceCtr = s.choiceCtr := rfl

@[simp] theorem State.modBlock_freeCtr (s : State) (b : Nat) (g : Block → Block) : (s.modBlock b g).freeCtr = s.freeCtr := rfl

@[simp] theorem State.modBlock_cur (s : State) (b : Nat) (g : Block → Block) : (s.modBlock b g).cur = s.cur := rfl

@[simp] theorem State.modBlock_cycle (s : State) (b : Nat) (g : Block → Block) : (s.modBlock b g).cycle = s.cycle := rfl

@[simp] theorem State.modBlock_grantFloor (s : State) (b : Nat) (g : Block → Block) : (s.modBlock b g).grantFloor = s.grantFloor := rfl

@[simp] theorem State.modBlock_seq (s : State) (b : Nat) (g : Block → Block) : (s.modBlock b g).seq = s.seq := rfl

@[simp] theorem State.modBlock_uid (s : State) (b : Nat) (g : Block → Block) : (s.modBlock b g).uid = s.uid := rfl

@[simp] theorem State.modBlock_mem (s : State) (b : Nat) (g : Block → Block) : (s.modBlock b g).mem = s.mem := rfl

@[simp] theorem State.modBlock_latent (s : State) (b : Nat) (g : Block → Block) : (s.modBlock b g).latent = s.latent := rfl

@[simp] theorem State.modBlock_lost (s : State) (b : Nat) (g : Block → Block) : (s.modBlock b g).lost = s.lost := rfl

@[simp] theorem State.modBlock_retiring (s : State) (b : Nat) (g : Block → Block) : (s.modBlock b g).retiring = s.retiring := rfl

@[simp] theorem State.modBlock_remap (s : State) (b : Nat) (g : Block → Block) : (s.modBlock b g).remap = s.remap := rfl

@[simp] theorem State.modBlock_pools (s : State) (b : Nat) (g : Block → Block) : (s.modBlock b g).pools = s.pools := rfl

@[simp] theorem State.modBlock_errs (s : State) (b : Nat) (g : Block → Block) : (s.modBlock b g).errs = s.errs := rfl

@[simp] theorem State.modBlock_llc (s : State) (b : Nat) (g : Block → Block) : (s.modBlock b g).llc = s.llc := rfl

@[simp] theorem State.modBlock_walks (s : State) (b : Nat) (g : Block → Block) : (s.modBlock b g).walks = s.walks := rfl

@[simp] theorem State.modBlock_accs (s : State) (b : Nat) (g : Block → Block) : (s.modBlock b g).accs = s.accs := rfl

@[simp] theorem State.modBlock_teams (s : State) (b : Nat) (g : Block → Block) : (s.modBlock b g).teams = s.teams := rfl

@[simp] theorem State.modBlock_blocks (s : State) (b : Nat) (g : Block → Block) : (s.modBlock b g).blocks = tmod s.blocks b g := rfl

@[simp] theorem State.modBlock_cores (s : State) (b : Nat) (g : Block → Block) : (s.modBlock b g).cores = s.cores := rfl

@[simp] theorem State.modBlock_clusters (s : State) (b : Nat) (g : Block → Block) : (s.modBlock b g).clusters = s.clusters := rfl

@[simp] theorem State.modBlock_launches (s : State) (b : Nat) (g : Block → Block) : (s.modBlock b g).launches = s.launches := rfl

@[simp] theorem State.modBlock_queues (s : State) (b : Nat) (g : Block → Block) : (s.modBlock b g).queues = s.queues := rfl

@[simp] theorem State.modBlock_partitions (s : State) (b : Nat) (g : Block → Block) : (s.modBlock b g).partitions = s.partitions := rfl

@[simp] theorem State.modBlock_shrWcnt (s : State) (b : Nat) (g : Block → Block) : (s.modBlock b g).shrWcnt = s.shrWcnt := rfl

@[simp] theorem State.modBlock_shrWbase (s : State) (b : Nat) (g : Block → Block) : (s.modBlock b g).shrWbase = s.shrWbase := rfl

@[simp] theorem State.modBlock_wdrec (s : State) (b : Nat) (g : Block → Block) : (s.modBlock b g).wdrec = s.wdrec := rfl

@[simp] theorem State.modBlock_pctls (s : State) (b : Nat) (g : Block → Block) : (s.modBlock b g).pctls = s.pctls := rfl

@[simp] theorem State.modBlock_notices (s : State) (b : Nat) (g : Block → Block) : (s.modBlock b g).notices = s.notices := rfl

@[simp] theorem State.modBlock_hostLink (s : State) (b : Nat) (g : Block → Block) : (s.modBlock b g).hostLink = s.hostLink := rfl

@[simp] theorem State.modBlock_power (s : State) (b : Nat) (g : Block → Block) : (s.modBlock b g).power = s.power := rfl

@[simp] theorem State.modBlock_bexile (s : State) (b : Nat) (g : Block → Block) : (s.modBlock b g).bexile = s.bexile := rfl

@[simp] theorem State.modBlock_fabric (s : State) (b : Nat) (g : Block → Block) : (s.modBlock b g).fabric = s.fabric := rfl

@[simp] theorem State.modBlock_colls (s : State) (b : Nat) (g : Block → Block) : (s.modBlock b g).colls = s.colls := rfl

@[simp] theorem State.modBlock_seals (s : State) (b : Nat) (g : Block → Block) : (s.modBlock b g).seals = s.seals := rfl

@[simp] theorem State.modLaunch_turn (s : State) (p i : Nat) (g : Launch → Launch) : (s.modLaunch p i g).turn = s.turn := rfl

@[simp] theorem State.modLaunch_inputs (s : State) (p i : Nat) (g : Launch → Launch) : (s.modLaunch p i g).inputs = s.inputs := rfl

@[simp] theorem State.modLaunch_choiceCtr (s : State) (p i : Nat) (g : Launch → Launch) : (s.modLaunch p i g).choiceCtr = s.choiceCtr := rfl

@[simp] theorem State.modLaunch_freeCtr (s : State) (p i : Nat) (g : Launch → Launch) : (s.modLaunch p i g).freeCtr = s.freeCtr := rfl

@[simp] theorem State.modLaunch_cur (s : State) (p i : Nat) (g : Launch → Launch) : (s.modLaunch p i g).cur = s.cur := rfl

@[simp] theorem State.modLaunch_cycle (s : State) (p i : Nat) (g : Launch → Launch) : (s.modLaunch p i g).cycle = s.cycle := rfl

@[simp] theorem State.modLaunch_grantFloor (s : State) (p i : Nat) (g : Launch → Launch) : (s.modLaunch p i g).grantFloor = s.grantFloor := rfl

@[simp] theorem State.modLaunch_seq (s : State) (p i : Nat) (g : Launch → Launch) : (s.modLaunch p i g).seq = s.seq := rfl

@[simp] theorem State.modLaunch_uid (s : State) (p i : Nat) (g : Launch → Launch) : (s.modLaunch p i g).uid = s.uid := rfl

@[simp] theorem State.modLaunch_mem (s : State) (p i : Nat) (g : Launch → Launch) : (s.modLaunch p i g).mem = s.mem := rfl

@[simp] theorem State.modLaunch_latent (s : State) (p i : Nat) (g : Launch → Launch) : (s.modLaunch p i g).latent = s.latent := rfl

@[simp] theorem State.modLaunch_lost (s : State) (p i : Nat) (g : Launch → Launch) : (s.modLaunch p i g).lost = s.lost := rfl

@[simp] theorem State.modLaunch_retiring (s : State) (p i : Nat) (g : Launch → Launch) : (s.modLaunch p i g).retiring = s.retiring := rfl

@[simp] theorem State.modLaunch_remap (s : State) (p i : Nat) (g : Launch → Launch) : (s.modLaunch p i g).remap = s.remap := rfl

@[simp] theorem State.modLaunch_pools (s : State) (p i : Nat) (g : Launch → Launch) : (s.modLaunch p i g).pools = s.pools := rfl

@[simp] theorem State.modLaunch_errs (s : State) (p i : Nat) (g : Launch → Launch) : (s.modLaunch p i g).errs = s.errs := rfl

@[simp] theorem State.modLaunch_llc (s : State) (p i : Nat) (g : Launch → Launch) : (s.modLaunch p i g).llc = s.llc := rfl

@[simp] theorem State.modLaunch_walks (s : State) (p i : Nat) (g : Launch → Launch) : (s.modLaunch p i g).walks = s.walks := rfl

@[simp] theorem State.modLaunch_accs (s : State) (p i : Nat) (g : Launch → Launch) : (s.modLaunch p i g).accs = s.accs := rfl

@[simp] theorem State.modLaunch_teams (s : State) (p i : Nat) (g : Launch → Launch) : (s.modLaunch p i g).teams = s.teams := rfl

@[simp] theorem State.modLaunch_blocks (s : State) (p i : Nat) (g : Launch → Launch) : (s.modLaunch p i g).blocks = s.blocks := rfl

@[simp] theorem State.modLaunch_cores (s : State) (p i : Nat) (g : Launch → Launch) : (s.modLaunch p i g).cores = s.cores := rfl

@[simp] theorem State.modLaunch_clusters (s : State) (p i : Nat) (g : Launch → Launch) : (s.modLaunch p i g).clusters = s.clusters := rfl

@[simp] theorem State.modLaunch_queues (s : State) (p i : Nat) (g : Launch → Launch) : (s.modLaunch p i g).queues = s.queues := rfl

@[simp] theorem State.modLaunch_partitions (s : State) (p i : Nat) (g : Launch → Launch) : (s.modLaunch p i g).partitions = s.partitions := rfl

@[simp] theorem State.modLaunch_shrWcnt (s : State) (p i : Nat) (g : Launch → Launch) : (s.modLaunch p i g).shrWcnt = s.shrWcnt := rfl

@[simp] theorem State.modLaunch_shrWbase (s : State) (p i : Nat) (g : Launch → Launch) : (s.modLaunch p i g).shrWbase = s.shrWbase := rfl

@[simp] theorem State.modLaunch_wdrec (s : State) (p i : Nat) (g : Launch → Launch) : (s.modLaunch p i g).wdrec = s.wdrec := rfl

@[simp] theorem State.modLaunch_pctls (s : State) (p i : Nat) (g : Launch → Launch) : (s.modLaunch p i g).pctls = s.pctls := rfl

@[simp] theorem State.modLaunch_notices (s : State) (p i : Nat) (g : Launch → Launch) : (s.modLaunch p i g).notices = s.notices := rfl

@[simp] theorem State.modLaunch_hostLink (s : State) (p i : Nat) (g : Launch → Launch) : (s.modLaunch p i g).hostLink = s.hostLink := rfl

@[simp] theorem State.modLaunch_power (s : State) (p i : Nat) (g : Launch → Launch) : (s.modLaunch p i g).power = s.power := rfl

@[simp] theorem State.modLaunch_bexile (s : State) (p i : Nat) (g : Launch → Launch) : (s.modLaunch p i g).bexile = s.bexile := rfl

@[simp] theorem State.modLaunch_fabric (s : State) (p i : Nat) (g : Launch → Launch) : (s.modLaunch p i g).fabric = s.fabric := rfl

@[simp] theorem State.modLaunch_colls (s : State) (p i : Nat) (g : Launch → Launch) : (s.modLaunch p i g).colls = s.colls := rfl

@[simp] theorem State.modLaunch_seals (s : State) (p i : Nat) (g : Launch → Launch) : (s.modLaunch p i g).seals = s.seals := rfl

@[simp] theorem memSet_turn (s : State) (pa x n : Nat) : (memSet s pa x n).turn = s.turn := rfl

@[simp] theorem memSet_inputs (s : State) (pa x n : Nat) : (memSet s pa x n).inputs = s.inputs := rfl

@[simp] theorem memSet_choiceCtr (s : State) (pa x n : Nat) : (memSet s pa x n).choiceCtr = s.choiceCtr := rfl

@[simp] theorem memSet_freeCtr (s : State) (pa x n : Nat) : (memSet s pa x n).freeCtr = s.freeCtr := rfl

@[simp] theorem memSet_cur (s : State) (pa x n : Nat) : (memSet s pa x n).cur = s.cur := rfl

@[simp] theorem memSet_cycle (s : State) (pa x n : Nat) : (memSet s pa x n).cycle = s.cycle := rfl

@[simp] theorem memSet_grantFloor (s : State) (pa x n : Nat) : (memSet s pa x n).grantFloor = s.grantFloor := rfl

@[simp] theorem memSet_seq (s : State) (pa x n : Nat) : (memSet s pa x n).seq = s.seq := rfl

@[simp] theorem memSet_uid (s : State) (pa x n : Nat) : (memSet s pa x n).uid = s.uid := rfl

@[simp] theorem memSet_mem (s : State) (pa x n : Nat) : (memSet s pa x n).mem = bytesSet s.mem pa x n := rfl

@[simp] theorem memSet_latent (s : State) (pa x n : Nat) : (memSet s pa x n).latent = s.latent := rfl

@[simp] theorem memSet_lost (s : State) (pa x n : Nat) : (memSet s pa x n).lost = s.lost := rfl

@[simp] theorem memSet_retiring (s : State) (pa x n : Nat) : (memSet s pa x n).retiring = s.retiring := rfl

@[simp] theorem memSet_remap (s : State) (pa x n : Nat) : (memSet s pa x n).remap = s.remap := rfl

@[simp] theorem memSet_pools (s : State) (pa x n : Nat) : (memSet s pa x n).pools = s.pools := rfl

@[simp] theorem memSet_errs (s : State) (pa x n : Nat) : (memSet s pa x n).errs = s.errs := rfl

@[simp] theorem memSet_llc (s : State) (pa x n : Nat) : (memSet s pa x n).llc = s.llc := rfl

@[simp] theorem memSet_walks (s : State) (pa x n : Nat) : (memSet s pa x n).walks = s.walks := rfl

@[simp] theorem memSet_accs (s : State) (pa x n : Nat) : (memSet s pa x n).accs = s.accs := rfl

@[simp] theorem memSet_teams (s : State) (pa x n : Nat) : (memSet s pa x n).teams = s.teams := rfl

@[simp] theorem memSet_blocks (s : State) (pa x n : Nat) : (memSet s pa x n).blocks = s.blocks := rfl

@[simp] theorem memSet_cores (s : State) (pa x n : Nat) : (memSet s pa x n).cores = s.cores := rfl

@[simp] theorem memSet_clusters (s : State) (pa x n : Nat) : (memSet s pa x n).clusters = s.clusters := rfl

@[simp] theorem memSet_launches (s : State) (pa x n : Nat) : (memSet s pa x n).launches = s.launches := rfl

@[simp] theorem memSet_queues (s : State) (pa x n : Nat) : (memSet s pa x n).queues = s.queues := rfl

@[simp] theorem memSet_partitions (s : State) (pa x n : Nat) : (memSet s pa x n).partitions = s.partitions := rfl

@[simp] theorem memSet_shrWcnt (s : State) (pa x n : Nat) : (memSet s pa x n).shrWcnt = s.shrWcnt := rfl

@[simp] theorem memSet_shrWbase (s : State) (pa x n : Nat) : (memSet s pa x n).shrWbase = s.shrWbase := rfl

@[simp] theorem memSet_wdrec (s : State) (pa x n : Nat) : (memSet s pa x n).wdrec = s.wdrec := rfl

@[simp] theorem memSet_pctls (s : State) (pa x n : Nat) : (memSet s pa x n).pctls = s.pctls := rfl

@[simp] theorem memSet_notices (s : State) (pa x n : Nat) : (memSet s pa x n).notices = s.notices := rfl

@[simp] theorem memSet_hostLink (s : State) (pa x n : Nat) : (memSet s pa x n).hostLink = s.hostLink := rfl

@[simp] theorem memSet_power (s : State) (pa x n : Nat) : (memSet s pa x n).power = s.power := rfl

@[simp] theorem memSet_bexile (s : State) (pa x n : Nat) : (memSet s pa x n).bexile = s.bexile := rfl

@[simp] theorem memSet_fabric (s : State) (pa x n : Nat) : (memSet s pa x n).fabric = s.fabric := rfl

@[simp] theorem memSet_colls (s : State) (pa x n : Nat) : (memSet s pa x n).colls = s.colls := rfl

@[simp] theorem memSet_seals (s : State) (pa x n : Nat) : (memSet s pa x n).seals = s.seals := rfl

@[simp] theorem State.setCore_core_self (s : State) (k : Nat) (x : Core) : (s.setCore k x).core k = x := by
  simp [State.core, State.setCore]

@[simp] theorem State.setCore_core_ne (s : State) {k j : Nat} (x : Core) (h : j ≠ k) : (s.setCore k x).core j = s.core j := by
  simp [State.core, State.setCore, h]

@[simp] theorem State.setCluster_cluster_self (s : State) (k : Nat) (x : Cluster) : (s.setCluster k x).cluster k = x := by
  simp [State.cluster, State.setCluster]

@[simp] theorem State.setCluster_cluster_ne (s : State) {k j : Nat} (x : Cluster) (h : j ≠ k) : (s.setCluster k x).cluster j = s.cluster j := by
  simp [State.cluster, State.setCluster, h]

@[simp] theorem State.setPartition_partition_self (s : State) (k : Nat) (x : Partition) : (s.setPartition k x).partition k = x := by
  simp [State.partition, State.setPartition]

@[simp] theorem State.setPartition_partition_ne (s : State) {k j : Nat} (x : Partition) (h : j ≠ k) : (s.setPartition k x).partition j = s.partition j := by
  simp [State.partition, State.setPartition, h]

@[simp] theorem State.setQueue_queue_self (s : State) (k : Nat) (x : Queue) : (s.setQueue k x).queue k = x := by
  simp [State.queue, State.setQueue]

@[simp] theorem State.setQueue_queue_ne (s : State) {k j : Nat} (x : Queue) (h : j ≠ k) : (s.setQueue k x).queue j = s.queue j := by
  simp [State.queue, State.setQueue, h]

end Sys2Proof.Machine
end

