-- ==== Sys2Proof/Laws/Words.lean ====
section
/-! SUPPORT. What the shared operations of words do: the value store's sweep, one slot over its lanes, the end of a word,
and an arithmetic word as a whole. -/

set_option Elab.async false

namespace Sys2Proof.Machine

-- ===== the value store =====

theorem StoreOnly.refl (c : Nat) (s : State) : StoreOnly c s s := ⟨rfl, fun _ _ => rfl, rfl⟩

theorem StoreOnly.trans {c : Nat} {s u v : State} (h : StoreOnly c s u) (g : StoreOnly c u v) : StoreOnly c s v where
  rest := by
    have e := h.rest
    rw [← g.rest] at e
    exact e
  others k hk := (g.others k hk).trans (h.others k hk)
  own := by
    have e := h.own
    rw [← g.own] at e
    exact e

/-- A core replaced, its value store aside, by itself. -/
theorem StoreOnly.setCore (c : Nat) (s : State) (x : Core)
    (h : { x with tagTable := (s.core c).tagTable, generation := (s.core c).generation, binds := (s.core c).binds,
                  misses := (s.core c).misses, freshes := (s.core c).freshes } = s.core c) : StoreOnly c s (s.setCore c x) where
  rest := rfl
  others k hk := State.setCore_core_ne s x hk
  own := by rw [State.setCore_core_self]; exact h

theorem StoreOnly.seq {c : Nat} {s u : State} (n : Nat) (h : StoreOnly c s u) : StoreOnly c s { u with seq := n } :=
  ⟨h.rest, h.others, h.own⟩

/-- A row from a pool costs its core at most a tag-table entry. -/
theorem poolRow_own {c : Core} {p : Nat} {among used : List Nat} {x : Core × Nat} (h : poolRow c p among used = some x) :
    ∃ tt, x.1 = { c with tagTable := tt } := by
  unfold poolRow at h
  dsimp only at h
  split at h
  · cases h
    exact ⟨_, rfl⟩
  · obtain ⟨i, -, rfl⟩ := Option.map_eq_some_iff.1 h
    exact ⟨_, rfl⟩

theorem takeRow_own (s : State) (c p : Nat) (used : List Nat) (own : Option Nat) :
    ∃ tt, (takeRow s c p used own).1 = { s.core c with tagTable := tt } := by
  unfold takeRow
  dsimp only
  split
  · rename_i h
    exact poolRow_own h
  · exact ⟨_, rfl⟩
  · cases h : poolRow (s.core c) p (s.partition p).quota.rows used with
    | none => exact ⟨_, rfl⟩
    | some x => exact poolRow_own h

theorem computedRow_own (s : State) (c : Nat) (t : Team) (r w : Nat) (rows0 used : List Nat) :
    ∃ tt, (computedRow s c t r w rows0 used).1 = { s.core c with tagTable := tt } := by
  unfold computedRow
  split
  · split
    · exact ⟨_, rfl⟩
    · exact takeRow_own ..
  · exact takeRow_own ..

/-- One warp of a sweep touches the value store of its core alone. -/
theorem sweepWarp_storeOnly (c : Nat) (t : Team) (r : Nat) (rows0 : List Nat) (seals : List (Nat × Nat)) (a : Sweep)
    (w : Nat) (how : SweepBy) : StoreOnly c a.s (sweepWarp c t r rows0 seals a w how).s := by
  unfold sweepWarp Sweep.put
  simp only
  obtain ⟨tt, hc⟩ := computedRow_own a.s c t r w rows0 a.rows
  generalize computedRow a.s c t r w rows0 a.rows = computed at hc ⊢
  split
  · exact .setCore c _ _ (by simp only [freshTag, hc])
  · exact .setCore c _ _ (by rw [hc])
  · exact .setCore c _ _ (by rw [hc])
  · split
    · split
      · exact .seq _ (.setCore c _ _ rfl)
      · split
        · exact .setCore c _ _ rfl
        · exact .setCore c _ _ (by simp only [hc])
    · split
      · exact .setCore c _ _ rfl
      · split
        · exact .seq _ (.setCore c _ _ (by simp only [hc]))
        · exact .setCore c _ _ (by simp only [freshTag, hc])

/-- A sweep touches the value store of its core alone. -/
theorem sweepWrite_storeOnly (s : State) (f : Nat) (t : Team) (r : Nat) (lanes : List Nat) (extra : List TagWrite) (seals : List (Nat × Nat))
    (how : Nat → SweepBy) : StoreOnly (coreOf f) s (sweepWrite s f t r lanes extra seals how).1 := by
  unfold sweepWrite
  simp only
  generalize warpsOf lanes = ws
  suffices h : ∀ (a : Sweep), StoreOnly (coreOf f) s a.s → StoreOnly (coreOf f) s (ws.foldl (fun a w =>
      sweepWarp (coreOf f) t r (mappedRows s (coreOf f)) seals a w
        (if ((lanes.filter fun l => l / 32 == w).length == 32) && !t.nb then how w else .fresh)) a).s from
    h ⟨s, [], _, []⟩ (.refl _ _)
  induction ws with
  | nil => exact fun a h => h
  | cons w ws ih => exact fun a h => ih _ (h.trans (sweepWarp_storeOnly ..))

-- ===== one slot over its lanes =====

theorem rowBad_none {c : Core} (h : c.rowPoison = [] ∧ c.rowGone = []) (t : Team) (r lane : Nat) : rowBad c t r lane = none := by
  unfold rowBad
  split <;> simp [h.1, h.2]

theorem lostRow_none {c : Core} (h : c.rowPoison = [] ∧ c.rowGone = []) (t : Team) (binds : Nat → Bool) (reads : Nat → List (Nat × Nat))
    (l : Nat) : lostRow c t binds reads l = none := by
  unfold lostRow
  split
  · rfl
  · simp [rowBad_none h]

theorem slotLane_sound {c : Core} (h : c.rowPoison = [] ∧ c.rowGone = []) (t : Team) (binds : Nat → Bool) (reads : Nat → List (Nat × Nat))
    (fn : Nat → LaneOut) (l : Nat) : slotLane c t binds reads fn l = fn l := by
  simp [slotLane, lostRow_none h]

theorem slotSweep_storeOnly (s : State) (f : Nat) (t : Team) (keys : Nat → SweepBy) (seals : List (Nat × Nat))
    (extra : List TagWrite) (warpFlags : Nat → Flags) (writes : List RegWrite) :
    StoreOnly (coreOf f) s (slotSweep s f t keys seals extra warpFlags writes).1 := by
  unfold slotSweep
  generalize hb : (s, ([] : List TagWrite)) = b
  have hs : StoreOnly (coreOf f) s b.1 := hb ▸ StoreOnly.refl _ _
  clear hb
  induction writes generalizing b with
  | nil => exact hs
  | cons w ws ih =>
    refine ih _ ?_
    beta_reduce
    split
    · exact hs.trans (sweepWrite_storeOnly ..)
    · exact hs

section Slot

variable (s : State) (f : Nat) (t : Team) (i : Instr) (h : Hdr) (lat : Lat) (dests : List Reg) (lin : Lin)
  (reads : Nat → List (Nat × Nat)) (extra : List TagWrite) (fn : Nat → LaneOut)

/-- A slot on a sound core touches the value store of that core alone. -/
theorem runSlot_storeOnly (hs : (s.core (coreOf f)).rowPoison = [] ∧ (s.core (coreOf f)).rowGone = []) :
    StoreOnly (coreOf f) s (runSlot s f t i h lat dests lin reads extra fn).s := by
  have k := slotSweep_storeOnly s f t (if dests.any Reg.isV then wordTag s t i h lin else fun _ => .fresh)
  simp only [runSlot, lostRow_none hs, Option.map_none, List.filterMap_none, List.eraseDups_nil, List.foldl_nil]
  exact k ..

/-- The faults of a slot on a sound core are those that its lanes compute. -/
theorem runSlot_faults (hs : (s.core (coreOf f)).rowPoison = [] ∧ (s.core (coreOf f)).rowGone = []) :
    (runSlot s f t i h lat dests lin reads extra fn).faults =
      (activeLanes t h).filterMap fun l => (fn l).fault.map fun x => (l, x.1, x.2) := by
  simp [runSlot, slotLane_sound hs, List.filterMap_map]

/-- What a slot whose lanes compute without fault leaves, on a sound core. -/
theorem runSlot_pend (hs : (s.core (coreOf f)).rowPoison = [] ∧ (s.core (coreOf f)).rowGone = []) (hf : ∀ l, (fn l).fault = none) :
    let p := (runSlot s f t i h lat dests lin reads extra fn).pend
    p.issue = t.issues ∧ p.lat = lat ∧ p.lanes = activeLanes t h ∧ p.accs = 0 ∧ p.isLoop = false ∧ p.acq = none ∧
    p.flags = Flags.union ((activeLanes t h).map fun l => (fn l).flags) ∧
    p.writes = (dests.filter fun r => r != .p 0).map fun r =>
      resultOf r (activeLanes t h) fun l => ((fn l).vals.find? fun y => y.1 == r).map (·.2) := by
  have e : ((activeLanes t h).map fun l => (l, fn l)).filter (fun o => o.2.fault.isNone) =
      (activeLanes t h).map fun l => (l, fn l) := List.filter_eq_self.2 fun o ho => by
    obtain ⟨l, -, rfl⟩ := List.mem_map.1 ho
    simp [hf]
  refine ⟨rfl, rfl, rfl, rfl, rfl, rfl, ?_, ?_⟩
  · simp only [runSlot, slotLane_sound hs, e, List.map_map]
    rfl
  · simp only [runSlot, slotLane_sound hs, e]
    refine List.map_congr_left fun r _ => ?_
    unfold slotWrite resultOf
    cases r <;> simp [← List.map_take, List.filterMap_map, Function.comp_def, Option.map_map]

end Slot

-- ===== the end of a word =====

/-- A word without faults ends: its results are in flight and its team goes on. -/
theorem finishWord_issued {s : State} {f : Nat} {t : Team} (ht : tfind s.teams f = some t) (ps : List Pend) (next : Option Nat)
    (h : Hdr) : finishWord s f { pends := ps, next, sw := h.sw } =
      s.setTeam f (t.issued h (next.getD (t.pc + 8)) (ps.filter Pend.live)) := by
  simp [finishWord, ht, parkLanes, Team.issued]

/-- A word that puts results in flight and touches nothing but its core's value store. -/
theorem finishWord_teamOnly {s u : State} {t : Team} (ht : tfind s.teams s.cur = some t) (hu : StoreOnly (coreOf s.cur) s u)
    (ps : List Pend) (next : Option Nat) (h : Hdr) :
    TeamOnly s (finishWord u s.cur { pends := ps, next, sw := h.sw })
      (t.issued h (next.getD (t.pc + 8)) (ps.filter Pend.live)) := by
  have e : u.teams = s.teams := by rw [← hu.rest]
  rw [finishWord_issued (by rw [e]; exact ht)]
  refine ⟨by simp, fun f hf => by simp [hf, e], ⟨?_, hu.others, hu.own⟩⟩
  change { { u with teams := s.teams } with cores := s.cores, seq := s.seq } = s
  rw [← e]
  exact hu.rest

-- ===== an arithmetic word =====

/-- An arithmetic word whose lanes compute without fault completes with its results. -/
theorem alu_completes (a : Alu) (i : Instr) (hi : ∀ s, exec i s = a.exec s) (hl : a.lat ≠ .token)
    (s : State) (t : Team)
    (hs : Issuing s t) (hf : ∀ l, (a.fn s s.cur t l).fault = none) :
    Computes i s t a.h a.lat (a.dests.map fun r => (r, fun l => ((a.fn s s.cur t l).vals.find? fun y => y.1 == r).map (·.2)))
      fun l => (a.fn s s.cur t l).flags := by
  obtain ⟨ht, hr⟩ := hs
  have hfaults : (a.run s s.cur t []).faults = [] := by
    unfold Alu.run
    rw [runSlot_faults _ _ _ _ _ _ _ _ _ _ _ hr]
    simp [hf]
  obtain ⟨h1, h2, h3, h4, h5, h6, h7, h8⟩ :=
    runSlot_pend s s.cur t a.i a.h a.lat a.dests a.lin (ownReads a.srcs) [] (a.fn s s.cur t) hr hf
  have hu : StoreOnly (coreOf s.cur) s (a.run s s.cur t []).s := runSlot_storeOnly _ _ _ _ _ _ _ _ _ _ _ hr
  refine ⟨_, [(a.run s s.cur t []).pend].filter Pend.live, ?_, finishWord_teamOnly ht hu _ none _, ?_⟩
  · rw [hi]
    simp only [Alu.exec, forTeam, ht, Alu.word, hfaults]
  · unfold Alu.run
    generalize (runSlot s s.cur t a.i a.h a.lat a.dests a.lin (ownReads a.srcs) [] (a.fn s s.cur t)).pend = p
      at h1 h2 h3 h4 h5 h6 h7 h8 ⊢
    have hp : p.live = !(activeLanes t a.h).isEmpty := by
      simp [Pend.live, h2, h3, beq_eq_false_iff_ne.2 hl]
    split
    · simp_all
    · refine ⟨p, by simp_all, h1, h2, h3, ?_, h7, h4, h5, h6⟩
      rw [h8, List.filter_map, List.map_map]
      rfl

/-- An arithmetic word that computes one value and its flags in each lane. -/
theorem alu_computesOne (a : Alu) (i : Instr) (d : Reg) (g : State → Nat → Team → Nat → Word × Flags)
    (hi : ∀ s, exec i s = a.exec s) (hl : a.lat ≠ .token) (hd : a.dests = [d])
    (hg : ∀ s f t l, a.fn s f t l = { vals := [(d, (g s f t l).1)], flags := (g s f t l).2 }) :
    ComputesOne i a.h a.lat d g := by
  intro s t hs
  have k := alu_completes a i hi hl s t hs fun l => by rw [hg]
  simpa [hd, hg] using k

/-- A word's values may be said by any equal function. -/
theorem ComputesOne.congr {i : Instr} {h : Hdr} {lat : Lat} {d : Reg} {g g' : State → Nat → Team → Nat → Word × Flags}
    (k : ComputesOne i h lat d g) (e : ∀ s f t l, g s f t l = g' s f t l) : ComputesOne i h lat d g' := by
  rwa [show g' = g from (funext fun s => funext fun f => funext fun t => funext fun l => e s f t l).symm]

-- ===== control and asynchronous words =====

/-- The later of two states of a team stands. -/
@[simp] theorem setTeam_setTeam (s : State) (f : Nat) (t u : Team) : (s.setTeam f t).setTeam f u = s.setTeam f u := by
  simp [State.setTeam]

/-- An operation put into a cluster touches no team. -/
@[simp] theorem pushOp_teams (s : State) (cl : Nat) (x : AsyncOp) (e : Option SbEntry) : (pushOp s cl x e).teams = s.teams := rfl

/-- Nor memory. -/
@[simp] theorem pushOp_mem (s : State) (cl : Nat) (x : AsyncOp) (e : Option SbEntry) : (pushOp s cl x e).mem = s.mem := rfl

/-- A word that queues an operation and ends. -/
theorem pushOp_finish {s : State} {t : Team} (ht : tfind s.teams s.cur = some t) (cl : Nat) (x : AsyncOp) (e : Option SbEntry)
    (ps : List Pend) (h : Hdr) :
    finishWord (pushOp s cl x e) s.cur { pends := ps, sw := h.sw } =
      (pushOp s cl x e).setTeam s.cur (t.issued h (t.pc + 8) (ps.filter Pend.live)) :=
  finishWord_issued (by simpa using ht) ps none h

/-- A matrix-engine word queues its operation with its range-scoreboard entry, or waits for an entry. -/
theorem issueMatrix_spec {i : Instr} {s : State} {t : Team} {h : Hdr} {x : AsyncOp} {r : List Interval} {w : Option Interval}
    {ps : List Pend} (ht : tfind s.teams s.cur = some t) (hi : exec i s = .next (issueMatrix s s.cur t h x r w ps))
    (hps : ps.filter Pend.live = ps) :
    (entriesFree s (s.cur / 48) t.partition 1 = true → Queues i s t h x (some { partition := t.partition, reads := r, write := w }) ps) ∧
    (entriesFree s (s.cur / 48) t.partition 1 ≠ true → AwaitsEntries i s t 1) := by
  constructor
  · intro hf
    simp only [Queues, hi, issueMatrix, clusterOf, hf, Bool.not_true, Bool.false_eq_true, if_false]
    rw [pushOp_finish ht, hps]
  · intro hf
    simp only [AwaitsEntries, Goes, hi, issueMatrix, clusterOf, hf, waitEntries]
    simp

end Sys2Proof.Machine
end

