-- ==== Sys2Proof/Laws/Arith.lean ====
section
/-! SUPPORT. Integers of the arithmetic types: their widths, the range a register is read in, and the bits a result is
written with. -/

namespace Sys2Proof.Machine

theorem tyBits_le (ty : Ty) : ty.bits ≤ 64 := by cases ty <;> decide
theorem tyBits_pos (ty : Ty) : 0 < ty.bits := by cases ty <;> decide

/-- The bits of a result that fills a type's width. -/
theorem putBits_bit (w : Nat) (x : Word) (i : Nat) (h : i < 64) : (putBits w x).getLsbD i = (decide (i < w) && x.getLsbD i) := by
  simp only [putBits, BitVec.getLsbD_ofNat, h, decide_true, Bool.true_and, Nat.testBit_mod_two_pow]
  rfl

/-- An integer read from a register lies in the range of its type. -/
theorem rdInt_range (ty : Ty) (x : Word) : -(2 ^ (ty.bits - 1) : Nat) ≤ rdInt ty x ∧ rdInt ty x < (2 ^ ty.bits : Nat) := by
  have hp := tyBits_pos ty
  have h1 := Nat.mod_lt x.toNat (Nat.two_pow_pos ty.bits)
  have e : 2 ^ ty.bits = 2 * 2 ^ (ty.bits - 1) := by rw [← pow_succ']; congr 1; omega
  unfold rdInt signedOf
  split
  · simp only
    split <;> omega
  · omega

/-- Two's complement of 32 bits, as the model and as the library read it. -/
theorem signedOf_toInt (x : BitVec 32) : signedOf 32 x.toNat = x.toInt := by
  have := x.isLt
  simp only [signedOf, BitVec.toInt_eq_toNat_cond, Nat.mod_eq_of_lt this]
  split <;> split <;> omega

theorem rdInt_s32 (x : Word) : rdInt .s32 x = (x.setWidth 32 : BitVec 32).toInt := by
  rw [← signedOf_toInt]
  simp only [rdInt, Ty.signed, Ty.bits, signedOf, BitVec.toNat_setWidth, Nat.mod_mod, if_true]
  split <;> simp only [*, if_true, if_false]

theorem putInt_s32 (x : Int) : putInt .s32 x = (BitVec.ofInt 32 x).setWidth 64 := by
  simp only [putInt, Ty.bits, wrapNat]
  apply BitVec.eq_of_toNat_eq
  simp

end Sys2Proof.Machine
end

