-- ==== Sys2Proof/Laws/Memory.lean ====
section
/-! SUPPORT. Memory: its canonical form is kept by every operation that writes it, the bookkeeping of the stores between a
cluster and its memory leaves it alone, and a write changes the bytes it names and no others. -/

set_option Elab.async false

namespace Sys2Proof.Machine

-- ===== addressed bytes =====

theorem Tab.wf_putBytes {m : Tab Byte} (ws : List (Nat × Byte)) (h : Tab.wf m 0 = true) : Tab.wf (putBytes m ws) 0 = true := by
  induction ws generalizing m with
  | nil => exact h
  | cons w ws ih => exact ih (Tab.wf_tset _ _ h)

/-- A byte that a list does not name keeps its value. -/
theorem tget_putBytes_ne (m : Tab Byte) (ws : List (Nat × Byte)) {a : Nat} (h : ∀ w ∈ ws, w.1 ≠ a) :
    tget (putBytes m ws) a 0 = tget m a 0 := by
  induction ws generalizing m with
  | nil => rfl
  | cons w ws ih =>
    refine (ih _ fun v hv => h v (List.mem_cons_of_mem _ hv)).trans ?_
    exact tget_tset_ne _ _ _ _ (Ne.symm (h w (List.mem_cons_self ..)))

-- ===== operations that leave memory alone =====

@[simp] theorem countCorr_mem (s : State) (d : Nat) : (countCorr s d).mem = s.mem := rfl
@[simp] theorem countTrans_mem (s : State) (d : Nat) : (countTrans s d).mem = s.mem := rfl
@[simp] theorem countLast_mem (s : State) (d : Nat) : (countLast s d).mem = s.mem := rfl

@[simp] theorem loseBlock_mem (s : State) (b o v : Nat) : (loseBlock s b o v).mem = s.mem := by
  simp only [loseBlock]
  split <;> rfl

@[simp] theorem readBlock_mem (s : State) (b o v : Nat) : (readBlock s b o v).1.mem = s.mem := by
  unfold readBlock
  split
  · rfl
  · split
    · rfl
    · dsimp only
      split <;> simp

@[simp] theorem clearBlock_mem (s : State) (b : Nat) : (clearBlock s b).mem = s.mem := rfl

@[simp] theorem llcPut_mem (s : State) (l : LlcLine) (h : Hint) : (llcPut s l h).mem = s.mem := by
  unfold llcPut
  dsimp only
  repeat' split
  all_goals rfl

@[simp] theorem llcTouch_mem (s : State) (p pa : Nat) (d sh : Bool) (h : Hint) : (llcTouch s p pa d sh h).mem = s.mem := by
  unfold llcTouch
  split
  · exact llcPut_mem ..
  · rfl

@[simp] theorem l1Store_mem (s : State) (cl p : Nat) (ws : List (Nat × Byte)) : (l1Store s cl p ws).mem = s.mem := rfl

/-- A fold whose every step leaves memory alone leaves it alone. -/
theorem foldl_mem {α : Type} (f : State → α → State) (h : ∀ b x, (f b x).mem = b.mem) (xs : List α) (b : State) :
    (xs.foldl f b).mem = b.mem := by
  induction xs generalizing b with
  | nil => rfl
  | cons x xs ih => exact (ih _).trans (h b x)

theorem foldl_fst_mem {α β : Type} (f : State × β → α → State × β) (h : ∀ b x, (f b x).1.mem = b.1.mem) (xs : List α)
    (b : State × β) : (xs.foldl f b).1.mem = b.1.mem := by
  induction xs generalizing b with
  | nil => rfl
  | cons x xs ih => exact (ih _).trans (h b x)

@[simp] theorem readBlocks_mem (s : State) (pa n o v : Nat) : (readBlocks s pa n o v).1.mem = s.mem := by
  unfold readBlocks
  refine foldl_fst_mem _ (fun _ _ => ?_) _ _
  simp

-- ===== operations that write memory =====

/-- What a write to home memory leaves there: the bytes of the blocks that are not lost. -/
theorem homeWriteHint_mem (s : State) (cl p : Nat) (ws : List (Nat × Byte)) (va : Nat → Nat) (h : Hint) :
    (homeWriteHint s cl p ws va h).1.mem =
      putBytes s.mem (ws.filter fun w => !(homeWriteHint s cl p ws va h).2.contains (w.1 / 32)) := by
  unfold homeWriteHint
  extract_lets go
  have e : ∀ r b, (go r b).1.mem = r.1.mem := fun r b => by
    simp only [go]
    split <;> simp
  have k := foldl_fst_mem go e (blocksOf 32 ws) (s, [])
  generalize (blocksOf 32 ws).foldl go (s, []) = r at k ⊢
  dsimp only
  rw [foldl_mem _ fun _ _ => llcTouch_mem .., l1Store_mem, k]

/-- A write to home memory changes no byte that it does not name. -/
theorem homeWriteHint_frame (s : State) (cl p : Nat) (ws : List (Nat × Byte)) (va : Nat → Nat) (hint : Hint) {a : Nat}
    (h : ∀ w ∈ ws, w.1 ≠ a) : tget (homeWriteHint s cl p ws va hint).1.mem a 0 = tget s.mem a 0 := by
  rw [homeWriteHint_mem]
  exact tget_putBytes_ne _ _ fun w hw => h w (List.mem_of_mem_filter hw)

theorem homeWriteHint_memOk {s : State} (cl p : Nat) (ws : List (Nat × Byte)) (va : Nat → Nat) (hint : Hint) (h : s.memOk) :
    (homeWriteHint s cl p ws va hint).1.memOk := by
  unfold State.memOk Memory.wf
  rw [homeWriteHint_mem]
  exact Tab.wf_putBytes _ h

theorem homeWriteAt_memOk {s : State} (cl p : Nat) (ws : List (Nat × Byte)) (va : Nat → Nat) (h : s.memOk) :
    (homeWriteAt s cl p ws va).1.memOk := homeWriteHint_memOk _ _ _ _ _ h

theorem homeWrite_memOk {s : State} (cl p : Nat) (ws : List (Nat × Byte)) (va : Nat) (h : s.memOk) :
    (homeWrite s cl p ws va).1.memOk := homeWriteAt_memOk _ _ _ _ h

theorem homeStore_memOk {s : State} (cl p pa x n va : Nat) (h : s.memOk) : (homeStore s cl p pa x n va).1.memOk :=
  homeWrite_memOk _ _ _ _ h

theorem memSet_memOk {s : State} (pa x n : Nat) (h : s.memOk) : (memSet s pa x n).memOk := Tab.wf_bytesSet _ _ _ h

/-- A number written to home memory is read there. -/
theorem memGet_memSet (s : State) (pa x n : Nat) : memGet (memSet s pa x n) pa n = x % 256 ^ n := bytesGet_bytesSet _ _ _ _

/-- And no byte outside it changes. -/
theorem memSet_frame (s : State) (pa x n a : Nat) (h : a < pa ∨ pa + n ≤ a) :
    tget (memSet s pa x n).mem a 0 = tget s.mem a 0 := tget_bytesSet_ne _ _ _ _ _ h

theorem scramble_memOk {s : State} (pas : List Nat) (h : s.memOk) : (scramble s pas).memOk := by
  induction pas generalizing s with
  | nil => exact h
  | cons pa pas ih => exact ih (Tab.wf_tset _ _ h)

theorem loadTeam_mem (s : State) : (loadTeam s).mem = bytesSet (bytesSet s.mem 0x1000 0x2001 8) 0x2000 0xF 8 := by
  simp only [loadTeam]

theorem loadTeam_memOk {s : State} (h : s.memOk) : (loadTeam s).memOk := by
  unfold State.memOk Memory.wf
  rw [loadTeam_mem]
  exact Tab.wf_bytesSet _ _ _ (Tab.wf_bytesSet _ _ _ h)

theorem loadWord_memOk {s : State} (w : Nat) (h : s.memOk) : (loadWord s w).memOk := by
  unfold loadWord
  split
  · exact memSet_memOk _ _ _ h
  · exact memSet_memOk _ _ _ (loadTeam_memOk h)

/-- The part of memory that a reset keeps. -/
theorem kept_memOk {s : State} (keep : Nat × Byte → Bool) (h : s.memOk) : Memory.wf (s.mem.filter keep) = true :=
  Tab.wf_filter _ h

theorem ite_memOk {c : Prop} [Decidable c] {s u : State} (hs : s.memOk) (hu : u.memOk) : (if c then s else u).memOk := by
  split
  · exact hs
  · exact hu

theorem execPackageReset_memOk {s s' : State} (h : s.memOk) (e : execPackageReset s = .next s') : s'.memOk := by
  simp only [execPackageReset, drawFree, Host.Outcome.next.injEq] at e
  subst e
  exact ite_memOk (kept_memOk _ h) (kept_memOk _ h)

/-- The memory of the machine at reset lists nothing. -/
theorem reset_memOk : State.reset.memOk := rfl

end Sys2Proof.Machine
end

