-- ==== Sys2Proof/Laws/Step.lean ====
section
/-! SUPPORT. What a step comes to: the issue of a word by the team that holds the datapath, and the fetch of the word. -/

set_option Elab.async false

namespace Sys2Proof.Machine

@[simp] theorem mayIssue_turn (s : State) (x : Turn) (t : Team) : mayIssue { s with turn := x } t = mayIssue s t := rfl

/-- The step of a team that may issue, its due results having landed. -/
theorem step_issue {s s1 : State} {f : Nat} {t u : Team} (ht : s.turn = .issue f) (hf : tfind s.teams f = some t)
    (hm : mayIssue s t = true) (hl : landAt { s with turn := .free } f t.issues = s1) (hu : tfind s1.teams f = some u) :
    step s = match issueFrom s1 f u with
      | .run s2 i => exec i s2
      | .done s2 => .next s2 := by
  have h : issueWord { s with turn := .free } f = issueFrom s1 f u := by
    simp only [issueWord, hf, mayIssue_turn, hm, Bool.not_true, Bool.false_eq_true, if_false, hl, hu]
  simp only [step, ht, h]
  all_goals (cases issueFrom s1 f u <;> rfl)

/-- A step of a team that may not issue only gives the datapath back. -/
theorem step_noIssue {s : State} {f : Nat} (ht : s.turn = .issue f) (h : ∀ t, tfind s.teams f = some t → mayIssue s t = false) :
    step s = .next { s with turn := .free } := by
  have h : issueWord { s with turn := .free } f = .done { s with turn := .free } := by
    unfold issueWord
    split
    · rfl
    · rename_i t hf
      simp only [mayIssue_turn, h t hf, Bool.not_false, if_true]
  simp only [step, ht, h]

/-- Reads where no block has an error change nothing. -/
theorem readBlocks_sound (s : State) (pa n o v : Nat) (h1 : s.latent = []) (h2 : s.lost = []) :
    readBlocks s pa n o v = (s, false) := by
  unfold readBlocks
  generalize List.range ((pa % 32 + n + 31) / 32) = l
  suffices h : ∀ l : List Nat, l.foldl (fun (r : State × Bool) (i : Nat) =>
      let q := readBlock r.1 (pa / 32 + i) o (if i = 0 then v else v / 32 * 32 + 32 * i)
      (q.1, r.2 || q.2)) (s, false) = (s, false) from h l
  intro l
  induction l with
  | nil => rfl
  | cons x l ih =>
    have e : ∀ v, readBlock s (pa / 32 + x) o v = (s, false) := fun v => by simp [readBlock, h1, h2, tfind]
    rw [List.foldl_cons]
    simp only [e]
    exact ih

/-- The word at a pc within the text, where its memory has no errors. -/
theorem fetchWord_sound {s s1 : State} {t : Team} {pa : Nat} (hx : inText (s.kernelOf t) t.pc = true)
    (hw : walkTranslate s t.partition t.pc .read = (s1, .ok pa)) (h1 : s1.latent = []) (h2 : s1.lost = []) :
    fetchWord s t = (s1, .word (BitVec.ofNat 64 (bytesGet s1.mem pa 8))) := by
  simp [fetchWord, hx, hw, readBlocks_sound s1 pa 8 _ _ h1 h2, memGet]

end Sys2Proof.Machine
end

