-- ==== Sys2Proof/Tests/Slice0.lean ====
section
/-! SUPPORT. Tests: words of the spec and what they decode to, terms that WellFormed refuses, the worked examples of the
chapters, and a witness for the hypotheses of each statement of Certificates/Slice0/Obligations.lean. Each test names
the rule that its expected result is taken from. -/

set_option Elab.async false

namespace Sys2Proof.Tests

open Sys2Proof Sys2Proof.Machine

/-- The guard p0 true, no switch marker. -/
def h0 : Hdr := ⟨false, 0, .isTrue⟩
/-- The guard p1 true. -/
def h1 : Hdr := ⟨false, 1, .isTrue⟩
/-- A float or interval source without modifier. -/
def n (r : BitVec 7) : MSrc := ⟨.n, .v r⟩

-- ===== words and their instructions =====

/-- Every row decodes to its instruction. -/
def decodes (rows : List (BitVec 64 × Instr)) : Bool := rows.all fun r => decode r.1 == .ok r.2

/-- Integer words (R84, R93, R98, R103). -/
theorem test_decode_integer : decodes [
    (0x0480_0501_0203_20CA, .lut3 h0 .b32 0xCA (.v 5) (.v 1) (.v 2) (.v 3)),
    (0x0740_0204_F700_0002, .icmp h0 .s32 .lt 2 (.v 4) (.const 7)),
    (0x3180_5102_FFFF_FFFB, .icmpi h0 .ge 1 (.v 2) 0xFFFF_FFFB)] = true := by decide

/-- Float words (R111, R114). -/
theorem test_decode_float : decodes [
    (0x0D80_0204_0500_C002, .fcmp h0 .f32 .lt 2 (n 4) (n 5)),
    (0x10C0_0201_0000_080C, .cvtfi h0 .s32 .f32 .rdn (.v 2) (n 1))] = true := by decide

/-- Interval words (R132, R133). -/
theorem test_decode_interval : decodes [
    (0x1400_0802_0300_E000, .ivmul h0 (.v 8) (n 2) (n 3)),
    (0x1680_0A04_85C1_E006, .ivbis h0 10 (n 4) 5 (.special .lane) 6)] = true := by decide

/-- Control words (R173, R178, R181, R185 to R189, R191). -/
theorem test_decode_control : decodes [
    (0x3CC0_8400_0000_0000, .brt h0 4 0),
    (0x3D00_8200_FFFF_FFFD, .loop h0 2 0xFFFF_FFFD),
    (0x1980_0402_0300_0001, .pand h0 true false 4 2 3),
    (0x1B40_0502_8300_000C, .shfl h0 true .bcast 5 (.v 2) (.k 3) 0),
    (0x1B84_0301_0000_0000, .scan h1 .s32 false false .add 3 (.v 1)),
    (0x1C80_0286_0000_0000, .vget h0 2 6),
    (0x1D00_0600_0000_0001, .rand h0 .b64 6),
    (0x1E00_0600_0000_0000, .getc h0 (.v 6) 0)] = true := by decide

/-- Memory and copy words (R229, R233, R237, R243). -/
theorem test_decode_memory : decodes [
    (0x2040_0007_1208_0100, .st h0 .gl .w32 .none (.v 7) (.v 18) 0x100),
    (0x2080_0004_0001_0200, .pref h0 .gl .keep (.v 4) 0x200),
    (0x21C0_0986_0000_0000, .tkchk h0 (.v 9) 6),
    (0x2200_8881_0000_0040, .lyset h0 .gl .none 2 (some 1) 0x40),
    (0x2140_8788_8C00_0000, .cpym h0 .gl .none 7 2 12 0)] = true := by decide

/-- Matrix words (R255 to R257). -/
theorem test_decode_matrix : decodes [
    (0x2400_0284_8500_0000, .tdesc h0 2 4 (some 5)),
    (0x2440_0300_0000_0001, .mzero h0 true 3),
    (0x2480_0102_0300_0000, .mma h0 false 1 2 3),
    (0x2480_0102_0300_0001, .mma h0 true 1 2 3)] = true := by decide

/-- Barriers, fences and atomics (R282, R342 to R344). -/
theorem test_decode_sync : decodes [
    (0x2800_00C0_0000_0000, .barMeet h0 0 none),
    (0x2800_0082_0000_0015, .barPost h0 5 (some 2)),
    (0x2800_0000_0000_0025, .barAwait h0 5),
    (0x2A80_0000_0000_0010, .gbarPost h0),
    (0x2A40_0000_0000_0024, .fence h0 .rel .sheet),
    (0x2A00_0502_0607_5724, .atom h0 .b64 .cas .gl .rel .sheet (.v 5) (.v 2) (.v 6) (some (.v 7)))] = true := by decide

/-- Queue, supervisor and fabric words (R350 to R354, R408, R442, R451, R452). -/
theorem test_decode_system : decodes [
    (0x2AC0_9482_8300_0000, .launch h0 20 2 3),
    (0x2B00_9484_0000_0000, .lcount h0 20 4),
    (0x2B40_8882_8300_0000, .qwork h0 2 2 3),
    (0x2C00_8084_8500_0001, .pctlWr h0 (.k 0) 4 5),
    (0x2C00_0181_8200_0002, .pctlPreempt h0 (.v 1) 1 (some 2)),
    (0x2C00_0281_0000_0005, .pctlReset h0 (.v 2) 1),
    (0x2C40_0384_0000_0000, .tmwait h0 (.v 3) 4),
    (0x2C80_0200_0001_0000, .tget h0 (.v 2) 1),
    (0x2D00_8782_8300_0000, .seal h0 7 2 3)] = true := by decide

/-- A word whose OP no form assigns, and one of the P form with an op7 that R36 leaves unassigned (R32, R36). -/
theorem test_decode_refuses :
    decode 0x3FC0_0000_0000_0000 = .error .illegalEncoding ∧ decode 0x7FFF_FFFF_FFFF_FFFF = .error .illegalPair := by decide

-- ===== terms that WellFormed refuses =====

/-- A pair slot of v registers. -/
def slot (ty cls : Nat) (d b : BitVec 7) : SlotArgs := ⟨d, .v b, .always, BitVec.ofNat 3 ty, .rne, BitVec.ofNat 2 cls⟩

/-- Types outside the lists of R83, R106 and R115. -/
theorem test_illFormed_types : ([
    .iadd h0 .b32 false (.v 1) (.v 2) (.v 3), .isub h0 .f32 false (.v 1) (.v 2) (.v 3), .imul h0 .s16 false (.v 1) (.v 2) (.v 3),
    .imulh h0 .b64 (.v 1) (.v 2) (.v 3), .imad h0 .n8 false (.v 1) (.v 2) (.v 3) (.v 4), .imadw h0 .s64 (.v 1) (.v 2) (.v 3) (.v 4),
    .idiv h0 .b32 false (.v 1) (.v 2) (.v 3), .imin h0 .b32 (.v 1) (.v 2) (.v 3), .imax h0 .f64 (.v 1) (.v 2) (.v 3),
    .iclamp h0 .b32 (.v 1) (.v 2) (.v 3) (.v 4), .iaddx h0 .s32 false none (.v 1) (.v 2) (.v 3) 1, .iabs h0 .n32 false (.v 1) (.v 2),
    .ineg h0 .n64 false (.v 1) (.v 2), .sar h0 .n32 (.v 1) (.v 2) (.v 3), .land h0 .s32 (.v 1) (.v 2) (.v 3),
    .lor h0 .n32 (.v 1) (.v 2) (.v 3), .lxor h0 .s64 (.v 1) (.v 2) (.v 3), .andn h0 .f32 (.v 1) (.v 2) (.v 3),
    .lut3 h0 .s32 0 (.v 1) (.v 2) (.v 3) (.v 4), .shl h0 .s32 (.v 1) (.v 2) (.v 3), .shr h0 .s32 (.v 1) (.v 2) (.v 3),
    .fshl h0 .n64 (.v 1) (.v 2) (.v 3) (.v 4), .popc h0 .s32 (.v 1) (.v 2), .clz h0 .n32 (.v 1) (.v 2), .ctz h0 .n32 (.v 1) (.v 2),
    .brev h0 .n32 (.v 1) (.v 2), .mov h0 .iv (.v 1) (.v 2), .bfx h0 .b32 (.v 1) (.v 2) (.v 3) (.v 4),
    .bfi h0 .s32 (.v 1) (.v 2) (.v 3) (.v 4), .bperm h0 .s32 (.v 1) (.v 2) (.v 3) (.v 4), .sel h0 .s32 .uf (.v 1) (.v 2) (.v 3) 1,
    .lea h0 .b32 0 (.v 1) (.v 2) (.v 3), .icmp h0 .b32 .lt 1 (.v 2) (.v 3), .cvti h0 .f32 .s32 false (.v 1) (.v 2),
    .fadd h0 .s32 .rne (.v 1) (n 2) (n 3), .fsub h0 .b32 .rne (.v 1) (n 2) (n 3), .fmul h0 .iv .rne (.v 1) (n 2) (n 3),
    .ffma h0 .n8 .rne (.v 1) (n 2) (n 3) (n 4), .fmin h0 .s8 (.v 1) (n 2) (n 3), .fmax h0 .iv (.v 1) (n 2) (n 3),
    .fcmp h0 .s32 .eq 1 (n 2) (n 3), .fdiv h0 .s32 .rne (.v 1) (n 2) (n 3), .fsqrt h0 .b32 .rne (.v 1) (n 2),
    .fclass h0 .s32 (.v 1) (n 2), .fscale h0 .s32 .rne (.v 1) (n 2) (.v 3), .cvtf h0 .s32 .f32 .rne (.v 1) (n 2),
    .cvtfi h0 .b32 .f32 .rne (.v 1) (n 2), .cvtif h0 .f32 .b32 .rne (.v 1) (.v 2), .fdot2 h0 .f32 .rne (.v 1) (.v 2) (.v 3) (n 4),
    .scan h0 .b32 false false .add 1 (.v 2), .redl h0 .f32 false .and (.v 1) (.v 2), .matchLanes h0 .s32 1 (.v 2),
    .atom h0 .f32 .min .gl .rlx .grid (.v 1) (.v 2) (.v 3) none] : List Instr).all (fun i => !i.wellFormed) = true := by decide

/-- Fields that a row forbids (R129, R180, R181, R191, R222, R225, R239, R340). -/
theorem test_illFormed_fields : ([
    .ivsplit h0 1 1 (n 2), .vote h0 true .tmask (.v 1) 1, .shfl h0 true .abs 1 (.v 2) (.v 3) 0, .shfl h0 false .bcast 1 (.v 2) (.v 3) 0,
    .getc h0 (.v 1) 0xE, .setc h0 0 (.v 1), .setcStream h0 7 (.v 1), .ld h0 .sp .w32 .keep (.v 1) (.v 2) 0,
    .st h0 .cn .w32 .none (.v 1) (.v 2) 0, .st h0 .gl .s8 .none (.v 1) (.v 2) 0, .pref h0 .sp .none (.v 1) 0,
    .cpy h0 false false .sp .w32 .none 1 2 3 0, .cpy h0 false false .gl .n8 .none 1 2 3 0, .cpy h0 true false .cn .w32 .none 1 2 3 0,
    .cpy h0 false true .gl .w32 .none 1 2 3 0, .cpyt h0 false .sp .none 1 0 1 0, .cpyt h0 true .cn .none 1 0 1 0,
    .cpym h0 .sp .none 1 0 1 0, .cpys h0 .cn .none 1 0 1 2 0, .lyset h0 .vt .none 0 none 0, .mmab h0 false false 1 0 0 0,
    .qexp h0 false 9 0 1 2 3, .mdrain h0 .sp .none false false 1 0 0 (some 1), .mdrain h0 .gl .none false false 1 0 0 none,
    .atom h0 .b32 .cas .gl .rlx .grid (.v 1) (.v 2) (.v 3) none,
    .atom h0 .s32 .add .sp .rlx .grid (.v 1) (.v 2) (.v 3) none] : List Instr).all (fun i => !i.wellFormed) = true := by decide

/-- Guards other than p0 true, on the words that act once for the team (R38). -/
theorem test_illFormed_guards : ([
    .cvg h1, .rcv h1 0, .brt h1 0 0, .loop h1 0 0, .rkey h1 0 1 none, .rfork h1 0 1, .tdesc h1 0 1 none, .mzero h1 false 0,
    .mma h1 false 0 0 1, .mmab h1 false false 2 0 0 1, .rcount h1 0 1, .rclose h1 false 0 1, .rcomp h1 0 1 2, .rtrans h1 0 1,
    .qcvt h1 0 1 2 3 4, .qexp h1 false 2 0 1 2 3, .ocmp h1 .lt 0 1 2, .mdrain h1 .sp .none false false 1 0 0 none,
    .cpyt h1 false .gl .none 1 0 1 0, .cpym h1 .gl .none 1 0 1 0, .cpys h1 .gl .none 1 0 1 2 0, .lyset h1 .gl .none 0 none 0,
    .barMeet h1 0 none, .barPost h1 0 none, .barAwait h1 0, .rwatchOff h1, .rwatchOn h1, .rwatchClr h1, .fence h1 .rel .grid,
    .gbarMeet h1, .gbarPost h1, .gbarAwait h1, .qwork h1 0 1 2, .pctlRd h1 (.v 1) 1, .pctlWr h1 (.v 1) 1 2,
    .pctlWrQcfg h1 (.v 1) 1 2, .pctlWrQuota h1 (.v 1) 1 2, .pctlWrIfneg h1 (.v 1) 1 2, .pctlWrPwstate h1 (.v 1) 1 2,
    .pctlWrPwcap h1 (.v 1) 1 2, .pctlWrFwin h1 (.v 1) 1 2, .pctlPreempt h1 (.v 1) 1 none, .pctlResume h1 (.v 1) 1,
    .pctlDrain h1 (.v 1) 1, .pctlReset h1 (.v 1) 1, .pctlTlbi h1 (.v 1) 1 none, .tmwait h1 (.v 1) 1, .coll h1 1 2, .seal h1 1 2 3,
    .sealOpen h1 1 2 3] : List Instr).all (fun i => !i.wellFormed) = true := by decide

/-- What R31 and R104 refuse in a pair word: an operation's type, its cls, its rounding, one register as both destinations, two
special operations, and more than two reads of one register bank; beside one pair that they allow. -/
theorem test_illFormed_pairs : (([
    .iaddPairSlot false (slot 2 0 1 2) ⟨.imul, slot 0 0 3 4⟩, .shlPairSlot false (slot 2 1 1 2) ⟨.imul, slot 0 0 3 4⟩,
    .fminPairSlot false { slot 0 0 1 2 with rnd := .rup } ⟨.imul, slot 0 0 3 4⟩, .iaddPairSlot false (slot 0 0 1 2) ⟨.imul, slot 0 0 1 4⟩,
    .frcpPairSlot false (slot 0 0 1 2) ⟨.flg2, slot 0 0 3 4⟩, .iaddPairSlot false (slot 0 0 1 5) ⟨.imul, slot 0 0 9 4⟩] :
    List Instr).all (fun i => !i.wellFormed)) = true ∧
    (Instr.iaddPairSlot false (slot 0 1 1 2) ⟨.imul, slot 0 0 3 4⟩).wellFormed = true := by decide

-- ===== a machine for tests =====

/-- The machine with one block of one team of 32 lanes, granted the datapath (log 10). -/
def start : State := loadTeam State.reset

/-- Its team. -/
def team0 : Team := startTeam { id := 1, kernel := loadedKernel } 0 0 0

/-- The machine with values of v and k registers and of predicates: (register, lane, value) for v and p. -/
def machine (v : List (Nat × Nat × Word)) (k : List (Nat × Word) := []) (p : List (Nat × Nat × BitVec 2) := []) : State :=
  start.setTeam 0 { team0 with
    v := v.foldl (fun m x => tset m (laneKey x.1 x.2.1) x.2.2 0) []
    k := k.foldl (fun m x => tset m x.1 x.2 0) []
    p := p.foldl (fun m x => tset m (laneKey x.1 x.2.1) x.2.2 0) [] }

/-- The state after an instruction; the state before it where it stops. -/
def after (i : Instr) (s : State) : State :=
  match exec i s with
  | .next u => u
  | _ => s

/-- What an instruction leaves in flight: (register, lane, value), and its flags. -/
def gives (i : Instr) (s : State) : List (Reg × Nat × Word) × Flags :=
  match tfind (after i s).teams 0 with
  | some t => (t.pend.flatMap fun p => p.writes.flatMap fun w => w.vals.map fun v => (w.reg, v.1, v.2),
      Flags.union (t.pend.map (·.flags)))
  | none => ([], 0)

/-- The value in flight for a register in a lane. -/
def lane (i : Instr) (s : State) (r : Reg) (l : Nat) : Option Word := ((gives i s).1.find? fun x => x.1 == r && x.2.1 == l).map (·.2.2)

-- ===== worked examples =====

/-- R88: 0xFFFF_FFF0 + 0x20 under .sat writes 0xFFFF_FFFF and sets SA; without it, 0x10 and no flag. -/
theorem test_iadd_saturates :
    let s := machine [(2, 0, 0xFFFF_FFF0), (3, 0, 0x20)]
    lane (.iadd h0 .n32 true (.v 1) (.v 2) (.v 3)) s (.v 1) 0 = some 0xFFFF_FFFF ∧
    (gives (.iadd h0 .n32 true (.v 1) (.v 2) (.v 3)) s).2 = 0x20 ∧
    lane (.iadd h0 .n32 false (.v 1) (.v 2) (.v 3)) s (.v 1) 0 = some 0x10 ∧
    (gives (.iadd h0 .n32 false (.v 1) (.v 2) (.v 3)) s).2 = 0 := by decide +kernel

/-- R89: the two lines of the 64-bit addition. -/
theorem test_iaddx_carries :
    let i := Instr.iaddx h0 .n32 false none (.v 5) (.v 0) (.v 1) 1
    let s := machine [(0, 0, 0xFFFF_FFFF), (1, 0, 1)]
    let j := Instr.iaddx h0 .n32 false (some 1) (.v 6) (.v 2) (.v 3) 2
    let u := machine [(2, 0, 2), (3, 0, 3)] [] [(1, 0, 1)]
    lane i s (.v 5) 0 = some 0 ∧ lane i s (.p 1) 0 = some 1 ∧ lane j u (.v 6) 0 = some 6 ∧ lane j u (.p 2) 0 = some 0 := by
  decide +kernel

/-- R90: -7 / 2, 5 / 0 and the least value by -1. -/
theorem test_idiv_table :
    let q := fun (a b : Word) => lane (.idiv h0 .s32 false (.v 1) (.v 2) (.v 3)) (machine [(2, 0, a), (3, 0, b)]) (.v 1) 0
    let r := fun (a b : Word) => lane (.idiv h0 .s32 true (.v 1) (.v 2) (.v 3)) (machine [(2, 0, a), (3, 0, b)]) (.v 1) 0
    q 0xFFFF_FFF9 2 = some 0xFFFF_FFFD ∧ r 0xFFFF_FFF9 2 = some 0xFFFF_FFFF ∧ q 5 0 = some 0xFFFF_FFFF ∧ r 5 0 = some 5 ∧
    q 0x8000_0000 0xFFFF_FFFF = some 0x8000_0000 ∧ r 0x8000_0000 0xFFFF_FFFF = some 0 := by decide +kernel

/-- R96: bfx.s32 of 0x0F00 with pos 8 and len 4, and with a field clipped at pos 30. -/
theorem test_bfx_extends :
    let x := fun (a p z : Word) => lane (.bfx h0 .s32 (.v 1) (.v 2) (.v 3) (.v 4)) (machine [(2, 0, a), (3, 0, p), (4, 0, z)]) (.v 1) 0
    x 0xF00 8 4 = some 0xFFFF_FFFF ∧ x 0x4000_0000 30 8 = some 1 := by decide +kernel

/-- R97: 0x0123 reverses the bytes of A. -/
theorem test_bperm_reverses :
    lane (.bperm h0 .b32 (.v 1) (.v 2) (.v 3) (.v 4)) (machine [(2, 0, 0x0403_0201), (4, 0, 0x0123)]) (.v 1) 0 = some 0x0102_0304 := by
  decide +kernel

/-- R100: cvti.s8.s32 of 300 and -200, with and without .sat. -/
theorem test_cvti_table :
    let c := fun (sat : Bool) (a : Word) => gives (.cvti h0 .s8 .s32 sat (.k 1) (.v 2)) (machine [(2, 0, a)])
    c false 300 = ([(.k 1, 0, 0x2C)], 0) ∧ c true 300 = ([(.k 1, 0, 0x7F)], 0x20) ∧
    (c false 0xFFFF_FF38).1 = [(.k 1, 0, 56)] ∧ (c true 0xFFFF_FF38).1 = [(.k 1, 0, 0xFFFF_FF80)] := by decide +kernel

/-- R102: lea.x4.s32 of -1. -/
theorem test_lea_negative_index :
    lane (.lea h0 .s32 2 (.v 3) (.k 2) (.v 1)) (machine [(1, 0, 0xFFFF_FFFF)] [(2, 0x0000_0040_0000_0100)]) (.v 3) 0 =
      some 0x0000_0040_0000_00FC := by decide +kernel

/-- R99: the three lanes of the example, under .uf and .uk. -/
theorem test_sel_three_lanes :
    let s := machine [(1, 0, 10), (1, 1, 10), (1, 2, 10), (2, 0, 20), (2, 1, 20), (2, 2, 20)] [] [(3, 0, 0), (3, 1, 1), (3, 2, 2)]
    let f := fun (p : SelPol) (l : Nat) => lane (.sel h0 .b32 p (.v 7) (.v 1) (.v 2) 3) s (.v 7) l
    [f .uf 0, f .uf 1, f .uf 2] = [some 20, some 10, some 20] ∧ [f .uk 0, f .uk 1, f .uk 2] = [some 20, some 10, none] := by
  decide +kernel

/-- R109: the ffma example in .rne and .rup. -/
theorem test_ffma_rounds_once :
    let f := fun (r : Rnd) => gives (.ffma h0 .f32 r (.k 1) (n 2) (n 3) (n 4))
      (machine [(2, 0, 0x3F80_0001), (3, 0, 0x3F80_0001), (4, 0, 0xBF80_0000)])
    f .rne = ([(.k 1, 0, 0x3480_0000)], 0x10) ∧ (f .rup).1 = [(.k 1, 0, 0x3480_0001)] := by decide +kernel

/-- R114: cvtfi.s32.f32 of -2.5 in the four modes, each inexact, and of 3.0 × 10^9. -/
theorem test_cvtfi_modes :
    let f := fun (r : Rnd) (x : Word) => gives (.cvtfi h0 .s32 .f32 r (.k 1) (n 2)) (machine [(2, 0, x)])
    ([.rne, .rtz, .rdn, .rup].map fun r => f r 0xC020_0000) =
      ([0xFFFF_FFFE, 0xFFFF_FFFE, 0xFFFF_FFFD, 0xFFFF_FFFE].map fun x => ([(.k 1, 0, x)], 0x10)) ∧
    f .rne 0x4F32_D05E = ([(.k 1, 0, 0x7FFF_FFFF)], 1) := by decide +kernel

/-- R115: the fdot2 example. -/
theorem test_fdot2_exact :
    gives (.fdot2 h0 .f16 .rne (.k 1) (.v 2) (.v 3) (n 4)) (machine [(2, 0, 0x4000_3C00), (3, 0, 0x3800_4200), (4, 0, 0x3F80_0000)]) =
      ([(.k 1, 0, 0x40A0_0000)], 0) := by decide +kernel

/-- [-2, 3] × [4, 5] = [-10, 15] (R123), and [1, 2] met with [2, 3] is [2, 2] (R127): hi in the upper half. -/
theorem test_interval_products :
    lane (.ivmul h0 (.v 1) (n 2) (n 3)) (machine [(2, 0, 0x4040_0000_C000_0000), (3, 0, 0x40A0_0000_4080_0000)]) (.v 1) 0 =
      some 0x4170_0000_C120_0000 ∧
    lane (.ivmeet h0 false (.v 1) (n 2) (n 3)) (machine [(2, 0, 0x4000_0000_3F80_0000), (3, 0, 0x4040_0000_4000_0000),
      (2, 1, 0x4000_0000_3F80_0000), (3, 1, 0x4040_0000_4000_0000)]) (.v 1) 1 = some 0x4000_0000_4000_0000 := by decide +kernel

/-- R128: the eight relations of [1, 2] and [2, 3]. -/
theorem test_ivcmp_row :
    let s := machine [(2, 0, 0x4000_0000_3F80_0000), (3, 0, 0x4040_0000_4000_0000)]
    ([.eq, .ne, .lt, .le, .gt, .ge, .sub, .inn].map fun r => lane (.ivcmp h0 r 1 (n 2) (n 3)) s (.p 1) 0) =
      [some 2, some 2, some 2, some 1, some 0, some 2, some 0, some 0] := by decide +kernel

/-- R69: U and F is F, U or T is T, not U is U. -/
theorem test_kleene :
    let s := machine [] [] [(1, 0, 2), (2, 0, 0), (3, 0, 1)]
    lane (.pand h0 false false 4 1 2) s (.p 4) 0 = some 0 ∧ lane (.por h0 false false 4 1 3) s (.p 4) 0 = some 1 ∧
    lane (.pnot h0 4 1) s (.p 4) 0 = some 2 := by decide +kernel

/-- The team of the table of R185: p1 F in lanes 2, 5 and 8 to 31, v1 = l + 1, v2 the targets. -/
def tableTeam : State :=
  machine (((List.range 8).map fun l => (1, l, BitVec.ofNat 64 (l + 1))) ++
      [(2, 0, 3), (2, 1, 3), (2, 2, 0), (2, 3, 6), (2, 4, 3), (2, 5, 0), (2, 6, 40), (2, 7, 5)]) []
    ((List.range 32).map fun l => (1, l, if l = 2 ∨ l = 5 ∨ 8 ≤ l then 0 else 1))

/-- R185: the three lines of the table; none where a lane keeps its register. -/
theorem test_scan_and_push_table :
    let row := fun (i : Instr) => (List.range 8).map fun l => lane i tableTeam (.v 3) l
    row (.scan h1 .s32 false false .add 3 (.v 1)) = [some 1, some 3, none, some 7, some 12, none, some 19, some 27] ∧
    row (.scan h1 .s32 false true .add 3 (.v 1)) = [some 0, some 1, none, some 3, some 7, none, some 12, some 19] ∧
    row (.push h1 3 (.v 1) (.v 2)) = [none, none, none, some 5, none, some 8, some 4, none] := by decide +kernel

/-- R186: with k6 = 17, vget copies v17; with k6 = 128 it traps with bad-register. -/
theorem test_vget_indexed :
    lane (.vget h0 2 6) (machine [(17, 0, 99)] [(6, 17)]) (.v 2) 0 = some 99 ∧
    (gives (.vget h0 2 6) (machine [(17, 0, 99)] [(6, 128)])).1 = [] := by decide +kernel

/-- R188, R189: rand moves the position on by one, and the last position traps and moves nothing. -/
theorem test_rand_position :
    let s := fun (p : Nat) => start.setTeam 0 { team0 with position := p }
    let at' := fun (p : Nat) => (tfind (after (.rand h0 .b64 6) (s p)).teams 0).map (·.position)
    at' 0xFF_FFFF_FFFE = some 0xFF_FFFF_FFFF ∧ at' 0xFF_FFFF_FFFF ≠ some 0x100_0000_0000 := by decide +kernel

/-- SHAKE256 of the empty message begins 46 B9 DD 2B 0B A8 8D 13 (FIPS 202, the standard that R188 names). -/
theorem test_shake256_empty : shake256 0 0 % 2 ^ 64 = 0x138D_A80B_2BDD_B946 := by decide +kernel

/-- R172: loop leaves K[C] - 1 in flight and jumps while it is not 0; at 1 it falls through, at 0 it writes nothing. -/
theorem test_loop_counts :
    let f := fun (k : Word) => (gives (.loop h0 2 0xFFFF_FFFD) (start.setTeam 0 { team0 with pc := 0x18, k := [(2, k)] })).1
    let pc := fun (k : Word) => (tfind (after (.loop h0 2 0xFFFF_FFFD) (start.setTeam 0 { team0 with pc := 0x18, k := [(2, k)] })).teams 0).map
      (·.pc)
    f 3 = [(.k 2, 0, 2)] ∧ pc 3 = some 8 ∧ f 1 = [(.k 2, 0, 0)] ∧ pc 1 = some 0x20 := by decide +kernel

/-- R148: a bra taken by lanes 0, 1, 3, 4, 6 and 7 splits: the other lanes wait at the word after it. -/
theorem test_bra_splits :
    ((tfind (after (.bra h1 3) tableTeam).teams 0).map fun t => (t.pc, t.mask, t.stack.map fun e => (e.isJoin, e.addr, e.mask))) =
      some (0x20, 0xDB, [(false, 8, 0xFFFF_FF24)]) := by decide +kernel

/-- R174: exit of every lane ends the team. -/
theorem test_exit_ends :
    ((tfind (after (.exit h0) start).teams 0).map fun t => (t.mask, match t.wait with
      | .ended .. => true
      | _ => false)) = some (0, true) := by decide +kernel

/-- R255: tdesc of the R209 example moved 0x80 rows on. -/
theorem test_tdesc_moves :
    gives (.tdesc h0 2 4 (some 5)) (machine [] [(4, 0x0000_000A_0100_8010), (5, 0x80)]) =
      ([(.t 2, 0, 0x0000_000A_0100_8090)], 0) := by decide +kernel

/-- R354: the five blocks of the table with T = 3, I = 8 and P = 5. -/
theorem test_qwork_table :
    let s := fun (b : Nat) =>
      let u := machine [] [(2, 3), (3, 8)]
      { u with launches := u.launches.map (fun l => { l with blocks := 5 }), blocks := u.blocks.map fun e => (e.1, { e.2 with index := b }) }
    let row := fun (b : Nat) => (gives (.qwork h0 2 2 3) (s b)).1.map fun x => x.2.2.toNat
    (List.range 5).map row = [[0, 5, 0, 0x1_0000_0002], [5, 10, 0x1_0000_0000, 0x2_0000_0003], [10, 15, 0x1_0000_0001, 1],
      [15, 20, 0x2_0000_0001, 0x1_0000_0003], [20, 24, 0x2_0000_0002, 1]] := by decide +kernel

/-- R132: two lanes ask a list with one free slot. Base 4, count word at byte 0 of the window. -/
theorem test_ivbis_worked_case :
    let s := machine [(4, 0, 0x4080_0000_0000_0000), (4, 1, 0x4000_0000_3F80_0000)] [(5, 0x4_0004)] [(1, 0, 1), (1, 1, 1)]
    let i := Instr.ivbis h1 10 (n 4) 5 (.special .lane) 6
    let t := after i s
    lane i s (.v 10) 0 = some 0x4000_0000_0000_0000 ∧ lane i s (.p 6) 0 = some 1 ∧
    lane i s (.v 10) 1 = some 0x4000_0000_3F80_0000 ∧ lane i s (.p 6) 1 = some 0 ∧
    bytesGet (t.cluster 0).sp 0 4 = 1 ∧ bytesGet (t.cluster 0).sp 64 8 = 0x4080_0000_4000_0000 ∧
    bytesGet (t.cluster 0).sp 72 8 = 0 := by decide +kernel

/-- R228: a store is in flight until it is performed, and then its bytes are in memory. -/
theorem test_store_then_performed :
    let s := machine [(7, 0, 0x1234_5678), (18, 0, 0x5000)] [] [(1, 0, 1)]
    let t := after (.st h1 .sp .w32 .none (.v 18) (.v 7) 4) s
    t.accs.length = 1 ∧ bytesGet (t.cluster 0).sp 0x5004 4 = 0 ∧
    bytesGet ((after (.plainSpAccessPerformed ((t.accs.map (·.1)).headD 0)) t).cluster 0).sp 0x5004 4 = 0x1234_5678 := by decide +kernel

-- ===== witnesses: states and operands that meet the hypotheses of each statement =====

/-- The loaded machine's team issues on a sound core. -/
theorem start_issuing : Issuing start team0 := ⟨by decide +kernel, by decide +kernel⟩

theorem mem_of_tfind {α : Type} {t : Tab α} {k : Nat} {x : α} (h : tfind t k = some x) : (k, x) ∈ t := by
  induction t with
  | nil => simp [tfind] at h
  | cons e r ih =>
    obtain ⟨i, y⟩ := e
    by_cases hi : i = k
    · simp_all [tfind]
    · exact List.mem_cons_of_mem _ (ih (by simpa [tfind, hi] using h))

/-- R182: scan.max gives the greater of two values, in either order. -/
theorem test_scan_max_f32 :
    (scanStep .f32 .max 0x3F80_0000 0x4000_0000).1 = 0x4000_0000 ∧ (scanStep .f32 .max 0x4000_0000 0x3F80_0000).1 = 0x4000_0000 := by
  decide +kernel

/-- R20: a small constant 3 supplies 3.0 to an .f32 scan. -/
theorem test_scan_f32_constant : readSrc start 0 team0 (.flt .f32) (.const 3) 0 = 0x4040_0000 := by decide +kernel

/-- A state whose error lists are empty, checked on the clusters that it lists. -/
theorem noErrors (s : State) (h : (s.latent == [] && s.lost == [] && s.clusters.all fun e =>
    e.2.spPoison == [] && e.2.spLatent == [] && e.2.accPoison == [] && e.2.accLatent == []) = true) : NoErrors s := by
  simp only [Bool.and_eq_true, beq_iff_eq, List.all_eq_true] at h
  have hc : ∀ k, (s.cluster k).spPoison = [] ∧ (s.cluster k).spLatent = [] ∧ (s.cluster k).accPoison = [] ∧
      (s.cluster k).accLatent = [] := fun k => by
    simp only [State.cluster, tget_eq_tfind]
    cases hk : tfind s.clusters k with
    | none => simp
    | some c =>
      have := h.2 _ (mem_of_tfind hk)
      simpa using ⟨this.1.1.1, this.1.1.2, this.1.2, this.2⟩
  exact ⟨h.1.1, h.1.2, fun k => ⟨(hc k).1, (hc k).2.1⟩, fun k => ⟨(hc k).2.2.1, (hc k).2.2.2⟩⟩

/-- The team's registers and other parts replaced. -/
def withTeam (g : Team → Team) : State := start.setTeam 0 (g team0)

/-- An issuing team, checked on a concrete state. -/
theorem issuing (s : State) (t : Team) (h : (tfind s.teams s.cur == some t && (s.core (coreOf s.cur)).rowPoison == [] &&
    (s.core (coreOf s.cur)).rowGone == []) = true) : Issuing s t := by
  simp only [Bool.and_eq_true, beq_iff_eq] at h
  exact ⟨h.1.1, h.1.2, h.2⟩

/-- The word nop. -/
def nop : BitVec 64 := 0x1800_0000_0000_0000

theorem witness_EveryWordRoundTrips : Instr.wellFormed (.nop h0) = true ∧ decode nop = .ok (.nop h0) := by decide

/-- The first step after a word is placed issues it. -/
theorem witness_StepIssuesTheDecodedWord :
    let s := State.reset.withFetchWord 64 nop.toNat
    let s1 := landAt { s with turn := .free } 0 team0.issues
    let w := walkTranslate s1 0 0 .read
    s.turn = .issue 0 ∧ tfind s.teams 0 = some team0 ∧ mayIssue s team0 = true ∧ tfind s1.teams 0 = some team0 ∧
    lanesGone team0 = false ∧ inText (s1.kernelOf team0) team0.pc = true ∧ w.2 = .ok 0 ∧ w.1.latent = [] ∧ w.1.lost = [] ∧
    decode (BitVec.ofNat 64 (bytesGet w.1.mem 0 8)) = .ok (.nop h0) ∧ launchAllows (w.1.kernelOf team0) (.nop h0) = true ∧
    wordStalls w.1 team0 (refine team0 (.nop h0)) = false := by decide +kernel

/-- A step from State.reset with a word placed runs it: nop advances the pc. -/
theorem test_withFetchWord_runs : (match step (State.reset.withFetchWord 64 nop.toNat) with
    | .next s => (tfind s.teams 0).map fun t => (t.pc, t.issues)
    | _ => none) = some (8, 1) := by decide +kernel

/-- R32: a pc outside the text; a word that no instruction has; a text that no page maps; a text whose block is lost. -/
theorem witness_IllegalWordsTrap :
    let s := start.setTeam 0 { team0 with pc := 8 }
    let word := fun (s : State) => landAt { s with turn := .free } 0 0
    let z := State.reset.withFetchWord 64 0x3FC0_0000_0000_0000
    let unmapped := { start with partitions := [] }
    let lost := { start with lost := [0] }
    inText ((word s).kernelOf { team0 with pc := 8 }) 8 = false ∧ mayIssue s { team0 with pc := 8 } = true ∧
    (fetchWord (word z) team0).2 = .word 0x3FC0_0000_0000_0000 ∧ inText ((word z).kernelOf team0) 0 = true ∧
    (walkTranslate (word unmapped) 0 0 .read).2 = .error .pageFault ∧
    (walkTranslate (word lost) 0 0 .read).2 = .ok 0 ∧ (readBlocks (walkTranslate (word lost) 0 0 .read).1 0 8 0 0).2 = true := by
  decide +kernel

theorem witness_ResetRegisters : State.reset.bexile.pendingSec ≠ some 2 := by decide +kernel

theorem witness_StepKeepsMemoryCanonical :
    let s := State.reset.withFetchWord 64 nop.toNat
    s.memOk ∧ (match step s with
      | .next _ => true
      | _ => false) = true := by decide +kernel

theorem witness_IntegerArithmetic : Issuing start team0 := start_issuing
theorem witness_BitwiseLogicAndShifts : Issuing start team0 := start_issuing
theorem witness_CompareSelectConvert : Issuing start team0 := start_issuing
theorem witness_ImmediateWords : Issuing start team0 := start_issuing
theorem witness_PredicateLogic : Issuing start team0 := start_issuing
theorem witness_ControlRegisters :
    Issuing start team0 ∧ team0.partition = 0 ∧
    Issuing (withTeam fun t => { t with partition := 1 }) { team0 with partition := 1 } :=
  ⟨start_issuing, rfl, issuing _ _ (by decide +kernel)⟩

/-- A field of 2 bits at the top of a word, and one of none. -/
theorem witness_BitCountsAndFields :
    Issuing start team0 ∧ min (8 % 256) (Ty.s32.bits - min (30 % 256) Ty.s32.bits) = 2 ∧
    min (8 % 256) (Ty.s32.bits - min (32 % 256) Ty.s32.bits) = 0 := ⟨start_issuing, by decide⟩

/-- The magnitude 1 exactly, and 1 + 2^-26 as a significand with a sticky bit. -/
theorem witness_RoundingIsCorrect :
    (Stands .f32 (fun q => q - 1) 1 0 false ∧ (2 : ℚ) ^ (-23 + (Fmt.f32.fw : Int)) ≤ 1 ∧ (1 : ℚ) < (2 : ℚ) ^ (-23 + (Fmt.f32.fw : Int) + 1)) ∧
    Stands .f32 (fun q => q - (1 + 1 / 2 ^ 26)) (2 ^ 25) (-25) true := by
  norm_num [Stands, Fmt.f32]

theorem witness_FloatArithmetic :
    Issuing start team0 ∧ Fmt.f32.value 0x3F80_0000 = .fin false 0x80_0000 (-23) ∧ FV.fin false 1 0 ≠ .nan ∧ 0 < 1 :=
  ⟨start_issuing, by decide +kernel⟩

/-- 1 below 2, and the zeros of both signs. -/
theorem witness_FloatComparisonsAndConversions :
    Issuing start team0 ∧ Fmt.f32.value 0x3F80_0000 ≠ .nan ∧ FV.lt (.fin false 1 0) (.fin false 2 0) = true ∧
    FV.signBit (.fin true 0 0) = true ∧ FV.signBit (.fin false 0 0) = false :=
  ⟨start_issuing, by decide +kernel, by norm_num [FV.lt, FV.rat], rfl, rfl⟩

/-- The numbers at the ends of each row of R112. -/
theorem witness_TranscendentalSpecialCases :
    Issuing start team0 ∧ (FV.fin true 149 0).rat = (-149 : Int) ∧ (FV.fin false 127 0).rat = (127 : Int) ∧
    128 ≤ (FV.fin false 128 0).rat ∧ (FV.fin true 150 0).rat ≤ -150 ∧ (FV.fin true 1 0).rat < 0 ∧
    (FV.fin false 1 (-149)).rat = (2 : ℚ) ^ (-149 : Int) ∧ (FV.fin false 1 (-1)).rat = (0 : Int) + 1 / 2 :=
  ⟨start_issuing, by norm_num [FV.rat]⟩

/-- A number of .f32, numbers at the limits of its range, and the intervals [1, 2] and [-inf, 1]. -/
theorem witness_IntervalBounds :
    Issuing start team0 ∧ Fmt.f32.value 0x7F7F_FFFF ≠ .nan ∧
    Iv.ofWord 0x4000_0000_3F80_0000 = .proper (.fin false 0x80_0000 (-23)) (.fin false 0x80_0000 (-22)) ∧
    Iv.ofWord 0x3F80_0000_FF80_0000 = .proper (.inf true) (.fin false 0x80_0000 (-23)) ∧ (2 : ℚ) ^ 128 ≤ (FV.fin false 1 128).rat ∧
    (FV.fin true 1 128).rat ≤ -(2 : ℚ) ^ 128 :=
  ⟨start_issuing, by decide +kernel, by decide +kernel, by decide +kernel, by norm_num [FV.rat]⟩

theorem witness_IntervalArithmetic : Issuing start team0 ∧ FV.zero ≠ .nan := ⟨start_issuing, by decide⟩

/-- [1, 1] holds 1, whose root is 1, and [1, 2] holds it as well. -/
theorem witness_IntervalContainment :
    (Iv.ofWord 0x3F80_0000_3F80_0000).Holds 1 ∧ (Iv.ofWord 0x4000_0000_3F80_0000).Holds 1 := by
  have h1 : Iv.ofWord 0x3F80_0000_3F80_0000 = .proper (.fin false 0x80_0000 (-23)) (.fin false 0x80_0000 (-23)) := by decide +kernel
  have h2 : Iv.ofWord 0x4000_0000_3F80_0000 = .proper (.fin false 0x80_0000 (-23)) (.fin false 0x80_0000 (-22)) := by decide +kernel
  rw [h1, h2]
  norm_num [Iv.Holds, FV.atMost, FV.atLeast, FV.rat]

/-- Two lanes whose intervals meet, in every lane of the team. -/
theorem witness_IntervalSets :
    Issuing start team0 ∧ (0 : BitVec 7) ≠ 1 ∧
    ∀ l ∈ activeLanes team0 h0, (ivMeetVal (readIv start 0 team0 (n 2) l) (readIv start 0 team0 (n 3) l)).isSome = true :=
  ⟨start_issuing, by decide, by decide +kernel⟩

/-- Lane 0 meets [0, 1] with [3, 4]; the other lanes meet [0, 0] with itself. -/
theorem witness_EmptyMeetParksItsLane :
    let s := machine [(2, 0, 0x3F80_0000_0000_0000), (3, 0, 0x4080_0000_4040_0000)]
    let t := (tfind s.teams 0).getD {}
    let bad := (activeLanes t h0).filter fun l => !(ivMeetVal (readIv s 0 t (n 2) l) (readIv s 0 t (n 3) l)).isSome
    Issuing s t ∧ t.handler = none ∧ activeLanes t h0 ≠ [] ∧ bad = [0] ∧ t.mask &&& ~~~(laneSet bad) ≠ 0 :=
  ⟨issuing _ _ (by decide +kernel), by decide +kernel⟩

/-- A count of 0 and of 2; a team whose last result is a loop's; taken lanes none, some and all; a ret to address 0 and to one
outside the text. -/
theorem witness_BranchesAndLoops :
    let t := (tfind tableTeam.teams 0).getD {}
    let p : Pend := { issue := 0, lat := L4, writes := [⟨.k 2, [(0, 2)]⟩], isLoop := true, lanes := [0] }
    tfind start.teams start.cur = some team0 ∧ team0.handler = none ∧ loopCount team0 2 = 0 ∧
    loopCount { team0 with k := [(2, 2)] } 2 = 2 ∧ ({ team0 with pend := [p] } : Team).pend.getLast? = some p ∧
    laneSet (activeLanes team0 ⟨false, 1, .isFalse⟩) ≠ 0 ∧ laneSet (activeLanes team0 h1) = 0 ∧
    team0.mask &&& ~~~(laneSet (activeLanes team0 h0)) = 0 ∧ t.mask &&& ~~~(laneSet (activeLanes t h1)) ≠ 0 ∧
    (readK team0 3).toNat < (start.kernelOf team0).text + (start.kernelOf team0).textSize ∧
    ¬(readK { team0 with k := [(3, 8)] } 3).toNat < (start.kernelOf team0).text + (start.kernelOf team0).textSize := by decide +kernel

/-- A text with cvg at 8, and a table at 0x3000 with reconvergence point 8 and the target 0x10. -/
def textMachine : State :=
  let s := memSet (memSet (memSet start 8 ((encode (.cvg h0)).getD 0).toNat 8) 0x3000 (8 + 1 * 2 ^ 32 + 0x4000 * 2 ^ 64) 16) 0x4000 0x10 4
  { s with launches := s.launches.map fun l => { l with kernel := { l.kernel with textSize := 32, tdir := 0x3000 } } }

theorem witness_JoinEntries :
    tfind textMachine.teams textMachine.cur = some team0 ∧ team0.stack.length < 16 ∧
    16 ≤ ({ team0 with stack := List.replicate 16 ⟨false, 0, 1, 1⟩ } : Team).stack.length ∧ (cvgAt textMachine team0 8).2 = true ∧ (cvgAt textMachine team0 16).2 = false ∧
    (brtTarget textMachine team0 0 0).2 = some (8, 0x10) ∧ (brtTarget textMachine team0 0 1).2 = none := by decide +kernel

/-- A stack with a side entry above a join entry, one with the join entry alone, and none; a parked lane; an exit of every lane
above a side entry and above a join entry that keep lanes, and above entries that lose all of theirs. -/
theorem witness_ConvergeAndExit :
    let j : StackEntry := ⟨true, 0, 0xFF, 1⟩
    let e : StackEntry := ⟨false, 8, 0xF, 2⟩
    let u := fun (l : List StackEntry) => ({ team0 with mask := 0xF, stack := l } : Team)
    let left := fun (l : List StackEntry) => l.map fun x => { x with mask := x.mask &&& ~~~(laneSet (activeLanes (u l) h0)) }
    let side : StackEntry := ⟨false, 8, 0xF0, 2⟩
    laneSet (activeLanes (u [e, j]) h0) = 0xF ∧ left [e, side, j] = [{ e with mask := 0 }] ++ side :: [{ j with mask := 0xF0 }] ∧
    left [e, j] = [{ e with mask := 0 }] ++ { j with mask := 0xF0 } :: [] ∧ (∀ x ∈ left [e, { j with mask := 0xF }], x.mask = 0) ∧
    tfind start.teams start.cur = some team0 ∧ team0.parked = [] ∧ team0.stack = [] ∧ e.mask ≠ 0 ∧ e.isJoin = false ∧ j.isJoin = true ∧
    [j] = ([] : List StackEntry) ++ j :: [j].drop 1 ∧ ({ team0 with parked := [(0, ⟨9, 0, [], 0⟩)] } : Team).parked ≠ [] ∧
    laneSet (activeLanes team0 h0) ≠ 0 ∧ team0.mask &&& ~~~(laneSet (activeLanes team0 h0)) = 0 ∧
    (let t := (tfind tableTeam.teams 0).getD {}
     t.mask &&& ~~~(laneSet (activeLanes t h1)) ≠ 0) ∧ laneSet (activeLanes team0 h1) = 0 := by decide +kernel

/-- A partition with a frame area at 0x10000 and a team with a handler, to which a walk has brought the frame's page. -/
def handled : State :=
  (start.setPartition 0 { start.partition 0 with fltb := 0x10000 }).setTeam 0
    { team0 with hdlr := 8, xlat := [⟨1, some 0xF, 30, 0, 0x10000⟩] }

/-- A team that enters its handler and one that leaves it, each with its frame's page brought by a walk and without. -/
theorem witness_HandlerEntryAndReturn :
    let t := { team0 with hdlr := 8, xlat := [⟨1, some 0xF, 30, 0, 0x10000⟩] }
    let i : TrapInfo := { cause := 9, ucode := 5, word := 0 }
    let v : HandlerSave := ⟨team0.mask, 0, [], 0x10000, []⟩
    let u := { t with handler := some v }
    let s := handled.setTeam 0 u
    tfind handled.teams handled.cur = some t ∧ (activeLanes t h0).isEmpty = false ∧
    (activeLanes t h1).isEmpty = true ∧ t.pend = [] ∧ t.handler = none ∧ t.hdlr ≠ 0 ∧
    (handled.partition t.partition).fltb ≠ 0 ∧
    (match frameReach handled 0 t .write (frameAddr handled 0 t) with
      | some (s1, .ok pa) => decide (pa = 0x10000) &&
          (homeWrite s1 0 0 ((frameBytes t i).map fun w => (pa + w.1, w.2)) (frameAddr handled 0 t)).2.isEmpty
      | _ => false) = true ∧
    frameReach handled 0 { t with xlat := [] } .write (frameAddr handled 0 t) = none ∧
    ({ t with pend := [{ issue := 0, lat := .variable, writes := [⟨.k 1, []⟩], lanes := [0] }] } : Team).outstanding = true ∧
    tfind s.teams s.cur = some u ∧ activeLanes u h0 ≠ [] ∧ (readK u 3).toNat = 0 ∧ s.accs = [] ∧
    ((frameReach s 0 u .read 0x10000).bind fun r => (frameRead r u 0x10000).2) = some (0, 0, 0) ∧
    frameReach s 0 { u with xlat := [] } .read 0x10000 = none ∧
    (v.mask ||| laneSet ((v.parked.filter fun e => e.2.masks.contains v.uid).map (·.1))) &&& ~~~u.exited ≠ 0 := by decide +kernel

theorem witness_CrossLaneWords : Issuing tableTeam ((tfind tableTeam.teams 0).getD {}) ∧ (3 : Nat) ∈ activeLanes ((tfind tableTeam.teams 0).getD {}) h1 :=
  ⟨issuing _ _ (by decide +kernel), by decide +kernel⟩

/-- The index 127, below the launch's 128 registers, and 128; the last position and the one before it. -/
theorem witness_IndexedRegistersAndRandomStream :
    let t := { team0 with k := [(6, 127)] }
    let u := { team0 with k := [(6, 128)] }
    Issuing (start.setTeam 0 t) t ∧ Issuing (start.setTeam 0 u) u ∧
    (readK t 6).toNat < ((start.setTeam 0 t).kernelOf t).regs ∧ ((start.setTeam 0 u).kernelOf u).regs ≤ (readK u 6).toNat ∧
    Issuing (start.setTeam 0 { team0 with position := 2 ^ 40 - 1 }) { team0 with position := 2 ^ 40 - 1 } ∧
    Issuing (start.setTeam 0 { team0 with position := 2 ^ 40 - 2 }) { team0 with position := 2 ^ 40 - 2 } :=
  ⟨issuing _ _ (by decide +kernel), issuing _ _ (by decide +kernel), by decide +kernel, by decide +kernel,
    issuing _ _ (by decide +kernel), issuing _ _ (by decide +kernel)⟩

theorem witness_PairWords :
    (Instr.iaddPairSlot false (slot 0 1 1 2) ⟨.imul, slot 0 0 3 4⟩).slots = some (false, ⟨.iadd, slot 0 1 1 2⟩, ⟨.imul, slot 0 0 3 4⟩) ∧
    Issuing start team0 := ⟨by decide, start_issuing⟩

/-- Whether a check of races finds none. -/
def noRace (r : Except Word (Tab RaceRec)) : Bool :=
  match r with
  | .ok _ => true
  | .error _ => false

/-- An address that its size does not divide, one past an empty .cn section and one in a section, one past the address space, and one whose walk has
brought the page of 1 GiB. -/
theorem witness_LaneAddressRules :
    let t := { team0 with xlat := [⟨0, some 0xF, 30, 0, 0⟩] }
    1 % 4 ≠ 0 ∧ 8 % 4 = 0 ∧ (start.kernelOf team0).cnSize < 8 + 4 ∧ 2 ^ 48 ≤ 2 ^ 48 + 8 ∧ windowOf start 0 8 = none ∧
    (let s := { start with launches := start.launches.map fun l => { l with kernel := { l.kernel with cnAddr := 0x5000, cnSize := 64 } } }
     8 + 4 ≤ (s.kernelOf team0).cnSize ∧ (s.kernelOf team0).cnAddr = 0x5000 ∧ (match (walkHeld s 0 0x5008 .read).2 with
       | .ok pa => pa == 0x5008
       | .error _ => false) = true) ∧
    (t.xlat.find? fun x => x.page == 8 / 2 ^ 16) = some ⟨0, some 0xF, 30, 0, 0⟩ ∧ (Leaf.ofNat 0xF).r = true ∧ (Leaf.ofNat 0xF).w = true := by
  decide +kernel

/-- One lane whose access at 4 lies in the window. -/
def oneLane : State := machine [(4, 0, 0x4080_0000_0000_0000), (4, 1, 0x4000_0000_3F80_0000)] [(5, 0x4_0004)] [(1, 0, 1)]

/-- Its team. -/
def oneLaneTeam : Team := (tfind oneLane.teams 0).getD {}

theorem oneLane_issuing : Issuing oneLane oneLaneTeam := issuing _ _ (by decide +kernel)

theorem witness_LoadsAndStoresIssue :
    let place := fun _ : Nat => AccPlace.sp 0 4
    Issuing oneLane oneLaneTeam ∧ NoErrors oneLane ∧ activeLanes oneLaneTeam h1 = [0] ∧
    (∀ need : Need, laneSpot oneLane 0 oneLaneTeam .sp need 4 4 = (oneLane, .found (place 0) 4 0 false)) ∧
    laneSpot oneLane 0 oneLaneTeam .sp .read 1 4 = (oneLane, .found (.sp 0 4) 4 0 false) ∧
    (∀ w : Bool, noRace (raceCheck (oneLane.blockOf oneLaneTeam) 0 w (touches [0] place (fun _ => 4) 4)) = true) :=
  ⟨oneLane_issuing, noErrors _ (by decide +kernel), by decide +kernel, fun need => by cases need <;> decide +kernel,
    by decide +kernel, by decide +kernel⟩

theorem witness_IntervalLoads :
    Issuing oneLane oneLaneTeam ∧ NoErrors oneLane ∧ oneLaneTeam.handler = none ∧ activeLanes oneLaneTeam h1 = [0] ∧ 8 % 8 = 0 ∧
    8 + 8 ≤ 256 * (oneLane.blockOf oneLaneTeam).rows ∧
    accMayPerform oneLane oneLane.seq (laneAcc 0 oneLaneTeam (.load .iv) 8 0 .none false 0 (.sp 0 8) 8 0) = true ∧
    noRace (raceCheck (oneLane.blockOf oneLaneTeam) 0 false (touches [0] (fun _ => .sp 0 8) (fun _ => 8) 8)) = true ∧
    (Iv.ofWord (BitVec.ofNat 64 (bytesGet (oneLane.cluster 0).sp 8 8)) == .illFormed) = false ∧ oneLaneTeam.mask &&& ~~~(laneSet []) ≠ 0 :=
  ⟨oneLane_issuing, noErrors _ (by decide +kernel), by decide +kernel⟩

/-- The first access in flight. -/
def firstAcc (s : State) : Nat × Acc := s.accs.headD (0, laneAcc 0 team0 .store 0 0 .none false 0 (.sp 0 0) 0 0)

/-- Four lanes whose v2 names the four quarters of an error block, on a page that is translated. -/
def fourLanes : State :=
  let s := machine [(2, 0, 0x5000), (2, 1, 0x5008), (2, 2, 0x5010), (2, 3, 0x5018)] [] [(1, 0, 1), (1, 1, 1), (1, 2, 1), (1, 3, 1)]
  s.modTeam 0 fun t => { t with xlat := [⟨0, some 0xF, 30, 0, 0⟩] }

/-- A store to scratchpad in flight, and one to memory. -/
def storing (space : Space) : State :=
  after (.st h1 space .w32 .none .zero (.v 4) 0x5000) (oneLane.setTeam 0 { oneLaneTeam with xlat := [⟨0, some 0xF, 30, 0, 0⟩] })

theorem witness_StoresArePerformed :
    let s := storing .sp
    let a := (firstAcc s).2
    let u := storing .gl
    let b := (firstAcc u).2
    (tfind s.accs (firstAcc s).1 = some a ∧ a.kind = .store ∧ accMayPerform s (firstAcc s).1 a = true ∧ 0 < a.size ∧ a.place = .sp 0 0x5000 ∧
      tfind u.accs (firstAcc u).1 = some b ∧ b.kind = .store ∧ accMayPerform u (firstAcc u).1 b = true ∧ 0 < b.size ∧
      b.place = .home 0x5000 ∧ b.whole = false ∧ 0x5000 + b.size ≤ 0x80000000000) ∧ NoErrors s ∧ NoErrors u ∧
    (let s := after (.st h1 .gl .w64 .none (.v 2) (.v 4) 0) fourLanes
     let a := (firstAcc s).2
     tfind s.accs (firstAcc s).1 = some a ∧ a.whole = true ∧ s.accs.length = 4 ∧ a.place = .home 0x5000 ∧
       (∀ e ∈ s.accs, e.2.whole = true ∧ accMayPerform { s with accs := [] } e.1 e.2 = true)) :=
  ⟨by decide +kernel, noErrors _ (by decide +kernel), noErrors _ (by decide +kernel), by decide +kernel⟩

/-- A load and an atomic in scratchpad, in flight, and the same at home. -/
theorem witness_ReadsAndAtomicsArePerformed :
    let s := after (.ld h1 .sp .w32 .none (.v 1) .zero 4) oneLane
    let a := (firstAcc s).2
    let u := after (.atom h1 .s32 .add .sp .rlx .block (.v 1) .zero (.const 5) none) oneLane
    let b := (firstAcc u).2
    (tfind s.accs (firstAcc s).1 = some a ∧ a.kind = .load .w32 ∧ accMayPerform s (firstAcc s).1 a = true ∧ a.place = .sp 0 4 ∧
      tfind u.accs (firstAcc u).1 = some b ∧ b.kind = .atomic .add .s32 5 0 ∧ b.size = Ty.s32.bits / 8 ∧
      accMayPerform u (firstAcc u).1 b = true ∧ b.place = .sp 0 0) ∧ NoErrors s ∧ NoErrors u ∧
    (∀ i ∈ [Instr.ld h1 .gl .w32 .none (.v 1) (.v 2) 0, .atom h1 .s32 .add .gl .rlx .grid (.v 1) (.v 2) (.const 5) none],
      let s := after i fourLanes
      let a := (firstAcc s).2
      laneAccess s 0 a.issue 0 = some ((firstAcc s).1, a) ∧ a.place = .home 0x5000 ∧ accMayPerform s (firstAcc s).1 a = true ∧
      (((tfind s.teams 0).getD {}).pend.find? fun q => q.issue == a.issue && q.lat == .variable).any (fun p => p.accs != 0) = true ∧
      l1Find s 0 0 none (0x5000 / 256) 0 false = none) :=
  ⟨by decide +kernel, noErrors _ (by decide +kernel), noErrors _ (by decide +kernel), by decide +kernel⟩

/-- An atomic that may issue, and one with a release part behind a store in flight. -/
theorem witness_AtomicsIssue :
    Issuing oneLane oneLaneTeam ∧ NoErrors oneLane ∧ releaseReady oneLane 0 oneLaneTeam .grid = true ∧ oneLaneTeam.lostStore = false ∧
    activeLanes oneLaneTeam h1 ≠ [] ∧ laneSpot oneLane 0 oneLaneTeam .sp .write 4 0 = (oneLane, .found (.sp 0 0) 0 0 false) ∧
    (let s := storing .gl
     let t := (tfind s.teams 0).getD {}
     Issuing s t ∧ t.lostStore = false ∧ releaseReady s 0 t .grid = false) :=
  ⟨oneLane_issuing, noErrors _ (by decide +kernel), by decide +kernel, by decide +kernel, by decide +kernel, by decide +kernel,
    issuing _ _ (by decide +kernel), by decide +kernel⟩

/-- A result of fixed latency 4, one of variable latency and a token, for v5 in two lanes and k1, alone and behind another. -/
theorem witness_ResultsLand :
    let p := fun (l : Machine.Lat) => ({ issue := 0, lat := l, writes := [⟨.v 5, [(0, 7), (1, 8)]⟩, ⟨.k 1, [(0, 9)]⟩] } : Pend)
    ∀ l ∈ [Machine.Lat.fixed 4, .variable, .token], let s := withTeam fun t => { t with pend := [p l] }
      tfind s.teams 0 = some { team0 with pend := [p l] } ∧ (p l).acq = none ∧ (p l).tags = [] ∧ (∀ w ∈ (p l).writes, w.reg ≠ .p 0) ∧
      ((p l).writes.map (·.reg)).Nodup ∧ (∀ w ∈ (p l).writes, (w.vals.map (·.1)).Nodup) ∧
      (∀ w ∈ (p l).writes, ∀ x ∈ w.vals, x.1 < 1024) ∧ (p l).accs = 0 ∧ (∀ w ∈ (p l).writes, w.vals ≠ []) ∧ [p l] = [] ++ p l :: [] ∧
      (let q : Pend := { issue := 7, lat := .variable }
       [q, p l] = [q] ++ p l :: [] ∧ q.issue ≠ (p l).issue) := by decide +kernel

/-- One lane that asks a list with one free slot, at 64, whose count word is at 0. -/
theorem witness_BisectionAppends :
    Issuing oneLane oneLaneTeam ∧ NoErrors oneLane ∧ activeLanes oneLaneTeam h1 = [0] ∧
    (let q := readK oneLaneTeam 5
     let b := oneLane.blockOf oneLaneTeam
     (q.extractLsb' 38 20).toNat = 0 ∧ (q.extractLsb' 18 20).toNat = 1 ∧ (q.extractLsb' 0 18).toNat = 4 ∧ 0 + 4 ≤ 256 * b.rows ∧
     bytesGet (oneLane.cluster 0).sp 0 4 = 0 ∧ 64 + 16 ≤ 256 * b.rows ∧ (64 + 16 ≤ 0 ∨ 0 + 4 ≤ 64) ∧
     (∀ x ∈ [(0, 4), (64, 16)], accMayPerform oneLane oneLane.seq
       (laneAcc 0 oneLaneTeam .store x.2 0 .none false 0 (.sp 0 x.1) x.1 0) = true) ∧
     noRace (raceCheck b 0 true ((windowGranules 64 16).map fun g => (0, g))) = true) :=
  ⟨oneLane_issuing, noErrors _ (by decide +kernel), by decide +kernel⟩

/-- A pending slot on an aligned address whose page a walk has brought, the same without, one on an address that is no multiple
of 64, one behind an atomic's acquire, one behind a load of its bytes, and one whose walk is under way. -/
theorem witness_TokensAndLayoutSlots :
    let s := fun (a : Nat) (known : Bool) => withTeam fun t => { t with
      slots := [(2, ⟨.pending, 0, a, false, .none, 1, if known then [⟨0, some 0xF, 30, 0, 0⟩] else []⟩)] }
    let u := fun (a : Nat) (known : Bool) => (tfind (s a known).teams 0).getD {}
    let x := fun (a : Nat) (known : Bool) => tget (u a known).slots 2 {}
    Issuing start team0 ∧ (tget team0.slots 2 {}).state ≠ .pending ∧ tfind (s 0x40 true).teams 0 = some (u 0x40 true) ∧
    (x 0x40 true).state = .pending ∧ (s 0x40 true).accs = [] ∧ (s 0x40 true).walks = [] ∧ (s 0x40 true).retiring = [] ∧
    (match slotRead (s 0x40 true) 0 (u 0x40 true) (x 0x40 true) with
      | some (s1, some _) => tfind s1.teams 0 == some (u 0x40 true)
      | _ => false) = true ∧
    slotRead (s 0x40 false) 0 (u 0x40 false) (x 0x40 false) = none ∧ (x 0x41 true).addr % 64 ≠ 0 ∧
    (u 0x40 true).pend = [] ∧ (x 0x40 true).issue = 1 ∧
    (let q : Pend := { issue := 0, lat := .variable, acq := some .grid }
     q.acq ≠ none ∧ q.issue < 1) ∧
    (let a := laneAcc 0 team0 (.load .w32) 4 0 .none false 0 (.home 0x48) 0x48 0
     a.team = 0 ∧ a.issue < 1 ∧ a.place = .home 0x48 ∧ slotPlace (s 0x40 true) 0 (u 0x40 true) (x 0x40 true) = some 0x40 ∧
     0x48 < 0x40 + 64 ∧ 0x40 < 0x48 + a.size) ∧
    (let w := { s 0x40 false with walks := [(3, { die := 0, partition := 0, page := 0, teams := [], others := [.slot 0 2] })] }
     ∃ e ∈ w.walks, .slot 0 2 ∈ e.2.others) :=
  ⟨start_issuing, by decide +kernel⟩

/-- A descriptor of a format code, rows, cols and pitch, at a base (R207). -/
def tileWord (base code rows cols pitch : Nat) : Word :=
  BitVec.ofNat 64 (base + code * 2 ^ 14 + rows * 2 ^ 18 + cols * 2 ^ 26 + pitch * 2 ^ 34)

/-- A team with tiles: 1 to 3 of .f32, 4 and 5 of .rel, 6 of .s32, 7 and 8 of .bp, 9 an .f32 row, 10 of .s32, 14 an .iv row. -/
def tileTeam : Team := { team0 with t := [
  (1, tileWord 0 2 16 16 1), (2, tileWord 16 2 16 16 1), (3, tileWord 32 2 16 16 1), (4, tileWord 48 6 16 16 1),
  (5, tileWord 64 6 16 16 1), (6, tileWord 80 3 1 16 1), (7, tileWord 96 5 64 64 2), (8, tileWord 300 5 64 64 2),
  (9, tileWord 500 2 1 16 1), (10, tileWord 501 3 16 16 1), (11, tileWord 600 2 64 64 2), (12, tileWord 800 6 64 64 1),
  (13, tileWord 900 6 16 8 1), (14, tileWord 520 4 1 16 1)] }

/-- The machine with it. -/
def tileMachine : State := start.setTeam 0 tileTeam

/-- Tiles that each matrix word accepts, a block that holds accumulators, and a free entry; an invalid tile, accumulators in the
other mode, a block without them, and no free entry. -/
theorem witness_MatrixWordsIssue :
    Issuing tileMachine tileTeam ∧
    (let T := fun (r : BitVec 4) => tileOf tileTeam r
     let ok := fun (r : BitVec 4) => (T r).ok (tileMachine.blockOf tileTeam).rows
     (∀ r ∈ [1, 2, 3, 4, 5, 6, 7, 8, 9, 10, 11, 12, 13], ok r = true) ∧ ok 0 = false ∧
     ((T 1).fmt = .f32 ∧ (T 2).fmt = .f32 ∧ (T 1).cols = (T 2).rows ∧ (T 1).cols = (T 2).cols) ∧
     ((T 7).fmt = .bp ∧ (T 8).fmt = .bp ∧ (T 7).cols = (T 8).rows) ∧
     ((T 4).fmt = .rel ∧ (T 5).fmt = .rel ∧ (T 4).cols = (T 4).rows ∧ (T 5).rows = (T 4).rows ∧ (T 5).cols = (T 4).rows) ∧
     ((T 6).fmt = .s32 ∧ (T 6).rows = 1 ∧ (T 6).cols = (T 4).rows) ∧
     ((T 9).rows = 1 ∧ (T 5).rows = (T 9).cols ∧ (T 5).cols = 8 * (((T 9).cols + 7) / 8)) ∧
     ((T 11).fmt = .f32 ∧ (T 11).cols % 64 = 0 ∧ (T 7).rows = (T 11).rows ∧ (T 7).cols = (T 11).cols ∧ (T 12).fmt = .rel ∧
       (T 12).rows = (T 11).rows ∧ (T 12).cols = (T 11).cols) ∧ (T 10).fmt = .s32 ∧ (T 10).shapeOk = true) ∧
    (tileMachine.blockOf tileTeam).holdsAcc = true ∧ accMode (tileMachine.cluster 0) 0 = false ∧
    entriesFree tileMachine 0 0 1 = true ∧
    (let s := { tileMachine with clusters := [(0, { accI96 := [0] })] }
     accMode (s.cluster 0) 0 = true) ∧
    (let s := { tileMachine with blocks := [(0, { holdsAcc := false })] }
     (s.blockOf tileTeam).holdsAcc = false) ∧
    (let s := tileMachine.setPartition 0 { tileMachine.partition 0 with quota := { (tileMachine.partition 0).quota with sbcnt := 0 } }
     entriesFree { s with blocks := s.blocks ++ [(9, { partition := 1 })] } 0 0 1 = false) :=
  ⟨issuing _ _ (by decide +kernel), by decide +kernel, by decide +kernel, by decide +kernel, by decide +kernel, by decide +kernel,
    by decide +kernel, by decide +kernel⟩

/-- The first operation of cluster 0. -/
def firstOp (s : State) : Nat := ((s.cluster 0).ops.map (·.1)).headD 0

/-- A word's operation in its cluster, and the same operation running. -/
def queued (i : Instr) : State := after i tileMachine
def running (s : State) : State := after (.asyncOperationStart 0 (firstOp s)) s

/-- What MatrixResults asks of an operation. -/
def opReady (s : State) (phase : OpPhase) : Bool :=
  match tfind (s.cluster 0).ops (firstOp s) with
  | some x => x.presetStatus == none && (engineFaultOf s 0 x).isNone && x.token == none && x.phase == phase &&
      (phase != .waiting || opMayStart s 0 (firstOp s) x)
  | none => false

/-- Each word of the statement as an operation that runs, and the accumulations as they may start. -/
theorem witness_MatrixResults :
    ([.mma h0 false 1 1 2, .mma h0 true 1 1 2, .mmab h0 false false 8 0 7 8] : List Instr).all (fun i =>
      opReady (if i = .mmab h0 false false 8 0 7 8 then
        after i { tileMachine with clusters := [(0, { accI96 := [0] })] } else queued i) .waiting) = true ∧
    ([.rtrans h0 5 4, .rcomp h0 5 4 4, .rclose h0 true 5 4, .rcount h0 6 4, .mzero h0 true 2] : List Instr).all (fun i =>
      opReady (running (queued i)) .running) = true ∧ NoErrors (queued (.mma h0 false 1 1 2)) :=
  ⟨by decide +kernel, by decide +kernel, noErrors _ (by decide +kernel)⟩

/-- A loaded layout slot: 16 by 16 elements of .f32 (R210). -/
def f32Slot : LySlot := { state := .loaded, record := 1 + 2 * 2 ^ 8 + 2 * 2 ^ 16 + 64 * 2 ^ 128, addr := 0x40 }

/-- An operation of the loaded team that runs, to which a walk has brought page 0. -/
def opOf (kind : OpKind) : AsyncOp :=
  { team := 0, block := 0, partition := 0, index := 0, word := 0, opByte := 0, issue := 0, token := none, kind := kind, space := .gl
    hint := .none, phase := .running, xlat := [⟨0, some 0xF, 30, 0, 0⟩] }

/-- The machine with such operations in cluster 0, and 96-bit integers in accumulator 1. -/
def opMachine (ops : Tab AsyncOp) : State :=
  tileMachine.setCluster 0 { tileMachine.cluster 0 with ops, accI96 := [1] }

/-- The word of a tile of the tile team. -/
def tw (r : Nat) : Word := tget tileTeam.t r 0

/-- Whether `Brought` holds of an address that stands for itself. -/
def reaches (s : State) (x : AsyncOp) (write : Bool) (va n : Nat) : Bool :=
  let a := opAddr s x va
  decide (a < 2 ^ 48) && (windowOf s x.partition a).isNone && decide (va % n = 0 ∧ va + n ≤ 0x80000000000) &&
  match x.xlat.find? (fun w => w.page == a / 2 ^ 16) with
  | some ⟨_, some leaf, size, _, _⟩ =>
    match leafCheck x.partition (if write then .write else .read) (x.space == .vt) leaf size a with
    | .ok pa => pa == va
    | .error _ => false
  | _ => false

theorem brought {s : State} {x : AsyncOp} {write : Bool} {va n : Nat} (h : reaches s x write va n = true) :
    Brought s x write va va n := by
  unfold reaches at h
  simp only [Bool.and_eq_true, decide_eq_true_eq] at h
  obtain ⟨⟨⟨h1, h2⟩, h3⟩, h4⟩ := h
  split at h4
  · rename_i p leaf size f v hw
    split at h4
    · rename_i pa hl
      simp only [beq_iff_eq] at h4
      exact ⟨h1, by simpa using h2, h3.1, h3.2, _, leaf, hw, rfl, by rw [hl, h4]⟩
    · cases h4
  · cases h4

/-- Each word of MatrixResults whose result is more than a relation or counts, as an operation that runs, and the box of a drain to
memory. -/
theorem witness_MatrixResults_values :
    let word : Word := BitVec.ofNat 64 (0x3E800 * 2 ^ 32 + 0x40000000)
    let f32 := tileWord 600 2 1 64 1
    let bp := tileWord 96 5 1 64 2
    let mask := tileWord 800 6 1 64 1
    let is := fun (w : Word) (f : TFmt) (r c : Nat) => let t := Tile.ofWord w
      t.ok 12288 && t.fmt == f && t.rows == r && t.cols == c
    let drain := opOf (.drainMem 0 (tw 9) true true f32Slot 0x8000 0x0000_0010_0000_0010 0x1_0001 0)
    (is f32 .f32 1 64 && is bp .bp 1 64 && is mask .rel 1 64 && is (tw 4) .rel 16 16 && is (tw 5) .rel 16 16 && is (tw 9) .f32 1 16 &&
      is (tw 6) .s32 1 16 && is (tw 14) .iv 1 16 && is (tw 8) .bp 64 64) = true ∧
    ([.ocmp .lt (tw 4) (tw 9) (tw 9), .ocmp .gtix (tw 4) (tw 6) (tw 6), .qcvt bp mask f32 word,
      .qexp true 3 f32 bp mask word, .drainSp 0 (tw 9) true true, .drainSp 1 (tw 6) false false] : List OpKind).all (fun k =>
        (engineFaultOf (opMachine [(7, opOf k)]) 0 (opOf k)).isNone) = true ∧
    (let i : OpKind := .ocmp .le (tw 4) (tw 14) (tw 14)
     let x := { opOf i with kdest := some (tw 5).toNat }
     (engineFaultOf (opMachine [(7, x)]) 0 x).isNone = true ∧ BitVec.ofNat 64 (tw 5).toNat = tw 5) ∧
    (let k : OpKind := .mmab true false 8 0 bp (tw 8)
     let x := { opOf k with phase := .waiting }
     (engineFaultOf (opMachine [(7, x)]) 0 x).isNone = true ∧ opMayStart (opMachine [(7, x)]) 0 7 x = true) ∧
    (let s := opMachine [(7, drain)]
     let t := Tile.ofWord (tw 9)
     (engineFaultOf s 0 drain).isNone = true ∧ splitRead s 0 drain = false ∧ t.shapeOk = true ∧ pairOk (opLayout drain).fmt t.fmt = true ∧
       ∀ k ∈ boxCells (opLayout drain) t false, ∀ va ∈ k.va, reaches s drain true va 4 = true) := by
  decide +kernel

theorem witness_MatrixResults_clean : NoErrors (opMachine [(7, opOf (.ocmp .lt (tw 4) (tw 9) (tw 9)))]) ∧
    (opMachine [(7, opOf (.ocmp .lt (tw 4) (tw 9) (tw 9)))]).retiring = [] := ⟨noErrors _ (by decide +kernel), by decide +kernel⟩

/-- The loaded machine with a tile team whose page 0 is translated, and a lane's address. -/
def copyTeam : Team := { oneLaneTeam with t := tileTeam.t, xlat := [⟨0, some 0xF, 30, 0, 0⟩], v := [(laneKey 2 0, 0x5000)], k := [(12, 0x0213_0000)] }
def copyMachine : State := start.setTeam 0 copyTeam

/-- A slot that is empty, pending, faulted and loaded; valid tiles for the three tensor words and a clean command word; a lane whose
two sides are found; a free entry and none. -/
theorem witness_CopyWordsIssue :
    Issuing copyMachine copyTeam ∧ (tget copyTeam.slots 2 {}).state = .empty ∧ (copyMachine.blockOf copyTeam).holdsAcc = true ∧
    entriesFree copyMachine 0 0 2 = true ∧
    (let T := fun (r : BitVec 4) => tileOf copyTeam r
     let rows := (copyMachine.blockOf copyTeam).rows
     (T 3).ok rows = true ∧ (T 10).ok rows = true ∧ (T 6).fmt = .s32 ∧ (T 6).rows = 1 ∧ (T 3).rows ≤ (T 6).cols ∧ (T 0).ok rows = false ∧
     (let c := readK copyTeam 12
      c.extractLsb' 30 34 = 0 ∧ c.extractLsb' 1 15 = 0 ∧ c.extractLsb' 16 4 = 3 ∧ c.extractLsb' 20 4 = 1 ∧ c.extractLsb' 24 4 = 2)) ∧
    activeLanes copyTeam h1 = [0] ∧ (readV copyTeam 2 0).toNat % 4 = 0 ∧ (readV copyTeam 3 0).toNat + 4 ≤ 256 * (copyMachine.blockOf copyTeam).rows ∧
    laneSpot copyMachine 0 copyTeam .gl .read 4 0x5000 = (copyMachine, .found (.home 0x5000) 0x5000 0 false) ∧
    laneSpot copyMachine 0 copyTeam .gl .write 4 0x5000 = (copyMachine, .found (.home 0x5000) 0x5000 0 false) :=
  ⟨issuing _ _ (by decide +kernel), by decide +kernel⟩

/-- A cpy in flight and running, each way. -/
def copying (store : Bool) : State :=
  running (after (.cpy h1 store false .gl .w32 .none 7 2 3 0) copyMachine)

/-- A cpy whose lane moves, a copy with a status found at issue, a held mma let go, an operation that meets a lost scratchpad word,
and a team that waits for entries. -/
theorem witness_CopiesEnd :
    (∀ store : Bool, let s := copying store
      NoErrors s ∧ (match tfind (s.cluster 0).ops (firstOp s) with
        | some x => x.phase == .running && x.presetStatus == none && x.team / 48 == 0 && (engineFaultOf s 0 x).isNone && (s.cluster 0).l1 == [] &&
            x.kind == .cpy store 4 [⟨0, .home 0x5000, 0x5000, 0, 0, false⟩] && ((tfind s.teams x.team).map (·.pend)) ==
              some [{ issue := x.issue, lat := .token, writes := [⟨.k 7, []⟩], lanes := [0] }] && s.retiring == []
        | none => false) = true) ∧
    (let s := running (after (.cpyt h0 false .gl .none 7 2 3 0) copyMachine)
     (match tfind (s.cluster 0).ops (firstOp s) with
      | some x => x.phase == .running && x.presetStatus == some 0x11 && !x.kind.onArray
      | none => false) = true) ∧
    (let s := running (queued (.rtrans h0 5 4))
     let c := s.cluster 0
     let u := s.setCluster 0 { c with spPoison := [256 * 48 / 8] }
     (match tfind (u.cluster 0).ops (firstOp u) with
      | some x => x.phase == .running && (engineFaultOf u 0 x).isSome && (tfind u.blocks x.block).isSome
      | none => false) = true) ∧
    (let u := withTeam fun t => { t with wait := .entries 2 }
     ((tfind u.teams 0).map (·.wait)) = some (.entries 2) ∧ entriesFree u 0 0 2 = true) := by
  refine ⟨fun store => ⟨noErrors _ ?_, ?_⟩, ?_, ?_, ?_⟩
  all_goals (try cases store) <;> decide +kernel

/-- A store, a load and a scatter of a tile's box, whose bytes walks have brought; and a copy with a matrix product held behind it, as it
is and with a status that moves nothing. -/
theorem witness_CopiesEnd_tensors :
    let k1 : Word := 0x0000_0010_0000_0010
    let tensor := fun (store : Bool) => opOf (.tensor store (tw 9) f32Slot 0x8000 k1 0x1_0001 0 0 false)
    let scatter := opOf (.scatter (tw 9) (tw 6) f32Slot 0x8000 k1 0x1_0001 0 0)
    let held := { opOf (.mma false 0 (tw 1) (tw 2)) with phase := .held, after := some 7 }
    let reachesAll := fun (x : AsyncOp) (store load : Bool) =>
      (boxCells (opLayout x) (Tile.ofWord (tw 9)) load).all fun k => k.va.all fun va => reaches (opMachine [(7, x)]) x store va 4
    ([(tensor true, true, false), (tensor false, false, true), (scatter, true, false)] : List (AsyncOp × Bool × Bool)).all (fun z =>
      (engineFaultOf (opMachine [(7, z.1)]) 0 z.1).isNone && reachesAll z.1 z.2.1 z.2.2 && pairOk (opLayout z.1).fmt .f32 &&
        (opMiss (opMachine [(7, z.1)]) 0 z.1).isEmpty && !opOutside (opMachine [(7, z.1)]) 0 z.1) = true ∧
    ((opMachine [(7, tensor false)]).cluster 0).l1 = [] ∧ (opMachine [(7, tensor false)]).retiring = [] ∧
    (let c := (opMachine [(7, tensor false), (8, held)]).cluster 0
     tfind c.ops 8 = some held ∧ (∀ e ∈ c.ops, e.2.after = some 7 → e.1 = 8)) ∧
    (let x := { tensor false with presetStatus := some 0x11 }
     let s := opMachine [(7, x), (8, held)]
     x.kind.onArray = false ∧ (engineFaultOf s 0 x).isNone = true ∧ opMiss s 0 x = [] ∧ opOutside s 0 x = false) := by decide +kernel

theorem witness_CopiesEnd_clean :
    NoErrors (opMachine [(7, opOf (.scatter (tw 9) (tw 6) f32Slot 0x8000 0x0000_0010_0000_0010 0x1_0001 0 0))]) :=
  noErrors _ (by decide +kernel)

/-- The block of the loaded team, with other parts. -/
def withBlock (g : Block → Block) : State := { start with blocks := start.blocks.map fun e => (e.1, g e.2) }

/-- A block of one team, whose arrival is the last, and of two, whose is not; a mask of no team; a store that holds back the release;
an await with a generation pending and with none. -/
theorem witness_BlockBarriers :
    let b := (tfind start.blocks 0).getD {}
    let s := withBlock fun b => { b with nteams := 2 }
    let p := { team0 with barPend := [(3, 0)] }
    Issuing start team0 ∧ tfind start.blocks team0.block = some b ∧ team0.handler = none ∧
    (tget b.bars 3 {}).arrived = 0 ∧ BitVec.ofNat 48 (2 ^ b.nteams - 1) &&& ~~~(BitVec.ofNat 48 (2 ^ 0)) = 0 ∧
    releaseReady start 0 team0 .block = true ∧ (readK team0 0).extractLsb' 0 48 = 0 ∧ tfind team0.barPend 3 = none ∧
    tfind (start.setTeam 0 p).teams 0 = some p ∧ tfind p.barPend 3 = some 0 ∧
    (tfind s.blocks 0).map (·.nteams) = some 2 ∧ BitVec.ofNat 48 (2 ^ 2 - 1) &&& ~~~(BitVec.ofNat 48 (2 ^ 0)) ≠ 0 ∧
    releaseReady (storing .sp) 0 ((tfind (storing .sp).teams 0).getD {}) .block = false :=
  ⟨start_issuing, by decide +kernel⟩

/-- The launch of the loaded team, with other parts. -/
def withLaunch (g : Launch → Launch) : State := { start with launches := start.launches.map g }

/-- A grid of one team, whose arrival is the last, and of two blocks, whose is not; one that is faulted and one where the team has
arrived; a pending generation open and risen; a release that a cluster waits for, before and after its time. -/
theorem witness_GridBarriers :
    let l := start.launches.headD {}
    let r : Release := ⟨0, 0, 0, 0, 1, [0]⟩
    Issuing start team0 ∧ start.launch? 0 1 = some l ∧ l.kernel.gridbar = true ∧ team0.handler = none ∧ l.faulted = false ∧
    (0, 0) ∉ l.arrived ∧ releaseReady start 0 team0 .grid = true ∧ releaseReady start 0 team0 .block = true ∧
    l.blocks * l.kernel.teams ≤ ((l.arrived ++ [(0, 0)]) ++ l.endedTeams).eraseDups.length ∧
    (let l2 := { l with blocks := 2 }
     ¬l2.blocks * l2.kernel.teams ≤ ((l2.arrived ++ [(0, 0)]) ++ l2.endedTeams).eraseDups.length) ∧
    (withLaunch fun l => { l with faulted := true }).launch? 0 1 = some { l with faulted := true } ∧
    (withLaunch fun l => { l with arrived := [(0, 0)] }).launch? 0 1 = some { l with arrived := [(0, 0)] } ∧
    (withLaunch fun l => { l with kernel := { l.kernel with gridbar := false } }).launch? 0 1 =
      some { l with kernel := { l.kernel with gridbar := false } } ∧
    team0.gbarPend = none ∧ ({ team0 with gbarPend := some 0 } : Team).gbarPend = some 0 ∧ l.gen ≤ 0 ∧ (0 : Nat) < { l with gen := 1 }.gen ∧
    ((withLaunch fun l => { l with release := some r }).launches[0]?.bind (·.release)) = some r ∧ (0 : Nat) ∈ r.waiting ∧
    start.cycle < r.start + 16 + 0 / 64 * r.td + (0 % 64 + r.rot) % 64 / r.size * r.tw ∧
    ¬({ start with cycle := 16 } : State).cycle < r.start + 16 + 0 / 64 * r.td + (0 % 64 + r.rot) % 64 / r.size * r.tw :=
  ⟨start_issuing, by decide +kernel⟩

/-- A team with nothing in flight, one that awaits a result, one behind a store, and one that owes the trap of a lost store. -/
theorem witness_FencesAndRaceWatch :
    let p : Pend := { issue := 0, lat := .variable }
    let u := storing .gl
    Issuing start team0 ∧ (tfind start.blocks team0.block).isSome = true ∧ team0.lostStore = false ∧ releaseReady start 0 team0 .sys = true ∧
    team0.pend = [] ∧ (∃ q ∈ ({ team0 with pend := [p] } : Team).pend, q.lat = .variable) ∧
    releaseReady u 0 ((tfind u.teams 0).getD {}) .grid = false ∧ ({ team0 with lostStore := true } : Team).lostStore = true :=
  ⟨start_issuing, by decide +kernel⟩

/-- The machine with a counter record at 0x5000 of a count and an expected count, whose queue is 0, record 0x5100 and count word
0x5200, and an enabled queue 0 of partition 0 with a record at 0x5100 and its descriptor at 0x5140. -/
def queueMachine (count expect : Nat) : State :=
  let m := bytesSet (bytesSet (bytesSet (bytesSet start.mem 0x5000 (count + expect * 2 ^ 32 + 0x5100 * 2 ^ 64 + 0x5200 * 2 ^ 128) 32)
    0x5100 (1 + 0x5140 * 2 ^ 64) 64) 0x5140 (1 + 2 ^ 24 + 32 * 2 ^ 32 + 2 ^ 48 + 2 ^ 64 + 8 * 2 ^ 192) 64) 0x5200 1 4
  { start with
    mem := m
    queues := [(0, { depth := 2, en := true })]
    hostLink := { start.hostLink with ifneg := 0x020101 }
    teams := [(0, { team0 with k := [(2, 0x5000)], xlat := [⟨0, some 0xF, 30, 0, 0⟩] })] }

theorem witness_QueueWords :
    let t := { team0 with k := [(2, 0x5000)], xlat := [⟨0, some 0xF, 30, 0, 0⟩] }
    Issuing (queueMachine 0 1) t ∧ NoErrors (queueMachine 0 1) ∧ activeLanes t h1 = [] ∧ activeLanes t h0 ≠ [] ∧
    releaseReady (queueMachine 0 1) 0 t .grid = true ∧
    (∀ x ∈ [(0, 1), (0, 2), (1, 1)], let s := queueMachine x.1 x.2
      laneSpot s 0 t .gl .write 32 0x5000 = (s, .found (.home 0x5000) 0x5000 0 false) ∧ frameHeld s 0x5000 = false ∧ bytesGet s.mem 0x5000 4 = x.1 ∧
      bytesGet s.mem 0x5004 4 = x.2) ∧ 0x5000 + 32 ≤ 0x80000000000 ∧ ¬64 ≤ (readK t 3).toNat ∧ 64 ≤ (readK t 2).toNat ∧
    releaseReady (storing .gl) 0 ((tfind (storing .gl).teams 0).getD {}) .grid = false :=
  ⟨issuing _ _ (by decide +kernel), noErrors _ (by decide +kernel), by decide +kernel⟩

/-- A queue that takes the record, one that is disabled, one of another partition, a record that cannot be read, a record of version
0, and a write that waits, with a launch in the queue and with none. -/
theorem witness_Enqueues :
    let s := queueMachine 0 1
    let x := s.queue 0
    let u := s.setQueue 1 { x with pn := 1 }
    let z := s.setQueue 0 { x with pendingWrite := some 0x201 }
    ((s.partition x.pn).drained = false ∧ (s.partition x.pn).resetting = false ∧ x.en = true ∧ x.depth ≠ 0 ∧
      (s.launches.filter fun l => l.queue == 0).length < x.depth) ∧ (s.queue 5).en = false ∧
    (launchRead s 0 0x5100).2.isSome = true ∧ (launchRead s 0 0x5200).2.isNone = true ∧ (u.queue 1).pn ≠ 0 ∧ 0x5101 % 64 ≠ 0 ∧ (launchRead s 0 0x40000000).2.isNone = true ∧
    (vaRead s 0 0x5200 64).2 = some 1 ∧ (vaRead s 0 0x5240 64).2 = some 0 ∧ s.power.cur ≠ 3 ∧
    (z.queue 0).pendingWrite = some 0x201 ∧ (∃ l ∈ z.launches, l.queue = 0) ∧ ({ z with launches := [] } : State).launches = [] ∧
    (let v := { s with hostLink := { s.hostLink with vfmap := [(2, 0x8000_0000_0000_0100)] } }
     (tget v.hostLink.vfmap 2 0).getLsbD 63 = true ∧ ((tget v.hostLink.vfmap 2 0).extractLsb' 0 6).toNat ≤ 0 ∧
     0 < 0 + ((tget v.hostLink.vfmap 2 0).extractLsb' 8 6).toNat) := by decide +kernel

/-- A machine with no team and one launch in queue 0, the same drained, one whose launch is placed in part, and one whose launch goes
to a cluster that holds a block. -/
def placing : State :=
  { queueMachine 0 1 with
    teams := [], blocks := []
    launches := [{ id := 7, kernel := { team := 32, teams := 2, regs := 4, scratch := 512, text := 0, textSize := 8 } }] }

theorem witness_Placement :
    (match decision placing 0 with
      | some (q, (l, b, again), plan) => q == 0 && l.id == 7 && b == 0 && !again && plan.frames.length == 2 && plan.frames.eraseDups == plan.frames
      | none => false) = true ∧
    (∀ e ∈ placing.launches, e.partition = 0 → e.id = 7 → e = placing.launches.headD {}) ∧
    (decision { placing with launches := [] } 0).isNone = true ∧
    ((placing.setPartition 0 { placing.partition 0 with drained := true }).partition 0).drained = true ∧
    (let q := (placing.partition 0).placing
     q.slotbase + q.slotcnt ≤ 8 ∧ (clusterPlan placing 0 q (placing.launches.headD {}).kernel 0).isSome = true) ∧
    (let s := { placing with launches := placing.launches.map fun l =>
        { l with blocks := 2, nextBlock := 1, kernel := { l.kernel with gridbar := true } } }
     (decision s 0).any (fun d => d.1 == 0 && d.2.1.2.1 == 1 && !d.2.1.2.2) = true ∧
     (decision { s with power := { s.power with cur := 3 } } 0).isNone = true) ∧
    (match decision { placing with blocks := [(5, { partition := 1, cluster := 448 })] } 0 with
      | some (_, _, plan) => plan.cluster == 448
      | none => false) = true := by decide +kernel

/-- A team that has ended, one that waits for a store to end, and one of two teams of its block. -/
def ended : State := after (.exit h0) start

/-- A launch whose blocks have ended, with a completion word at 0x5300. -/
def finished : State := { start with teams := [], blocks := [], launches := start.launches.map fun l => { l with done := 0x5300 } }

/-- A launch that has run for 800 cycles, under a limit of 1 and of none; a ring of 64 entries at 0x6000, full and with room. -/
theorem witness_TeamsAndLaunchesEnd :
    let t := (tfind ended.teams 0).getD {}
    let q := fun (limit : Nat) => { (withLaunch fun l => { l with running := 800 }) with queues := [(0, { wdtLimit := limit })] }
    let ring := start.setPartition 0 { start.partition 0 with elogb := 0x6000 }
    NoErrors ended ∧ NoErrors finished ∧
    (tfind ended.teams 0 = some t ∧ (tfind ended.blocks t.block).isSome = true ∧ (match t.wait with
        | .ended .. => true
        | _ => false) = true ∧ t.pend = [] ∧ ended.accs = [] ∧ (ended.cluster 0).ops = [] ∧
      (∀ b ∈ ended.blocks, b.2.ended ||| BitVec.ofNat 48 (2 ^ t.index) = BitVec.ofNat 48 (2 ^ b.2.nteams - 1))) ∧
    BitVec.ofNat 48 (2 ^ 0) ≠ BitVec.ofNat 48 (2 ^ 2 - 1) ∧ (match team0.wait with
        | .ended .. => true
        | _ => false) = false ∧
    (let l := finished.launches.headD {}
     finished.launches[0]? = some l ∧ finished.blocks = [] ∧ ¬(l.nextBlock < l.blocks ∨ l.awaiting ≠ []) ∧ l.done ≠ 0 ∧
     (walkTranslate finished 0 l.done .write).2 = .ok 0x5300 ∧ (walkTranslate finished 0 l.done .write).1 = finished) ∧
    (∃ e ∈ start.blocks, e.2.partition = 0 ∧ e.2.launch = 1) ∧
    (((q 1).launches.filter fun l => l.queue == 0 && l.nextBlock != 0) = [{ start.launches.headD {} with running := 800 }] ∧
      ((q 1).queue 0).wdtLimit = 1 ∧ 800 * 1 ≤ 800 ∧ ((q 0).queue 0).wdtLimit = 0) ∧
    (((ring.partition 0).elogb.extractLsb' 12 52).toNat * 4096 = 0x6000 ∧ (walkTranslate ring 0 0x6000 .write).2 = .ok 0x6000 ∧
      (walkTranslate ring 0 0x6000 .write).1 = ring ∧ (64 + 2 ^ 32 - 0) % 2 ^ 32 = 64 ∧ (0 + 2 ^ 32 - 0) % 2 ^ 32 ≠ 64 ∧
      (walkTranslate { ring with partitions := [] } 0 0x6000 .write).2 = .error .pageFault) :=
  ⟨noErrors _ (by decide +kernel), noErrors _ (by decide +kernel), by decide +kernel, by decide +kernel, by decide +kernel,
    by decide +kernel, by decide +kernel, by decide +kernel, by decide +kernel⟩

/-- A team of partition 0 with nothing in flight and no pctl unanswered, one behind a store, one of partition 1, one that owes the
trap of a lost store; a partition in range and one out of it. -/
theorem witness_PctlWords :
    let t := { team0 with k := [(1, 1), (2, 9)] }
    let s := start.setTeam 0 t
    Issuing s t ∧ t.partition = 0 ∧ t.lostStore = false ∧ releaseReady s 0 t .sys = true ∧ s.pctls = [] ∧ (readK t 1).toNat = 1 ∧
    7 < (readK t 2).toNat ∧ (s.partition 1).preempted = false ∧
    releaseReady (storing .gl) 0 ((tfind (storing .gl).teams 0).getD {}) .sys = false ∧
    Issuing (withTeam fun t => { t with partition := 1 }) { team0 with partition := 1 } ∧
    Issuing (withTeam fun t => { t with lostStore := true }) { team0 with lostStore := true } ∧
    (start.setPartition 1 { start.partition 1 with preempted := true }).partition 1 = { start.partition 1 with preempted := true } :=
  ⟨issuing _ _ (by decide +kernel), by decide +kernel, by decide +kernel, by decide +kernel, by decide +kernel, by decide +kernel,
    by decide +kernel, by decide +kernel, by decide +kernel, issuing _ _ (by decide +kernel), issuing _ _ (by decide +kernel),
    by decide +kernel⟩

/-- A quota that agrees with the others, one whose rows run past 32, one that the resident block forbids, and two that remove an LLC
way; windows at the ends of the range of size; the package reduced and not. -/
theorem witness_SupervisorRegisters :
    let q := (start.partition 0).quota
    (start.partition 0).pendingQuota = none ∧ (∀ m, m < 8 → (start.partition m).pendingQuota = none) ∧ consistent start 0 q = true ∧
    consistent start 0 { q with rowbase := 1 } = false ∧ holdsRemoved start 0 q = false ∧ start.llc = [] ∧
    holdsRemoved start 0 { q with spcnt := 0 } = true ∧ consistent start 0 { q with spcnt := 0 } = true ∧
    ({ start.partition 0 with pendingQuota := some q } : Partition).pendingQuota ≠ none ∧ (∃ l ∈ start.launches, l.queue = 0) ∧
    retentionOk start 0 team0 = false ∧
    -- a quota that takes a way with a dirty line, and one that takes a way with a clean one
    (let line := fun (dirty : Bool) => ({ die := 0, line := 3, owner := 0, dirty := dirty, recency := 0, way := q.wbase } : LlcLine)
     let less := { q with wbase := q.wbase + 1, wcnt := q.wcnt - 1 }
     let u := fun (dirty : Bool) => { start with llc := [line dirty] }
     let goes := fun w => decide (q.wbase ≤ w ∧ w < q.wbase + q.wcnt ∧ ¬(less.wbase ≤ w ∧ w < less.wbase + less.wcnt))
     consistent (u true) 0 less = true ∧ holdsRemoved (u false) 0 less = false ∧ goes q.wbase = true ∧
       ((u true).llc.any fun l => l.owner == 0 && l.dirty && goes l.way) = true ∧
       ((u false).llc.any fun l => l.owner == 0 && l.dirty && goes l.way) = false) ∧
    -- windows of size 0 and 1 GiB, enabled and not, and one that meets another
    (let size := fun (v : Word) => (v.extractLsb' 10 8).toNat
     let open' := start.setPartition 0 { start.partition 0 with fwins := [(1, { en := true, lbase := 2 ^ 30, size := 2 ^ 30 })] }
     size 0 = 0 ∧ size 0x8000_0000_0000_0000 = 0 ∧ size 0x400 = 1 ∧ (0x400 : Word).getLsbD 63 = false ∧
       (0x8000_0000_0004_0400 : Word).getLsbD 63 = true ∧ size 0x8000_0000_0004_0400 = 1 ∧
       ((0x8000_0000_0004_0400 : Word).extractLsb' 18 18).toNat * 2 ^ 30 = 2 ^ 30 ∧
       (∃ e ∈ (open'.partition 0).fwins, e.1 ≠ 0 ∧ e.2.en = true ∧ e.2.lbase = 2 ^ 30 ∧ e.2.size = 2 ^ 30)) ∧
    start.power.cur ≠ 1 ∧ ({ start.power with cur := 1 } : Power).cur = 1 := by decide +kernel

/-- The loaded team halted at a barrier of a partition that is being pre-empted, with a save area of a number of MiB. -/
def halting (mib : Nat) : State :=
  (start.setPartition 0 { start.partition 0 with preempting := true, halting := true, psave := BitVec.ofNat 64 (mib * 2 ^ 48) }).setTeam 0
    { team0 with wait := .bar 0, halted := true, barPend := [(0, 0)] }

/-- A pre-emption whose blocks have halted, with an area that holds them and with none, past its budget and before; one that has not
begun to halt; a pctl that waits for its answer; a queue that an enabled VF holds; a deferred quota that takes effect and one that
waits. -/
theorem witness_PartitionControl :
    let p := (halting 8).partition 0
    let q : Pend := { issue := 3, lat := .variable, writes := [⟨.k 5, []⟩], lanes := [0], accs := 1, acq := some .sys }
    let s := { (withTeam fun t => { t with pend := [q] }) with pctls := [⟨0, 3, 2, 1⟩] }
    let u := start.setPartition 0 { start.partition 0 with preempting := true }
    let vf : State := { start with hostLink := { start.hostLink with vfmap := [(0, 0x8000_0000_0000_0100)] } }
    let later := fun (g : Quota) => start.setPartition 0 { start.partition 0 with pendingQuota := some g }
    NoErrors start ∧ (start.partition 0).pendingQuota = none ∧ p.preempting = true ∧ p.halting = true ∧
    (∀ e ∈ (halting 8).blocks, ∀ f ∈ e.2.teams, (tfind (halting 8).teams f).any (fun t => t.halted && t.pend == []) = true) ∧
    (halting 8).accs = [] ∧ ((halting 8).cluster 0).ops = [] ∧
    4096 + 1024 * 1 + 256 * 1 * 128 * 1 + 256 * 12288 + 786432 ≤ (p.psave.extractLsb' 48 16).toNat * 2 ^ 20 ∧
    (((halting 0).partition 0).psave.extractLsb' 48 16).toNat * 2 ^ 20 < 4096 ∧ p.preemptDeadline ≤ (halting 8).cycle ∧
    (u.partition 0).halting = false ∧ (∀ l ∈ u.launches, l.release = none) ∧ u.colls = [] ∧ (∀ e ∈ start.blocks, e.2.accSave = none) ∧
    s.pctls = [⟨0, 3, 2, 1⟩] ∧ tfind s.teams 0 = some { team0 with pend := [q] } ∧ q.lanes.Nodup ∧ q.lanes ≠ [] ∧ q.tags = [] ∧
    (tget vf.hostLink.vfmap 0 0).getLsbD 63 = true ∧ ((tget vf.hostLink.vfmap 0 0).extractLsb' 8 6).toNat = 1 ∧
    ((later (start.partition 0).quota).partition 0).pendingQuota = some (start.partition 0).quota ∧
    holdsRemoved (later (start.partition 0).quota) 0 (start.partition 0).quota = false ∧
    holdsRemoved start 0 { (start.partition 0).quota with spcnt := 0 } = true :=
  ⟨noErrors _ (by decide +kernel), by decide +kernel⟩

/-- A team that waits until time 5 ns, before it and at it, and behind a result; a master that is followed and one that is not; the
package itself as grandmaster; no role; a loss that is due, with LOCK and without, and one that is not. -/
theorem witness_FabricTime :
    let t := { team0 with wait := .time 5 (.v 1) [0] }
    let s := fun (time : Nat) => { (start.setTeam 0 t) with fabric := { start.fabric with time } }
    let role := fun (x : Fabric) => (x.ftime.extractLsb' 2 2).toNat
    let gm := fun (x : Fabric) => (x.masters.map (·.1) ++ if role x = 1 then [x.fid] else []).min?
    let due := fun (x : Fabric) (c : Nat) =>
      decide ((x.lock = true ∨ x.masters ≠ []) ∧ x.lastSync + 4 * (800000000 / 2 ^ (x.ftime.extractLsb' 8 4).toNat) ≤ c)
    let z := start.fabric
    let led : Fabric := { z with masters := [(3, 1), (2, 1)], ftime := 0x508 }
    Issuing start team0 ∧ tfind (s 0).teams 0 = some t ∧ t.pend = [] ∧ (s 0).fabric.time / 4000000 % 2 ^ 64 < 5 ∧
    5 ≤ (s 20000000).fabric.time / 4000000 % 2 ^ 64 ∧ (∀ l ∈ [0], l < 1024) ∧
    (∃ p ∈ ({ t with pend := [{ issue := 0, lat := .variable, writes := [⟨.k 1, []⟩], lanes := [0] }] } : Team).pend, p.lat = .variable) ∧
    role { z with ftime := 0x500 } = 0 ∧ (role led ≠ 0 ∧ gm led = some 2 ∧ gm led ≠ some 3) ∧
    (role { z with ftime := 0x504, fid := 7 } = 1 ∧ gm { z with ftime := 0x504, fid := 7 } = some 7) ∧
    due led 100000000 = true ∧ due { z with lock := true } 100000000 = true ∧ due led 99999999 = false ∧ due z 100000000 = false :=
  ⟨start_issuing, by decide +kernel⟩

/-- A machine whose second page of 64 KiB has a leaf of its own at 0x4008, with its bits below the frame, and a sealing of it. -/
def sealing (leaf : Nat) (x : SealOp) : State :=
  let m := bytesSet (bytesSet (bytesSet (bytesSet start.mem 0x2000 0x3001 8) 0x3000 0x4001 8) 0x4000 0xF 8) 0x4008 (0x1_0000 + leaf) 8
  { start with mem := m, seals := [(9, x)] }

/-- A range that is not aligned, a version that is not above the mark, a page that is sealed, a page that is shared (and so
sealed), and a page that meets none of these; an opening of a sealed page, and one with version bits set; a sealing that is told. -/
theorem witness_Sealing :
    let x : SealOp := { team := 0, issue := 0, partition := 0, base := 0x1_0000, len := 0x1_0000, ver := 1, isOpen := false }
    let s := sealing 0xF x
    let leaf := fun (s : State) => (walkNow s 0 0x1_0000).2
    Issuing s team0 ∧ NoErrors s ∧ team0.lostStore = false ∧ releaseReady s 0 team0 .sys = true ∧ tfind s.seals 9 = some x ∧ x.ver < 2 ^ 16 ∧
    x.done = [] ∧ x.opened = [] ∧ x.told = false ∧
    tfind (sealing 0xF { x with told := true }).seals 9 = some { x with told := true } ∧
    (let o := { x with isOpen := true, ver := 0 }
     let u := sealing (0x1F + 2 ^ 44) o
     tfind u.seals 9 = some o ∧ leaf u = some (0x1_001F + 2 ^ 44, 16) ∧ (Leaf.ofNat (0x1_001F + 2 ^ 44)).sealed = true ∧
       (Leaf.ofNat (0x1_001F + 2 ^ 44)).ver = 1 ∧ (Leaf.ofNat (0x1_001F + 2 ^ 44)).x = false ∧ (Leaf.ofNat (0x1_001F + 2 ^ 44)).pn = 0 ∧
       u.accs = [] ∧ (∀ c ∈ u.clusters, c.2.ops = []) ∧ leaf (sealing (0x817 + 2 ^ 44) o) = some (0x1_0817 + 2 ^ 44, 16) ∧
       (Leaf.ofNat (0x1_0817 + 2 ^ 44)).sealed = true ∧ (Leaf.ofNat (0x1_0817 + 2 ^ 44)).x = true) ∧
    ({ x with isOpen := true } : SealOp).ver ≠ 0 ∧ ({ team0 with lostStore := true } : Team).lostStore = true ∧
    releaseReady (storing .gl) 0 ((tfind (storing .gl).teams 0).getD {}) .sys = false ∧
    leaf s = some (0x1_000F, 16) ∧ (s.partition 0).fvmark < x.ver ∧ (Leaf.ofNat 0x1_000F).sealed = false ∧ (Leaf.ofNat 0x1_000F).x = false ∧
    (Leaf.ofNat 0x1_000F).pn = 0 ∧ s.accs = [] ∧ (∀ c ∈ s.clusters, c.2.ops = []) ∧
    leafPlace s 0x1_0000 3 ((s.partition 0).proot * 4096) = some (0x4008, 16) ∧ ({ x with base := 1 } : SealOp).base % 65536 ≠ 0 ∧
    ({ x with ver := 0 } : SealOp).ver ≤ (s.partition 0).fvmark ∧
    leaf (sealing (0x17 + 2 ^ 44) x) = some (0x1_0017 + 2 ^ 44, 16) ∧
    (Leaf.ofNat (0x1_0017 + 2 ^ 44)).sealed = true ∧ leaf (sealing (0x817 + 2 ^ 44) x) = some (0x1_0817 + 2 ^ 44, 16) ∧ (Leaf.ofNat 0x1_0817).x = true ∧
    (let t := { team0 with pend := [{ issue := 0, lat := .token, writes := [⟨.k 7, []⟩], lanes := [0] }] }
     tfind (start.setTeam 0 t).teams 0 = some t) :=
  ⟨issuing _ _ (by decide +kernel), noErrors _ (by decide +kernel), by decide +kernel⟩

/-- A record at 0x5400 of a collective of one participant, which sums two values of .f32, its members at 0x5440. -/
def collMachine : State :=
  { start with
    mem := bytesSet start.mem 0x5400 (1 + 2 * 2 ^ 24 + 2 ^ 32 + 2 * 2 ^ 64 + 0x5480 * 2 ^ 128 + 0x54C0 * 2 ^ 192 + 0x5440 * 2 ^ 256) 64
    teams := [(0, { team0 with k := [(2, 0x5400)] })] }

/-- A record that is read and one that is not; a tag in flight; a collective of one participant, whose contribution is there. -/
theorem witness_Collectives :
    let t := { team0 with k := [(2, 0x5400)] }
    let s := collMachine
    let u := after (.coll h0 7 2) s
    let k := ((u.colls.map (·.1)).headD 1)
    Issuing s t ∧ NoErrors s ∧ NoErrors u ∧
    (t.lostStore = false ∧ s.retiring = [] ∧ releaseReady s 0 t .span = true ∧ (tfind u.colls k).isSome = true ∧ (collRead s 0 0x5400).2.isSome = true ∧ (collRead s 0 0x5500).2.isNone = true ∧
      s.colls = [] ∧ s.fabric.early = [] ∧ 0x5401 % 64 ≠ 0 ∧ (vaRead s 0 0x5500 64).2 = some 0 ∧ 0 % 256 ≠ 1 ∧
      releaseReady (storing .gl) 0 ((tfind (storing .gl).teams 0).getD {}) .span = false) ∧
    (match tfind u.colls k with
      | some c => c.key.tag == k && !c.committed && (List.range c.key.size).all (fun r => c.contributions.any fun e => e.1 == r) &&
          !(c.key.op == 0 && c.key.count == 0) && decide (u.cycle < c.deadline) && c.dstBytes == 8 &&
          (spanPas u 0 c.dst c.dstBytes .write).2 == some [(c.dst, c.dst, 8)] && (spanPas u 0 c.dst c.dstBytes .write).1 == u
      | none => false) = true ∧
    tfind s.colls 5 = none :=
  ⟨issuing _ _ (by decide +kernel), noErrors _ (by decide +kernel), noErrors _ (by decide +kernel), by decide +kernel, by decide +kernel,
    by decide +kernel⟩

/-- A collective of two participants, of which this one has rank 0, with its contributions and the ranks that have agreed. -/
def pairColl (got : List Nat) (agreed : List Nat) (pod : Bool) : Coll :=
  { team := 0, issue := 0, partition := 0, rank := 0, dst := 0x5480, members := [0, 9], deadline := 5, agreed
    key := ⟨3, 5, if pod then 0 else 2, 0, 2, 2, if pod then 0 else 2, 0, 0⟩
    contributions := got.map fun r => (r, []), podTime := if pod then some (200, 0) else none }

/-- The machine with it, in span 3, at a cycle. -/
def pairMachine (c : Coll) (cycle : Nat) : State :=
  { start.setPartition 0 { start.partition 0 with fspan := 0x1_0003 } with colls := [(5, c)], cycle }

/-- Participants that lack a contribution, that have all and have agreed or not, and that every member has agreed with; a record
that differs and one that is the same; a deadline past and to come; a pod barrier that commits, whose release is to come or has
come, and whose leaving is to come or has come. -/
theorem witness_Collectives_phases :
    let c := pairColl [0, 1] [] false
    let s := fun (c : Coll) => pairMachine c 5
    let whole := fun (c : Coll) => (List.range c.key.size).all fun r => c.contributions.any fun e => e.1 == r
    let all := fun (c : Coll) => (List.range c.key.size).all fun r => r == c.rank || c.agreed.contains r
    let pod := pairColl [0, 1] [0, 1] true
    let done := { pod with committed := true, releaseAt := 200 }
    let ns := fun (s : State) => s.fabric.time / 4000000 % 2 ^ 64
    (s c).retiring = [] ∧ tfind (s c).colls 5 = some c ∧ c.key.tag = 5 ∧ ((s c).partition 0).fspan.getLsbD 16 = true ∧
    (start.partition 0).fspan.getLsbD 16 = false ∧ whole (pairColl [0] [] false) = false ∧ whole c = true ∧ all c = false ∧
    0 ∉ c.agreed ∧ 0 ∈ (pairColl [0, 1] [0] false).agreed ∧ all (pairColl [0, 1] [0] false) = false ∧
    all (pairColl [0, 1] [0, 1] false) = true ∧ ({ c.key with count := 3 } : CollKey) ≠ c.key ∧ (pairColl [0, 1] [0, 1] false).dstBytes = 8 ∧
    (spanPas (s (pairColl [0, 1] [0, 1] false)) 0 0x5480 8 .write).2 = some [(0x5480, 0x5480, 8)] ∧
    c.deadline ≤ (s c).cycle ∧ (pairMachine c 4).cycle < c.deadline ∧ (pod.key.op = 0 ∧ pod.key.count = 0 ∧ whole pod = true ∧ all pod = true) ∧
    ¬(c.key.op = 0 ∧ c.key.count = 0) ∧ done.committed = true ∧ done.leaveAt = none ∧ ns (s done) < done.releaseAt ∧
    (let at' := { s done with fabric := { (s done).fabric with time := 800000000 } }
     done.releaseAt ≤ ns at') ∧
    ({ done with leaveAt := some 9 } : Coll).leaveAt = some 9 ∧ (s done).cycle < 9 ∧ 9 ≤ (pairMachine done 9).cycle := by decide +kernel

theorem witness_Collectives_noErrors : NoErrors (pairMachine (pairColl [0, 1] [] false) 5) := noErrors _ (by decide +kernel)

/-- A store on its way to package 9 by port 0, and a machine that has joined span 3. -/
def remote (k : AccKind) : State :=
  { start with
    accs := [(4, { team := 0, block := 0, partition := 0, cluster := 0, issue := 0, lane := 0, kind := k, place := .remote 9 0x5000
                   va := 0x5000, size := 4 })]
    fabric := { start.fabric with ports := [(0, { down := false, ver := 3, width := 8 })], froute := [(1, 0x8000)] } }

/-- A port that is DOWN and one that is not; versions in common and none; a load, a store and an atomic that an answer ends; a request
whose span is joined and one whose span is not. -/
theorem witness_FabricTraffic :
    let s := remote .store
    let joined := start.setPartition 0 { start.partition 0 with fspan := 0x1_0003 }
    NoErrors s ∧ NoErrors start ∧
    ((start.port 0).down = true ∧ (s.port 0).down = false ∧ (s.port 0).en = true ∧ max 1 2 ≤ min 3 4 ∧ min 3 1 < max 1 2 ∧ s.colls = [] ∧
      (∀ e ∈ s.fabric.ports, e.2.ver < 256) ∧ ((tget s.fabric.froute (9 / 8) 0).extractLsb' (8 * (9 % 8)) 5).toNat = 0 ∧
      (∀ k ∈ [AccKind.store, .load .w32, .atomic .add .s32 1 0, .prefetch], let s := remote k
        (match tfind s.accs 4 with
          | some a => accMayPerform s 4 a && a.kind == k && a.place == .remote 9 0x5000
          | none => false) = true)) ∧
    ((joined.partition 0).fspan.getLsbD 16 = true ∧ (joined.partition 0).fspan.toNat % 65536 = 3 ∧
      (walkNow joined 0 0x5000).2 = some (0xF, 30) ∧ leafCheck 0 .write false 0xF 30 0x5000 = .ok 0x5000 ∧
      (walkNow joined 0 0x8000000000).2 = none ∧ (start.partition 0).fspan.getLsbD 16 = false) :=
  ⟨noErrors _ (by decide +kernel), noErrors _ (by decide +kernel), by decide +kernel⟩

/-- A flit whose port can carry it, one whose port retrains, and one whose port is DOWN; a scheduled store that comes in time and
one that does not. -/
theorem witness_FabricTraffic_flits :
    let s := remote .store
    let fl : Flit := ⟨9, true, 1, 3, 0⟩
    let route := (tget s.fabric.froute (9 / 8) 0).extractLsb' (8 * (9 % 8)) 8
    let t := { s with fabric := { s.fabric with transit := [fl] } }
    let u := { s with fabric := { s.fabric with ports := [(0, { down := false, ver := 3, width := 4, heldUntil := 100 })] } }
    let r : RemoteReq := { kind := .store, vt := false, span := 3, package := 9, addr := 0x5000, size := 4, data := 1, cmp := 0, due := some 5 }
    let late := { s with fabric := { s.fabric with time := 24000000 } }
    t.fabric.transit = [fl] ∧ route.getLsbD 7 = true ∧ (route.extractLsb' 0 5).toNat = 0 ∧ (s.port 0).heldUntil ≤ s.cycle ∧
    ¬(u.port 0).heldUntil ≤ u.cycle ∧ (start.port 0).down = true ∧ r.due = some 5 ∧ ¬5 < s.fabric.time / 4000000 % 2 ^ 64 ∧
    5 < late.fabric.time / 4000000 % 2 ^ 64 := by decide +kernel

/-- A store and a load on their way to a byte of the host, and one that waits behind the store. -/
theorem witness_HostAndKeeper :
    let a : AccKind → Nat → Acc := fun k l => { team := 0, block := 0, partition := 0, cluster := 0, issue := 0, lane := l, kind := k
                                                place := .home 0x80000000000, va := 0, size := 4 }
    let s := { start with accs := [(4, a .store 0), (5, a (.load .w32) 1)] }
    let u := { start with accs := [(5, a (.load .w32) 1)] }
    NoErrors s ∧ NoErrors u ∧ s.power.cur ≠ 3 ∧ accMayPerform s 4 (a .store 0) = true ∧ accMayPerform s 5 (a (.load .w32) 1) = false ∧
    accMayPerform u 5 (a (.load .w32) 1) = true ∧ s.bexile.failed = 0 ∧
    (let d := { s with bexile := { s.bexile with sec := some 1 }
                       hostLink := { s.hostLink with vfmap := [(0, 0xC000_0000_0001_0000)] } }
     d.bexile.sec = some 1 ∧ (tget d.hostLink.vfmap 0 0).getLsbD 63 = true ∧ (tget d.hostLink.vfmap 0 0).getLsbD 62 = true ∧
     ((tget d.hostLink.vfmap 0 0).extractLsb' 16 3).toNat = 1 ∧ (∀ v, v < 16 → ((tget d.hostLink.vfmap v 0).extractLsb' 16 3).toNat ≠ 2) ∧
     (vaRead d 1 0x40 8).2.isNone = true ∧ (vaRead start 0 0x40 8).2.isSome = true ∧
     ({ d.bexile with sec := some 2 } : Bexile).sec = some 2) ∧
    tfind start.teams 0 = some team0 ∧
    (let t := { team0 with stack := [⟨true, 0x10, 0xF, 1⟩] }
     tfind (start.setTeam 0 t).teams 0 = some t ∧ t.stack[0]? = some ⟨true, 0x10, 0xF, 1⟩) ∧ l1Find u 0 0 none (0x80000000000 / 256) 0 false = none ∧ 0x10000000000 < 0x19000000000 :=
  ⟨noErrors _ (by decide +kernel), noErrors _ (by decide +kernel), by decide +kernel⟩

/-- A cluster that has notches to go, before and at its time, with no wave to leave and with one; a package below its first notch without a cap, one that has reached
it, and one whose estimate, which is free, is above its cap. -/
theorem witness_PowerController :
    let s := { start with cycle := 100000 }
    let cycles := (8000 + 3 * s.power.slew - 1) / (3 * s.power.slew)
    let active := (s.blocks.map fun e => e.2.cluster).eraseDups.length
    start.cycle < start.power.lastCap + 8000 ∧ s.power.lastCap + 8000 ≤ s.cycle ∧ start.cycle < start.power.lastStep + cycles ∧
    ((s.setCluster 0 { s.cluster 0 with ctlNotch := 5 }).cluster 0).ctlNotch ≠ 0 ∧ s.power.lastStep + cycles ≤ s.cycle ∧
    (∀ l ∈ s.launches, l.release = none) ∧ s.colls = [] ∧
    (∃ l ∈ ({ s with launches := s.launches.map fun l => { l with release := some ⟨0, 0, 0, 0, 1, [0]⟩ } } : State).launches, l.release ≠ none) ∧
    s.power.mcap = 0 ∧ s.power.scap = 0 ∧ s.power.notch = 0 ∧ ({ s.power with notch := 5 } : Power).notch ≠ 0 ∧
    s.power.lastStep + cycles * max 1 active ≤ s.cycle ∧
    (1 < Config.powerEstimate s.freeCtr → ({ s.power with mcap := 1 } : Power).mcap ≠ 0 ∧
      ({ s.power with mcap := 1 } : Power).mcap < Config.powerEstimate s.freeCtr) :=
  ⟨by decide +kernel, by decide +kernel, by decide +kernel, by decide +kernel, by decide +kernel, by decide +kernel, rfl,
    by decide +kernel, rfl, rfl, rfl, by decide, by decide +kernel, fun h => ⟨by decide, h⟩⟩

/-- A core with a ready team and one without; a team at a marker with its results in and with one awaited; a walk among the first 16
of a team, of an operation and of a layout slot; an error block of each kind; a frame under retirement, whose pool has spares, and
one whose pool has none. -/
theorem witness_BetweenWords :
    let marked := withTeam fun t => { t with wait := .marker }
    let walk := { start with walks := [(3, { die := 0, partition := 0, page := 0, teams := [0] })] }
    let op := queued (.rtrans h0 5 4)
    let opWalk := { op with walks := [(3, { die := 0, partition := 0, page := 0, teams := [], others := [.op 0 (firstOp op)] })] }
    let slots := withTeam fun t => { t with slots := [(2, ⟨.pending, 0, 0x40, false, .none, 1, []⟩)] }
    let slotWalk := { slots with walks := [(3, { die := 0, partition := 0, page := 0, teams := [], others := [.slot 0 2] })] }
    let err := fun (k : ErrKind) => { start with latent := [(2, k)] }
    let z := { start with retiring := [⟨7, 0, 0, 14336⟩] }
    (teamReady { State.reset.withFetchWord 64 nop.toNat with turn := .free } 0 team0 = true ∧ tfind marked.teams 0 = some { team0 with wait := .marker }) ∧
    NoErrors walk ∧ NoErrors opWalk ∧ NoErrors slotWalk ∧
    ((walkNow opWalk 0 0).2 = some (0xF, 30) ∧ (tfind (opWalk.cluster 0).ops (firstOp op)).isSome = true ∧ opWalk.retiring = [] ∧
      (walkNow slotWalk 0 0).2 = some (0xF, 30) ∧ slotWalk.retiring = [] ∧ (tfind slotWalk.teams 0).map (fun t => tfind t.slots 2) =
        some (some ⟨.pending, 0, 0x40, false, .none, 1, []⟩)) ∧
    ((walk.walks.filter fun e => e.2.die == 0 && decide (e.1 < 3)).length < 16 ∧ (walkNow walk 0 0).2 = some (0xF, 30) ∧
      2 * 32 < 0x180000000 ∧ (∀ k ∈ [ErrKind.single, .transient, .lasting], tfind (err k).latent 2 = some k) ∧ (err .single).lost = [] ∧
      start.retiring = [] ∧ walk.retiring = [] ∧ (walkNow walk 0 (0x80_0000 * 2 ^ 16)).2 = none ∧ (∀ x ∈ z.retiring, x.frame = 7) ∧ (∀ m, m < 8 → (z.partition m).resetting = false) ∧
      tget z.pools (poolOf (7 * 65536)) 0 < poolSize (poolOf (7 * 65536)) ∧
      (let e := { z with pools := [(poolOf (7 * 65536), poolSize (poolOf (7 * 65536)))] }
       poolSize (poolOf (7 * 65536)) ≤ tget e.pools (poolOf (7 * 65536)) 0)) :=
  ⟨by decide +kernel, noErrors _ (by decide +kernel), noErrors _ (by decide +kernel), noErrors _ (by decide +kernel), by decide +kernel,
    by decide +kernel⟩

end Sys2Proof.Tests
end

section
/-! The fates of words that are no instructions (R32): what the decoder answers for them, what their fetch comes to, and
what the issue makes of either. -/

namespace Sys2Proof

/-- What the decoder accepts is well formed and has the word it came from. -/
theorem decode_ok {w : BitVec 64} {i : Instr} (h : decode w = .ok i) : i.wellFormed = true ∧ encode i = some w := by
  unfold decode at h
  split at h
  · split at h
    · next hc =>
      obtain rfl := Except.ok.inj h
      simpa using hc
    · cases h
  · cases h

/-- What the decoder refuses, it refuses by the form of the word alone (R32). -/
theorem decode_error {w : BitVec 64} {e : DecodeError} (h : decode w = .error e) :
    e = if w.getLsbD 62 then .illegalPair else .illegalEncoding := by
  unfold decode at h
  split at h
  · split at h
    · cases h
    · exact (Except.error.inj h).symm
  · exact (Except.error.inj h).symm

/-- A word that no well-formed instruction has is refused. -/
theorem decode_of_noInstr {w : BitVec 64} (h : ∀ i : Instr, i.wellFormed = true → encode i ≠ some w) :
    decode w = .error (if w.getLsbD 62 then .illegalPair else .illegalEncoding) := by
  cases hd : decode w with
  | error e => rw [decode_error hd]
  | ok i =>
    obtain ⟨hwf, he⟩ := decode_ok hd
    exact absurd he (h i hwf)

end Sys2Proof

namespace Sys2Proof.Machine

-- ===== the fetch =====

theorem fetchWord_outside {s : State} {t : Team} (hx : inText (s.kernelOf t) t.pc = false) :
    fetchWord s t = (s, .outside) := by
  simp [fetchWord, hx]

theorem fetchWord_untranslated {s s1 : State} {t : Team} {c : FaultCode} (hx : inText (s.kernelOf t) t.pc = true)
    (hw : walkTranslate s t.partition t.pc .read = (s1, .error c)) : fetchWord s t = (s1, .failed c.code) := by
  simp [fetchWord, hx, hw]

theorem fetchWord_lost {s s1 s2 : State} {t : Team} {pa : Nat} (hx : inText (s.kernelOf t) t.pc = true)
    (hw : walkTranslate s t.partition t.pc .read = (s1, .ok pa)) (hr : readBlocks s1 pa 8 t.partition t.pc = (s2, true)) :
    fetchWord s t = (s2, .failed FaultCode.memPoisoned.code) := by
  simp [fetchWord, hx, hw, hr]

-- ===== the kernel's descriptor =====

theorem launchAllows_of_namesBadV {k : Kernel} {i : Instr} (h : namesBadV k.regs i = true) : launchAllows k i = false := by
  simp [launchAllows, h]

theorem launchAllows_brt_of_le {k : Kernel} {tbl : BitVec 8} (h : Hdr) (r : BitVec 6) (hn : k.ntab ≤ tbl.toNat) :
    launchAllows k (.brt h r tbl) = false := by
  simp [launchAllows, Nat.not_lt.mpr hn]

-- ===== the issue =====

section
variable {s s1 : State} {f : Nat} {t : Team}

theorem issueFrom_outside (hg : lanesGone t = false) (hf : fetchWord s t = (s1, .outside)) :
    issueFrom s f t = .done (trapWord s1 f t .illegalEncoding) := by
  simp [issueFrom, hg, hf]

/-- R32, R291: a fetch that fails kills the block. -/
theorem issueFrom_failed {kind : Nat} (hg : lanesGone t = false) (hf : fetchWord s t = (s1, .failed kind)) :
    issueFrom s f t = .done (killBlock s1 f t.block ⟨kind, 0xFF, t.pc, t.index, t.pc⟩) := by
  simp [issueFrom, hg, hf]

/-- A word of the text that the decoder refuses, or whose instruction the kernel forbids, traps by its form. -/
theorem issueFrom_illegal {w : BitVec 64} (hg : lanesGone t = false) (hf : fetchWord s t = (s1, .word w))
    (hd : ∀ i, decode w = .ok i → launchAllows (s1.kernelOf t) i = false) :
    issueFrom s f t = .done (trapWord s1 f t (if w.getLsbD 62 then .illegalPair else .illegalEncoding)) := by
  cases h : decode w with
  | ok i => simp [issueFrom, hg, hf, h, hd i h]
  | error e =>
    obtain rfl := decode_error h
    cases hb : w.getLsbD 62 <;> simp only [hb] at h <;> simp [issueFrom, hg, hf, h]

end

/-- Settles O4: each fate is what the fetch, the decoder or the kernel's descriptor answers, and the issue turns that answer
into the trap or the kill before it looks at anything else of the word. -/
theorem illegalWordsTrap : Obligations.IllegalWordsTrap := by
  unfold Obligations.IllegalWordsTrap
  intro s s1 f t u hturn hfind hmay hland hu hg
  have hstep := step_issue hturn hfind hmay hland hu
  refine ⟨fun hx => ?_, fun hx => ⟨fun s2 w hw hbad => ?_, fun s2 c hw => ?_, fun s2 pa hw s3 hr => ?_⟩⟩
  · rw [hstep, issueFrom_outside hg (fetchWord_outside hx)]
  · have hd : ∀ i, decode w = .ok i → launchAllows (s2.kernelOf u) i = false := by
      intro i hi
      rcases hbad with hnone | ⟨j, hj, hforbid⟩
      · rw [decode_of_noInstr hnone] at hi
        cases hi
      · obtain rfl : j = i := Except.ok.inj (hj.symm.trans hi)
        rcases hforbid with hv | ⟨h, k, tbl, rfl, hn⟩
        · exact launchAllows_of_namesBadV hv
        · exact launchAllows_brt_of_le h k hn
    rw [hstep, issueFrom_illegal hg hw hd]
  · exact ⟨u.pc, u.pc, u.index, by rw [hstep, issueFrom_failed hg (fetchWord_untranslated hx hw)]⟩
  · exact ⟨u.pc, u.pc, u.index, by rw [hstep, issueFrom_failed hg (fetchWord_lost hx hw hr)]; rfl⟩

end Sys2Proof.Machine
end

section
/-! The predicate words (R69, R178): Kleene's logic as a rank, F below U below T, and what the words write of it. -/

namespace Sys2Proof.Machine

-- ===== Kleene's order =====

/-- A predicate value's rank in Kleene's order: F, U, T; 0b11 reads as U. -/
def kleeneRank (x : BitVec 2) : Nat := if x = 0 then 0 else if x = 1 then 2 else 1

/-- The predicate value of a rank. -/
def ofKleene (n : Nat) : BitVec 2 := if n = 0 then 0 else if n = 1 then 2 else 1

theorem not3_eq_reflect (x : BitVec 2) : not3 x = ofKleene (2 - kleeneRank x) := by revert x; decide

theorem and3_eq_min (x y : BitVec 2) : and3 x y = ofKleene (min (kleeneRank x) (kleeneRank y)) := by revert x y; decide

theorem or3_eq_max (x y : BitVec 2) : or3 x y = ofKleene (max (kleeneRank x) (kleeneRank y)) := by revert x y; decide

theorem kleeneRank_not3 (x : BitVec 2) : kleeneRank (not3 x) = 2 - kleeneRank x := by revert x; decide

/-- A predicate source's rank, reflected where the source is negated. -/
theorem kleeneRank_readPn (t : Team) (neg : Bool) (p : BitVec 4) (l : Nat) :
    kleeneRank (readPn t neg p l) =
      if neg then 2 - kleeneRank (readP t p.toNat l) else kleeneRank (readP t p.toNat l) := by
  cases neg
  · rfl
  · exact kleeneRank_not3 _

-- ===== what a predicate reads =====

@[simp] theorem readP_zero (t : Team) (l : Nat) : readP t 0 l = 1 := rfl

/-- R68: no predicate reads as 0b11. -/
theorem readP_ne_three (t : Team) (p l : Nat) : readP t p l ≠ 3 := by
  unfold readP
  split
  · decide
  · dsimp only
    split
    · decide
    · assumption

/-- R178: an undecided predicate is decided F, or T under .ut; the decided ones stay. -/
theorem pdec_eq_rank (ut : Bool) {x : BitVec 2} (hx : x ≠ 3) :
    (if x = 2 then boolP ut else x) =
      match kleeneRank x with
      | 0 => 0
      | 1 => if ut then 1 else 0
      | _ => 1 := by
  revert ut x
  decide

/-- The low two bits of a word as a predicate value, 0b11 written as 0b10. -/
theorem pmov_eq_mod (w : Word) :
    (if w.setWidth 2 = (3 : BitVec 2) then (2 : BitVec 2) else w.setWidth 2) =
      match w.toNat % 4 with
      | 0 => 0
      | 1 => 1
      | _ => 2 := by
  have hw : w.setWidth 2 = BitVec.ofNat 2 (w.toNat % 4) := by
    apply BitVec.eq_of_toNat_eq
    simp
  rw [hw]
  have hlt : w.toNat % 4 < 4 := Nat.mod_lt _ (by decide)
  generalize w.toNat % 4 = n at hlt
  revert n
  decide

-- ===== the words =====

/-- A word that is a predicate computed lane by lane completes with it. -/
theorem predAlu_completes {i : Instr} {h : Hdr} {pd : BitVec 4} {srcs : List Src} {g g' : State → Nat → Team → Nat → BitVec 2}
    (hi : ∀ s, exec i s = (predAlu i h pd srcs g).exec s) (hg : ∀ s f t l, g s f t l = g' s f t l) :
    ComputesPred i h pd g' :=
  (alu_computesOne (predAlu i h pd srcs g) i (pReg pd) (fun s f t l => ((g s f t l).setWidth 64, 0)) hi nofun rfl
    fun _ _ _ _ => rfl).congr fun s f t l => by rw [hg]

theorem pget_completes (h : Hdr) (d : Dst) (pa : BitVec 4) :
    ComputesOne (.pget h d pa) h L4 (dstReg d) fun _ _ t l => ((readP t pa.toNat l).setWidth 64, 0) :=
  alu_computesOne
    { i := .pget h d pa, h, lat := L4, dests := [dstReg d], lin := .none, srcs := []
      fn := fun _ _ t l => laneVal d ((readP t pa.toNat l).setWidth 64, 0) }
    _ _ _ (fun _ => rfl) nofun rfl fun _ _ _ _ => rfl

/-- Settles O26: each word is one arithmetic word over its lanes, and its truth table is the order's least, greatest or
reflected rank. -/
theorem predicateLogic : Obligations.PredicateLogic := by
  unfold Obligations.PredicateLogic
  intro h na nb ut d pd pa pb a
  refine ⟨predAlu_completes (fun _ => rfl) fun _ _ t l => ?pand, predAlu_completes (fun _ => rfl) fun _ _ t l => ?por,
    predAlu_completes (fun _ => rfl) fun _ _ t l => ?pnot, predAlu_completes (fun _ => rfl) fun _ _ t l => ?pdec,
    predAlu_completes (fun _ => rfl) fun s f t l => ?pmov, pget_completes h d pa,
    fun t p l => ⟨readP_zero t l, readP_ne_three t p l⟩⟩
  case pand => rw [and3_eq_min, kleeneRank_readPn, kleeneRank_readPn]; rfl
  case por => rw [or3_eq_max, kleeneRank_readPn, kleeneRank_readPn]; rfl
  case pnot => exact not3_eq_reflect _
  case pdec => exact pdec_eq_rank ut (readP_ne_three t pa.toNat l)
  case pmov => exact pmov_eq_mod _

end Sys2Proof.Machine
end

section
/-! Correct rounding (R57 to R59): what a truncated significand says of a magnitude, the multiple that a mode rounds it to,
and the three fates of a rounded result. -/

namespace Sys2Proof.Machine

-- ===== the length of a significand =====

theorem bitLen_eq_succ_iff {n b : Nat} : bitLen n = b + 1 ↔ 2 ^ b ≤ n ∧ n < 2 ^ (b + 1) := by
  unfold bitLen
  split
  · next h => simp [h]
  · next h => rw [Nat.add_right_cancel_iff, Nat.log2_eq_iff h]

theorem bitLen_pos {n : Nat} (hn : n ≠ 0) : 0 < bitLen n := by simp [bitLen, hn]

theorem pow_bitLen_le {n : Nat} (hn : n ≠ 0) : 2 ^ (bitLen n - 1) ≤ n :=
  (bitLen_eq_succ_iff.1 (Nat.sub_add_cancel (bitLen_pos hn)).symm).1

theorem lt_pow_bitLen (n : Nat) : n < 2 ^ bitLen n := by
  by_cases hn : n = 0
  · simp [hn]
  · have h := (bitLen_eq_succ_iff.1 (Nat.sub_add_cancel (bitLen_pos hn)).symm).2
    rwa [Nat.sub_add_cancel (bitLen_pos hn)] at h

theorem lt_bitLen_of_pow_le {n b : Nat} (h : 2 ^ b ≤ n) : b < bitLen n :=
  (Nat.pow_lt_pow_iff_right one_lt_two).1 (h.trans_lt (lt_pow_bitLen n))

/-- A significand of n's length stands in the binade of its top bit. -/
theorem zpow_le_mul_zpow {n : Nat} (hn : n ≠ 0) (q : Int) : (2 : ℚ) ^ (q + bitLen n - 1) ≤ n * (2 : ℚ) ^ q := by
  have h : (2 : ℚ) ^ (bitLen n - 1) ≤ n := mod_cast pow_bitLen_le hn
  have hp := bitLen_pos hn
  calc (2 : ℚ) ^ (q + bitLen n - 1) = 2 ^ (bitLen n - 1) * 2 ^ q := by
        rw [← zpow_natCast, ← zpow_add₀ two_ne_zero]
        congr 1
        omega
    _ ≤ n * 2 ^ q := by gcongr

theorem succ_mul_zpow_le (n : Nat) (q : Int) : (n + 1) * (2 : ℚ) ^ q ≤ (2 : ℚ) ^ (q + bitLen n) := by
  have h : (n + 1 : ℚ) ≤ 2 ^ bitLen n := mod_cast lt_pow_bitLen n
  calc (n + 1) * (2 : ℚ) ^ q ≤ 2 ^ bitLen n * 2 ^ q := by gcongr
    _ = (2 : ℚ) ^ (q + bitLen n) := by rw [← zpow_natCast, ← zpow_add₀ two_ne_zero, add_comm]

theorem zpow_two_lt_iff {i j : Int} : (2 : ℚ) ^ i < 2 ^ j ↔ i < j := zpow_lt_zpow_iff_right₀ one_lt_two

/-- A multiple of 2^q is below a power of two where its top bit is. -/
theorem mul_zpow_lt_zpow_iff {n : Nat} (hn : n ≠ 0) (q j : Int) :
    n * (2 : ℚ) ^ q < 2 ^ j ↔ (bitLen n : Int) + q - 1 < j := by
  constructor
  · intro h
    have := zpow_two_lt_iff.1 ((zpow_le_mul_zpow hn q).trans_lt h)
    omega
  · intro h
    have hlt : n * (2 : ℚ) ^ q < (n + 1) * 2 ^ q := by
      have := zpow_pos (two_pos (α := ℚ)) q
      linarith
    exact (hlt.trans_le (succ_mul_zpow_le n q)).trans_le (zpow_le_zpow_right₀ one_le_two (by omega))

-- ===== truncated significands =====

/-- n is the magnitude x in units of u, cut off; `inexact` says whether anything was cut. -/
structure Truncates (n : Nat) (u x : ℚ) (inexact : Bool) : Prop where
  pos : 0 < u
  le : n * u ≤ x
  lt : x < (n + 1) * u
  cut : inexact = true ↔ n * u < x

/-- What a significand stands for lies in its unit. -/
theorem Stands.truncates {fm : Fmt} {x : ℚ} {m : Nat} {e : Int} {sticky : Bool} (h : Stands fm (fun q => q - x) m e sticky) :
    Truncates m (2 ^ e) x sticky := by
  have hu := zpow_pos (two_pos (α := ℚ)) e
  unfold Stands at h
  cases sticky
  · have hx : m * (2 : ℚ) ^ e - x = 0 := h
    exact ⟨hu, by linarith, by linarith, by simp; linarith⟩
  · obtain ⟨hlo, hhi, -⟩ : m * (2 : ℚ) ^ e - x < 0 ∧ 0 < (m + 1) * (2 : ℚ) ^ e - x ∧ _ := h
    exact ⟨hu, by linarith, by linarith, by simp; linarith⟩

/-- A significand with a sticky bit has two bits to spare. -/
theorem Stands.long {fm : Fmt} {side : ℚ → ℚ} {m : Nat} {e : Int} (h : Stands fm side m e true) : fm.fw + 2 < bitLen m :=
  lt_bitLen_of_pow_le h.2.2

theorem Stands.ne_zero {fm : Fmt} {x : ℚ} {m : Nat} {e : Int} {sticky : Bool} (h : Stands fm (fun q => q - x) m e sticky)
    (hx : 0 < x) : m ≠ 0 := by
  rintro rfl
  cases sticky
  · simp [Stands, hx.ne'] at h
  · exact absurd h.long (by simp [bitLen])

/-- A significand cut off once more, to units of 2^sh. -/
theorem Truncates.coarsen {m : Nat} {w x : ℚ} {sticky : Bool} (h : Truncates m w x sticky) (sh : Nat) :
    Truncates (m / 2 ^ sh) (2 ^ sh * w) x (m % 2 ^ sh != 0 || sticky) := by
  obtain ⟨hw, hle, hlt, hcut⟩ := h
  have hm : (m : ℚ) * w = (m / 2 ^ sh : Nat) * (2 ^ sh * w) + (m % 2 ^ sh : Nat) * w := by
    have : (m : ℚ) = (2 ^ sh : Nat) * (m / 2 ^ sh : Nat) + (m % 2 ^ sh : Nat) := mod_cast (Nat.div_add_mod m (2 ^ sh)).symm
    rw [this]
    push_cast
    ring
  have hr : ((m % 2 ^ sh : Nat) + 1) * w ≤ 2 ^ sh * w := by
    have : ((m % 2 ^ sh : Nat) : ℚ) + 1 ≤ 2 ^ sh := mod_cast Nat.mod_lt m (Nat.two_pow_pos sh)
    gcongr
  have hr0 : 0 ≤ ((m % 2 ^ sh : Nat) : ℚ) * w := by positivity
  refine ⟨by positivity, by linarith, by linarith, ?_⟩
  rcases Nat.eq_zero_or_pos (m % 2 ^ sh) with h0 | h0
  · rw [h0, Nat.cast_zero, zero_mul, add_zero] at hm
    simpa [h0, hm] using hcut
  · have : 0 < ((m % 2 ^ sh : Nat) : ℚ) * w := by positivity
    simp [h0.ne']
    linarith

/-- An exact significand written in finer units. -/
theorem Truncates.refine {m k : Nat} {u x : ℚ} (h : Truncates m (2 ^ k * u) x false) : Truncates (m * 2 ^ k) u x false := by
  obtain ⟨hu, hle, -, hcut⟩ := h
  have hpos : 0 < u := pos_of_mul_pos_right hu (by positivity)
  have hx : x = (m * 2 ^ k : Nat) * u := by
    have : x ≤ m * (2 ^ k * u) := by simpa using hcut
    push_cast
    linarith
  exact ⟨hpos, hx.ge, by linarith, by rw [hx]; simp⟩

-- ===== the direction of a rounding =====

/-- R57: the magnitude x, cut off to n units of u, rounds up to n + 1. -/
def MovesUp (r : Rnd) (neg : Bool) (n : Nat) (u x : ℚ) : Prop :=
  match r, neg with
  | .rne, _ => u / 2 < x - n * u ∨ x - n * u = u / 2 ∧ n % 2 = 1
  | .rtz, _ | .rdn, false | .rup, true => False
  | .rdn, true | .rup, false => n * u < x

/-- Only what is inexact moves. -/
theorem MovesUp.inexact {r : Rnd} {neg : Bool} {n : Nat} {u x : ℚ} (hu : 0 < u) (h : MovesUp r neg n u x) : n * u < x := by
  match r, neg with
  | .rne, _ => rcases h with h | ⟨h, -⟩ <;> linarith
  | .rdn, true | .rup, false => exact h

/-- What is cut off lies past the half of the unit, or on it, as the remainder and the sticky bit say (the test of .rne). -/
theorem Truncates.past_half_iff {m j : Nat} {w x : ℚ} {sticky : Bool} (h : Truncates m w x sticky) :
    let u := 2 ^ (j + 1) * w
    let d := x - (m / 2 ^ (j + 1) : Nat) * u
    let rem := m % 2 ^ (j + 1)
    (u / 2 < d ↔ 2 ^ j < rem ∨ rem = 2 ^ j ∧ sticky = true) ∧ (d = u / 2 ↔ rem = 2 ^ j ∧ sticky = false) := by
  intro u d rem
  obtain ⟨hw, hle, hlt, hcut⟩ := h
  have hhalf : u / 2 = (2 ^ j : Nat) * w := by
    simp only [u]
    push_cast
    ring
  have hd : d = x - m * w + rem * w := by
    have : (m : ℚ) = (2 ^ (j + 1) : Nat) * (m / 2 ^ (j + 1) : Nat) + rem := mod_cast (Nat.div_add_mod m (2 ^ (j + 1))).symm
    simp only [d, u]
    rw [this]
    push_cast
    ring
  rw [hhalf, hd]
  rcases lt_trichotomy rem (2 ^ j) with hr | hr | hr
  · have : ((rem : ℚ) + 1) * w ≤ (2 ^ j : Nat) * w := by
      gcongr
      exact_mod_cast hr
    have hno : ¬2 ^ j < rem ∧ rem ≠ 2 ^ j := by omega
    constructor <;> simp only [hno, false_and, or_false, iff_false] <;> intro hc <;> linarith
  · have hno : ¬2 ^ j < rem := by omega
    cases sticky <;> simp [hr] at hcut ⊢ <;> constructor <;> linarith
  · have : ((2 ^ j : Nat) + 1 : ℚ) * w ≤ rem * w := by
      gcongr
      exact_mod_cast hr
    have hne : rem ≠ 2 ^ j := by omega
    constructor
    · simp only [hr, true_or, iff_true]
      linarith
    · simp only [hne, false_and, iff_false]
      intro hc
      linarith

/-- The model's decision is that of R57, for a significand of which at least a bit is cut off. -/
theorem Truncates.roundsUp_iff {m j : Nat} {w x : ℚ} {sticky : Bool} (h : Truncates m w x sticky) (r : Rnd) (neg : Bool) :
    roundsUp r neg (m / 2 ^ (j + 1)) (m % 2 ^ (j + 1)) (j + 1) sticky = true ↔
      MovesUp r neg (m / 2 ^ (j + 1)) (2 ^ (j + 1) * w) x := by
  match r, neg with
  | .rne, _ =>
    obtain ⟨hpast, htie⟩ := h.past_half_iff (j := j)
    simp only [MovesUp, hpast, htie, roundsUp]
    cases sticky <;> simp
  | .rtz, _ | .rdn, false | .rup, true => simp [roundsUp, MovesUp]
  | .rdn, true | .rup, false => simpa [roundsUp, MovesUp] using (h.coarsen (j + 1)).cut

/-- An exact magnitude stays where it is. -/
theorem Truncates.roundsUp_exact_iff {n : Nat} {u x : ℚ} (h : Truncates n u x false) (r : Rnd) (neg : Bool) :
    roundsUp r neg 0 0 0 false = true ↔ MovesUp r neg n u x := by
  have hstay : roundsUp r neg 0 0 0 false = false := by cases r <;> simp [roundsUp]
  rw [hstay]
  exact iff_of_false Bool.false_ne_true fun hmove => Bool.false_ne_true (h.cut.2 (hmove.inexact h.pos))

/-- The decision of R57 delivers the mode's multiple. -/
theorem Truncates.nearest {n : Nat} {q : Int} {x : ℚ} {inexact up : Bool} {r : Rnd} {neg : Bool}
    (h : Truncates n (2 ^ q) x inexact) (hup : up = true ↔ MovesUp r neg n (2 ^ q) x) : Nearest r neg x q (n + bit1 up) := by
  obtain ⟨hu, hle, hlt, -⟩ := h
  unfold Nearest
  generalize (2 : ℚ) ^ q = u at *
  match r, neg with
  | .rne, _ =>
    cases up
    · obtain ⟨hpast, htie⟩ : ¬u / 2 < x - n * u ∧ (x - n * u = u / 2 → ¬n % 2 = 1) := by simpa [MovesUp] using hup
      simp only [bit1, Bool.false_eq_true, if_false, add_zero]
      rw [abs_of_nonneg (by linarith)]
      exact ⟨by linarith, fun he => by have := htie he; omega⟩
    · have hmove : u / 2 < x - n * u ∨ x - n * u = u / 2 ∧ n % 2 = 1 := by simpa [MovesUp] using hup
      simp only [bit1, if_true, Nat.cast_add, Nat.cast_one]
      rw [abs_of_nonpos (by linarith)]
      rcases hmove with hpast | ⟨htie, hodd⟩
      · exact ⟨by linarith, fun he => by linarith⟩
      · exact ⟨by linarith, fun _ => by omega⟩
  | .rtz, _ | .rdn, false | .rup, true =>
    obtain rfl : up = false := by simpa [MovesUp] using hup
    simpa [bit1] using ⟨hle, hlt⟩
  | .rdn, true | .rup, false =>
    cases up
    · have : x ≤ n * u := by simpa [MovesUp] using hup
      simp only [bit1, Bool.false_eq_true, if_false, add_zero]
      constructor <;> linarith
    · have : n * u < x := by simpa [MovesUp] using hup
      simp only [bit1, if_true, Nat.cast_add, Nat.cast_one]
      constructor <;> linarith

/-- A rounding is inexact where the multiple that it delivers is not the magnitude. -/
theorem Truncates.inexact_iff {n : Nat} {u x : ℚ} {inexact up : Bool} {r : Rnd} {neg : Bool}
    (h : Truncates n u x inexact) (hup : up = true ↔ MovesUp r neg n u x) : inexact = true ↔ (n + bit1 up : Nat) * u ≠ x := by
  obtain ⟨hu, hle, hlt, hcut⟩ := h
  rw [hcut]
  cases up
  · simp [bit1, lt_iff_le_and_ne, hle]
  · have hcut : n * u < x := MovesUp.inexact hu (hup.1 rfl)
    simp only [bit1, if_true, Nat.cast_add, Nat.cast_one, hcut, true_iff]
    exact hlt.ne'

/-- R57: a significand that keeps its sticky bit below the grid rounds to the mode's multiple of 2^q, and the second answer
says whether that is inexact. -/
theorem roundAt_spec {m : Nat} {e q : Int} {x : ℚ} {sticky : Bool} (h : Truncates m (2 ^ e) x sticky)
    (hq : sticky = true → e < q) (r : Rnd) (neg : Bool) :
    Nearest r neg x q (roundAt r neg m e q sticky).1 ∧
      ((roundAt r neg m e q sticky).2 = true ↔ (roundAt r neg m e q sticky).1 * (2 : ℚ) ^ q ≠ x) := by
  unfold roundAt
  split
  · next hle =>
    obtain rfl : sticky = false := Bool.eq_false_iff.2 fun hs => (hq hs).not_ge hle
    obtain ⟨k, rfl⟩ : ∃ k : Nat, e = q + k := ⟨(e - q).toNat, by omega⟩
    have hk : (q + k - q).toNat = k := by omega
    rw [add_comm, zpow_add₀ two_ne_zero, zpow_natCast] at h
    have hup := h.refine.roundsUp_exact_iff r neg
    rw [hk]
    exact ⟨h.refine.nearest hup, h.refine.inexact_iff hup⟩
  · next hlt =>
    obtain ⟨j, rfl⟩ : ∃ j : Nat, q = e + (j + 1 : Nat) := ⟨(q - e).toNat - 1, by omega⟩
    have hsh : (e + (j + 1 : Nat) - e).toNat = j + 1 := by omega
    have hu : (2 : ℚ) ^ (e + (j + 1 : Nat)) = 2 ^ (j + 1) * 2 ^ e := by
      rw [zpow_add₀ two_ne_zero, zpow_natCast, mul_comm]
    have hcoarse := h.coarsen (j + 1)
    have hup := h.roundsUp_iff (j := j) r neg
    rw [← hu] at hcoarse hup
    simp only [hsh]
    exact ⟨hcoarse.nearest hup, hcoarse.inexact_iff hup⟩

-- ===== the binade of a rounded magnitude =====

/-- What a magnitude rounds to lies less than a unit away. -/
theorem Nearest.within {r : Rnd} {neg : Bool} {x : ℚ} {q : Int} {n : Nat} (h : Nearest r neg x q n) :
    (n - 1) * (2 : ℚ) ^ q < x ∧ x < (n + 1) * 2 ^ q := by
  have hu := zpow_pos (two_pos (α := ℚ)) q
  match r, neg with
  | .rne, _ =>
    have hd := abs_le.1 h.1
    constructor <;> linarith
  | .rtz, _ | .rdn, false | .rup, true => exact ⟨by linarith [h.1], h.2⟩
  | .rdn, true | .rup, false => exact ⟨h.1, by linarith [h.2]⟩

/-- A magnitude of the binade above 2^(k + b) rounds to b + 1 bits, or to the power of two above them. -/
theorem Nearest.bounds {r : Rnd} {neg : Bool} {x : ℚ} {k : Int} {n b : Nat} (h : Nearest r neg x k n)
    (hlo : (2 : ℚ) ^ (k + b) ≤ x) (hhi : x < (2 : ℚ) ^ (k + b + 1)) : 2 ^ b ≤ n ∧ n ≤ 2 ^ (b + 1) := by
  obtain ⟨hbelow, habove⟩ := h.within
  have hu := zpow_pos (two_pos (α := ℚ)) k
  rw [add_assoc, zpow_add₀ two_ne_zero, mul_comm] at hhi
  rw [zpow_add₀ two_ne_zero, mul_comm] at hlo
  have hge := lt_of_mul_lt_mul_right (hlo.trans_lt habove) hu.le
  have hle := lt_of_mul_lt_mul_right (hbelow.trans hhi) hu.le
  rw [sub_lt_iff_lt_add] at hle
  norm_cast at hge hle
  omega

/-- The length of a significand is that of the magnitude that it stands for. -/
theorem Truncates.bitLen_eq {m : Nat} {e j : Int} {x : ℚ} {sticky : Bool} (h : Truncates m (2 ^ e) x sticky) (hm : m ≠ 0)
    (hlo : (2 : ℚ) ^ j ≤ x) (hhi : x < (2 : ℚ) ^ (j + 1)) : e + bitLen m - 1 = j := by
  have h1 := zpow_two_lt_iff.1 (((zpow_le_mul_zpow hm e).trans h.le).trans_lt hhi)
  have h2 := zpow_two_lt_iff.1 (hlo.trans_lt (h.lt.trans_le (succ_mul_zpow_le m e)))
  omega

-- ===== the pattern of a normal number =====

/-- The pattern of a sign, an exponent field and a fraction. -/
def Fmt.pack (f : Fmt) (neg : Bool) (ex fr : Nat) : Nat := bit1 neg * 2 ^ (f.ew + f.fw) + ex * 2 ^ f.fw + fr

theorem Fmt.pack_lt (f : Fmt) (neg : Bool) {ex fr : Nat} (hex : ex < 2 ^ f.ew) (hfr : fr < 2 ^ f.fw) :
    f.pack neg ex fr < 2 ^ f.width := by
  have hfield : ex * 2 ^ f.fw + fr < 2 ^ (f.ew + f.fw) := by
    calc ex * 2 ^ f.fw + fr < (ex + 1) * 2 ^ f.fw := by linarith
      _ ≤ 2 ^ f.ew * 2 ^ f.fw := by gcongr; exact hex
      _ = 2 ^ (f.ew + f.fw) := (pow_add ..).symm
  unfold pack width
  rw [pow_succ]
  cases neg <;> simp only [bit1, Bool.false_eq_true, if_false, if_true] <;> omega

theorem Fmt.pack_div (f : Fmt) (neg : Bool) (ex : Nat) {fr : Nat} (hfr : fr < 2 ^ f.fw) :
    f.pack neg ex fr / 2 ^ f.fw = bit1 neg * 2 ^ f.ew + ex := by
  rw [pack, pow_add, ← mul_assoc, ← add_mul, add_comm, Nat.add_mul_div_right _ _ (Nat.two_pow_pos _), Nat.div_eq_of_lt hfr, zero_add]

theorem Fmt.pack_mod (f : Fmt) (neg : Bool) (ex : Nat) {fr : Nat} (hfr : fr < 2 ^ f.fw) :
    f.pack neg ex fr % 2 ^ f.fw = fr := by
  rw [pack, pow_add, ← mul_assoc, ← add_mul, add_comm, Nat.add_mul_mod_self_right, Nat.mod_eq_of_lt hfr]

/-- The sign bit of a pattern. -/
theorem Fmt.natBit_pack (f : Fmt) (neg : Bool) {ex fr : Nat} (hex : ex < 2 ^ f.ew) (hfr : fr < 2 ^ f.fw) :
    natBit (f.pack neg ex fr) (f.ew + f.fw) = neg := by
  rw [natBit, add_comm, pow_add, ← Nat.div_div_eq_div_mul, f.pack_div neg ex hfr, add_comm,
    Nat.add_mul_div_right _ _ (Nat.two_pow_pos _), Nat.div_eq_of_lt hex]
  cases neg <;> rfl

/-- R54: a pattern with an exponent field between those of zero and infinity is a normal number. -/
theorem Fmt.value_pack (f : Fmt) (neg : Bool) {ex fr : Nat} (h0 : 0 < ex) (hex : ex < 2 ^ f.ew - 1) (hfr : fr < 2 ^ f.fw) :
    f.value (f.pack neg ex fr) = .fin neg (2 ^ f.fw + fr) ((ex : Int) - f.bias - f.fw) := by
  have hlt : ex < 2 ^ f.ew := by omega
  have hew : f.ew ≠ 0 := by
    intro h
    rw [h] at hlt
    omega
  have hfield : natBits (f.pack neg ex fr) (f.ew + f.fw - 1) f.fw = ex := by
    rw [natBits, f.pack_div neg ex hfr, show f.ew + f.fw - 1 + 1 - f.fw = f.ew by omega, add_comm, Nat.add_mul_mod_self_right,
      Nat.mod_eq_of_lt hlt]
  simp only [value, f.natBit_pack neg hlt hfr, hfield, f.pack_mod neg ex hfr, hex.ne, h0.ne', if_false]

theorem Fmt.two_mul_bias {f : Fmt} (hf : 0 < f.ew) : 2 * f.bias + 2 = 2 ^ f.ew := by
  obtain ⟨n, hn⟩ : ∃ n, f.ew = n + 1 := ⟨f.ew - 1, by omega⟩
  have := Nat.two_pow_pos n
  rw [bias, hn, pow_succ, Nat.add_sub_cancel]
  omega

/-- A significand of fw + 1 bits, or the power of two above them, packed with the exponent of its top bit, has the value
n * 2^k where that exponent is a normal number's. -/
theorem Fmt.value_normal {f : Fmt} {n : Nat} {k : Int} (neg : Bool) (hf : 0 < f.ew) (hn : 2 ^ f.fw ≤ n ∧ n ≤ 2 ^ (f.fw + 1))
    (hlo : 1 - (f.bias : Int) ≤ bitLen n + k - 1) (hhi : (bitLen n : Int) + k - 1 ≤ f.bias) :
    let w := f.pack neg ((bitLen n : Int) + k - 1 + f.bias).toNat ((if bitLen n > f.fw + 1 then n / 2 else n) % 2 ^ f.fw)
    w < 2 ^ f.width ∧ ∃ m' e', f.value w = .fin neg m' e' ∧ m' * (2 : ℚ) ^ e' = n * 2 ^ k := by
  have hbias := Fmt.two_mul_bias hf
  have hfr := Nat.mod_lt (if bitLen n > f.fw + 1 then n / 2 else n) (Nat.two_pow_pos f.fw)
  refine ⟨f.pack_lt neg (by omega) hfr, _, _, f.value_pack neg (by omega) (by omega) hfr, ?_⟩
  rcases hn.2.lt_or_eq with hlt | rfl
  · have hlen : bitLen n = f.fw + 1 := bitLen_eq_succ_iff.2 ⟨hn.1, hlt⟩
    have hsig : 2 ^ f.fw + n % 2 ^ f.fw = n := by
      rw [Nat.mod_eq_sub_mod hn.1, Nat.mod_eq_of_lt (by omega)]
      omega
    rw [if_neg (by omega), hsig]
    congr 2
    omega
  · have hlen : bitLen (2 ^ (f.fw + 1)) = f.fw + 1 + 1 :=
      bitLen_eq_succ_iff.2 ⟨le_rfl, Nat.pow_lt_pow_right one_lt_two (Nat.lt_succ_self _)⟩
    have hhalf : 2 ^ (f.fw + 1) / 2 = 2 ^ f.fw := by rw [pow_succ, Nat.mul_div_cancel _ two_pos]
    have hexp : ((((bitLen (2 ^ (f.fw + 1)) : Int) + k - 1 + f.bias).toNat : Int) - f.bias - f.fw) = k + 1 := by omega
    rw [if_pos (by omega), hhalf, Nat.mod_self, add_zero, hexp, zpow_add_one₀ two_ne_zero]
    push_cast
    ring

-- ===== the fates of a rounded result =====

/-- What an overflow of a sign delivers in a mode (R58). -/
def Fmt.overflowed (f : Fmt) (r : Rnd) (neg : Bool) : Nat :=
  match r, neg with
  | .rne, _ | .rdn, true | .rup, false => f.inf neg
  | _, _ => f.maxFinite neg

theorem Fmt.round_zero (f : Fmt) (r : Rnd) (neg : Bool) (e : Int) : f.round r neg 0 e false = (f.zero neg, 0) := by
  simp [round]

section
variable {f : Fmt} {r : Rnd} {neg sticky inexact : Bool} {m n : Nat} {e k : Int}

/-- R59: what rounds to below the least normal number is rounded from the start at the subnormal grid. -/
theorem Fmt.round_tiny (hm : m ≠ 0) (hk : e + bitLen m - 1 - f.fw = k) (hn : roundAt r neg m e k sticky = (n, inexact))
    (htop : (bitLen n : Int) + k - 1 < 1 - f.bias) :
    let o := roundAt r neg m e (1 - (f.bias : Int) - f.fw) sticky
    f.round r neg m e sticky = (f.zero neg + o.1, if o.2 then Flags.underflow else 0) := by
  simp [round, hm, hk, hn, htop, zero, Flags.ofRounding]

/-- R58: what rounds to above the largest finite number overflows. -/
theorem Fmt.round_overflow (hm : m ≠ 0) (hk : e + bitLen m - 1 - f.fw = k) (hn : roundAt r neg m e k sticky = (n, inexact))
    (htop : (f.bias : Int) < bitLen n + k - 1) : f.round r neg m e sticky = (f.overflowed r neg, Flags.overflow) := by
  have hno : ¬(bitLen n : Int) + k - 1 < 1 - f.bias := by omega
  simp only [round, hm, hk, hn, hno, htop, decide_false, Bool.false_and, Bool.false_eq_true, if_false, if_true]
  cases r <;> cases neg <;> rfl

/-- Between the two the kept significand is packed, one bit shorter where it was rounded up to the next binade. -/
theorem Fmt.round_normal (hm : m ≠ 0) (hk : e + bitLen m - 1 - f.fw = k) (hn : roundAt r neg m e k sticky = (n, inexact))
    (hlo : 1 - (f.bias : Int) ≤ bitLen n + k - 1) (hhi : (bitLen n : Int) + k - 1 ≤ f.bias) :
    f.round r neg m e sticky =
      (f.pack neg ((bitLen n : Int) + k - 1 + f.bias).toNat ((if bitLen n > f.fw + 1 then n / 2 else n) % 2 ^ f.fw),
        if inexact then Flags.nx else 0) := by
  simp [round, hm, hk, hn, hlo.not_gt, hhi.not_gt, pack, Flags.ofRounding]

end

theorem FV.rat_fin (neg : Bool) (m : Nat) (e : Int) :
    (FV.fin neg m e).rat = if neg then -(m * (2 : ℚ) ^ e) else m * (2 : ℚ) ^ e := by
  cases neg <;> simp [FV.rat]

/-- Flags that say whether a result is exact. -/
theorem flags_of_inexact {inexact : Bool} {p : Prop} [Decidable p] (h : inexact = true ↔ ¬p) (fl : Flags) :
    (if inexact then fl else 0) = if p then 0 else fl := by
  simp only [h, ite_not]

/-- Settles O13: the kept significand n is the magnitude rounded at its own last place, its length places it among the
tiny, the normal and the overflowing results, and `roundAt` is correct at either grid. -/
theorem roundingIsCorrect : Obligations.RoundingIsCorrect := by
  unfold Obligations.RoundingIsCorrect
  intro fm r neg m e k sticky x hfm
  have hew : 0 < fm.ew := by rcases hfm with rfl | rfl | rfl | rfl <;> decide
  refine ⟨fm.round_zero r neg e, fun hst hlo hhi => ?_⟩
  have ht := hst.truncates
  have hm : m ≠ 0 := hst.ne_zero ((zpow_pos two_pos _).trans_le hlo)
  have hk : e + bitLen m - 1 - fm.fw = k := by
    have := ht.bitLen_eq hm hlo hhi
    omega
  have hsticky : sticky = true → e < k := by
    rintro rfl
    have := hst.long
    omega
  obtain ⟨hnear, hinexact⟩ := roundAt_spec ht hsticky r neg
  rcases hr : roundAt r neg m e k sticky with ⟨n, inexact⟩
  simp only [hr] at hnear hinexact
  have hn := hnear.bounds hlo hhi
  have hn0 : n ≠ 0 := by
    have := Nat.two_pow_pos fm.fw
    omega
  have hmax := mul_zpow_lt_zpow_iff hn0 k (fm.bias + 1 : Nat)
  have hmin := mul_zpow_lt_zpow_iff hn0 k (1 - (fm.bias : Int))
  rw [zpow_natCast] at hmax
  refine ⟨n, hnear, ?_⟩
  dsimp only
  split
  · next hover =>
    have htop : (fm.bias : Int) < bitLen n + k - 1 := by
      rw [← not_lt, hmax] at hover
      omega
    rw [Fmt.round_overflow hm hk hr htop]
    rfl
  · next hover =>
    split
    · next htiny =>
      have htop := hmin.1 htiny
      have hlen : fm.fw < bitLen n := lt_bitLen_of_pow_le hn.1
      have hsticky' : sticky = true → e < 1 - (fm.bias : Int) - fm.fw := fun hs => by
        have := hsticky hs
        omega
      obtain ⟨hnear', hinexact'⟩ := roundAt_spec ht hsticky' r neg
      exact ⟨_, hnear', by rw [Fmt.round_tiny hm hk hr htop, flags_of_inexact hinexact']⟩
    · next htiny =>
      have hbot : 1 - (fm.bias : Int) ≤ bitLen n + k - 1 := not_lt.1 (hmin.not.1 htiny)
      have htop : (bitLen n : Int) + k - 1 ≤ fm.bias := by
        rw [not_le, hmax] at hover
        omega
      obtain ⟨hlt, m', e', hval, hrat⟩ := Fmt.value_normal neg hew hn hbot htop
      rw [Fmt.round_normal hm hk hr hbot htop, flags_of_inexact hinexact]
      exact ⟨hlt, ⟨m', e', hval⟩, by rw [hval, FV.rat_fin, hrat], rfl⟩

end Sys2Proof.Machine
end

section
/-! Integer arithmetic (R88 to R91): a word of integer sources completes lane by lane, and its lane operation is the exact
result, fitted to the type. -/

namespace Sys2Proof.Machine

-- ===== integer words as a whole =====

section
variable {i : Instr} {h : Hdr} {lat : Lat} {d : Dst} {a b c : Src}

/-- A word of one word source completes with any function that agrees with its own. -/
theorem aluUn_completes {g g' : Word → Word × Flags} (hi : ∀ s, exec i s = (aluUn i h lat d a g).exec s)
    (hg : ∀ x, g x = g' x := by intros; rfl) (hl : lat ≠ .token := by nofun) : ComputesInt i h lat d a g' :=
  (alu_computesOne (aluUn i h lat d a g) i (dstReg d) _ hi hl rfl fun _ _ _ _ => rfl).congr fun _ _ _ _ => hg _

/-- A word of two word sources completes with any function that agrees with its own. -/
theorem aluBin_completes {g g' : Word → Word → Word × Flags} (hi : ∀ s, exec i s = (aluBin i h lat d a b g).exec s)
    (hg : ∀ x y, g x y = g' x y := by intros; rfl) (hl : lat ≠ .token := by nofun) : ComputesInt2 i h lat d a b g' :=
  (alu_computesOne (aluBin i h lat d a b g) i (dstReg d) _ hi hl rfl fun _ _ _ _ => rfl).congr fun _ _ _ _ => hg _ _

/-- A word of three word sources completes with any function that agrees with its own. -/
theorem aluTri_completes {g g' : Word → Word → Word → Word × Flags}
    (hi : ∀ s, exec i s = (aluTri i h lat d a b c g).exec s) (hg : ∀ x y z, g x y z = g' x y z := by intros; rfl)
    (hl : lat ≠ .token := by nofun) : ComputesInt3 i h lat d a b c g' :=
  (alu_computesOne (aluTri i h lat d a b c g) i (dstReg d) _ hi hl rfl fun _ _ _ _ => rfl).congr fun _ _ _ _ => hg _ _ _

end

-- ===== sums, products and carries (R88, R89) =====

theorem aluImulh_eq (ty : Ty) (x y : Word) : aluImulh ty x y = (putInt ty ((rdInt ty x * rdInt ty y) / 2 ^ ty.bits), 0) := by
  simp [aluImulh]

/-- The carry or borrow that leaves a sum or difference (R89). -/
def carryOut (ty : Ty) (sub : Bool) (x : Int) : Bool := if sub then decide (x < 0) else decide (x ≥ 2 ^ ty.bits)

theorem aluIaddx_eq (ty : Ty) (sub : Bool) (n : Nat) (x y : Word) :
    aluIaddx ty sub n x y =
      let r : Int := if sub then rdInt ty x - rdInt ty y - n else rdInt ty x + rdInt ty y + n
      (putInt ty r, carryOut ty sub r) := by
  simp [aluIaddx, carryOut]

/-- A carry out as a predicate in a register. -/
theorem setWidth_carry (undecided out : Bool) :
    (if undecided then 2 else boolP out).setWidth 64 = (if undecided then 2 else if out then 1 else 0 : Word) := by
  cases undecided <;> cases out <;> rfl

theorem carryIn_none (t : Team) (l : Nat) : carryIn t none l = (0, false) := rfl

theorem carryIn_some (t : Team) (p : BitVec 4) (l : Nat) :
    carryIn t (some p) l = (if readP t p.toNat l = 1 then 1 else 0, readP t p.toNat l == 2) := by
  simp [carryIn, bit1]

theorem dstReg_ne_pReg (d : Dst) (p : BitVec 4) : dstReg d ≠ pReg p := by cases d <;> exact nofun

/-- R89: iaddx completes with its value and its carry out, undecided where the carry in is. -/
theorem iaddx_completes (h : Hdr) (ty : Ty) (sub : Bool) (ci : Option (BitVec 4)) (d : Dst) (a b : Src) (co : BitVec 4)
    {s : State} {t : Team} (hs : Issuing s t) :
    let r := fun l : Nat => aluIaddx ty sub (carryIn t ci l).1 (readSrc s s.cur t .int a l) (readSrc s s.cur t .int b l)
    Computes (.iaddx h ty sub ci d a b co) s t h L4
      [(dstReg d, fun l => some (r l).1),
       (pReg co, fun l => some (if (carryIn t ci l).2 then 2 else if (r l).2 then 1 else 0))] fun _ => 0 := by
  have k := alu_completes (iaddxAlu h ty sub ci d a b co) (.iaddx h ty sub ci d a b co) (fun _ => rfl) nofun s t hs fun _ => rfl
  simp only [iaddxAlu, setWidth_carry] at k
  simpa [dstReg_ne_pReg] using k

-- ===== quotients (R90) =====

theorem aluIdiv_eq (ty : Ty) (rem : Bool) (x y : Word) :
    aluIdiv ty rem x y =
      let n := rdInt ty x
      let m := rdInt ty y
      (putInt ty (
        if m = 0 then (if rem then n else 2 ^ ty.bits - 1)
        else if ty.signed = true ∧ n = -(2 ^ (ty.bits - 1)) ∧ m = -1 then (if rem then 0 else -(2 ^ (ty.bits - 1)))
        else if rem then n - Int.tdiv n m * m else Int.tdiv n m), 0) := by
  have hleast : ty.signed = true → ty.least = -(2 ^ (ty.bits - 1)) := fun hs => by simp [Ty.least, hs]
  simp only [aluIdiv, divParts]
  generalize rdInt ty x = n
  generalize rdInt ty y = m
  by_cases hm : m = 0
  · simp [hm]
  · by_cases hmin : ty.signed = true ∧ n = -(2 ^ (ty.bits - 1)) ∧ m = -1
    · obtain ⟨hs, hn, hm1⟩ := hmin
      simp [hs, hn, hm1, hleast]
    · have hcond : ¬(ty.signed && n == ty.least && m == -1) = true := by
        simp only [Bool.and_eq_true, beq_iff_eq, and_assoc]
        rintro ⟨hs, hn, hm1⟩
        exact hmin ⟨hs, hn.trans (hleast hs), hm1⟩
      simp only [if_neg hm, if_neg hmin, if_neg hcond, Int.tmod_def, mul_comm m]

-- ===== magnitudes and byte products (R91) =====

theorem aluIabs_eq (ty : Ty) (sat : Bool) (x : Word) : aluIabs ty sat x = fitInt ty sat |rdInt ty x| := by
  rw [aluIabs, Int.natCast_natAbs]

/-- Byte i of a word is the word shifted down by i bytes and read as a byte. -/
theorem byteInt_eq (x : Word) (i : Nat) (u : Bool) : byteInt x i u = rdInt (if u then .n8 else .s8) (x >>> (8 * i)) := by
  have hw : 8 * i + 7 + 1 - 8 * i = 8 := by omega
  cases u <;> simp [byteInt, natBits, rdInt, Ty.signed, Ty.bits, signedOf, hw, Nat.shiftRight_eq_div_pow]

theorem aluIdp4_eq (sat ua ub : Bool) (x y z : Word) :
    aluIdp4 sat ua ub x y z =
      let byte := fun (v : Word) (u : Bool) (i : Nat) => rdInt (if u then .n8 else .s8) (v >>> (8 * i))
      fitInt .s32 sat (rdInt .s32 z + ((List.range 4).map fun i => byte x ua i * byte y ub i).sum) := by
  simp only [aluIdp4, byteInt_eq]
  simp [List.range_succ, add_assoc]

/-- Settles O8: each word is one arithmetic word over its lanes, and its lane operation is the exact result, fitted. -/
theorem integerArithmetic : Obligations.IntegerArithmetic := by
  unfold Obligations.IntegerArithmetic
  refine ⟨fun h ty sat d a b c => ⟨aluBin_completes fun _ => rfl, aluBin_completes fun _ => rfl, aluBin_completes fun _ => rfl,
      aluBin_completes (fun _ => rfl) (aluImulh_eq ty), aluTri_completes fun _ => rfl, aluTri_completes fun _ => rfl,
      aluTri_completes fun _ => rfl⟩,
    fun h ty sub ci d a b co s t hs => ?_,
    fun h ty rem d a b => aluBin_completes (fun _ => rfl) (aluIdiv_eq ty rem),
    fun h ty sat ua ub d a b c => ⟨aluUn_completes (fun _ => rfl) (aluIabs_eq ty sat), aluUn_completes fun _ => rfl,
      aluBin_completes fun _ => rfl, aluBin_completes fun _ => rfl, aluTri_completes fun _ => rfl,
      aluTri_completes (fun _ => rfl) (aluIdp4_eq sat ua ub)⟩⟩
  have k := iaddx_completes h ty sub ci d a b co hs
  simp only [aluIaddx_eq] at k
  cases ci with
  | none => simpa only [carryIn_none, carryOut, Nat.cast_zero] using k
  | some p => simpa only [carryIn_some, carryOut, Nat.cast_ite, Nat.cast_one, Nat.cast_zero] using k

end Sys2Proof.Machine
end

section
/-! Bitwise logic and shifts (R92 to R94): the bits of what the bitwise words write, and counts of the width or more. -/

namespace Sys2Proof.Machine

-- ===== bitwise logic (R92, R93) =====

theorem lutTerm_bit (tt : BitVec 8) (n : Nat) (x : Word) (i : Nat) :
    (lutTerm tt n x).getLsbD i = (tt.getLsbD n && x.getLsbD i) := by
  unfold lutTerm
  split <;> simp [*]

/-- R93: bit i of lut3 is the table's entry of the operands' bits i. -/
theorem aluLut3_bit (ty : Ty) (tt : BitVec 8) (x y z : Word) {i : Nat} (hi : i < 64) :
    (aluLut3 ty tt x y z).1.getLsbD i = (decide (i < ty.bits) &&
      tt.getLsbD (4 * bit1 (x.getLsbD i) + 2 * bit1 (y.getLsbD i) + bit1 (z.getLsbD i))) := by
  simp only [aluLut3, putBits_bit _ _ _ hi, BitVec.getLsbD_or, lutTerm_bit, BitVec.getLsbD_and, BitVec.getLsbD_not, hi,
    decide_true, Bool.true_and]
  congr 1
  cases x.getLsbD i <;> cases y.getLsbD i <;> cases z.getLsbD i <;> simp [bit1]

-- ===== shifts (R94) =====

theorem putBits_toNat {w : Nat} (hw : w ≤ 64) (x : Word) : (putBits w x).toNat = x.toNat % 2 ^ w := by
  rw [putBits, BitVec.toNat_ofNat, Nat.mod_eq_of_lt]
  exact (Nat.mod_lt _ (Nat.two_pow_pos w)).trans_le (Nat.pow_le_pow_right two_pos hw)

theorem shiftCount_of_lt {w : Nat} (hw : w ≤ 64) {y : Word} (h : y.toNat % 2 ^ 32 < w) : shiftCount y = y.toNat % 2 ^ 32 :=
  Nat.min_eq_left (by omega)

/-- A count that is cut at 64 is still the width or more where it was. -/
theorem le_shiftCount {w : Nat} (hw : w ≤ 64) {y : Word} (h : w ≤ y.toNat % 2 ^ 32) : w ≤ shiftCount y := le_min h hw

theorem aluShl_eq (ty : Ty) (x y : Word) :
    aluShl ty x y =
      let n := y.toNat % 2 ^ 32
      (if n ≥ ty.bits then 0 else BitVec.ofNat 64 (x.toNat % 2 ^ ty.bits * 2 ^ n % 2 ^ ty.bits), 0) := by
  have hw := tyBits_le ty
  have hbits : ∀ m, (x <<< m).toNat % 2 ^ ty.bits = x.toNat * 2 ^ m % 2 ^ ty.bits := fun m => by
    rw [BitVec.toNat_shiftLeft, Nat.mod_mod_of_dvd _ (pow_dvd_pow 2 hw), Nat.shiftLeft_eq]
  simp only [aluShl, putBits, hbits, Nat.mod_mul_mod]
  split
  · next h =>
    rw [Nat.mod_eq_zero_of_dvd ((pow_dvd_pow 2 (le_shiftCount hw h)).mul_left _)]
    rfl
  · next h => rw [shiftCount_of_lt hw (not_le.1 h)]

theorem aluShr_eq (ty : Ty) (x y : Word) :
    aluShr ty x y =
      let n := y.toNat % 2 ^ 32
      (if n ≥ ty.bits then 0 else BitVec.ofNat 64 (x.toNat % 2 ^ ty.bits / 2 ^ n), 0) := by
  have hw := tyBits_le ty
  have hx := Nat.mod_lt x.toNat (Nat.two_pow_pos ty.bits)
  have hbits : ∀ m, putBits ty.bits x >>> m = BitVec.ofNat 64 (x.toNat % 2 ^ ty.bits / 2 ^ m) := fun m => by
    have hlt : x.toNat % 2 ^ ty.bits / 2 ^ m < 2 ^ 64 :=
      (Nat.div_le_self _ _).trans_lt (hx.trans_le (Nat.pow_le_pow_right two_pos hw))
    apply BitVec.eq_of_toNat_eq
    rw [BitVec.toNat_ushiftRight, putBits_toNat hw, BitVec.toNat_ofNat, Nat.shiftRight_eq_div_pow, Nat.mod_eq_of_lt hlt]
  simp only [aluShr, hbits]
  split
  · next h =>
    rw [Nat.div_eq_of_lt (hx.trans_le (Nat.pow_le_pow_right two_pos (le_shiftCount hw h)))]
    rfl
  · next h => rw [shiftCount_of_lt hw (not_le.1 h)]

/-- An integer shifted down past its range leaves copies of its sign. -/
theorem ediv_two_pow_of_range {v : Int} {m : Nat} (hlo : -(2 ^ m) ≤ v) (hhi : v < 2 ^ m) :
    v / 2 ^ m = if v < 0 then -1 else 0 := by
  split
  · next h =>
    have hpos : (0 : Int) < 2 ^ m := by positivity
    have hneg := Int.ediv_neg_of_neg_of_pos h hpos
    have hge : -1 ≤ v / 2 ^ m := (Int.le_ediv_iff_mul_le hpos).2 (by linarith)
    omega
  · next h => exact Int.ediv_eq_zero_of_lt (not_lt.1 h) hhi

theorem aluSar_eq (ty : Ty) (x y : Word) :
    aluSar ty x y =
      let n := y.toNat % 2 ^ 32
      (putInt ty (if n ≥ ty.bits then (if rdInt ty x < 0 then -1 else 0) else rdInt ty x / 2 ^ n), 0) := by
  have hw := tyBits_le ty
  simp only [aluSar, Nat.cast_pow, Nat.cast_ofNat]
  split
  · next h =>
    obtain ⟨hlo, hhi⟩ := rdInt_range ty x
    have hle : (2 : Int) ^ ty.bits ≤ 2 ^ shiftCount y := pow_le_pow_right₀ one_le_two (le_shiftCount hw h)
    have hhalf : (2 : Int) ^ (ty.bits - 1) ≤ 2 ^ ty.bits := pow_le_pow_right₀ one_le_two (Nat.sub_le _ _)
    push_cast at hlo hhi
    rw [ediv_two_pow_of_range (by linarith) (by linarith)]
  · next h => rw [shiftCount_of_lt hw (not_le.1 h)]

/-- Settles O9: the bitwise words write the operands' bits, combined, and the shifts cut their count at 64 alone. -/
theorem bitwiseLogicAndShifts : Obligations.BitwiseLogicAndShifts := by
  unfold Obligations.BitwiseLogicAndShifts
  refine ⟨fun h ty tt d a b c => ⟨fun x y => (aluAnd ty x y).1, fun x y => (aluOr ty x y).1, fun x y => (aluXor ty x y).1,
      fun x y => (aluAndn ty x y).1, fun x y z => (aluLut3 ty tt x y z).1, aluBin_completes fun _ => rfl,
      aluBin_completes fun _ => rfl, aluBin_completes fun _ => rfl, aluBin_completes fun _ => rfl, aluTri_completes fun _ => rfl,
      fun x y z i hi => ⟨?and, ?or, ?xor, ?andn, aluLut3_bit ty tt x y z hi⟩⟩,
    fun h ty d a b c => ⟨aluBin_completes (fun _ => rfl) (aluShl_eq ty), aluBin_completes (fun _ => rfl) (aluShr_eq ty),
      aluBin_completes (fun _ => rfl) (aluSar_eq ty), aluTri_completes fun _ => rfl⟩⟩
  case and => exact (putBits_bit _ _ _ hi).trans (by rw [BitVec.getLsbD_and])
  case or => exact (putBits_bit _ _ _ hi).trans (by rw [BitVec.getLsbD_or])
  case xor => exact (putBits_bit _ _ _ hi).trans (by rw [BitVec.getLsbD_xor])
  case andn => exact (putBits_bit _ _ _ hi).trans (by simp [hi])

end Sys2Proof.Machine
end

section
/-! Bit counts, reversals, byte picks and bit fields (R95 to R97), bit by bit. -/

namespace Sys2Proof.Machine

-- ===== bits of naturals and of integers written in a type =====

theorem natBit_eq_testBit (x i : Nat) : natBit x i = x.testBit i := by
  rw [natBit, Nat.testBit_eq_decide_div_mod_eq]
  rfl

theorem natBit_toNat (x : Word) (i : Nat) : natBit x.toNat i = x.getLsbD i := natBit_eq_testBit _ _

theorem natBits_lt (x hi lo : Nat) : natBits x hi lo < 2 ^ (hi + 1 - lo) := Nat.mod_lt _ (Nat.two_pow_pos _)

theorem testBit_natBits (x hi lo j : Nat) : (natBits x hi lo).testBit j = (decide (j < hi + 1 - lo) && x.testBit (j + lo)) := by
  rw [natBits, Nat.testBit_mod_two_pow, Nat.testBit_div_two_pow]

theorem wrapNat_natCast (w n : Nat) : wrapNat w (n : Int) = n % 2 ^ w := by
  rw [wrapNat, ← Int.natCast_mod, Int.toNat_natCast]

theorem natCast_wrapNat (w : Nat) (x : Int) : (wrapNat w x : Int) = x % 2 ^ w := by
  rw [wrapNat, Int.toNat_of_nonneg (Int.emod_nonneg _ (by positivity)), Nat.cast_pow, Nat.cast_ofNat]

/-- The low bits of a wrapped integer are those of the integer wrapped to fewer. -/
theorem wrapNat_mod {v w : Nat} (h : v ≤ w) (x : Int) : wrapNat w x % 2 ^ v = wrapNat v x := by
  zify
  rw [natCast_wrapNat, natCast_wrapNat, Int.emod_emod_of_dvd _ (pow_dvd_pow 2 h)]

/-- Wrapping forgets how the low bits were read. -/
theorem wrapNat_signedOf (w n : Nat) : wrapNat w (signedOf w n) = n % 2 ^ w := by
  unfold signedOf
  dsimp only
  split
  · rw [wrapNat_natCast, Nat.mod_mod]
  · zify
    simp [natCast_wrapNat]

/-- A register holds the bits of the integer that it was written with, below the width of its type. -/
theorem putInt_bit (ty : Ty) (x : Int) {i : Nat} (hi : i < ty.bits) : (putInt ty x).getLsbD i = (wrapNat ty.bits x).testBit i := by
  have hi64 := hi.trans_le (tyBits_le ty)
  have hext : ∀ w, w ≤ 32 → i < w →
      (BitVec.ofNat 64 (wrapNat 32 (signedOf w (wrapNat w x)))).getLsbD i = (wrapNat w x).testBit i := by
    intro w hw hiw
    have hlow : wrapNat 32 (signedOf w (wrapNat w x)) % 2 ^ w = wrapNat w x := by
      rw [wrapNat_mod hw, wrapNat_signedOf, wrapNat_mod le_rfl]
    rw [← hlow, Nat.testBit_mod_two_pow, BitVec.getLsbD_ofNat, hlow]
    simp [hi64, hiw]
  cases ty
  case s8 => exact hext 8 (by decide) hi
  case s16 => exact hext 16 (by decide) hi
  all_goals simp only [putInt, BitVec.getLsbD_ofNat, hi64, decide_true, Bool.true_and]

/-- A field read in two's complement and written wider: its own bits, then copies of its top bit. -/
theorem testBit_wrapNat_signedOf {w len n i : Nat} (hpos : 0 < len) (hlen : len ≤ w) (hn : n < 2 ^ len) (hi : i < w) :
    (wrapNat w (signedOf len n)).testBit i = n.testBit (if i < len then i else len - 1) := by
  have hlw : 2 ^ len ≤ 2 ^ w := Nat.pow_le_pow_right two_pos hlen
  unfold signedOf
  simp only [Nat.mod_eq_of_lt hn]
  split
  · next hlow =>
    rw [wrapNat_natCast, Nat.mod_eq_of_lt (hn.trans_le hlw)]
    split
    · rfl
    · rw [Nat.testBit_lt_two_pow hlow, Nat.testBit_lt_two_pow (hn.trans_le (Nat.pow_le_pow_right two_pos (by omega)))]
  · next hhigh =>
    have hfill : wrapNat w ((n : Int) - (2 ^ len : Nat)) = 2 ^ len * (2 ^ (w - len) - 1) + n := by
      rw [Nat.mul_sub_one, ← pow_add, Nat.add_sub_of_le hlen]
      zify [hlw]
      zify at hn hlw
      rw [natCast_wrapNat, ← Int.add_emod_right, Int.emod_eq_of_lt (by linarith) (by linarith)]
      ring
    rw [hfill, Nat.testBit_two_pow_mul_add _ hn]
    split
    · rfl
    · have htop : n.testBit (len - 1) = true :=
        Nat.testBit_of_two_pow_le_and_two_pow_add_one_gt (not_lt.1 hhigh) (by rwa [Nat.sub_add_cancel hpos])
      rw [htop, Nat.testBit_two_pow_sub_one]
      exact decide_eq_true (by omega)

-- ===== numbers made of digits =====

theorem foldl_range_add (f : Nat → Nat) (n : Nat) :
    (List.range n).foldl (fun acc i => acc + f i) 0 = ∑ i ∈ Finset.range n, f i := by
  induction n with
  | zero => rfl
  | succ n ih => rw [List.range_succ, List.foldl_append, ih, Finset.sum_range_succ]; rfl

section
variable {k : Nat} {dig : Nat → Nat} (hdig : ∀ i, dig i < 2 ^ k)
include hdig

theorem sum_digits_lt (n : Nat) : ∑ i ∈ Finset.range n, dig i * 2 ^ (k * i) < 2 ^ (k * n) := by
  induction n with
  | zero => simp
  | succ n ih =>
    rw [Finset.sum_range_succ]
    calc _ < (dig n + 1) * 2 ^ (k * n) := by linarith
      _ ≤ 2 ^ k * 2 ^ (k * n) := by gcongr; exact hdig n
      _ = 2 ^ (k * (n + 1)) := by ring

/-- Bit j of digit i of a number made of digits of k bits. -/
theorem testBit_sum_digits (n i : Nat) {j : Nat} (hj : j < k) :
    (∑ m ∈ Finset.range n, dig m * 2 ^ (k * m)).testBit (k * i + j) = (decide (i < n) && (dig i).testBit j) := by
  induction n with
  | zero => simp
  | succ n ih =>
    rw [Finset.sum_range_succ, add_comm, mul_comm, Nat.testBit_two_pow_mul_add _ (sum_digits_lt hdig n), ih]
    rcases lt_trichotomy i n with hlt | rfl | hgt
    · have : k * (i + 1) ≤ k * n := by gcongr; exact hlt
      rw [if_pos (by linarith)]
      simp [hlt, hlt.trans (Nat.lt_succ_self n)]
    · simp
    · have : k * (n + 1) ≤ k * i := by gcongr; exact hgt
      have hk : k ≤ k * i + j - k * n := by rw [mul_add, mul_one] at this; omega
      rw [if_neg (by linarith), Nat.testBit_lt_two_pow ((hdig n).trans_le (Nat.pow_le_pow_right two_pos hk))]
      simp [hgt]

end

-- ===== counts (R95) =====

/-- A count of at most the width fits a register. -/
theorem toNat_ofNat_of_le_bits {ty : Ty} {n : Nat} (h : n ≤ ty.bits) : (BitVec.ofNat 64 n).toNat = n := by
  have := tyBits_le ty
  rw [BitVec.toNat_ofNat, Nat.mod_eq_of_lt (by omega)]

theorem aluPopc_toNat (ty : Ty) (x : Word) : (aluPopc ty x).1.toNat = (List.range ty.bits).countP fun i => x.getLsbD i := by
  have hle : popCount ty.bits x.toNat ≤ ty.bits := (List.length_filter_le ..).trans_eq List.length_range
  rw [aluPopc, toNat_ofNat_of_le_bits hle, popCount, List.countP_eq_length_filter]
  simp only [natBit_toNat]

theorem bitLen_le_of_lt {n b : Nat} (h : n < 2 ^ b) : bitLen n ≤ b := by
  by_contra hlt
  have hn : n ≠ 0 := by
    rintro rfl
    simp [bitLen] at hlt
  have := (Nat.pow_lt_pow_iff_right one_lt_two).1 ((pow_bitLen_le hn).trans_lt h)
  omega

theorem testBit_of_bitLen_le {n i : Nat} (h : bitLen n ≤ i) : n.testBit i = false :=
  Nat.testBit_lt_two_pow ((lt_pow_bitLen n).trans_le (Nat.pow_le_pow_right two_pos h))

theorem testBit_bitLen_sub_one {n : Nat} (hn : n ≠ 0) : n.testBit (bitLen n - 1) = true :=
  Nat.testBit_of_two_pow_le_and_two_pow_add_one_gt (pow_bitLen_le hn)
    (by rw [Nat.sub_add_cancel (bitLen_pos hn)]; exact lt_pow_bitLen n)

/-- clz is what the length of A's low bits leaves of the width. -/
theorem aluClz_toNat (ty : Ty) (x : Word) : (aluClz ty x).1.toNat = ty.bits - bitLen (x.toNat % 2 ^ ty.bits) := by
  rw [aluClz, toNat_ofNat_of_le_bits (Nat.sub_le _ _)]

/-- R95: above the bit that clz names all are clear, and that bit is set. -/
theorem aluClz_spec (ty : Ty) (x : Word) :
    let n := (aluClz ty x).1.toNat
    n ≤ ty.bits ∧ (∀ i, i < ty.bits → ty.bits - n ≤ i → x.getLsbD i = false) ∧
      (n < ty.bits → x.getLsbD (ty.bits - 1 - n) = true) := by
  have hlen := bitLen_le_of_lt (Nat.mod_lt x.toNat (Nat.two_pow_pos ty.bits))
  have hbit : ∀ i, i < ty.bits → x.getLsbD i = (x.toNat % 2 ^ ty.bits).testBit i := fun i hi => by
    rw [Nat.testBit_mod_two_pow, decide_eq_true hi]
    rfl
  have htop : ty.bits - 1 - (ty.bits - bitLen (x.toNat % 2 ^ ty.bits)) = bitLen (x.toNat % 2 ^ ty.bits) - 1 := by omega
  simp only [aluClz_toNat]
  refine ⟨Nat.sub_le _ _, fun i hi hle => ?_, fun hlt => ?_⟩
  · rw [hbit i hi]
    exact testBit_of_bitLen_le (by omega)
  · rw [hbit _ (by omega), htop]
    refine testBit_bitLen_sub_one fun h0 => ?_
    simp [h0, bitLen] at hlt

/-- The lowest set bit among w, and the clear ones below it. -/
theorem lowestBit_spec (w x : Nat) :
    lowestBit w x ≤ w ∧ (∀ i, i < lowestBit w x → x.testBit i = false) ∧
      (lowestBit w x < w → x.testBit (lowestBit w x) = true) := by
  unfold lowestBit
  simp only [natBit_eq_testBit]
  cases hfind : (List.range w).find? fun i => x.testBit i with
  | none =>
    have hnone := List.find?_range_eq_none.1 hfind
    simpa using hnone
  | some n =>
    obtain ⟨hset, hmem, hbelow⟩ := List.find?_range_eq_some.1 hfind
    have hn := List.mem_range.1 hmem
    simpa [hset, hn.le] using hbelow

theorem aluCtz_spec (ty : Ty) (x : Word) :
    let n := (aluCtz ty x).1.toNat
    n ≤ ty.bits ∧ (∀ i, i < n → x.getLsbD i = false) ∧ (n < ty.bits → x.getLsbD n = true) := by
  have hspec := lowestBit_spec ty.bits x.toNat
  rw [aluCtz, toNat_ofNat_of_le_bits hspec.1]
  exact hspec

-- ===== reversal and byte picks (R95, R97) =====

/-- R95: brev mirrors the bits of the width. -/
theorem aluBrev_bit (ty : Ty) (x : Word) {i : Nat} (hi : i < 64) :
    (aluBrev ty x).1.getLsbD i = (decide (i < ty.bits) && x.getLsbD (ty.bits - 1 - i)) := by
  have hdig : ∀ m, bit1 (x.getLsbD (ty.bits - 1 - m)) < 2 ^ 1 := fun m => by
    cases x.getLsbD (ty.bits - 1 - m) <;> decide
  have hsum : ∑ m ∈ Finset.range ty.bits, bit1 (natBit x.toNat m) * 2 ^ (ty.bits - 1 - m) =
      ∑ m ∈ Finset.range ty.bits, bit1 (x.getLsbD (ty.bits - 1 - m)) * 2 ^ (1 * m) := by
    rw [← Finset.sum_range_reflect]
    refine Finset.sum_congr rfl fun m hm => ?_
    rw [natBit_toNat, one_mul, Nat.sub_sub_self (Nat.le_sub_one_of_lt (Finset.mem_range.1 hm))]
  have hbit := testBit_sum_digits hdig ty.bits i one_pos
  rw [one_mul, add_zero] at hbit
  simp only [aluBrev, foldl_range_add, hsum, BitVec.getLsbD_ofNat, hi, hbit, decide_true, Bool.true_and]
  cases x.getLsbD (ty.bits - 1 - i) <;> rfl

/-- The byte that selector i of bperm picks (R97). -/
def pickedByte (ty : Ty) (x y z : Word) (i : Nat) : Nat :=
  let s := natBits z.toNat (4 * i + 3) (4 * i)
  if ty = .b32 then
    if s ≥ 8 then 0 else if s < 4 then natBits x.toNat (8 * s + 7) (8 * s) else natBits y.toNat (8 * s - 25) (8 * s - 32)
  else if s < 8 then natBits x.toNat (8 * s + 7) (8 * s) else natBits y.toNat (8 * s - 57) (8 * s - 64)

theorem aluBperm_eq (ty : Ty) (x y z : Word) :
    aluBperm ty x y z = (BitVec.ofNat 64 (∑ i ∈ Finset.range (ty.bits / 8), pickedByte ty x y z i * 2 ^ (8 * i)), 0) := by
  simp only [aluBperm, foldl_range_add, pickedByte, beq_iff_eq]

theorem pickedByte_lt (ty : Ty) (x y z : Word) (i : Nat) : pickedByte ty x y z i < 2 ^ 8 := by
  have hbyte : ∀ v hi lo, hi + 1 - lo ≤ 8 → natBits v hi lo < 2 ^ 8 := fun v hi lo hle =>
    (natBits_lt v hi lo).trans_le (Nat.pow_le_pow_right two_pos hle)
  unfold pickedByte
  dsimp only
  split
  · split
    · decide
    · split <;> exact hbyte _ _ _ (by omega)
  · split <;> exact hbyte _ _ _ (by omega)

/-- R97: bit j of the byte picked is bit j of the source byte that the selector names. -/
theorem testBit_pickedByte (ty : Ty) (x y z : Word) (i : Nat) {j : Nat} (hj : j < 8) :
    (pickedByte ty x y z i).testBit j =
      let s := (z.toNat / 2 ^ (4 * i)) % 16
      if ty = .b32 then decide (s < 8) && (if s < 4 then x.getLsbD (8 * s + j) else y.getLsbD (8 * (s - 4) + j))
      else if s < 8 then x.getLsbD (8 * s + j) else y.getLsbD (8 * (s - 8) + j) := by
  have hsel : natBits z.toNat (4 * i + 3) (4 * i) = z.toNat / 2 ^ (4 * i) % 16 := by
    rw [natBits, show 4 * i + 3 + 1 - 4 * i = 4 by omega]
    rfl
  have hbyte : ∀ (v : Word) (hi lo m : Nat), hi = 8 * m + 7 → lo = 8 * m →
      (natBits v.toNat hi lo).testBit j = v.getLsbD (8 * m + j) := by
    rintro v _ _ m rfl rfl
    rw [testBit_natBits, decide_eq_true (by omega), Bool.true_and, add_comm]
    rfl
  simp only [pickedByte, hsel]
  generalize z.toNat / 2 ^ (4 * i) % 16 = s
  split
  · split
    · next hs => simp [hs.not_gt]
    · next hs =>
      rw [decide_eq_true (not_le.1 hs), Bool.true_and]
      split
      · exact hbyte x _ _ s rfl rfl
      · exact hbyte y _ _ (s - 4) (by omega) (by omega)
  · split
    · exact hbyte x _ _ s rfl rfl
    · exact hbyte y _ _ (s - 8) (by omega) (by omega)

theorem aluBperm_bit (ty : Ty) (x y z : Word) {i j : Nat} (hi : i < ty.bits / 8) (hj : j < 8) :
    (aluBperm ty x y z).1.getLsbD (8 * i + j) = (pickedByte ty x y z i).testBit j := by
  have hlt : 8 * i + j < 64 := by
    have := tyBits_le ty
    omega
  rw [aluBperm_eq, BitVec.getLsbD_ofNat, testBit_sum_digits (pickedByte_lt ty x y z) _ _ hj, decide_eq_true hlt,
    decide_eq_true hi, Bool.true_and, Bool.true_and]

-- ===== bit fields (R96) =====

/-- A clipped field of a length ends at the top of the word. -/
theorem add_clipLen_le {w pos len : Nat} (h : 0 < clipLen w pos len) : pos + clipLen w pos len ≤ w := by
  unfold clipLen at *
  omega

/-- The bits of the field that bfx extracts. -/
theorem testBit_field (x : Nat) {w pos len i : Nat} (h : pos + len ≤ w) :
    (x % 2 ^ w / 2 ^ pos % 2 ^ len).testBit i = (decide (i < len) && x.testBit (pos + i)) := by
  rw [Nat.testBit_mod_two_pow, Nat.testBit_div_two_pow, Nat.testBit_mod_two_pow, add_comm i]
  by_cases hi : i < len
  · rw [decide_eq_true (show pos + i < w by omega), Bool.true_and]
  · simp [hi]

/-- R96: bfx extends a field by its type. -/
theorem aluBfx_spec (ty : Ty) (x y z : Word) :
    let pos := y.toNat % 256
    let len := clipLen ty.bits pos (z.toNat % 256)
    (len = 0 → (aluBfx ty x y z).1 = 0) ∧
    (∀ i, i < len → (aluBfx ty x y z).1.getLsbD i = x.getLsbD (pos + i)) ∧
    ∀ i, len ≤ i → i < ty.bits → 0 < len → (aluBfx ty x y z).1.getLsbD i = (ty.signed && x.getLsbD (pos + len - 1)) := by
  intro pos len
  have hval : (aluBfx ty x y z).1 = putInt ty
      (if ty.signed && len != 0 then signedOf len (x.toNat % 2 ^ ty.bits / 2 ^ pos % 2 ^ len)
        else (x.toNat % 2 ^ ty.bits / 2 ^ pos % 2 ^ len : Nat)) := rfl
  have hbit : ∀ i, i < ty.bits → 0 < len → (aluBfx ty x y z).1.getLsbD i =
      if i < len then x.getLsbD (pos + i) else (ty.signed && x.getLsbD (pos + len - 1)) := by
    intro i hi hpos
    have hfit : pos + len ≤ ty.bits := add_clipLen_le hpos
    have hfield := fun i => testBit_field x.toNat (i := i) hfit
    have hlt := Nat.mod_lt (x.toNat % 2 ^ ty.bits / 2 ^ pos) (Nat.two_pow_pos len)
    rw [hval, putInt_bit ty _ hi]
    generalize x.toNat % 2 ^ ty.bits / 2 ^ pos % 2 ^ len = field at hfield hlt
    cases ty.signed
    · have hfits : field < 2 ^ ty.bits := hlt.trans_le (Nat.pow_le_pow_right two_pos (by omega))
      rw [Bool.false_and, if_neg Bool.false_ne_true, wrapNat_natCast, Nat.mod_eq_of_lt hfits, hfield]
      by_cases hlow : i < len <;> simp [hlow, BitVec.getLsbD]
    · rw [Bool.true_and, if_pos (by simpa using hpos.ne'), testBit_wrapNat_signedOf hpos (by omega) hlt hi, hfield]
      by_cases hlow : i < len
      · simp [hlow, BitVec.getLsbD]
      · simp [hlow, BitVec.getLsbD, hpos, Nat.add_sub_assoc hpos]
  refine ⟨fun h0 => ?_, fun i hi => ?_, fun i hle hi hpos => ?_⟩
  · rw [hval, h0, pow_zero, Nat.mod_one]
    cases ty <;> rfl
  · have hfit : pos + len ≤ ty.bits := add_clipLen_le (by omega)
    rw [hbit i (by omega) (by omega), if_pos hi]
  · rw [hbit i hi hpos, if_neg (by omega)]

/-- R96: bfi replaces the bits of a field. -/
theorem aluBfi_bit (ty : Ty) (x y z : Word) {i : Nat} (hi : i < ty.bits) :
    let pos := z.toNat % 256
    let len := clipLen ty.bits pos (z.toNat / 256 % 256)
    (aluBfi ty x y z).1.getLsbD i = if pos ≤ i ∧ i < pos + len then y.getLsbD (i - pos) else x.getLsbD i := by
  intro pos len
  have hi64 := hi.trans_le (tyBits_le ty)
  have hmask : ((2 ^ len - 1) * 2 ^ pos).testBit i = decide (pos ≤ i ∧ i < pos + len) := by
    rw [Nat.testBit_mul_two_pow, Nat.testBit_two_pow_sub_one, ← Bool.decide_and]
    exact decide_eq_decide.2 (by omega)
  have hval : (aluBfi ty x y z).1 = putBits ty.bits ((x &&& ~~~BitVec.ofNat 64 ((2 ^ len - 1) * 2 ^ pos)) |||
      (BitVec.ofNat 64 (y.toNat * 2 ^ pos) &&& BitVec.ofNat 64 ((2 ^ len - 1) * 2 ^ pos))) := rfl
  have hshift : (y.toNat * 2 ^ pos).testBit i = (decide (pos ≤ i) && y.getLsbD (i - pos)) := Nat.testBit_mul_two_pow ..
  simp only [hval, putBits_bit _ _ _ hi64, BitVec.getLsbD_or, BitVec.getLsbD_and, BitVec.getLsbD_not, BitVec.getLsbD_ofNat, hi,
    hi64, hmask, hshift, decide_true, Bool.true_and]
  by_cases hin : pos ≤ i ∧ i < pos + len
  · simp [hin]
  · simp [hin]

/-- Settles O10: counts are lengths and first positions, reversals and byte picks are sums of digits, and a field's bits are
shifted, then extended or masked. -/
theorem bitCountsAndFields : Obligations.BitCountsAndFields := by
  unfold Obligations.BitCountsAndFields
  refine ⟨fun h ty d a b c => ⟨fun x => (aluPopc ty x).1, fun x => (aluClz ty x).1, fun x => (aluCtz ty x).1,
      fun x => (aluBrev ty x).1, fun x y z => (aluBperm ty x y z).1, aluUn_completes fun _ => rfl, aluUn_completes fun _ => rfl,
      aluUn_completes fun _ => rfl, aluUn_completes fun _ => rfl, aluTri_completes fun _ => rfl, fun x y z => ?_⟩,
    fun h ty d a b c => ⟨fun x y z => (aluBfx ty x y z).1, fun x y z => (aluBfi ty x y z).1, aluTri_completes fun _ => rfl,
      aluTri_completes fun _ => rfl, fun x y z => ⟨aluBfx_spec ty x y z, fun i hi => aluBfi_bit ty x y z hi⟩⟩⟩
  obtain ⟨hclz, habove, htop⟩ := aluClz_spec ty x
  obtain ⟨hctz, hbelow, hlow⟩ := aluCtz_spec ty x
  refine ⟨aluPopc_toNat ty x, hclz, habove, htop, hctz, hbelow, hlow, fun i hi => aluBrev_bit ty x hi,
    fun i j hi hj => ⟨?b32, ?b64⟩⟩
  case b32 =>
    rintro rfl
    rw [aluBperm_bit _ x y z hi hj, testBit_pickedByte _ x y z i hj, if_pos rfl]
  case b64 =>
    rintro rfl
    rw [aluBperm_bit _ x y z hi hj, testBit_pickedByte _ x y z i hj, if_neg nofun]

end Sys2Proof.Machine
end

section
/-! Integer comparison, selection, conversion and addresses (R98 to R102). -/

namespace Sys2Proof.Machine

-- ===== comparison (R98) =====

/-- R98: the order of two integers decides a relation as the integers do. -/
theorem aluIcmp_eq (ty : Ty) (rel : Rel) (a b : Word) :
    aluIcmp ty rel a b =
      let x := rdInt ty a
      let y := rdInt ty b
      match rel with
        | .eq => decide (x = y)
        | .ne => decide (x ≠ y)
        | .lt => decide (x < y)
        | .le => decide (x ≤ y)
        | .gt => decide (x > y)
        | .ge => decide (x ≥ y) := by
  unfold aluIcmp
  generalize rdInt ty a = x
  generalize rdInt ty b = y
  rcases lt_trichotomy x y with hlt | rfl | hgt
  · cases rel <;> simp [intOrd, Rel.holds, hlt, hlt.ne, hlt.le, hlt.not_ge, hlt.not_gt]
  · cases rel <;> simp [intOrd, Rel.holds]
  · cases rel <;> simp [intOrd, Rel.holds, hgt, hgt.ne', hgt.le, hgt.not_ge, hgt.not_gt]

/-- R99: what sel picks of two values; nothing where an undecided lane leaves D. -/
def selValue (pol : SelPol) (p : BitVec 2) (x y : Word) : Option Word :=
  (selPick pol p).map fun first => if first then x else y

theorem selValue_eq (pol : SelPol) (p : BitVec 2) (x y : Word) :
    selValue pol p x y =
      if p = 1 then some x else if p = 0 then some y
      else match pol with
        | .uf => some y
        | .ut => some x
        | .uk => none := by
  unfold selValue selPick
  split
  · rfl
  · split
    · rfl
    · cases pol <;> rfl

/-- An arithmetic word that leaves its one register as it is in some lanes, and raises no flag. -/
theorem alu_completesSome (a : Alu) (i : Instr) {d : Reg} {g : Nat → Option Word} {s : State} {t : Team}
    (hi : ∀ s, exec i s = a.exec s) (hl : a.lat ≠ .token) (hd : a.dests = [d]) (hs : Issuing s t)
    (hg : ∀ l, a.fn s s.cur t l = { vals := ((g l).map fun v => (d, v)).toList }) :
    Computes i s t a.h a.lat [(d, g)] fun _ => 0 := by
  have hfind : ∀ o : Option Word, (((o.map fun v => (d, v)).toList.find? fun y => y.1 == d).map (·.2)) = o := fun o => by
    cases o <;> simp
  have k := alu_completes a i hi hl s t hs fun l => by rw [hg]
  simpa only [hg, hd, hfind, List.map_cons, List.map_nil] using k

theorem sel_completes (h : Hdr) (ty : Ty) (pol : SelPol) (d : Dst) (a b : Src) (pc : BitVec 4) {s : State} {t : Team}
    (hs : Issuing s t) :
    Computes (.sel h ty pol d a b pc) s t h L4
      [(dstReg d, fun l => selValue pol (readP t pc.toNat l) (putBits ty.bits (readSrc s s.cur t .int a l))
        (putBits ty.bits (readSrc s s.cur t .int b l)))] fun _ => 0 := by
  refine alu_completesSome (selAlu h ty pol d a b pc) _ (fun _ => rfl) nofun rfl hs fun l => ?_
  simp only [selAlu, selValue]
  cases selPick pol (readP t pc.toNat l) with
  | none => rfl
  | some first => cases first <;> rfl

theorem aluCvti_eq (ty ts : Ty) (sat : Bool) (x : Word) :
    aluCvti ty ts sat x = if ty = .b32 ∨ ty = .b64 then (putInt ty (rdInt ts x), 0) else fitInt ty sat (rdInt ts x) := by
  unfold aluCvti
  split
  · next hb => rcases hb with rfl | rfl <;> simp [fitInt]
  · next hb =>
    obtain ⟨h32, h64⟩ := not_or.1 hb
    simp [beq_eq_false_iff_ne.2 h32, beq_eq_false_iff_ne.2 h64]

theorem aluLea_eq (ty : Ty) (scale : BitVec 3) (x y : Word) :
    aluLea ty scale x y = (putInt .n64 (rdInt .n64 x + rdInt ty y * 2 ^ scale.toNat), 0) := by
  simp [aluLea]

/-- R98: icmp completes with its relation, T or F. -/
theorem icmp_completes (h : Hdr) (ty : Ty) (rel : Rel) (pd : BitVec 4) (a b : Src) :
    ComputesPred (.icmp h ty rel pd a b) h pd fun s f t l =>
      boolP (aluIcmp ty rel (readSrc s f t .int a l) (readSrc s f t .int b l)) :=
  alu_computesOne (icmpAlu h ty rel pd a b) _ (pReg pd) _ (fun _ => rfl) nofun rfl fun _ _ _ _ => rfl

/-- Settles O11: icmp and sel are arithmetic words whose lanes decide a relation or pick a source, the others compute one
value of their sources. -/
theorem compareSelectConvert : Obligations.CompareSelectConvert := by
  unfold Obligations.CompareSelectConvert
  intro h ty ts sat rel pol scale d pd pc a b
  refine ⟨?_, fun s t hs => ?_, aluUn_completes (fun _ => rfl) (aluCvti_eq ty ts sat),
    aluUn_completes fun _ => rfl, aluBin_completes (fun _ => rfl) (aluLea_eq ty scale)⟩
  · have k := icmp_completes h ty rel pd a b
    simp only [aluIcmp_eq] at k
    exact k
  · have k := sel_completes h ty pol d a b pc hs
    simp only [selValue_eq] at k
    exact k

end Sys2Proof.Machine
end

section
/-! The order of values (R60): the machine's comparison is that of the numbers, with the infinities about them. -/

namespace Sys2Proof.Machine

/-- A significand in the finer units of 2^q. -/
theorem mul_zpow_eq_scaled (m : Nat) {e q : Int} (h : q ≤ e) :
    m * (2 : ℚ) ^ e = (m * 2 ^ (e - q).toNat : Nat) * (2 : ℚ) ^ q := by
  obtain ⟨k, rfl⟩ : ∃ k : Nat, e = q + k := ⟨(e - q).toNat, by omega⟩
  have hk : (q + k - q).toNat = k := by omega
  rw [hk, zpow_add₀ two_ne_zero, zpow_natCast]
  push_cast
  ring

theorem FV.rat_zero (s : Bool) (e : Int) : (FV.fin s 0 e).rat = 0 := by simp [FV.rat]

theorem FV.rat_pos {m : Nat} (hm : m ≠ 0) (e : Int) : 0 < (FV.fin false m e).rat := by
  simp only [FV.rat_fin, Bool.false_eq_true, if_false]
  positivity

theorem FV.rat_neg {m : Nat} (hm : m ≠ 0) (e : Int) : (FV.fin true m e).rat < 0 := by
  simp only [FV.rat_fin, if_true, neg_lt_zero]
  positivity

/-- Numbers of one sign compare as their significands do in common units. -/
theorem cmp_rat_fin (s : Bool) (mx my : Nat) (ex ey : Int) :
    cmp (FV.fin s mx ex).rat (FV.fin s my ey).rat =
      let e := min ex ey
      let a := mx * 2 ^ (ex - e).toNat
      let b := my * 2 ^ (ey - e).toNat
      if s then cmp b a else cmp a b := by
  have hu := zpow_pos (two_pos (α := ℚ)) (min ex ey)
  simp only [FV.rat_fin, mul_zpow_eq_scaled mx (min_le_left ex ey), mul_zpow_eq_scaled my (min_le_right ex ey)]
  generalize mx * 2 ^ (ex - min ex ey).toNat = a
  generalize my * 2 ^ (ey - min ex ey).toNat = b
  have key : ∀ a b : Nat, cmp (a * (2 : ℚ) ^ min ex ey) (b * (2 : ℚ) ^ min ex ey) = cmp a b := fun a b => by
    rw [cmp_mul_pos_right hu, Nat.strictMono_cast.cmp_map_eq]
  cases s
  · simp [key]
  · have hneg : StrictAnti fun x : ℚ => -x := fun _ _ => neg_lt_neg
    exact (hneg.cmp_map_eq _ _).trans (key b a)

/-- The finite values compare as their numbers do. -/
theorem cmp_fin (sx : Bool) (mx : Nat) (ex : Int) (sy : Bool) (my : Nat) (ey : Int) :
    FV.cmp (.fin sx mx ex) (.fin sy my ey) = cmp (FV.fin sx mx ex).rat (FV.fin sy my ey).rat := by
  rcases eq_or_ne mx 0 with rfl | hx
  · rcases eq_or_ne my 0 with rfl | hy
    · simp [FV.cmp, FV.rat_zero]
    · cases sy
      · simp [FV.cmp, hy, FV.rat_zero, (cmp_eq_lt_iff _ _).2 (FV.rat_pos hy ey)]
      · simp [FV.cmp, hy, FV.rat_zero, (cmp_eq_gt_iff _ _).2 (FV.rat_neg hy ey)]
  · rcases eq_or_ne my 0 with rfl | hy
    · cases sx
      · simp [FV.cmp, hx, FV.rat_zero, (cmp_eq_gt_iff _ _).2 (FV.rat_pos hx ex)]
      · simp [FV.cmp, hx, FV.rat_zero, (cmp_eq_lt_iff _ _).2 (FV.rat_neg hx ex)]
    · rcases eq_or_ne sx sy with rfl | hs
      · rw [cmp_rat_fin]
        simp only [FV.cmp, hx, hy, if_false]
        generalize mx * 2 ^ (ex - min ex ey).toNat = a
        generalize my * 2 ^ (ey - min ex ey).toNat = b
        rcases lt_trichotomy a b with h | rfl | h
        · cases sx <;> simp [h.ne, h, (cmp_eq_lt_iff _ _).2 h, (cmp_eq_gt_iff _ _).2 h]
        · cases sx <;> simp
        · cases sx <;> simp [h.ne', h.not_gt, (cmp_eq_lt_iff _ _).2 h, (cmp_eq_gt_iff _ _).2 h]
      · cases sx
        · obtain rfl : sy = true := by simpa using hs
          simp [FV.cmp, hx, hy, (cmp_eq_gt_iff _ _).2 ((FV.rat_neg hy ey).trans (FV.rat_pos hx ex))]
        · obtain rfl : sy = false := by simpa using hs
          simp [FV.cmp, hx, hy, (cmp_eq_lt_iff _ _).2 ((FV.rat_neg hx ex).trans (FV.rat_pos hy ey))]

/-- The order of values that are not NaN, as one comparison. -/
theorem cmp_eq_ite {x y : FV} (hx : x ≠ .nan) (hy : y ≠ .nan) :
    FV.cmp x y = if x.lt y then .lt else if y.lt x then .gt else .eq := by
  match x, y, hx, hy with
  | .fin sx mx ex, .fin sy my ey, _, _ =>
    rw [cmp_fin]
    simp [FV.lt, cmp, cmpUsing]
  | .inf p, .inf q, _, _ => cases p <;> cases q <;> rfl
  | .inf p, .fin s m e, _, _ =>
    cases p <;> cases s <;> simp [FV.cmp, FV.lt] <;> split <;> simp
  | .fin s m e, .inf p, _, _ =>
    cases p <;> cases s <;> simp [FV.cmp, FV.lt] <;> split <;> simp

theorem FV.lt_asymm {x y : FV} (h : x.lt y = true) : y.lt x = false := by
  match x, y with
  | .fin .., .fin .. => simpa [FV.lt] using (of_decide_eq_true h).le
  | .inf true, .fin .. | .inf true, .inf false | .fin .., .inf false => rfl
  | .nan, _ | .inf false, _ | .fin .., .nan | .fin .., .inf true | .inf true, .nan | .inf true, .inf true => cases h

section
variable {x y : FV} (hx : x ≠ .nan) (hy : y ≠ .nan)
include hx hy

theorem cmp_beq_lt : (FV.cmp x y == .lt) = x.lt y := by
  rw [cmp_eq_ite hx hy]
  cases x.lt y <;> cases y.lt x <;> rfl

theorem cmp_beq_gt : (FV.cmp x y == .gt) = y.lt x := by
  rw [cmp_eq_ite hx hy]
  cases h : x.lt y
  · cases y.lt x <;> rfl
  · rw [FV.lt_asymm h]
    rfl

theorem cmp_bne_lt : (FV.cmp x y != .lt) = !x.lt y := congrArg not (cmp_beq_lt hx hy)

theorem cmp_bne_gt : (FV.cmp x y != .gt) = !y.lt x := congrArg not (cmp_beq_gt hx hy)

theorem cmp_beq_eq : (FV.cmp x y == .eq) = (!x.lt y && !y.lt x) := by
  rw [cmp_eq_ite hx hy]
  cases x.lt y <;> cases y.lt x <;> rfl

end

end Sys2Proof.Machine
end

section
/-! Float and interval words as a whole, and interval arithmetic (R123 to R125). -/

namespace Sys2Proof.Machine

section
variable {i : Instr} {h : Hdr} {lat : Lat} {d : Dst} {fm : Fmt} {a b : MSrc}

theorem fltUn_completes {g : FV → Word × Flags} (hi : ∀ s, exec i s = (fltUn i h lat d fm a g).exec s)
    (hl : lat ≠ .token := by nofun) : ComputesFlt i h lat d fm a g :=
  alu_computesOne _ i (dstReg d) _ hi hl rfl fun _ _ _ _ => rfl

theorem fltBin_completes {g : FV → FV → Word × Flags} (hi : ∀ s, exec i s = (fltBin i h lat d fm a b g).exec s)
    (hl : lat ≠ .token := by nofun) : ComputesFlt2 i h lat d fm a b g :=
  alu_computesOne _ i (dstReg d) _ hi hl rfl fun _ _ _ _ => rfl

theorem ivUn_completes {g : Iv → Word × Flags} (hi : ∀ s, exec i s = (ivUn i h lat d a g).exec s)
    (hl : lat ≠ .token := by nofun) : ComputesIv i h lat d a g :=
  alu_computesOne _ i (dstReg d) _ hi hl rfl fun _ _ _ _ => rfl

theorem ivBin_completes {g : Iv → Iv → Word × Flags} (hi : ∀ s, exec i s = (ivBin i h lat d a b g).exec s)
    (hl : lat ≠ .token := by nofun) : ComputesIv2 i h lat d a b g :=
  alu_computesOne _ i (dstReg d) _ hi hl rfl fun _ _ _ _ => rfl

end

theorem ivfma_completes (h : Hdr) (d : Dst) (a b c : MSrc) :
    ComputesOne (.ivfma h d a b c) h L8 (dstReg d)
      fun s f t l => ivFmaVal (readIv s f t a l) (readIv s f t b l) (readIv s f t c l) :=
  alu_computesOne (ivfmaAlu h d a b c) _ (dstReg d) _ (fun _ => rfl) nofun rfl fun _ _ _ _ => rfl

-- ===== the gate =====

@[simp] theorem ivGate_proper (al ah : FV) (l : List Iv) : ivGate (.proper al ah :: l) = ivGate l := by
  simp [ivGate]

@[simp] theorem ivGate_nil : ivGate [] = none := rfl

/-- A word of one operand that opens with the gate. -/
theorem gated_of_ivGate {g : Iv → Word × Flags} (hg : ∀ x r, ivGate [x] = some r → g x = r) : Gated g :=
  ⟨hg _ _ rfl, hg _ _ rfl, hg _ _ rfl⟩

theorem ivGate_nai {l : List Iv} (h : .nai ∈ l) : ivGate l = some (naiWord, 0) := by
  simp [ivGate, h]

theorem ivGate_illFormed {l : List Iv} (hn : .nai ∉ l) (h : .illFormed ∈ l) : ivGate l = some (naiWord, Flags.nv) := by
  simp [ivGate, hn, h]

theorem ivGate_empty {l : List Iv} (hn : .nai ∉ l) (hi : .illFormed ∉ l) (h : .empty ∈ l) :
    ivGate l = some (emptyWord, 0) := by
  simp [ivGate, hn, hi, h]

/-- A word of two operands that opens with the gate. -/
theorem gated2_of_ivGate {g : Iv → Iv → Word × Flags} (hg : ∀ x y r, ivGate [x, y] = some r → g x y = r) : Gated2 g := by
  intro x
  refine ⟨hg _ _ _ (ivGate_nai (by simp)), hg _ _ _ (ivGate_nai (by simp)), fun hn => ⟨?_, ?_, fun hi => ⟨?_, ?_⟩⟩⟩
  · exact hg _ _ _ (ivGate_illFormed (by simp [hn.symm]) (by simp))
  · exact hg _ _ _ (ivGate_illFormed (by simp [hn.symm]) (by simp))
  · exact hg _ _ _ (ivGate_empty (by simp [hn.symm]) (by simp [hi.symm]) (by simp))
  · exact hg _ _ _ (ivGate_empty (by simp [hn.symm]) (by simp [hi.symm]) (by simp))

-- ===== the operations =====

theorem FV.zero_ne_nan : FV.zero ≠ .nan := nofun

theorem FV.eq_zero_of_cmp {s : Bool} {m : Nat} {e : Int} (h : FV.cmp (.fin s m e) .zero = .eq) : m = 0 := by
  rw [FV.zero, cmp_fin, cmp_eq_eq_iff, FV.rat_zero] at h
  by_contra hm
  cases s
  · exact (FV.rat_pos hm e).ne' h
  · exact (FV.rat_neg hm e).ne h

section
variable {al ah : FV} (bl bh cl ch : FV)

theorem ivAddVal_proper : ivAddVal (.proper al ah) (.proper bl bh) =
    (ivWord (outward false (boundAdd false al bl)) (outward true (boundAdd true ah bh)), 0) := rfl

theorem ivSubVal_proper : ivSubVal (.proper al ah) (.proper bl bh) =
    (ivWord (outward false (boundAdd false al bh.neg)) (outward true (boundAdd true ah bl.neg)), 0) := rfl

theorem ivFmaVal_proper : ivFmaVal (.proper al ah) (.proper bl bh) (.proper cl ch) =
    (ivWord (mulBound false al ah bl bh cl) (mulBound true al ah bl bh ch), 0) := rfl

theorem ivMulVal_eq_ivFmaVal : ivMulVal (.proper al ah) (.proper bl bh) =
    ivFmaVal (.proper al ah) (.proper bl bh) (.proper .zero .zero) := by
  unfold ivMulVal ivFmaVal
  rfl

variable {bl bh}

theorem ivSqrVal_proper (hal : al ≠ .nan) (hah : ah ≠ .nan) : ivSqrVal (.proper al ah) = (ivWord
    (if al.lt .zero = false then outward false (boundMul al al)
      else if FV.zero.lt ah = false then outward false (boundMul ah ah) else .zero)
    (outward true (bmax (boundMul al al) (boundMul ah ah))), 0) := by
  unfold ivSqrVal
  simp [cmp_bne_lt hal FV.zero_ne_nan, cmp_bne_gt hah FV.zero_ne_nan]

theorem ivDivVal_proper (hbl : bl ≠ .nan) (hbh : bh ≠ .nan) : ivDivVal (.proper al ah) (.proper bl bh) =
    (if FV.zero.lt bl = false ∧ bh.lt .zero = false then (ivWord (.inf true) (.inf false), 0)
      else (ivWord (pick4 false (boundDiv false al bl) (boundDiv false al bh) (boundDiv false ah bl) (boundDiv false ah bh))
        (pick4 true (boundDiv true al bl) (boundDiv true al bh) (boundDiv true ah bl) (boundDiv true ah bh)), 0)) := by
  unfold ivDivVal
  simp [cmp_bne_gt hbl FV.zero_ne_nan, cmp_bne_lt hbh FV.zero_ne_nan]

/-- The root of a zero bound is written as the +0 that the model writes. -/
theorem boundBits_boundRoot_of_cmp_zero {x : FV} (hn : x ≠ .nan) (hx : FV.cmp x .zero = .eq) :
    boundBits (boundRoot false true x) = boundBits .zero := by
  match x, hn with
  | .inf true, _ | .inf false, _ => cases hx
  | .fin s m e, _ =>
    obtain rfl : m = 0 := FV.eq_zero_of_cmp hx
    change boundBits (Fmt.f32.value (Fmt.f32.zero s)) = 0
    cases s <;> decide

theorem ivSqrtVal_proper (hal : al ≠ .nan) (hah : ah ≠ .nan) : ivSqrtVal (.proper al ah) =
    (if ah.lt .zero then (naiWord, Flags.nv)
      else (ivWord (if FV.zero.lt al then boundRoot false false al else .zero) (boundRoot false true ah), 0)) := by
  have hroot : boundBits (if FV.cmp ah .zero == .eq then .zero else boundRoot false true ah) =
      boundBits (boundRoot false true ah) := by
    split
    · next hz => exact (boundBits_boundRoot_of_cmp_zero hah (eq_of_beq hz)).symm
    · rfl
  unfold ivSqrtVal
  simp only [ivGate_proper, ivGate_nil, cmp_beq_lt hah FV.zero_ne_nan, cmp_bne_gt hal FV.zero_ne_nan, ivWord, hroot]
  cases FV.zero.lt al <;> rfl

theorem ivRsqrtVal_proper (hal : al ≠ .nan) (hah : ah ≠ .nan) : ivRsqrtVal (.proper al ah) =
    (if FV.zero.lt ah = false then (naiWord, Flags.nv)
      else (ivWord (boundRoot true false ah) (if FV.zero.lt al then boundRoot true true al else .inf false), 0)) := by
  unfold ivRsqrtVal
  simp only [ivGate_proper, ivGate_nil, cmp_bne_gt hah FV.zero_ne_nan, cmp_bne_gt hal FV.zero_ne_nan]
  cases FV.zero.lt ah <;> cases FV.zero.lt al <;> simp

end

/-- Settles O18: each word opens with the gate, and the model's tests against zero are those of the order of values. -/
theorem intervalArithmetic : Obligations.IntervalArithmetic := by
  unfold Obligations.IntervalArithmetic
  intro h d a b c down up root neg pos
  refine ⟨ivBin_completes fun _ => rfl, ivBin_completes fun _ => rfl, ivBin_completes fun _ => rfl, ivBin_completes fun _ => rfl,
    ivfma_completes h d a b c, ivUn_completes fun _ => rfl, ivUn_completes fun _ => rfl, ivUn_completes fun _ => rfl,
    gated2_of_ivGate fun x y r hg => by unfold ivAddVal; rw [hg], gated2_of_ivGate fun x y r hg => by unfold ivSubVal; rw [hg],
    gated2_of_ivGate fun x y r hg => by unfold ivMulVal; rw [hg], gated2_of_ivGate fun x y r hg => by unfold ivDivVal; rw [hg],
    gated_of_ivGate fun x r hg => by unfold ivSqrVal; rw [hg], gated_of_ivGate fun x r hg => by unfold ivSqrtVal; rw [hg],
    gated_of_ivGate fun x r hg => by unfold ivRsqrtVal; rw [hg], fun x y z => ?_, ?_⟩
  · have hgate : ∀ r, ivGate [x, y, z] = some r → ivFmaVal x y z = r := fun r hg => by unfold ivFmaVal; rw [hg]
    exact ⟨fun hn => hgate _ (ivGate_nai hn), fun hn hi => hgate _ (ivGate_illFormed hn hi),
      fun hn hi he => hgate _ (ivGate_empty hn hi he)⟩
  · intro al ah bl bh cl ch hal hah hbl hbh x y
    exact ⟨ivAddVal_proper bl bh, ivSubVal_proper bl bh, ivMulVal_eq_ivFmaVal bl bh, ivFmaVal_proper bl bh cl ch,
      ivSqrVal_proper hal hah, ivDivVal_proper hbl hbh, ivSqrtVal_proper hal hah, ivRsqrtVal_proper hal hah⟩

end Sys2Proof.Machine
end

section
/-! Sets of intervals (R126 to R129): hull, meet, comparison and split. -/

namespace Sys2Proof.Machine

-- ===== a word whose active lanes alone are said =====

/-- A slot carries out its active lanes alone. -/
theorem runSlot_congr (s : State) (f : Nat) (t : Team) (i : Instr) (h : Hdr) (lat : Lat) (dests : List Reg) (lin : Lin)
    (reads : Nat → List (Nat × Nat)) (extra : List TagWrite) {fn fn' : Nat → LaneOut}
    (e : ∀ l ∈ activeLanes t h, fn l = fn' l) :
    runSlot s f t i h lat dests lin reads extra fn = runSlot s f t i h lat dests lin reads extra fn' := by
  have hout : ∀ binds, (activeLanes t h).map (fun l => (l, slotLane (s.core (coreOf f)) t binds reads fn l)) =
      (activeLanes t h).map (fun l => (l, slotLane (s.core (coreOf f)) t binds reads fn' l)) := fun binds =>
    List.map_congr_left fun l hl => by simp only [slotLane, e l hl]
  simp only [runSlot, hout]

theorem resultOf_congr (r : Reg) {lanes : List Nat} {x y : Nat → Option Word} (e : ∀ l ∈ lanes, x l = y l) :
    resultOf r lanes x = resultOf r lanes y := by
  have hmap : ∀ ls, ls ⊆ lanes →
      (ls.filterMap fun l => (x l).map fun v => (l, v)) = ls.filterMap fun l => (y l).map fun v => (l, v) := fun ls hls =>
    List.filterMap_congr fun l hl => by rw [e l (hls hl)]
  unfold resultOf
  rw [hmap]
  cases r <;> simp [List.take_subset]

/-- What is said of its active lanes says all of a word of one destination. -/
theorem Computes.congr {i : Instr} {s : State} {t : Team} {h : Hdr} {lat : Lat} {d : Reg} {x y : Nat → Option Word}
    {fl fl' : Nat → Flags} (k : Computes i s t h lat [(d, x)] fl) (e : ∀ l ∈ activeLanes t h, x l = y l)
    (efl : ∀ l ∈ activeLanes t h, fl l = fl' l) : Computes i s t h lat [(d, y)] fl' := by
  have hres : ∀ p, IsResult p t h lat [(d, x)] fl → IsResult p t h lat [(d, y)] fl' := fun p hp =>
    { issue := hp.issue, lat := hp.lat, lanes := hp.lanes, now := hp.now
      writes := by
        rw [hp.writes, List.filter_singleton, List.filter_singleton]
        cases d != .p 0 <;> simp [resultOf_congr d e]
      flags := by rw [hp.flags, List.map_congr_left efl] }
  obtain ⟨s', ps, hx, hteam, hps⟩ := k
  refine ⟨s', ps, hx, hteam, ?_⟩
  by_cases hact : (activeLanes t h).isEmpty
  · rw [if_pos hact] at hps ⊢
    exact hps
  · rw [if_neg hact] at hps ⊢
    obtain ⟨p, rfl, hp⟩ := hps
    exact ⟨p, rfl, hres p hp⟩

/-- The word that computes what `a` does in its active lanes, and nothing in the others. -/
def Alu.onActive (a : Alu) : Alu :=
  { a with fn := fun s f t l => if l ∈ activeLanes t a.h then a.fn s f t l else {} }

theorem Alu.onActive_exec (a : Alu) (s : State) : a.onActive.exec s = a.exec s := by
  have hrun : ∀ f t, a.onActive.run s f t [] = a.run s f t [] := fun f t =>
    runSlot_congr _ _ _ _ _ _ _ _ _ _ fun l hl => if_pos hl
  simp only [Alu.exec, Alu.word, hrun]
  rfl

/-- An arithmetic word whose active lanes all compute a value. -/
theorem alu_completesActive (a : Alu) (i : Instr) {d : Reg} {g : Nat → Option (Word × Flags)} {s : State} {t : Team}
    (hi : ∀ s, exec i s = a.exec s) (hl : a.lat ≠ .token) (hd : a.dests = [d]) (hs : Issuing s t)
    (hg : ∀ l ∈ activeLanes t a.h, ∃ r, g l = some r ∧ a.fn s s.cur t l = { vals := [(d, r.1)], flags := r.2 }) :
    Computes i s t a.h a.lat [(d, fun l => (g l).map (·.1))] fun l => ((g l).getD (0, 0)).2 := by
  have hfn : ∀ l ∈ activeLanes t a.h, a.onActive.fn s s.cur t l = a.fn s s.cur t l := fun l hl => if_pos hl
  have hfault : ∀ l, (a.onActive.fn s s.cur t l).fault = none := fun l => by
    by_cases hact : l ∈ activeLanes t a.h
    · obtain ⟨r, -, hr⟩ := hg l hact
      rw [hfn l hact, hr]
    · exact congrArg LaneOut.fault (if_neg hact)
  have k := alu_completes a.onActive i (fun s => by rw [hi, Alu.onActive_exec]) hl s t hs hfault
  rw [show a.onActive.dests = [d] from hd] at k
  refine Computes.congr k (fun l hact => ?_) fun l hact => ?_
  · obtain ⟨r, hgl, hr⟩ := hg l hact
    simp [hfn l hact, hr, hgl]
  · obtain ⟨r, hgl, hr⟩ := hg l hact
    simp [hfn l hact, hr, hgl]

-- ===== the words =====

theorem ivmeet_completes (h : Hdr) (d : Dst) (a b : MSrc) :
    ComputesIv2 (.ivmeet h true d a b) h L4 d a b fun x y => (ivMeetVal x y).getD (emptyWord, 0) :=
  alu_computesOne (ivmeetAlu h true d a b) _ (dstReg d) _ (fun _ => rfl) nofun rfl fun s f t l => by
    simp only [ivmeetAlu]
    cases ivMeetVal (readIv s f t a l) (readIv s f t b l) <;> rfl

/-- R127: under .nf a word whose active lanes' operands all meet completes with the meets. -/
theorem ivmeetFaulting_completes (h : Hdr) (d : Dst) (a b : MSrc) {s : State} {t : Team} (hs : Issuing s t)
    (hmeet : ∀ l ∈ activeLanes t h, (ivMeetVal (readIv s s.cur t a l) (readIv s s.cur t b l)).isSome) :
    let meet := fun l => ivMeetVal (readIv s s.cur t a l) (readIv s s.cur t b l)
    Computes (.ivmeet h false d a b) s t h L4 [(dstReg d, fun l => (meet l).map (·.1))] fun l => ((meet l).getD (0, 0)).2 :=
  alu_completesActive (ivmeetAlu h false d a b) _ (fun _ => rfl) nofun rfl hs fun l hl => by
    obtain ⟨r, hr⟩ := Option.isSome_iff_exists.1 (hmeet l hl)
    exact ⟨r, hr, by simp only [ivmeetAlu, hr]; rfl⟩

theorem ivcmp_completes (h : Hdr) (rel : IvRel) (pd : BitVec 4) (a b : MSrc) :
    ComputesOne (.ivcmp h rel pd a b) h L4 (pReg pd) fun s f t l =>
      let r := ivCmpVal rel (readIv s f t a l) (readIv s f t b l)
      (r.1.setWidth 64, r.2) :=
  alu_computesOne (ivcmpAlu h rel pd a b) _ (pReg pd) _ (fun _ => rfl) nofun rfl fun _ _ _ _ => rfl

/-- R129: ivsplit completes with both halves. -/
theorem ivsplit_completes (h : Hdr) {d e : BitVec 7} (hne : d ≠ e) (a : MSrc) {s : State} {t : Team} (hs : Issuing s t) :
    let r := fun l => ivSplitVal (readIv s s.cur t a l)
    Computes (.ivsplit h d e a) s t h L4
      [(.v d.toNat, fun l => some (r l).1), (.v e.toNat, fun l => some (r l).2.1)] fun l => (r l).2.2 := by
  have hreg : Reg.v d.toNat ≠ .v e.toNat := fun he => hne (BitVec.eq_of_toNat_eq (Reg.v.inj he))
  have k := alu_completes (ivsplitAlu h d e a) (.ivsplit h d e a) (fun _ => rfl) nofun s t hs fun _ => rfl
  simpa [ivsplitAlu, hreg] using k

-- ===== operands that are not proper (R64, R65) =====

theorem ivHullVal_nai (x : Iv) : ivHullVal .nai x = (naiWord, 0) ∧ ivHullVal x .nai = (naiWord, 0) := by
  simp [ivHullVal]

theorem ivMeetVal_nai (x : Iv) : ivMeetVal .nai x = some (naiWord, 0) ∧ ivMeetVal x .nai = some (naiWord, 0) := by
  simp [ivMeetVal]

theorem ivCmpVal_nai (rel : IvRel) (x : Iv) : ivCmpVal rel .nai x = (2, 0) ∧ ivCmpVal rel x .nai = (2, 0) := by
  simp [ivCmpVal]

section
variable {x : Iv} (hn : x ≠ .nai)
include hn

theorem ivHullVal_illFormed :
    ivHullVal .illFormed x = (naiWord, Flags.nv) ∧ ivHullVal x .illFormed = (naiWord, Flags.nv) := by
  simp [ivHullVal, hn]

theorem ivMeetVal_illFormed :
    ivMeetVal .illFormed x = some (naiWord, Flags.nv) ∧ ivMeetVal x .illFormed = some (naiWord, Flags.nv) := by
  simp [ivMeetVal, hn]

theorem ivCmpVal_illFormed (rel : IvRel) :
    ivCmpVal rel .illFormed x = (2, Flags.nv) ∧ ivCmpVal rel x .illFormed = (2, Flags.nv) := by
  simp [ivCmpVal, hn]

/-- R127: nothing meets the empty interval. -/
theorem ivMeetVal_empty (hi : x ≠ .illFormed) : ivMeetVal .empty x = none ∧ ivMeetVal x .empty = none := by
  simp [ivMeetVal, hn, hi]

end

/-- R128: an empty operand leaves the relations of R84 undecided; the empty set lies in every interval, and none in it. -/
theorem ivCmpVal_empty (rel : IvRel) (lo hi : FV) :
    ivCmpVal rel .empty (.proper lo hi) = (if rel = .sub ∨ rel = .inn then 1 else 2, 0) ∧
      ivCmpVal rel (.proper lo hi) .empty = (if rel = .sub ∨ rel = .inn then 0 else 2, 0) := by
  cases rel <;> simp [ivCmpVal]

-- ===== proper operands =====

theorem bmin_ne_nan {x y : FV} (hx : x ≠ .nan) (hy : y ≠ .nan) : bmin x y ≠ .nan := by
  unfold bmin
  split
  · exact hy
  · exact hx

theorem bmax_ne_nan {x y : FV} (hx : x ≠ .nan) (hy : y ≠ .nan) : bmax x y ≠ .nan := by
  unfold bmax
  split
  · exact hy
  · exact hx

section
variable {al ah bl bh : FV} (hal : al ≠ .nan) (hah : ah ≠ .nan) (hbl : bl ≠ .nan) (hbh : bh ≠ .nan)
include hal hah hbl hbh

theorem ivMeetVal_proper : ivMeetVal (.proper al ah) (.proper bl bh) =
    if (bmin ah bh).lt (bmax al bl) then none else some (ivWord (bmax al bl) (bmin ah bh), 0) := by
  simp [ivMeetVal, cmp_beq_gt (bmax_ne_nan hal hbl) (bmin_ne_nan hah hbh)]

/-- R128: the tests of the model are those of the order of values. -/
theorem ivCmpVal_proper (rel : IvRel) :
    let lt := FV.lt
    let le := fun p q => !FV.lt q p
    let point := le al ah && le ah al && le bl bh && le bh bl && le al bl && le bl al
    let apart := lt ah bl || lt bh al
    ivCmpVal rel (.proper al ah) (.proper bl bh) = (match rel with
      | .eq => threeValued point apart
      | .ne => threeValued apart point
      | .lt => threeValued (lt ah bl) (le bh al)
      | .le => threeValued (le ah bl) (lt bh al)
      | .gt => threeValued (lt bh al) (le ah bl)
      | .ge => threeValued (le bh al) (lt ah bl)
      | .sub => threeValued (le bl al && le ah bh) true
      | .inn => threeValued (lt bl al && lt ah bh) true, 0) := by
  simp only [ivCmpVal, cmp_beq_lt, cmp_bne_gt, cmp_beq_eq, hal, hah, hbl, hbh, ne_eq, not_false_eq_true]
  cases rel <;> simp [Bool.and_assoc, Bool.and_comm, Bool.and_left_comm]

end

/-- Settles O20: hull and meet pick among the bounds, and the comparisons are those of the order of values. -/
theorem intervalSets : Obligations.IntervalSets := by
  unfold Obligations.IntervalSets
  intro h rel d pd d1 d2 a b hne
  refine ⟨ivBin_completes fun _ => rfl, ivmeet_completes h d a b, fun s t hs => ivmeetFaulting_completes h d a b hs,
    ivcmp_completes h rel pd a b, fun s t hs => ivsplit_completes h hne a hs, fun x => ?_, rfl, rfl, rfl, rfl, ?_⟩
  · obtain ⟨hhull, hhull'⟩ := ivHullVal_nai x
    obtain ⟨hmeet, hmeet'⟩ := ivMeetVal_nai x
    obtain ⟨hcmp, hcmp'⟩ := ivCmpVal_nai rel x
    refine ⟨hhull, hhull', hmeet, hmeet', hcmp, hcmp', fun hn => ?_, fun hn hi => ivMeetVal_empty hn hi⟩
    obtain ⟨hhull, hhull'⟩ := ivHullVal_illFormed hn
    obtain ⟨hmeet, hmeet'⟩ := ivMeetVal_illFormed hn
    exact ⟨hhull, hhull', hmeet, hmeet', ivCmpVal_illFormed hn rel⟩
  · intro al ah bl bh x y lt le
    obtain ⟨hcmp, hcmp'⟩ := ivCmpVal_empty rel al ah
    refine ⟨rfl, rfl, rfl, rfl, hcmp, hcmp', fun hal hah hbl hbh => ⟨ivMeetVal_proper hal hah hbl hbh, ?_⟩⟩
    rw [ivCmpVal_proper hal hah hbl hbh rel]
    cases rel <;> rfl

end Sys2Proof.Machine
end

section
/-! Float arithmetic (R109): exact sums and products, and the significands that stand for quotients and roots. -/

namespace Sys2Proof.Machine

-- ===== exact sums =====

/-- An integer in units of 2^e, as a sign and a significand. -/
theorem FV.rat_natAbs (n : Int) (e : Int) : (FV.fin (decide (n < 0)) n.natAbs e).rat = n * (2 : ℚ) ^ e := by
  have hcast : (n.natAbs : ℚ) = |(n : ℚ)| := by rw [Nat.cast_natAbs, Int.cast_abs]
  rw [FV.rat_fin, hcast]
  rcases lt_or_ge n 0 with hn | hn
  · have hq : (n : ℚ) < 0 := mod_cast hn
    simp [hn, abs_of_neg hq]
  · have hq : 0 ≤ (n : ℚ) := mod_cast hn
    simp [hn.not_gt, abs_of_nonneg hq]

/-- The sign, significand and exponent that the model gives an integer in units of 2^e, a zero with the sign z. -/
theorem signed_spec (n : Int) (z : Bool) (e : Int) :
    let o := if n = 0 then (z, 0, e) else (decide (n < 0), n.natAbs, e)
    (FV.fin o.1 o.2.1 o.2.2).rat = n * (2 : ℚ) ^ e ∧ (o.2.1 = 0 → o.1 = z) := by
  by_cases hn : n = 0
  · simp [hn, FV.rat_zero]
  · simpa [hn] using FV.rat_natAbs n e

/-- A finite value in finer units, as an integer. -/
theorem FV.rat_eq_intCast (s : Bool) (m : Nat) {e q : Int} (h : q ≤ e) :
    let a : Int := m * 2 ^ (e - q).toNat
    (FV.fin s m e).rat = ((if s then -a else a : Int) : ℚ) * (2 : ℚ) ^ q := by
  rw [FV.rat_fin, mul_zpow_eq_scaled m h]
  cases s <;> simp

/-- The exact sum, and the sign of a zero one (R60). -/
theorem exactSum_spec (r : Rnd) (sx : Bool) (mx : Nat) (ex : Int) (sy : Bool) (my : Nat) (ey : Int) :
    let o := exactSum r sx mx ex sy my ey
    (FV.fin o.1 o.2.1 o.2.2).rat = (FV.fin sx mx ex).rat + (FV.fin sy my ey).rat ∧
      (o.2.1 = 0 → o.1 = if sx = sy then sx else r == .rdn) := by
  rw [FV.rat_eq_intCast sx mx (min_le_left ex ey), FV.rat_eq_intCast sy my (min_le_right ex ey), ← add_mul, ← Int.cast_add]
  exact signed_spec _ _ _

-- ===== integer roots =====

/-- The bits of a root found so far, and those that may follow. -/
theorem isqrtGo_spec (n : Nat) : ∀ k acc, acc * acc ≤ n → n < (acc + 2 ^ k) * (acc + 2 ^ k) →
    isqrtGo n k acc = Nat.sqrt n
  | 0, acc, hle, hlt => Nat.eq_sqrt.2 ⟨hle, hlt⟩
  | k + 1, acc, hle, hlt => by
    have hpow : acc + 2 ^ (k + 1) = acc + 2 ^ k + 2 ^ k := by rw [pow_succ]; omega
    rw [isqrtGo]
    split
    · next ht => exact isqrtGo_spec n k _ ht (hpow ▸ hlt)
    · next ht => exact isqrtGo_spec n k _ hle (not_le.1 ht)

theorem isqrt_eq_sqrt (n : Nat) : isqrt n = Nat.sqrt n := by
  refine isqrtGo_spec n _ 0 (Nat.zero_le n) ?_
  calc n < 2 ^ bitLen n := lt_pow_bitLen n
    _ ≤ 2 ^ ((bitLen n / 2 + 1) + (bitLen n / 2 + 1)) := Nat.pow_le_pow_right two_pos (by omega)
    _ = (0 + 2 ^ (bitLen n / 2 + 1)) * (0 + 2 ^ (bitLen n / 2 + 1)) := by rw [zero_add, pow_add]

-- ===== significands that stand for a magnitude =====

/-- A significand stands for a magnitude where a test of its multiples against N, in common units, passes N after it. -/
theorem Stands.of_test {fm : Fmt} {side : ℚ → ℚ} {m : Nat} {e : Int} {sticky : Bool} (a : Nat → Nat) {N : Nat} {c : ℚ}
    (hc : 0 < c) (hside : ∀ j : Nat, side (j * (2 : ℚ) ^ e) = (a j - N) * c) (hle : a m ≤ N) (hlt : N < a (m + 1))
    (hsticky : sticky = true ↔ a m ≠ N) (hlong : 2 ^ (fm.fw + 2) ≤ m) : Stands fm side m e sticky := by
  unfold Stands
  split
  · next hs =>
    have hbelow : (a m : ℚ) < N := mod_cast hle.lt_of_ne (hsticky.1 hs)
    have habove : (N : ℚ) < a (m + 1) := mod_cast hlt
    have hnext := hside (m + 1)
    push_cast at hnext
    rw [hside, hnext]
    exact ⟨mul_neg_of_neg_of_pos (sub_neg.2 hbelow) hc, mul_pos (sub_pos.2 habove) hc, hlong⟩
  · next hs =>
    have hexact : a m = N := not_not.1 (hsticky.not.1 hs)
    rw [hside, hexact, sub_self, zero_mul]

/-- Enough bits of a quotient are kept. -/
theorem pow_le_quotient {m n b : Nat} (hm : m ≠ 0) (hn : n ≠ 0) :
    2 ^ b ≤ m * 2 ^ (b + 1 + bitLen n - bitLen m) / n := by
  have hm' := bitLen_pos hm
  rw [Nat.le_div_iff_mul_le (Nat.pos_of_ne_zero hn)]
  calc 2 ^ b * n ≤ 2 ^ b * 2 ^ bitLen n := by gcongr; exact (lt_pow_bitLen n).le
    _ = 2 ^ (b + bitLen n) := (pow_add ..).symm
    _ ≤ 2 ^ (bitLen m - 1 + (b + 1 + bitLen n - bitLen m)) := Nat.pow_le_pow_right two_pos (by omega)
    _ ≤ m * 2 ^ (b + 1 + bitLen n - bitLen m) := by rw [pow_add]; gcongr; exact pow_bitLen_le hm

/-- R109: the significand that fdiv rounds stands for the quotient. -/
theorem div_stands (fm : Fmt) (r : Rnd) (sx sy : Bool) {mx my : Nat} (ex ey : Int) (hx : mx ≠ 0) (hy : my ≠ 0) :
    ∃ m e st, Stands fm (fun q => q * (FV.fin false my ey).rat - (FV.fin false mx ex).rat) m e st ∧
      fm.div r (.fin sx mx ex) (.fin sy my ey) = fm.round r (sx != sy) m e st := by
  obtain ⟨k, hk⟩ : ∃ k, k = fm.fw + 4 + bitLen my - bitLen mx := ⟨_, rfl⟩
  refine ⟨mx * 2 ^ k / my, ex - ey - k, mx * 2 ^ k % my != 0, ?_, by simp [Fmt.div, hx, hy, hk]⟩
  have hunits : (2 : ℚ) ^ (ex - ey - k) * 2 ^ ey = 2 ^ (ex - k) := by
    rw [← zpow_add₀ two_ne_zero]
    congr 1
    omega
  have hx' : mx * (2 : ℚ) ^ ex = (mx * 2 ^ k : Nat) * 2 ^ (ex - k) := by
    rw [mul_zpow_eq_scaled mx (show ex - k ≤ ex by omega), show (ex - (ex - k)).toNat = k by omega]
  refine Stands.of_test (fun j => j * my) (zpow_pos two_pos (ex - k)) (fun j => ?_) (Nat.div_mul_le_self ..)
    (Nat.lt_mul_of_div_lt (Nat.lt_succ_self _) (Nat.pos_of_ne_zero hy)) ?_ ?_
  · simp only [FV.rat_fin, Bool.false_eq_true, if_false, hx', ← hunits]
    push_cast
    ring
  · have hdiv := Nat.div_add_mod' (mx * 2 ^ k) my
    simp only [bne_iff_ne, ne_eq]
    omega
  · rw [hk, show fm.fw + 4 = fm.fw + 3 + 1 from rfl]
    exact (Nat.pow_le_pow_right two_pos (Nat.le_succ _)).trans (pow_le_quotient hx hy)

/-- Enough bits of a root are kept. -/
theorem pow_le_isqrt {n b : Nat} (h : 2 ^ (2 * b) ≤ n) : 2 ^ b ≤ isqrt n := by
  rw [isqrt_eq_sqrt, Nat.le_sqrt, ← pow_add, ← two_mul]
  exact h

/-- R109: the significand that fsqrt rounds stands for the root. -/
theorem sqrt_stands (fm : Fmt) (r : Rnd) {m : Nat} (e : Int) (hm : m ≠ 0) :
    ∃ m' e' st, Stands fm (fun q => q * q - (FV.fin false m e).rat) m' e' st ∧
      fm.sqrt r (.fin false m e) = fm.round r false m' e' st := by
  obtain ⟨k, hk, heven, hlong⟩ : ∃ k, k = (if (e - (2 * (fm.fw + 4) - bitLen m : Nat)) % 2 = 0 then 2 * (fm.fw + 4) - bitLen m
      else 2 * (fm.fw + 4) - bitLen m + 1) ∧ (e - k) % 2 = 0 ∧ 2 * (fm.fw + 4) ≤ bitLen m + k := by
    refine ⟨_, rfl, ?_, ?_⟩ <;> split <;> omega
  obtain ⟨c, hc⟩ : ∃ c, e - k = c + c := ⟨(e - k) / 2, by omega⟩
  refine ⟨isqrt (m * 2 ^ k), c, isqrt (m * 2 ^ k) * isqrt (m * 2 ^ k) != m * 2 ^ k, ?_, ?_⟩
  · have hx' : m * (2 : ℚ) ^ e = (m * 2 ^ k : Nat) * 2 ^ (c + c) := by
      rw [mul_zpow_eq_scaled m (show e - k ≤ e by omega), show (e - (e - k)).toNat = k by omega, hc]
    refine Stands.of_test (fun j => j * j) (zpow_pos two_pos (c + c)) (fun j => ?_) ?_ ?_ bne_iff_ne (pow_le_isqrt ?_)
    · simp only [FV.rat_fin, Bool.false_eq_true, if_false, hx', zpow_add₀ (two_ne_zero (α := ℚ))]
      push_cast
      ring
    · rw [isqrt_eq_sqrt]
      exact Nat.sqrt_le _
    · rw [isqrt_eq_sqrt]
      exact Nat.lt_succ_sqrt _
    · have hpos := bitLen_pos hm
      calc 2 ^ (2 * (fm.fw + 2)) ≤ 2 ^ (bitLen m - 1 + k) := Nat.pow_le_pow_right two_pos (by omega)
        _ ≤ m * 2 ^ k := by rw [pow_add]; gcongr; exact pow_bitLen_le hm
  · have hc' : (e - k) / 2 = c := by omega
    simp only [Fmt.sqrt, hm, if_false, Bool.false_eq_true, ← hk, hc']

/-- R109: the significand that frsq rounds stands for the reciprocal root. -/
theorem rsqrt_stands (fm : Fmt) (r : Rnd) {m : Nat} (e : Int) (hm : m ≠ 0) :
    ∃ m' e' st, Stands fm (fun q => q * q * (FV.fin false m e).rat - 1) m' e' st ∧
      fm.rsqrt r (.fin false m e) = fm.round r false m' e' st := by
  obtain ⟨n, c, hn, hval, hmodel⟩ : ∃ (n : Nat) (c : Int), n ≠ 0 ∧ m * (2 : ℚ) ^ e = n * 2 ^ (c + c) ∧
      (if e % 2 = 0 then (m, e) else (2 * m, e - 1)) = (n, c + c) := by
    rcases Int.emod_two_eq_zero_or_one e with he | he
    · exact ⟨m, e / 2, hm, by congr 2; omega, by rw [if_pos he]; congr 1; omega⟩
    · refine ⟨2 * m, (e - 1) / 2, by omega, ?_, by rw [if_neg (by omega)]; congr 1; omega⟩
      rw [show (e - 1) / 2 + (e - 1) / 2 = e - 1 by omega, zpow_sub_one₀ two_ne_zero]
      push_cast
      ring
  obtain ⟨k, hk⟩ : ∃ k, k = fm.fw + 4 + bitLen n := ⟨_, rfl⟩
  refine ⟨isqrt (2 ^ (2 * k) / n), -c - k, isqrt (2 ^ (2 * k) / n) * isqrt (2 ^ (2 * k) / n) * n != 2 ^ (2 * k), ?_, ?_⟩
  · have hle := Nat.sqrt_le (2 ^ (2 * k) / n)
    have hlt := Nat.lt_succ_sqrt (2 ^ (2 * k) / n)
    rw [← isqrt_eq_sqrt] at hle hlt
    refine Stands.of_test (fun j => j * j * n) (c := (2 : ℚ) ^ (-(k : Int) - k)) (zpow_pos two_pos _) (fun j => ?_)
      ((Nat.le_div_iff_mul_le (Nat.pos_of_ne_zero hn)).1 hle) ((Nat.div_lt_iff_lt_mul (Nat.pos_of_ne_zero hn)).1 hlt) bne_iff_ne
      (pow_le_isqrt ?_)
    · have hu : (2 : ℚ) ^ (-c - (k : Int)) * 2 ^ (-c - (k : Int)) * 2 ^ (c + c) = 2 ^ (-(k : Int) - k) := by
        rw [← zpow_add₀ two_ne_zero, ← zpow_add₀ two_ne_zero]
        congr 1
        omega
      have hone : ((2 ^ (2 * k) : Nat) : ℚ) * 2 ^ (-(k : Int) - k) = 1 := by
        push_cast
        rw [← zpow_natCast, ← zpow_add₀ two_ne_zero, show ((2 * k : Nat) : Int) + (-k - k) = 0 by omega, zpow_zero]
      simp only [FV.rat_fin, Bool.false_eq_true, if_false, hval]
      rw [sub_mul, hone, ← hu]
      push_cast
      ring
    · rw [Nat.le_div_iff_mul_le (Nat.pos_of_ne_zero hn)]
      calc 2 ^ (2 * (fm.fw + 2)) * n ≤ 2 ^ (2 * (fm.fw + 2)) * 2 ^ bitLen n := by gcongr; exact (lt_pow_bitLen n).le
        _ ≤ 2 ^ (2 * k) := by rw [← pow_add]; exact Nat.pow_le_pow_right two_pos (by omega)
  · have hc' : (c + c) / 2 = c := by omega
    simp only [Fmt.rsqrt, hm, if_false, Bool.false_eq_true, hmodel, hc', hk]

end Sys2Proof.Machine
end

section
/-! Float words complete (R109), and scaling beyond the range of a format. -/

namespace Sys2Proof.Machine

-- ===== magnitudes beyond the range of a format =====

/-- An exact significand cuts nothing off. -/
theorem truncates_exact (m : Nat) (e : Int) : Truncates m (2 ^ e) (m * (2 : ℚ) ^ e) false := by
  have hu := zpow_pos (two_pos (α := ℚ)) e
  exact ⟨hu, le_rfl, by linarith, by simp⟩

/-- The binade of an exact significand, over a grid that keeps b + 1 bits of it. -/
theorem binade_of_bitLen {m b : Nat} {e k : Int} (hm : m ≠ 0) (hk : e + bitLen m - 1 - b = k) :
    (2 : ℚ) ^ (k + b) ≤ m * (2 : ℚ) ^ e ∧ m * (2 : ℚ) ^ e < (2 : ℚ) ^ (k + b + 1) := by
  rw [show k + b = e + bitLen m - 1 by omega, Int.sub_add_cancel]
  exact ⟨zpow_le_mul_zpow hm e, (truncates_exact m e).lt.trans_le (succ_mul_zpow_le m e)⟩

/-- An exact significand rounded at its own last place has fw + 1 bits, or is the power of two above them. -/
theorem roundAt_bounds {f : Fmt} {m : Nat} {e k : Int} (r : Rnd) (neg : Bool) (hm : m ≠ 0) (hk : e + bitLen m - 1 - f.fw = k) :
    2 ^ f.fw ≤ (roundAt r neg m e k false).1 ∧ (roundAt r neg m e k false).1 ≤ 2 ^ (f.fw + 1) :=
  (roundAt_spec (truncates_exact m e) nofun r neg).1.bounds (binade_of_bitLen hm hk).1 (binade_of_bitLen hm hk).2

theorem bitLen_roundAt {f : Fmt} {m : Nat} {e k : Int} (r : Rnd) (neg : Bool) (hm : m ≠ 0) (hk : e + bitLen m - 1 - f.fw = k) :
    f.fw < bitLen (roundAt r neg m e k false).1 ∧ bitLen (roundAt r neg m e k false).1 ≤ f.fw + 2 := by
  obtain ⟨hlo, hhi⟩ := roundAt_bounds r neg hm hk
  exact ⟨lt_bitLen_of_pow_le hlo, bitLen_le_of_lt (hhi.trans_lt (Nat.pow_lt_pow_right one_lt_two (Nat.lt_succ_self _)))⟩

/-- R58: a magnitude of 2^(bias + 1) or more overflows. -/
theorem Fmt.round_above {f : Fmt} {m : Nat} {e : Int} (r : Rnd) (neg : Bool) (hm : m ≠ 0)
    (h : (f.bias : Int) < e + bitLen m - 1) : f.round r neg m e false = (f.overflowed r neg, Flags.overflow) := by
  have hlen := (bitLen_roundAt (f := f) (e := e) r neg hm rfl).1
  rcases hr : roundAt r neg m e (e + bitLen m - 1 - f.fw) false with ⟨n, inexact⟩
  simp only [hr] at hlen
  exact round_overflow hm rfl hr (by omega)

/-- Whether a mode takes any magnitude of a sign away from zero. -/
def roundsAway (r : Rnd) (neg : Bool) : Bool :=
  match r, neg with
  | .rdn, true | .rup, false => true
  | _, _ => false

/-- R59: a magnitude far below the least subnormal number rounds to a zero or to that number, whatever it is. -/
theorem Fmt.round_below {f : Fmt} {m : Nat} {e : Int} (r : Rnd) (neg : Bool) (hm : m ≠ 0)
    (h : e + bitLen m < -(f.bias : Int) - f.fw) :
    f.round r neg m e false = (f.zero neg + bit1 (roundsAway r neg), Flags.underflow) := by
  have hlen := (bitLen_roundAt (f := f) (e := e) r neg hm rfl).2
  have hgrid : roundAt r neg m e (1 - (f.bias : Int) - f.fw) false = (bit1 (roundsAway r neg), true) := by
    obtain ⟨j, hj⟩ : ∃ j : Nat, 1 - (f.bias : Int) - f.fw - e = (j + 1 : Nat) :=
      ⟨(-(f.bias : Int) - f.fw - e).toNat, by omega⟩
    have hlow : m < 2 ^ j := (lt_pow_bitLen m).trans_le (Nat.pow_le_pow_right two_pos (by omega))
    have hlow' : m < 2 ^ (j + 1) := hlow.trans (Nat.pow_lt_pow_right one_lt_two (Nat.lt_succ_self _))
    have hne : (m != 0) = true := bne_iff_ne.2 hm
    rw [roundAt, if_neg (by omega), hj]
    simp only [Int.toNat_natCast, Nat.div_eq_of_lt hlow', Nat.mod_eq_of_lt hlow', Bool.or_false]
    cases r <;> cases neg <;> simp [roundsUp, roundsAway, hne, hlow.not_gt]
  rcases hr : roundAt r neg m e (e + bitLen m - 1 - f.fw) false with ⟨n, inexact⟩
  simp only [hr] at hlen
  rw [round_tiny hm rfl hr (by omega), hgrid]
  rfl

/-- R54: the significand and the exponent of a value that a pattern has. -/
theorem Fmt.value_bounds {f : Fmt} (hf : 1 < f.ew) {w m : Nat} {s : Bool} {e : Int} (h : f.value w = .fin s m e) :
    m < 2 ^ (f.fw + 1) ∧ 1 - (f.bias : Int) - f.fw ≤ e ∧ e ≤ (f.bias : Int) - f.fw := by
  have hbias := Fmt.two_mul_bias (show 0 < f.ew by omega)
  have hew : 2 ^ 2 ≤ 2 ^ f.ew := Nat.pow_le_pow_right two_pos hf
  have hfr := Nat.mod_lt w (Nat.two_pow_pos f.fw)
  have hex := natBits_lt w (f.ew + f.fw - 1) f.fw
  rw [show f.ew + f.fw - 1 + 1 - f.fw = f.ew by omega] at hex
  unfold value at h
  dsimp only at h
  rw [pow_succ]
  split at h
  · split at h <;> cases h
  · split at h
    · cases h
      omega
    · cases h
      omega

/-- The model's cut of the exponent changes no result. -/
theorem Fmt.scale_eq_round {f : Fmt} (hf : 1 < f.ew) (hrange : 2 * f.bias + f.fw + 1 < 5000) (r : Rnd) {w m : Nat}
    {s : Bool} {e : Int} (h : f.value w = .fin s m e) (k : Int) : f.scale r (.fin s m e) k = f.round r s m (e + k) false := by
  obtain ⟨hm, hlo, hhi⟩ := value_bounds hf h
  unfold scale
  dsimp only
  rcases eq_or_ne m 0 with rfl | h0
  · rw [round_zero, round_zero]
  · have hlen := bitLen_le_of_lt hm
    have hpos := bitLen_pos h0
    rcases lt_or_ge k (-5000) with hk | hk
    · rw [round_below r s h0 (by omega), round_below r s h0 (by omega)]
    · rcases lt_or_ge 5000 k with hk' | hk'
      · rw [round_above r s h0 (by omega), round_above r s h0 (by omega)]
      · rw [min_eq_right hk', max_eq_right hk]

-- ===== the words =====

/-- The formats of the floating-point types (R53). -/
def Fmt.Standard (f : Fmt) : Prop := f = .f16 ∨ f = .bf16 ∨ f = .f32 ∨ f = .f64

theorem ofTy_standard (ty : Ty) : (Fmt.ofTy ty).Standard := by cases ty <;> simp [Fmt.ofTy, Fmt.Standard]

section
variable {f : Fmt} (hf : f.Standard)
include hf

theorem Fmt.Standard.one_lt_ew : 1 < f.ew := by rcases hf with rfl | rfl | rfl | rfl <;> decide

theorem Fmt.Standard.bias_pos : 0 < f.bias := by rcases hf with rfl | rfl | rfl | rfl <;> decide

theorem Fmt.Standard.range : 2 * f.bias + f.fw + 1 < 5000 := by rcases hf with rfl | rfl | rfl | rfl <;> decide

end

theorem ffma_completes (h : Hdr) (ty : Ty) (rnd : Rnd) (d : Dst) (a b c : MSrc) :
    ComputesOne (.ffma h ty rnd d a b c) h L8 (dstReg d) fun s f t l =>
      fltOut ((Fmt.ofTy ty).fma rnd (readFlt s f t (Fmt.ofTy ty) a l) (readFlt s f t (Fmt.ofTy ty) b l)
        (readFlt s f t (Fmt.ofTy ty) c l)) :=
  alu_computesOne (ffmaAlu h ty rnd d a b c) _ (dstReg d) _ (fun _ => rfl) nofun rfl fun _ _ _ _ => rfl

theorem fscale_completes (h : Hdr) (ty : Ty) (rnd : Rnd) (d : Dst) (a : MSrc) (n : Src) :
    ComputesOne (.fscale h ty rnd d a n) h L4 (dstReg d) fun s f t l =>
      fltOut ((Fmt.ofTy ty).scale rnd (readFlt s f t (Fmt.ofTy ty) a l) (rdInt .s32 (readSrc s f t .int n l))) :=
  alu_computesOne (fscaleAlu h ty rnd d a n) _ (dstReg d) _ (fun _ => rfl) nofun rfl fun _ _ _ _ => rfl

section
variable (fm : Fmt) (r : Rnd)

theorem add_nan {x y : FV} (h : x = .nan ∨ y = .nan) : fm.add r x y = (fm.nan, 0) := by
  rcases h with rfl | rfl
  · rfl
  · cases x <;> rfl

theorem mul_nan {x y : FV} (h : x = .nan ∨ y = .nan) : fm.mul r x y = (fm.nan, 0) := by
  rcases h with rfl | rfl
  · rfl
  · cases x <;> rfl

theorem fma_nan {x y z : FV} (h : x = .nan ∨ y = .nan ∨ z = .nan) : fm.fma r x y z = (fm.nan, 0) := by
  rcases h with rfl | rfl | rfl <;> simp [Fmt.fma, FV.isNan]

theorem div_nan (x : FV) : fm.div r .nan x = (fm.nan, 0) ∧ fm.div r x .nan = (fm.nan, 0) :=
  ⟨rfl, by cases x <;> rfl⟩

/-- R109: the sum of finite values is the exact one, rounded once. -/
theorem add_rounded (sx : Bool) (mx : Nat) (ex : Int) (sy : Bool) (my : Nat) (ey : Int) :
    RoundedFrom fm r ((FV.fin sx mx ex).rat + (FV.fin sy my ey).rat) (if sx = sy then sx else r == .rdn)
      (fltOut (fm.add r (.fin sx mx ex) (.fin sy my ey))) := by
  obtain ⟨hval, hzero⟩ := exactSum_spec r sx mx ex sy my ey
  exact ⟨_, _, _, rfl, hval, hzero⟩

theorem mul_rounded (sx : Bool) (mx : Nat) (ex : Int) (sy : Bool) (my : Nat) (ey : Int) :
    RoundedFrom fm r ((FV.fin sx mx ex).rat * (FV.fin sy my ey).rat) (sx != sy)
      (fltOut (fm.mul r (.fin sx mx ex) (.fin sy my ey))) := by
  refine ⟨sx != sy, mx * my, ex + ey, rfl, ?_, fun _ => rfl⟩
  have hexp := zpow_add₀ (two_ne_zero (α := ℚ)) ex ey
  cases sx <;> cases sy <;> simp [FV.rat_fin, hexp] <;> ring

theorem FV.isNan_eq_false {x : FV} (h : x ≠ .nan) : x.isNan = false := by
  match x, h with
  | .inf _, _ | .fin .., _ => rfl

theorem FV.mul_ne_nan {x y : FV} (hx : x ≠ .nan) (hy : y ≠ .nan) : FV.mul x y ≠ some .nan := by
  match x, y, hx, hy with
  | .inf _, .inf _, _, _ | .fin .., .fin .., _, _ => exact nofun
  | .inf _, .fin _ m _, _, _ | .fin _ m _, .inf _, _, _ =>
    simp only [FV.mul]
    split <;> exact nofun

/-- R109: ffma, by the exact product and C. -/
theorem fma_of_ne_nan {x y z : FV} (hx : x ≠ .nan) (hy : y ≠ .nan) (hz : z ≠ .nan) :
    fm.fma r x y z = (FV.mul x y).elim (fm.nan, Flags.nv) fun p => fm.add r p z := by
  simp only [Fmt.fma, FV.isNan_eq_false hx, FV.isNan_eq_false hy, FV.isNan_eq_false hz]
  cases FV.mul x y <;> rfl

theorem div_zero (sx : Bool) (mx : Nat) (ex : Int) (sy : Bool) (ey : Int) : fltOut (fm.div r (.fin sx mx ex) (.fin sy 0 ey)) =
    if mx = 0 then nanOut fm Flags.nv else infOut fm (sx != sy) Flags.dz := by
  simp only [Fmt.div, if_true]
  split <;> rfl

theorem zero_div (sx : Bool) (ex : Int) (sy : Bool) {my : Nat} (hy : my ≠ 0) (ey : Int) :
    fltOut (fm.div r (.fin sx 0 ex) (.fin sy my ey)) = zeroOut fm (sx != sy) := by
  simp [Fmt.div, hy, fltOut, zeroOut]

theorem sqrt_neg {m : Nat} (hm : m ≠ 0) (e : Int) : fltOut (fm.sqrt r (.fin true m e)) = nanOut fm Flags.nv := by
  simp [Fmt.sqrt, hm, fltOut, nanOut, Fmt.invalid]

theorem rsqrt_neg {m : Nat} (hm : m ≠ 0) (e : Int) : fltOut (fm.rsqrt r (.fin true m e)) = nanOut fm Flags.nv := by
  simp [Fmt.rsqrt, hm, fltOut, nanOut, Fmt.invalid]

end

/-- Settles O14: sums and products are exact before their one rounding, and the significands of quotients and roots stand
for them. -/
theorem floatArithmetic : Obligations.FloatArithmetic := by
  unfold Obligations.FloatArithmetic
  refine ⟨fun h ty rnd d a b c n => ?arith, fun h ty rnd d a b => ?quot⟩
  case arith =>
    intro fm
    refine ⟨fun x y => fltOut (fm.add rnd x y), fun x y => fltOut (fm.add rnd x y.neg), fun x y => fltOut (fm.mul rnd x y),
      fun x y z => fltOut (fm.fma rnd x y z), fun x k => fltOut (fm.scale rnd x k),
      fltBin_completes fun _ => rfl, fltBin_completes fun _ => rfl, fltBin_completes fun _ => rfl,
      ffma_completes h ty rnd d a b c, fscale_completes h ty rnd d a n, fun x y => ⟨fun hn => ?nan, fun z hn => ?nanFma⟩,
      fun x y => rfl, fun p q => ⟨?infs, rfl⟩, fun p sx mx ex => ⟨rfl, rfl, ?infTimes, ?timesInf⟩,
      fun sx mx ex sy my ey => ⟨add_rounded .., mul_rounded ..⟩, fun x y z hx hy hz => ?fma,
      fun k => ⟨rfl, fun p => rfl, fun sx ex => ?scaleZero⟩, fun w sx mx ex k hw => ?scale⟩
    case nan =>
      have hneg : x = .nan ∨ y.neg = .nan := hn.imp_right fun hy => by rw [hy]; rfl
      dsimp only
      rw [add_nan fm rnd hn, add_nan fm rnd hneg, mul_nan fm rnd hn]
      exact ⟨rfl, rfl, rfl⟩
    case nanFma => exact congrArg fltOut (fma_nan fm rnd hn)
    case infs =>
      simp only [Fmt.add]
      split <;> rfl
    case infTimes =>
      simp only [Fmt.mul]
      split <;> rfl
    case timesInf =>
      simp only [Fmt.mul]
      split
      · rfl
      · cases p <;> cases sx <;> rfl
    case fma =>
      have hmul := FV.mul_ne_nan hx hy
      simp only [fma_of_ne_nan fm rnd hx hy hz]
      generalize FV.mul x y = p at hmul ⊢
      match p, z, hmul, hz with
      | none, _, _, _ | some (.inf _), .fin .., _, _ | some (.fin ..), .inf _, _, _ => rfl
      | some (.inf p), .inf q, _, _ =>
        simp only [Option.elim, Fmt.add]
        split <;> rfl
      | some (.fin ..), .fin .., _, _ => exact add_rounded ..
    case scaleZero => exact congrArg fltOut (Fmt.round_zero ..)
    case scale =>
      have hf := ofTy_standard ty
      refine ⟨sx, mx, ex + k, congrArg fltOut (Fmt.scale_eq_round hf.one_lt_ew hf.range rnd hw k), ?_, fun _ => rfl⟩
      rw [FV.rat_fin, FV.rat_fin, zpow_add₀ two_ne_zero]
      split <;> ring
  case quot =>
    intro fm f32
    refine ⟨fun x y => fltOut (fm.div rnd x y), fun x => fltOut (fm.sqrt rnd x), fun x => fltOut (f32.div rnd (.fin false 1 0) x),
      fun x => fltOut (f32.rsqrt rnd x), fltBin_completes fun _ => rfl, fltUn_completes fun _ => rfl, fltUn_completes fun _ => rfl,
      fltUn_completes fun _ => rfl, fun x => ?nan, rfl, rfl, rfl, fun p q => ⟨rfl, ?rcpInf⟩, rfl, rfl, rfl, rfl,
      fun p sx mx ex => ⟨rfl, rfl⟩, fun sx ex => ⟨rfl, ?rcpZero, rfl⟩, fun sx mx ex sy ey => div_zero fm rnd sx mx ex sy ey,
      fun sx mx ex sy my ey hpos => ?finite⟩
    case nan =>
      obtain ⟨hl, hr⟩ := div_nan fm rnd x
      exact ⟨congrArg fltOut hl, congrArg fltOut hr⟩
    case rcpInf => cases p <;> rfl
    case rcpZero => cases sx <;> rfl
    case finite =>
      intro x y
      have hy := hpos.ne'
      refine ⟨?zero, fun hx => ?div, ?rcp, ?roots⟩
      case zero =>
        rintro rfl
        exact zero_div fm rnd sx ex sy hy ey
      case div =>
        obtain ⟨m, e, st, hst, hdiv⟩ := div_stands fm rnd sx sy ex ey hx.ne' hy
        exact ⟨m, e, st, hst, congrArg fltOut hdiv⟩
      case rcp =>
        obtain ⟨m, e, st, hst, hdiv⟩ := div_stands f32 rnd false sy 0 ey one_ne_zero hy
        have hone : (FV.fin false 1 0).rat = 1 := by simp [FV.rat_fin]
        rw [hone] at hst
        exact ⟨m, e, st, hst, (congrArg fltOut hdiv).trans (by rw [Bool.false_bne])⟩
      case roots =>
        cases sy
        · obtain ⟨m, e, st, hst, hsqrt⟩ := sqrt_stands fm rnd ey hy
          obtain ⟨m', e', st', hst', hrsq⟩ := rsqrt_stands f32 rnd ey hy
          exact ⟨⟨m, e, st, hst, congrArg fltOut hsqrt⟩, m', e', st', hst', congrArg fltOut hrsq⟩
        · exact ⟨sqrt_neg fm rnd hy ey, rsqrt_neg f32 rnd hy ey⟩

end Sys2Proof.Machine
end

section
/-! The values of a format: the pattern of each, and the rounding of each to itself (R54, R57). -/

namespace Sys2Proof.Machine

/-- Every pattern is a sign, an exponent field and a fraction. -/
theorem Fmt.exists_pack {f : Fmt} {n : Nat} (hn : n < 2 ^ f.width) :
    ∃ neg ex fr, ex < 2 ^ f.ew ∧ fr < 2 ^ f.fw ∧ n = f.pack neg ex fr := by
  have hsign : n / 2 ^ f.fw / 2 ^ f.ew < 2 := by
    rw [Nat.div_div_eq_div_mul, ← pow_add, Nat.div_lt_iff_lt_mul (Nat.two_pow_pos _), ← pow_succ', Nat.add_comm f.fw]
    exact hn
  refine ⟨n / 2 ^ f.fw / 2 ^ f.ew == 1, n / 2 ^ f.fw % 2 ^ f.ew, n % 2 ^ f.fw, Nat.mod_lt _ (Nat.two_pow_pos _),
    Nat.mod_lt _ (Nat.two_pow_pos _), ?_⟩
  have hbit : bit1 (n / 2 ^ f.fw / 2 ^ f.ew == 1) = n / 2 ^ f.fw / 2 ^ f.ew := by
    generalize n / 2 ^ f.fw / 2 ^ f.ew = b at hsign ⊢
    interval_cases b <;> rfl
  have h1 := Nat.div_add_mod n (2 ^ f.fw)
  have h2 := Nat.div_add_mod (n / 2 ^ f.fw) (2 ^ f.ew)
  rw [pack, hbit]
  calc n = 2 ^ f.fw * (2 ^ f.ew * (n / 2 ^ f.fw / 2 ^ f.ew) + n / 2 ^ f.fw % 2 ^ f.ew) + n % 2 ^ f.fw := by rw [h2, h1]
    _ = _ := by ring

section
variable {f : Fmt} (neg : Bool) {ex fr : Nat} (hfr : fr < 2 ^ f.fw)
include hfr

theorem Fmt.natBits_pack (hew : 0 < f.ew) (hex : ex < 2 ^ f.ew) :
    natBits (f.pack neg ex fr) (f.ew + f.fw - 1) f.fw = ex := by
  rw [natBits, f.pack_div neg ex hfr, show f.ew + f.fw - 1 + 1 - f.fw = f.ew by omega, add_comm, Nat.add_mul_mod_self_right,
    Nat.mod_eq_of_lt hex]

/-- R54: a zero exponent field is a zero or a subnormal number. -/
theorem Fmt.value_pack_zero (hew : 0 < f.ew) : f.value (f.pack neg 0 fr) = .fin neg fr (1 - (f.bias : Int) - f.fw) := by
  have hpos := Nat.two_pow_pos f.ew
  have htop : 0 ≠ 2 ^ f.ew - 1 := by
    have : 2 ^ 1 ≤ 2 ^ f.ew := Nat.pow_le_pow_right two_pos hew
    omega
  simp only [value, natBits_pack neg hfr hew hpos, f.natBit_pack neg hpos hfr, f.pack_mod neg 0 hfr, htop, if_false, if_true]

/-- R54: the greatest exponent field is an infinity or a NaN. -/
theorem Fmt.value_pack_top (hew : 0 < f.ew) :
    f.value (f.pack neg (2 ^ f.ew - 1) fr) = if fr = 0 then .inf neg else .nan := by
  have hlt : 2 ^ f.ew - 1 < 2 ^ f.ew := Nat.sub_lt (Nat.two_pow_pos _) one_pos
  simp only [value, natBits_pack neg hfr hew hlt, f.natBit_pack neg hlt hfr, f.pack_mod neg _ hfr, if_true]

theorem bitLen_pack_normal : bitLen (2 ^ f.fw + fr) = f.fw + 1 := by
  rw [bitLen_eq_succ_iff, pow_succ]
  omega

end

theorem bitLen_mul_two_pow {n : Nat} (hn : n ≠ 0) (j : Nat) : bitLen (n * 2 ^ j) = bitLen n + j := by
  obtain ⟨b, hb⟩ : ∃ b, bitLen n = b + 1 := ⟨bitLen n - 1, (Nat.sub_add_cancel (bitLen_pos hn)).symm⟩
  obtain ⟨hlo, hhi⟩ := bitLen_eq_succ_iff.1 hb
  rw [hb, Nat.add_right_comm, bitLen_eq_succ_iff, Nat.add_right_comm, pow_add, pow_add 2 (b + 1)]
  exact ⟨by gcongr, by gcongr⟩

/-- What lies on the grid stays. -/
theorem roundAt_exact (r : Rnd) (neg : Bool) (m : Nat) {e q : Int} (h : q ≤ e) :
    roundAt r neg m e q false = (m * 2 ^ (e - q).toNat, false) := by
  have hstay : roundsUp r neg 0 0 0 false = false := by cases r <;> simp [roundsUp]
  simp [roundAt, h, hstay, bit1]

section
variable {f : Fmt} (r : Rnd) (neg : Bool) {ex fr : Nat} (hfr : fr < 2 ^ f.fw)
include hfr

/-- A subnormal number rounds to itself. -/
theorem Fmt.round_pack_zero : (f.round r neg fr (1 - (f.bias : Int) - f.fw) false).1 = f.pack neg 0 fr := by
  rcases eq_or_ne fr 0 with rfl | h0
  · simp [round_zero, zero, pack]
  · have hlen := bitLen_le_of_lt hfr
    have hpos := bitLen_pos h0
    have hfine := roundAt_exact r neg fr
      (show (1 - (f.bias : Int) - f.fw) + bitLen fr - 1 - f.fw ≤ 1 - (f.bias : Int) - f.fw by omega)
    rw [round_tiny h0 rfl hfine (by rw [bitLen_mul_two_pow h0]; omega), roundAt_exact r neg fr le_rfl]
    simp [zero, pack]

/-- A normal number rounds to itself. -/
theorem Fmt.round_pack_normal (h0 : 0 < ex) (hex : (ex : Int) ≤ 2 * f.bias) :
    (f.round r neg (2 ^ f.fw + fr) ((ex : Int) - f.bias - f.fw) false).1 = f.pack neg ex fr := by
  have hlen := bitLen_pack_normal hfr
  have hm : 2 ^ f.fw + fr ≠ 0 := by
    have := Nat.two_pow_pos f.fw
    omega
  have hn : roundAt r neg (2 ^ f.fw + fr) ((ex : Int) - f.bias - f.fw) ((ex : Int) - f.bias - f.fw) false =
      (2 ^ f.fw + fr, false) := by
    rw [roundAt_exact r neg _ le_rfl]
    simp
  rw [round_normal hm (by omega) hn (by omega) (by omega), hlen, if_neg (lt_irrefl _), Nat.add_mod_left, Nat.mod_eq_of_lt hfr]
  rw [show (((f.fw + 1 : Nat) : Int) + ((ex : Int) - f.bias - f.fw) - 1 + f.bias).toNat = ex by omega]

end

/-- R54: the pattern of a zero or a subnormal number, of a normal number, or of an infinity or a NaN. -/
theorem Fmt.pack_cases {f : Fmt} (hew : 0 < f.ew) {n : Nat} (hn : n < 2 ^ f.width) : ∃ neg fr, fr < 2 ^ f.fw ∧
    (n = f.pack neg 0 fr ∨ (∃ ex, 0 < ex ∧ ex ≤ 2 * f.bias ∧ n = f.pack neg ex fr) ∨
      n = f.pack neg (2 ^ f.ew - 1) fr) := by
  obtain ⟨neg, ex, fr, hex, hfr, rfl⟩ := exists_pack hn
  have hbias := Fmt.two_mul_bias hew
  refine ⟨neg, fr, hfr, ?_⟩
  rcases Nat.eq_zero_or_pos ex with rfl | hpos
  · exact .inl rfl
  · rcases le_or_gt ex (2 * f.bias) with hle | hgt
    · exact .inr (.inl ⟨ex, hpos, hle, rfl⟩)
    · obtain rfl : ex = 2 ^ f.ew - 1 := by omega
      exact .inr (.inr rfl)

section
variable {f : Fmt} (hew : 0 < f.ew) {n : Nat} (hn : n < 2 ^ f.width)
include hew hn

/-- R57: a value of the format rounds to its own pattern. -/
theorem Fmt.round_value (r : Rnd) {m : Nat} {s : Bool} {e : Int} (h : f.value n = .fin s m e) :
    (f.round r s m e false).1 = n := by
  have hbias := Fmt.two_mul_bias hew
  obtain ⟨neg, fr, hfr, rfl | ⟨ex, hpos, hle, rfl⟩ | rfl⟩ := pack_cases hew hn
  · rw [value_pack_zero neg hfr hew] at h
    obtain ⟨rfl, rfl, rfl⟩ := FV.fin.inj h
    exact round_pack_zero r _ hfr
  · rw [value_pack f neg hpos (by omega) hfr] at h
    obtain ⟨rfl, rfl, rfl⟩ := FV.fin.inj h
    exact round_pack_normal r _ hfr hpos (by omega)
  · rw [value_pack_top neg hfr hew] at h
    split at h <;> cases h

theorem Fmt.eq_inf_of_value {s : Bool} (h : f.value n = .inf s) : n = f.inf s := by
  have hbias := Fmt.two_mul_bias hew
  obtain ⟨neg, fr, hfr, rfl | ⟨ex, hpos, hle, rfl⟩ | rfl⟩ := pack_cases hew hn
  · rw [value_pack_zero neg hfr hew] at h
    cases h
  · rw [value_pack f neg hpos (by omega) hfr] at h
    cases h
  · rw [value_pack_top neg hfr hew] at h
    split at h
    · next h0 =>
      cases h
      rw [h0]
      rfl
    · cases h

/-- The pattern written for a value that was read is the pattern read. -/
theorem Fmt.pattern_value (h : f.value n ≠ .nan) : f.pattern (f.value n) = n := by
  cases hv : f.value n with
  | nan => exact absurd hv h
  | inf s => exact (eq_inf_of_value hew hn hv).symm
  | fin s m e => exact round_value hew hn .rne hv

end

end Sys2Proof.Machine
end

section
/-! A rounded value among the values of its format (R57): it never passes a value that the exact one does not pass, and a
directed mode rounds to its own side. -/

namespace Sys2Proof.Machine

-- ===== the grid that a magnitude is rounded on =====

/-- n is the multiple of 2^q that the magnitude x rounds to, where q is no coarser than the last place of x or of the subnormal
numbers. -/
structure Fmt.RoundsTo (f : Fmt) (r : Rnd) (neg : Bool) (x : ℚ) (n : Nat) (q : Int) : Prop where
  nearest : Nearest r neg x q n
  last : 1 - (f.bias : Int) - f.fw < q → (2 : ℚ) ^ (q + f.fw) ≤ x

/-- A number that the format has as a finite value. -/
def Fmt.Represents (f : Fmt) (y : ℚ) : Prop :=
  ∃ s m e, m < 2 ^ (f.fw + 1) ∧ 1 - (f.bias : Int) - f.fw ≤ e ∧ e ≤ (f.bias : Int) - f.fw ∧ (FV.fin s m e).rat = y

theorem Fmt.represents_value {f : Fmt} (hf : 1 < f.ew) {w m : Nat} {s : Bool} {e : Int} (h : f.value w = .fin s m e) :
    f.Represents (FV.fin s m e).rat := by
  obtain ⟨hm, hlo, hhi⟩ := value_bounds hf h
  exact ⟨s, m, e, hm, hlo, hhi, rfl⟩

theorem FV.rat_nonpos (m : Nat) (e : Int) : (FV.fin true m e).rat ≤ 0 := by
  simp only [FV.rat_fin, if_true, neg_nonpos]
  positivity

theorem FV.rat_not (s : Bool) (m : Nat) (e : Int) : (FV.fin (!s) m e).rat = -(FV.fin s m e).rat := by
  cases s <;> simp [FV.rat_fin]

theorem Fmt.Represents.neg {f : Fmt} {y : ℚ} (h : f.Represents y) : f.Represents (-y) := by
  obtain ⟨s, m, e, hm, hlo, hhi, rfl⟩ := h
  exact ⟨!s, m, e, hm, hlo, hhi, FV.rat_not s m e⟩

/-- The greatest finite number of a format bounds what it represents. -/
theorem Fmt.Represents.le_max {f : Fmt} {y : ℚ} (h : f.Represents y) :
    y ≤ (2 ^ (f.fw + 1) - 1 : Nat) * (2 : ℚ) ^ ((f.bias : Int) - f.fw) := by
  obtain ⟨s, m, e, hm, -, hhi, rfl⟩ := h
  have hmag : m * (2 : ℚ) ^ e ≤ (2 ^ (f.fw + 1) - 1 : Nat) * (2 : ℚ) ^ ((f.bias : Int) - f.fw) := by
    gcongr
    · omega
    · exact one_le_two
  have hpos : 0 ≤ m * (2 : ℚ) ^ e := by positivity
  rw [FV.rat_fin]
  split <;> linarith

theorem Fmt.max_lt (f : Fmt) : (2 ^ (f.fw + 1) - 1 : Nat) * (2 : ℚ) ^ ((f.bias : Int) - f.fw) < 2 ^ (f.bias + 1) := by
  have hlt : ((2 ^ (f.fw + 1) - 1 : Nat) : ℚ) < 2 ^ (f.fw + 1) := mod_cast Nat.sub_lt (Nat.two_pow_pos _) one_pos
  calc _ < (2 : ℚ) ^ (f.fw + 1) * (2 : ℚ) ^ ((f.bias : Int) - f.fw) := by gcongr
    _ = 2 ^ (f.bias + 1) := by
      rw [← zpow_natCast, ← zpow_natCast, ← zpow_add₀ two_ne_zero]
      congr 1
      omega

section
variable {f : Fmt} {r : Rnd} {neg : Bool} {x y : ℚ} {n : Nat} {q : Int} (h : f.RoundsTo r neg x n q) (hy : f.Represents y)
include h hy

/-- A value at most x is at most what x rounds to. -/
theorem Fmt.RoundsTo.le_of_le (hle : y ≤ x) : y ≤ n * (2 : ℚ) ^ q := by
  obtain ⟨s, m, e, hm, hlo, -, rfl⟩ := hy
  obtain ⟨-, hx⟩ := h.nearest.within
  have hu := zpow_pos (two_pos (α := ℚ)) q
  cases s
  case true =>
    have hpos : 0 ≤ n * (2 : ℚ) ^ q := by positivity
    exact (FV.rat_nonpos m e).trans hpos
  case false =>
    simp only [FV.rat_fin, Bool.false_eq_true, if_false] at hle ⊢
    rcases le_or_gt q e with hqe | hqe
    · rw [mul_zpow_eq_scaled m hqe] at hle ⊢
      have := lt_of_mul_lt_mul_right (hle.trans_lt hx) hu.le
      gcongr
      norm_cast at this
      omega
    · have hn : (2 : ℚ) ^ f.fw ≤ n := by
        have hlast := (h.last (by omega)).trans_lt hx
        rw [zpow_add₀ two_ne_zero, mul_comm] at hlast
        have := lt_of_mul_lt_mul_right hlast hu.le
        norm_cast at this ⊢
        omega
      calc m * (2 : ℚ) ^ e ≤ 2 ^ (f.fw + 1) * 2 ^ e := by gcongr; exact_mod_cast hm.le
        _ ≤ 2 ^ f.fw * 2 ^ q := by
          rw [← zpow_natCast, ← zpow_natCast, ← zpow_add₀ two_ne_zero, ← zpow_add₀ two_ne_zero]
          exact zpow_le_zpow_right₀ one_le_two (by omega)
        _ ≤ n * 2 ^ q := by gcongr

/-- A value at least x, which is positive, is at least what x rounds to. -/
theorem Fmt.RoundsTo.ge_of_ge (hx0 : 0 < x) (hge : x ≤ y) : n * (2 : ℚ) ^ q ≤ y := by
  obtain ⟨s, m, e, hm, hlo, -, rfl⟩ := hy
  obtain ⟨hx, -⟩ := h.nearest.within
  have hu := zpow_pos (two_pos (α := ℚ)) q
  cases s
  case true =>
    exact absurd (hx0.trans_le hge) (FV.rat_nonpos m e).not_gt
  case false =>
    simp only [FV.rat_fin, Bool.false_eq_true, if_false] at hge ⊢
    have hqe : q ≤ e := by
      rcases le_or_gt q (1 - (f.bias : Int) - f.fw) with hq | hq
      · omega
      · have hlt : (2 : ℚ) ^ (q + f.fw) < 2 ^ (f.fw + 1 + e : Int) := by
          calc (2 : ℚ) ^ (q + f.fw) ≤ m * 2 ^ e := (h.last hq).trans hge
            _ < (2 ^ (f.fw + 1) : Nat) * 2 ^ e := by gcongr
            _ = 2 ^ (f.fw + 1 + e : Int) := by
              push_cast
              rw [← zpow_natCast, ← zpow_add₀ two_ne_zero]
              push_cast
              rfl
        have := zpow_two_lt_iff.1 hlt
        omega
    rw [mul_zpow_eq_scaled m hqe] at hge ⊢
    have := lt_of_mul_lt_mul_right (hx.trans_le hge) hu.le
    gcongr
    rw [sub_lt_iff_lt_add] at this
    norm_cast at this
    omega

end

-- ===== what a rounding delivers =====

/-- On the subnormal grid a significand of up to 2^fw, the least normal number's, is its own pattern. -/
theorem Fmt.value_subnormal {f : Fmt} (hf : 1 < f.ew) (neg : Bool) {n : Nat} (hn : n ≤ 2 ^ f.fw) :
    f.zero neg + n < 2 ^ f.width ∧ f.value (f.zero neg + n) = .fin neg n (1 - (f.bias : Int) - f.fw) := by
  have hew : 2 ^ 2 ≤ 2 ^ f.ew := Nat.pow_le_pow_right two_pos hf
  have hpos := Nat.two_pow_pos f.fw
  rcases hn.lt_or_eq with hlt | rfl
  · have hpack : f.zero neg + n = f.pack neg 0 n := by simp [zero, pack]
    rw [hpack]
    exact ⟨f.pack_lt neg (by omega) hlt, value_pack_zero neg hlt (by omega)⟩
  · have hpack : f.zero neg + 2 ^ f.fw = f.pack neg 1 0 := by simp [zero, pack]
    rw [hpack, value_pack f neg one_pos (by omega) hpos]
    exact ⟨f.pack_lt neg (by omega) hpos, by simp⟩

theorem Fmt.overflowed_lt {f : Fmt} (r : Rnd) (neg : Bool) : f.overflowed r neg < 2 ^ f.width := by
  have hinf : f.inf neg < 2 ^ f.width :=
    f.pack_lt neg (Nat.sub_lt (Nat.two_pow_pos f.ew) one_pos) (Nat.two_pow_pos f.fw)
  have hmax : f.maxFinite neg < 2 ^ f.width := (Nat.sub_le ..).trans_lt hinf
  unfold overflowed
  split
  · exact hinf
  · exact hinf
  · exact hinf
  · exact hmax

theorem Fmt.zpow_leastNormal (f : Fmt) : (2 : ℚ) ^ (1 - (f.bias : Int)) = 2 ^ f.fw * 2 ^ (1 - (f.bias : Int) - f.fw) := by
  rw [← zpow_natCast, ← zpow_add₀ two_ne_zero]
  congr 1
  omega

/-- What is no more than the least normal number rounds on the subnormal grid to no more. -/
theorem Nearest.le_leastNormal {f : Fmt} {r : Rnd} {neg : Bool} {x : ℚ} {n : Nat}
    (h : Nearest r neg x (1 - (f.bias : Int) - f.fw) n) (hx : x ≤ 2 ^ (1 - (f.bias : Int))) : n ≤ 2 ^ f.fw := by
  have hlt := h.within.1.trans_le hx
  rw [f.zpow_leastNormal] at hlt
  have := lt_of_mul_lt_mul_right hlt (zpow_pos two_pos _).le
  rw [sub_lt_iff_lt_add] at this
  norm_cast at this
  omega

/-- R57, R58: a nonzero magnitude rounds to a multiple of its grid, or overflows. -/
theorem Fmt.exists_roundsTo {f : Fmt} (hf : f.Standard) (r : Rnd) (neg : Bool) {m : Nat} (hm : m ≠ 0) (e : Int) :
    let w := (f.round r neg m e false).1
    ∃ n q, f.RoundsTo r neg (m * (2 : ℚ) ^ e) n q ∧ w < 2 ^ f.width ∧
      (n * (2 : ℚ) ^ q < 2 ^ (f.bias + 1) ∧ (∃ m' e', f.value w = .fin neg m' e' ∧ m' * (2 : ℚ) ^ e' = n * 2 ^ q) ∨
        (2 : ℚ) ^ (f.bias + 1) ≤ n * 2 ^ q ∧ w = f.overflowed r neg) := by
  intro w
  obtain ⟨k, hk⟩ : ∃ k, e + bitLen m - 1 - f.fw = k := ⟨_, rfl⟩
  obtain ⟨hlo, hhi⟩ := binade_of_bitLen hm hk
  obtain ⟨n, hnear, hout⟩ := (roundingIsCorrect f r neg m e k false (m * (2 : ℚ) ^ e) hf).2 (sub_self _) hlo hhi
  have hn := hnear.bounds hlo hhi
  dsimp only at hout
  split at hout
  · next hover =>
    have hw : w = f.overflowed r neg := congrArg Prod.fst hout
    exact ⟨n, k, ⟨hnear, fun _ => hlo⟩, hw ▸ overflowed_lt r neg, .inr ⟨hover, hw⟩⟩
  · next hover =>
    split at hout
    · next htiny =>
      obtain ⟨n', hnear', hout⟩ := hout
      have hw : w = f.zero neg + n' := congrArg Prod.fst hout
      have hbinade : k + f.fw < 1 - (f.bias : Int) := by
        refine zpow_two_lt_iff.1 (lt_of_le_of_lt ?_ htiny)
        rw [zpow_add₀ two_ne_zero, mul_comm, zpow_natCast]
        gcongr
        exact_mod_cast hn.1
      have hsmall := hnear'.le_leastNormal (hhi.le.trans (zpow_le_zpow_right₀ one_le_two (by omega)))
      obtain ⟨hlt, hval⟩ := value_subnormal hf.one_lt_ew neg hsmall
      refine ⟨n', _, ⟨hnear', fun h => absurd h (lt_irrefl _)⟩, hw ▸ hlt, .inl ⟨?_, _, _, hw ▸ hval, rfl⟩⟩
      have hbias := hf.bias_pos
      calc n' * (2 : ℚ) ^ (1 - (f.bias : Int) - f.fw) ≤ 2 ^ f.fw * 2 ^ (1 - (f.bias : Int) - f.fw) := by
            gcongr
            exact_mod_cast hsmall
        _ < 2 ^ ((f.bias + 1 : Nat) : Int) := by rw [← f.zpow_leastNormal, zpow_two_lt_iff]; omega
        _ = 2 ^ (f.bias + 1) := zpow_natCast ..
    · obtain ⟨hlt, ⟨m', e', hval⟩, hrat, -⟩ := hout
      rw [hval, FV.rat_fin] at hrat
      refine ⟨n, k, ⟨hnear, fun _ => hlo⟩, hlt, .inl ⟨not_le.1 hover, m', e', hval, ?_⟩⟩
      cases neg <;> simpa using hrat

section
variable {f : Fmt} (hf : f.Standard) (r : Rnd) (s : Bool) (m : Nat) (e : Int)
include hf

theorem Fmt.round_lt : (f.round r s m e false).1 < 2 ^ f.width := by
  rcases eq_or_ne m 0 with rfl | hm
  · rw [round_zero]
    exact (value_subnormal hf.one_lt_ew s (Nat.zero_le _)).1
  · obtain ⟨n, q, -, hlt, -⟩ := exists_roundsTo hf r s hm e
    exact hlt

theorem Fmt.value_round_zero : f.value (f.round r s 0 e false).1 = .fin s 0 (1 - (f.bias : Int) - f.fw) := by
  rw [round_zero]
  exact (value_subnormal hf.one_lt_ew s (Nat.zero_le _)).2

/-- R57: between two values of the format the exact value rounds to one between them. -/
theorem Fmt.round_between {y z : ℚ} (hy : f.Represents y) (hz : f.Represents z) (hyx : y ≤ (FV.fin s m e).rat)
    (hxz : (FV.fin s m e).rat ≤ z) :
    ∃ m' e', f.value (f.round r s m e false).1 = .fin s m' e' ∧ y ≤ (FV.fin s m' e').rat ∧ (FV.fin s m' e').rat ≤ z := by
  rcases eq_or_ne m 0 with rfl | hm
  · rw [FV.rat_zero] at hyx hxz
    exact ⟨0, _, value_round_zero hf r s e, by rwa [FV.rat_zero], by rwa [FV.rat_zero]⟩
  · obtain ⟨n, q, hto, -, hout⟩ := exists_roundsTo hf r s hm e
    have hx : 0 < m * (2 : ℚ) ^ e := by positivity
    have hmag : ∀ {l u : ℚ}, f.Represents l → f.Represents u → l ≤ m * (2 : ℚ) ^ e → m * (2 : ℚ) ^ e ≤ u →
        ∃ m' e', f.value (f.round r s m e false).1 = .fin s m' e' ∧
          l ≤ m' * (2 : ℚ) ^ e' ∧ m' * (2 : ℚ) ^ e' ≤ u := by
      intro l u hl hu hlx hxu
      have hle := hto.le_of_le hl hlx
      have hge := hto.ge_of_ge hu hx hxu
      rcases hout with ⟨-, m', e', hval, hrat⟩ | ⟨hover, -⟩
      · exact ⟨m', e', hval, by rwa [hrat], by rwa [hrat]⟩
      · exact absurd (hover.trans (hge.trans hu.le_max)) (max_lt f).not_ge
    simp only [FV.rat_fin] at hyx hxz ⊢
    cases s
    · exact hmag hy hz hyx hxz
    · obtain ⟨m', e', hval, hl, hu⟩ := hmag hz.neg hy.neg (neg_le.1 hxz) (le_neg.1 hyx)
      exact ⟨m', e', hval, le_neg.1 hu, neg_le.1 hl⟩

end

-- ===== directed modes =====

theorem Nearest.away {r : Rnd} {neg : Bool} {x : ℚ} {q : Int} {n : Nat} (h : Nearest r neg x q n) (ha : roundsAway r neg = true) :
    x ≤ n * (2 : ℚ) ^ q := by
  match r, neg with
  | .rdn, true | .rup, false => exact h.2

theorem Nearest.inward {r : Rnd} {neg : Bool} {x : ℚ} {q : Int} {n : Nat} (h : Nearest r neg x q n)
    (ha : roundsAway r neg = false) (hr : r ≠ .rne) : n * (2 : ℚ) ^ q ≤ x := by
  match r, neg with
  | .rne, _ => exact absurd rfl hr
  | .rtz, _ | .rdn, false | .rup, true => exact h.1

theorem Fmt.overflowed_away {f : Fmt} {r : Rnd} {neg : Bool} (ha : roundsAway r neg = true) : f.overflowed r neg = f.inf neg := by
  match r, neg with
  | .rdn, true | .rup, false => rfl

theorem Fmt.overflowed_inward {f : Fmt} {r : Rnd} {neg : Bool} (ha : roundsAway r neg = false) (hr : r ≠ .rne) :
    f.overflowed r neg = f.maxFinite neg := by
  match r, neg with
  | .rne, _ => exact absurd rfl hr
  | .rtz, _ | .rdn, false | .rup, true => rfl

end Sys2Proof.Machine
end

section
/-! Intervals from floats, and bounds, midpoint and width of intervals (R121, R122). -/

namespace Sys2Proof.Machine

-- ===== .f32 =====

theorem f32_standard : Fmt.f32.Standard := .inr (.inr (.inl rfl))

theorem f32_value_inf (s : Bool) : Fmt.f32.value (Fmt.f32.inf s) = .inf s := by cases s <;> decide

theorem f32_value_maxFinite (s : Bool) : Fmt.f32.value (Fmt.f32.maxFinite s) = .fin s (2 ^ 24 - 1) 104 := by cases s <;> decide

/-- The greatest finite number of .f32 bounds what it represents. -/
theorem f32_le_max {y : ℚ} (h : Fmt.f32.Represents y) : y ≤ (FV.fin false (2 ^ 24 - 1) 104).rat := by
  have hle := h.le_max
  rw [FV.rat_fin]
  exact hle

theorem f32_max_lt : (FV.fin false (2 ^ 24 - 1) 104).rat < 2 ^ 128 := by
  have hlt := Fmt.max_lt .f32
  rw [FV.rat_fin]
  exact hlt

theorem f32_neg_max_le {y : ℚ} (h : Fmt.f32.Represents y) : (FV.fin true (2 ^ 24 - 1) 104).rat ≤ y := by
  rw [← Bool.not_false, FV.rat_not, neg_le]
  exact f32_le_max h.neg

-- ===== outward rounding (R62, R120) =====

section
variable {r : Rnd} {s : Bool} (m : Nat) (e : Int)

/-- A mode that takes magnitudes away from zero delivers an infinity or a magnitude that is no smaller. -/
theorem value_round_away (ha : roundsAway r s = true) :
    let v := Fmt.f32.value (Fmt.f32.round r s m e false).1
    v = .inf s ∨ ∃ m' e', v = .fin s m' e' ∧ m * (2 : ℚ) ^ e ≤ m' * (2 : ℚ) ^ e' := by
  rcases eq_or_ne m 0 with rfl | hm
  · exact .inr ⟨0, _, Fmt.value_round_zero f32_standard r s e, by simp⟩
  · obtain ⟨n, q, hto, -, ⟨-, m', e', hval, hrat⟩ | ⟨-, hw⟩⟩ := Fmt.exists_roundsTo f32_standard r s hm e
    · exact .inr ⟨m', e', hval, by rw [hrat]; exact hto.nearest.away ha⟩
    · left
      rw [hw, Fmt.overflowed_away ha, f32_value_inf]

/-- A directed mode that takes magnitudes towards zero delivers a magnitude that is no greater. -/
theorem value_round_inward (ha : roundsAway r s = false) (hr : r ≠ .rne) :
    ∃ m' e', Fmt.f32.value (Fmt.f32.round r s m e false).1 = .fin s m' e' ∧ m' * (2 : ℚ) ^ e' ≤ m * (2 : ℚ) ^ e := by
  rcases eq_or_ne m 0 with rfl | hm
  · exact ⟨0, _, Fmt.value_round_zero f32_standard r s e, by simp⟩
  · obtain ⟨n, q, hto, -, ⟨-, m', e', hval, hrat⟩ | ⟨hover, hw⟩⟩ := Fmt.exists_roundsTo f32_standard r s hm e
    · exact ⟨m', e', hval, by rw [hrat]; exact hto.nearest.inward ha hr⟩
    · refine ⟨_, _, by rw [hw, Fmt.overflowed_inward ha hr, f32_value_maxFinite], ?_⟩
      have hmax := f32_max_lt
      rw [FV.rat_fin] at hmax
      exact hmax.le.trans (hover.trans (hto.nearest.inward ha hr))

end

theorem outward_atMost (s : Bool) (m : Nat) (e : Int) : (outward false (.fin s m e)).atMost (FV.fin s m e).rat := by
  cases s
  · obtain ⟨m', e', hval, hle⟩ := value_round_inward (r := .rdn) (s := false) m e rfl nofun
    simpa [outward, hval, FV.atMost, FV.rat_fin] using hle
  · rcases value_round_away (r := .rdn) (s := true) m e rfl with hval | ⟨m', e', hval, hle⟩
    · simp [outward, hval, FV.atMost]
    · simpa [outward, hval, FV.atMost, FV.rat_fin] using hle

theorem outward_atLeast (s : Bool) (m : Nat) (e : Int) : (outward true (.fin s m e)).atLeast (FV.fin s m e).rat := by
  cases s
  · rcases value_round_away (r := .rup) (s := false) m e rfl with hval | ⟨m', e', hval, hle⟩
    · simp [outward, hval, FV.atLeast]
    · simpa [outward, hval, FV.atLeast, FV.rat_fin] using hle
  · obtain ⟨m', e', hval, hle⟩ := value_round_inward (r := .rup) (s := true) m e rfl nofun
    simpa [outward, hval, FV.atLeast, FV.rat_fin] using hle

-- ===== bounds as they are written (R63) =====

/-- Two bounds that differ at most in the sign of a zero. -/
def FV.SameBound (x y : FV) : Prop := x = y ∨ ∃ s e s' e', x = .fin s 0 e ∧ y = .fin s' 0 e'

section
variable {x y : FV} (h : FV.SameBound x y)
include h

theorem FV.SameBound.boundBits_eq : boundBits x = boundBits y := by
  rcases h with rfl | ⟨s, e, s', e', rfl, rfl⟩ <;> rfl

theorem FV.SameBound.atMost {q : ℚ} (hy : y.atMost q) : x.atMost q := by
  rcases h with rfl | ⟨s, e, s', e', rfl, rfl⟩
  · exact hy
  · simpa only [FV.atMost, FV.rat_zero] using hy

theorem FV.SameBound.atLeast {q : ℚ} (hy : y.atLeast q) : x.atLeast q := by
  rcases h with rfl | ⟨s, e, s', e', rfl, rfl⟩
  · exact hy
  · simpa only [FV.atLeast, FV.rat_zero] using hy

end

theorem boundBits_of_ne_zero (s : Bool) {m : Nat} (hm : m ≠ 0) (e : Int) :
    boundBits (.fin s m e) = Fmt.f32.pattern (.fin s m e) := by
  unfold boundBits
  split
  · next h =>
    cases h
    exact absurd rfl hm
  · rfl

/-- A bound is written as its own pattern, but for the sign of a zero. -/
theorem value_boundBits {n : Nat} (hn : n < 2 ^ 32) :
    boundBits (Fmt.f32.value n) < 2 ^ 32 ∧ (Fmt.f32.value (boundBits (Fmt.f32.value n))).SameBound (Fmt.f32.value n) := by
  match hv : Fmt.f32.value n with
  | .nan => exact ⟨by decide, .inl (by decide)⟩
  | .inf s => cases s <;> exact ⟨by decide, .inl (by decide)⟩
  | .fin s 0 e =>
    have hzero : Fmt.f32.value 0 = .fin false 0 (-149) := by decide
    exact ⟨Nat.two_pow_pos 32, .inr ⟨false, _, s, e, hzero, rfl⟩⟩
  | .fin s (m + 1) e =>
    have hbits : boundBits (.fin s (m + 1) e) = n := by
      rw [boundBits_of_ne_zero s m.succ_ne_zero, ← hv]
      exact Fmt.pattern_value (by decide) hn (by rw [hv]; nofun)
    rw [hbits]
    exact ⟨hn, .inl hv⟩

-- ===== intervals as they are written (R61, R63) =====

theorem loBits_ivWord {lo hi : FV} (hl : boundBits lo < 2 ^ 32) (hh : boundBits hi < 2 ^ 32) :
    loBits (ivWord lo hi) = boundBits lo ∧ hiBits (ivWord lo hi) = boundBits hi := by
  simp only [loBits, hiBits, ivWord, BitVec.toNat_ofNat]
  omega

/-- What makes an interval proper (R61). -/
theorem Iv.ofWord_eq_proper {w : Word} {lo hi : FV} : Iv.ofWord w = .proper lo hi ↔
    Fmt.f32.value (loBits w) = lo ∧ Fmt.f32.value (hiBits w) = hi ∧ lo ≠ .nan ∧ hi ≠ .nan ∧ hi.lt lo = false := by
  constructor
  · intro h
    unfold Iv.ofWord at h
    dsimp only at h
    split at h
    · cases h
    · next hnan =>
      split at h
      · cases h
      · split at h
        · cases h
        · next hgt =>
          obtain ⟨rfl, rfl⟩ := Iv.proper.inj h
          obtain ⟨hl, hh⟩ : Fmt.f32.value (loBits w) ≠ .nan ∧ Fmt.f32.value (hiBits w) ≠ .nan := by
            constructor <;> intro he <;> simp [he, FV.isNan] at hnan
          rw [cmp_beq_gt hl hh] at hgt
          exact ⟨rfl, rfl, hl, hh, Bool.eq_false_iff.2 hgt⟩
  · rintro ⟨rfl, rfl, hl, hh, hlt⟩
    have hempty : ¬(Fmt.f32.value (loBits w) = .inf false ∧ Fmt.f32.value (hiBits w) = .inf true) := by
      rintro ⟨hlo, hhi⟩
      rw [hlo, hhi] at hlt
      cases hlt
    simp [Iv.ofWord, FV.isNan_eq_false hl, FV.isNan_eq_false hh, cmp_beq_gt hl hh, hlt, hempty]

theorem FV.ordered_of_holds {lo hi : FV} {q : ℚ} (hl : lo.atMost q) (hh : hi.atLeast q) :
    lo ≠ .nan ∧ hi ≠ .nan ∧ hi.lt lo = false := by
  match lo, hi with
  | .nan, _ => exact hl.elim
  | _, .nan => exact hh.elim
  | .inf true, .inf false | .inf true, .fin .. | .fin .., .inf false => exact ⟨nofun, nofun, rfl⟩
  | .inf false, _ => cases hl
  | _, .inf true => cases hh
  | .fin .., .fin .. => exact ⟨nofun, nofun, decide_eq_false (not_lt.2 (hl.trans hh))⟩

/-- An interval written from bounds about a number holds it. -/
theorem Iv.holds_ivWord {a b : Nat} (ha : a < 2 ^ 32) (hb : b < 2 ^ 32) {q : ℚ} (hl : (Fmt.f32.value a).atMost q)
    (hh : (Fmt.f32.value b).atLeast q) : (Iv.ofWord (ivWord (Fmt.f32.value a) (Fmt.f32.value b))).Holds q := by
  obtain ⟨hla, hsa⟩ := value_boundBits ha
  obtain ⟨hlb, hsb⟩ := value_boundBits hb
  obtain ⟨hlo, hhi⟩ := loBits_ivWord hla hlb
  have hl' := hsa.atMost hl
  have hh' := hsb.atLeast hh
  rw [Iv.ofWord_eq_proper.2 ⟨by rw [hlo], by rw [hhi], FV.ordered_of_holds hl' hh'⟩]
  exact ⟨hl', hh'⟩

-- ===== ivpt and ivmake (R121) =====

/-- A value of .f32 stays. -/
theorem outward_value (up : Bool) {n : Nat} (hn : n < 2 ^ 32) : outward up (Fmt.f32.value n) = Fmt.f32.value n := by
  cases hv : Fmt.f32.value n with
  | nan | inf _ => rfl
  | fin s m e => rw [outward, Fmt.round_value (by decide) hn _ hv, hv]

theorem ivPtVal_of_ne_nan {x : FV} (hx : x ≠ .nan) : ivPtVal x = (ivWord (outward false x) (outward true x), 0) := by
  unfold ivPtVal
  split
  · exact absurd rfl hx
  · rfl

/-- A number whose magnitude .f32 does not reach overflows. -/
theorem Fmt.round_of_le_rat {f : Fmt} (r : Rnd) {s : Bool} {m : Nat} {e : Int}
    (h : (2 : ℚ) ^ (f.bias + 1) ≤ m * (2 : ℚ) ^ e) : (f.round r s m e false).1 = f.overflowed r s := by
  have hm : m ≠ 0 := by
    rintro rfl
    have := pow_pos (two_pos (α := ℚ)) (f.bias + 1)
    rw [Nat.cast_zero, zero_mul] at h
    linarith
  have htop : ((f.bias + 1 : Nat) : Int) ≤ bitLen m + e - 1 := by
    rw [← zpow_natCast, ← not_lt, mul_zpow_lt_zpow_iff hm, not_lt] at h
    exact h
  rw [Fmt.round_above r s hm (by omega)]

theorem ivPtVal_above {m : Nat} {s : Bool} {e : Int} (h : (2 : ℚ) ^ 128 ≤ (FV.fin s m e).rat) :
    (ivPtVal (.fin s m e)).1 = ivWord (Fmt.f32.value (Fmt.f32.maxFinite false)) (.inf false) := by
  rw [FV.rat_fin] at h
  have hpos : 0 ≤ m * (2 : ℚ) ^ e := by positivity
  cases s
  · have hround := fun r => Fmt.round_of_le_rat (f := .f32) r (s := false) h
    simp only [ivPtVal, outward, hround, if_true, Bool.false_eq_true, if_false]
    rw [show Fmt.f32.overflowed .rup false = Fmt.f32.inf false from rfl, f32_value_inf]
    rfl
  · simp only [if_true] at h
    linarith [pow_pos (two_pos (α := ℚ)) 128]

theorem ivPtVal_below {m : Nat} {s : Bool} {e : Int} (h : (FV.fin s m e).rat ≤ -(2 : ℚ) ^ 128) :
    (ivPtVal (.fin s m e)).1 = ivWord (.inf true) (Fmt.f32.value (Fmt.f32.maxFinite true)) := by
  rw [FV.rat_fin] at h
  have hpos : 0 ≤ m * (2 : ℚ) ^ e := by positivity
  cases s
  · simp only [Bool.false_eq_true, if_false] at h
    linarith [pow_pos (two_pos (α := ℚ)) 128]
  · have hround := fun r => Fmt.round_of_le_rat (f := .f32) r (s := true) (neg_le_neg_iff.1 h)
    simp only [ivPtVal, outward, hround, if_true, Bool.false_eq_true, if_false]
    rw [show Fmt.f32.overflowed .rdn true = Fmt.f32.inf true from rfl, f32_value_inf]
    rfl

theorem ivMakeVal_eq (x y : FV) : ivMakeVal x y =
    if x = .nan ∨ y = .nan then (naiWord, 0)
    else if x = .inf false ∧ y = .inf true then (emptyWord, 0)
    else if y.lt x then (naiWord, Flags.nv)
    else (ivWord x y, 0) := by
  by_cases hx : x = .nan
  · simp [hx, ivMakeVal, FV.isNan]
  · by_cases hy : y = .nan
    · simp [hy, ivMakeVal, FV.isNan]
    · simp [ivMakeVal, FV.isNan_eq_false hx, FV.isNan_eq_false hy, hx, hy, cmp_beq_gt hx hy]

-- ===== midpoint and width (R121, R122) =====

theorem ofNat_boundBits_toNat {x : FV} (h : boundBits x < 2 ^ 32) : (BitVec.ofNat 64 (boundBits x)).toNat = boundBits x := by
  rw [BitVec.toNat_ofNat]
  omega

/-- R122: the midpoint of finite bounds is half their exact sum, rounded to nearest. -/
theorem ivMid_fin (sl : Bool) (ml : Nat) (el : Int) (sh : Bool) (mh : Nat) (eh : Int) :
    ∃ s k e, (FV.fin s k e).rat = ((FV.fin sl ml el).rat + (FV.fin sh mh eh).rat) / 2 ∧
      ivMid (.fin sl ml el) (.fin sh mh eh) = Fmt.f32.value (boundBits (Fmt.f32.value (Fmt.f32.round .rne s k e false).1)) := by
  obtain ⟨hval, -⟩ := exactSum_spec .rne sl ml el sh mh eh
  refine ⟨(exactSum .rne sl ml el sh mh eh).1, (exactSum .rne sl ml el sh mh eh).2.1,
    (exactSum .rne sl ml el sh mh eh).2.2 - 1, ?_, rfl⟩
  rw [← hval, FV.rat_fin, FV.rat_fin, zpow_sub_one₀ two_ne_zero]
  split <;> ring

/-- R121: the width of finite bounds is their exact difference, rounded up. -/
theorem ivWidVal_fin (sl : Bool) (ml : Nat) (el : Int) (sh : Bool) (mh : Nat) (eh : Int) :
    ∃ s k e, (FV.fin s k e).rat = (FV.fin sh mh eh).rat - (FV.fin sl ml el).rat ∧
      ivWidVal (.proper (.fin sl ml el) (.fin sh mh eh)) = (BitVec.ofNat 64 (boundBits (outward true (.fin s k e))), 0) := by
  obtain ⟨hval, -⟩ := exactSum_spec .rne sh mh eh (!sl) ml el
  exact ⟨(exactSum .rne sh mh eh (!sl) ml el).1, (exactSum .rne sh mh eh (!sl) ml el).2.1,
    (exactSum .rne sh mh eh (!sl) ml el).2.2, by rw [hval, FV.rat_not, sub_eq_add_neg], rfl⟩

/-- What ivmid writes, read back, is the midpoint but for the sign of a zero. -/
theorem value_ivMidVal {lo hi : FV} {n : Nat} (hn : n < 2 ^ 32) (hmid : ivMid lo hi = Fmt.f32.value n) :
    (Fmt.f32.value (ivMidVal (.proper lo hi)).1.toNat).SameBound (Fmt.f32.value n) := by
  obtain ⟨hlt, hsame⟩ := value_boundBits hn
  have hread : Fmt.f32.value (ivMidVal (.proper lo hi)).1.toNat = Fmt.f32.value (boundBits (Fmt.f32.value n)) := by
    rw [ivMidVal, f32Word, hmid, ofNat_boundBits_toNat hlt]
  rw [hread]
  exact hsame

/-- A value that is neither below lo nor above hi. -/
def FV.Between (x lo hi : FV) : Prop := x ≠ .nan ∧ x.lt lo = false ∧ hi.lt x = false

theorem FV.SameBound.between {x y lo hi : FV} (h : x.SameBound y) (hy : y.Between lo hi) : x.Between lo hi := by
  rcases h with rfl | ⟨s, e, s', e', rfl, rfl⟩
  · exact hy
  · obtain ⟨-, hlo, hhi⟩ := hy
    refine ⟨nofun, ?_, ?_⟩
    · match lo with
      | .nan | .inf true | .inf false => exact hlo
      | .fin .. => simpa only [FV.lt, FV.rat_zero] using hlo
    · match hi with
      | .nan | .inf true | .inf false => exact hhi
      | .fin .. => simpa only [FV.lt, FV.rat_zero] using hhi

theorem FV.between_fin {s sl sh : Bool} {m ml mh : Nat} {e el eh : Int} (hlo : (FV.fin sl ml el).rat ≤ (FV.fin s m e).rat)
    (hhi : (FV.fin s m e).rat ≤ (FV.fin sh mh eh).rat) : (FV.fin s m e).Between (.fin sl ml el) (.fin sh mh eh) :=
  ⟨nofun, decide_eq_false hlo.not_gt, decide_eq_false hhi.not_gt⟩

/-- R122: the midpoint of an interval of .f32 bounds lies between them. -/
theorem ivMidVal_between {a b : Nat} {lo hi : FV} (ha : Fmt.f32.value a = lo) (hb : Fmt.f32.value b = hi) (hlo : lo ≠ .nan)
    (hhi : hi ≠ .nan) (hle : hi.lt lo = false) : (Fmt.f32.value (ivMidVal (.proper lo hi)).1.toNat).Between lo hi := by
  match lo, hi, hlo, hhi with
  | .inf true, .inf false, _, _ =>
    have hmid : Fmt.f32.value (ivMidVal (.proper (.inf true) (.inf false))).1.toNat = .fin false 0 (-149) := by decide
    rw [hmid]
    exact ⟨nofun, rfl, rfl⟩
  | .inf true, .inf true, _, _ =>
    have hmid : Fmt.f32.value (ivMidVal (.proper (.inf true) (.inf true))).1.toNat = .inf true := by decide
    rw [hmid]
    exact ⟨nofun, rfl, rfl⟩
  | .inf false, .inf false, _, _ =>
    have hmid : Fmt.f32.value (ivMidVal (.proper (.inf false) (.inf false))).1.toNat = .inf false := by decide
    rw [hmid]
    exact ⟨nofun, rfl, rfl⟩
  | .inf false, .inf true, _, _ | .inf false, .fin .., _, _ | .fin .., .inf true, _, _ => cases hle
  | .inf true, .fin sh mh eh, _, _ =>
    refine (value_ivMidVal (n := Fmt.f32.maxFinite true) (by decide) rfl).between ?_
    rw [f32_value_maxFinite]
    exact ⟨nofun, rfl, decide_eq_false (f32_neg_max_le (Fmt.represents_value (by decide) hb)).not_gt⟩
  | .fin sl ml el, .inf false, _, _ =>
    refine (value_ivMidVal (n := Fmt.f32.maxFinite false) (by decide) rfl).between ?_
    rw [f32_value_maxFinite]
    exact ⟨nofun, decide_eq_false (f32_le_max (Fmt.represents_value (by decide) ha)).not_gt, rfl⟩
  | .fin sl ml el, .fin sh mh eh, _, _ =>
    obtain ⟨s, k, e, hrat, hmid⟩ := ivMid_fin sl ml el sh mh eh
    have hord : (FV.fin sl ml el).rat ≤ (FV.fin sh mh eh).rat := not_lt.1 (of_decide_eq_false hle)
    obtain ⟨m', e', hval, hl, hh⟩ := Fmt.round_between f32_standard .rne s k e (Fmt.represents_value (by decide) ha)
      (Fmt.represents_value (by decide) hb) (by rw [hrat]; linarith) (by rw [hrat]; linarith)
    obtain ⟨hlt, hsame⟩ := value_boundBits (Fmt.round_lt f32_standard .rne s k e)
    have hround := FV.between_fin hl hh
    rw [← hval] at hround
    exact (value_ivMidVal hlt hmid).between (hsame.between hround)

/-- Settles O17: directed rounding keeps to its side, .f32 values round to themselves, and rounding to nearest passes no
value that the midpoint does not pass. -/
theorem intervalBounds : Obligations.IntervalBounds := by
  unfold Obligations.IntervalBounds
  intro h dbl d a b nan big
  refine ⟨fltUn_completes fun _ => rfl, fltBin_completes fun _ => rfl, ivUn_completes fun _ => rfl, ivUn_completes fun _ => rfl,
    ivUn_completes fun _ => rfl, ivUn_completes fun _ => rfl, rfl, fun p => rfl, fun n hn hv => ?point, fun s m e => ⟨?holds, rfl,
      ivPtVal_above, ivPtVal_below⟩, ivMakeVal_eq, ?special, rfl, rfl, rfl, rfl, fun lo hi => ⟨rfl, rfl, ?mid, ?wid⟩,
    fun w lo hi hw => ?between⟩
  case point => rw [ivPtVal_of_ne_nan hv, outward_value false hn, outward_value true hn]
  case holds =>
    exact Iv.holds_ivWord (Fmt.round_lt f32_standard ..) (Fmt.round_lt f32_standard ..) (outward_atMost s m e)
      (outward_atLeast s m e)
  case special =>
    intro g hg
    simp only [List.mem_cons, List.not_mem_nil, or_false] at hg
    rcases hg with rfl | rfl | rfl | rfl <;> exact ⟨rfl, rfl⟩
  case mid =>
    match lo, hi with
    | .inf true, .inf false | .inf true, .fin .. | .fin .., .inf false => rfl
    | .inf true, .inf true | .inf false, .inf false => exact fun _ => rfl
    | .inf true, .nan | .inf false, .nan | .inf false, .fin .. | .nan, _ | .fin .., .nan | .fin .., .inf true => trivial
    | .inf false, .inf true => exact nofun
    | .fin sl ml el, .fin sh mh eh =>
      obtain ⟨s, k, e, hrat, hmid⟩ := ivMid_fin sl ml el sh mh eh
      obtain ⟨-, hsame⟩ := value_boundBits (Fmt.round_lt f32_standard .rne s k e)
      exact ⟨s, k, e, hrat, by rw [ivMidVal, hmid, hsame.boundBits_eq]; rfl⟩
  case wid =>
    match lo, hi with
    | .fin sl ml el, .fin sh mh eh => exact ivWidVal_fin sl ml el sh mh eh
    | .inf true, .fin .. | .fin .., .inf false | .inf true, .inf false => rfl
    | .inf true, .nan | .inf false, _ | .nan, _ | .fin .., .nan | .fin .., .inf true | .inf true, .inf true => trivial
  case between =>
    obtain ⟨hlo, hhi, hl, hh, hle⟩ := Iv.ofWord_eq_proper.1 hw
    exact ivMidVal_between hlo hhi hl hh hle

end Sys2Proof.Machine
end

section
/-! The words that steer a team (R148, R170, R172, R176): a branch's split of the current mask, the count that a loop reads,
and the words that end with their team moved on. -/

namespace Sys2Proof.Machine

-- ===== a word that ends =====

theorem forTeam_of_tfind {s : State} {t : Team} (ht : tfind s.teams s.cur = some t) (g : Nat → Team → State) :
    forTeam s g = .next (g s.cur t) := by
  simp [forTeam, ht]

section
variable {i : Instr} {s : State} {h : Hdr} {ps : List Pend} {next : Option Nat} (hps : ps.filter Pend.live = ps)
include hps

/-- A word that only ends moves its team on. -/
theorem goes_of_finishWord {t : Team} (ht : tfind s.teams s.cur = some t)
    (hi : exec i s = .next (finishWord s s.cur { pends := ps, next, sw := h.sw })) :
    Goes i s (t.issued h (next.getD (t.pc + 8)) ps) := by
  rw [Goes, hi, finishWord_issued ht, hps]

/-- So does a word that replaces its team and ends. -/
theorem goes_of_finishWord_setTeam {u : Team}
    (hi : exec i s = .next (finishWord (s.setTeam s.cur u) s.cur { pends := ps, next, sw := h.sw })) :
    Goes i s (u.issued h (next.getD (u.pc + 8)) ps) := by
  have hu : tfind (s.setTeam s.cur u).teams s.cur = some u := tfind_tput_self ..
  rw [Goes, hi, finishWord_issued hu, hps, setTeam_setTeam]

end

/-- A branch offset counts words from the next word (R28), by the model's reading of a signed field and by the library's. -/
theorem branchTarget_eq_jumpTo (t : Team) (off : BitVec 32) : branchTarget t.pc off = jumpTo t off := by
  rw [branchTarget, jumpTo, wrapNat, signedOf_toInt]
  rfl

theorem inText_iff (k : Kernel) (va : Nat) :
    inText k va = true ↔ va % 8 = 0 ∧ k.text ≤ va ∧ va < k.text + k.textSize := by
  simp [inText, and_assoc]

theorem inText_eq_false_iff (k : Kernel) (va : Nat) :
    inText k va = false ↔ ¬(va % 8 = 0 ∧ k.text ≤ va ∧ va < k.text + k.textSize) := by
  rw [← inText_iff, Bool.not_eq_true]

/-- The results of a link register and of a count act in lane 0, so none is dropped. -/
theorem kResult_filter_live (t : Team) (lat : Lat) (k : Nat) (x : Word) (isLoop : Bool) :
    [kResult t lat k x isLoop].filter Pend.live = [kResult t lat k x isLoop] := rfl

-- ===== nop, yield and loop =====

/-- The teams of f's core, f aside, that are ready now (R176). -/
def readyNeighbours (s : State) (f : Nat) : List Nat :=
  (s.teams.filter fun e => coreOf e.1 == coreOf f && e.1 != f && teamReady s e.1 e.2).map (·.1)

theorem mem_readyNeighbours {s : State} {f g : Nat} : g ∈ readyNeighbours s f ↔
    ∃ u, (g, u) ∈ s.teams ∧ g / 8 = f / 8 ∧ g ≠ f ∧ teamReady s g u = true := by
  simp [readyNeighbours, coreOf, and_assoc]

theorem loopCount_of_noLoop {t : Team} (h : ∀ p ∈ t.pend, p.isLoop = false) (k : Nat) : loopCount t k = readK t k := by
  have hnone : (t.pend.filter fun p => p.isLoop && p.writes.any fun w => w.reg == .k k && !w.vals.isEmpty) = [] :=
    List.filter_eq_nil_iff.2 fun p hp => by simp [h p hp]
  simp [loopCount, hnone]

/-- A loop's write that is the last result in flight is what the next loop reads, at any distance (R172). -/
theorem loopCount_of_lastWrite {t : Team} {p : Pend} {k n : Nat} {w : Word} (hlast : t.pend.getLast? = some p)
    (hloop : p.isLoop = true) (hw : p.writes = [⟨.k k, [(n, w)]⟩]) : loopCount t k = w := by
  obtain ⟨earlier, he⟩ := List.getLast?_eq_some_iff.1 hlast
  simp [loopCount, he, hloop, hw, List.filter_append, lowestVal]

section
variable {s : State} {t : Team} (ht : tfind s.teams s.cur = some t) {h : Hdr}
include ht

theorem nop_goes (h : Hdr) : Goes (.nop h) s (t.issued h (t.pc + 8) []) := by
  refine goes_of_finishWord rfl ht (next := none) ?_
  change execNop h s = _
  rw [execNop, forTeam_of_tfind ht]

theorem yield_falls (ha : (activeLanes t h).isEmpty = true) : Goes (.yield h) s (t.issued h (t.pc + 8) []) := by
  refine goes_of_finishWord rfl ht (next := none) ?_
  change execYield h s = _
  simp only [execYield, forTeam_of_tfind ht, if_pos ha]

theorem yield_goes (ha : (activeLanes t h).isEmpty = false) :
    Goes (.yield h) s (({ t with yielded := readyNeighbours s s.cur } : Team).issued h (t.pc + 8) []) := by
  refine goes_of_finishWord_setTeam (u := { t with yielded := readyNeighbours s s.cur }) rfl (next := none) ?_
  change execYield h s = _
  simp only [execYield, forTeam_of_tfind ht, ha]
  rfl

theorem loop_falls {k : BitVec 6} (off : BitVec 32) (hc : loopCount t k.toNat = 0) :
    Goes (.loop h k off) s (t.issued h (t.pc + 8) []) := by
  refine goes_of_finishWord rfl ht (next := none) ?_
  change execLoop h k off s = _
  simp only [execLoop, forTeam_of_tfind ht, if_pos hc]

theorem loop_counts {k : BitVec 6} (off : BitVec 32) (hc : loopCount t k.toNat ≠ 0) : Goes (.loop h k off) s
    (t.issued h (if loopCount t k.toNat = 1 then t.pc + 8 else jumpTo t off)
      [kResult t L4 k.toNat (loopCount t k.toNat - 1) true]) := by
  have hgoes := goes_of_finishWord (i := .loop h k off) (h := h) (kResult_filter_live t L4 k.toNat (loopCount t k.toNat - 1) true)
    ht (next := if loopCount t k.toNat = 1 then none else some (branchTarget t.pc off)) (by
      change execLoop h k off s = _
      simp only [execLoop, forTeam_of_tfind ht, if_neg hc])
  rwa [apply_ite (Option.getD · _), Option.getD_none, Option.getD_some, branchTarget_eq_jumpTo] at hgoes

end

-- ===== a branch's split of the mask =====

theorem Team.split_zero (t : Team) : t.split 0 = some (t, false) := by
  simp only [Team.split, if_true]

section
variable {t : Team} {taken : LaneSet} (ht : taken ≠ 0)
include ht

theorem Team.split_all (hr : t.mask &&& ~~~taken = 0) : t.split taken = some (t, true) := by
  simp only [Team.split, if_neg ht, if_pos hr]

variable (hr : t.mask &&& ~~~taken ≠ 0)
include hr

/-- The untaken lanes join a side entry of the same word. -/
theorem Team.split_merges {e : StackEntry} {r : List StackEntry} (hs : t.stack = e :: r)
    (he : e.isJoin = false ∧ e.addr = t.pc + 8) : t.split taken =
      some ({ t with stack := { e with mask := e.mask ||| (t.mask &&& ~~~taken) } :: r, mask := taken }, true) := by
  simp only [Team.split, if_neg ht, if_neg hr, hs, he, Bool.not_false, decide_true, Bool.and_self, if_true]

variable (hs : ∀ e r, t.stack = e :: r → ¬(e.isJoin = false ∧ e.addr = t.pc + 8))
include hs

/-- Where the top entry is no side entry of the word, the untaken lanes take an entry of their own. -/
theorem Team.split_eq_push : t.split taken =
    (t.push false (t.pc + 8) (t.mask &&& ~~~taken)).map fun u => ({ u with mask := taken }, true) := by
  cases hstack : t.stack with
  | nil => simp only [Team.split, if_neg ht, if_neg hr, hstack]
  | cons e r =>
    have he : ¬(!e.isJoin && decide (e.addr = t.pc + 8)) = true := by simpa using hs e r hstack
    simp only [Team.split, if_neg ht, if_neg hr, hstack, if_neg he]

theorem Team.split_pushes (hlen : ¬t.stack.length ≥ 16) : t.split taken =
    some ({ t with stack := ⟨false, t.pc + 8, t.mask &&& ~~~taken, t.nextUid⟩ :: t.stack, nextUid := t.nextUid + 1,
                   mask := taken }, true) := by
  rw [Team.split_eq_push ht hr hs, Team.push, if_neg hlen, Option.map_some]

theorem Team.split_overflows (hlen : t.stack.length ≥ 16) : t.split taken = none := by
  rw [Team.split_eq_push ht hr hs, Team.push, if_pos hlen, Option.map_none]

end

-- ===== bra, call and ret =====

section
variable {i : Instr} {h : Hdr} {s : State} {t : Team} {target : Nat} {ps : List Pend}
  (hi : exec i s = .next (branchWord h target ps s s.cur t))
include hi

theorem branch_falls (ht : tfind s.teams s.cur = some t) (h0 : laneSet (activeLanes t h) = 0) :
    Goes i s (t.issued h (t.pc + 8) []) :=
  goes_of_finishWord rfl ht (next := none) (by rw [hi, branchWord, h0, Team.split_zero])

theorem branch_jumps {u : Team} (hps : ps.filter Pend.live = ps)
    (hu : t.split (laneSet (activeLanes t h)) = some (u, true)) : Goes i s (u.issued h target ps) :=
  goes_of_finishWord_setTeam hps (next := some target) (by rw [hi, branchWord, hu])

theorem branch_overflows (hu : t.split (laneSet (activeLanes t h)) = none) : Traps i s t .stackOverflow := by
  rw [Traps, hi, branchWord, hu]

end

section
variable {s : State} {t : Team} (ht : tfind s.teams s.cur = some t)
include ht

theorem exec_bra (h : Hdr) (off : BitVec 32) :
    exec (.bra h off) s = .next (branchWord h (jumpTo t off) [] s s.cur t) := by
  change execBra h off s = _
  rw [execBra, forTeam_of_tfind ht, branchTarget_eq_jumpTo]

theorem exec_call (h : Hdr) (k : BitVec 6) (off : BitVec 32) : exec (.call h k off) s =
    .next (branchWord h (jumpTo t off) [kResult t L4 k.toNat (BitVec.ofNat 64 (t.pc + 8))] s s.cur t) := by
  change execCall h k off s = _
  rw [execCall, forTeam_of_tfind ht, branchTarget_eq_jumpTo]

variable {h : Hdr} {k : BitVec 6}

theorem ret_falls (ha : (activeLanes t h).isEmpty = true) : Goes (.ret h k) s (t.issued h (t.pc + 8) []) := by
  refine goes_of_finishWord rfl ht (next := none) ?_
  change execRet h k s = _
  simp only [execRet, forTeam_of_tfind ht, if_pos ha]

variable (ha : (activeLanes t h).isEmpty = false)
include ha

/-- Outside a handler a ret into the text is a branch to K[L]. -/
theorem exec_ret (hn : t.handler = none) (hx : inText (s.kernelOf t) (readK t k.toNat).toNat = true) :
    exec (.ret h k) s = .next (branchWord h (readK t k.toNat).toNat [] s s.cur t) := by
  change execRet h k s = _
  simp only [execRet, forTeam_of_tfind ht, ha, hx, hn, Bool.not_true, Bool.false_eq_true, if_false]

theorem ret_badTarget (hx : inText (s.kernelOf t) (readK t k.toNat).toNat = false) : Traps (.ret h k) s t .badTarget := by
  change execRet h k s = _
  simp only [execRet, forTeam_of_tfind ht, ha, hx, Bool.not_false, Bool.false_eq_true, if_false, if_true]

end

theorem activeLanes_of_laneSet_ne_zero {t : Team} {h : Hdr} (hne : laneSet (activeLanes t h) ≠ 0) :
    (activeLanes t h).isEmpty = false := by
  cases hl : activeLanes t h with
  | nil => exact absurd (by rw [hl]; rfl) hne
  | cons => rfl

/-- Settles O22: nop, yield and loop end with their team moved on; bra, call and ret are one branch each, and the branch's
split of the mask decides between the fall, the jump and the trap. -/
theorem branchesAndLoops : Obligations.BranchesAndLoops := by
  unfold Obligations.BranchesAndLoops
  refine ⟨fun h k off s t ht => ⟨nop_goes ht h, yield_falls ht, fun ha => ⟨_, yield_goes ht ha, fun g => mem_readyNeighbours⟩,
      fun hno => loopCount_of_noLoop hno _, loop_falls ht off, loop_counts ht off,
      fun n p w hlast hloop hw => loopCount_of_lastWrite hlast hloop hw⟩,
    fun h k off s t ht hn => ?branches⟩
  case branches =>
    intro taken rest target back text split jumps
    have hbra := exec_bra ht h off
    have hcall := exec_call ht h k off
    by_cases h0 : taken = 0
    · rw [if_pos h0]
      exact ⟨branch_falls hbra ht h0, branch_falls hcall ht h0, ret_falls ht⟩
    rw [if_neg h0]
    have ha := activeLanes_of_laneSet_ne_zero h0
    have hsplit : t.split taken = split.map (·, true) := by
      by_cases hr : rest = 0
      · simp only [split, if_pos hr, Option.map_some]
        exact Team.split_all h0 hr
      cases hs : t.stack with
      | nil =>
        have hnone : ∀ e r, t.stack = e :: r → ¬(e.isJoin = false ∧ e.addr = t.pc + 8) := by simp [hs]
        rw [Team.split_pushes h0 hr hnone (by simp [hs])]
        simp only [split, hs, if_neg hr, Option.map_some, rest]
      | cons e r =>
        by_cases he : e.isJoin = false ∧ e.addr = t.pc + 8
        · rw [Team.split_merges h0 hr hs he]
          simp only [split, hs, if_neg hr, if_pos he, Option.map_some, rest]
        · have hother : ∀ e' r', t.stack = e' :: r' → ¬(e'.isJoin = false ∧ e'.addr = t.pc + 8) := by
            rintro e' r' hs'
            cases hs.symm.trans hs'
            exact he
          by_cases hlen : t.stack.length ≥ 16
          · rw [Team.split_overflows h0 hr hother hlen]
            simp only [split, hs, if_neg hr, if_neg he, if_pos (hs ▸ hlen), Option.map_none]
          · rw [Team.split_pushes h0 hr hother hlen]
            simp only [split, hs, if_neg hr, if_neg he, if_neg (hs ▸ hlen), Option.map_some, rest]
    have hjumps : ∀ i next ps, ps.filter Pend.live = ps → exec i s = .next (branchWord h next ps s s.cur t) →
        jumps i next ps := by
      intro i next ps hps hi
      clear_value split
      cases split with
      | none => exact branch_overflows hi hsplit
      | some u => exact branch_jumps hi hps hsplit
    refine ⟨hjumps _ _ _ rfl hbra, hjumps _ _ _ rfl hcall, ?_⟩
    split
    · next hx => exact hjumps _ _ _ rfl (exec_ret ht ha hn ((inText_iff ..).2 hx))
    · next hx => exact fun _ => ret_badTarget ht ha ((inText_eq_false_iff ..).2 hx)

end Sys2Proof.Machine
end

section
/-! The cross-lane words (R179 to R185): a word that reads other lanes completes as its slot does, masks of a warp's lanes
bit by bit, and the chains of scan and redl lane by lane. -/

namespace Sys2Proof.Machine

-- ===== a cross-lane word as a whole =====

/-- On a sound core a cross-lane word whose lanes compute without fault completes with their results. -/
theorem crossWord_completes {i : Instr} {h : Hdr} {dests : List Reg} {reads : Nat → List (Nat × Nat)} {fn : Nat → LaneOut}
    {s : State} {t : Team} (hs : Issuing s t) (hi : exec i s = .next (crossWord i h dests reads fn s s.cur t))
    (hf : ∀ l, (fn l).fault = none) :
    Computes i s t h L8 (dests.map fun r => (r, fun l => ((fn l).vals.find? fun y => y.1 == r).map (·.2)))
      fun l => (fn l).flags := by
  obtain ⟨ht, hr⟩ := hs
  have hfaults : (runSlot s s.cur t i h L8 dests .none reads [] fn).faults = [] := by
    rw [runSlot_faults _ _ _ _ _ _ _ _ _ _ _ hr]
    simp [hf]
  have hstore := runSlot_storeOnly s s.cur t i h L8 dests .none reads [] fn hr
  have hpend := runSlot_pend s s.cur t i h L8 dests .none reads [] fn hr hf
  simp only [crossWord, hfaults] at hi
  generalize runSlot s s.cur t i h L8 dests .none reads [] fn = r at hi hstore hpend
  obtain ⟨hissue, hlat, hlanes, haccs, hloop, hacq, hflags, hwrites⟩ := hpend
  refine ⟨_, [r.pend].filter Pend.live, hi, finishWord_teamOnly ht hstore _ none h, ?_⟩
  have hlive : r.pend.live = !(activeLanes t h).isEmpty := by simp [Pend.live, hlanes, hlat]
  by_cases hact : (activeLanes t h).isEmpty
  · rw [if_pos hact, List.filter_singleton, hlive, hact]
    rfl
  · rw [if_neg hact, List.filter_singleton, hlive, eq_false_of_ne_true hact]
    refine ⟨r.pend, rfl, hissue, hlat, hlanes, ?_, hflags, haccs, hloop, hacq⟩
    rw [hwrites, List.filter_map, List.map_map]
    rfl

/-- A cross-lane word that computes one value and its flags in each lane. -/
theorem crossWord_computesOne {i : Instr} {h : Hdr} {d : Reg} {reads : Nat → List (Nat × Nat)} {g : Nat → Word × Flags}
    {s : State} {t : Team} (hs : Issuing s t)
    (hi : exec i s = .next (crossWord i h [d] reads (fun l => { vals := [(d, (g l).1)], flags := (g l).2 }) s s.cur t)) :
    Computes i s t h L8 [(d, fun l => some (g l).1)] fun l => (g l).2 := by
  simpa using crossWord_completes hs hi fun _ => rfl

/-- A cross-lane word that leaves its one register as it is in some lanes, and raises no flag. -/
theorem crossWord_computesSome {i : Instr} {h : Hdr} {d : Reg} {reads : Nat → List (Nat × Nat)} {fn : Nat → LaneOut}
    {g : Nat → Option Word} {s : State} {t : Team} (hs : Issuing s t)
    (hi : exec i s = .next (crossWord i h [d] reads fn s s.cur t))
    (hfn : ∀ l, fn l = { vals := ((g l).map fun v => (d, v)).toList }) :
    Computes i s t h L8 [(d, g)] fun _ => 0 := by
  have hfind : ∀ o : Option Word, ((o.map fun v => (d, v)).toList.find? fun y => y.1 == d).map (·.2) = o := fun o => by
    cases o <;> simp
  have k := crossWord_completes hs hi fun l => by rw [hfn]
  simpa only [hfn, hfind, List.map_cons, List.map_nil] using k

-- ===== the lanes of a scope =====

theorem scopeLanes_sorted (t : Team) (h : Hdr) (team : Bool) (l : Nat) : (scopeLanes t h team l).Pairwise (· < ·) :=
  (List.pairwise_lt_range.filter _).filter _

theorem mem_scopeLanes_self {t : Team} {h : Hdr} {l : Nat} (team : Bool) (hl : l ∈ activeLanes t h) :
    l ∈ scopeLanes t h team l := by
  simp [scopeLanes, hl]

theorem div_of_mem_scopeLanes_warp {t : Team} {h : Hdr} {l m : Nat} (hm : m ∈ scopeLanes t h false l) : m / 32 = l / 32 := by
  simpa using (List.mem_filter.1 hm).2

/-- The mask of some lanes of one warp, each lane's bit at its place in the warp. -/
def warpMask (ls : List Nat) : Nat := ls.foldl (fun n m => n + 2 ^ (m % 32)) 0

/-- Lanes in ascending order have their own bits each, so their sum is their mask. -/
theorem testBit_warpMask {ls : List Nat} (hs : (ls.map (· % 32)).Pairwise (· < ·)) (i : Nat) :
    (warpMask ls).testBit i = decide (∃ m ∈ ls, m % 32 = i) := by
  have hsum : warpMask ls = ((ls.map (· % 32)).map fun j => 2 ^ j).sum := by
    simp [warpMask, List.sum_eq_foldl, List.foldl_map]
  rw [hsum, Bool.eq_iff_iff, ← Nat.mem_bitIndices, Nat.bitIndices_sum_map_two_pow hs.sortedLT]
  simp

theorem getLsbD_warpMask {t : Team} {h : Hdr} {l i : Nat} (p : Nat → Bool) (hi : i < 64) :
    (BitVec.ofNat 64 (warpMask ((scopeLanes t h false l).filter p))).getLsbD i =
      decide (∃ m ∈ scopeLanes t h false l, m % 32 = i ∧ p m = true) := by
  have hs : (((scopeLanes t h false l).filter p).map (· % 32)).Pairwise (· < ·) := by
    refine List.pairwise_map.2 (((scopeLanes_sorted ..).filter p).imp_of_mem fun {x y} hx hy hlt => ?_)
    have hdiv := (div_of_mem_scopeLanes_warp (List.mem_filter.1 hx).1).trans
      (div_of_mem_scopeLanes_warp (List.mem_filter.1 hy).1).symm
    omega
  rw [BitVec.getLsbD_ofNat, testBit_warpMask hs]
  simp only [hi, decide_true, Bool.true_and, List.mem_filter, decide_eq_decide]
  exact exists_congr fun m => by tauto

-- ===== vote, shfl, push and match =====

/-- R180: the value of each mode of vote. -/
theorem voteVal_spec (t : Team) (h : Hdr) (team : Bool) (vm : VoteMode) (pa : BitVec 4) (l : Nat) :
    let v := BitVec.ofNat 64 (voteVal t h team vm pa l)
    match vm with
    | .every => v = if ∀ m ∈ scopeLanes t h team l, readP t pa.toNat m = 1 then 1 else 0
    | .any => v = if ∃ m ∈ scopeLanes t h team l, readP t pa.toNat m = 1 then 1 else 0
    | .count => v = BitVec.ofNat 64 ((scopeLanes t h team l).countP fun m => readP t pa.toNat m == 1)
    | .tmask => team = false → ∀ i, i < 64 →
        v.getLsbD i = decide (∃ m ∈ scopeLanes t h false l, m % 32 = i ∧ readP t pa.toNat m = 1)
    | .umask => team = false → ∀ i, i < 64 →
        v.getLsbD i = decide (∃ m ∈ scopeLanes t h false l, m % 32 = i ∧ readP t pa.toNat m = 2) := by
  intro v
  cases vm with
  | every => simp [v, voteVal, bit1, apply_ite (BitVec.ofNat 64)]
  | any => simp [v, voteVal, bit1, apply_ite (BitVec.ofNat 64)]
  | count => simp only [v, voteVal, List.countP_eq_length_filter]
  | tmask =>
    rintro rfl i hi
    exact (getLsbD_warpMask (fun m => readP t pa.toNat m == 1) hi).trans (by simp only [beq_iff_eq])
  | umask =>
    rintro rfl i hi
    exact (getLsbD_warpMask (fun m => readP t pa.toNat m == 2) hi).trans (by simp only [beq_iff_eq])

theorem vote_completes (h : Hdr) (team : Bool) (vm : VoteMode) (d : Dst) (pa : BitVec 4) {s : State} {t : Team}
    (hs : Issuing s t) : Computes (.vote h team vm d pa) s t h L8
      [(dstReg d, fun l => some (BitVec.ofNat 64 (voteVal t h team vm pa l)))] fun _ => 0 :=
  crossWord_computesOne hs (g := fun l => (BitVec.ofNat 64 (voteVal t h team vm pa l), 0))
    (show execVote h team vm d pa s = _ from forTeam_of_tfind hs.team _)

theorem shflLane_rel (t : Team) (team : Bool) (x : Word) (l : Nat) :
    shflLane t team .rel x l =
      let r := ((l % 32 : Nat) : Int) + (x.setWidth 32 : BitVec 32).toInt
      if 0 ≤ r ∧ r ≤ 31 then some (l / 32 * 32 + r.toNat) else none := by
  rw [← rdInt_s32]
  rfl

/-- What shfl writes in a lane whose source lane is given (R181). -/
def shflOut (s : State) (t : Team) (d : BitVec 7) (a : Src) (pc : BitVec 4) : Option Nat → LaneOut
  | some m => { vals := [(.v d.toNat, readSrc s s.cur t .int a m), (pReg pc, 1)] }
  | none => { vals := [(pReg pc, 0)] }

section
variable (s : State) (t : Team) (d : BitVec 7) (a : Src) (pc : BitVec 4) (o : Option Nat)

theorem shflOut_fault : (shflOut s t d a pc o).fault = none := by cases o <;> rfl

theorem shflOut_flags : (shflOut s t d a pc o).flags = 0 := by cases o <;> rfl

theorem shflOut_data : ((shflOut s t d a pc o).vals.find? fun y => y.1 == .v d.toNat).map (·.2) =
    o.map (readSrc s s.cur t .int a) := by
  cases o <;> simp [shflOut, pReg]

theorem shflOut_valid : ((shflOut s t d a pc o).vals.find? fun y => y.1 == pReg pc).map (·.2) =
    some (if o.isSome then 1 else 0) := by
  cases o <;> simp [shflOut, pReg]

end

theorem shfl_completes (h : Hdr) (team : Bool) (sm : ShflMode) (d : BitVec 7) (a b : Src) (pc : BitVec 4) {s : State} {t : Team}
    (hs : Issuing s t) :
    let source := fun l => shflLane t team sm (readSrc s s.cur t .int b l) l
    Computes (.shfl h team sm d a b pc) s t h L8
      [(.v d.toNat, fun l => (source l).map (readSrc s s.cur t .int a)),
       (pReg pc, fun l => some (if (source l).isSome then 1 else 0))] fun _ => 0 := by
  intro source
  have hword : execShfl h team sm d a b pc s = _ := forTeam_of_tfind hs.team _
  have k := crossWord_completes (i := .shfl h team sm d a b pc) (fn := fun l => shflOut s t d a pc (source l)) hs hword
    fun l => shflOut_fault s t d a pc (source l)
  simpa only [List.map_cons, List.map_nil, shflOut_data, shflOut_valid, shflOut_flags] using k

/-- On a core whose rows are sound every sender sends. -/
theorem pushSender_sound {s : State} {t : Team} (hs : Issuing s t) (h : Hdr) (a b : Src) (l : Nat) :
    pushSender s s.cur t h a b l =
      ((activeLanes t h).filter fun m => (readSrc s s.cur t .int b m).toNat % 2 ^ 32 == l).getLast? := by
  have hreads : ∀ m, ((ownReads [a, b] m).all fun x => (rowBad (s.core (coreOf s.cur)) t x.1 x.2).isNone) = true := fun m =>
    List.all_eq_true.2 fun x _ => by rw [rowBad_none hs.sound]; rfl
  simp only [pushSender, hreads, Bool.and_true]

theorem push_completes (h : Hdr) (d : BitVec 7) (a b : Src) {s : State} {t : Team} (hs : Issuing s t) :
    Computes (.push h d a b) s t ⟨h.sw, 0, .isTrue⟩ L8
      [(.v d.toNat, fun l => (pushSender s s.cur t h a b l).map (readSrc s s.cur t .int a))] fun _ => 0 :=
  crossWord_computesSome hs (show execPush h d a b s = _ from forTeam_of_tfind hs.team _) fun l => by
    cases pushSender s s.cur t h a b l <;> rfl

theorem putBits_beq_iff (ty : Ty) (x y : Word) :
    (putBits ty.bits x == putBits ty.bits y) = true ↔ x.toNat % 2 ^ ty.bits = y.toNat % 2 ^ ty.bits := by
  rw [beq_iff_eq, ← BitVec.toNat_inj, putBits_toNat (tyBits_le ty), putBits_toNat (tyBits_le ty)]

theorem matchLanes_completes (h : Hdr) (ty : Ty) (d : BitVec 7) (a : Src) {s : State} {t : Team} (hs : Issuing s t) :
    let x := fun l => putBits ty.bits (readSrc s s.cur t .int a l)
    Computes (.matchLanes h ty d a) s t h L8
      [(.v d.toNat, fun l => some (BitVec.ofNat 64 (warpMask ((scopeLanes t h false l).filter fun m => x m == x l))))]
      fun _ => 0 :=
  crossWord_computesOne hs (g := fun _ => (BitVec.ofNat 64 _, 0))
    (show execMatchLanes h ty d a s = _ from forTeam_of_tfind hs.team _)

-- ===== the chains of scan and redl =====

/-- The combination of some lanes in ascending order (R182). -/
def scanTotal (ty : Ty) (op : ScanOp) (val : Nat → Word) : List Nat → Word
  | [] => scanIdentity ty op
  | x :: xs => xs.foldl (fun acc m => (scanStep ty op acc (val m)).1) (scanRead ty (val x))

/-- The flags of the step that takes the last of some lanes into the combination of the others (R182). -/
def scanRaised (ty : Ty) (op : ScanOp) (val : Nat → Word) (ls : List Nat) : Flags :=
  match ls.getLast? with
  | none => 0
  | some m => if ls.length = 1 then 0 else (scanStep ty op (scanTotal ty op val ls.dropLast) (val m)).2

/-- The model's step of a chain at a lane. -/
def scanAdd (ty : Ty) (op : ScanOp) (val : Nat → Word) (a : Option Word × List (Nat × Word × Flags)) (l : Nat) :
    Option Word × List (Nat × Word × Flags) :=
  match a.1 with
  | none => (some (scanRead ty (val l)), [(l, scanRead ty (val l), 0)])
  | some p => (some (scanStep ty op p (val l)).1, a.2 ++ [(l, (scanStep ty op p (val l)).1, (scanStep ty op p (val l)).2)])

/-- The model's step of a shifted chain: each lane takes what the lane before it had. -/
def shiftAdd (a : Word × Flags × List (Nat × Word × Flags)) (x : Nat × Word × Flags) : Word × Flags × List (Nat × Word × Flags) :=
  (x.2.1, x.2.2, a.2.2 ++ [(x.1, a.1, a.2.1)])

section
variable (ty : Ty) (op : ScanOp) (val : Nat → Word) (ls : List Nat) (m : Nat)

theorem scanTotal_concat : scanTotal ty op val (ls ++ [m]) =
    if ls = [] then scanRead ty (val m) else (scanStep ty op (scanTotal ty op val ls) (val m)).1 := by
  cases ls <;> simp [scanTotal]

theorem scanRaised_concat : scanRaised ty op val (ls ++ [m]) =
    if ls = [] then 0 else (scanStep ty op (scanTotal ty op val ls) (val m)).2 := by
  simp [scanRaised]

theorem scanChain_eq_foldl : scanChain ty op val ls = (ls.foldl (scanAdd ty op val) (none, [])).2 := rfl

theorem scanShift_eq_foldl (ident : Word) (c : List (Nat × Word × Flags)) :
    scanShift ident c = (c.foldl shiftAdd (ident, 0, [])).2.2 := rfl

/-- A chain carries the combination of the lanes that it has met. -/
theorem foldl_scanAdd_fst : (ls.foldl (scanAdd ty op val) (none, [])).1 = if ls = [] then none else some (scanTotal ty op val ls) := by
  induction ls using List.reverseRecOn with
  | nil => rfl
  | append_singleton ls m ih =>
    rw [List.foldl_append, List.foldl_cons, List.foldl_nil, scanAdd, ih, scanTotal_concat]
    by_cases hls : ls = [] <;> simp [hls]

theorem scanChain_concat : scanChain ty op val (ls ++ [m]) =
    scanChain ty op val ls ++ [(m, scanTotal ty op val (ls ++ [m]), scanRaised ty op val (ls ++ [m]))] := by
  rw [scanChain_eq_foldl, List.foldl_append, List.foldl_cons, List.foldl_nil, scanAdd, foldl_scanAdd_fst, scanTotal_concat,
    scanRaised_concat, scanChain_eq_foldl]
  by_cases hls : ls = [] <;> simp [hls]

/-- A shifted chain carries what the last lane of the chain has, the identity before the first. -/
theorem foldl_shiftAdd : (scanChain ty op val ls).foldl shiftAdd (scanIdentity ty op, 0, []) =
    (scanTotal ty op val ls, scanRaised ty op val ls, scanShift (scanIdentity ty op) (scanChain ty op val ls)) := by
  induction ls using List.reverseRecOn with
  | nil => rfl
  | append_singleton ls m ih =>
    rw [scanShift_eq_foldl, scanChain_concat, List.foldl_append, ih]
    rfl

theorem scanShift_concat : scanShift (scanIdentity ty op) (scanChain ty op val (ls ++ [m])) =
    scanShift (scanIdentity ty op) (scanChain ty op val ls) ++ [(m, scanTotal ty op val ls, scanRaised ty op val ls)] := by
  rw [scanShift_eq_foldl, scanChain_concat, List.foldl_append, foldl_shiftAdd]
  rfl

end

theorem scanChain_getLast? (ty : Ty) (op : ScanOp) (val : Nat → Word) {ls : List Nat} (hne : ls ≠ []) :
    (scanChain ty op val ls).getLast?.map (·.2.1) = some (scanTotal ty op val ls) := by
  obtain ⟨before, m, rfl⟩ := (List.eq_nil_or_concat ls).resolve_left hne
  simp [scanChain_concat]

-- ===== a lane of a chain =====

/-- Where each lane's entry is made from the lanes before it, an entry of ascending lanes is found with those below it. -/
theorem find?_chain {α : Type} {c : List Nat → List (Nat × α)} {r : List Nat → Nat → α} (hnil : c [] = [])
    (hc : ∀ ls m, c (ls ++ [m]) = c ls ++ [(m, r ls m)]) {ls : List Nat} (hs : ls.Pairwise (· < ·)) (l : Nat) :
    (c ls).find? (fun x => x.1 == l) = if l ∈ ls then some (l, r (ls.filter fun m => decide (m < l)) l) else none := by
  induction ls using List.reverseRecOn with
  | nil => simp [hnil]
  | append_singleton ls m ih =>
    obtain ⟨hls, -, hlast⟩ := List.pairwise_append.1 hs
    have hlt : ∀ x ∈ ls, x < m := fun x hx => hlast x hx m (List.mem_singleton_self m)
    rw [hc, List.find?_append, ih hls]
    by_cases hl : l ∈ ls
    · simp [hl, (hlt l hl).not_gt]
    · by_cases hm : m = l
      · subst hm
        simp [hl, List.filter_eq_self.2 fun x hx => decide_eq_true (hlt x hx)]
      · simp [hl, hm, Ne.symm hm]

theorem filter_le_eq_concat {ls : List Nat} (hs : ls.Pairwise (· < ·)) {l : Nat} (hl : l ∈ ls) :
    (ls.filter fun m => decide (m ≤ l)) = (ls.filter fun m => decide (m < l)) ++ [l] := by
  obtain ⟨before, after, rfl⟩ := List.append_of_mem hl
  obtain ⟨-, hafter, hbefore⟩ := List.pairwise_append.1 hs
  have hlt : ∀ x ∈ before, x < l := fun x hx => hbefore x hx l List.mem_cons_self
  have hgt : ∀ x ∈ after, l < x := (List.pairwise_cons.1 hafter).1
  have hself : before.filter (fun m => decide (m < l)) = before := List.filter_eq_self.2 fun x hx => decide_eq_true (hlt x hx)
  have hself' : before.filter (fun m => decide (m ≤ l)) = before := List.filter_eq_self.2 fun x hx => decide_eq_true (hlt x hx).le
  have hnone : after.filter (fun m => decide (m < l)) = [] := List.filter_eq_nil_iff.2 fun x hx => by simpa using (hgt x hx).le
  have hnone' : after.filter (fun m => decide (m ≤ l)) = [] := List.filter_eq_nil_iff.2 fun x hx => by simpa using hgt x hx
  simp [hself, hself', hnone, hnone']

section
variable (ty : Ty) (op : ScanOp) (val : Nat → Word) {ls : List Nat} (hs : ls.Pairwise (· < ·)) {l : Nat} (hl : l ∈ ls)
include hs hl

theorem chainAt_scanChain : chainAt (scanChain ty op val ls) l =
    (scanTotal ty op val (ls.filter fun m => decide (m ≤ l)), scanRaised ty op val (ls.filter fun m => decide (m ≤ l))) := by
  rw [chainAt, find?_chain rfl (scanChain_concat ty op val) hs, if_pos hl, filter_le_eq_concat hs hl]
  rfl

theorem chainAt_scanShift : chainAt (scanShift (scanIdentity ty op) (scanChain ty op val ls)) l =
    (scanTotal ty op val (ls.filter fun m => decide (m < l)), scanRaised ty op val (ls.filter fun m => decide (m < l))) := by
  rw [chainAt, find?_chain (c := fun ls => scanShift (scanIdentity ty op) (scanChain ty op val ls)) rfl
    (scanShift_concat ty op val) hs, if_pos hl]
  rfl

end

-- ===== scan and redl =====

section
variable (h : Hdr) (ty : Ty) (op : ScanOp) (a : Src) {s : State} {t : Team} (hs : Issuing s t)
include hs

/-- R182: scan takes the lanes of its scope up to each lane, or those before it. -/
theorem scan_completes (warp excl : Bool) (d : BitVec 7) :
    let val := readSrc s s.cur t (typedAs ty) a
    let upTo := fun l : Nat => (scopeLanes t h (!warp) l).filter fun m => if excl then decide (m < l) else decide (m ≤ l)
    Computes (.scan h ty warp excl op d a) s t h L8 [(.v d.toNat, fun l => some (scanTotal ty op val (upTo l)))]
      fun l => scanRaised ty op val (upTo l) := by
  intro val upTo
  let chain := fun l =>
    let c := scanChain ty op val (scopeLanes t h (!warp) l)
    if excl then scanShift (scanIdentity ty op) c else c
  have hat : ∀ l ∈ activeLanes t h, chainAt (chain l) l = (scanTotal ty op val (upTo l), scanRaised ty op val (upTo l)) := by
    intro l hl
    cases excl with
    | false => exact chainAt_scanChain ty op val (scopeLanes_sorted ..) (mem_scopeLanes_self _ hl)
    | true => exact chainAt_scanShift ty op val (scopeLanes_sorted ..) (mem_scopeLanes_self _ hl)
  have k := crossWord_computesOne (i := .scan h ty warp excl op d a) (g := fun l => chainAt (chain l) l) hs
    (show execScan h ty warp excl op d a s = _ from forTeam_of_tfind hs.team _)
  exact k.congr (fun l hl => by rw [hat l hl]) fun l hl => by rw [hat l hl]

/-- R183: redl takes all lanes of its scope, and each lane raises the flags of its own step. -/
theorem redl_completes (team : Bool) (d : Dst) :
    let val := readSrc s s.cur t (typedAs ty) a
    Computes (.redl h ty team op d a) s t h L8 [(dstReg d, fun l => some (scanTotal ty op val (scopeLanes t h team l)))]
      fun l => scanRaised ty op val ((scopeLanes t h team l).filter fun m => decide (m ≤ l)) := by
  intro val
  have hword : execRedl h ty team op d a s = _ := forTeam_of_tfind hs.team _
  refine (crossWord_computesOne (i := .redl h ty team op d a) hs hword).congr (fun l hl => ?_) fun l hl => ?_
  · have hne := List.ne_nil_of_mem (mem_scopeLanes_self team hl)
    simp only [scanChain_getLast? ty op _ hne, Option.getD_some]
    rfl
  · exact congrArg Prod.snd (chainAt_scanChain ty op val (scopeLanes_sorted ..) (mem_scopeLanes_self _ hl))

end

theorem typedAs_eq (ty : Ty) : typedAs ty = if ty = .f32 then .flt .f32 else .int := by
  simp only [typedAs, beq_iff_eq]

theorem scanRead_of_ne_f32 {ty : Ty} (hty : ty ≠ .f32) (x : Word) : scanRead ty x = putBits ty.bits x := by
  rw [scanRead, beq_false_of_ne hty]
  rfl

theorem scanStep_of_ne_f32 {ty : Ty} (hty : ty ≠ .f32) (op : ScanOp) (x y : Word) : scanStep ty op x y = (match op with
    | .add => putInt ty (rdInt ty x + rdInt ty y)
    | .min => putInt ty (min (rdInt ty x) (rdInt ty y))
    | .max => putInt ty (max (rdInt ty x) (rdInt ty y))
    | .and => putBits ty.bits (x &&& y)
    | .or => putBits ty.bits (x ||| y), 0) := by
  cases op <;> simp [scanStep, hty]

theorem putBits_neg_one (ty : Ty) : putBits ty.bits (-1) = BitVec.ofNat 64 (2 ^ ty.bits - 1) := by
  cases ty <;> rfl

theorem scanIdentity_eq (ty : Ty) (op : ScanOp) : scanIdentity ty op = match op with
    | .add | .or => 0
    | .and => BitVec.ofNat 64 (2 ^ ty.bits - 1)
    | .min => if ty = .f32 then 0x7F800000 else putInt ty ty.largest
    | .max => if ty = .f32 then 0xFF800000 else putInt ty ty.least := by
  have hinf : BitVec.ofNat 64 (Fmt.f32.inf false) = 0x7F800000 ∧ BitVec.ofNat 64 (Fmt.f32.inf true) = 0xFF800000 := by decide
  cases op with
  | add | or => rfl
  | and => exact putBits_neg_one ty
  | min => simp only [scanIdentity, beq_iff_eq, hinf.1]
  | max => simp only [scanIdentity, beq_iff_eq, hinf.2]

/-- Settles O27: each word's slot writes what its lanes read of each other; a mask's bits are the lanes' own places, and a
lane of a chain stands after exactly the lanes of its scope below it. -/
theorem crossLaneWords : Obligations.CrossLaneWords := by
  unfold Obligations.CrossLaneWords
  refine ⟨fun h ty team vm sm d dv a b pa pc s t hs => ⟨?vote, ?shfl, ?push, ?matching⟩,
    fun h ty team excl op d dv a s t hs => ⟨?scan, ?redl, fun x y hty => ?ints, scanIdentity_eq ty, fun x y => ⟨rfl, rfl, rfl⟩⟩⟩
  case vote => exact ⟨_, vote_completes h team vm d pa hs, fun l _ => voteVal_spec t h team vm pa l⟩
  case shfl =>
    have k := shfl_completes h team sm dv a b pc hs
    cases sm with
    | rel => simpa only [shflLane_rel] using k
    | abs | rot | mix | bcast => exact k
  case push => simpa only [pushSender_sound hs] using push_completes h dv a b hs
  case matching =>
    refine ⟨_, matchLanes_completes h ty dv a hs, fun l _ i hi => (getLsbD_warpMask _ hi).trans ?_⟩
    simp only [putBits_beq_iff]
    rfl
  case scan =>
    have k := scan_completes h ty op a hs (!team) excl dv
    rw [typedAs_eq, Bool.not_not] at k
    exact k
  case redl =>
    have k := redl_completes h ty op a hs team d
    rw [typedAs_eq] at k
    exact k
  case ints => exact ⟨scanRead_of_ne_f32 hty x, scanStep_of_ne_f32 hty op x y⟩

end Sys2Proof.Machine
end

section
/-! Tokens and layout slots (R233, R236, R237): what a read of memory by the machine keeps, that a walk which finds its leaf
lost no table block on the way, and what the read of a pending slot comes to. -/

namespace Sys2Proof.Machine

-- ===== data kept =====

theorem DataKept.refl (s : State) : DataKept s s := ⟨rfl, fun _ => rfl, fun _ => rfl⟩

theorem DataKept.trans {s u v : State} (h : DataKept s u) (g : DataKept u v) : DataKept s v :=
  ⟨g.mem.trans h.mem, fun k => (g.sp k).trans (h.sp k), fun k => (g.acc k).trans (h.acc k)⟩

/-- What touches neither memory nor a cluster keeps all data. -/
theorem DataKept.of_clusters {s u : State} (hm : u.mem = s.mem) (hc : u.clusters = s.clusters) : DataKept s u :=
  ⟨hm, fun k => by simp only [State.cluster, hc], fun k => by simp only [State.cluster, hc]⟩

/-- So does a change of the lines that one cluster's L1 holds. -/
theorem DataKept.setL1 (s : State) (cl : Nat) (ls : List L1Line) : DataKept s (s.setCluster cl { s.cluster cl with l1 := ls }) := by
  refine ⟨rfl, fun k => ?_, fun k => ?_⟩ <;>
  · by_cases hk : k = cl
    · subst hk
      rw [State.setCluster_cluster_self]
    · rw [State.setCluster_cluster_ne _ _ hk]

/-- And a fold whose every step keeps the data, whatever it carries beside the state. -/
theorem DataKept.foldl {α β : Type} (st : β → State) (f : β → α → β) (h : ∀ b x, DataKept (st b) (st (f b x)))
    (xs : List α) (b : β) : DataKept (st b) (st (xs.foldl f b)) := by
  induction xs generalizing b with
  | nil => exact .refl _
  | cons x xs ih => exact (h b x).trans (ih _)

-- ===== reads of memory keep the data =====

/-- What the read of an error block can come to (R382, R384): no byte changes, and either no block is lost by it or this one
is. -/
theorem readBlock_cases (s : State) (b o v : Nat) :
    let u := (readBlock s b o v).1
    u.mem = s.mem ∧ u.clusters = s.clusters ∧ ((u.lost = s.lost ∧ u.retiring = s.retiring) ∨ u.lost = s.lost ++ [b]) := by
  unfold readBlock
  split
  · exact ⟨rfl, rfl, .inl ⟨rfl, rfl⟩⟩
  next hb =>
  split
  · exact ⟨rfl, rfl, .inl ⟨rfl, rfl⟩⟩
  next k _ =>
  cases k with
  | single | transient => exact ⟨rfl, rfl, .inl ⟨rfl, rfl⟩⟩
  | lasting =>
    simp only [loseBlock, hb]
    split <;> exact ⟨rfl, rfl, .inr rfl⟩

theorem readBlock_dataKept (s : State) (b o v : Nat) : DataKept s (readBlock s b o v).1 := by
  obtain ⟨hm, hc, -⟩ := readBlock_cases s b o v
  exact .of_clusters hm hc

theorem readBlocks_dataKept (s : State) (pa n o v : Nat) : DataKept s (readBlocks s pa n o v).1 := by
  unfold readBlocks
  refine DataKept.foldl Prod.fst _ (fun _ _ => ?_) _ (s, false)
  exact readBlock_dataKept ..

theorem llcPut_clusters (s : State) (l : LlcLine) (h : Hint) : (llcPut s l h).clusters = s.clusters := by
  unfold llcPut
  dsimp only
  repeat' split
  all_goals rfl

theorem llcTouch_dataKept (s : State) (p pa : Nat) (d sh : Bool) (h : Hint) : DataKept s (llcTouch s p pa d sh h) := by
  refine .of_clusters (llcTouch_mem ..) ?_
  unfold llcTouch
  split
  · exact llcPut_clusters ..
  · rfl

theorem l1Touch_dataKept (s : State) (cl : Nat) (l : L1Line) (h : Hint) : DataKept s (l1Touch s cl l h) := by
  cases h with
  | none | keep => exact (DataKept.setL1 s cl _).trans (.of_clusters rfl rfl)
  | stream | bypass => exact .refl s

theorem l1Fill_dataKept (s : State) (cl : Nat) (l : L1Line) (h : Hint) : DataKept s (l1Fill s cl l h) := by
  unfold l1Fill
  extract_lets c others inSet
  split
  · exact .refl s
  · exact (DataKept.setL1 s cl _).trans (.of_clusters rfl rfl)

/-- A read of home memory through the L1 keeps the data: it fills lines and meets errors (R202, R382). -/
theorem cachedRead_dataKept (s : State) (cl p pa n : Nat) (h : Hint) (cn : Bool) (ver va : Nat) (sh : Bool) :
    DataKept s (cachedRead s cl p pa n h cn ver va sh).s := by
  unfold cachedRead
  split
  · exact l1Touch_dataKept ..
  · have hread := readBlocks_dataKept s pa n p va
    split
    next s1 bad heq =>
    rw [heq] at hread
    split
    · exact hread
    · extract_lets v s2 s3 l
      have hllc : DataKept s s3 := by
        refine (hread.trans ?_).trans (llcTouch_dataKept s2 p pa false sh .none)
        unfold s2
        split
        · exact .refl s1
        · exact readBlocks_dataKept ..
      split
      · exact hllc
      · exact hllc.trans (l1Fill_dataKept ..)

theorem tlbTouch_dataKept (s : State) (c p va leaf bits : Nat) : DataKept s (tlbTouch s c p va leaf bits) := .of_clusters rfl rfl

theorem hostRequest_dataKept (s : State) (n pa va : Nat) : DataKept s (hostRequest s n pa va) := by
  unfold hostRequest
  extract_lets fn ats f page told mine kept
  split <;> exact .of_clusters rfl rfl

theorem askWalkFor_dataKept (s : State) (d p page va : Nat) (x : Waiter) : DataKept s (askWalkFor s d p page va x) := by
  unfold askWalkFor
  split <;> exact .of_clusters rfl rfl

/-- Where no frame is under retirement, no access of the machine itself ends one. -/
theorem settleFor_of_retiring_nil {s : State} (hr : s.retiring = []) (pas : List Nat) : settleFor s pas = s := by
  have hfree : (pas.any (frameHeld s)) = false := List.any_eq_false.2 fun pa _ => by simp [frameHeld, hr]
  rw [settleFor, hfree]
  rfl

theorem reach_dataKept {s : State} (hr : s.retiring = []) (p pa va : Nat) : DataKept s (reach s p pa va).1 := by
  rw [reach, settleFor_of_retiring_nil hr]
  dsimp only
  split
  · exact .refl s
  · exact (hostRequest_dataKept s p pa va).trans (.of_clusters rfl rfl)

-- ===== a walk that finds its leaf =====

/-- The tables' entries that a walk reads depend on memory alone. -/
theorem walkReads_congr {s u : State} (hm : u.mem = s.mem) (va l table : Nat) : walkReads u va l table = walkReads s va l table := by
  induction l generalizing table with
  | zero => rfl
  | succ l ih =>
    simp only [walkReads, memGet, hm, ih]
    rfl

/-- A walk that finds its leaf read no entry in a lost block (R384). -/
theorem walkFrom_reads_sound {s : State} {va l table : Nat} {x : Nat × Nat} (h : walkFrom s va l table = some x) :
    ∀ pa ∈ walkReads s va l table, pa / 32 ∉ s.lost := by
  induction l generalizing table with
  | zero =>
    intro pa hpa
    obtain rfl : pa = _ := List.mem_singleton.1 hpa
    intro hlost
    simp [walkFrom, hlost] at h
  | succ l ih =>
    rw [walkFrom] at h
    rw [walkReads]
    intro x hx
    generalize table + 8 * natBits va (21 + 9 * l + 8) (21 + 9 * l) = pa at h hx
    split at h
    · exact nomatch h
    next hgo =>
    rcases List.mem_cons.1 hx with rfl | hx
    · intro hlost
      simp [hlost] at hgo
    · split at hx
      · next hdeeper =>
        simp only [Bool.and_eq_true, Bool.not_eq_true'] at hdeeper
        obtain ⟨⟨-, hnoLeaf⟩, -⟩ := hdeeper
        rw [hnoLeaf, if_neg Bool.false_ne_true] at h
        split at h
        · exact ih h x hx
        · exact nomatch h
      · exact nomatch hx

/-- The state after the reads of a walk's entries, with the errors that they meet (R382). -/
def entriesRead (o v : Nat) (pas : List Nat) (s : State) : State := pas.foldl (fun u pa => (readBlock u (pa / 32) o v).1) s

theorem entriesRead_dataKept (o v : Nat) (pas : List Nat) (s : State) : DataKept s (entriesRead o v pas s) :=
  DataKept.foldl id _ (fun _ _ => readBlock_dataKept ..) pas s

theorem entriesRead_cons (o v pa : Nat) (pas : List Nat) (s : State) :
    entriesRead o v (pa :: pas) s = entriesRead o v pas (readBlock s (pa / 32) o v).1 := rfl

theorem lost_subset_readBlock (s : State) (b o v : Nat) : s.lost ⊆ (readBlock s b o v).1.lost := by
  obtain ⟨-, -, ⟨hl, -⟩ | hl⟩ := readBlock_cases s b o v <;> simp [hl]

theorem lost_subset_entriesRead (o v : Nat) (pas : List Nat) (s : State) : s.lost ⊆ (entriesRead o v pas s).lost := by
  induction pas generalizing s with
  | nil => exact fun _ h => h
  | cons pa pas ih => exact fun _ h => ih _ (lost_subset_readBlock s (pa / 32) o v h)

/-- Reads that leave none of their own blocks lost start no retirement. -/
theorem entriesRead_retiring {o v : Nat} {pas : List Nat} {s : State} (h : ∀ pa ∈ pas, pa / 32 ∉ (entriesRead o v pas s).lost) :
    (entriesRead o v pas s).retiring = s.retiring := by
  induction pas generalizing s with
  | nil => rfl
  | cons pa pas ih =>
    rw [entriesRead_cons] at h ⊢
    obtain ⟨hpa, hpas⟩ := List.forall_mem_cons.1 h
    rw [ih hpas]
    obtain ⟨-, -, ⟨-, hr⟩ | hl⟩ := readBlock_cases s (pa / 32) o v
    · exact hr
    · exact absurd (lost_subset_entriesRead o v pas _ (by simp [hl])) hpa

/-- A walk of an address that the tables can hold (R320): it reads its entries and then finds what the tables hold. -/
theorem walkNow_of_lt {p va : Nat} (s : State) (hva : ¬va ≥ 2 ^ 48) :
    let root := (s.partition p).proot * 4096
    let u := entriesRead p va (walkReads s va 3 root) s
    walkNow s p va = (u, walkFrom u va 3 root) := by
  rw [walkNow, if_neg hva]
  rfl

theorem walkNow_dataKept (s : State) (p va : Nat) : DataKept s (walkNow s p va).1 := by
  by_cases hva : va ≥ 2 ^ 48
  · rw [walkNow, if_pos hva]
    exact .refl s
  · rw [walkNow_of_lt s hva]
    exact entriesRead_dataKept ..

/-- A walk that finds its leaf starts no retirement: an error that lasts in its tables would have lost it the leaf. -/
theorem walkNow_retiring {s : State} {p va : Nat} {x : Nat × Nat} (h : (walkNow s p va).2 = some x) :
    (walkNow s p va).1.retiring = s.retiring := by
  by_cases hva : va ≥ 2 ^ 48
  · rw [walkNow, if_pos hva]
  · rw [walkNow_of_lt s hva] at h ⊢
    refine entriesRead_retiring fun pa hpa => walkFrom_reads_sound h pa ?_
    rwa [walkReads_congr (entriesRead_dataKept ..).mem]

theorem walkAt_dataKept (s : State) (p va : Nat) (need : Need) : DataKept s (walkAt s p va need).1 := by
  unfold walkAt
  split
  · exact .refl s
  · dsimp only
    split <;> exact walkNow_dataKept ..

theorem walkAt_retiring {s : State} {p va pa : Nat} {need : Need} (h : (walkAt s p va need).2 = .ok pa) :
    (walkAt s p va need).1.retiring = s.retiring := by
  unfold walkAt at h ⊢
  split
  · rfl
  · next hw =>
    rw [if_neg hw] at h
    dsimp only at h ⊢
    split at h
    · exact nomatch h
    · next hleaf => simpa only [hleaf] using walkNow_retiring hleaf

theorem walkHeld_of_retiring_nil {s : State} (hr : s.retiring = []) (p va : Nat) (need : Need) :
    walkHeld s p va need = walkAt s p va need := by
  rw [walkHeld, settleFor_of_retiring_nil hr]

-- ===== the read of a layout slot =====

theorem slotFetch_dataKept {s : State} (hr : s.retiring = []) (f : Nat) (t : Team) (x : LySlot) (pa leaf : Nat) :
    DataKept s (slotFetch s f t x pa leaf).1 := by
  unfold slotFetch
  extract_lets l held
  have hreach : DataKept s (if held then (s, .ok pa) else reach s t.partition pa (slotAddr s t x)).1 := by
    split
    · exact .refl s
    · exact reach_dataKept hr ..
  split
  · next heq => rwa [heq] at hreach
  · next heq =>
    rw [heq] at hreach
    exact hreach.trans (cachedRead_dataKept ..)

/-- The read of a slot keeps the data where no frame is under retirement: a walk that would start a retirement finds no leaf,
and then nothing is read (R237, R385). -/
theorem slotRead_dataKept {s : State} (hr : s.retiring = []) {f : Nat} {t : Team} {x : LySlot} {r : State × Option Nat}
    (h : slotRead s f t x = some r) : DataKept s r.1 := by
  unfold slotRead at h
  extract_lets a at h
  split at h
  · cases h
    exact .refl s
  split at h
  · rw [walkHeld_of_retiring_nil hr] at h
    have hwalk := walkAt_dataKept s t.partition a .read
    split at h
    · next heq =>
      cases h
      rwa [heq] at hwalk
    · next heq =>
      cases h
      have hr' := walkAt_retiring (congrArg Prod.snd heq)
      rw [heq] at hwalk hr'
      exact hwalk.trans (slotFetch_dataKept (hr'.trans hr) ..)
  · obtain ⟨y, -, rfl⟩ := Option.map_eq_some_iff.1 h
    split
    · exact .refl s
    · split
      · exact .refl s
      · exact (tlbTouch_dataKept ..).trans (slotFetch_dataKept (s := tlbTouch ..) hr ..)

/-- An address that is no multiple of 64 is not read (R237). -/
theorem slotRead_misaligned {x : LySlot} (hx : x.addr % 64 ≠ 0) (s : State) (f : Nat) (t : Team) :
    slotRead s f t x = some (s, none) := by
  simp [slotRead, hx]

/-- A slot after its read: loaded with the record, or faulted where there is none. -/
def LySlot.ended (x : LySlot) : Option Nat → LySlot
  | some rec => { x with state := .loaded, record := rec, xlat := [] }
  | none => { x with state := .faulted, xlat := [] }

/-- Whether bytes at an access's place meet the record at a slot's place. -/
def meetsRecord (place : AccPlace) (size : Nat) (record : Option Nat) : Bool :=
  match place, record with
  | .home p, some q => spansMeet p size q 64
  | _, _ => false

theorem meetsRecord_iff {place : AccPlace} {size : Nat} {record : Option Nat} : meetsRecord place size record = true ↔
    ∃ p q, place = .home p ∧ record = some q ∧ p < q + 64 ∧ q < p + size := by
  cases place <;> cases record <;> simp [meetsRecord, spansMeet]

/-- Whether the read of a slot has to wait: for an earlier access of its bytes, an earlier acquire, or its walk. -/
def slotHeld (s : State) (f : Nat) (u : Team) (n : Nat) : Bool :=
  let x := tget u.slots n {}
  (s.accs.any fun e => e.2.team == f && decide (e.2.issue < x.issue) && meetsRecord e.2.place e.2.size (slotPlace s f u x)) ||
    (u.pend.any fun p => p.acq.isSome && decide (p.issue < x.issue)) || slotWalks s f n

theorem slotHeld_iff {s : State} {f : Nat} {u : Team} {n : Nat} : slotHeld s f u n = true ↔
    (∃ e ∈ s.accs, e.2.team = f ∧ e.2.issue < (tget u.slots n {}).issue ∧ ∃ p q, e.2.place = .home p ∧
      slotPlace s f u (tget u.slots n {}) = some q ∧ p < q + 64 ∧ q < p + e.2.size) ∨
    (∃ p ∈ u.pend, p.acq ≠ none ∧ p.issue < (tget u.slots n {}).issue) ∨ ∃ w ∈ s.walks, .slot f n ∈ w.2.others := by
  simp only [slotHeld, slotWalks, Bool.or_eq_true, List.any_eq_true, Bool.and_eq_true, beq_iff_eq, decide_eq_true_eq,
    meetsRecord_iff, Option.isSome_iff_ne_none, List.contains_iff_mem, and_assoc, or_assoc]

section
variable {s : State} {f n : Nat} {u : Team} (hu : tfind s.teams f = some u) (hp : (tget u.slots n {}).state = .pending)
include hu hp

/-- The event leaves a held slot alone; else the slot is read, or asks for the walk that it lacks. -/
theorem exec_layoutSlotLoaded : exec (.layoutSlotLoaded f n) s = .next (
    let x := tget u.slots n {}
    if slotHeld s f u n then s
    else (slotRead s f u x).elim (askWalkFor s (dieOf f) u.partition (slotAddr s u x / 2 ^ 16) (slotAddr s u x) (.slot f n))
      fun r => r.1.modTeam f fun t => { t with slots := tput t.slots n (x.ended r.2) }) := by
  change execLayoutSlotLoaded f n s = _
  unfold execLayoutSlotLoaded
  rw [hu]
  dsimp only
  rw [hp]
  cases slotRead s f u (tget u.slots n {}) with
  | none => rfl
  | some r =>
    obtain ⟨s1, rec⟩ := r
    cases rec <;> rfl

theorem layoutSlotLoaded_waits (hh : slotHeld s f u n = true) : exec (.layoutSlotLoaded f n) s = .next s := by
  rw [exec_layoutSlotLoaded hu hp]
  exact congrArg _ (if_pos hh)

theorem layoutSlotLoaded_asks (hh : slotHeld s f u n = false) (hr : slotRead s f u (tget u.slots n {}) = none) :
    exec (.layoutSlotLoaded f n) s = .next (askWalkFor s (dieOf f) u.partition (slotAddr s u (tget u.slots n {}) / 2 ^ 16)
      (slotAddr s u (tget u.slots n {})) (.slot f n)) := by
  rw [exec_layoutSlotLoaded hu hp]
  simp only [hh, hr]
  rfl

theorem layoutSlotLoaded_ends (hh : slotHeld s f u n = false) {r : State × Option Nat}
    (hr : slotRead s f u (tget u.slots n {}) = some r) : exec (.layoutSlotLoaded f n) s =
      .next (r.1.modTeam f fun t => { t with slots := tput t.slots n ((tget u.slots n {}).ended r.2) }) := by
  rw [exec_layoutSlotLoaded hu hp]
  simp only [hh, hr]
  rfl

end

theorem State.modTeam_of_tfind {s : State} {f : Nat} {u : Team} (hu : tfind s.teams f = some u) (g : Team → Team) :
    s.modTeam f g = s.setTeam f (g u) := by
  rw [State.modTeam, tmod_eq _ _ hu]
  rfl

-- ===== tkchk and lyset =====

theorem tkchk_completes (h : Hdr) (d : Dst) (tok : BitVec 6) : ComputesOne (.tkchk h d tok) h L4 (dstReg d)
    fun _ _ t _ => (if tokenOut t tok.toNat then 0xFF else readK t tok.toNat, 0) :=
  alu_computesOne
    { i := .tkchk h d tok, h, lat := L4, dests := [dstReg d], lin := .none, srcs := []
      fn := fun _ _ t _ => laneVal d (if tokenOut t tok.toNat then 0xFF else readK t tok.toNat, 0) }
    _ _ _ (fun _ => rfl) nofun rfl fun _ _ _ _ => rfl

/-- A signed field read by the model is the library's signed value, at every width. -/
theorem signedOf_eq_toInt {w : Nat} (x : BitVec w) : signedOf w x.toNat = x.toInt := by
  cases w with
  | zero => simp [signedOf, BitVec.of_length_zero]
  | succ w =>
    simp only [signedOf, Nat.mod_eq_of_lt x.isLt, BitVec.toInt_eq_toNat_cond, Nat.add_sub_cancel]
    split <;> split <;> omega

section
variable {s : State} {t : Team} (ht : tfind s.teams s.cur = some t) {grp : BitVec 4}
include ht

theorem lyset_waits (h : Hdr) (space : Space) (hint : Hint) (base : Option (BitVec 6)) (off : BitVec 16)
    (hp : (tget t.slots grp.toNat {}).state = .pending) : exec (.lyset h space hint grp base off) s = .next s := by
  change execLyset h space hint grp base off s = _
  rw [execLyset, forTeam_of_tfind ht, slotOf, hp]
  rfl

theorem lyset_goes (h : Hdr) (space : Space) (hint : Hint) (base : Option (BitVec 6)) (off : BitVec 16)
    (hp : (tget t.slots grp.toNat {}).state ≠ .pending) :
    let b := match base with
      | some k => (readK t k.toNat).toNat
      | none => 0
    let slot : LySlot := { state := .pending, record := 0, addr := ((b + off.toInt) % 2 ^ 64).toNat, cn := space == .cn, hint
                           issue := t.issues }
    Goes (.lyset h space hint grp base off) s (({ t with slots := tput t.slots grp.toNat slot } : Team).issued h (t.pc + 8) []) := by
  intro b slot
  refine goes_of_finishWord_setTeam (u := { t with slots := tput t.slots grp.toNat slot }) rfl (next := none) ?_
  change execLyset h space hint grp base off s = _
  simp only [execLyset, forTeam_of_tfind ht, slotOf, beq_iff_eq, if_neg hp, signedOf_eq_toInt]
  cases base <;> rfl

end

/-- Settles O39: tkchk is an arithmetic word of no sources and lyset a word that replaces its slot; a held slot stays as it
is, and the read of any other keeps the data, since no frame that it reaches has come under retirement before it. -/
theorem tokensAndLayoutSlots : Obligations.TokensAndLayoutSlots := by
  unfold Obligations.TokensAndLayoutSlots
  intro h d tok space hint grp base off s t hs
  refine ⟨tkchk_completes h d tok s t hs, ?lyset, fun f u n hu hp => ?event⟩
  case lyset =>
    split
    · next hp => exact lyset_waits hs.team h space hint base off hp
    · next hp => exact lyset_goes hs.team h space hint base off hp
  case event =>
    refine ⟨fun hh => layoutSlotLoaded_waits hu hp (slotHeld_iff.2 hh), fun hh => ?_⟩
    have hfree : slotHeld s f u n = false := Bool.eq_false_iff.2 (mt slotHeld_iff.1 hh)
    rcases hr : slotRead s f u (tget u.slots n {}) with _ | ⟨s1, rec⟩
    · refine ⟨_, layoutSlotLoaded_asks hu hp hfree hr, fun _ => askWalkFor_dataKept .., fun _ => rfl,
        fun hx => ?_, fun _ _ hload => ?_⟩
      · exact absurd ((slotRead_misaligned hx s f u).symm.trans hr) (Option.some_ne_none _)
      · exact absurd hload.symm (Option.some_ne_none _)
    · refine ⟨_, layoutSlotLoaded_ends hu hp hfree hr, fun hret => (slotRead_dataKept hret hr).trans (.of_clusters rfl rfl),
        fun hnone => absurd hnone (Option.some_ne_none _), fun hx => ?_, fun s2 rec' hload hu2 => ?_⟩
      · cases hr.symm.trans (slotRead_misaligned hx s f u)
        exact State.modTeam_of_tfind hu _
      · cases hload
        exact State.modTeam_of_tfind hu2 _

end Sys2Proof.Machine
end
